-- ==== Sys2Proof/Word.lean ====
section
/-! DEFINITION. The plain word types of the Vareg model: bytes, and the bit vectors that the spec adds, compares modulo a power of two, or lays out in a structure. -/
namespace Sys2Proof

/-- One byte of a frame, a structure or a memory. -/
abbrev Byte := BitVec 8
/-- A ring index, a peg value or a collective tag. -/
abbrev W16 := BitVec 16
/-- An epoch, a count field or a chunk index. -/
abbrev W32 := BitVec 32
/-- A leaf address, a counter of a status page or a DBG register. -/
abbrev W64 := BitVec 64
/-- A leaf port number (R58). -/
abbrev LPort := Fin 8
/-- A work ring number of a leaf port. -/
abbrev RingNo := Fin 8
/-- A Trellis port: 0 X+, 1 X-, 2 Y+, 3 Y-, 4 Z+, 5 Z- (R199). -/
abbrev TPort := Fin 6
/-- A tenant number (R63). -/
abbrev Tenant := Fin 4

end Sys2Proof
end

