-- ==== Sys2Proof/Syntax.lean ====
section
/-! DEFINITION. The commands of the Vareg block: one constructor of Instr for each row of spec/opcode_table.json, in its order. An operand is what the unit's surroundings supply: a port, the content of a frame that Darn accepted, or what a measurement found. -/
namespace Sys2Proof

/-- The content of a Lemius frame (R222, R223): header fields and the meaningful payload bytes. -/
structure LemFrame where
  kind : Byte
  vc : BitVec 2
  stream : BitVec 4
  last : Bool
  status : BitVec 3
  addr : W64
  payload : List Byte
  deriving DecidableEq, Repr

/-- The content of a Trellis frame (R275, R276): header fields and the meaningful payload bytes. -/
structure TrlFrame where
  kind : Byte
  vc : BitVec 3
  tenant : Tenant
  endChunk : Bool
  src : BitVec 6
  coll : W16
  chunk : W32
  frame : W16
  dest : BitVec 6
  payload : List Byte
  deriving DecidableEq, Repr

/-- The averaged voltages of one level pin in microvolts at 100, 10 and 4 microamperes (R122). -/
structure PinVolts where
  at100 : Nat
  at10 : Nat
  at4 : Nat
  deriving DecidableEq, Repr

/-- Where a storage error was found (R522, R583, R617, R708). -/
inductive ErrSite
  /-- The Spool word at a physical byte address. -/
  | spool (addr : Nat)
  /-- The yard word at a physical byte address. -/
  | yard (addr : Nat)
  /-- The storage of leaf-port island `p`. -/
  | leafIsland (p : LPort)
  /-- The word of a pool peg. -/
  | poolPeg (peg : W16)
  /-- An internal queue outside the leaf-port islands, or another island's storage. -/
  | otherIsland
  /-- A read of the Spool met an error of one byte, which is corrected (R522; log 100). -/
  | spoolCorrected
  /-- The same in the yard (R708). -/
  | yardCorrected
  /-- The same in any other on-die storage (R387). -/
  | otherCorrected
  deriving DecidableEq, Repr

/-- The islands of R72, for a crossing-queue stall. -/
inductive Island
  | leaf (p : LPort)
  | trellis (i : TPort)
  | espalier
  | press
  | spool (k : Fin 2)
  | peg
  | housekeeping
  deriving DecidableEq, Repr

/-- A Lane Margining request's command (R216). The spec leaves its bits to the base specification. -/
structure MarginRequest where
  lane : Fin 8
  command : Byte
  payload : Byte
  deriving DecidableEq, Repr

/-- What a port's training with its partner has shown: the alternate protocol that the partner selects in modified training sets, none where its sets are unmodified (R217); whether the partner offers 64 GT/s; and the lanes, bit l for lane l, that are detected facing the same lane of the leaf, and that equalise at 64 and at 32 GT/s (R218). -/
structure Training where
  selected : Option (W16 × Byte)
  offers64 : Bool
  inOrder : Byte
  equal64 : Byte
  equal32 : Byte
  deriving DecidableEq, Repr

/-- The bytes that the FEC corrects in a received frame, at most one for each of its three interleaves: the byte's place among those of the interleave, 84 and 85 the check bytes, and its corrected value (R225; log 7). -/
abbrev FecFix := Vector (Option (Fin 86 × Byte)) 3

/-- The commands: one constructor per row of the opcode table. -/
inductive Instr
  | vddIoRise
  | railsRisingEnd
  | vddIoFall
  | brownOut (rail : Fin 9) (clockToo : Bool)
  | clockLoss (brownToo : Bool)
  | resetAssert (chain : Bool)
  | resetRelease (chain : Bool)
  | housekeepingLock
  | housekeepingLockFail
  | levelPinMeasurement (volts : List PinVolts) (straps : BitVec 4) (rsvdG : W16) (blowTakes : Bool)
  | islandLoopsLocked (fail : BitVec 20)
  | memoryInitialised (sramFail spool0Fail spool1Fail : Bool)
  | readyAssert
  | portStart (p : LPort)
  | lemiusLinkUp (p : LPort) (found : Training)
  | lemiusTrainingTimeout (p : LPort)
  | lemiusFrameReceive (p : LPort) (bytes : List Byte) (fixes : FecFix)
  | lemiusReplayTimer (p : LPort)
  | hello (p : LPort) (f : LemFrame)
  | nudge (p : LPort) (f : LemFrame)
  | leafLinkDownFrame (p : LPort) (f : LemFrame)
  | lane0ElectricalIdle (p : LPort)
  | readCpl (p : LPort) (f : LemFrame)
  | readTimeout (p : LPort) (tag : BitVec 10)
  | tagRetireEnd (p : LPort) (tag : BitVec 10)
  | headerRead (p : LPort) (r : RingNo)
  | descriptorFetch (p : LPort) (r : RingNo)
  | pollTimer (p : LPort) (r : RingNo)
  | refetchTimer (p : LPort) (r : RingNo)
  | readRetryTimer (p : LPort) (r : RingNo)
  | dependencySatisfied (p : LPort) (r : RingNo) (k : Fin 4)
  | waitTimeoutExpiry (p : LPort) (r : RingNo)
  | nop (p : LPort) (r : RingNo)
  | broadcast (p : LPort) (r : RingNo)
  | reduceToOne (p : LPort) (r : RingNo)
  | allReduce (p : LPort) (r : RingNo)
  | reduceScatter (p : LPort) (r : RingNo)
  | allGather (p : LPort) (r : RingNo)
  | exchangeEqualSizes (p : LPort) (r : RingNo)
  | exchangeUnequalSizes (p : LPort) (r : RingNo)
  | yardLoad (p : LPort) (r : RingNo)
  | yardBlockRegister (p : LPort) (r : RingNo)
  | residentAccum (p : LPort) (r : RingNo)
  | residentFlush (p : LPort) (r : RingNo)
  | pegSet (p : LPort) (r : RingNo)
  | pegClear (p : LPort) (r : RingNo)
  | tallyAdd (p : LPort) (r : RingNo)
  | tallyTake (p : LPort) (r : RingNo)
  | barrier (p : LPort) (r : RingNo)
  | epochFence (p : LPort) (r : RingNo)
  | holdGrant (t : Tenant)
  | inputReadDone (p : LPort) (r : RingNo)
  | prologueReceive (i : TPort) (f : TrlFrame)
  | trellisDataReceive (i : TPort) (f : TrlFrame)
  | trellisSignalReceive (i : TPort) (f : TrlFrame)
  | spoolWritesPerformed (p : LPort) (r : RingNo)
  | completionRecord (p : LPort) (r : RingNo)
  | contributionWaitExpiry (t : Tenant) (coll : W16)
  | pressStage (t : Tenant) (coll : W16)
  | sieveSelection (t : Tenant) (coll : W16)
  | trellisLinkUp (i : TPort) (hMargin vMargin : List Byte)
  | trellisTrainingTimeout (i : TPort)
  | trellisPortSilent (i : TPort)
  | trellisFrameReceive (i : TPort) (bytes : List Byte) (fixes : FecFix)
  | trellisReplayTimer (i : TPort)
  | alignmentBlock (i : TPort)
  | trellisLaneLoss (i : TPort)
  | trellisLinkDownFrame (i : TPort) (f : TrlFrame)
  | sowHello (i : TPort) (f : TrlFrame)
  | reference (i : TPort) (f : TrlFrame)
  | seed (i : TPort) (f : TrlFrame)
  | close (i : TPort) (f : TrlFrame)
  | position (i : TPort) (f : TrlFrame)
  | rollcall (i : TPort) (f : TrlFrame)
  | formed (i : TPort) (f : TrlFrame)
  | stop (i : TPort) (f : TrlFrame)
  | sowOriginDeadline
  | sowReferenceDeadline
  | sowFormedDeadline
  | pegOpReceive (i : TPort) (f : TrlFrame)
  | watch (i : TPort) (f : TrlFrame)
  | unwatch (i : TPort) (f : TrlFrame)
  | arrive (i : TPort) (f : TrlFrame)
  | withdraw (i : TPort) (f : TrlFrame)
  | fallback (i : TPort) (f : TrlFrame)
  | done (i : TPort) (f : TrlFrame)
  | met (i : TPort) (f : TrlFrame)
  | full (i : TPort) (f : TrlFrame)
  | watchResendTimer (p : LPort) (r : RingNo) (k : Fin 4)
  | begin (i : TPort) (f : TrlFrame)
  | release (i : TPort) (f : TrlFrame)
  | mismatch (i : TPort) (f : TrlFrame)
  | withdrawn (i : TPort) (f : TrlFrame)
  | pegOpDoneTimeout (p : LPort) (r : RingNo)
  | barrierWatchdogExpiry (p : LPort) (r : RingNo)
  | withdrawReplyTimeout (p : LPort) (r : RingNo)
  | lineRelease
  | lineReadHigh (line : Fin 2)
  | lineWatchdogExpiry
  | crossingQueueStall (island : Island)
  | checkBitError (site : ErrSite)
  | fault (i : TPort) (f : TrlFrame)
  | drainComplete
  | drained (i : TPort) (f : TrlFrame)
  | contextChangeDone
  | clean (i : TPort) (f : TrlFrame)
  | recoveryWaitExpiry
  | state (i : TPort) (f : TrlFrame)
  | stateWaitExpiry (t : Tenant) (coll : W16)
  | verdict (i : TPort) (f : TrlFrame)
  | abort (i : TPort) (f : TrlFrame)
  | statusPeriodDue (p : LPort)
  | statusPageWrite (p : LPort)
  | patrolScrub (corrected : Nat) (badWords : List Nat)
  | tjSample (tj : W16)
  | tapReset
  | extest (drive : BitVec 39)
  | samplePreload (sample drive : BitVec 39)
  | idcode
  | clamp
  | highz
  | bypass
  | dbgStatus
  | dbgAddr (addr : W64)
  | dbgRead (update : Bool)
  | dbgReadDone (corrected uncorrectable : Bool)
  | handSet (hspace : BitVec 2) (hpeg : W16)
  | handClear (hspace : BitVec 2) (hpeg : W16)
  | handTallyAdd (hspace : BitVec 2) (hpeg hvalue : W16)
  | handTallyTake (hspace : BitVec 2) (hpeg hvalue : W16)
  | handWriteValue (hspace : BitVec 2) (hpeg hvalue : W16)
  | handEndBarrierPhase (hspace : BitVec 2) (hpeg : W16)
  | dbgLoopEnter (lport : BitVec 3)
  | dbgLoopLeave (lport : BitVec 3)
  | railFallDuringRisingPhase (rail : Fin 9)
  | lemiusBackToDetect (p : LPort)
  | electricalIdleHoldEnd (p : LPort)
  | laneMarginingRequest (p : LPort) (m : MarginRequest)
  | loopbackFollowerEntry (trellis : Bool) (port : Fin 8)
  | alignmentBlockReceive (i : TPort) (bytes : List Byte)
  | clearFirstComplete (p : LPort) (r : RingNo)
  | abortedInstanceWatchdogExpiry (t : Tenant) (coll : W16)
  deriving DecidableEq, Repr

end Sys2Proof
end

