-- ==== Sys2Proof/WellFormed.lean ====
section
/-! DEFINITION. Which commands are well formed: the operand sizes that a frame, a measurement or a link-up report has. -/
namespace Sys2Proof

/-- Whether a Lemius frame's content fits a frame (R222). -/
def LemFrame.wf (f : LemFrame) : Bool := decide (f.payload.length ≤ 224)

/-- Whether a Trellis frame's content fits a frame (R275). -/
def TrlFrame.wf (f : TrlFrame) : Bool := decide (f.payload.length ≤ 224)

/-- Whether a command's operands have the sizes that the spec gives them. A command that is not well formed names no happening of the hardware. -/
def Instr.wf : Instr → Bool
  | .levelPinMeasurement volts _ _ _ => decide (volts.length = 12)
  | .lemiusFrameReceive _ bytes _ => decide (bytes.length = 256)
  | .trellisFrameReceive _ bytes _ => decide (bytes.length = 256)
  | .alignmentBlockReceive _ bytes => decide (bytes.length = 256)
  | .trellisLinkUp _ h v => decide (h.length = 16) && decide (v.length = 16)
  | .hello _ f => f.wf && f.kind == 5
  | .nudge _ f => f.wf && f.kind == 4
  | .leafLinkDownFrame _ f => f.wf && f.kind == 7
  | .readCpl _ f => f.wf && f.kind == 2
  | .prologueReceive _ f => f.wf && f.kind == 1 && f.chunk == 0xFFFFFFFF
  | .trellisDataReceive _ f => f.wf && f.kind == 1 && f.chunk != 0xFFFFFFFF
  | .trellisSignalReceive _ f => f.wf && f.kind == 2
  | .trellisLinkDownFrame _ f => f.wf && f.kind == 6
  | .sowHello _ f | .reference _ f | .seed _ f | .close _ f | .position _ f | .rollcall _ f | .formed _ f | .stop _ f =>
    f.wf && f.kind == 5
  | .pegOpReceive _ f | .watch _ f | .unwatch _ f | .arrive _ f | .withdraw _ f | .fallback _ f => f.wf && f.kind == 3
  | .done _ f | .met _ f | .full _ f | .begin _ f | .release _ f | .mismatch _ f | .withdrawn _ f => f.wf && f.kind == 4
  | .fault _ f | .drained _ f | .clean _ f | .state _ f | .verdict _ f | .abort _ f => f.wf && f.kind == 7
  | _ => true

end Sys2Proof
end

