-- ==== Sys2Proof/Decode.lean ====
section
/-! DEFINITION. Decoding: the opcode table gives no bits to any row, because the block takes its commands from its surroundings and no word spells one. -/
namespace Sys2Proof

/-- The command that a table word spells: none, for any number of bits, since no row of the table has bits. -/
def decodeTableWord (_nbits _w : Nat) : Option Instr := none

end Sys2Proof
end

