-- ==== Sys2Proof/Config.lean ====
section
/-! DEFINITION. The values that the spec leaves open: free values without a body, so that nothing can be proved about which value they take. Each is a DESIGN CHOICE, safe, since a statement about it holds for every value (log 2). -/
namespace Sys2Proof.Config

/-- `elapsed` of a completion record (R372): nanoseconds from admission to the record. The model has no clock, so the value is free; the argument is the draw number (log 11). -/
opaque freeElapsed : Nat → BitVec 32
/-- `uptime` of a status page (R381): microseconds since reset release, free for the same reason (log 11). -/
opaque freeUptime : Nat → BitVec 64
/-- The two FEC check bytes of an interleave of a frame (R225) come from the base specification's flit mode, which is not in the spec: check byte `i` of the code over the interleave's bytes. PRESUMED to be code words of those bytes alone (log 7). -/
opaque fecByte : List Byte → Nat → Byte
/-- The first 58 bits of a Trellis lane's scrambler after a reseed (R272), which the spec does not give; the argument is the lane (log 98). -/
opaque scramblerSeed : Nat → BitVec 58
/-- What a margined receiver answers in its control SKP ordered sets (R216), whose bits are the base specification's: command and payload; the argument is the draw number (log 7). -/
opaque marginAnswer : Nat → Byte × Byte
/-- The four check bytes of a 32-byte word of the Spool or the yard (R521, R708): byte `i` of a Reed-Solomon code whose generator the spec does not give (log 101). -/
opaque checkByte : List Byte → Nat → Byte
/-- Whether the Base Bobbin of a channel holds part of a held copy that a rerun reads (R519, R520): the spec gives the hold area no layout; the arguments are the draw number and the channel (log 12). -/
opaque holdsPart : Nat → Nat → Bool
/-- What the recovery root, or a stand-in, goes by for a group of which no frame has told it (R624, R633): part 0 the 88 agreement bytes, 1 the member list, 2 + a the local mask of the unit at address a. The spec does not say how it knows; the argument is the tenant, the key, the instance and a unit of the group (log 105). -/
opaque farGroup : Nat × BitVec 16 × BitVec 16 × Nat → Nat → List Byte
/-- The level-pin codes of the unit at an address, in the order of R119. R65 and R66 judge members on other units by those units' tenant maps and leaf configuration, and no frame carries them (log 8). -/
opaque peerCode : Nat → Nat → BitVec 4
/-- R706: whether the word of the region with this number was cleared by a flush that met a bad word; the first argument is the draw number (log 9). -/
opaque flushCleared : Nat → Nat → Bool
/-- Which elements of a chunk a RESIDENT_ACCUM had added when it met a bad word of that chunk (R522, R540, R605); the arguments are the draw number and the element (log 78). -/
opaque addPerformed : Nat → Nat → Bool
/-- Which word of the Spool's work area PEG_SAVE keeps a pool peg in during a context change (R524, R569, R570), by its number modulo the words of that area. The spec gives the work area no layout (log 19). -/
opaque savedWord : Nat → Nat
/-- Debug space 07h (R667): which of the sequences that the unit's work selects a Base Bobbin shows (bits 5:0), whether one runs, and the count of sequences it has run. The spec does not say into how many sequences the Vareg cuts an operation; the arguments are the draw number and the channel (log 21). -/
opaque bobbinState : Nat → Nat → BitVec 23

/-- The reference codes of a STOP whose sender holds none (R199, R203): the spec gives them no value; the arguments are the draw number and the pin (log 24). -/
opaque unheldCode : Nat → Nat → BitVec 4

/-- Which of the descriptors that may have read a faulty word of an internal queue, of an island's storage, of the hold and staging areas or of Espalier staging met the error (R504, R522, R617): the spec gives those areas no layout. The argument is the draw number; the value is taken modulo the number of candidates (log 12). -/
opaque errorVictim : Nat → Nat

/-- What a debug read finds in the unit reserve of the Spool and in Espalier staging (R524, R665), 32 bytes: what lies there, and where, the spec does not lay out. The arguments are the draw number and the physical address (log 20). -/
opaque reserveWord : Nat → Nat → BitVec 256

/-- What a tick adds to a lane's count of bits checked in loopback (R670); the arguments are the draw number and the lane (log 22). -/
opaque loopChecked : Nat → Nat → Nat
/-- What a tick adds to a lane's count of bit errors in loopback (R670; log 22). -/
opaque loopErrors : Nat → Nat → Nat

/-- The levels at the balls of the boundary register at a Capture-DR of EXTEST (R108, R663), whose command brings none; the argument is the draw number (log 23). -/
opaque pinsSeen : Nat → BitVec 39

/-- Which of the nine rails other than VDD_IO a monitor finds in range (R164): as VDD_IO comes into range, and, of those that were not, at a tick. No command tells that a rail rises; the argument is the draw number (log 80). -/
opaque railsInRange : Nat → BitVec 9

end Sys2Proof.Config
end

