-- ==== Sys2Proof/Machine/Bytes.lean ====
section
/-! DEFINITION. Byte strings: little-endian fields (R8), slices, CRC-32C (R225), and sparse storage in one canonical form. -/
namespace Sys2Proof.Machine

/-- The number that `n` little-endian bytes from offset `off` hold (R8); a missing byte reads as zero. -/
def leNat (bs : List Byte) (off : Nat) : Nat → Nat
  | 0 => 0
  | n + 1 => (bs.getD off 0).toNat + 256 * leNat bs (off + 1) n

/-- The `n` little-endian bytes of a number. -/
def toLe (v : Nat) : Nat → List Byte
  | 0 => []
  | n + 1 => BitVec.ofNat 8 v :: toLe (v / 256) n

/-- Byte `off` as a number. -/
def byteAt (bs : List Byte) (off : Nat) : Nat := (bs.getD off 0).toNat

/-- Bits `[hi:lo]` of a number. -/
def bitsOf (v lo len : Nat) : Nat := v / 2 ^ lo % 2 ^ len

/-- Whether bit `i` of a number is 1. -/
def bitOf (v i : Nat) : Bool := v / 2 ^ i % 2 == 1

/-- `len` bytes from offset `off`. -/
def slice (bs : List Byte) (off len : Nat) : List Byte := (bs.drop off).take len

/-- Whether every byte from `off`, `len` of them, is zero. -/
def allZero (bs : List Byte) (off len : Nat) : Bool := (slice bs off len).all (· == 0)

/-- `n` zero bytes. -/
def zeros (n : Nat) : List Byte := List.replicate n 0

/-- The bytes padded with zeros to length `n`, or cut to it. -/
def padTo (n : Nat) (bs : List Byte) : List Byte := (bs ++ zeros (n - bs.length)).take n

/-- The bytes `bs` with those at `off` replaced by `v`. -/
def patch (bs : List Byte) (off : Nat) (v : List Byte) : List Byte :=
  bs.take off ++ v ++ bs.drop (off + v.length)

/-- A Boolean as a number. -/
def b2n (b : Bool) : Nat := if b then 1 else 0

/-- The least multiple of `k` at or above `n`. -/
def roundUp (n k : Nat) : Nat := (n + k - 1) / k * k

/-- Division rounded up. -/
def ceilDiv (n k : Nat) : Nat := (n + k - 1) / k

/-- One bit step of the reflected CRC-32C, whose reversed polynomial is 82F63B78h (R225). -/
def crcBit (c : BitVec 32) : BitVec 32 :=
  if c.getLsbD 0 then (c >>> 1) ^^^ 0x82F63B78#32 else c >>> 1

/-- One byte step of CRC-32C. -/
def crcByte (c : BitVec 32) (b : Byte) : BitVec 32 :=
  let c := c ^^^ b.setWidth 32
  crcBit (crcBit (crcBit (crcBit (crcBit (crcBit (crcBit (crcBit c)))))))

/-- CRC-32C: initial value and final XOR FFFFFFFFh (R225). -/
def crc32c (bs : List Byte) : BitVec 32 := bs.foldl crcByte 0xFFFFFFFF#32 ^^^ 0xFFFFFFFF#32

/-- The bytes as they go to `w` lanes: byte i to lane i mod w, ascending (R221, R272). -/
def dealLanes (w : Nat) (bs : List Byte) : List (List Byte) :=
  (List.range w).map fun l => (List.range (ceilDiv (bs.length - l) w)).map fun k => bs.getD (w * k + l) 0

/-- One bit of the scrambler x⁵⁸ + x³⁹ + 1, which holds the last 58 bits of its stream, the latest lowest (R272). -/
def scramStep (s : BitVec 58) : BitVec 58 := (s <<< 1) ||| BitVec.ofNat 58 (b2n (s.getLsbD 57 != s.getLsbD 38))

/-- `n` bits of the scrambler. -/
def scramRun : Nat → BitVec 58 → BitVec 58
  | 0, s => s
  | n + 1, s => scramRun n (scramStep s)

/-- A lane's bytes scrambled from a scrambler state: each byte with the next 8 bits of the stream, the first of them with its bit 0 (R272; log 98). -/
def scramBytes : BitVec 58 → List Byte → List Byte
  | _, [] => []
  | s, b :: bs => let s := scramRun 8 s; (b ^^^ (s.setWidth 8).reverse) :: scramBytes s bs

/-- A counter that holds FFFFFFFFFFFFFFFFh once it reaches it (R380). -/
def satInc64 (v : W64) (n : Nat) : W64 :=
  if v.toNat + n ≤ 0xFFFFFFFFFFFFFFFF then BitVec.ofNat 64 (v.toNat + n) else 0xFFFFFFFFFFFFFFFF#64

/-- Storage that reads as 0 wherever nothing is listed: keys strictly rising, no listed value 0 (R516, R541). -/
abbrev Sparse (w : Nat) := List (Nat × BitVec w)

/-- The value at a key. -/
def spRead {w : Nat} (m : Sparse w) (k : Nat) : BitVec w :=
  match m with
  | [] => 0
  | (k', v) :: rest => if k' = k then v else spRead rest k

/-- Put a value at a key, keeping the canonical form: a zero removes the entry. -/
def spWrite {w : Nat} (m : Sparse w) (k : Nat) (v : BitVec w) : Sparse w :=
  match m with
  | [] => if v = 0 then [] else [(k, v)]
  | (k', v') :: rest =>
    if k < k' then (if v = 0 then (k', v') :: rest else (k, v) :: (k', v') :: rest)
    else if k = k' then (if v = 0 then rest else (k, v) :: rest)
    else (k', v') :: spWrite rest k v

/-- Clear every key in `[lo, hi)`. -/
def spClear {w : Nat} (m : Sparse w) (lo hi : Nat) : Sparse w :=
  m.filter fun e => !(decide (lo ≤ e.1) && decide (e.1 < hi))

/-- Write bytes at successive keys. -/
def spWrites (m : Sparse 8) (k : Nat) : List Byte → Sparse 8
  | [] => m
  | b :: bs => spWrites (spWrite m k b) (k + 1) bs

/-- Read `n` bytes at successive keys. -/
def spReads (m : Sparse 8) (k : Nat) : Nat → List Byte
  | 0 => []
  | n + 1 => spRead m k :: spReads m (k + 1) n

/-- The canonical form: keys strictly above `lo`, rising, and no zero listed. -/
def spWfFrom {w : Nat} (lo : Nat) : Sparse w → Bool
  | [] => true
  | (k, v) :: rest => decide (lo ≤ k) && !(v == 0) && spWfFrom (k + 1) rest

/-- The canonical form of sparse storage. -/
def spWf {w : Nat} (m : Sparse w) : Bool := spWfFrom 0 m

/-- Replace the first entry that a test accepts, or add one at the end. -/
def upsert {α : Type} (l : List α) (p : α → Bool) (v : α) : List α :=
  match l with
  | [] => [v]
  | x :: xs => if p x then v :: xs else x :: upsert xs p v

/-- Whether two byte ranges share a byte. -/
def overlaps (a la b lb : Nat) : Bool := decide (a < b + lb) && decide (b < a + la) && decide (0 < la) && decide (0 < lb)

end Sys2Proof.Machine
end

