-- ==== Sys2Proof/Machine/Value.lean ====
section
/-! DEFINITION. Formats, the one rounding function, native addition, long words, maxima and minima with index, and recipe arithmetic (spec/12, R436 to R456; R370). -/
namespace Sys2Proof.Machine

/-- The element formats of R353. -/
inductive Fmt
  | binary32 | bf16 | binary16 | e4m3 | e5m2 | int8 | int16 | int32 | uint32 | binary64
  deriving DecidableEq, Repr

/-- The format of a code (R353); 10 to 15 are reserved. -/
def fmtOf : Nat → Option Fmt
  | 0 => some .binary32 | 1 => some .bf16 | 2 => some .binary16 | 3 => some .e4m3 | 4 => some .e5m2
  | 5 => some .int8 | 6 => some .int16 | 7 => some .int32 | 8 => some .uint32 | 9 => some .binary64
  | _ => none

/-- Bytes of an element (R353). -/
def fmtBytes : Fmt → Nat
  | .binary32 => 4 | .bf16 => 2 | .binary16 => 2 | .e4m3 => 1 | .e5m2 => 1
  | .int8 => 1 | .int16 => 2 | .int32 => 4 | .uint32 => 4 | .binary64 => 8

/-- Bytes of an element of a format code; 1 for a reserved code, which no descriptor that runs carries. -/
def codeBytes (c : Nat) : Nat := ((fmtOf c).map fmtBytes).getD 1

/-- Whether a format is an integer format (R438). -/
def fmtIsInt : Fmt → Bool
  | .int8 | .int16 | .int32 | .uint32 => true
  | _ => false

/-- Exponent field bits, fraction field bits and bias (R436). -/
def fmtParams : Fmt → Nat × Nat × Nat
  | .binary32 => (8, 23, 127) | .bf16 => (8, 7, 127) | .binary16 => (5, 10, 15)
  | .e4m3 => (4, 3, 7) | .e5m2 => (5, 2, 15) | .binary64 => (11, 52, 1023)
  | _ => (0, 0, 0)

/-- The bits of the largest finite magnitude (R436). -/
def fmtMaxMag : Fmt → Nat
  | .binary32 => 0x7F7FFFFF | .bf16 => 0x7F7F | .binary16 => 0x7BFF | .e4m3 => 0x7E | .e5m2 => 0x7B
  | .binary64 => 0x7FEFFFFFFFFFFFFF | _ => 0

/-- The canonical NaN (R436), and 0 for an integer format (R441). -/
def canonNaN : Fmt → Nat
  | .binary32 => 0x7FC00000 | .bf16 => 0x7FC0 | .binary16 => 0x7E00 | .e4m3 => 0x7F | .e5m2 => 0x7E
  | .binary64 => 0x7FF8000000000000 | _ => 0

/-- The range of an integer format (R438). -/
def intRange : Fmt → Int × Int
  | .int8 => (-128, 127) | .int16 => (-32768, 32767) | .int32 => (-2147483648, 2147483647)
  | .uint32 => (0, 4294967295) | _ => (0, 0)

/-- An element's value: NaN, an infinity, or exactly `(-1)^neg * m * 2^e`, where a zero keeps its sign. -/
inductive Val
  | nan
  | inf (neg : Bool)
  | fin (neg : Bool) (m : Nat) (e : Int)
  deriving DecidableEq, Repr

/-- Bits in an element. -/
def fmtBits (f : Fmt) : Nat := 8 * fmtBytes f

/-- The value an element's bits stand for (R436 to R439). -/
def decodeVal (f : Fmt) (bits : Nat) : Val :=
  if fmtIsInt f then
    let n := fmtBits f
    if f ≠ .uint32 ∧ bits / 2 ^ (n - 1) % 2 = 1 then .fin true (2 ^ n - bits % 2 ^ n) 0
    else .fin false (bits % 2 ^ n) 0
  else
    let (eb, fb, bias) := fmtParams f
    let neg := bitOf bits (eb + fb)
    let ef := bitsOf bits fb eb
    let ff := bitsOf bits 0 fb
    let top : Bool := ef == 2 ^ eb - 1
    if f = .e4m3 ∧ top ∧ ff = 7 then .nan
    else if f ≠ .e4m3 ∧ top ∧ ff = 0 then .inf neg
    else if f ≠ .e4m3 ∧ top then .nan
    else if ef = 0 then .fin neg ff (1 - (bias : Int) - fb)
    else .fin neg (2 ^ fb + ff) ((ef : Int) - bias - fb)

/-- Round the magnitude `num / den` to an integer in direction `r` (R440: 0 nearest even, 1 toward zero, 2 toward +inf, 3 toward -inf). -/
def roundMag (neg : Bool) (r num den : Nat) : Nat :=
  let q := num / den
  let rem := num % den
  if rem = 0 then q
  else match r with
    | 0 => if 2 * rem > den ∨ (2 * rem = den ∧ q % 2 = 1) then q + 1 else q
    | 1 => q
    | 2 => if neg then q else q + 1
    | _ => if neg then q + 1 else q

/-- `m * 2^e / 2^q` rounded to an integer. -/
def roundScaled (neg : Bool) (r m : Nat) (e q : Int) : Nat :=
  if q ≤ e then m * 2 ^ (e - q).toNat else roundMag neg r m (2 ^ (q - e).toNat)

/-- A sign and a magnitude as element bits. -/
def signBits (f : Fmt) (neg : Bool) (mag : Nat) : Nat := b2n neg * 2 ^ (fmtBits f - 1) + mag

/-- Infinity bits of a format, 448 for E4M3 (R440 step 2). -/
def infBits (f : Fmt) (neg : Bool) : Nat :=
  signBits f neg (if f = .e4m3 then fmtMaxMag f else fmtMaxMag f + 1)

/-- round_to for an integer format (R441): the two's-complement bits. -/
def roundToInt (v : Val) (f : Fmt) (r : Nat) : Nat :=
  let (lo, hi) := intRange f
  let z : Int := match v with
    | .nan => 0
    | .inf neg => if neg then lo else hi
    | .fin neg m e =>
      let k : Int := roundScaled neg r m e 0
      let k := if neg then -k else k
      if k < lo then lo else if hi < k then hi else k
  (z % (2 ^ fmtBits f : Int)).toNat

/-- round_to for a floating-point format (R440). -/
def roundToFloat (v : Val) (f : Fmt) (r : Nat) : Nat :=
  match v with
  | .nan => canonNaN f
  | .inf neg => infBits f neg
  | .fin neg m e =>
    if m = 0 then signBits f neg 0
    else
      let (_, fb, bias) := fmtParams f
      let emin : Int := 1 - (bias : Int) - fb
      let q0 : Int := (Nat.log2 m : Int) + e - fb
      let q := if q0 < emin then emin else q0
      let n := roundScaled neg r m e q
      let (n, q) := if n = 2 ^ (fb + 1) then (2 ^ fb, q + 1) else (n, q)
      let mag := if n < 2 ^ fb then n else (q - emin + 1).toNat * 2 ^ fb + (n - 2 ^ fb)
      if mag ≤ fmtMaxMag f then signBits f neg mag
      else if f = .e4m3 then signBits f neg (fmtMaxMag f)
      else match r with
        | 0 => infBits f neg
        | 1 => signBits f neg (fmtMaxMag f)
        | 2 => if neg then signBits f neg (fmtMaxMag f) else infBits f neg
        | _ => if neg then infBits f neg else signBits f neg (fmtMaxMag f)

/-- The one rounding function, round_to(v, f, r) (R440, R441), as element bits. -/
def roundTo (v : Val) (f : Fmt) (r : Nat) : Nat :=
  if fmtIsInt f then roundToInt v f r else roundToFloat v f r

/-- The value that rounding to a format leaves. -/
def roundVal (v : Val) (f : Fmt) (r : Nat) : Val := decodeVal f (roundTo v f r)

/-- Convert an element between formats (R442). -/
def convertBits (fi fo : Fmt) (r bits : Nat) : Nat := roundTo (decodeVal fi bits) fo r

/-- A signed integer times a power of two. -/
def valOfInt (z : Int) (e : Int) (zeroNeg : Bool) : Val :=
  if z = 0 then .fin zeroNeg 0 0 else .fin (decide (z < 0)) z.natAbs e

/-- The exact sum of two values before rounding (R446): opposite infinities and NaN give NaN; an exact zero of unlike operands is +0, or -0 under `round` 3. -/
def addVal (a b : Val) (r : Nat) : Val :=
  match a, b with
  | .nan, _ => .nan
  | _, .nan => .nan
  | .inf s, .inf t => if s = t then .inf s else .nan
  | .inf s, .fin .. => .inf s
  | .fin .., .inf t => .inf t
  | .fin s m e, .fin t n g =>
    if m = 0 ∧ n = 0 ∧ s = t then .fin s 0 0
    else
      let k := if e < g then e else g
      let x : Int := m * 2 ^ (e - k).toNat
      let y : Int := n * 2 ^ (g - k).toNat
      valOfInt ((if s then -x else x) + (if t then -y else y)) k (r == 3)

/-- The exact product of two values (R370, R487). -/
def mulVal (a b : Val) : Val :=
  match a, b with
  | .nan, _ => .nan
  | _, .nan => .nan
  | .inf s, .inf t => .inf (s != t)
  | .inf s, .fin t n _ => if n = 0 then .nan else .inf (s != t)
  | .fin s m _, .inf t => if m = 0 then .nan else .inf (s != t)
  | .fin s m e, .fin t n g => .fin (s != t) (m * n) (e + g)

/-- A native addition of two elements, `a` the left operand (R446). -/
def nativeAdd (f : Fmt) (r a b : Nat) : Nat :=
  if fmtIsInt f then roundTo (addVal (decodeVal f a) (decodeVal f b) 0) f 0
  else roundTo (addVal (decodeVal f a) (decodeVal f b) r) f r

/-- The numeric order of R455, in which -0 is below +0 and NaN takes no place. -/
def valLt (a b : Val) : Bool :=
  match a, b with
  | .nan, _ => false
  | _, .nan => false
  | .inf s, .inf t => s && !t
  | .inf s, .fin .. => s
  | .fin .., .inf t => !t
  | .fin s m e, .fin t n g =>
    if m = 0 ∧ n = 0 then s && !t
    else
      let k := if e < g then e else g
      let x : Int := m * 2 ^ (e - k).toNat
      let y : Int := n * 2 ^ (g - k).toNat
      decide ((if s then -x else x) < (if t then -y else y))

/-- Whether a value is NaN. -/
def isNaN : Val → Bool
  | .nan => true
  | _ => false

/-- The higher of two values in the order of R455; a NaN operand stays NaN (R370 CLAMP, R488). -/
def maxVal (a b : Val) : Val := if isNaN a then .nan else if isNaN b then .nan else if valLt a b then b else a
/-- The lower of two values; a NaN stays NaN. -/
def minVal (a b : Val) : Val := if isNaN a then .nan else if isNaN b then .nan else if valLt b a then b else a

/-! ## Partials -/

/-- What a reduction holds for one element: a native element, a long word (value field and the flags -inf 1, +inf 2, NaN 4), or a value with its winner's index. -/
inductive Acc
  | nat (bits : Nat)
  | long (l : Int) (flags : Nat)
  | win (bits idx : Nat)
  deriving DecidableEq, Repr

/-- How a reduction adds: its input format, whether it runs exact (R593), `red` and `round`. -/
structure Arith where
  fmt : Fmt
  exact : Bool
  red : Nat
  round : Nat
  deriving DecidableEq, Repr

/-- The long word of a format (R450): bytes, value-field bits, and the exponent of its least significant bit. -/
def longShape : Fmt → Nat × Nat × Int
  | .binary32 | .bf16 => (40, 302, -149)
  | .binary16 => (12, 65, -24)
  | .e4m3 | .e5m2 => (8, 57, -16)
  | _ => (8, 64, 0)

/-- Reduce an integer to a two's-complement field of `n` bits. -/
def wrapField (n : Nat) (z : Int) : Int :=
  let m := z % (2 ^ n : Int)
  if m < (2 ^ (n - 1) : Int) then m else m - (2 ^ n : Int)

/-- How an addend enters a long word (R451). -/
def toLong (f : Fmt) (bits : Nat) : Acc :=
  match decodeVal f bits with
  | .nan => .long 0 4
  | .inf neg => .long 0 (if neg then 1 else 2)
  | .fin neg m e =>
    let (_, _, w) := longShape f
    let k : Int := m * 2 ^ (e - w).toNat
    .long (if neg then -k else k) 0

/-- How an addend of the member with global number `g` enters a reduction (R443, R444, R451). -/
def accOf (ar : Arith) (g bits : Nat) : Acc :=
  if ar.red = 1 then (if ar.exact then toLong ar.fmt bits else .nat bits) else .win bits g

/-- The pair that R455 selects from two. -/
def pickWin (f : Fmt) (red a i b j : Nat) : Nat × Nat :=
  let x := decodeVal f a
  let y := decodeVal f b
  if isNaN x && isNaN y then (canonNaN f, if i ≤ j then i else j)
  else if isNaN x then (b, j)
  else if isNaN y then (a, i)
  else
    let better (u v : Val) : Bool := if red == 2 then valLt v u else valLt u v
    if better x y then (a, i) else if better y x then (b, j)
    else (a, if i ≤ j then i else j)

/-- `a` with `b`, `a` the left operand: R446, R452 or R456. -/
def accAdd (ar : Arith) (a b : Acc) : Acc :=
  match a, b with
  | .nat x, .nat y => .nat (nativeAdd ar.fmt ar.round x y)
  | .long x fx, .long y fy =>
    let (_, n, _) := longShape ar.fmt
    .long (wrapField n (x + y)) (fx ||| fy)
  | .win x i, .win y j => let (v, k) := pickWin ar.fmt ar.red x i y j; .win v k
  | x, _ => x

/-- Addition with the empty operand (R447). -/
def accAddOpt (ar : Arith) : Option Acc → Option Acc → Option Acc
  | none, y => y
  | x, none => x
  | some x, some y => some (accAdd ar x y)

/-- Two partial vectors, either of which may be empty (R447). -/
def vecAdd (ar : Arith) : Option (List Acc) → Option (List Acc) → Option (List Acc)
  | none, y => y
  | x, none => x
  | some x, some y => some (List.zipWith (accAdd ar) x y)

/-- One level of pair() (R445). -/
def pairOnce (ar : Arith) : List (List Acc) → List (List Acc)
  | a :: b :: rest => List.zipWith (accAdd ar) a b :: pairOnce ar rest
  | l => l

/-- pair(list) with fuel, which halves the list at each level (R445). -/
def pairFuel (ar : Arith) : Nat → List (List Acc) → Option (List Acc)
  | _, [] => none
  | _, [v] => some v
  | 0, v :: _ => some v
  | n + 1, l => pairFuel ar n (pairOnce ar l)

/-- pair(list) of R445. -/
def pairTree (ar : Arith) (l : List (List Acc)) : Option (List Acc) := pairFuel ar l.length l

/-- Bytes of a partial on the Trellis (R290, R444). -/
def accLen (ar : Arith) : Nat :=
  if ar.red = 1 then (if ar.exact then (longShape ar.fmt).1 else fmtBytes ar.fmt) else fmtBytes ar.fmt + 4

/-- A long word's bits as a number (R450). -/
def longBits (f : Fmt) (l : Int) (flags : Nat) : Nat :=
  let (_, n, _) := longShape f
  (l % (2 ^ n : Int)).toNat + (if fmtIsInt f then 0 else flags * 2 ^ n)

/-- A partial's bytes (R290, R454). -/
def accBytes (ar : Arith) : Acc → List Byte
  | .nat b => toLe b (fmtBytes ar.fmt)
  | .long l fl => toLe (longBits ar.fmt l fl) (longShape ar.fmt).1
  | .win b i => toLe b (fmtBytes ar.fmt) ++ toLe i 4

/-- A long word read from its bits; bits outside the value and flag fields are ignored (R475). -/
def longOf (f : Fmt) (v : Nat) : Acc :=
  let (_, n, _) := longShape f
  .long (wrapField n (v % 2 ^ n : Nat)) (if fmtIsInt f then 0 else bitsOf v n 3)

/-- A partial from its bytes. -/
def accOfBytes (ar : Arith) (bs : List Byte) : Acc :=
  if ar.red = 1 then
    (if ar.exact then longOf ar.fmt (leNat bs 0 (longShape ar.fmt).1) else .nat (leNat bs 0 (fmtBytes ar.fmt)))
  else .win (leNat bs 0 (fmtBytes ar.fmt)) (leNat bs (fmtBytes ar.fmt) 4)

/-- As many whole partials as a byte string holds, with fuel. -/
def accsOfBytes (ar : Arith) : Nat → List Byte → List Acc
  | 0, _ => []
  | n + 1, bs => if bs.length < accLen ar then [] else accOfBytes ar bs :: accsOfBytes ar n (bs.drop (accLen ar))

/-- The value that a partial rounds to at the end: R448, R453 or R456. -/
def accVal (ar : Arith) (round : Nat) : Acc → Val
  | .nat b => decodeVal ar.fmt b
  | .win b _ => decodeVal ar.fmt b
  | .long l fl =>
    let (_, _, w) := longShape ar.fmt
    if bitOf fl 2 || (bitOf fl 0 && bitOf fl 1) then .nan
    else if bitOf fl 1 then .inf false
    else if bitOf fl 0 then .inf true
    else valOfInt l w (round == 3)

/-- A partial delivered in `out_fmt` (R448, R453, R456). -/
def accOut (ar : Arith) (fo : Fmt) (round : Nat) (a : Acc) : Nat := roundTo (accVal ar round a) fo round

/-- The winner's index of a partial. -/
def accIdx : Acc → Nat
  | .win _ i => i
  | _ => 0

/-! ## Recipes -/

/-- One recipe entry applied to a widened value (R370 step 2). -/
def recipeStep (e : List Byte) (w : Val) : Val :=
  let ra := decodeVal .binary32 (leNat e 8 4)
  let rb := decodeVal .binary32 (leNat e 12 4)
  match byteAt e 0 with
  | 1 => roundVal (mulVal w ra) .binary64 0
  | 2 => match fmtOf (byteAt e 1) with
    | some f => roundVal w f 0
    | none => w
  | 3 => maxVal ra (minVal w rb)
  | 4 => match w with
    | .nan => .nan
    | .inf s => .inf (!s)
    | .fin s m x => .fin (!s) m x
  | _ => w

/-- The entries applied in order, with fuel for at most 16 (R370). -/
def recipeRun : Nat → List Byte → Val → Val
  | 0, _, w => w
  | n + 1, bs, w => recipeRun n (bs.drop 16) (recipeStep (bs.take 16) w)

/-- The recipe applied to one element of a format (R370). -/
def recipeElem (f : Fmt) (n : Nat) (recipe : List Byte) (bits : Nat) : Nat :=
  if n = 0 then bits else roundTo (recipeRun n recipe (decodeVal f bits)) f 0

/-- Whether one recipe entry is valid (R369). -/
def recipeEntryOk (e : List Byte) : Bool :=
  let rop := byteAt e 0
  let rarg := byteAt e 1
  let ra := decodeVal .binary32 (leNat e 8 4)
  let rb := decodeVal .binary32 (leNat e 12 4)
  decide (1 ≤ rop ∧ rop ≤ 4) && allZero e 2 6 &&
  (if rop = 2 then decide (rarg ≤ 9) else rarg == 0) &&
  (rop != 3 || (!isNaN ra && !isNaN rb && !valLt rb ra))

/-- Whether a recipe of `n` entries is valid (R369). -/
def recipeOk : Nat → List Byte → Bool
  | 0, _ => true
  | n + 1, bs => recipeEntryOk (bs.take 16) && recipeOk n (bs.drop 16)

/-- Whether an entry holds a non-zero `ra` or `rb` that its operation does not use (R369). -/
def recipeUnused : Nat → List Byte → Bool
  | 0, _ => false
  | n + 1, bs =>
    let rop := byteAt bs 0
    (!(rop == 1 || rop == 3) && leNat bs 8 4 != 0) || (rop != 3 && leNat bs 12 4 != 0) || recipeUnused n (bs.drop 16)

/-- Elements of `w` bytes each, as bit patterns. -/
def elemsOf (w : Nat) : Nat → List Byte → List Nat
  | 0, _ => []
  | n + 1, bs => leNat bs 0 w :: elemsOf w n (bs.drop w)

/-- Elements as bytes. -/
def elemBytes (w : Nat) (l : List Nat) : List Byte := l.flatMap fun v => toLe v w

end Sys2Proof.Machine
end

