-- ==== Sys2Proof/Machine/Decide.lean ====
section
/-! DEFINITION. The Press and the Sieve as functions of bits (spec/13, R486 to R495): row-ordered binary32 accumulation, output functions to the bit, and selections. -/
namespace Sys2Proof.Machine

/-- One row step of a column: a + x * w rounded once to binary32 (R487). -/
def pressStep (a x w : Val) : Val := roundVal (addVal a (mulVal x w) 0) .binary32 0

/-- Column sum a_j over the rows in ascending k (R487). -/
def pressColumn : Val → List Val → List Val → Val
  | a, x :: xs, w :: ws => pressColumn (pressStep a x w) xs ws
  | a, _, _ => a

/-- Terms of the exponential series in fixed point: the running term is x^n / n!. -/
def expTerms (num den : Nat) : Nat → Nat → Nat → Nat
  | 0, _, _ => 0
  | fuel + 1, n, term => term + expTerms num den fuel (n + 1) (term * num / (den * n))

/-- e^(k/16) in fixed point with 256 fraction bits. -/
def expFix (k : Nat) : Nat := expTerms k 16 120 1 (2 ^ 256)

/-- The binary32 value of `num / den`, where the quotient of a non-zero table argument is irrational, so a sticky bit below the quotient rounds it correctly (R488). -/
def tableVal (neg : Bool) (num den : Nat) : Val :=
  roundVal (.fin neg (num * 2 ^ 128 / den * 2 + 1) (-129)) .binary32 0

/-- Entry `i` of the sigmoid table (R488). -/
def sigmoidEntry (i : Nat) : Val :=
  if i = 128 then .fin false 1 (-1)
  else if 128 < i then
    let e := expFix (i - 128)
    tableVal false e (e + 2 ^ 256)
  else
    let e := expFix (128 - i)
    tableVal false (2 ^ 256) (e + 2 ^ 256)

/-- Entry `i` of the tanh table (R488). -/
def tanhEntry (i : Nat) : Val :=
  if i = 128 then .fin false 0 0
  else
    let neg := decide (i < 128)
    let e := expFix (if neg then 128 - i else i - 128)
    tableVal neg (e - 2 ^ 256) (e + 2 ^ 256)

/-- clamp(rne(s * a) + 128, 0, 255), with infinities at the ends (R488). -/
def tableIndex (s : Nat) (a : Val) : Nat :=
  match a with
  | .nan => 128
  | .inf neg => if neg then 0 else 255
  | .fin neg m e =>
    let k := roundScaled neg 0 (m * s) e 0
    if neg then 128 - min k 128 else min (128 + k) 255

/-- The output function b_j (R488): 0 identity, 1 ReLU, 2 clamp, 3 sigmoid, 4 tanh. -/
def pressFn (fn : Nat) (lo hi : Val) (a : Val) : Val :=
  match fn with
  | 1 => if isNaN a then .nan else if valLt a (.fin false 0 0) then .fin false 0 0 else a
  | 2 => if isNaN a then .nan else maxVal lo (minVal a hi)
  | 3 => if isNaN a then .nan else sigmoidEntry (tableIndex 16 a)
  | 4 => if isNaN a then .nan else tanhEntry (tableIndex 32 a)
  | _ => a

/-- Whether position (v, j) goes before (u, i) in a selection: the higher (or lower) value first, NaN last, ties by ascending index (R491). -/
def selBefore (largest : Bool) (v : Val × Nat) (u : Val × Nat) : Bool :=
  match isNaN v.1, isNaN u.1 with
  | true, true => decide (v.2 < u.2)
  | true, false => false
  | false, true => true
  | false, false =>
    if (if largest then valLt u.1 v.1 else valLt v.1 u.1) then true
    else if (if largest then valLt v.1 u.1 else valLt u.1 v.1) then false
    else decide (v.2 < u.2)

/-- Insert into a selection. -/
def selInsert (largest : Bool) (v : Val × Nat) : List (Val × Nat) → List (Val × Nat)
  | [] => [v]
  | u :: us => if selBefore largest v u then v :: u :: us else u :: selInsert largest v us

/-- Every position in selection order. -/
def selSort (largest : Bool) (l : List (Val × Nat)) : List (Val × Nat) := l.foldr (selInsert largest) []

/-- Number the values from an index. -/
def enumVals (i : Nat) : List Val → List (Val × Nat)
  | [] => []
  | v :: vs => (v, i) :: enumVals (i + 1) vs

/-- The positions that a Sieve selection writes: a value (none where the position is empty) and an index (R491). -/
def sieveSelect (op k : Nat) (threshold : Val) (vs : List Val) : List (Option Val × Nat) :=
  let sorted := selSort (op != 2 && op != 4) (enumVals 0 vs)
  match op with
  | 3 | 4 => (sorted.take k).map (fun p => (some p.1, p.2)) ++ List.replicate (k - sorted.length) (none, 0xFFFFFFFF)
  | 5 => match sorted with
    | [] => []
    | p :: _ => [(some p.1, if valLt threshold p.1 then p.2 else 0xFFFFFFFF)]
  | _ => match sorted with
    | [] => []
    | p :: _ => [(some p.1, if isNaN p.1 then 0 else p.2)]

/-- The bytes of a Sieve decision: q values, a gap to the next multiple of 8 sent as zero, and q indices (R492, R495). -/
def sieveBytes (fo : Fmt) (round : Nat) (sel : List (Option Val × Nat)) : List Byte :=
  let vals := sel.flatMap fun p => toLe (match p.1 with | some v => roundTo v fo round | none => canonNaN fo) (fmtBytes fo)
  padTo (roundUp vals.length 8) vals ++ sel.flatMap (fun p => toLe p.2 4)

end Sys2Proof.Machine
end

