-- ==== Sys2Proof/Machine/Torus.lean ====
section
/-! DEFINITION. The torus: addresses, axis rings, routes around lost units and cut links, groups, stations, passes and distributions as pure functions (R192, R193, R279 to R281, R402, R403, R410 to R412, R622, R624, R625). -/
namespace Sys2Proof.Machine

/-- The torus dimensions n_X, n_Y, n_Z; 0 where not known (R704). -/
structure Dims where
  nx : Nat
  ny : Nat
  nz : Nat
  deriving DecidableEq, Repr

/-- The dimension of axis 0 X, 1 Y, 2 Z. -/
def dimOf (d : Dims) : Nat → Nat
  | 0 => d.nx
  | 1 => d.ny
  | _ => d.nz

/-- Units in the torus (R55). -/
def unitsIn (d : Dims) : Nat := d.nx * d.ny * d.nz

/-- A position (x, y, z). -/
structure Pos where
  x : Nat
  y : Nat
  z : Nat
  deriving DecidableEq, Repr

/-- A coordinate. -/
def coordOf (p : Pos) : Nat → Nat
  | 0 => p.x
  | 1 => p.y
  | _ => p.z

/-- A position with one coordinate replaced. -/
def setCoord (p : Pos) (a v : Nat) : Pos :=
  match a with
  | 0 => { p with x := v }
  | 1 => { p with y := v }
  | _ => { p with z := v }

/-- The unit address of a position (R192). -/
def addrOf (d : Dims) (p : Pos) : Nat := p.x + d.nx * p.y + d.nx * d.ny * p.z

/-- The position of a unit address (R192). -/
def posOf (d : Dims) (a : Nat) : Pos :=
  ⟨a % max d.nx 1, a / max d.nx 1 % max d.ny 1, a / (max d.nx 1 * max d.ny 1)⟩

/-- The unit that Trellis port `q` of unit `a` faces (R193): port 2A is the + port of axis A, 2A + 1 the - port. -/
def facing (d : Dims) (a q : Nat) : Nat :=
  let p := posOf d a
  let ax := q / 2
  let n := max (dimOf d ax) 1
  let k := coordOf p ax
  addrOf d (setCoord p ax (if q % 2 = 0 then (k + 1) % n else (k + n - 1) % n))

/-- The port at the other end of a link (R193). -/
def facingPort (q : Nat) : Nat := if q % 2 = 0 then q + 1 else q - 1

/-- Whether sending from coordinate `k` of a ring of `n` on a + (or -) port crosses the wrap link (R279). -/
def crossesWrap (d : Dims) (a q : Nat) : Bool :=
  let k := coordOf (posOf d a) (q / 2)
  if q % 2 = 0 then k + 1 == dimOf d (q / 2) else k == 0

/-- What a unit knows of losses (R622): lost units and cut links, each cut link listed as (unit, port) for both ends. -/
structure View where
  lost : List Nat
  cut : List (Nat × Nat)
  deriving DecidableEq, Repr

/-- One hop of a route: the sending unit and its output port. -/
abbrev Hop := Nat × Nat

/-- `n` hops through port `q` from unit `a`, and the unit reached. -/
def straight (d : Dims) (q : Nat) : Nat → Nat → List Hop × Nat
  | 0, a => ([], a)
  | n + 1, a => let (hs, e) := straight d q n (facing d a q); ((a, q) :: hs, e)

/-- The hops along one axis from coordinate `i` to `j` in the direction that crosses no wrap link (R281), or the other way. -/
def axisHops (d : Dims) (ax i j : Nat) (other : Bool) : Nat × Nat :=
  let n := max (dimOf d ax) 1
  if i = j then (0, 2 * ax)
  else
    let plus : Bool := (decide (i < j)) != other
    if plus then ((j + n - i) % n, 2 * ax) else ((i + n - j) % n, 2 * ax + 1)

/-- A route axis by axis in the order given (R281, R625). -/
def orderRoute (d : Dims) (other : Bool) (b : Nat) : List Nat → Nat → List Hop
  | [], _ => []
  | ax :: rest, a =>
    let (n, q) := axisHops d ax (coordOf (posOf d a) ax) (coordOf (posOf d b) ax) other
    let (hs, e) := straight d q n a
    hs ++ orderRoute d other b rest e

/-- The fault-free route of a point-to-point frame: X, then Y, then Z, without wrap links (R281). -/
def plainRoute (d : Dims) (a b : Nat) : List Hop := orderRoute d false b [0, 1, 2] a

/-- The fault-free route of a step on axis `ax` in the + (or -) direction (R403). -/
def stepRoute (d : Dims) (ax : Nat) (plus : Bool) (a b : Nat) : List Hop :=
  let n := max (dimOf d ax) 1
  let i := coordOf (posOf d a) ax
  let j := coordOf (posOf d b) ax
  if plus then (straight d (2 * ax) ((j + n - i) % n) a).1 else (straight d (2 * ax + 1) ((i + n - j) % n) a).1

/-- Whether a route crosses no lost unit and no cut link (R625). -/
def routeClear (d : Dims) (v : View) (r : List Hop) : Bool :=
  r.all fun h => !(v.cut.contains h) && !(v.lost.contains (facing d h.1 h.2))

/-- The first clear route in a list. -/
def firstClear (d : Dims) (v : View) : List (List Hop) → Option (List Hop)
  | [] => none
  | r :: rs => if routeClear d v r then some r else firstClear d v rs

/-- The six axis orders of R625. -/
def axisOrders : List (List Nat) := [[0, 1, 2], [0, 2, 1], [1, 0, 2], [1, 2, 0], [2, 0, 1], [2, 1, 0]]

/-- The axes on which two units differ. -/
def diffAxes (d : Dims) (a b : Nat) : List Nat :=
  [0, 1, 2].filter fun ax => coordOf (posOf d a) ax != coordOf (posOf d b) ax

/-- The route of a transfer from `a` to `b` whose fault-free path is `base` (R625). -/
def routeOf (d : Dims) (v : View) (base : List Hop) (a b : Nat) : Option (List Hop) :=
  if a = b then some []
  else
    let opp := match diffAxes d a b, base with
      | [ax], h :: _ => [stepRoute d ax (h.2 % 2 == 1) a b]
      | _, _ => []
    firstClear d v ([base] ++ opp ++ axisOrders.map (fun o => orderRoute d false b o a) ++
      axisOrders.map (fun o => orderRoute d true b o a))

/-- The route of a PEG, PEG_REPLY or RECOVERY frame (R281, R625). -/
def ptRoute (d : Dims) (v : View) (a b : Nat) : Option (List Hop) := routeOf d v (plainRoute d a b) a b

/-- The virtual channel of each hop of a DATA or SIGNAL route (R280): 1 or 3 until the wrap link of the axis segment, 2 or 4 from it on. -/
def hopVcs (d : Dims) (prev : Nat) (wrapped : Bool) : List Hop → List Nat
  | [] => []
  | h :: hs =>
    let w := (if prev = h.2 then wrapped else false) || crossesWrap d h.1 h.2
    ((if h.2 % 2 = 0 then 1 else 3) + b2n w) :: hopVcs d h.2 w hs

/-- Units reached in one more hop over uncut links through units not lost. -/
def reachStep (d : Dims) (v : View) (s : List Nat) : List Nat :=
  s ++ ((s.flatMap fun a => [0, 1, 2, 3, 4, 5].filterMap fun q =>
    let b := facing d a q
    if dimOf d (q / 2) ≤ 1 ∨ v.cut.contains (a, q) ∨ v.lost.contains b ∨ s.contains b then none else some b).eraseDups)

/-- `n` rounds of reachStep. -/
def reachIter (d : Dims) (v : View) : Nat → List Nat → List Nat
  | 0, s => s
  | n + 1, s => reachIter d v n (reachStep d v s)

/-- A unit's component (R622). The longest shortest route in any torus of 64 units has at most 64 hops. -/
def componentOf (d : Dims) (v : View) (a : Nat) : List Nat :=
  if v.lost.contains a then [] else (reachIter d v (unitsIn d) [a]).eraseDups

/-- Whether component `s` comes before `t`: more units, or as many and the lowest address (R622). -/
def componentBetter (s t : List Nat) : Bool :=
  decide (t.length < s.length) ||
  (s.length == t.length && decide (s.foldl min 1000 < t.foldl min 1000))

/-- The surviving component (R622). -/
def survivingOf (d : Dims) (v : View) : List Nat :=
  (List.range (unitsIn d)).foldl (fun best a =>
    let c := componentOf d v a
    if componentBetter c best then c else best) []

/-- The recovery root: the lowest address of a component (R622). -/
def lowestOf (s : List Nat) : Nat := s.foldl min 1000

/-- The next member of `s` above `a`, wrapping (R622: the stand-in). -/
def standInOf (s : List Nat) (a : Nat) : Nat :=
  let above := s.filter fun b => decide (a < b)
  if above.isEmpty then lowestOf s else lowestOf above

/-- A group's carriers: a product of coordinate sets, each ascending (R402). -/
structure Shape where
  cx : List Nat
  cy : List Nat
  cz : List Nat
  deriving DecidableEq, Repr

/-- The coordinates of a group on an axis. -/
def shapeAxis (s : Shape) : Nat → List Nat
  | 0 => s.cx
  | 1 => s.cy
  | _ => s.cz

/-- m_A (R403). -/
def mOf (s : Shape) (ax : Nat) : Nat := (shapeAxis s ax).length

/-- The carriers' positions, ascending in address. -/
def carriersOf (s : Shape) : List Pos :=
  s.cz.flatMap fun z => s.cy.flatMap fun y => s.cx.map fun x => ⟨x, y, z⟩

/-- The station number of a coordinate on an axis. -/
def stationOf (s : Shape) (ax k : Nat) : Nat := (shapeAxis s ax).idxOf k

/-- The coordinate of a station. -/
def stationCoord (s : Shape) (ax i : Nat) : Nat := (shapeAxis s ax).getD i 0

/-- Where a reduction starts on an axis: `none` for c mod m_A, or the root's position for a rooted one (R411). -/
def startStation (s : Shape) (root : Option Pos) (ax c : Nat) : Nat :=
  match root with
  | none => c % max (mOf s ax) 1
  | some p => (stationOf s ax (coordOf p ax) + 1) % max (mOf s ax) 1

/-- Where a reduction ends on an axis (R411). -/
def endStation (s : Shape) (root : Option Pos) (ax c : Nat) : Nat :=
  (startStation s root ax c + mOf s ax - 1) % max (mOf s ax) 1

/-- The chunk home of a reduction (R410, R411). -/
def reduceHome (s : Shape) (root : Option Pos) (c : Nat) : Pos :=
  ⟨stationCoord s 0 (endStation s root 0 c), stationCoord s 1 (endStation s root 1 c), stationCoord s 2 (endStation s root 2 c)⟩

/-- Whether a position takes part in the passes of axis `ax` for chunk `c`: on every earlier axis it stands at the end station (R411). -/
def onPass (s : Shape) (root : Option Pos) (c ax : Nat) (p : Pos) : Bool :=
  (List.range ax).all fun b => stationOf s b (coordOf p b) == endStation s root b c

/-- The positions of a pass on axis `ax` through `p`, in the order s(c), s(c)+1, ... (R411). -/
def passOrder (s : Shape) (root : Option Pos) (c ax : Nat) (p : Pos) : List Pos :=
  (List.range (mOf s ax)).map fun k =>
    setCoord p ax (stationCoord s ax ((startStation s root ax c + k) % max (mOf s ax) 1))

/-- The parent of a carrier in the distribution from `h`: one station nearer on the last axis on which they differ, + for the next ⌊m/2⌋ stations and - for the rest (R412). The direction is that of travel from the parent. -/
def distParent (s : Shape) (h p : Pos) : Option (Nat × Bool × Pos) :=
  let go (ax : Nat) : Option (Nat × Bool × Pos) :=
    let m := mOf s ax
    let i := stationOf s ax (coordOf p ax)
    let j := stationOf s ax (coordOf h ax)
    if i = j then none
    else
      let dd := (i + m - j) % m
      if dd ≤ m / 2 then some (ax, true, setCoord p ax (stationCoord s ax ((i + m - 1) % m)))
      else some (ax, false, setCoord p ax (stationCoord s ax ((i + 1) % m)))
  match go 2 with
  | some r => some r
  | none => match go 1 with
    | some r => some r
    | none => go 0

/-- The carriers that a carrier sends to directly in a distribution from `h` (R412). -/
def distChildren (s : Shape) (h p : Pos) : List Pos :=
  (carriersOf s).filter fun q => match distParent s h q with
    | some (_, _, r) => r == p
    | none => false

/-- Every carrier reached through `q`, `q` first, with fuel (R412). -/
def distSubtree (s : Shape) (h : Pos) : Nat → Pos → List Pos
  | 0, q => [q]
  | n + 1, q => q :: (distChildren s h q).flatMap (distSubtree s h n)

/-- The unit that holds a station's role: itself, or its stand-in where it is lost (R624). -/
def roleUnit (d : Dims) (v : View) (surv : List Nat) (p : Pos) : Nat :=
  let a := addrOf d p
  if v.lost.contains a then standInOf surv a else a

/-- What one transfer of a chunk is for. -/
inductive Leg
  | pass (ax : Nat)
  | dist
  deriving DecidableEq, Repr

/-- One transfer of a chunk (R618): from one station to another, with the unit whose frames they are and the route; and how the chunk came to where it starts: the output port of its last hop, and whether it has crossed the wrap link of that axis ring (R280). A pass, and a distribution, starts anew. -/
structure Transfer where
  leg : Leg
  fromPos : Pos
  toPos : Pos
  src : Nat
  route : Option (List Hop)
  lane : Nat
  wrapped : Bool
  deriving DecidableEq, Repr

/-- A chunk's last output port and wrap crossing behind a route (R280). -/
def laneEnd (d : Dims) (lane : Nat) (wrapped : Bool) : List Hop → Nat × Bool
  | [] => (lane, wrapped)
  | h :: hs => laneEnd d h.2 ((if lane = h.2 then wrapped else false) || crossesWrap d h.1 h.2) hs

/-- No hop yet: whatever comes first is before the wrap link. -/
def laneNone : Nat × Bool := (99, false)

/-- How a chunk goes on behind a transfer. -/
def laneAfter (d : Dims) (t : Transfer) : Nat × Bool :=
  match t.route with
  | some r => laneEnd d t.lane t.wrapped r
  | none => laneNone

/-- The virtual channels of a transfer's hops: those of an axis ring go on where the transfer before it left them (R280; log 99). -/
def transferVcs (d : Dims) (t : Transfer) : List Nat := hopVcs d t.lane t.wrapped (t.route.getD [])

/-- Consecutive pairs of a list. -/
def pairsOf {α : Type} : List α → List (α × α)
  | a :: b :: rest => (a, b) :: pairsOf (b :: rest)
  | _ => []

/-- Whether a station holds a partial as a pass of axis `ax` begins: some carrier that is not lost feeds it, itself included. A hollow station that feeds nothing is passed over; one at which an earlier pass ended holds its sum through its stand-in (R624). -/
def feeds (d : Dims) (v : View) (s : Shape) (ax : Nat) (q : Pos) : Bool :=
  (carriersOf s).any fun k => !(v.lost.contains (addrOf d k)) &&
    [0, 1, 2].all fun b => decide (b < ax) || coordOf k b == coordOf q b

/-- The stations that take part in one pass, in order: those that hold a partial, and the end station, where its stand-in receives the sum of a hollow one (R411, R624). -/
def passStops (d : Dims) (v : View) (s : Shape) (root : Option Pos) (c ax : Nat) (p : Pos) : List Pos :=
  let order := passOrder s root c ax p
  let live := order.filter (feeds d v s ax)
  match order.getLast? with
  | some e => if live.contains e ∨ live.isEmpty then live else live ++ [e]
  | none => live

/-- The transfers of one pass (R411, R624). Roles follow view `v`, routes view `rv`. -/
def passTransfers (d : Dims) (v rv : View) (surv : List Nat) (s : Shape) (root : Option Pos) (c ax : Nat) (p : Pos) : List Transfer :=
  (pairsOf (passStops d v s root c ax p)).foldl (fun done ab =>
    let a := roleUnit d v surv ab.1
    let b := roleUnit d v surv ab.2
    let base := if addrOf d ab.1 = a ∧ addrOf d ab.2 = b then stepRoute d ax true a b else plainRoute d a b
    let e := (done.getLast?.map (laneAfter d)).getD laneNone
    done ++ [{ leg := .pass ax, fromPos := ab.1, toPos := ab.2, src := a, route := routeOf d rv base a b, lane := e.1, wrapped := e.2 }]) []

/-- The transfers of every pass of a chunk, axis by axis (R410, R411). -/
def chunkPasses (d : Dims) (v rv : View) (surv : List Nat) (s : Shape) (root : Option Pos) (c : Nat) : List Transfer :=
  [0, 1, 2].flatMap fun ax =>
    if mOf s ax ≤ 1 then []
    else
      let heads := (carriersOf s).filter fun q =>
        onPass s root c ax q && stationOf s ax (coordOf q ax) == startStation s root ax c
      heads.flatMap fun q => passTransfers d v rv surv s root c ax q

/-- The transfers of a distribution from `h`, parents before children (R412, R624). -/
def distTransfers (d : Dims) (v rv : View) (surv : List Nat) (s : Shape) (h : Pos) : List Transfer :=
  let order := (distSubtree s h (mOf s 0 + mOf s 1 + mOf s 2) h).drop 1
  order.foldl (fun done q => match distParent s h q with
    | none => done
    | some (ax, plus, r) =>
      let a := roleUnit d v surv r
      let b := roleUnit d v surv q
      let base := if addrOf d r = a ∧ addrOf d q = b then stepRoute d ax plus a b else plainRoute d a b
      let e := ((done.find? fun t => decide (t.toPos = r)).map (laneAfter d)).getD laneNone
      done ++ [{ leg := .dist, fromPos := r, toPos := q, src := roleUnit d v surv h, route := routeOf d rv base a b, lane := e.1, wrapped := e.2 }]) []

/-- Whether a transfer enters unit `u` through port `q`: the hop before `u`, if any, leaves the unit that `q` faces. -/
def entersAt (d : Dims) (u q : Nat) (t : Transfer) : Bool :=
  match t.route with
  | none => false
  | some r => r.any fun h => h.2 == facingPort q && facing d h.1 h.2 == u && h.1 == facing d u q

/-- The hop by which a transfer leaves unit `u`, with its virtual channel, if it does. -/
def leavesBy (d : Dims) (u : Nat) (t : Transfer) : Option (Nat × Nat) :=
  match t.route with
  | none => none
  | some r => ((List.zip r (transferVcs d t)).find? fun e => e.1.1 == u).map fun e => (e.1.2, e.2)

/-- The unit at which a transfer ends. -/
def endsAt (d : Dims) (t : Transfer) : Option Nat :=
  match t.route with
  | none => none
  | some r => match r.getLast? with
    | some h => some (facing d h.1 h.2)
    | none => none

end Sys2Proof.Machine
end

