-- ==== Sys2Proof/Machine/State.lean ====
section
/-! DEFINITION. The state of one Vareg unit: what survives a reset (Hk), what step 2 of R173 latches (Cfg), and what every reset discards (Dev), with the queue of waiting commands. -/
namespace Sys2Proof.Machine
open Sys2Proof

/-- No command of the block ends in a fault: every happening that the spec calls a fault has an effect that the spec describes (R616 to R652), and that effect is the next state. The constructor is raised by nobody. -/
inductive Fault
  /-- Raised by no command. Safe: it cannot occur. -/
  | unreachable
  deriving DecidableEq, Repr

/-- The reasons for which a command could be refused. -/
inductive Refusal
  /-- A command that the model gives no meaning yet, by its mnemonic. Raised by the dispatch of such a command only. Safe. -/
  | notModelled (mnemonic : String)
  deriving DecidableEq, Repr

/-! ## Stop codes -/

/-- Stop codes of R382, `stop_code` 01h to 0Ch. -/
inductive Stop
  | cfgChainMismatch | sowMultiOrigin | sowPosition | sowShape | sowTopology | sowIncomplete | sowNoOrigin
  | cfgReserved | cfgConflict | bringupPll | bringupSram | bringupSpool
  deriving DecidableEq, Repr

/-! ## Links -/

/-- Darn's state on one side of one link (R231 to R235): the next number to send, the last accepted number, the retry count, whether a NACK is outstanding, what the next frame's tail must carry, the held frames, and those of them that a replay has still to send. -/
structure Darn (α : Type) where
  next : BitVec 12
  last : BitVec 12
  retries : Nat
  nackOut : Bool
  ackDue : Bool
  nackDue : Bool
  held : List (BitVec 12 × α)
  replay : List (BitVec 12 × α)
  /-- The replay was asked for by a NACK and has resent nothing yet (R254). -/
  asked : Bool
  deriving DecidableEq, Repr

/-- Credit of one virtual channel (R228): the partner's limit L, first transmissions S, the latest return F; and for the frames that arrive, the limit this side advertised, how many came, how many it freed, and the freed count last sent. -/
structure Credit where
  lim : Nat
  sent : Byte
  ret : Byte
  adv : Nat
  recv : Byte
  freed : Byte
  freedSent : Byte
  deriving DecidableEq, Repr

/-! ## Leaf ports -/

/-- What a leaf-memory read is for. -/
inductive ReadWhy
  /-- The header of ring `r` (R309). -/
  | header (r : RingNo)
  /-- `n` slots of ring `r` from index `first` (R314). -/
  | slots (r : RingNo) (first : W16) (n : Nat)
  /-- The recipe of ring `r`'s head descriptor (R325). -/
  | recipe (r : RingNo)
  /-- Bytes at `off` of the member list of ring `r`'s head descriptor (R371). -/
  | memberList (r : RingNo) (off : Nat)
  /-- Bytes at `off` of the counts table of ring `r`'s head descriptor (R417). -/
  | counts (r : RingNo) (off : Nat)
  /-- Bytes at `off` of core `c`'s input of ring `r`'s running descriptor. -/
  | input (r : RingNo) (c : Nat) (off : Nat)
  /-- Bytes at `off` of a YARD_LOAD's leaf source. -/
  | yardSrc (r : RingNo) (off : Nat)
  deriving DecidableEq, Repr

/-- A read that has still to be requested: its purpose, its channel (0 ring fetch, 1 bulk data), its address and size. -/
structure ReadWant where
  why : ReadWhy
  vc : Nat
  addr : Nat
  size : Nat
  deriving DecidableEq, Repr

/-- An outstanding read (R240 to R243): its tag, the bytes accepted so far, and whether its data is to be discarded (R327). -/
structure ReadOut where
  tag : Nat
  want : ReadWant
  got : List Byte
  discard : Bool
  deriving DecidableEq, Repr

/-- A sequenced frame that the port sends (R226). -/
inductive LemTx
  /-- READ_REQ with one entry (R240). -/
  | readReq (vc : Nat) (addr tag size : Nat)
  /-- WRITE (R244). -/
  | write (vc stream addr : Nat) (data : List Byte)
  /-- HELLO_ACK (R238). -/
  | helloAck (cores result : Nat)
  deriving DecidableEq, Repr

/-- A chunk signal that waits for the output frames before it (R420): the physical pool peg, the operation (1 set, 3 tally add), the amount, and the element index of the first chunk it counts with the elements per chunk. -/
structure SigMark where
  peg : Nat
  pop : Nat
  amount : Nat
  element : Nat
  step : Nat
  deriving DecidableEq, Repr

/-- What waits to be sent on a leaf port. -/
inductive TxBody
  | read (w : ReadWant)
  | frame (f : LemTx)
  | signal (m : SigMark)
  deriving DecidableEq, Repr

/-- One waiting item: its virtual channel, its stream (a ring number, or 8 for status pages and link control), and the bytes at a WRITE's start that complete an element begun by the frame before it (R50, R244). -/
structure TxItem where
  vc : Nat
  stream : Nat
  body : TxBody
  rest : Nat := 0
  deriving DecidableEq, Repr

/-- What an accepted HELLO fixes at each link up (R236, R237). -/
structure Hello where
  windowBase : Nat
  windowSize : Nat
  ringTable : Nat
  statusPage : Nat
  leafTag : W64
  deriving DecidableEq, Repr

/-- The training state of a Lemius port (R220, R251, R216). -/
inductive LemPhase
  /-- Lanes powered down or in electrical idle. -/
  | down
  /-- Detect to equalisation. -/
  | training
  /-- Link up, step 7 of R173. -/
  | up
  /-- The electrical-idle hold after a link down. -/
  | idleHold
  /-- Loopback as follower. -/
  | loopback
  deriving DecidableEq, Repr

/-- A ring header's fields (R355). -/
structure RingHdr where
  epoch : W32
  startIndex : W16
  ringLog2 : Nat
  pollCode : Nat
  pegClass : Bool
  ringBase : Nat
  cplBase : Nat
  consumedAddr : Nat
  windowBase : Nat
  deriving DecidableEq, Repr

/-- The four states of a ring (R308). -/
inductive RingSt
  | off | running | fenced | stalled
  deriving DecidableEq, Repr

/-- A fetched descriptor in the prefetch queue: its index and its 128 bytes. -/
structure Slot where
  index : W16
  bytes : List Byte
  deriving DecidableEq, Repr

/-- How far the head descriptor has come before its admission (R371, R321). -/
inductive HeadStage
  /-- Its member list and counts table are being read. -/
  | reading
  /-- Its checks have passed and its dependencies are awaited. -/
  | waiting
  /-- Its recipe is being read. -/
  | recipe
  /-- It may be admitted. -/
  | ready
  deriving DecidableEq, Repr

/-- The work on the head of a prefetch queue: its stage, the member list and counts read so far, whether such a read failed, each dependency's satisfaction, the status a check produced (0 none), its warnings, its recipe, the recipe reads tried, and the request number of each WATCH. -/
structure Head where
  stage : HeadStage
  list : Option (List Byte)
  counts : List Byte
  countsLeft : Nat
  readFailed : Bool
  met : List Bool
  status : Byte
  warnings : W16
  recipe : List Byte
  recipeTries : Nat
  watchIds : List (Option W16)
  /-- The watches that were answered FULL and wait to be sent again (R551). -/
  watchFull : List Bool
  deriving DecidableEq, Repr

/-- An admitted descriptor (R321) with its record's fields so far (R372), its held inputs (R525), and what it still waits for. -/
structure Run where
  index : W16
  desc : List Byte
  status : Byte
  warnings : W16
  exception : Byte
  /-- The indices that raised any exception code, each once (R375). -/
  excAt : List Nat
  element : Nat
  droppedSrc : Nat
  droppedDst : Nat
  aux : Nat
  evGraft : Bool
  /-- The number of the line barrier that it belongs to (R564, R567). -/
  lineBar : Option Nat
  finished : Bool
  list : List Byte
  counts : List Byte
  recipe : List Byte
  holdStripes : Nat
  holdOk : Bool
  joined : Bool
  inputs : List (Nat × List Byte)
  readsLeft : Nat
  readDone : Bool
  prepared : Bool
  entry : Nat
  waitReq : Option W16
  clearing : Bool
  spoolPending : Bool
  yardStage : Nat
  metFault : Bool
  /-- Its place in the unit's order of admissions (R396). -/
  no : Nat
  /-- The members of its group as named at its admission, by which its inputs and counts are laid out (R405, R417, R607). -/
  named : List Nat
  deriving DecidableEq, Repr

/-- One work ring (R308, R328, R384). -/
structure Ring where
  st : RingSt
  hdr : RingHdr
  hdrInvalid : Bool
  nextFetch : W16
  /-- The index of the next slot to be taken from completed reads, in index order (R315). -/
  intake : W16
  recorded : W16
  queue : List Slot
  waiting : Bool
  refetches : Nat
  refetchPending : Bool
  /-- Structures whose read failed and that are to be read again (R319, R325). -/
  retry : List ReadWhy
  hdrData : Option (List Byte)
  slotData : List (W16 × List Byte)
  hdrDeferred : Bool
  fenceOpen : Bool
  /-- The header that a fence adopts once its record has been sent (R333). -/
  adopting : Option (List Byte)
  /-- A nudge came while a header was being adopted (R337). -/
  nudged : Bool
  head : Option Head
  cur : Option Run
  recs : W64
  fails : W64
  deriving DecidableEq, Repr

/-- One leaf port and its island. -/
structure LemPort where
  phase : LemPhase
  mode : Byte
  darn : Darn LemTx
  credit : Vector Credit 4
  txq : List TxItem
  turn : Vector (Fin 8) 4
  sinceVc1 : Nat
  helloSeen : Bool
  helloDone : Bool
  hello : Hello
  /-- `core_count` of the last HELLO answered. -/
  reported : Nat
  fixedCount : Option Nat
  present : Bool
  helloResult : Byte
  accepted : Byte
  outOfUse : Option Byte
  started : Bool
  portact : Bool
  downReason : Byte
  ctr : Vector W64 12
  sat : W64
  reads : List ReadOut
  retired : List Nat
  causes : W16
  pageNo : W64
  margin : Option MarginRequest
  /-- The answer to the last Lane Margining request, as margined receiver (R216). -/
  marginReply : Option MarginRequest
  pocket : Sparse 16
  rings : Vector Ring 8
  ringSat : W16
  /-- The 256 bytes last sent; none in electrical idle. -/
  wire : List Byte
  /-- The same as the lanes 0 to w - 1 carry them (R221). -/
  lanes : List (List Byte)
  deriving DecidableEq, Repr

/-! ## Trellis ports -/

/-- `state` of a Trellis port (R705). -/
inductive TrlSt
  | unused | silent | miswired | up | down | training
  deriving DecidableEq, Repr

/-- Who sends on a Trellis link (R286). -/
inductive Owner
  | control
  | group (t : Tenant) (coll : W16)
  | pegs (t : Tenant)
  | recovery
  deriving DecidableEq, Repr

/-- A frame that waits for a Trellis link: its owner, and the source that orders frames of one cycle (R287). -/
structure TrlItem where
  owner : Owner
  source : Nat
  frame : TrlFrame
  deriving DecidableEq, Repr

/-- One Trellis port and its island. -/
structure TrlPort where
  st : TrlSt
  linkUp : Bool
  loopFollower : Bool
  loopLeader : Bool
  darn : Darn TrlFrame
  credit : Vector Credit 8
  creditSel : Nat
  txq : List TrlItem
  slots : List (Nat × Tenant × W16)
  ptr : Nat
  sinceAlign : Nat
  alignSent : W16
  alignSeen : W16
  scramblerSeeded : Bool
  downReason : Byte
  hMargin : List Byte
  vMargin : List Byte
  ctr : Vector W64 7
  sat : W64
  loopBits : List W64
  loopErrors : List W64
  lastLinkDown : Byte
  hello : Option TrlFrame
  /-- Sowing frames for an up port that wait for the pairing check of this one (R196). -/
  sowWait : List TrlFrame
  /-- The port has been in loopback under DBG_LOOP in this reset (R670, R705). -/
  looped : Bool
  /-- The bytes of the LINK_DOWN frame with which the port last left its link; none where it sent none (R293). -/
  parting : List Byte
  /-- The 256 bytes last sent, before scrambling; none in electrical idle. -/
  wire : List Byte
  /-- The same as the 16 lanes carry them (R272). -/
  lanes : List (List Byte)
  deriving DecidableEq, Repr

/-! ## Sowing -/

/-- What a unit has learnt in sowing (R199, R200, R704). -/
structure Sow where
  step10 : Bool
  posKnown : Bool
  pos : Pos
  dims : Dims
  seeded : Bool
  refCodes : Option (List (BitVec 4))
  refSerial : BitVec 48
  refHeld : Bool
  lapStarted : List Nat
  lapClosed : List Nat
  posSent : Bool
  posSeen : List Nat
  checkPassed : Bool
  rollReady : List (Nat × Nat)
  rollWaiting : List (Nat × Nat × TrlFrame)
  formed : Bool
  formedSent : Bool
  held : List (Nat × TrlFrame)
  deriving DecidableEq, Repr

/-! ## Pegs, barriers and the line -/

/-- A watch that this unit's pegs hold for a descriptor of another unit (R551). -/
structure Watch where
  peg : Nat
  cond : Nat
  operand : W16
  tenant : Tenant
  unit : Nat
  reqId : W16
  pgen : Byte
  deriving DecidableEq, Repr

/-- An open phase of a barrier pair homed here (R558): the recorded bytes 0Ah to 27h, and each unit that has reported with its `members`. -/
structure Phase where
  peg : Nat
  sense : Nat
  tenant : Tenant
  body : List Byte
  map : W64
  reported : List (Nat × Nat)
  deriving DecidableEq, Repr

/-- This unit's arrival for a pair (R557) or for line barrier `line` (R563): its agreement bytes, its pair and home, its descriptors and their members, whether it has reported, and its WITHDRAW's request number. -/
structure Arrival where
  tenant : Tenant
  agree : List Byte
  list : List Byte
  home : Nat
  peg : Nat
  line : Option Nat
  runs : List (LPort × RingNo)
  covered : BitVec 128
  members : BitVec 128
  arrived : Bool
  withdrawId : Option W16
  body : List Byte
  deriving DecidableEq, Repr

/-- The peg island's storage and engines. -/
structure Pegs where
  pool : Sparse 16
  /-- Pool pegs whose word has an uncorrectable error and has not been written since (R583). -/
  bad : List Nat
  watches : List Watch
  phases : List Phase
  arrivals : List Arrival
  nextReq : W16
  /-- Phases whose end this unit ignores (R567), each with the ARRIVE sent for it: home, first peg, `members` and bytes 0Ah to 23h. -/
  ignored : List (Nat × Nat × Nat × List Byte)
  /-- Peg messages whose sender and home are both this unit, waiting to be handled. -/
  selfq : List TrlFrame
  deriving DecidableEq, Repr

/-- The washing line (R564, R566). -/
structure Line where
  assertA : Bool
  assertB : Bool
  n : Nat
  ready : Bool
  released : Bool
  fallback : Bool
  f : Nat
  /-- Line barriers completed by the line, with the ARRIVE that R567 would send. -/
  completed : List (Nat × Nat × Nat × Nat × List Byte)
  deriving DecidableEq, Repr

/-! ## Collectives -/

/-- One transfer that a unit receives: the input port it came by, the frames' `src_unit`, the wire index, the transfer's ends, its bytes and frames so far, and its SIGNAL. -/
structure RxStream where
  port : Nat
  src : Nat
  wire : W32
  leg : Leg
  fromPos : Pos
  toPos : Pos
  bytes : List Byte
  frames : Nat
  ended : Bool
  done : Bool
  notice : Bool
  noYard : Bool
  dropped : Bool
  home : Nat
  deriving DecidableEq, Repr

/-- What a unit has sent of one transfer: the transfer's ends and wire index, the frames sent, and whether its SIGNAL went. -/
structure TxStream where
  wire : W32
  src : Nat
  leg : Leg
  fromPos : Pos
  toPos : Pos
  frames : Nat
  done : Bool
  deriving DecidableEq, Repr

/-- A carrier's STATE in one round (R620): the sender, the round, `committed` and the `sent` counts. -/
structure Report where
  unit : Nat
  round : Nat
  committed : Bool
  sent : List Nat
  deriving DecidableEq, Repr

/-- An instance of a collective on this unit (R396 to R400, R623, R632 to R635). -/
structure Inst where
  tenant : Tenant
  coll : W16
  num : W16
  agree : List Byte
  list : List Byte
  base : Nat
  opened : Bool
  masks : List (Nat × BitVec 128)
  removed : List (Nat × BitVec 128)
  covered : BitVec 128
  mine : BitVec 128
  runs : List (LPort × RingNo)
  /-- Descriptors that have left the instance while it is open: their held inputs stay with it (R525, R527). -/
  ghosts : List (LPort × Run)
  aborted : Option Byte
  proSent : Bool
  rx : List RxStream
  tx : List TxStream
  committed : Bool
  written : Nat
  decision : Option (List Byte)
  noYard : Bool
  pressDone : Bool
  pressOut : Option (List Nat)
  stageStripes : Nat
  stageOk : Bool
  stageAsked : Bool
  frozen : Bool
  round : Nat
  /-- The round of the last VERDICT acted on (R633). -/
  verdictRound : Nat
  /-- The view and the surviving units in which the group was formed (R624). -/
  view : View
  surv : List Nat
  /-- The same at its opening: prologues keep the roles of that moment, as a rerun sends no new one (R635). -/
  openView : View
  openSurv : List Nat
  /-- Members on excluded or lost parties of the faults since the freeze, which a REFORM removes (R624). -/
  toRemove : List (Nat × BitVec 128)
  /-- Frames taken while frozen, in order, with their input ports (R632, R635). -/
  kept : List (Nat × TrlFrame)
  /-- Result frames that wait for the staging reservation, in order, with their input ports (R528). -/
  parked : List (Nat × TrlFrame)
  sent : List Nat
  taken : List Nat
  skip : List Nat
  grafted : Bool
  /-- A REFORM verdict waits for the neighbours' STATEs of its round (R637 step 5). -/
  reformDue : Bool
  /-- Opened by a prologue, not by a descriptor (R398). -/
  byReceipt : Bool
  /-- Going on after a COMMITTED verdict (R634). -/
  goesOn : Bool
  /-- Data of it on this unit met an uncorrectable error: nothing is sent or written of it before a rerun (R51, R476, R504). -/
  spoiled : Bool
  deriving DecidableEq, Repr

/-- What a unit without a role in a group knows of it from the prologues that it relays: the key, the group fields, the member list, the unit whose prologue gave them, and the members named. -/
structure Relay where
  tenant : Tenant
  coll : W16
  agree : List Byte
  list : List Byte
  base : Nat
  /-- The members that the prologues relayed name, unit by unit. -/
  masks : List (Nat × BitVec 128)
  /-- Frames of the group passed on since its last prologue, by input port and channel (R635). -/
  taken : List Nat
  deriving DecidableEq, Repr

/-- The collective scheduler. -/
structure Coll where
  insts : List Inst
  numbers : List ((Tenant × W16) × W16)
  early : List (Nat × TrlFrame)
  preAborts : List (Tenant × W16 × W16 × Byte)
  /-- STATEs of instances not ended, each with its key and number (R632, R643). -/
  states : List (Tenant × W16 × W16 × Report)
  /-- The highest round of each instance for which a VERDICT is known (R643). -/
  verdicts : List ((Tenant × W16 × W16) × Nat)
  relays : List Relay
  /-- What the last instance of each key was about, with its number, once it has ended here (R633, R643). -/
  closed : List (Relay × W16)
  /-- Prologues completed from each unit of each key, which tells the instance of a frame (R399, R623). -/
  proCount : List ((Tenant × W16 × Nat) × W16)
  /-- Descriptors admitted on this unit. -/
  admitted : Nat
  deriving DecidableEq, Repr

/-! ## Spool and yard -/

/-- A block directory entry (R482). -/
structure Block where
  tenant : Tenant
  port : LPort
  addr : Nat
  k : Nat
  n : Nat
  wFmt : Nat
  fn : Nat
  lo : W32
  hi : W32
  deriving DecidableEq, Repr

/-- A hold or staging request in a tenant's order (R526, R528). -/
inductive StoreReq
  | hold (p : LPort) (r : RingNo) (stripes : Nat)
  | staging (coll : W16) (stripes : Nat)
  deriving DecidableEq, Repr

/-- The Spool, the yard and the space kept in them. -/
structure Store where
  spool : Sparse 8
  /-- The words whose poison flag is set, in each of its three copies (R521). -/
  poison : List Nat
  poison2 : List Nat
  poison3 : List Nat
  /-- Words that will read uncorrectable, and that no read has met yet (R522, R570). -/
  spoolBad : List Nat
  yard : Sparse 8
  dir : List Block
  held : Vector Nat 4
  staged : Vector Nat 4
  wait : Vector (List StoreReq) 4
  /-- Staging of instances that have ended, with the descriptors, by their place of admission, whose records have still to be sent (R528). -/
  owed : List (Tenant × Nat × List Nat)
  scrubRow : Nat
  /-- The recipe buffers of the Base Bobbins, by channel, that have been loaded: 256 bytes each (R520). -/
  recipeBufs : List (Nat × List Byte)
  deriving DecidableEq, Repr

/-! ## Recovery -/

/-- Where a tenant's fault restart stands on this unit (R628): records of the drain being sent, DRAINED awaited, the context change running, CLEAN awaited. -/
inductive RestartSt
  | none | draining | drained | changing | cleaning
  deriving DecidableEq, Repr

/-- What a unit keeps for recoveries (R619 to R635, R707). -/
structure Rec where
  view : View
  isolated : Bool
  serial : Byte
  seen : List (Nat × Byte)
  restart : Vector RestartSt 4
  /-- Units whose DRAINED, or whose CLEAN, has been accepted for each tenant under restart. -/
  drained : List (Tenant × Nat)
  cleaned : List (Tenant × Nat)
  /-- First physical pegs of the kept windows that DRAINED messages named (R620). -/
  windows : List Nat
  /-- The members that faults have taken from groups since the last VERDICT was awaited (R624, R633). -/
  gone : List (Nat × BitVec 128)
  /-- Context changes completed (R552). -/
  pgen : Vector Byte 4
  /-- Faults that an operation met and that its command has still to raise: class and leaf port (R617). -/
  due : List (Nat × Nat)
  deriving DecidableEq, Repr

/-! ## Status, debug and the whole -/

/-- Unit-wide status and bring-up progress. -/
structure Stat where
  hkLocked : Bool
  hkFailed : Bool
  loopsLocked : Bool
  pllFail : BitVec 20
  memReady : Bool
  bringupMask : BitVec 4
  trainStarted : Bool
  halted : Bool
  ready : Bool
  faultN : Bool
  stop : Option Stop
  stopPos : Option Pos
  stopPort : Byte
  stopMask : W16
  stopRef : Option (List (BitVec 4))
  tj : W16
  health : Vector W64 7
  healthSat : W64
  failedUnits : W64
  tctr : Vector (Vector W64 10) 4
  tsat : Vector W64 4
  startQueue : List LPort
  flagsPaged : Bool
  deriving DecidableEq, Repr

/-- The debug port (R664 to R670). -/
structure Dbg where
  addr : W64
  started : Bool
  busy : Bool
  result : BitVec 288
  handOps : W16
  deriving DecidableEq, Repr

/-- Everything that a reset discards (R172), with the draw counter of the free values, which only counts up. -/
structure Dev where
  stat : Stat
  lem : Vector LemPort 8
  trl : Vector TrlPort 6
  sow : Sow
  pegs : Pegs
  line : Line
  coll : Coll
  store : Store
  recov : Rec
  dbg : Dbg
  free : Nat
  deriving DecidableEq, Repr

/-- What step 2 of R173 latches and holds until the next reset (R119): the twelve codes in the order of R119, the straps (bit 0 ORIGIN, 1 DBG_EN, 2 DBG_LOCK_N, 3 PWR_SPIN), RSVD_G, and what step 3 decides from them (R126, R150, R162). -/
structure Cfg where
  latched : Bool
  codes : Vector (BitVec 4) 12
  straps : BitVec 4
  rsvdG : W16
  debugOpen : Bool
  fuseFail : Bool
  pinMask : W16
  stop : Option Stop
  deriving DecidableEq, Repr

/-- Which instruction holds the boundary pins (R108). -/
inductive PinDrive
  | none | extest | clamp | highz
  deriving DecidableEq, Repr

/-- What outlives a reset: the VDD_IO domain, the fuses, the reset inputs and the TAP (R112, R165, R170, R179, R151). -/
structure Hk where
  vddIo : Bool
  rails : BitVec 9
  railsRising : Bool
  resetPin : Bool
  chainPin : Bool
  inReset : Bool
  causeRising : Bool
  causeChain : Bool
  resetCause : Byte
  brownOut : Bool
  clockLoss : Bool
  fuseBlown : Bool
  dieSerial : BitVec 48
  codeX : Bool
  tapIr : Byte
  tapDr : List Bool
  boundary : BitVec 39
  pinDrive : PinDrive
  deriving DecidableEq, Repr

/-- The state of one Vareg unit with the queue of waiting commands, first in, first out. -/
structure State where
  pending : List Instr
  hk : Hk
  cfg : Cfg
  dev : Dev
  deriving DecidableEq, Repr

/-! ## Reset values -/

/-- Darn's state at a link up (R231). -/
def Darn.init {α : Type} : Darn α :=
  { next := 0, last := 0xFFF, retries := 0, nackOut := false, ackDue := false, nackDue := false, held := [], replay := [], asked := false }

/-- A channel with no credit on either side. -/
def Credit.none : Credit := { lim := 0, sent := 0, ret := 0, adv := 0, recv := 0, freed := 0, freedSent := 0 }

/-- A header never adopted. DESIGN CHOICE zero (log 4): no header is in force while a ring is off. -/
def RingHdr.zero : RingHdr :=
  { epoch := 0, startIndex := 0, ringLog2 := 0, pollCode := 0, pegClass := false, ringBase := 0, cplBase := 0,
    consumedAddr := 0, windowBase := 0 }

/-- A ring that is off (R308). -/
def Ring.reset : Ring :=
  { st := .off, hdr := RingHdr.zero, hdrInvalid := false, nextFetch := 0, intake := 0, recorded := 0, queue := [], waiting := false,
    refetches := 0, refetchPending := false, retry := [], hdrData := none, slotData := [], hdrDeferred := false,
    fenceOpen := false, adopting := none, nudged := false, head := none, cur := none, recs := 0, fails := 0 }

/-- No HELLO accepted. DESIGN CHOICE zero (log 4). -/
def Hello.zero : Hello := { windowBase := 0, windowSize := 0, ringTable := 0, statusPage := 0, leafTag := 0 }

/-- A leaf port at reset release. -/
def LemPort.reset : LemPort :=
  { phase := .down, mode := 0, darn := Darn.init, credit := Vector.replicate 4 Credit.none, txq := [],
    turn := Vector.replicate 4 0, sinceVc1 := 0, helloSeen := false, helloDone := false, hello := Hello.zero,
    reported := 0, fixedCount := none, present := false, helloResult := 0xFF, accepted := 0, outOfUse := none, started := false,
    portact := false, downReason := 0xFF, ctr := Vector.replicate 12 0, sat := 0, reads := [], retired := [],
    causes := 0, pageNo := 0, margin := none, marginReply := none, pocket := [], rings := Vector.replicate 8 Ring.reset, ringSat := 0, wire := [], lanes := [] }

/-- A Trellis port at reset release. -/
def TrlPort.reset : TrlPort :=
  { st := .unused, linkUp := false, loopFollower := false, loopLeader := false, darn := Darn.init,
    credit := Vector.replicate 8 Credit.none, creditSel := 0, txq := [], slots := [], ptr := 0, sinceAlign := 0,
    alignSent := 0, alignSeen := 0, scramblerSeeded := false, downReason := 0, hMargin := [], vMargin := [],
    ctr := Vector.replicate 7 0, sat := 0, loopBits := [], loopErrors := [], lastLinkDown := 0, hello := none, sowWait := [], looped := false, parting := [], wire := [], lanes := [] }

/-- Nothing learnt yet (R704). -/
def Sow.reset : Sow :=
  { step10 := false, posKnown := false, pos := ⟨0, 0, 0⟩, dims := ⟨0, 0, 0⟩, seeded := false, refCodes := none,
    refSerial := 0, refHeld := false, lapStarted := [], lapClosed := [], posSent := false, posSeen := [],
    checkPassed := false, rollReady := [], rollWaiting := [], formed := false, formedSent := false, held := [] }

/-- Every peg 0, no watch, no phase (R541). -/
def Pegs.reset : Pegs :=
  { pool := [], bad := [], watches := [], phases := [], arrivals := [], nextReq := 0, ignored := [], selfq := [] }

/-- Both lines released (R105). -/
def Line.reset : Line :=
  { assertA := false, assertB := false, n := 0, ready := false, released := false, fallback := false, f := 0, completed := [] }

/-- No instance. -/
def Coll.reset : Coll := { insts := [], numbers := [], early := [], preAborts := [], states := [], verdicts := [], relays := [], closed := [], proCount := [], admitted := 0 }

/-- Spool and yard cleared, directory empty, nothing held (R173 step 5, R482, R516). -/
def Store.reset : Store :=
  { spool := [], poison := [], poison2 := [], poison3 := [], spoolBad := [], yard := [], dir := [], held := Vector.replicate 4 0,
    staged := Vector.replicate 4 0, wait := Vector.replicate 4 [], owed := [], scrubRow := 0, recipeBufs := [] }

/-- Nothing lost, nothing under way. -/
def Rec.reset : Rec :=
  { view := { lost := [], cut := [] }, isolated := false, serial := 0, seen := [], restart := Vector.replicate 4 .none,
    drained := [], cleaned := [], windows := [], gone := [], pgen := Vector.replicate 4 0, due := [] }

/-- No step of R173 done; READY low, FAULT_N released (R105). -/
def Stat.reset : Stat :=
  { hkLocked := false, hkFailed := false, loopsLocked := false, pllFail := 0, memReady := false, bringupMask := 0,
    trainStarted := false, halted := false, ready := false, faultN := false, stop := none, stopPos := none,
    stopPort := 0xFF, stopMask := 0, stopRef := none, tj := 0, health := Vector.replicate 7 0, healthSat := 0,
    failedUnits := 0, tctr := Vector.replicate 4 (Vector.replicate 10 0), tsat := Vector.replicate 4 0,
    startQueue := [], flagsPaged := false }

/-- The debug port at reset: DBG_ADDR zero (R675). -/
def Dbg.reset : Dbg := { addr := 0, started := false, busy := false, result := 0, handOps := 0 }

/-- Everything that a reset discards, at its value right after the reset (R172). -/
def Dev.reset : Dev :=
  { stat := Stat.reset, lem := Vector.replicate 8 LemPort.reset, trl := Vector.replicate 6 TrlPort.reset,
    sow := Sow.reset, pegs := Pegs.reset, line := Line.reset, coll := Coll.reset, store := Store.reset,
    recov := Rec.reset, dbg := Dbg.reset, free := 0 }

/-- Nothing latched yet. DESIGN CHOICE zero (log 4). -/
def Cfg.reset : Cfg :=
  { latched := false, codes := Vector.replicate 12 0, straps := 0, rsvdG := 0, debugOpen := false, fuseFail := false,
    pinMask := 0, stop := none }

/-- The VDD_IO domain at the moment of a power-on reset's release: rails in range, pins deasserted, fuse intact. DESIGN CHOICE (log 4). -/
def Hk.reset : Hk :=
  { vddIo := true, rails := 0x1FF, railsRising := false, resetPin := false, chainPin := false, inReset := false,
    causeRising := false, causeChain := false, resetCause := 1, brownOut := false, clockLoss := false,
    fuseBlown := false, dieSerial := 0, codeX := false, tapIr := 2, tapDr := [], boundary := 0, pinDrive := .none }

/-- The unit at reset release, before step 1 of R173 (log 4), with no command waiting. -/
def State.reset : State := { pending := [], hk := Hk.reset, cfg := Cfg.reset, dev := Dev.reset }

end Sys2Proof.Machine
end

