-- ==== Sys2Proof/Machine/Layout.lean ====
section
/-! DEFINITION. Frames and structures as bytes: Lemius and Trellis frames (R222 to R226, R275 to R277), sowing, peg and RECOVERY messages (R199, R552 to R554, R619, R620), ring headers, records and consumed words (R355, R356, R372). -/
namespace Sys2Proof.Machine
open Sys2Proof

/-! ## The tail (R224) -/

/-- A frame's tail: its Darn number if it is sequenced, and the acknowledgement it carries. -/
structure Tail where
  seq : BitVec 12
  seqd : Bool
  ack : BitVec 12
  ackValid : Bool
  nack : Bool
  reservedOk : Bool
  deriving DecidableEq, Repr

/-- Read a tail (R224). -/
def parseTail (bs : List Byte) : Tail :=
  let a := leNat bs 0xF0 2
  let b := leNat bs 0xF2 2
  { seq := BitVec.ofNat 12 a, seqd := bitOf a 12, ack := BitVec.ofNat 12 b, ackValid := bitOf b 12, nack := bitOf b 13,
    reservedOk := decide (a / 2 ^ 13 = 0) && decide (b / 2 ^ 14 = 0) && decide (leNat bs 0xF4 2 = 0) &&
      (bitOf a 12 || decide (a % 4096 = 0)) }

/-- Whether a 256-byte frame's CRC matches (R225). -/
def crcOk (bs : List Byte) : Bool := decide (bs.length = 256) && (crc32c (bs.take 0xF6)).toNat == leNat bs 0xF6 4

/-- Interleave `k` of the FEC: the bytes from 00h to F9h whose offset mod 3 is `k` (R225). -/
def interleave (bs : List Byte) (k : Nat) : List Byte := ((List.range 250).filter (· % 3 == k)).map fun o => bs.getD o 0

/-- The offset of byte `n` of interleave `k`: its bytes, then its check bytes at FAh + 2k and FBh + 2k (R225). -/
def interleaveAt (k n : Nat) : Nat := if 3 * n + k < 250 then 3 * n + k else 0xFA + 2 * k + n % 2

/-- A received frame after the FEC's corrections: at most one byte of each interleave (R225). -/
def fecApply (bs : List Byte) (fixes : FecFix) : List Byte :=
  ([0, 1, 2] : List (Fin 3)).foldl (fun bs k => match fixes[k] with
    | some e => bs.set (interleaveAt k.val e.1.val) e.2
    | none => bs) bs

/-- Whether the FEC corrects a byte of a frame. -/
def fecFixed (fixes : FecFix) : Bool := ([0, 1, 2] : List (Fin 3)).any fun k => fixes[k].isSome

/-- Append a tail to 240 bytes of header and payload (R224, R225). -/
def withTail (hp : List Byte) (seq : Option (BitVec 12)) (ack : BitVec 12) (nack : Bool) : List Byte :=
  let s := match seq with
    | some q => q.toNat + 4096
    | none => 0
  let body := padTo 0xF0 hp ++ toLe s 2 ++ toLe (ack.toNat + 4096 + b2n nack * 8192) 2 ++ [0, 0]
  let c := body ++ toLe (crc32c body).toNat 4
  c ++ (List.range 6).map fun i => Config.fecByte (interleave c (i / 2)) (i % 2)

/-! ## Lemius frames -/

/-- The content of a received Lemius frame (R222, R223). -/
def parseLem (bs : List Byte) : LemFrame :=
  let b1 := byteAt bs 1
  { kind := bs.getD 0 0, vc := BitVec.ofNat 2 b1, stream := BitVec.ofNat 4 (b1 / 4), last := bitOf b1 6,
    status := BitVec.ofNat 3 (byteAt bs 3), addr := BitVec.ofNat 64 (leNat bs 4 8),
    payload := slice bs 0x10 (min (byteAt bs 2) 224) }

/-- The channel on which a leaf may send each kind it may send (R226); none for a kind the Vareg never accepts. -/
def leafKindVc (k vc : Nat) : Bool :=
  match k with
  | 2 => decide (vc ≤ 1)
  | 4 | 5 | 7 => vc == 3
  | _ => false

/-- Whether a received Lemius frame's fields agree with its kind: lengths, reserved bits and unused fields (R223, R226, R260). -/
def lemFieldsOk (bs : List Byte) : Bool :=
  let k := byteAt bs 0
  let b1 := byteAt bs 1
  let b3 := byteAt bs 3
  let ad := leNat bs 4 8
  decide (byteAt bs 2 ≤ 224) && !(bitOf b1 7) && decide (b3 < 8) && bitsOf b1 2 4 == 0 && (parseTail bs).reservedOk && (parseTail bs).seqd == (k != 0) &&
  (match k with
   | 0 => b1 == 0 && b3 == 0 && ad == 0 && byteAt bs 2 == 0
   | 2 => leafKindVc 2 (b1 % 4) && decide (ad / 2 ^ 29 = 0) && bitsOf ad 12 4 == 0
   | 4 => leafKindVc 4 (b1 % 4) && !(bitOf b1 6) && b3 == 0 && ad == 0 && byteAt bs 2 == 2
   | 5 => leafKindVc 5 (b1 % 4) && !(bitOf b1 6) && b3 == 0 && ad == 0 && byteAt bs 2 == 0x30
   | 7 => leafKindVc 7 (b1 % 4) && !(bitOf b1 6) && b3 == 0 && ad == 0 && byteAt bs 2 == 1
   | _ => false)

/-- The header and payload of a frame that the port sends (R223, R238, R240, R244), with the four credit returns. -/
def lemBody (p : LPort) (f : LemTx) (cr : List Nat) : List Byte :=
  match f with
  | .readReq vc addr tag size =>
    [1, BitVec.ofNat 8 vc, 16, 0] ++ zeros 8 ++ cr.map (BitVec.ofNat 8) ++ toLe addr 8 ++ toLe tag 2 ++ toLe size 2 ++ zeros 4
  | .write vc stream addr data =>
    [3, BitVec.ofNat 8 (vc + 4 * stream), BitVec.ofNat 8 data.length, 0] ++ toLe addr 8 ++ cr.map (BitVec.ofNat 8) ++ data
  | .helloAck cores result =>
    [6, 3, 8, 0] ++ zeros 8 ++ cr.map (BitVec.ofNat 8) ++ [1, BitVec.ofNat 8 p.val, BitVec.ofNat 8 cores, BitVec.ofNat 8 result, 64, 128, 0, 8]

/-- The channel of a frame that the port sends (R226). -/
def lemTxVc : LemTx → Nat
  | .readReq vc _ _ _ => vc
  | .write vc _ _ _ => vc
  | .helloAck _ _ => 3

/-- HELLO payload fields (R236): version, core count, credits, window, ring table, status page, leaf tag. -/
structure HelloMsg where
  version : Nat
  cores : Nat
  adv : List Nat
  info : Hello
  deriving DecidableEq, Repr

/-- Read a HELLO payload (R236). -/
def parseHello (pl : List Byte) : HelloMsg :=
  { version := byteAt pl 0, cores := byteAt pl 1, adv := [byteAt pl 4, byteAt pl 5, byteAt pl 6, byteAt pl 7],
    info := { windowBase := leNat pl 8 8, windowSize := leNat pl 16 8, ringTable := leNat pl 24 8,
              statusPage := leNat pl 32 8, leafTag := BitVec.ofNat 64 (leNat pl 40 8) } }

/-- Whether `[a, a + n)` lies wholly inside a window. -/
def inWindow (h : Hello) (a n : Nat) : Bool := decide (h.windowBase ≤ a) && decide (a + n ≤ h.windowBase + h.windowSize)

/-- Whether a HELLO is valid (R237). -/
def helloValid (m : HelloMsg) : Bool :=
  m.version == 1 && decide (1 ≤ m.cores) && decide (m.cores ≤ 16) && m.adv.all (fun a => decide (2 ≤ a) && decide (a ≤ 128)) &&
  decide (m.info.windowBase % 4096 = 0) && decide (m.info.windowSize % 4096 = 0) && decide (0 < m.info.windowSize) &&
  decide (m.info.windowBase + m.info.windowSize ≤ 2 ^ 64) && decide (m.info.ringTable % 4096 = 0) &&
  decide (m.info.statusPage % 4096 = 0) && inWindow m.info m.info.ringTable 512 && inWindow m.info m.info.statusPage 4096

/-! ## Trellis frames -/

/-- The content of a received Trellis frame (R276). -/
def parseTrl (bs : List Byte) : TrlFrame :=
  let b1 := byteAt bs 1
  { kind := bs.getD 0 0, vc := BitVec.ofNat 3 b1, tenant := Fin.ofNat 4 (b1 / 8), endChunk := bitOf b1 5,
    src := BitVec.ofNat 6 (byteAt bs 5), coll := BitVec.ofNat 16 (leNat bs 6 2), chunk := BitVec.ofNat 32 (leNat bs 8 4),
    frame := BitVec.ofNat 16 (leNat bs 12 2), dest := BitVec.ofNat 6 (byteAt bs 14), payload := slice bs 0x10 (min (byteAt bs 2) 224) }

/-- Whether a kind of frame may travel on a virtual channel (R277). -/
def trlKindVc (k vc : Nat) : Bool :=
  match k with
  | 1 | 2 => decide (1 ≤ vc) && decide (vc ≤ 4)
  | 3 => vc == 5
  | 4 => vc == 6
  | 5 | 6 => vc == 0
  | 7 => vc == 7
  | _ => false

/-- Whether a frame's content agrees with its kind (R276, R277, R302): channel, payload length, and the fields that other kinds leave zero. -/
def trlContentOk (f : TrlFrame) : Bool :=
  let k := f.kind.toNat
  trlKindVc k f.vc.toNat && decide (f.payload.length ≤ 224) &&
  (k == 1 || (!f.endChunk && f.frame == 0)) && (k == 1 || k == 2 || (f.coll == 0 && f.chunk == 0)) &&
  (k == 3 || k == 4 || k == 7 || f.dest == 0) &&
  (match k with
   | 2 => f.payload.length == 16
   | 3 => f.payload.length == 0x24
   | 4 => f.payload.length == 0x28
   | 5 => f.tenant == 0
   | 6 => f.tenant == 0 && f.payload.length == 1
   | _ => true)

/-- Whether a received Trellis frame's bytes keep every reserved bit zero and agree with their kind (R276, R302). -/
def trlFieldsOk (bs : List Byte) : Bool :=
  decide (byteAt bs 1 < 64) && decide (byteAt bs 2 ≤ 224) && decide (byteAt bs 3 < 8) && decide (byteAt bs 5 < 64) &&
  decide (byteAt bs 14 < 64) && byteAt bs 15 == 0 && (parseTail bs).reservedOk &&
  (parseTail bs).seqd == (byteAt bs 0 != 0) &&
  (if byteAt bs 0 = 0 then byteAt bs 1 == 0 && byteAt bs 2 == 0 && allZero bs 6 9 else trlContentOk (parseTrl bs))

/-- The header and payload of a Trellis frame, with its credit return (R276). -/
def trlBody (f : TrlFrame) (sel credit : Nat) : List Byte :=
  [f.kind, BitVec.ofNat 8 (f.vc.toNat + 8 * f.tenant.val + 32 * b2n f.endChunk), BitVec.ofNat 8 f.payload.length,
   BitVec.ofNat 8 sel, BitVec.ofNat 8 credit, BitVec.ofNat 8 f.src.toNat] ++ toLe f.coll.toNat 2 ++ toLe f.chunk.toNat 4 ++
  toLe f.frame.toNat 2 ++ [BitVec.ofNat 8 f.dest.toNat, 0] ++ f.payload

/-- The bytes of an IDLE frame of a unit: no payload, no channel, no collective, no destination (R276, R277). -/
def trlIdle (src sel credit : Nat) : List Byte := [0, 0, 0, BitVec.ofNat 8 sel, BitVec.ofNat 8 credit, BitVec.ofNat 8 src] ++ zeros 10

/-- What the lanes of a Trellis port carry of a frame that follows `n` frames since the last alignment block: byte i on lane i mod 16, each lane scrambled (R272). -/
def trlLanes (n : Nat) (bs : List Byte) : List (List Byte) :=
  (dealLanes 16 bs).mapIdx fun l xs => scramBytes (scramRun (128 * n) (Config.scramblerSeed l)) xs

/-- A frame that is all zero but for the fields named. -/
def mkTrl (kind vc : Nat) (t : Tenant) (src dest : Nat) (pl : List Byte) : TrlFrame :=
  { kind := BitVec.ofNat 8 kind, vc := BitVec.ofNat 3 vc, tenant := t, endChunk := false, src := BitVec.ofNat 6 src,
    coll := 0, chunk := 0, frame := 0, dest := BitVec.ofNat 6 dest, payload := pl }

/-- The limit L of each Trellis virtual channel (R283). -/
def trlLimit (vc : Nat) : Nat :=
  match vc with
  | 0 => 8 | 1 => 48 | 2 => 48 | 3 => 48 | 4 => 48 | 5 => 16 | 6 => 16 | _ => 8

/-- The bytes of an alignment block whose count is `n` (R272): byte i goes to lane i mod 16, position i / 16. -/
def alignBytes (n : W16) : List Byte :=
  (List.range 256).map fun i =>
    let lane := i % 16
    let pos := i / 16
    if pos < 12 then BitVec.ofNat 8 (0x3C + 16 * lane)
    else if pos = 12 then BitVec.ofNat 8 n.toNat
    else if pos = 13 then BitVec.ofNat 8 (n.toNat / 256)
    else 0

/-! ## Sowing frames (R199) -/

/-- Codes of `stop_code` (R199, R382). -/
def stopNat : Stop → Nat
  | .cfgChainMismatch => 1 | .sowMultiOrigin => 2 | .sowPosition => 3 | .sowShape => 4 | .sowTopology => 5
  | .sowIncomplete => 6 | .sowNoOrigin => 7 | .cfgReserved => 8 | .cfgConflict => 9 | .bringupPll => 10
  | .bringupSram => 11 | .bringupSpool => 12

/-- The stop a STOP frame names; 00h and 08h to FFh are reserved (R199). -/
def stopOfNat : Nat → Option Stop
  | 1 => some .cfgChainMismatch | 2 => some .sowMultiOrigin | 3 => some .sowPosition | 4 => some .sowShape
  | 5 => some .sowTopology | 6 => some .sowIncomplete | 7 => some .sowNoOrigin | _ => none

/-- A sowing message's fields (R199). -/
structure SowMsg where
  kind : Nat
  port : Nat
  coded : Bool
  axis : Nat
  stop : Nat
  pos : List Nat
  dims : Dims
  codes : List (BitVec 4)
  roll : Nat
  serial : BitVec 48
  mask : W16
  deriving DecidableEq, Repr

/-- Read a sowing payload (R199). -/
def parseSow (pl : List Byte) : SowMsg :=
  let nib (o h : Nat) : BitVec 4 := BitVec.ofNat 4 (byteAt pl o / 16 ^ h)
  { kind := byteAt pl 0, port := byteAt pl 1 % 8, coded := bitOf (byteAt pl 1) 3, axis := byteAt pl 2 % 4,
    stop := byteAt pl 3, pos := [byteAt pl 4, byteAt pl 5, byteAt pl 6], dims := ⟨byteAt pl 7, byteAt pl 8, byteAt pl 9⟩,
    codes := [nib 10 0, nib 10 1, nib 11 0, nib 11 1, nib 12 0], roll := leNat pl 14 2,
    serial := BitVec.ofNat 48 (leNat pl 16 6), mask := BitVec.ofNat 16 (leNat pl 22 2) }

/-- Write a sowing payload (R199): the 24 bytes that its fields take, which its frame's `length` then gives, as the spec states no other (log 84). -/
def sowPayload (m : SowMsg) : List Byte :=
  let c (i : Nat) : Nat := (m.codes.getD i 0).toNat
  [BitVec.ofNat 8 m.kind, BitVec.ofNat 8 (m.port + 8 * b2n m.coded), BitVec.ofNat 8 m.axis, BitVec.ofNat 8 m.stop] ++
  m.pos.map (BitVec.ofNat 8) ++ [BitVec.ofNat 8 m.dims.nx, BitVec.ofNat 8 m.dims.ny, BitVec.ofNat 8 m.dims.nz,
   BitVec.ofNat 8 (c 0 + 16 * c 1), BitVec.ofNat 8 (c 2 + 16 * c 3), BitVec.ofNat 8 (c 4), 0] ++
  toLe m.roll 2 ++ toLe m.serial.toNat 6 ++ toLe m.mask.toNat 2

/-- Whether a sowing frame is discarded for a reserved value (R199). -/
def sowReserved (m : SowMsg) : Bool :=
  m.kind == 0 || decide (8 < m.kind) || decide (5 < m.port) ||
  ((m.kind == 3 || m.kind == 4 || m.kind == 6) && m.axis == 3) ||
  (m.kind == 8 && (stopOfNat m.stop).isNone)

/-! ## Peg messages (R552, R553) -/

/-- The payload of a PEG frame (R552); `tail` is bytes 0Ah to 23h after `members` and `pgen`. -/
def pegPayload (pmsg pcode peg operand reqId members pgen : Nat) (body : List Byte) : List Byte :=
  padTo 0x24 ([BitVec.ofNat 8 pmsg, BitVec.ofNat 8 pcode] ++ toLe peg 2 ++ toLe operand 2 ++ toLe reqId 2 ++
    [BitVec.ofNat 8 members, BitVec.ofNat 8 pgen] ++ body)

/-- The payload of a PEG_REPLY frame (R553). -/
def replyPayload (rmsg exc peg value reqId : Nat) (body : List Byte) : List Byte :=
  padTo 0x28 ([BitVec.ofNat 8 rmsg, BitVec.ofNat 8 exc] ++ toLe peg 2 ++ toLe value 2 ++ toLe reqId 2 ++ body)

/-- A SIGNAL payload (R554). -/
def signalPayload (notice noYard dropped : Bool) (frames home : Nat) : List Byte :=
  padTo 16 ([if notice then 2 else 1, BitVec.ofNat 8 (b2n noYard + 2 * b2n dropped), 0, 0] ++ toLe frames 4 ++ [BitVec.ofNat 8 home])

/-! ## RECOVERY messages (R619, R620) -/

/-- The common part and body of a RECOVERY payload. -/
def recPayload (rkind serial tenant round coll inst : Nat) (body : List Byte) : List Byte :=
  [BitVec.ofNat 8 rkind, BitVec.ofNat 8 serial, BitVec.ofNat 8 tenant, BitVec.ofNat 8 round] ++ toLe coll 2 ++ toLe inst 2 ++ body

/-- Whether a SIGNAL payload keeps its reserved bits zero, with a code that R554 lists. -/
def signalOk (pl : List Byte) : Bool :=
  decide (1 ≤ byteAt pl 0) && decide (byteAt pl 0 ≤ 2) && decide (byteAt pl 1 < 4) && allZero pl 2 2 &&
  decide (byteAt pl 8 < 64) && allZero pl 9 7

/-- Whether a PEG payload has a listed `pmsg` and `pcode`, and zero in every field that its message leaves zero (R552). -/
def pegOk (pl : List Byte) : Bool :=
  let m := byteAt pl 0
  let k := byteAt pl 1
  decide (1 ≤ m) && decide (m ≤ 6) && (if m = 1 then decide (1 ≤ k) && decide (k ≤ 4) else if m = 2 then decide (k ≤ 4) else k == 0) &&
  (decide (m ≤ 2) || allZero pl 4 2) && (m == 4 || (byteAt pl 8 == 0 && allZero pl 0x0A 5 && allZero pl 0x10 2 && allZero pl 0x18 8)) &&
  decide (byteAt pl 8 ≤ 128) && byteAt pl 0x0F == 0 && allZero pl 0x12 6 && (m == 4 || m == 6 || allZero pl 0x20 4)

/-- Whether a PEG_REPLY payload has a listed `rmsg`, and zero in every field that its message leaves zero (R553). -/
def replyOk (pl : List Byte) : Bool :=
  let m := byteAt pl 0
  let e := byteAt pl 1
  decide (1 ≤ m) && decide (m ≤ 7) && (e == 0 || (m == 1 && (e == 2 || e == 3))) && (m == 1 || m == 5 || allZero pl 4 2) &&
  (decide (m ≤ 3) || m == 6 || allZero pl 6 2) && byteAt pl 8 == 0 && (m == 4 || allZero pl 9 31)

/-- Whether a RECOVERY payload has a listed `rkind`, its length, and zero in every field that its kind leaves zero (R619, R620). -/
def recoveryOk (pl : List Byte) : Bool :=
  let m := byteAt pl 0
  let n := pl.length
  decide (byteAt pl 2 < 4) &&
  (match m with
   | 1 => n == 0x0C && allZero pl 2 6 && decide (1 ≤ byteAt pl 8) && decide (byteAt pl 8 ≤ 7) && decide (byteAt pl 9 < 64) &&
     decide (byteAt pl 10 < 8) && decide (byteAt pl 11 < 16)
   | 2 => n == 0x70 && decide (byteAt pl 8 < 2) && allZero pl 9 7
   | 3 => n == 0x0A && decide (1 ≤ byteAt pl 8) && decide (byteAt pl 8 ≤ 3) && (byteAt pl 8 == 3 || byteAt pl 9 == 0)
   | 4 => n == 9 && byteAt pl 3 == 0
   | 5 => n == 0x10 + 2 * byteAt pl 9 && decide (byteAt pl 9 ≤ 64) && allZero pl 2 6 && decide (byteAt pl 8 < 16) && allZero pl 10 6
   | 6 => n == 9 && allZero pl 2 6 && decide (byteAt pl 8 < 16)
   | _ => false)

/-- Whether a frame's message is one that its kind lists, with its unused fields zero (R199, R302, R552 to R554, R619, R620). What a sowing frame sends as zero is ignored on receipt. -/
def trlCodesOk (f : TrlFrame) : Bool :=
  match f.kind.toNat with
  | 2 => signalOk f.payload
  | 3 => pegOk f.payload
  | 4 => replyOk f.payload
  | 5 => !(sowReserved (parseSow f.payload))
  | 7 => recoveryOk f.payload
  | _ => true

/-! ## Ring structures -/

/-- A ring header's fields from its 64 bytes (R355). -/
def parseHdr (bs : List Byte) : RingHdr :=
  { epoch := BitVec.ofNat 32 (leNat bs 0 4), startIndex := BitVec.ofNat 16 (leNat bs 4 2), ringLog2 := byteAt bs 6 % 16,
    pollCode := byteAt bs 6 / 16 % 8, pegClass := bitOf (byteAt bs 7) 0, ringBase := leNat bs 8 8, cplBase := leNat bs 16 8,
    consumedAddr := leNat bs 24 8, windowBase := leNat bs 32 2 }

/-- Whether a header is valid for a port's window (R306, R307). -/
def hdrValid (w : Hello) (h : RingHdr) : Bool :=
  h.ringLog2 == 0 ||
  (decide (3 ≤ h.ringLog2) && decide (h.pollCode ≤ 6) && decide (h.ringBase % 4096 = 0) && decide (h.cplBase % 4096 = 0) &&
   decide (h.consumedAddr % 8 = 0) && inWindow w h.ringBase (128 * 2 ^ h.ringLog2) && inWindow w h.cplBase (32 * 2 ^ h.ringLog2) &&
   inWindow w h.consumedAddr 8 && !overlaps h.ringBase (128 * 2 ^ h.ringLog2) h.cplBase (32 * 2 ^ h.ringLog2) &&
   !overlaps h.ringBase (128 * 2 ^ h.ringLog2) h.consumedAddr 8 && !overlaps h.cplBase (32 * 2 ^ h.ringLog2) h.consumedAddr 8)

/-- The slot of an index (R311). -/
def slotOf (h : RingHdr) (i : W16) : Nat := i.toNat % 2 ^ h.ringLog2

/-- Whether index `a` lies before `b` (R311). -/
def indexBefore (a b : W16) : Bool := decide (1 ≤ (b - a).toNat) && decide ((b - a).toNat ≤ 32767)

/-- The expected phase of an index (R312). -/
def expectedPhase (h : RingHdr) (i : W16) : Nat := 1 - i.toNat / 2 ^ h.ringLog2 % 2

/-- Whether a fetched slot is new (R313). -/
def slotNew (h : RingHdr) (i : W16) (bs : List Byte) : Bool :=
  byteAt bs 0x7F % 2 == expectedPhase h i && leNat bs 4 4 == h.epoch.toNat

/-- The consumed word's 8 bytes (R356). -/
def consumedWord (recorded : W16) (epoch : W32) : List Byte := toLe recorded.toNat 2 ++ [0, 0] ++ toLe epoch.toNat 4

/-- A completion record's 32 bytes (R372). -/
def recordBytes (index : W16) (status : Byte) (phase : Nat) (evGraft evLine : Bool) (epoch : W32) (warnings : W16)
    (exception : Byte) (excCount element dsrc ddst aux : Nat) (elapsed : W32) : List Byte :=
  toLe index.toNat 2 ++ [status, BitVec.ofNat 8 (phase + 2 * b2n evGraft + 4 * b2n evLine)] ++ toLe epoch.toNat 4 ++
  toLe warnings.toNat 2 ++ [exception, BitVec.ofNat 8 (min excCount 255)] ++ toLe element 4 ++ toLe (min dsrc 0xFFFFFFFF) 4 ++
  toLe (min ddst 0xFFFFFFFF) 4 ++ toLe aux 4 ++ toLe elapsed.toNat 4

/-- WRITE frames of a range, split at 224 bytes and at 4 KiB boundaries, with fuel (R244). -/
def splitWrite (fuel vc stream addr : Nat) (data : List Byte) : List TxItem :=
  match fuel with
  | 0 => []
  | n + 1 =>
    if data.isEmpty then []
    else
      let k := min 224 (min data.length (4096 - addr % 4096))
      { vc := vc, stream := stream, body := .frame (.write vc stream addr (data.take k)) } ::
        splitWrite n vc stream (addr + k) (data.drop k)

/-- The WRITE frames of a range (R244). -/
def writeItems (vc stream addr : Nat) (data : List Byte) : List TxItem := splitWrite data.length vc stream addr data

/-- Reads of a range, split at 4 KiB boundaries, with fuel (R240). -/
def splitRead (fuel off addr size : Nat) : List (Nat × Nat × Nat) :=
  match fuel with
  | 0 => []
  | n + 1 =>
    if size = 0 then []
    else
      let k := min size (4096 - addr % 4096)
      (off, addr, k) :: splitRead n (off + k) (addr + k) (size - k)

/-- The reads of a range: offset, address and size of each (R240). -/
def readPieces (addr size : Nat) : List (Nat × Nat × Nat) := splitRead (size / 4096 + 2) 0 addr size

end Sys2Proof.Machine
end

