-- ==== Sys2Proof/Machine/Descriptor.lean ====
section
/-! DEFINITION. The descriptor: its fields, the checks that its bytes decide (rank 1 of R371), the warnings that its bytes decide (R374), the chunk size (R362) and the byte ranges it names (R357 to R369, R586 to R600). -/
namespace Sys2Proof.Machine
open Sys2Proof

/-- A descriptor's 128 bytes. -/
abbrev Desc := List Byte

/-- `kind` (R359). -/
def dKind (d : Desc) : Nat := byteAt d 0
/-- `refetch_after` (R327). -/
def dRefetch (d : Desc) : Bool := bitOf (byteAt d 1) 0
/-- `spool_fence` (R529). -/
def dFence (d : Desc) : Bool := bitOf (byteAt d 1) 1
/-- `coll` (R357). -/
def dColl (d : Desc) : W16 := BitVec.ofNat 16 (leNat d 2 2)
/-- `op`, or `xop` of an EXCHANGE (R360, R363). -/
def dOp (d : Desc) : Nat := byteAt d 0x28 % 16
/-- `red` (R360). -/
def dRed (d : Desc) : Nat := byteAt d 0x28 / 16
/-- `in_fmt`, or `elem_fmt` (R360, R363). -/
def dIn (d : Desc) : Nat := byteAt d 0x29 % 16
/-- `out_fmt` (R360). -/
def dOut (d : Desc) : Nat := byteAt d 0x29 / 16
/-- `mode` (R360). -/
def dMode (d : Desc) : Nat := byteAt d 0x2A % 4
/-- `round` (R360). -/
def dRound (d : Desc) : Nat := byteAt d 0x2A / 4 % 4
/-- `want_vector` (R360). -/
def dWantVec (d : Desc) : Bool := bitOf (byteAt d 0x2A) 4
/-- `press_en` (R360). -/
def dPress (d : Desc) : Bool := bitOf (byteAt d 0x2A) 5
/-- `clear_first` or `clear_after` (R365, R366). -/
def dClear (d : Desc) : Bool := bitOf (byteAt d 0x2A) 6
/-- `hem_en` (R363). -/
def dHem (d : Desc) : Bool := bitOf (byteAt d 0x2A) 0
/-- `sieve_op` (R360). -/
def dSieve (d : Desc) : Nat := byteAt d 0x2B % 8
/-- `grp_kind` (R360). -/
def dGrp (d : Desc) : Nat := byteAt d 0x2C % 4
/-- `axes` (R360), bit 0 X. -/
def dAxes (d : Desc) : Nat := byteAt d 0x2C / 4 % 8
/-- Sub-block origin on an axis (R360). -/
def dSbO (d : Desc) (ax : Nat) : Nat := byteAt d 0x2D / 4 ^ ax % 4
/-- Sub-block extent minus 1 on an axis (R360). -/
def dSbE (d : Desc) (ax : Nat) : Nat := byteAt d 0x2E / 4 ^ ax % 4
/-- `k` (R360). -/
def dK (d : Desc) : Nat := byteAt d 0x2F % 128
/-- `my_cores` (R361). -/
def dMine (d : Desc) : Nat := leNat d 0x30 2
/-- `group_cores` (R361). -/
def dGroup (d : Desc) : Nat := leNat d 0x32 2
/-- `root` (R360). -/
def dRoot (d : Desc) : Nat := leNat d 0x34 2 % 8192
/-- `chunk_log2` (R362). -/
def dChunkLog (d : Desc) : Nat := byteAt d 0x36 % 32
/-- `recipe_ops` (R369). -/
def dRecipeOps (d : Desc) : Nat := byteAt d 0x37 % 32
/-- `count` (R360). -/
def dCount (d : Desc) : Nat := leNat d 0x38 4
/-- `chunk_peg` (R360). -/
def dChunkPeg (d : Desc) : Nat := leNat d 0x3C 2 % 4096
/-- `chunk_sig` (R360). -/
def dChunkSig (d : Desc) : Nat := byteAt d 0x3D / 16
/-- `in_addr` (R360). -/
def dInAddr (d : Desc) : Nat := leNat d 0x40 8
/-- `out_addr` (R360). -/
def dOutAddr (d : Desc) : Nat := leNat d 0x48 8
/-- `in_stride` (R361). -/
def dInStride (d : Desc) : Nat := leNat d 0x50 4
/-- `out_stride` (R361). -/
def dOutStride (d : Desc) : Nat := leNat d 0x54 4
/-- `recipe_addr` (R369). -/
def dRecipeAddr (d : Desc) : Nat := leNat d 0x58 8
/-- `member_list_addr` (R361). -/
def dListAddr (d : Desc) : Nat := leNat d 0x60 8
/-- `yard_addr` of a COLLECTIVE (R360). -/
def dYardAddr (d : Desc) : Nat := leNat d 0x68 4
/-- `hem_cap` (R363). -/
def dHemCap (d : Desc) : Nat := leNat d 0x68 4
/-- `threshold` bits (R360). -/
def dThreshold (d : Desc) : Nat := leNat d 0x6C 4
/-- `vec_addr` (R360). -/
def dVecAddr (d : Desc) : Nat := leNat d 0x70 8
/-- `counts_addr` (R363). -/
def dCountsAddr (d : Desc) : Nat := leNat d 0x70 8
/-- `spool_addr` (R365, R366). -/
def dSpoolAddr (d : Desc) : Nat := leNat d 0x48 8
/-- Dependency entry `k` (R358). -/
def dDep (d : Desc) (k : Nat) : List Byte := slice d (8 + 8 * k) 8
/-- Peg entry `k` of a PEG_OP (R367). -/
def dEntry (d : Desc) (k : Nat) : List Byte := slice d (0x28 + 8 * k) 8
/-- `pop` of a peg entry. -/
def ePop (e : List Byte) : Nat := byteAt e 0 % 16
/-- `space` of a peg entry. -/
def eSpace (e : List Byte) : Nat := byteAt e 0 / 16 % 4
/-- `here` of a peg entry. -/
def eHere (e : List Byte) : Bool := bitOf (byteAt e 1) 6
/-- `home` of a peg entry. -/
def eHome (e : List Byte) : Nat := byteAt e 1 % 64
/-- `peg` of a peg entry. -/
def ePeg (e : List Byte) : Nat := leNat e 2 2
/-- `amount` of a peg entry. -/
def eAmount (e : List Byte) : Nat := leNat e 4 2
/-- `bar_peg` of a BARRIER (R368). -/
def dBarPeg (d : Desc) : Nat := leNat d 0x38 2
/-- `bar_home` of a BARRIER (R368). -/
def dBarHome (d : Desc) : Nat := byteAt d 0x3A
/-- `use_line` of a BARRIER (R368). -/
def dUseLine (d : Desc) : Bool := bitOf (byteAt d 0x28) 0

/-- Whether a kind is one of the three collective kinds (R396). -/
def isColl (k : Nat) : Bool := k == 1 || k == 2 || k == 4
/-- Whether a kind names a group (R360, R368). -/
def hasGroup (k : Nat) : Bool := isColl k || k == 7

/-- The cores of a 16-bit core mask, ascending. -/
def coresOf (m : Nat) : List Nat := (List.range 16).filter (bitOf m)

/-- Whether a COLLECTIVE is a decision collective that may run (R478, R596). -/
def isDecision (d : Desc) : Bool :=
  dKind d == 1 && (dOp d == 1 || dOp d == 2) && dRed d == 1 && (dPress d || dSieve d != 0)

/-- Whether `red` reduces in this descriptor; where it is ignored it moves payload only (R590, R592). -/
def isReduction (d : Desc) : Bool :=
  (dKind d == 1 && decide (1 ≤ dOp d) && decide (dOp d ≤ 3)) || dKind d == 4

/-- The format of the input, binary32 for a reserved code that no running descriptor carries. -/
def dInFmt (d : Desc) : Fmt := (fmtOf (dIn d)).getD .binary32
/-- The format of the output. -/
def dOutFmt (d : Desc) : Fmt := (fmtOf (dOut d)).getD .binary32

/-- How a reduction of this descriptor adds: exact only for a sum whose format has a long word (R593). -/
def arithOf (d : Desc) : Arith :=
  { fmt := dInFmt d, exact := dMode d == 1 && dRed d == 1 && dInFmt d != .binary64, red := dRed d, round := dRound d }

/-- Trellis bytes of an element (R290). -/
def wireBytes (d : Desc) : Nat := if isReduction d then accLen (arithOf d) else fmtBytes (dInFmt d)

/-- The largest power of two at most `n`, with fuel. -/
def pow2Floor : Nat → Nat → Nat
  | 0, _ => 1
  | f + 1, n => if n ≤ 1 then 1 else 2 * pow2Floor f (n / 2)

/-- The chunk size in elements (R362). -/
def chunkSize (d : Desc) : Nat :=
  if dChunkLog d ≠ 0 then 2 ^ dChunkLog d
  else
    let byBytes := 14680064 / wireBytes d
    let n := if dKind d = 2 ∧ dOp d = 1 then byBytes else min (dCount d) byBytes
    pow2Floor 40 n

/-- Chunks of a contribution of `n` elements (R408). -/
def chunksOf (d : Desc) (n : Nat) : Nat := ceilDiv n (max (chunkSize d) 1)

/-! ## Reserved bits and codes (R350, R352) -/

/-- Whether the bytes from `lo` to `hi` inclusive are zero. -/
def zeroSpan (d : Desc) (lo hi : Nat) : Bool := allZero d lo (hi + 1 - lo)

/-- Whether byte `o` has no bit set outside `m`. -/
def maskOk (d : Desc) (o m : Nat) : Bool := (byteAt d o &&& m) == byteAt d o

/-- Whether the reserved bits of a kind's body are zero (R350, R359 to R368). -/
def bodyReservedOk (d : Desc) : Bool :=
  match dKind d with
  | 0 | 8 => zeroSpan d 0x28 0x7E
  | 1 => maskOk d 0x2A 0x3F && maskOk d 0x2B 0x07 && maskOk d 0x2C 0x1F && maskOk d 0x2D 0x3F && maskOk d 0x2E 0x3F &&
      maskOk d 0x2F 0x7F && maskOk d 0x35 0x1F && maskOk d 0x36 0x1F && maskOk d 0x37 0x1F && zeroSpan d 0x3E 0x3F &&
      zeroSpan d 0x78 0x7E
  | 2 => maskOk d 0x29 0x0F && maskOk d 0x2A 0x01 && zeroSpan d 0x2B 0x2B && maskOk d 0x2C 0x1F && maskOk d 0x2D 0x3F &&
      maskOk d 0x2E 0x3F && zeroSpan d 0x2F 0x2F && zeroSpan d 0x34 0x35 && maskOk d 0x36 0x1F && maskOk d 0x37 0x1F &&
      zeroSpan d 0x3E 0x3F && zeroSpan d 0x6C 0x6F && zeroSpan d 0x78 0x7E
  | 3 => maskOk d 0x28 0x7F && maskOk d 0x29 0x01 && zeroSpan d 0x2A 0x2B && zeroSpan d 0x34 0x37 && zeroSpan d 0x48 0x7E
  | 4 => maskOk d 0x2A 0x4F && zeroSpan d 0x2B 0x2B && maskOk d 0x2C 0x1F && maskOk d 0x2D 0x3F && maskOk d 0x2E 0x3F &&
      maskOk d 0x2F 0x7F && maskOk d 0x35 0x1F && maskOk d 0x36 0x1F && maskOk d 0x37 0x1F && zeroSpan d 0x3E 0x3F &&
      zeroSpan d 0x70 0x7E
  | 5 => zeroSpan d 0x28 0x28 && maskOk d 0x2A 0x4F && zeroSpan d 0x2B 0x37 && zeroSpan d 0x3C 0x3F && zeroSpan d 0x50 0x7E
  | 6 => zeroSpan d 0x48 0x7E
  | 7 => maskOk d 0x28 0x01 && zeroSpan d 0x29 0x2B && maskOk d 0x2C 0x1F && maskOk d 0x2D 0x3F && maskOk d 0x2E 0x3F &&
      zeroSpan d 0x2F 0x2F && zeroSpan d 0x34 0x37 && maskOk d 0x39 0x0F && maskOk d 0x3A 0x3F && zeroSpan d 0x3B 0x5F &&
      zeroSpan d 0x68 0x7E
  | _ => false

/-- Whether a dependency entry keeps its reserved bits, its codes and its home in range (R358, R545). Byte 03h of an entry of kind 1, and byte 07h, which no row shows, must be zero (log 90); a home that `peg_here` leaves unused is not checked (log 91). -/
def depOk (units : Nat) (e : List Byte) : Bool :=
  match byteAt e 0 with
  | 0 => allZero e 0 8
  | 1 => byteAt e 3 == 0 && allZero e 6 2
  | 2 => decide (byteAt e 1 ≤ 4) && decide (byteAt e 3 < 16) && decide (byteAt e 6 < 128) && byteAt e 7 == 0 &&
      (bitOf (byteAt e 6) 6 || decide (byteAt e 6 % 64 < units))
  | _ => false

/-- Whether a peg entry keeps its reserved bits, codes and home in range (R367, R545). -/
def entryOk (units : Nat) (e : List Byte) : Bool :=
  if ePop e = 0 then allZero e 0 8
  else
    decide (ePop e ≤ 4) && decide (byteAt e 0 < 64) && decide (eSpace e ≤ 1) && decide (byteAt e 1 < 128) && allZero e 6 2 &&
    (if eSpace e = 0 then decide (ePeg e < 4096) && (eHere e || decide (eHome e < units))
     else eHere e && eHome e == 0 && decide (ePeg e % 64 < 48) && decide (ePeg e / 64 % 4 = 0) && decide (ePeg e < 4096))

/-- Whether the recipe address is aligned, used or not, and a recipe that is used crosses no 4 KiB boundary (R352, R360, R369, R609). DEDUCED: log entry 74. -/
def recipePlaced (d : Desc) : Bool :=
  decide (dRecipeAddr d % 8 = 0) && (dRecipeOps d == 0 || decide (dRecipeAddr d % 4096 + 16 * dRecipeOps d ≤ 4096))

/-- Whether the member list address is aligned, used or not (R352, R360, R609). DEDUCED: log entry 74. -/
def listPlaced (d : Desc) : Bool := decide (dListAddr d % 1024 = 0)

/-- The codes common to the three collective kinds (R360, R362, R363). -/
def collCodesOk (d : Desc) : Bool :=
  decide (dGrp d ≤ 2) && (dChunkLog d == 0 || (decide (6 ≤ dChunkLog d) && decide (dChunkLog d ≤ 23))) &&
  decide (dRecipeOps d ≤ 16) && decide (dChunkSig d ≤ 2) && dMine d != 0 && (dGrp d == 2 || dGroup d != 0) &&
  listPlaced d && recipePlaced d &&
  (dChunkLog d == 0 || decide (chunkSize d * wireBytes d ≤ 14680064))

/-- Whether every code of a kind holds a listed value and the kind's own refusals do not apply, as far as the bytes decide (R352, R359 to R369, R479, R590 to R599). Clamp bounds that another `press_fn` leaves unused are not judged here (log 92). -/
def codesOk (units : Nat) (d : Desc) : Bool :=
  match dKind d with
  | 0 | 8 => true
  | 1 => decide (dOp d ≤ 4) && decide (dRed d ≤ 3) && decide (dIn d ≤ 9) && decide (dOut d ≤ 9) && decide (dMode d ≤ 1) &&
      decide (dSieve d ≤ 5) && decide (dK d ≤ 64) && decide (0 < dCount d) && collCodesOk d &&
      !((dOp d == 1 || dOp d == 2 || dOp d == 3) && dRed d == 0) &&
      decide (chunksOf d (dCount d) ≤ 67108863) &&
      (!isDecision d || (chunksOf d (dCount d) == 1 && (!(dSieve d == 3 || dSieve d == 4) || decide (1 ≤ dK d))))
  | 2 => decide (dOp d ≤ 1) && decide (dRed d ≤ 3) && decide (dIn d ≤ 9) && collCodesOk d &&
      (dOp d == 1 || decide (0 < dCount d)) && (!dHem d || decide (0 < dHemCap d)) && (dOp d == 0 || dHem d) &&
      decide (dCountsAddr d % 4 = 0)
  | 3 => decide (1 ≤ dOp d) && decide (dOp d ≤ 4) && decide (dRed d ≤ 4) && decide (1 ≤ leNat d 0x2C 2) &&
      decide (leNat d 0x2C 2 ≤ 8192) && decide (1 ≤ leNat d 0x2E 2) && decide (leNat d 0x2E 2 ≤ 8192) &&
      decide (leNat d 0x30 4 % 64 = 0) &&
      (dRed d != 2 ||
        (let lo := decodeVal .binary32 (leNat d 0x40 4)
         let hi := decodeVal .binary32 (leNat d 0x44 4)
         !isNaN lo && !isNaN hi && !valLt hi lo))
  | 4 => decide (1 ≤ dOp d) && decide (dOp d ≤ 3) && dRed d == 1 && decide (dIn d ≤ 9) && decide (dOut d ≤ 9) &&
      decide (dMode d ≤ 1) && decide (0 < dCount d) && collCodesOk d &&
      decide (dSpoolAddr d % 65536 = 0) && decide (chunksOf d (dCount d) ≤ 67108863)
  | 5 => decide (dIn d ≤ 9) && decide (dOut d ≤ 9) && decide (dMode d ≤ 1) && decide (0 < dCount d) &&
      decide (dSpoolAddr d % 65536 = 0)
  | 6 => (List.range 4).all fun k => entryOk units (dEntry d k)
  | 7 => decide (dGrp d ≤ 2) && dMine d != 0 && (dGrp d == 2 || dGroup d != 0) && listPlaced d &&
      decide (dBarHome d < units) && decide (dBarPeg d % 2 = 0) && decide (dBarPeg d ≤ 4094)
  | _ => false

/-- Rank 1 of R371 as far as the descriptor's bytes decide it. -/
def bytesValid (units : Nat) (d : Desc) : Bool :=
  maskOk d 1 3 && maskOk d 0x7F 1 && (List.range 4).all (fun k => depOk units (dDep d k)) &&
  bodyReservedOk d && codesOk units d

/-! ## Warnings (R374) -/

/-- Whether the Press and Sieve fields are used (R587, R596 to R598). -/
def usesDecision (d : Desc) : Bool := isDecision d

/-- Whether a dependency or peg entry has a non-zero field that R351 calls unused. -/
def entriesUnused (d : Desc) : Bool :=
  ((List.range 4).any fun k =>
    let e := dDep d k
    byteAt e 0 == 2 && ((decide (byteAt e 1 ≤ 1) && leNat e 4 2 != 0) || (bitOf (byteAt e 6) 6 && byteAt e 6 % 64 != 0))) ||
  (dKind d == 6 && ((List.range 4).any fun k =>
    let e := dEntry d k
    ((ePop e == 1 || ePop e == 2) && eAmount e != 0) || (ePop e != 0 && eSpace e == 0 && eHere e && eHome e != 0)))

/-- Whether a group field that `grp_kind` leaves unused is not zero (R360). -/
def groupUnused (d : Desc) : Bool :=
  (dGrp d != 0 && dAxes d != 0) || (dGrp d != 1 && (byteAt d 0x2D != 0 || byteAt d 0x2E != 0)) ||
  (dGrp d == 2 && dGroup d != 0) || (dGrp d != 2 && dListAddr d != 0)

/-- Whether a field common to the collective kinds is unused and not zero. `useIn` and `useOut` say whether this member reads and writes. -/
def collUnused (d : Desc) (useIn useOut : Bool) : Bool :=
  let many := decide (1 < (coresOf (dMine d)).length)
  groupUnused d || (dChunkSig d == 0 && dChunkPeg d != 0) || (!useIn && dInAddr d != 0) ||
  (!(useIn && many) && dInStride d != 0) || (!(useOut && many) && dOutStride d != 0) ||
  (dRecipeOps d == 0 && dRecipeAddr d != 0)

/-- `UNUSED_NONZERO` (R351, R587, R597 to R599, R365), given whether this descriptor names the root. -/
def unusedNonzero (d : Desc) (hasRoot : Bool) : Bool :=
  entriesUnused d || (!(hasGroup (dKind d)) && dColl d != 0) ||
  (match dKind d with
   | 1 =>
     let useIn := dOp d != 0 || hasRoot
     let useOut := dOp d != 1 || hasRoot
     collUnused d useIn useOut || (!useOut && dOutAddr d != 0) || (!(dOp d == 0 || dOp d == 1) && dRoot d != 0) ||
     (!(usesDecision d && (dSieve d == 3 || dSieve d == 4)) && dK d != 0) ||
     (!(usesDecision d && dPress d) && dYardAddr d != 0) || (!(usesDecision d && dSieve d == 5) && dThreshold d != 0) ||
     (!usesDecision d && dWantVec d) || (!(usesDecision d && dWantVec d) && dVecAddr d != 0)
   | 2 => collUnused d true true || (dOp d == 1 && dCount d != 0) || (!dHem d && dHemCap d != 0) ||
     (dOp d == 0 && dCountsAddr d != 0)
   | 3 => dRed d != 2 && (leNat d 0x40 4 != 0 || leNat d 0x44 4 != 0)
   | 4 => collUnused d true false || dOut d != 0 || dK d != 0 || dYardAddr d != 0 || dThreshold d != 0 ||
     (dOp d != 1 && dRoot d != 0) || ((arithOf d).exact && dRound d != 0)
   | 7 => groupUnused d
   | _ => false)

/-- `EXACT_DOWNGRADED` (R34, R515, R593): a sum, or a flush, in exact mode with binary64. -/
def exactDowngraded (d : Desc) : Bool :=
  ((isReduction d && dRed d == 1) || dKind d == 5) && dMode d == 1 && dIn d == 9

/-- Whether `red` is a valid code that the operation ignores (R363, R590, R592). -/
def redIgnored (d : Desc) : Bool :=
  decide (1 ≤ dRed d) && decide (dRed d ≤ 3) && ((dKind d == 1 && (dOp d == 0 || dOp d == 4)) || dKind d == 2)

/-- Whether a Press or Sieve request of valid codes is ignored: the operation runs, and is no decision collective (R596). -/
def decisionIgnored (d : Desc) : Bool :=
  dKind d == 1 && (dPress d || dSieve d != 0) && decide (dRed d ≤ 3) && decide (dSieve d ≤ 5) &&
  (dOp d == 0 || dOp d == 4 || (dOp d == 3 && dRed d != 0) || ((dOp d == 1 || dOp d == 2) && (dRed d == 2 || dRed d == 3)))

/-- `OP_IGNORED` (R590, R592, R596). -/
def opIgnored (d : Desc) : Bool := redIgnored d || decisionIgnored d

/-! ## Sizes (R405 to R407, R417, R418, R492, R493) -/

/-- The 32-bit count that source core `c` (the `j`-th of `my_cores`) sends to destination rank `r` (R417). -/
def countAt (counts : List Byte) (m j r : Nat) : Nat := leNat counts (4 * (j * m + r)) 4

/-- The entries that the `j`-th core sends in all (R417). -/
def countSum (counts : List Byte) (m j : Nat) : Nat := ((List.range m).map (countAt counts m j)).sum

/-- Whether Hem is active (R418, R599). -/
def hemActive (d : Desc) : Bool := dHem d && (dOp d == 1 || decide (dHemCap d < dCount d))

/-- Entries kept of `n` (R418). -/
def hemKept (d : Desc) (n : Nat) : Nat := if hemActive d then min n (dHemCap d) else n

/-- Input bytes of the `j`-th core of `my_cores`, which is the root or not (R405, R417). -/
def inBytes (d : Desc) (m : Nat) (counts : List Byte) (j : Nat) (isRoot : Bool) : Nat :=
  let eb := codeBytes (dIn d)
  match dKind d with
  | 1 => if dOp d = 0 then (if isRoot then dCount d * eb else 0) else dCount d * eb
  | 2 => if dOp d = 0 then m * dCount d * eb else countSum counts m j * eb
  | 4 => dCount d * eb
  | _ => 0

/-- Elements of the block of the member of rank `j` (R407). -/
def blockSpan (n m j : Nat) : Nat × Nat :=
  let b := ceilDiv n (max m 1)
  if j * b < n then (j * b, min (j * b + b) n - j * b) else (n, 0)

/-- Values in `out_fmt`, with their 4-byte indices where `red` selects a winner (R406, R591). -/
def valueRange (d : Desc) (n : Nat) : Nat :=
  if n = 0 then 0
  else if isReduction d && (dRed d == 2 || dRed d == 3) then roundUp (n * codeBytes (dOut d)) 8 + 4 * n
  else n * codeBytes (dOut d)

/-- Positions that a Sieve decision writes (R491). -/
def sieveQ (d : Desc) : Nat := if dSieve d = 3 ∨ dSieve d = 4 then dK d else 1

/-- Bytes of the decision at an output address (R492, R493). -/
def decisionRange (d : Desc) : Nat :=
  if dSieve d ≠ 0 then roundUp (sieveQ d * codeBytes (dOut d)) 8 + 4 * sieveQ d else dCount d * codeBytes (dOut d)

/-- Output bytes of one core: of rank `j` among `m`, the root or not (R405 to R407, R418, R493). -/
def outBytes (d : Desc) (m j : Nat) (isRoot : Bool) : Nat :=
  match dKind d with
  | 1 => match dOp d with
    | 0 => dCount d * codeBytes (dOut d)
    | 1 => if isRoot then (if isDecision d then decisionRange d else valueRange d (dCount d)) else 0
    | 2 => if isDecision d then decisionRange d else valueRange d (dCount d)
    | 3 => valueRange d (blockSpan (dCount d) m j).2
    | _ => m * dCount d * codeBytes (dOut d)
  | 2 =>
    let eb := codeBytes (dIn d)
    if hemActive d then
      (if dOp d = 1 then roundUp (m * dHemCap d * eb) 8 + 4 * m else m * dHemCap d * eb)
    else m * dCount d * eb
  | 5 => dCount d * codeBytes (dOut d)
  | _ => 0

/-! ## Resident layouts (R514) -/

/-- Value bytes, elements in a stripe and the counts' stripe offset of the layout a descriptor names (R514). -/
def layoutOf (d : Desc) : Nat × Nat × Nat :=
  let f := dInFmt d
  if dMode d = 1 ∧ f ≠ .binary64 then
    match f with
    | .binary32 | .bf16 => (40, 1024, 0xA000)
    | .binary16 => (12, 4096, 0xC000)
    | _ => (8, 4096, 0x8000)
  else match fmtBytes f with
    | 8 => (8, 4096, 0x8000)
    | 4 => (4, 8192, 0x8000)
    | 2 => (2, 8192, 0x4000)
    | _ => (1, 8192, 0x2000)

/-- Bytes of the run of stripes that a region occupies (R515). -/
def regionBytes (d : Desc) : Nat := ceilDiv (dCount d) (layoutOf d).2.1 * 65536

end Sys2Proof.Machine
end

