-- ==== Sys2Proof/Machine/Ops.lean ====
section
/-! DEFINITION. The named operations over the state that every family uses: what the configuration means (R129 to R149), ports and rings, counters and page causes (R380, R654), queues of frames to send, and the gate through which a command reaches a unit that is running. -/
namespace Sys2Proof.Machine
open Sys2Proof

/-! ## The configuration -/

/-- A level-pin code by its place in the order of R119. -/
def code (c : Cfg) (i : Fin 12) : Nat := c.codes[i].toNat

/-- A level-pin code of any unit: its own, or another's, which no frame carries (log 8). -/
def unitCode (c : Cfg) (own a : Nat) (i : Fin 12) : Nat := if a = own then code c i else (Config.peerCode a i.val).toNat

/-- The dimensions of an LVL_DIMS code (R131); none for code 15. -/
def dimsOfCode : Nat → Option Dims
  | 0 => some ⟨1, 1, 1⟩ | 1 => some ⟨2, 1, 1⟩ | 2 => some ⟨3, 1, 1⟩ | 3 => some ⟨4, 1, 1⟩ | 4 => some ⟨2, 2, 1⟩
  | 5 => some ⟨4, 2, 1⟩ | 6 => some ⟨2, 2, 2⟩ | 7 => some ⟨3, 3, 1⟩ | 8 => some ⟨4, 3, 1⟩ | 9 => some ⟨4, 4, 1⟩
  | 10 => some ⟨4, 2, 2⟩ | 11 => some ⟨3, 3, 3⟩ | 12 => some ⟨4, 4, 2⟩ | 13 => some ⟨4, 4, 3⟩ | 14 => some ⟨4, 4, 4⟩
  | _ => none

/-- ORIGIN (R149). -/
def isOrigin (c : Cfg) : Bool := c.straps.getLsbD 0

/-- Whether the position is coded (R129). -/
def isCoded (c : Cfg) : Bool := decide (code c 1 ≤ 3)

/-- The coded position (R129, R130). -/
def codedPos (c : Cfg) : Pos := ⟨code c 0 % 4, code c 0 / 4, code c 1⟩

/-- The tenant of a port pair's code: the lower pair 3 - (c mod 4), the upper 3 - ⌊c / 4⌋ (R134). -/
def tenantOfCode (cd p : Nat) : Tenant := Fin.ofNat 4 (3 - if p % 4 < 2 then cd % 4 else cd / 4)

/-- The tenant of a leaf port on a unit (R134). -/
def tenantAt (c : Cfg) (own a p : Nat) : Tenant :=
  tenantOfCode (if p < 4 then unitCode c own a 3 else unitCode c own a 4) p

/-- The tenant of one of this unit's ports. -/
def tenantOf (c : Cfg) (p : LPort) : Tenant := tenantOfCode (if p.val < 4 then code c 3 else code c 4) p.val

/-- Ports in use under an LVL_LEAFCFG code (R146). -/
def portsInUse (cd : Nat) : Nat := if cd = 0 then 0 else if cd ≤ 3 then 2 else if cd ≤ 7 then 4 else if cd ≤ 11 then 6 else 8

/-- Largest core count of a leaf under an LVL_LEAFCFG code (R146). -/
def coreCap (cd : Nat) : Nat :=
  match cd with
  | 0 => 0
  | 1 => 4 | 2 => 8 | 3 => 16
  | n => match n % 4 with
    | 0 => 2 | 1 => 4 | 2 => 8 | _ => 16

/-- Whether one of this unit's leaf ports is in use (R146). -/
def inUse (c : Cfg) (p : LPort) : Bool := decide (p.val < portsInUse (code c 10))

/-- Blocks of 4,096 pegs of each tenant (R136). -/
def pegBlocks : Nat → List Nat
  | 0 => [16, 0, 0, 0] | 1 => [14, 2, 0, 0] | 2 => [12, 4, 0, 0] | 3 => [10, 6, 0, 0] | 4 => [8, 8, 0, 0]
  | 5 => [4, 12, 0, 0] | 6 => [2, 14, 0, 0] | 7 => [8, 4, 4, 0] | 8 => [6, 6, 4, 0] | 9 => [12, 2, 2, 0]
  | 10 => [4, 4, 4, 4] | 11 => [10, 2, 2, 2] | 12 => [7, 3, 3, 3] | 13 => [8, 4, 2, 2] | 14 => [6, 6, 2, 2]
  | _ => [16, 0, 0, 0]

/-- A tenant's slice: first peg and number of pegs (R137). -/
def sliceOf (c : Cfg) (t : Tenant) : Nat × Nat :=
  let b := pegBlocks (code c 5)
  (4096 * (b.take t.val).sum, 4096 * b.getD t.val 0)

/-- Whether physical peg `p` lies in a tenant's slice (R555). -/
def inSlice (c : Cfg) (t : Tenant) (p : Nat) : Bool := decide ((sliceOf c t).1 ≤ p) && decide (p < (sliceOf c t).1 + (sliceOf c t).2)

/-- Fault policy graft (R142). -/
def isGraft (c : Cfg) : Bool := bitOf (code c 8) 0
/-- Exception policy exception restart (R142). -/
def isExcRestart (c : Cfg) : Bool := bitOf (code c 8) 1
/-- Context policy keep (R142). -/
def isKeep (c : Cfg) : Bool := bitOf (code c 8) 2

/-- Whether a tenant owns the washing line (R144). -/
def ownsLine (c : Cfg) (t : Tenant) : Bool := code c 9 == t.val

/-- The chain-uniform codes: LVL_DIMS, LVL_PEGSPLIT, LVL_WDOG, LVL_POLICY, LVL_LINE (R121, R382). -/
def uniformCodes (c : Cfg) : List (BitVec 4) := [c.codes[2], c.codes[5], c.codes[6], c.codes[8], c.codes[9]]

/-- The pins of the chain-uniform codes in the bit order of R199. -/
def uniformPins : List Nat := [2, 5, 6, 8, 9]

/-- The pin mask of the chain-uniform pins whose code differs from a reference (R128, R202). -/
def mismatchMask (c : Cfg) (ref : List (BitVec 4)) : W16 :=
  ((List.zip uniformPins (List.zip (uniformCodes c) ref)).foldl (fun m e => if e.2.1 = e.2.2 then m else m + 2 ^ e.1) 0 : Nat)

/-- The tenant's leaf ports in use, ascending (R68). -/
def portsOf (c : Cfg) (t : Tenant) : List LPort := ([0, 1, 2, 3, 4, 5, 6, 7] : List LPort).filter fun p => inUse c p && tenantOf c p == t

/-! ## Parts of the state -/

/-- The leaf ports in order. -/
def allLem : List LPort := [0, 1, 2, 3, 4, 5, 6, 7]
/-- The rings of a port in order. -/
def allRings : List RingNo := [0, 1, 2, 3, 4, 5, 6, 7]
/-- The Trellis ports in order. -/
def allTrl : List TPort := [0, 1, 2, 3, 4, 5]
/-- The tenants in order. -/
def allTenants : List Tenant := [0, 1, 2, 3]

/-- Change one leaf port. -/
def modP (d : Dev) (p : LPort) (f : LemPort → LemPort) : Dev := { d with lem := d.lem.set p (f d.lem[p]) }
/-- One ring. -/
def ringAt (d : Dev) (p : LPort) (r : RingNo) : Ring := d.lem[p].rings[r]
/-- Change one ring. -/
def modR (d : Dev) (p : LPort) (r : RingNo) (f : Ring → Ring) : Dev :=
  modP d p fun x => { x with rings := x.rings.set r (f x.rings[r]) }
/-- Change one Trellis port. -/
def modT (d : Dev) (i : TPort) (f : TrlPort → TrlPort) : Dev := { d with trl := d.trl.set i (f d.trl[i]) }
/-- Change the running descriptor of a ring. -/
def modRun (d : Dev) (p : LPort) (r : RingNo) (f : Run → Run) : Dev := modR d p r fun x => { x with cur := x.cur.map f }
/-- Change the head work of a ring. -/
def modHead (d : Dev) (p : LPort) (r : RingNo) (f : Head → Head) : Dev := modR d p r fun x => { x with head := x.head.map f }
/-- Change the status part. -/
def modS (d : Dev) (f : Stat → Stat) : Dev := { d with stat := f d.stat }

/-- Fold a change over a list. -/
def each {α : Type} (l : List α) (d : Dev) (f : Dev → α → Dev) : Dev := l.foldl f d

/-- A number as one of the eight leaf ports or rings. -/
def fin8 (n : Nat) : Fin 8 := Fin.ofNat 8 n
/-- A number as one of the six Trellis ports. -/
def fin6 (n : Nat) : Fin 6 := Fin.ofNat 6 n

/-- This unit's address (R192); 0 before its position and dimensions are known (R381). -/
def ownAddr (d : Dev) : Nat := if d.sow.formed then addrOf d.sow.dims d.sow.pos else 0

/-- The units this unit counts as surviving (R622): its component's view, or itself alone where it is isolated. -/
def surviving (d : Dev) : List Nat :=
  if d.recov.isolated then [ownAddr d] else survivingOf d.sow.dims d.recov.view

/-- The view that routes and roles are judged by; an isolated unit counts every other unit as lost (R622). -/
def viewOf (d : Dev) : View :=
  if d.recov.isolated then { d.recov.view with lost := (List.range (unitsIn d.sow.dims)).filter (· != ownAddr d) }
  else d.recov.view

/-- Whether a leaf port has an accepted hello and its link up: its cores are present (R57, R58, R181, R578). -/
def portPresent (d : Dev) (p : LPort) : Bool := d.lem[p].present && d.lem[p].phase == .up

/-- The cores of one of this unit's ports that are present. -/
def coresOn (c : Cfg) (d : Dev) (p : LPort) : Nat :=
  if inUse c p && portPresent d p then d.lem[p].accepted.toNat else 0

/-! ## Causes and counters -/

/-- Make a page cause pending for a port that receives pages (R653, R654). -/
def addCause (d : Dev) (p : LPort) (bit : Nat) : Dev :=
  if d.lem[p].started then modP d p fun x => { x with causes := x.causes ||| BitVec.ofNat 16 (2 ^ bit) } else d

/-- Make a cause pending for every port. -/
def addCauseAll (d : Dev) (bit : Nat) : Dev := each allLem d fun d p => addCause d p bit

/-- Make a cause pending for every port of a tenant. -/
def addCauseTenant (c : Cfg) (d : Dev) (t : Tenant) (bit : Nat) : Dev := each (portsOf c t) d fun d p => addCause d p bit

/-- Whether adding would pass the largest counter value. -/
def wouldSaturate (v : W64) (n : Nat) : Bool := decide (0xFFFFFFFFFFFFFFFF < v.toNat + n)

/-- A saturation mask with a bit set. -/
def setSat (m : W64) (n : Nat) : W64 := m ||| BitVec.ofNat 64 (2 ^ n)

/-- Count in a port's counter `n` (R383). -/
def bumpLemN (d : Dev) (p : LPort) (n : Fin 12) (k : Nat) : Dev :=
  let sat := wouldSaturate d.lem[p].ctr[n] k
  let first := sat && !d.lem[p].sat.getLsbD n.val
  let d := modP d p fun x => { x with ctr := x.ctr.set n (satInc64 x.ctr[n] k), sat := if sat then setSat x.sat n.val else x.sat }
  if first then addCause d p 8 else d

/-- Count once in a port's counter. -/
def bumpLem (d : Dev) (p : LPort) (n : Fin 12) : Dev := bumpLemN d p n 1

/-- Count in a Trellis port's counter `n` (R386), which every page shows. -/
def bumpTrl (d : Dev) (i : TPort) (n : Fin 7) : Dev :=
  let sat := wouldSaturate d.trl[i].ctr[n] 1
  let first := sat && !d.trl[i].sat.getLsbD n.val
  let d := modT d i fun x => { x with ctr := x.ctr.set n (satInc64 x.ctr[n] 1), sat := if sat then setSat x.sat n.val else x.sat }
  if first then addCauseAll d 8 else d

/-- Count in a tenant's counter `n` (R385). -/
def bumpTenant (c : Cfg) (d : Dev) (t : Tenant) (n : Fin 10) : Dev :=
  let sat := wouldSaturate d.stat.tctr[t][n] 1
  let first := sat && !d.stat.tsat[t].getLsbD n.val
  let d := modS d fun x => { x with
    tctr := x.tctr.set t (x.tctr[t].set n (satInc64 x.tctr[t][n] 1))
    tsat := if sat then x.tsat.set t (setSat x.tsat[t] n.val) else x.tsat }
  if first then addCauseTenant c d t 8 else d

/-- Count in a unit health counter `n` (R387), which every page shows. -/
def bumpHealthN (d : Dev) (n : Fin 7) (k : Nat) : Dev :=
  let sat := wouldSaturate d.stat.health[n] k
  let first := sat && !d.stat.healthSat.getLsbD n.val
  let d := modS d fun x => { x with
    health := x.health.set n (satInc64 x.health[n] k), healthSat := if sat then setSat x.healthSat n.val else x.healthSat }
  if first then addCauseAll d 8 else d

/-- Count once in a unit health counter. -/
def bumpHealth (d : Dev) (n : Fin 7) : Dev := bumpHealthN d n 1

/-- Count in a ring's counter: 0 records sent, 1 failed slot or header reads (R384). -/
def bumpRing (d : Dev) (p : LPort) (r : RingNo) (failed : Bool) : Dev :=
  let v := if failed then (ringAt d p r).fails else (ringAt d p r).recs
  let n := 2 * r.val + b2n failed
  let sat := wouldSaturate v 1
  let first := sat && !d.lem[p].ringSat.getLsbD n
  let d := modR d p r fun x => if failed then { x with fails := satInc64 x.fails 1 } else { x with recs := satInc64 x.recs 1 }
  let d := if sat then modP d p fun x => { x with ringSat := x.ringSat ||| BitVec.ofNat 16 (2 ^ n) } else d
  if first then addCause d p 8 else d

/-! ## Queues of frames -/

/-- Queue items on a leaf port. -/
def pushTx (d : Dev) (p : LPort) (items : List TxItem) : Dev := modP d p fun x => { x with txq := x.txq ++ items }

/-- Whether a Trellis port carries collective, peg and recovery traffic (R196, R305). -/
def trlUp (d : Dev) (i : TPort) : Bool := d.trl[i].st == .up && d.trl[i].linkUp

/-- The slot of a group on a link (R286). -/
def slotOfGroup (x : TrlPort) (t : Tenant) (coll : W16) : Option Nat := (x.slots.find? fun e => e.2.1 == t && e.2.2 == coll).map (·.1)

/-- Give slots to the groups that have a frame on the link and hold none, in the order in which they first queued, while one of the 64 is free (R286, R295); the number is the lowest free one (log 87). -/
def giveSlots (x : TrlPort) : TrlPort :=
  let groups := (x.txq.filterMap fun it => match it.owner with
    | .group t coll => some (t, coll)
    | _ => none).eraseDups
  let slots := groups.foldl (fun l g =>
    if l.any (fun e => e.2 == g) then l
    else match (List.range 64).find? fun n => !(l.any fun e => e.1 == n) with
      | some n => l ++ [(n, g)]
      | none => l) x.slots
  { x with slots := slots }

/-- Queue a frame on a Trellis port; a group's first takes a slot, where one is free (R286). -/
def pushTrl (d : Dev) (i : TPort) (o : Owner) (source : Nat) (f : TrlFrame) : Dev :=
  modT d i fun x => giveSlots { x with txq := x.txq ++ [{ owner := o, source := source, frame := f }] }

/-- The bytes of the LINK_DOWN frame by which a unit leaves a link, with the next number of the port (R276, R277, R293). -/
def linkDownBytes (own : Nat) (x : TrlPort) (reason : Byte) : List Byte :=
  withTail (trlBody (mkTrl 6 0 0 own 0 [reason]) x.creditSel x.credit[fin8 x.creditSel].freed.toNat) (some x.darn.next) x.darn.last x.darn.nackDue

/-- The contender of a frame (R286). -/
def ownerOf (f : TrlFrame) : Owner :=
  match f.kind.toNat with
  | 1 | 2 => .group f.tenant f.coll
  | 3 | 4 => .pegs f.tenant
  | 7 => .recovery
  | _ => .control

/-- The output port of this unit on the route of a point-to-point frame (R281, R625). -/
def nextPort (d : Dev) (src dest : Nat) : Option TPort :=
  let own := ownAddr d
  let v := viewOf d
  let viaSrc := match ptRoute d.sow.dims v src dest with
    | some r => (r.find? fun h => h.1 == own).map (·.2)
    | none => none
  let q := match viaSrc with
    | some q => some q
    | none => match ptRoute d.sow.dims v own dest with
      | some (h :: _) => some h.2
      | _ => none
  q.map fin6

/-- Whether a route to another unit exists (R560, R625). -/
def hasRoute (d : Dev) (dest : Nat) : Bool := dest == ownAddr d || (ptRoute d.sow.dims (viewOf d) (ownAddr d) dest).isSome

/-- Send or forward a point-to-point frame towards its destination (R281). A frame without a route is lost with it. -/
def sendPt (d : Dev) (source : Nat) (f : TrlFrame) : Dev :=
  match nextPort d f.src.toNat f.dest.toNat with
  | some i => if trlUp d i then pushTrl d i (ownerOf f) source f else d
  | none => d

/-- Send a peg message: over the Trellis, or to this unit's own engines where it is the home (R545). -/
def sendMsg (d : Dev) (f : TrlFrame) : Dev :=
  if f.dest.toNat = ownAddr d then { d with pegs := { d.pegs with selfq := d.pegs.selfq ++ [f] } } else sendPt d 7 f

/-- Send a PEG frame from this unit's peg island (R552). -/
def sendPeg (d : Dev) (t : Tenant) (dest pmsg pcode peg operand reqId members : Nat) (body : List Byte) : Dev :=
  sendMsg d (mkTrl 3 5 t (ownAddr d) dest (pegPayload pmsg pcode peg operand reqId members (d.recov.pgen[t]).toNat body))

/-- Send a PEG_REPLY frame from this unit's peg island (R553). -/
def sendReply (d : Dev) (t : Tenant) (dest rmsg exc peg value reqId : Nat) (body : List Byte) : Dev :=
  sendMsg d (mkTrl 4 6 t (ownAddr d) dest (replyPayload rmsg exc peg value reqId body))

/-- Send a RECOVERY frame on every up port but one (R621). -/
def floodOn (d : Dev) (except : Option TPort) (src : Nat) (pl : List Byte) : Dev :=
  each allTrl d fun d i =>
    if trlUp d i && except != some i then
      pushTrl d i .recovery 7 (mkTrl 7 7 0 src (facing d.sow.dims (ownAddr d) i.val) pl)
    else d

/-- Start a RECOVERY message of this unit and flood it (R619, R621). -/
def flood (d : Dev) (rkind tenant round coll inst : Nat) (body : List Byte) : Dev :=
  let n := d.recov.serial + 1
  let d := { d with recov := { d.recov with serial := n } }
  floodOn d none (ownAddr d) (recPayload rkind n.toNat tenant round coll inst body)

/-- Send a sowing or link-control frame one hop (R281). -/
def sendControl (d : Dev) (i : TPort) (f : TrlFrame) : Dev :=
  if d.trl[i].linkUp then pushTrl d i .control 7 f else d

/-! ## The gate -/

/-- Whether the unit runs: VDD_IO in range, not in the rails-rising phase, out of reset, not halted, its housekeeping loop not failed (R99, R170, R177, R178), and RSVD_G read as 0. -/
def alive (s : State) : Bool :=
  s.hk.vddIo && !s.hk.railsRising && !s.hk.inReset && !s.dev.stat.halted && !s.dev.stat.hkFailed &&
  (!s.cfg.latched || s.cfg.rsvdG == 0)

/-- A command's effect on a unit that runs; on any other the happening cannot occur, and nothing changes (log 10). -/
def onDev (s : State) (f : Dev → Dev) : Host.Outcome State Fault Refusal :=
  .next (if alive s then { s with dev := f s.dev } else s)

/-- Whether the unit is in a stop of R125 or R176. -/
def stopped (d : Dev) : Bool := d.stat.stop.isSome

/-- Draw a free value: its number, and the state with the counter advanced (log 2). -/
def draw (d : Dev) : Nat × Dev := (d.free, { d with free := d.free + 1 })

/-- FAULT_N asserted (R659). -/
def assertFaultN (d : Dev) : Dev := modS d fun x => { x with faultN := true }

end Sys2Proof.Machine
end

