-- ==== Sys2Proof/Machine/Group.lean ====
section
/-! DEFINITION. Groups as descriptors, prologues and ARRIVEs name them (R361, R401, R402, R556), address translation (R68, R69, R511, R544) and the Spool's hash (R512). -/
namespace Sys2Proof.Machine
open Sys2Proof

/-- A group's fields: `grp_kind`, `axes`, sub-block bytes, `group_cores`, the member list where there is one, and the unit from which axes count. -/
structure Group where
  kind : Nat
  axes : Nat
  org : Nat
  ext : Nat
  cores : Nat
  list : List Byte
  base : Nat
  deriving DecidableEq, Repr

/-- The group that a descriptor's bytes 2Ch to 33h name (R360). -/
def groupOf (d : Desc) (list : List Byte) (base : Nat) : Group :=
  { kind := dGrp d, axes := dAxes d, org := byteAt d 0x2D, ext := byteAt d 0x2E, cores := dGroup d, list := list, base := base }

/-- The group that bytes 0Ah to 27h of an ARRIVE name (R552). -/
def groupOfBody (b : List Byte) (base : Nat) : Group :=
  { kind := byteAt b 2 % 4, axes := byteAt b 2 / 4 % 8, org := byteAt b 3, ext := byteAt b 4, cores := leNat b 6 2, list := [], base := base }

/-- A prologue's bytes 00h to 57h laid out as the descriptor they came from (R398). -/
def descOfAgree (a : List Byte) : Desc := a.take 1 ++ zeros 39 ++ slice a 1 87 ++ [0]

/-- The 128-bit member mask of one unit in a member list (R361). -/
def listMask (l : List Byte) (u : Nat) : BitVec 128 := BitVec.ofNat 128 (leNat l (16 * u) 16)

/-- The units that hold a listed member. -/
def listUnits (l : List Byte) : List Nat := (List.range 64).filter fun u => listMask l u != 0

/-- The coordinates on an axis that a group spans (R361, R402). -/
def groupCoords (dm : Dims) (g : Group) (ax : Nat) : List Nat :=
  match g.kind with
  | 0 => if bitOf g.axes ax then List.range (dimOf dm ax) else [coordOf (posOf dm g.base) ax]
  | 1 => (List.range (g.ext / 4 ^ ax % 4 + 1)).map (· + g.org / 4 ^ ax % 4)
  | _ => (List.range 4).filter fun k => (listUnits g.list).any fun u => coordOf (posOf dm u) ax == k

/-- A group's carriers as a product of coordinate sets (R402). -/
def shapeFor (dm : Dims) (g : Group) : Shape := { cx := groupCoords dm g 0, cy := groupCoords dm g 1, cz := groupCoords dm g 2 }

/-- Whether a sub-block stays inside the torus (R361). -/
def blockInside (dm : Dims) (g : Group) : Bool :=
  g.kind != 1 || [0, 1, 2].all fun ax => decide (g.org / 4 ^ ax % 4 + g.ext / 4 ^ ax % 4 + 1 ≤ dimOf dm ax)

/-- The member units that R361 names. -/
def memberUnits (dm : Dims) (g : Group) : List Nat :=
  if g.kind = 2 then listUnits g.list else (carriersOf (shapeFor dm g)).map (addrOf dm)

/-- The members a group names on a unit: for axes and sub-blocks, cores of every port in use that belongs to the tenant (R361). -/
def namedMask (c : Cfg) (own : Nat) (t : Tenant) (g : Group) (u : Nat) : BitVec 128 :=
  if g.kind = 2 then listMask g.list u
  else
    (List.range 8).foldl (fun m p =>
      if p < portsInUse (unitCode c own u 10) ∧ tenantAt c own u p = t then m ||| BitVec.ofNat 128 (g.cores * 2 ^ (16 * p)) else m) 0

/-- The local indices present on this unit (R58). -/
def presentMask (c : Cfg) (d : Dev) : BitVec 128 :=
  allLem.foldl (fun m p => m ||| BitVec.ofNat 128 ((2 ^ coresOn c d p - 1) * 2 ^ (16 * p.val))) 0

/-- The local indices of one tenant's ports in use on a unit (R63, R135). -/
def tenantMask (c : Cfg) (own u : Nat) (t : Tenant) : BitVec 128 :=
  (List.range 8).foldl (fun m p =>
    if p < portsInUse (unitCode c own u 10) ∧ tenantAt c own u p = t then m ||| BitVec.ofNat 128 (0xFFFF * 2 ^ (16 * p)) else m) 0

/-- The local indices of a unit's ports in use (R146). -/
def useMask (c : Cfg) (own u : Nat) : BitVec 128 := BitVec.ofNat 128 (2 ^ (16 * portsInUse (unitCode c own u 10)) - 1)

/-- The local members of a group on this unit: named, the tenant's, and present (R556). -/
def localMembers (c : Cfg) (d : Dev) (t : Tenant) (g : Group) : BitVec 128 :=
  if (memberUnits d.sow.dims g).contains (ownAddr d) then
    namedMask c (ownAddr d) t g (ownAddr d) &&& presentMask c d &&& tenantMask c (ownAddr d) (ownAddr d) t
  else 0

/-- How many bits a mask has. -/
def popCount (m : BitVec 128) : Nat := ((List.range 128).filter fun i => m.getLsbD i).length

/-- The set bits of a mask, ascending. -/
def bitsSet (m : BitVec 128) : List Nat := (List.range 128).filter fun i => m.getLsbD i

/-- The local mask of the cores a descriptor on port `p` acts for (R361). -/
def mineMask (p : LPort) (d : Desc) : BitVec 128 := BitVec.ofNat 128 (dMine d * 2 ^ (16 * p.val))

/-- A 64-bit map of units. -/
def unitMap (us : List Nat) : W64 := us.foldl (fun m u => m ||| BitVec.ofNat 64 (2 ^ u)) 0

/-- The units of a map, ascending. -/
def mapUnits (m : W64) : List Nat := (List.range 64).filter fun i => m.getLsbD i

/-! ## Addresses -/

/-- Bytes in a Spool port slot (R67). -/
def spoolSlot : Nat := 7 * 2 ^ 30
/-- Bytes in a yard port slot (R67). -/
def yardSlot : Nat := 20 * 2 ^ 20

/-- A tenant's Spool share in bytes on this unit (R68). -/
def spoolShare (c : Cfg) (t : Tenant) : Nat := (portsOf c t).length * spoolSlot
/-- A tenant's yard share in bytes on this unit (R68). -/
def yardShare (c : Cfg) (t : Tenant) : Nat := (portsOf c t).length * yardSlot

/-- The physical Spool address of a tenant-relative one (R511). -/
def spoolPhys (c : Cfg) (t : Tenant) (a : Nat) : Nat :=
  8 * 2 ^ 30 + spoolSlot * ((portsOf c t).getD (a / spoolSlot) 0).val + a % spoolSlot

/-- The physical yard address of a tenant-relative one (R69). -/
def yardPhys (c : Cfg) (t : Tenant) (a : Nat) : Nat :=
  32 * 2 ^ 20 + yardSlot * ((portsOf c t).getD (a / yardSlot) 0).val + a % yardSlot

/-- Where a stripe lies: stack, channel, bank pair and slot (R512). -/
def stripePlace (s : Nat) : Nat × Nat × Nat × Nat :=
  (bitsOf s 0 1 ^^^ bitsOf s 10 1, bitsOf s 1 5 ^^^ bitsOf s 11 5, bitsOf s 6 4 ^^^ bitsOf s 16 4, bitsOf s 10 10)

/-- The stripe at a place: the inverse of the hash (R513). -/
def stripeAt (stack channel pair slot : Nat) : Nat :=
  slot * 1024 + (stack ^^^ slot % 2) + 2 * (channel ^^^ (slot / 2) % 32) + 64 * (pair ^^^ (slot / 64) % 16)

/-- Bank of the pair, row and column of a stripe offset in a slot (R512). -/
def bytePlace (slot o : Nat) : Nat × Nat × Nat := (bitsOf o 10 1, 32 * slot + bitsOf o 11 5, bitsOf o 0 10)

/-- The physical address of a byte from its place: stack, channel, bank pair, row, bank of the pair and column (R513). -/
def addrAt (stack channel pair row bank column : Nat) : Nat :=
  stripeAt stack channel pair (row / 32) * 65536 + row % 32 * 2048 + bank * 1024 + column

/-- The physical peg of virtual peg `v` under window base `w` (R544); none where the base lies outside the slice. -/
def physPeg (c : Cfg) (t : Tenant) (w v : Nat) : Option Nat :=
  let (f, z) := sliceOf c t
  if f ≤ w ∧ w < f + z then some (f + (w - f + v) % z) else none

/-- The next peg of a tenant's slice, the first counting as next at its end: a pair's sense peg. -/
def nextPeg (c : Cfg) (t : Tenant) (p : Nat) : Nat :=
  let (f, z) := sliceOf c t
  if z = 0 then p else f + (p - f + 1) % z

/-- The key of a pocket peg in its port's storage: core and number (R541, R546). -/
def pocketKey (core n : Nat) : Nat := 48 * core + n

/-- The unit that a dead home's pegs have moved to (R627). -/
def liveHome (d : Dev) (h : Nat) : Nat :=
  if d.recov.view.lost.contains h && !d.recov.isolated then standInOf (surviving d) h else h

end Sys2Proof.Machine
end

