-- ==== Sys2Proof/Machine/PegOps.lean ====
section
/-! DEFINITION. Pegs, watches, dependencies, the barrier engine and arrivals as shared operations (spec/15, R541 to R567; R322). -/
namespace Sys2Proof.Machine
open Sys2Proof

/-- The four peg operations on a value (R542): the new value and the exception code, 0, 2 TALLY_OVERFLOW or 3 TALLY_UNDERFLOW. -/
def pegApply (pop : Nat) (v amount : W16) : W16 × Nat :=
  match pop with
  | 1 => (1, 0)
  | 2 => (0, 0)
  | 3 => if v.toNat + amount.toNat ≤ 0xFFFF then (v + amount, 0) else (0xFFFF, 2)
  | 4 => if amount.toNat ≤ v.toNat then (v - amount, 0) else (0, 3)
  | _ => (v, 0)

/-- Whether a peg condition holds (R550). -/
def condHolds (cond : Nat) (v operand : W16) : Bool :=
  match cond with
  | 0 => v != 0
  | 1 => v == 0
  | 2 => decide (operand.toNat ≤ v.toNat)
  | 3 => decide (v.toNat ≤ operand.toNat)
  | _ => v == operand

/-- Change the peg part. -/
def modPegs (d : Dev) (f : Pegs → Pegs) : Dev := { d with pegs := f d.pegs }

/-- A pool peg's value. -/
def poolPeg (d : Dev) (p : Nat) : W16 := spRead d.pegs.pool p

/-- Write a pool peg: its word has fresh check bits. -/
def setPool (d : Dev) (p : Nat) (v : W16) : Dev := { d with pegs := { d.pegs with pool := spWrite d.pegs.pool p v, bad := d.pegs.bad.filter (· != p) } }

/-- Whether a pool peg's word can be read (R583). -/
def pegGood (d : Dev) (p : Nat) : Bool := !(d.pegs.bad.contains p)

/-- Whether a condition holds on a pool peg; on one whose word is bad none does, as its value reaches no descriptor (R550, R583). -/
def pegMeets (d : Dev) (p cond : Nat) (operand : W16) : Bool := pegGood d p && condHolds cond (poolPeg d p) operand

/-- Whether an operation on a pool peg reads a bad word: a tally operation does, while set and clear write the word whole (R542, R583; log 93). -/
def pegFails (d : Dev) (p pop : Nat) : Bool := !pegGood d p && pop != 1 && pop != 2

/-- Answer every watch on a peg whose condition now holds, and forget it (R551). -/
def answerWatches (d : Dev) (p : Nat) : Dev :=
  let hit := d.pegs.watches.filter fun w => w.peg == p && pegMeets d p w.cond w.operand
  let d := { d with pegs := { d.pegs with watches := d.pegs.watches.filter fun w => !(w.peg == p && pegMeets d p w.cond w.operand) } }
  each hit d fun d w => sendReply d w.tenant w.unit 2 0 p 0 w.reqId.toNat []

/-- Whether dependency entry `e` of a descriptor on ring `r` of port `p` holds now, for what this unit can judge itself (R322, R550): a descriptor dependency, or a peg homed here. -/
def depHolds (c : Cfg) (d : Dev) (p : LPort) (r : RingNo) (e : List Byte) : Bool :=
  match byteAt e 0 with
  | 0 => true
  | 1 =>
    let q := byteAt e 1
    let g := byteAt e 2
    decide (q < 8) && decide (g < 8) && indexBefore (BitVec.ofNat 16 (leNat e 4 2)) (ringAt d (fin8 q) (fin8 g)).recorded
  | _ =>
    let home := if bitOf (byteAt e 6) 6 then ownAddr d else liveHome d (byteAt e 6 % 64)
    home == ownAddr d &&
    (match physPeg c (tenantOf c p) (ringAt d p r).hdr.windowBase (leNat e 2 2 % 4096) with
     | some k => pegMeets d k (byteAt e 1) (BitVec.ofNat 16 (leNat e 4 2))
     | none => false)

/-- Judge every dependency: one on a peg that held once stays satisfied, one on a descriptor is judged against the recorded index of now (R322, R550). -/
def judgeRing (c : Cfg) (d : Dev) (p : LPort) (r : RingNo) : Dev :=
  match (ringAt d p r).head, (ringAt d p r).queue with
  | some h, s :: _ =>
    if h.stage = .waiting then
      let met := (List.range 4).map fun k => (byteAt (dDep s.bytes k) 0 == 2 && h.met.getD k false) || depHolds c d p r (dDep s.bytes k)
      if met = h.met then d else modHead d p r fun h => { h with met := met }
    else d
  | _, _ => d

/-- Judge the dependencies of every waiting head (R321, R550). -/
def judgeAll (c : Cfg) (d : Dev) : Dev :=
  each allLem d fun d p => each allRings d fun d r => judgeRing c d p r

/-- One operation on a pool peg homed here: the value after it, the exception, and the state with watches and waiting dependencies judged at the end of the cycle (R542, R550, R551). -/
def poolOp (c : Cfg) (d : Dev) (p pop : Nat) (amount : W16) : Dev × W16 × Nat :=
  let (v, e) := pegApply pop (poolPeg d p) amount
  (judgeAll c (answerWatches (setPool d p v) p), v, e)

/-- Write a pool peg from the barrier engine, with the same judging (R558). -/
def poolWrite (c : Cfg) (d : Dev) (p : Nat) (v : W16) : Dev := judgeAll c (answerWatches (setPool d p v) p)

/-- The group that a descriptor names on this unit. -/
def ownGroup (d : Dev) (desc : Desc) (list : List Byte) : Group := groupOf desc list (ownAddr d)

/-- Whether an isolated unit ends a descriptor: its group, barrier or a peg names another unit (R622). -/
def namesOther (d : Dev) (desc : Desc) (list : List Byte) : Bool :=
  let own := ownAddr d
  (hasGroup (dKind desc) && (memberUnits d.sow.dims (ownGroup d desc list)).any (· != own)) ||
  (dKind desc == 7 && dBarHome desc != own) ||
  (List.range 4).any (fun k => let e := dDep desc k; byteAt e 0 == 2 && !bitOf (byteAt e 6) 6 && byteAt e 6 % 64 != own) ||
  (dKind desc == 6 && (List.range 4).any fun k => let e := dEntry desc k; ePop e != 0 && eSpace e == 0 && !eHere e && eHome e != own)

/-- The next request number (R552). -/
def newReq (d : Dev) : W16 × Dev :=
  (d.pegs.nextReq, { d with pegs := { d.pegs with nextReq := d.pegs.nextReq + 1 } })

/-! ## Exceptions in a record (R375, R543) -/

/-- Record an exception code at some element indices, `idx` the lowest: the lowest index wins, at one index the lower code, and every index counts once (R375). -/
def noteExc (r : Run) (code idx : Nat) (all : List Nat) : Run :=
  if code = 0 then r
  else
    let first := decide (r.exception = 0) || decide (idx < r.element) || (decide (idx = r.element) && decide (code < r.exception.toNat))
    { r with exception := if first then BitVec.ofNat 8 code else r.exception, element := if first then idx else r.element, excAt := r.excAt ++ all.filter fun i => !(r.excAt.contains i) }

/-- A tally exception of a descriptor: in its record and in the tenant's counter 7 or 8 (R543). -/
def tallyExc (c : Cfg) (d : Dev) (p : LPort) (r : RingNo) (code idx : Nat) : Dev :=
  if code = 0 then d
  else bumpTenant c (modRun d p r fun x => noteExc x code idx [idx]) (tenantOf c p) (if code = 2 then 7 else 8)

/-! ## Peg operations of a descriptor (R548) -/

/-- The place of the next entry of a PEG_OP that applies anything: entries with `pop` 0 are passed over. -/
def skipNone (desc : Desc) : Nat → Nat → Nat
  | 0, k => k
  | n + 1, k => if k < 4 ∧ ePop (dEntry desc k) = 0 then skipNone desc n (k + 1) else k

/-- The record fields after entry `k` gave value `v` and exception `e` (R375, R377, R543). -/
def entryDone (c : Cfg) (d : Dev) (p : LPort) (r : RingNo) (k v e : Nat) (binary : Bool) : Dev :=
  let d := modRun d p r fun x => { x with entry := k + 1, waitReq := none, aux := if binary then min v 1 else v }
  tallyExc c d p r e k

/-- Apply or send entry `k` of the PEG_OP that runs on ring `r` of port `p` (R545 to R548): an isolated unit ends it (R622), one that meets a bad word ends with CHECK_ERROR (R583), and an entry without a route waits for the watchdog. -/
def pegEntry (c : Cfg) (d : Dev) (p : LPort) (r : RingNo) (x : Run) (k : Nat) : Dev :=
  let e := dEntry x.desc k
  let pop := ePop e
  let amount := BitVec.ofNat 16 (eAmount e)
  let binary := pop == 1 || pop == 2
  if eSpace e = 1 then
    let key := pocketKey (ePeg e / 256 % 16) (ePeg e % 64)
    let (v, ex) := pegApply pop (spRead d.lem[p].pocket key) amount
    entryDone c (modP d p fun y => { y with pocket := spWrite y.pocket key v }) p r k v.toNat ex binary
  else
    let home := if eHere e then ownAddr d else liveHome d (eHome e)
    match physPeg c (tenantOf c p) (ringAt d p r).hdr.windowBase (ePeg e % 4096) with
    | none => d
    | some peg =>
      if home = ownAddr d then
        if pegFails d peg pop then modRun d p r fun y => { y with status := 0x22, finished := true }
        else
          let (d, v, ex) := poolOp c d peg pop amount
          entryDone c d p r k v.toNat ex binary
      else if d.recov.isolated then modRun d p r fun y => { y with status := 0x28, finished := true }
      else
        let (id, d) := newReq d
        let d := modRun d p r fun y => { y with waitReq := some id }
        sendPeg d (tenantOf c p) home 1 pop peg amount.toNat id.toNat 0 []

/-- Finish a PEG_OP whose entries are all done. -/
def pegFinish (d : Dev) (p : LPort) (r : RingNo) : Dev :=
  modRun d p r fun x => if x.waitReq.isNone && decide (4 ≤ skipNone x.desc 4 x.entry) then { x with finished := true } else x

/-! ## Watches of this unit's descriptors (R551) -/

/-- Send the WATCH of dependency `k` of the head of ring `r`, with request number `id`. -/
def sendWatch (c : Cfg) (d : Dev) (p : LPort) (r : RingNo) (desc : Desc) (k : Nat) (id : W16) (pmsg : Nat) : Dev :=
  let e := dDep desc k
  let home := liveHome d (byteAt e 6 % 64)
  match physPeg c (tenantOf c p) (ringAt d p r).hdr.windowBase (leNat e 2 2 % 4096) with
  | some peg => sendPeg d (tenantOf c p) home pmsg (if pmsg = 2 then byteAt e 1 else 0) peg (if pmsg = 2 then leNat e 4 2 else 0) id.toNat 0 []
  | none => d

/-- Whether dependency `k` of a descriptor is on a peg of another unit. -/
def depRemote (d : Dev) (desc : Desc) (k : Nat) : Bool :=
  let e := dDep desc k
  byteAt e 0 == 2 && !bitOf (byteAt e 6) 6 && liveHome d (byteAt e 6 % 64) != ownAddr d

/-- The ring and dependency whose WATCH carries a request number. -/
def watchOwner (d : Dev) (id : W16) : Option (LPort × RingNo × Nat) :=
  (allLem.flatMap fun p => allRings.flatMap fun r => match (ringAt d p r).head with
    | some h => if h.stage = .waiting then (List.range 4).filterMap fun k => if h.watchIds.getD k none = some id ∧ !(h.met.getD k true) then some (p, r, k) else none else []
    | none => []).head?

/-- The ring whose PEG_OP waits for a request number's DONE. -/
def doneOwner (d : Dev) (id : W16) : Option (LPort × RingNo) :=
  (allLem.flatMap fun p => allRings.filterMap fun r => match (ringAt d p r).cur with
    | some x => if x.waitReq = some id then some (p, r) else none
    | none => none).head?

/-! ## Arrivals (R557) -/

/-- Complete every descriptor of a list with a status, unless it has ended already. -/
def finishRuns (d : Dev) (rs : List (LPort × RingNo)) (status : Byte) : Dev :=
  each rs d fun d e => modRun d e.1 e.2 fun x => if x.finished then x else { x with status := status, finished := true }

/-- Count a descriptor's BARRIER_TIMEOUT in the tenant's counter 6 (R385). -/
def countTimeouts (c : Cfg) (d : Dev) (t : Tenant) (n : Nat) : Dev := each (List.range n) d fun d _ => bumpTenant c d t 6

/-- The bytes on which the descriptors of one arrival must agree: `coll`, `use_line`, group fields, `bar_peg` and `bar_home` (R557). -/
def barrierAgree (desc : Desc) : List Byte :=
  slice desc 2 2 ++ slice desc 0x28 1 ++ slice desc 0x2C 3 ++ slice desc 0x32 2 ++ slice desc 0x38 3

/-- Bytes 0Ah to 27h of an ARRIVE for a descriptor (R552). -/
def arriveBody (desc : Desc) (map : W64) (lineBar : Nat) : List Byte :=
  slice desc 2 2 ++ slice desc 0x2C 3 ++ [0] ++ slice desc 0x32 2 ++ zeros 6 ++ toLe map.toNat 8 ++ toLe lineBar 4

/-- What an arrival must cover: the participants of a line barrier, else the group's local members, judged now (R556, R563, R578). -/
def arrivalMembers (c : Cfg) (d : Dev) (a : Arrival) (desc : Desc) : BitVec 128 :=
  if a.line.isSome then presentMask c d &&& tenantMask c (ownAddr d) (ownAddr d) a.tenant
  else localMembers c d a.tenant (groupOf desc a.list (ownAddr d))

/-- The local members that an arrival's descriptors cover. -/
def coveredBy (d : Dev) (runs : List (LPort × RingNo)) : BitVec 128 :=
  runs.foldl (fun m e => match (ringAt d e.1 e.2).cur with
    | some x => m ||| mineMask e.1 x.desc
    | none => m) 0

/-- Change an arrival, named by its tenant, home, pair and line number. -/
def modArrival (d : Dev) (a : Arrival) (f : Arrival → Arrival) : Dev :=
  { d with pegs := { d.pegs with arrivals := d.pegs.arrivals.map fun b =>
      if b.tenant = a.tenant ∧ b.home = a.home ∧ b.peg = a.peg ∧ b.line = a.line then f b else b } }

/-- Remove an arrival. -/
def dropArrival (d : Dev) (a : Arrival) : Dev :=
  { d with pegs := { d.pegs with arrivals := d.pegs.arrivals.filter fun b =>
      !(decide (b.tenant = a.tenant) && decide (b.home = a.home) && decide (b.peg = a.peg) && decide (b.line = a.line)) } }

/-- The units that must report in an arrival's phase (R556, R567). -/
def arrivalMap (d : Dev) (a : Arrival) (desc : Desc) : W64 :=
  if a.line.isSome then unitMap (List.range (unitsIn d.sow.dims))
  else unitMap (memberUnits d.sow.dims (groupOf desc a.list (ownAddr d)))

/-- Whether the current phase of a pair belongs, on this unit, to a barrier that the line had completed (R557, R567). DEDUCED: log entry 71. -/
def pairBusy (d : Dev) (home peg : Nat) : Bool := d.pegs.ignored.any fun e => e.1 == home && e.2.1 == peg

/-- Under line fallback, send the ARRIVE of every barrier from f onwards that the line had completed, those of one pair one after another (R567). -/
def sendCompleted (c : Cfg) (d : Dev) : Dev :=
  let t := (allTenants.find? (ownsLine c)).getD 0
  each (d.line.completed.filter fun e => d.line.fallback && decide (d.line.f ≤ e.1)) d fun d e =>
    let (_, named, peg, k, body) := e
    let home := liveHome d named
    if !(inSlice c t peg) || pairBusy d home peg || (d.pegs.arrivals.any fun a => a.arrived && a.home == home && a.peg == peg) || !(hasRoute d home) then d
    else sendPeg { d with
      line := { d.line with completed := d.line.completed.erase e }
      pegs := { d.pegs with ignored := d.pegs.ignored ++ [(home, peg, k, body)] } } t home 4 0 peg 0 0 k body

/-- Send an arrival's ARRIVE once it covers its members (R557): a peg arrival, or a line arrival of number f or higher under line fallback (R567). -/
def tryArrive (c : Cfg) (d : Dev) (a : Arrival) : Dev :=
  let pegs := match a.line with
    | none => true
    | some n => d.line.fallback && decide (d.line.f ≤ n)
  let desc := match a.runs with
    | e :: _ => match (ringAt d e.1 e.2).cur with
      | some x => x.desc
      | none => []
    | [] => []
  let need := arrivalMembers c d a desc
  if a.arrived || !pegs || !(inSlice c a.tenant a.peg) || pairBusy d a.home a.peg || a.runs.isEmpty || (need &&& a.covered) != need then d
  else if hasRoute d a.home then
    let body := arriveBody desc (arrivalMap d a desc) (a.line.getD 0xFFFFFFFF)
    let d := modArrival d a fun b => { b with arrived := true, members := need, body := body }
    sendPeg d a.tenant a.home 4 0 a.peg 0 0 (popCount need) body
  else d

/-- Send the ARRIVE of every arrival that is due. -/
def tryArrivals (c : Cfg) (d : Dev) : Dev := each d.pegs.arrivals d fun d a => tryArrive c d a

/-- Whether a BARRIER on ring `r` of port `p` runs on the line (R562, R567). -/
def lineRun (c : Cfg) (p : LPort) (desc : Desc) : Bool := dUseLine desc && ownsLine c (tenantOf c p)

/-- Whether barrier n runs on the line: there is no line fallback, or n lies below its start (R564, R567). DEDUCED: log entry 71. -/
def onLine (l : Line) : Bool := !l.fallback || decide (l.n < l.f)

/-- Whether a line BARRIER of a tenant needs no pool peg: its tenant's slice is empty, and barrier n runs on the line (R159; log 94). -/
def lineWithoutPegs (c : Cfg) (d : Dev) (p : LPort) (desc : Desc) : Bool :=
  lineRun c p desc && (sliceOf c (tenantOf c p)).2 == 0 && onLine d.line

/-- The first peg of the pair that a BARRIER names: none where it has none; 0 stands for it where it needs none. -/
def barrierPeg (c : Cfg) (d : Dev) (p : LPort) (r : RingNo) (desc : Desc) : Option Nat :=
  if lineWithoutPegs c d p desc then some 0 else physPeg c (tenantOf c p) (ringAt d p r).hdr.windowBase (dBarPeg desc)

/-- End the running descriptor of a ring with a status. -/
def endWith (d : Dev) (p : LPort) (r : RingNo) (status : Byte) : Dev := modRun d p r fun y => { y with status := status, finished := true }

/-- Note the line barrier that a running BARRIER belongs to. -/
def noteLine (d : Dev) (p : LPort) (r : RingNo) (line : Bool) (n : Nat) : Dev :=
  if line then modRun d p r fun y => { y with lineBar := some n } else d

/-- A BARRIER meets its unit's arrival: it ends with GROUP_MISMATCH where the two differ, is held where a member is covered already, and else joins (R557). -/
def joinArrival (c : Cfg) (d : Dev) (p : LPort) (r : RingNo) (x : Run) (line : Bool) (home peg : Nat) (a : Arrival) : Dev :=
  let mine := mineMask p x.desc
  if a.agree ≠ barrierAgree x.desc ∨ a.list ≠ x.list ∨ a.peg ≠ peg ∨ a.home ≠ home then endWith d p r 9
  else if (a.covered &&& mine) ≠ 0 then noteLine d p r line (d.line.n + 1)
  else
    let d := modRun d p r fun y => { y with joined := true }
    tryArrivals c (modArrival d a fun b => { b with runs := b.runs ++ [(p, r)], covered := b.covered ||| mine })

/-- A BARRIER opens its unit's arrival (R557, R563). -/
def openArrival (c : Cfg) (d : Dev) (p : LPort) (r : RingNo) (x : Run) (line : Bool) (home peg : Nat) : Dev :=
  let d := modRun d p r fun y => { y with joined := true }
  let a : Arrival :=
    { tenant := tenantOf c p, agree := barrierAgree x.desc, list := x.list, home := home, peg := peg,
      line := if line then some d.line.n else none, runs := [(p, r)], covered := mineMask p x.desc, members := 0, arrived := false,
      withdrawId := none, body := [] }
  tryArrivals c { d with pegs := { d.pegs with arrivals := d.pegs.arrivals ++ [a] } }

/-- Place an admitted BARRIER (R557, R563): it joins or opens its unit's arrival, is held, or ends with GROUP_MISMATCH; without pegs, under line fallback, with PEG_WINDOW_INVALID (R159); on an isolated unit with LINK_LOST, where it names another unit (R622). -/
def placeBarrier (c : Cfg) (d : Dev) (p : LPort) (r : RingNo) (x : Run) : Dev :=
  let t := tenantOf c p
  let line := lineRun c p x.desc
  let home := liveHome d (dBarHome x.desc)
  let d := noteLine d p r line d.line.n
  if d.recov.isolated && namesOther d x.desc x.list then endWith d p r 0x28
  else match barrierPeg c d p r x.desc with
  | none => endWith d p r 7
  | some peg =>
    let same (b : Arrival) : Bool := decide (b.tenant = t) && (if line then b.line == some d.line.n else b.line.isNone && decide (b.home = home) && decide (b.peg = peg))
    match d.pegs.arrivals.find? same with
    | some a => joinArrival c d p r x line home peg a
    | none => openArrival c d p r x line home peg

/-- Insert a ring into a list in the order in which the running descriptors were admitted. -/
def insertByNo (d : Dev) (e : LPort × RingNo) : List (LPort × RingNo) → List (LPort × RingNo)
  | [] => [e]
  | f :: fs =>
    let no (z : LPort × RingNo) : Nat := match (ringAt d z.1 z.2).cur with
      | some x => x.no
      | none => 0
    if no e ≤ no f then e :: f :: fs else f :: insertByNo d e fs

/-- The rings whose running descriptor is admitted but held (R396, R557), in the order of admission. -/
def heldRings (d : Dev) (want : Nat → Bool) : List (LPort × RingNo) :=
  (allLem.flatMap fun p => allRings.filterMap fun r => match (ringAt d p r).cur with
    | some x => if want (dKind x.desc) && !x.joined && !x.finished then some (p, r) else none
    | none => none).foldr (insertByNo d) []

/-- Place every held BARRIER again (R557, R559). -/
def placeHeld (c : Cfg) (d : Dev) : Dev :=
  each (heldRings d (· == 7)) d fun d e => match (ringAt d e.1 e.2).cur with
    | some x => if !x.joined ∧ !x.finished then placeBarrier c d e.1 e.2 x else d
    | none => d

/-- Remove an arrival that has ended; under line fallback the number of line barriers advances (R567). -/
def closeArrival (d : Dev) (a : Arrival) : Dev :=
  let d := dropArrival d a
  if d.line.fallback ∧ a.line = some d.line.n then { d with line := { d.line with n := d.line.n + 1, released := false } } else d

/-- End an arrival: its descriptors complete with a status (R559, R567). -/
def endArrival (c : Cfg) (d : Dev) (a : Arrival) (status : Byte) : Dev :=
  let d := finishRuns d a.runs status
  let d := if status = 0x27 then countTimeouts c d a.tenant a.runs.length else d
  placeHeld c (sendCompleted c (closeArrival d a))

/-- The arrival at a home and pair that has reported. -/
def arrivalAt (d : Dev) (t : Tenant) (home peg : Nat) : Option Arrival :=
  d.pegs.arrivals.find? fun a => decide (a.tenant = t) && decide (a.home = home) && decide (a.peg = peg) && a.arrived

/-! ## The barrier engine (R558) -/

/-- The count of context changes that a home judges PEG frames by: the one that a change under way leaves counts (R707). -/
def homePgen (d : Dev) (t : Tenant) : Byte := if d.recov.restart[t] = .changing then d.recov.pgen[t] + 1 else d.recov.pgen[t]

/-- Replace or remove a phase. -/
def setPhase (d : Dev) (peg : Nat) (t : Tenant) (ph : Option Phase) : Dev :=
  let rest := d.pegs.phases.filter fun x => !(decide (x.peg = peg) && decide (x.tenant = t))
  { d with pegs := { d.pegs with phases := match ph with | some x => rest ++ [x] | none => rest } }

/-- MISMATCH to units, the count peg to 0, and the phase ended (R558, R668). -/
def engineMismatch (c : Cfg) (d : Dev) (t : Tenant) (peg : Nat) (us : List Nat) : Dev :=
  let d := setPhase d peg t none
  let d := each us d fun d u => sendReply d t u 7 0 peg 0 0 []
  poolWrite c d peg 0

/-- Release a phase whose report set equals its map, less lost units (R558, R627). -/
def engineRelease (c : Cfg) (d : Dev) (ph : Phase) : Dev :=
  let need := (mapUnits ph.map).filter fun u => !(d.recov.view.lost.contains u)
  if need.all (fun u => ph.reported.any fun e => e.1 == u) then
    let v : W16 := if poolPeg d ph.sense = 0 then 1 else 0
    let d := setPhase d ph.peg ph.tenant none
    let d := poolWrite c d ph.peg 0
    let d := if pegGood d ph.sense then poolWrite c d ph.sense v else d
    each (ph.reported.filter fun e => e.2 != 0) d fun d e => sendReply d ph.tenant e.1 5 0 ph.peg v.toNat 0 []
  else d

/-- Accept an ARRIVE at a pair homed here (R558). -/
def engineArrive (c : Cfg) (d : Dev) (t : Tenant) (u peg members : Nat) (body : List Byte) : Dev :=
  let map : W64 := BitVec.ofNat 64 (leNat body 0x0E 8)
  let inMap := (mapUnits map).contains u
  match d.pegs.phases.find? fun x => decide (x.peg = peg) && decide (x.tenant = t) with
  | none =>
    if inMap then
      let ph : Phase := { peg := peg, sense := nextPeg c t peg, tenant := t, body := body, map := map, reported := [(u, members)] }
      let d := setPhase d peg t (some ph)
      let d := poolWrite c d peg 1
      let d := each ((mapUnits map).filter fun v => v != u && !(d.recov.view.lost.contains v)) d fun d v =>
        sendReply d t v 4 0 peg 0 0 ([0, homePgen d t] ++ body)
      engineRelease c d ph
    else engineMismatch c d t peg [u]
  | some ph =>
    if ph.body = body ∧ inMap ∧ !(ph.reported.any fun e => e.1 == u) then
      let ph := { ph with reported := ph.reported ++ [(u, members)] }
      let d := setPhase d peg t (some ph)
      let d := poolWrite c d peg (BitVec.ofNat 16 ph.reported.length)
      engineRelease c d ph
    else engineMismatch c d t peg ((ph.reported.map (·.1)).filter (· != u) ++ [u])

/-! ## Line fallback (R566, R567) -/

/-- End the arrivals that line fallback gives to pegs where their tenant has none (R138, R159). -/
def endPegless (c : Cfg) (d : Dev) : Dev :=
  each (d.pegs.arrivals.filter fun a => a.line.any (fun n => decide (d.line.f ≤ n)) && (sliceOf c a.tenant).2 == 0) d fun d a => endArrival c d a 7

/-- Note line fallback with its start, counted in its tenant's counter 3 and in every page's causes, or lower the start (R385, R566). -/
def noteFallback (c : Cfg) (d : Dev) (f : Nat) : Dev :=
  if d.line.fallback then { d with line := { d.line with f := f } }
  else
    let d := { d with line := { d.line with fallback := true, f := f, assertA := false, assertB := false } }
    addCauseAll (each allTenants d fun d t => if ownsLine c t then bumpTenant c d t 3 else d) 7

/-- Enter line fallback with a start, or lower the start (R566). -/
def enterFallback (c : Cfg) (d : Dev) (f : Nat) : Dev :=
  if d.line.fallback && decide (d.line.f ≤ f) then d
  else tryArrivals c (sendCompleted c (endPegless c (noteFallback c d f)))

/-! ## Peg messages accepted at their destination (R552, R553, R555, R558 to R560) -/

/-- Whether a home acts on a PEG frame: its pegs lie inside the tenant's slice, its `pgen` is current (R555, R707), and a FALLBACK is of the tenant that owns the line (R23, R80, R585). -/
def pegAccepted (c : Cfg) (d : Dev) (f : TrlFrame) : Bool :=
  let pmsg := byteAt f.payload 0
  let peg := leNat f.payload 2 2
  byteAt f.payload 9 == (homePgen d f.tenant).toNat &&
  inSlice c f.tenant peg && (!(pmsg == 4 || pmsg == 5) || inSlice c f.tenant (nextPeg c f.tenant peg)) && (pmsg != 6 || ownsLine c f.tenant)

/-- Act on an accepted PEG frame whose destination is this unit. -/
def pegHere (c : Cfg) (d : Dev) (f : TrlFrame) : Dev :=
  let pl := f.payload
  let t := f.tenant
  let u := f.src.toNat
  let peg := leNat pl 2 2
  let operand : W16 := BitVec.ofNat 16 (leNat pl 4 2)
  let id : W16 := BitVec.ofNat 16 (leNat pl 6 2)
  match byteAt pl 0 with
  | 1 =>
    if pegFails d peg (byteAt pl 1) then d
    else
      let (d, v, e) := poolOp c d peg (byteAt pl 1) operand
      sendReply d t u 1 e peg v.toNat id.toNat []
  | 2 =>
    if 256 * ((sliceOf c t).2 / 4096) ≤ (d.pegs.watches.filter fun w => w.tenant == t).length then
      sendReply d t u 3 0 peg 0 id.toNat []
    else if pegMeets d peg (byteAt pl 1) operand then sendReply d t u 2 0 peg 0 id.toNat []
    else
      let w : Watch := { peg := peg, cond := byteAt pl 1, operand := operand, tenant := t, unit := u, reqId := id, pgen := homePgen d t }
      { d with pegs := { d.pegs with watches := d.pegs.watches ++ [w] } }
  | 3 => { d with pegs := { d.pegs with watches := d.pegs.watches.filter fun w => !(decide (w.unit = u) && decide (w.reqId = id) && decide (w.tenant = t)) } }
  | 4 => engineArrive c d t u peg (byteAt pl 8) (slice pl 10 26)
  | 5 =>
    match d.pegs.phases.find? fun x => decide (x.peg = peg) && decide (x.tenant = t) && x.reported.any (fun e => e.1 == u) with
    | some ph =>
      let ph := { ph with reported := ph.reported.filter fun e => e.1 != u }
      let d := setPhase d peg t (some ph)
      let d := poolWrite c d peg (BitVec.ofNat 16 ph.reported.length)
      sendReply d t u 6 0 peg 0 id.toNat []
    | none => d
  | 6 => enterFallback c d (leNat pl 0x20 4)
  | _ => d

/-- Act on a BEGIN (R559, R566). -/
def beginHere (c : Cfg) (d : Dev) (f : TrlFrame) : Dev :=
  let body := slice f.payload 10 26
  let lineBar := leNat body 0x16 4
  let d := if lineBar ≠ 0xFFFFFFFF ∧ !d.line.fallback ∧ ownsLine c f.tenant then enterFallback c d lineBar else d
  let g := groupOfBody body f.src.toNat
  let none128 := localMembers c d f.tenant { g with base := ownAddr d } == 0
  if g.kind ≤ 1 ∧ none128 then
    sendPeg d f.tenant f.src.toNat 4 0 (leNat f.payload 2 2) 0 0 0 body
  else d

/-- RELEASE or MISMATCH ends a phase: the one of a barrier that the line had completed is ignored, once, and what waited for that phase goes; else the arrival ends with a status (R559, R567). -/
def phaseEnd (c : Cfg) (d : Dev) (t : Tenant) (home peg : Nat) (status : Byte) : Dev :=
  match (if ownsLine c t then d.pegs.ignored.find? fun e => e.1 == home && e.2.1 == peg else none) with
  | some e => tryArrivals c (sendCompleted c { d with pegs := { d.pegs with ignored := d.pegs.ignored.erase e } })
  | none => match arrivalAt d t home peg with
    | some a => endArrival c d a status
    | none => d

/-- Act on an accepted PEG_REPLY whose destination is this unit (R548, R551, R559, R560); a BEGIN from before a context change is discarded (R707). -/
def replyHere (c : Cfg) (d : Dev) (f : TrlFrame) : Dev :=
  let pl := f.payload
  let id : W16 := BitVec.ofNat 16 (leNat pl 6 2)
  let home := f.src.toNat
  let peg := leNat pl 2 2
  match byteAt pl 0 with
  | 1 => match doneOwner d id with
    | some (p, r) => match (ringAt d p r).cur with
      | some x =>
        let pop := ePop (dEntry x.desc (skipNone x.desc 4 x.entry))
        pegFinish (entryDone c d p r (skipNone x.desc 4 x.entry) (leNat pl 4 2) (byteAt pl 1) (pop == 1 || pop == 2)) p r
      | none => d
    | none => d
  | 2 => match watchOwner d id with
    | some (p, r, k) => modHead d p r fun h => { h with met := h.met.set k true }
    | none => d
  | 3 => match watchOwner d id with
    | some (p, r, k) => modHead d p r fun h => { h with watchFull := h.watchFull.set k true }
    | none => d
  | 4 => if byteAt pl 9 = (homePgen d f.tenant).toNat then beginHere c d f else d
  | 5 => phaseEnd c d f.tenant home peg 0
  | 6 => match d.pegs.arrivals.find? fun a => a.withdrawId == some id with
    | some a => endArrival c d a 0x27
    | none => d
  | 7 => phaseEnd c d f.tenant home peg 9
  | _ => d

/-- Act on a peg message that this unit sent to itself. -/
def selfMsg (c : Cfg) (d : Dev) (f : TrlFrame) : Dev :=
  if f.kind = 3 then (if pegAccepted c d f then pegHere c d f else d) else replyHere c d f

/-- Handle the messages this unit sent to itself, in order, with fuel. -/
def runSelf (c : Cfg) : Nat → Dev → Dev
  | 0, d => d
  | n + 1, d => match d.pegs.selfq with
    | [] => d
    | f :: rest => runSelf c n (selfMsg c { d with pegs := { d.pegs with selfq := rest } } f)

/-- Handle the messages this unit sent to itself. A command starts far fewer chains than the fuel allows. -/
def settle (c : Cfg) (d : Dev) : Dev := runSelf c 512 d

/-- A point-to-point frame: forwarded towards its destination, or acted on here (R281). -/
def ptFrame (d : Dev) (i : TPort) (f : TrlFrame) (act : Dev → Dev) : Dev :=
  if f.dest.toNat = ownAddr d then act d else sendPt d i.val f

/-- A PEG frame: forwarded, or checked by its home and acted on; a frame that fails the check is counted and gets no reply (R555). -/
def pegFrame (c : Cfg) (d : Dev) (i : TPort) (f : TrlFrame) : Dev :=
  ptFrame d i f fun d => if pegAccepted c d f then settle c (pegHere c d f) else bumpTrl d i 2

/-- A PEG_REPLY frame: forwarded, or acted on (R553). -/
def replyFrame (c : Cfg) (d : Dev) (i : TPort) (f : TrlFrame) : Dev :=
  ptFrame d i f fun d => settle c (replyHere c d f)

end Sys2Proof.Machine
end

