-- ==== Sys2Proof/Machine/Darn.lean ====
section
/-! DEFINITION. Darn and credits on either kind of link (R228 to R235, R283, R284, R296, R297), and what a received Lemius or Trellis frame does before its content is acted on. -/
namespace Sys2Proof.Machine
open Sys2Proof

/-! ## Acknowledgements and replay -/

/-- Whether a cumulative acknowledgement names a frame of this list. -/
def ackHits {α : Type} (held : List (BitVec 12 × α)) (ack : BitVec 12) : Bool := held.any fun e => e.1 == ack

/-- What stays unacknowledged behind `ack`. -/
def afterAck {α : Type} (ack : BitVec 12) : List (BitVec 12 × α) → List (BitVec 12 × α)
  | [] => []
  | e :: es => if e.1 = ack then es else afterAck ack es

/-- A cumulative acknowledgement of every frame up to `ack`: the retry count returns to 0 if it advances (R232, R234), and a NACK below it, whose replay has resent nothing, asks for none (R254). One that names no unacknowledged frame advances nothing. -/
def darnAck {α : Type} (dn : Darn α) (ack : BitVec 12) : Darn α :=
  if ackHits dn.held ack then
    let held := afterAck ack dn.held
    { dn with held := held, replay := if dn.asked then [] else dn.replay.filter (fun e => held.any fun h => h.1 == e.1), retries := 0, asked := false }
  else dn

/-- A replay of every unacknowledged frame; none where it would make the retry count 8 (R234). `asked` says that a NACK asks for it. -/
def darnReplay {α : Type} (asked : Bool) (dn : Darn α) : Option (Darn α) :=
  if dn.retries + 1 = 8 then none else some { dn with retries := dn.retries + 1, replay := dn.held, asked := asked }

/-- Whether a NACK carrying `ack` asks for a replay: the oldest unacknowledged frame is the one after it (R232, R254), and it is not about to be resent already (R253). -/
def nackAsks {α : Type} (dn : Darn α) (ack : BitVec 12) : Bool :=
  match dn.held with
  | e :: _ => e.1 == ack + 1 && !(dn.replay.any fun r => r.1 == e.1)
  | [] => false

/-- Whether a frame's acknowledgement withdraws the replay that a lower NACK asked for (R254). -/
def withdraws {α : Type} (dn : Darn α) (t : Tail) : Bool := (t.ackValid || t.nack) && dn.asked && ackHits dn.held t.ack

/-- Whether the replay timer runs out with effect: there is an unacknowledged frame, and it is not waiting in a replay already (R234, R253). -/
def timerRuns {α : Type} (dn : Darn α) : Bool :=
  match dn.held with
  | e :: _ => !(dn.replay.any fun r => r.1 == e.1)
  | [] => false

/-- What Darn does with a received frame (R232). -/
inductive RxAct
  | idle | accept | duplicate | ahead | bad
  deriving DecidableEq, Repr

/-- Note that a NACK is due unless one is outstanding for the next number (R232). -/
def wantNack {α : Type} (dn : Darn α) : Darn α :=
  if dn.nackOut then dn else { dn with nackOut := true, nackDue := true }

/-- Darn's receive side (R232): what to do with the frame, and the state after it. -/
def darnRx {α : Type} (dn : Darn α) (crc : Bool) (t : Tail) : RxAct × Darn α :=
  if !crc then (.bad, wantNack dn)
  else if !t.seqd then (.idle, dn)
  else
    let diff := (t.seq - dn.last).toNat
    if diff = 1 then (.accept, { dn with last := t.seq, ackDue := true, nackOut := false, nackDue := false })
    else if 2 ≤ diff ∧ diff ≤ 2048 then (.ahead, wantNack dn)
    else (.duplicate, { dn with ackDue := true })

/-- The first transmission of a frame: it takes the next number and is held (R231, R234). -/
def darnSend {α : Type} (dn : Darn α) (f : α) : Darn α :=
  { dn with next := dn.next + 1, held := dn.held ++ [(dn.next, f)], ackDue := false, nackDue := false }

/-- Whether another sequenced frame may be sent: at most 1,024 are held (R235). -/
def darnRoom {α : Type} (dn : Darn α) : Bool := decide (dn.held.length < 1024)

/-- What a frame's tail acknowledges and whether it is a NACK; both flags are then satisfied (R232). -/
def clearDue {α : Type} (dn : Darn α) : Darn α := { dn with ackDue := false, nackDue := false }

/-! ## Credits -/

/-- Whether a frame may be sent on a channel: L - S + F, modulo 256, is greater than 0 (R228). -/
def creditLeft (cr : Credit) : Bool := BitVec.ofNat 8 cr.lim - cr.sent + cr.ret != 0

/-- Whether an arriving frame had a credit: fewer frames have come, beyond the frees the partner has been told of, than the limit advertised (R228, R252). -/
def hadCredit (cr : Credit) : Bool := decide ((cr.recv - cr.freedSent).toNat < cr.adv)

/-- A frame arrived and its buffer was freed (R228, R283). -/
def creditTake (cr : Credit) : Credit := { cr with recv := cr.recv + 1, freed := cr.freed + 1 }

/-- A frame was sent for the first time. -/
def creditSpend (cr : Credit) : Credit := { cr with sent := cr.sent + 1 }

/-! ## Receiving a Lemius frame -/

/-- Apply the acknowledgement in a frame's tail, then report whether it asks for a replay (R232, R254, R296). -/
def applyTail {α : Type} (dn : Darn α) (t : Tail) : Darn α × Bool :=
  if t.ackValid || t.nack then
    let dn := darnAck dn t.ack
    (dn, t.nack && nackAsks dn t.ack)
  else (dn, false)

/-- Count a Lemius discard under R78. -/
def lemDiscard (d : Dev) (p : LPort) : Dev := bumpLem d p 2

/-- The credit fields of a Lemius frame with a valid CRC (R228). -/
def lemCredits (d : Dev) (p : LPort) (bs : List Byte) : Dev :=
  modP d p fun x => { x with credit := x.credit.mapFinIdx fun k cr _ => { cr with ret := bs.getD (0x0C + k) 0 } }

/-- Whether an accepted Lemius frame of these bytes is allowed: its fields agree with its kind, and it had a credit (R226, R229, R260). -/
def lemAllowed (x : LemPort) (bs : List Byte) : Bool :=
  lemFieldsOk bs && hadCredit x.credit[Fin.ofNat 4 (byteAt bs 1)]

/-- Start a replay on a Lemius port, counted; none at the retry limit (R234, R383). -/
def lemReplay (d : Dev) (p : LPort) (asked : Bool) : Option Dev :=
  match darnReplay asked d.lem[p].darn with
  | some dn => some (bumpLem (modP d p fun x => { x with darn := dn }) p 5)
  | none => none

/-- A Lemius frame whose CRC fails: counted, and a NACK is wanted (R232). -/
def lemBad (d : Dev) (p : LPort) : Dev := modP (bumpLem d p 4) p fun x => { x with darn := wantNack x.darn }

/-- What a Lemius frame with a valid CRC tells: the acknowledgement's effect, and the credit returns (R228, R232). -/
def lemTold (d : Dev) (p : LPort) (bs : List Byte) (dn : Darn LemTx) : Dev := lemCredits (modP d p fun x => { x with darn := dn }) p bs

/-- A Lemius frame that Darn accepts: counted, its credit taken and freed, and a discard besides where the link does not allow it (R78, R226, R228). -/
def lemAccept (d : Dev) (p : LPort) (bs : List Byte) : Dev :=
  let e := modP (bumpLem d p 1) p fun x =>
    let v := Fin.ofNat 4 (byteAt bs 1)
    { x with credit := x.credit.set v (creditTake x.credit[v]) }
  if lemAllowed d.lem[p] bs then e else lemDiscard e p

/-- What Darn's verdict on a Lemius frame does. -/
def lemAct (d : Dev) (p : LPort) (bs : List Byte) : RxAct → Dev
  | .accept => lemAccept d p bs
  | .idle => if lemFieldsOk bs then d else lemDiscard d p
  | _ => d

/-- Answer a NACK on a Lemius port: the state, and whether the retry limit is met (R232, R234). -/
def lemAsked (d : Dev) (p : LPort) (ask : Bool) : Dev × Bool :=
  if ask then
    match lemReplay d p true with
    | some d => (d, false)
    | none => (d, true)
  else (d, false)

/-- Uncount the replay that an acknowledgement withdraws (R254, R383). -/
def lemUncount (d : Dev) (p : LPort) (t : Tail) : Dev :=
  if withdraws d.lem[p].darn t then modP d p fun x => { x with ctr := x.ctr.set 5 (x.ctr[5] - 1) } else d

/-- A received Lemius frame with a valid CRC, after the FEC's count. -/
def lemGood (d : Dev) (p : LPort) (bs : List Byte) : Dev × Bool :=
  let t := parseTail bs
  let d := lemUncount d p t
  let a := applyTail d.lem[p].darn t
  let r := darnRx a.1 true t
  lemAsked (lemAct (modP (lemTold d p bs a.1) p fun x => { x with darn := r.2 }) p bs r.1) p a.2

/-- A received Lemius frame up to the point where its content is delivered (R225, R228, R232): the state, and whether the retry limit is met. A frame that the FEC altered and whose CRC fails counts as a CRC failure alone (log 86). -/
def lemRx (d : Dev) (p : LPort) (bs : List Byte) (fecFixed : Bool) : Dev × Bool :=
  if d.lem[p].phase ≠ .up then (d, false)
  else if !crcOk bs then (lemBad d p, false)
  else lemGood (if fecFixed then bumpLem d p 3 else d) p bs

/-! ## Receiving a Trellis frame -/

/-- Count a Trellis discard under R78 or R80. -/
def trlDiscard (d : Dev) (i : TPort) : Dev := bumpTrl d i 2

/-- The one credit field of a Trellis frame with a valid CRC (R276, R283). -/
def trlCredit (d : Dev) (i : TPort) (bs : List Byte) : Dev :=
  let v : Fin 8 := fin8 (byteAt bs 3)
  modT d i fun x => { x with credit := x.credit.set v { x.credit[v] with ret := bs.getD 4 0 } }

/-- Start a replay on a Trellis port, counted; none at the retry limit (R284, R386). -/
def trlReplay (d : Dev) (i : TPort) (asked : Bool) : Option Dev :=
  match darnReplay asked d.trl[i].darn with
  | some dn => some (bumpTrl (modT d i fun x => { x with darn := dn }) i 5)
  | none => none

/-- Whether an accepted Trellis frame of these bytes is allowed: reserved bits, lengths, kinds and channels (R302), a credit (R283), and on a miswired port the kinds of channel 0 only (R196, R305). -/
def trlAllowed (x : TrlPort) (bs : List Byte) : Bool :=
  trlFieldsOk bs && (byteAt bs 0 == 0 || trlCodesOk (parseTrl bs)) && hadCredit x.credit[fin8 (byteAt bs 1 % 8)] && (x.st != .miswired || byteAt bs 0 == 6 || byteAt bs 0 == 5)

/-- A Trellis frame whose CRC fails: counted, and a NACK is wanted (R232, R284). -/
def trlBad (d : Dev) (i : TPort) : Dev := modT (bumpTrl d i 4) i fun x => { x with darn := wantNack x.darn }

/-- What a Trellis frame with a valid CRC tells: the acknowledgement's effect, and one channel's credit return (R232, R283). -/
def trlTold (d : Dev) (i : TPort) (bs : List Byte) (dn : Darn TrlFrame) : Dev := trlCredit (modT d i fun x => { x with darn := dn }) i bs

/-- A Trellis frame that Darn accepts: counted, its credit taken and freed, and a discard besides where the link does not allow it (R78, R283, R302). -/
def trlAccept (d : Dev) (i : TPort) (bs : List Byte) : Dev :=
  let e := modT (bumpTrl d i 1) i fun x =>
    let v := fin8 (byteAt bs 1 % 8)
    { x with credit := x.credit.set v (creditTake x.credit[v]) }
  if trlAllowed d.trl[i] bs then e else trlDiscard e i

/-- What Darn's verdict on a Trellis frame does. -/
def trlAct (d : Dev) (i : TPort) (bs : List Byte) : RxAct → Dev
  | .accept => trlAccept d i bs
  | .idle => if trlFieldsOk bs then d else trlDiscard d i
  | _ => d

/-- Answer a NACK on a Trellis port: the state, and whether the retry limit is met (R284). -/
def trlAsked (d : Dev) (i : TPort) (ask : Bool) : Dev × Bool :=
  if ask then
    match trlReplay d i true with
    | some d => (d, false)
    | none => (d, true)
  else (d, false)

/-- Uncount the replay that an acknowledgement withdraws (R254, R386). -/
def trlUncount (d : Dev) (i : TPort) (t : Tail) : Dev :=
  if withdraws d.trl[i].darn t then modT d i fun x => { x with ctr := x.ctr.set 5 (x.ctr[5] - 1) } else d

/-- A received Trellis frame with a valid CRC, after the FEC's count. -/
def trlGood (d : Dev) (i : TPort) (bs : List Byte) : Dev × Bool :=
  let t := parseTail bs
  let d := trlUncount d i t
  let a := applyTail d.trl[i].darn t
  let r := darnRx a.1 true t
  trlAsked (trlAct (modT (trlTold d i bs a.1) i fun x => { x with darn := r.2 }) i bs r.1) i a.2

/-- A received Trellis frame up to the point where its content is delivered (R225, R232, R283, R284, R296): the state, and whether the retry limit is met. -/
def trlRx (d : Dev) (i : TPort) (bs : List Byte) (fecFixed : Bool) : Dev × Bool :=
  if !d.trl[i].linkUp then (d, false)
  else if !crcOk bs then (trlBad d i, false)
  else trlGood (if fecFixed then bumpTrl d i 3 else d) i bs

end Sys2Proof.Machine
end

