-- ==== Sys2Proof/Machine/Store.lean ====
section
/-! DEFINITION. The Spool, the yard, the block directory, and the hold and staging space (spec/13 R482 to R485, spec/14). -/
namespace Sys2Proof.Machine
open Sys2Proof

/-- Change the storage part. -/
def modStore (d : Dev) (f : Store → Store) : Dev := { d with store := f d.store }

/-! ## Quotas (R524 to R528, R535) -/

/-- A tenant's hold quota in stripes: 512 MiB a port. -/
def holdQuota (c : Cfg) (t : Tenant) : Nat := 8192 * (portsOf c t).length
/-- A tenant's staging quota in stripes: 496 MiB a port. -/
def stagingQuota (c : Cfg) (t : Tenant) : Nat := 7936 * (portsOf c t).length

/-- Whether a request is for hold space. -/
def reqIsHold : StoreReq → Bool
  | .hold .. => true
  | .staging .. => false

/-- The stripes a request asks for. -/
def reqStripes : StoreReq → Nat
  | .hold _ _ n => n
  | .staging _ n => n

/-- Whether a request fits what is free of its quota. -/
def reqFits (c : Cfg) (d : Dev) (t : Tenant) (q : StoreReq) : Bool :=
  if reqIsHold q then decide ((d.store.held[t]) + reqStripes q ≤ holdQuota c t)
  else decide ((d.store.staged[t]) + reqStripes q ≤ stagingQuota c t)

/-- Change the open instance of a key. -/
def modInst (d : Dev) (t : Tenant) (coll : W16) (f : Inst → Inst) : Dev :=
  { d with coll := { d.coll with insts := d.coll.insts.map fun x => if x.tenant = t ∧ x.coll = coll then f x else x } }

/-- The open instance of a key. -/
def instAt (d : Dev) (t : Tenant) (coll : W16) : Option Inst := d.coll.insts.find? fun x => x.tenant == t && x.coll == coll

/-- Give a request its space. -/
def grantReq (d : Dev) (t : Tenant) (q : StoreReq) : Dev :=
  match q with
  | .hold p r n => modRun (modStore d fun s => { s with held := s.held.set t (s.held[t] + n) }) p r fun x => { x with holdOk := true }
  | .staging coll n => modInst (modStore d fun s => { s with staged := s.staged.set t (s.staged[t] + n) }) t coll fun x => { x with stageOk := true }

/-- Ask for space: granted at once where nothing of its kind waits before it and it fits, else it waits in order (R526, R528). -/
def askStore (c : Cfg) (d : Dev) (t : Tenant) (q : StoreReq) : Dev :=
  if (d.store.wait[t]).all (fun w => reqIsHold w != reqIsHold q) && reqFits c d t q then grantReq d t q
  else modStore d fun s => { s with wait := s.wait.set t (s.wait[t] ++ [q]) }

/-- The waiting request of a tenant that may be granted next: the first of its kind, where it fits. -/
def nextGrant (c : Cfg) (d : Dev) (t : Tenant) : Option StoreReq :=
  let firsts := ((d.store.wait[t]).find? reqIsHold).toList ++ ((d.store.wait[t]).find? fun q => !reqIsHold q).toList
  firsts.find? (reqFits c d t)

/-- Remove a waiting request. -/
def dropReq (d : Dev) (t : Tenant) (q : StoreReq) : Dev :=
  modStore d fun s => { s with wait := s.wait.set t ((s.wait[t]).erase q) }

/-- Forget the waiting request of a ring's running descriptor. -/
def dropHoldReq (d : Dev) (t : Tenant) (p : LPort) (r : RingNo) : Dev :=
  modStore d fun s => { s with wait := s.wait.set t ((s.wait[t]).filter fun q => match q with
    | .hold p' r' _ => !(decide (p' = p) && decide (r' = r))
    | .staging .. => true) }

/-- Release a descriptor's hold, or its place in the queue (R527). -/
def releaseHold (d : Dev) (t : Tenant) (p : LPort) (r : RingNo) (x : Run) : Dev :=
  let d := dropHoldReq d t p r
  if x.holdOk then modStore d fun s => { s with held := s.held.set t (s.held[t] - x.holdStripes) } else d

/-- A record has gone: staging of an ended instance is released with the last of its records (R528). -/
def paidStaging (d : Dev) (x : Run) : Dev :=
  let owed := d.store.owed.map fun e => (e.1, e.2.1, e.2.2.filter (· != x.no))
  let paid (t : Tenant) : Nat := ((owed.filter fun e => e.1 == t && e.2.2.isEmpty).map (·.2.1)).sum
  modStore d fun s => { s with
    owed := owed.filter fun e => !e.2.2.isEmpty
    staged := Vector.ofFn fun t => s.staged[t] - paid t }

/-- Release an instance's staging, or its place in the queue (R528). -/
def releaseStaging (d : Dev) (x : Inst) : Dev :=
  let d := modStore d fun s => { s with wait := s.wait.set x.tenant ((s.wait[x.tenant]).filter fun q => match q with
    | .hold .. => true
    | .staging coll _ => coll != x.coll) }
  if x.stageOk then modStore d fun s => { s with staged := s.staged.set x.tenant (s.staged[x.tenant] - x.stageStripes) } else d

/-! ## Bytes of the Spool and the yard -/

/-- Tenant-relative Spool bytes. -/
def spoolBytes (c : Cfg) (d : Dev) (t : Tenant) (a n : Nat) : List Byte :=
  (List.range n).map fun i => spRead d.store.spool (spoolPhys c t (a + i))

/-- Write tenant-relative Spool bytes. -/
def writeSpool (c : Cfg) (d : Dev) (t : Tenant) (a : Nat) (bs : List Byte) : Dev :=
  modStore d fun s => { s with spool := (List.zip (List.range bs.length) bs).foldl (fun m e => spWrite m (spoolPhys c t (a + e.1)) e.2) s.spool }

/-- The physical 32-byte words that a tenant-relative Spool range touches. -/
def spoolWords (c : Cfg) (t : Tenant) (a n : Nat) : List Nat :=
  ((List.range n).map fun i => spoolPhys c t (a + i) / 32 * 32).eraseDups

/-- Whether a word's poison flag is set, as two of its three copies have it (R521). -/
def poisoned (s : Store) (w : Nat) : Bool :=
  decide (2 ≤ b2n (s.poison.contains w) + b2n (s.poison2.contains w) + b2n (s.poison3.contains w))

/-- Whether a Spool word may be used: no uncorrectable error and no poison (R522). -/
def wordGood (d : Dev) (w : Nat) : Bool := !(poisoned d.store w) && !(d.store.spoolBad.contains w)

/-- The words that may not be used. -/
def badWordsOf (s : Store) : List Nat := ((s.poison ++ s.poison2).filter (poisoned s) ++ s.spoolBad).eraseDups

/-- A list with one more element, where it does not hold it. -/
def addNew (l : List Nat) (w : Nat) : List Nat := if l.contains w then l else l ++ [w]

/-- SCRUB_POISON: every copy of a word's poison flag is set (R519, R521). -/
def poisonWord (s : Store) (w : Nat) : Store :=
  { s with poison := addNew s.poison w, poison2 := addNew s.poison2 w, poison3 := addNew s.poison3 w, spoolBad := s.spoolBad.filter (· != w) }

/-- Words cleared: their errors and every copy of their poison flags go (R517). -/
def cureWords (s : Store) (f : Nat → Bool) : Store :=
  { s with poison := s.poison.filter (!f ·), poison2 := s.poison2.filter (!f ·), poison3 := s.poison3.filter (!f ·), spoolBad := s.spoolBad.filter (!f ·) }

/-- A read met these bad words: each is counted and poisoned (R522). -/
def meetBad (d : Dev) (ws : List Nat) : Dev :=
  each ws d fun d w => modStore (bumpHealth d 1) fun s => poisonWord s w

/-- The four check bytes of an aligned 32-byte word: every write recomputes them with the bytes it changes, so they are those of the bytes as they stand; only an error makes them differ, and such a word is a bad one (R521, R708; log 101). -/
def checkBytes (m : Sparse 8) (w : Nat) : List Byte := (List.range 4).map (Config.checkByte (spReads m w 32))

/-- CLEAR of a tenant-relative range of whole words: every byte 0, check bits fresh, poison cleared (R517). -/
def clearSpool (c : Cfg) (d : Dev) (t : Tenant) (a n : Nat) : Dev :=
  let ranges := (List.range (ceilDiv n 65536)).map fun k => (spoolPhys c t (a + 65536 * k), min 65536 (n - 65536 * k))
  modStore d fun s => ranges.foldl (fun s e =>
    cureWords { s with spool := spClear s.spool e.1 (e.1 + e.2) } fun w => decide (e.1 ≤ w) && decide (w < e.1 + e.2)) s

/-- Tenant-relative yard bytes. -/
def yardBytes (c : Cfg) (d : Dev) (t : Tenant) (a n : Nat) : List Byte :=
  (List.range n).map fun i => spRead d.store.yard (yardPhys c t (a + i))

/-- Write tenant-relative yard bytes. -/
def writeYard (c : Cfg) (d : Dev) (t : Tenant) (a : Nat) (bs : List Byte) : Dev :=
  modStore d fun s => { s with yard := (List.zip (List.range bs.length) bs).foldl (fun m e => spWrite m (yardPhys c t (a + e.1)) e.2) s.yard }

/-! ## Resident elements (R514, R517) -/

/-- Offsets of element `i` of a region from its start: its value and its count. -/
def elemOff (lay : Nat × Nat × Nat) (i : Nat) : Nat × Nat :=
  let (sv, e, co) := lay
  (65536 * (i / e) + sv * (i % e), 65536 * (i / e) + co + 4 * (i % e))

/-- The words that hold element `i` of a descriptor's region. -/
def elemWords (c : Cfg) (t : Tenant) (desc : Desc) (i : Nat) : List Nat :=
  let lay := layoutOf desc
  let (vo, ko) := elemOff lay i
  spoolWords c t (dSpoolAddr desc + vo) lay.1 ++ spoolWords c t (dSpoolAddr desc + ko) 4

/-- The words that hold the count of element `i` of a descriptor's region. -/
def countWords (c : Cfg) (t : Tenant) (desc : Desc) (i : Nat) : List Nat := spoolWords c t (dSpoolAddr desc + (elemOff (layoutOf desc) i).2) 4

/-- An element's partial and its count. -/
def elemRead (c : Cfg) (d : Dev) (t : Tenant) (desc : Desc) (i : Nat) : Acc × Nat :=
  let lay := layoutOf desc
  let (vo, ko) := elemOff lay i
  (accOfBytes (arithOf desc) (spoolBytes c d t (dSpoolAddr desc + vo) lay.1), leNat (spoolBytes c d t (dSpoolAddr desc + ko) 4) 0 4)

/-- Write an element and its count. -/
def elemWrite (c : Cfg) (d : Dev) (t : Tenant) (desc : Desc) (i : Nat) (a : Acc) (k : Nat) : Dev :=
  let (vo, ko) := elemOff (layoutOf desc) i
  writeSpool c (writeSpool c d t (dSpoolAddr desc + vo) (accBytes (arithOf desc) a)) t (dSpoolAddr desc + ko) (toLe k 4)

/-- Whether an exact element refuses an accumulation of `m` addends (R462). -/
def elemRefuses (c : Cfg) (d : Dev) (t : Tenant) (desc : Desc) (m i : Nat) : Bool :=
  (arithOf desc).exact && decide (16777215 < (elemRead c d t desc i).2 + m)

/-- ADD, with KEEP in exact mode: the region's value is the left operand (R449, R452, R517). -/
def elemAdd (c : Cfg) (d : Dev) (t : Tenant) (desc : Desc) (m i : Nat) (x : Acc) : Dev :=
  let (v, k) := elemRead c d t desc i
  if elemRefuses c d t desc m i then d
  else elemWrite c d t desc i (accAdd (arithOf desc) v x) (min (k + m) 0xFFFFFFFF)

/-! ## The block directory (R482 to R484) -/

/-- Bytes of a registered block. -/
def blockBytes (b : Block) : Nat := b.k * b.n * codeBytes b.wFmt

/-- Bytes of the block that a YARD_LOAD names. -/
def loadBytes (desc : Desc) : Nat := leNat desc 0x2C 2 * leNat desc 0x2E 2 * codeBytes (byteAt desc 0x28 % 16)

/-- Remove every entry of a tenant whose block overlaps a range. -/
def dropBlocks (d : Dev) (t : Tenant) (a n : Nat) : Dev :=
  modStore d fun s => { s with dir := s.dir.filter fun b => !(b.tenant == t && overlaps b.addr (blockBytes b) a n) }

/-- The port whose contribution has a free entry, lowest first (R482). -/
def freeEntry (c : Cfg) (d : Dev) (t : Tenant) : Option LPort :=
  (portsOf c t).find? fun p => decide ((d.store.dir.filter fun b => b.port == p).length < 128)

/-- How many entries of a tenant a YARD_LOAD leaves free for its own block: those of the tenant's ports, less its entries that the block does not overlap, and less those that its other YARD_LOADs under way will take (R482, R483; log 103). -/
def entriesLeft (c : Cfg) (d : Dev) (t : Tenant) (p : LPort) (r : RingNo) (desc : Desc) : Nat :=
  let kept := (dropBlocks d t (leNat desc 0x30 4) (loadBytes desc)).store.dir.filter fun b => b.tenant == t
  let loads := (portsOf c t).flatMap fun q => allRings.filter fun k =>
    (q != p || k != r) && (ringAt d q k).cur.any fun y => dKind y.desc == 3 && y.yardStage == 1 && !y.finished
  128 * (portsOf c t).length - kept.length - loads.length

/-- The entry a YARD_LOAD registers (R364). -/
def blockOf (t : Tenant) (p : LPort) (desc : Desc) : Block :=
  { tenant := t, port := p, addr := leNat desc 0x30 4, k := leNat desc 0x2C 2, n := leNat desc 0x2E 2, wFmt := byteAt desc 0x28 % 16,
    fn := byteAt desc 0x28 / 16 % 8, lo := BitVec.ofNat 32 (leNat desc 0x40 4), hi := BitVec.ofNat 32 (leNat desc 0x44 4) }

/-- Step 4 of R483: overlapping entries are removed again and the new one is registered. -/
def registerBlock (c : Cfg) (d : Dev) (t : Tenant) (desc : Desc) : Dev :=
  let d := dropBlocks d t (leNat desc 0x30 4) (loadBytes desc)
  match freeEntry c d t with
  | some p => modStore d fun s => { s with dir := s.dir ++ [blockOf t p desc] }
  | none => d

/-- The lookup of R484: an exact match of tenant and address. -/
def findBlock (d : Dev) (t : Tenant) (a : Nat) : Option Block := d.store.dir.find? fun b => b.tenant == t && b.addr == a

/-- Remove the entries of every block that holds a byte of a physical yard word (R504, R708). -/
def dropBadBlocks (c : Cfg) (d : Dev) (w : Nat) : Dev :=
  modStore d fun s => { s with dir := s.dir.filter fun b =>
    !((List.range (blockBytes b / 32 + 2)).any fun k =>
      decide (32 * k < blockBytes b + 31) && yardPhys c b.tenant (b.addr + min (32 * k) (blockBytes b - 1)) / 32 * 32 == w) }

end Sys2Proof.Machine
end

