-- ==== Sys2Proof/Machine/CollSched.lean ====
section
/-! DEFINITION. What an instance of a collective holds, receives and has to send, as pure functions of the state: members, unit partials, passes, distributions and streams (R401 to R419, R445 to R447, R495, R624). -/
namespace Sys2Proof.Machine
open Sys2Proof

/-! ## The instance and its group -/

/-- An instance's descriptor fields (R398). -/
def instDesc (x : Inst) : Desc := descOfAgree x.agree

/-- What the schedule of an instance depends on: the torus, the view, the group's shape, the descriptor fields, and the root of a rooted reduction. -/
structure Geo where
  dims : Dims
  /-- The view in which the group was formed, which gives its roles (R624). -/
  view : View
  /-- The surviving units at that moment. -/
  surv : List Nat
  /-- The view of now, which gives its routes (R625, R634). -/
  routes : View
  own : Nat
  shape : Shape
  desc : Desc
  root : Option Pos
  deriving DecidableEq, Repr

/-- The unit of a root (R194). -/
def rootUnit (desc : Desc) : Nat := dRoot desc / 128

/-- The schedule's data for a group named by descriptor fields. -/
def geoIn (d : Dev) (view : View) (surv : List Nat) (desc : Desc) (list : List Byte) (base : Nat) : Geo :=
  { dims := d.sow.dims, view := view, surv := surv, routes := viewOf d, own := ownAddr d,
    shape := shapeFor d.sow.dims (groupOf desc list base), desc := desc,
    root := if isReduction desc && dOp desc == 1 then some (posOf d.sow.dims (rootUnit desc)) else none }

/-- The schedule's data for a group formed now. -/
def geoFor (d : Dev) (desc : Desc) (list : List Byte) (base : Nat) : Geo := geoIn d (viewOf d) (surviving d) desc list base

/-- The schedule's data for an instance, formed in the view that it keeps. -/
def geoOf (d : Dev) (x : Inst) : Geo := geoIn d x.view x.surv (instDesc x) x.list x.base

/-- The schedule's data for an instance's prologues, which keep the roles of its opening (R635). -/
def proGeo (d : Dev) (x : Inst) : Geo := geoIn d x.openView x.openSurv (instDesc x) x.list x.base

/-- Whether a position's unit is lost. -/
def hollow (g : Geo) (p : Pos) : Bool := g.view.lost.contains (addrOf g.dims p)

/-- The unit that holds a position's role (R624). -/
def role (g : Geo) (p : Pos) : Nat := roleUnit g.dims g.view g.surv p

/-- Whether this unit holds a position's role. -/
def mine (g : Geo) (p : Pos) : Bool := role g p == g.own

/-- The stations whose role this unit holds: its own first, where it is a carrier. -/
def myStations (g : Geo) : List Pos :=
  let l := (carriersOf g.shape).filter (mine g)
  (l.filter fun p => addrOf g.dims p == g.own) ++ l.filter fun p => addrOf g.dims p != g.own

/-- Whether this unit is a carrier (R402). -/
def isCarrier (g : Geo) : Bool := (carriersOf g.shape).any fun p => addrOf g.dims p == g.own

/-- A value in an association list, 0 where there is none. -/
def lookMask (l : List (Nat × BitVec 128)) (u : Nat) : BitVec 128 := (l.lookup u).getD 0

/-- The members on a unit that count: named by its prologue, not removed, and not on a lost unit (R401, R624). -/
def unitMembers (g : Geo) (x : Inst) (u : Nat) : BitVec 128 :=
  if g.view.lost.contains u then 0 else lookMask x.masks u &&& ~~~(lookMask x.removed u)

/-- Every member's global number, ascending (R401). -/
def membersOf (g : Geo) (x : Inst) : List Nat :=
  (List.range (unitsIn g.dims)).flatMap fun u => (bitsSet (unitMembers g x u)).map (· + 128 * u)

/-- Whether the prologue of every carrier that is not lost has come (R399). -/
def haveAll (g : Geo) (x : Inst) : Bool :=
  (carriersOf g.shape).all fun p => hollow g p || (x.masks.lookup (addrOf g.dims p)).isSome

/-- Whether payload moves as streams of each source unit (R409). -/
def isStream (desc : Desc) : Bool := dKind desc == 2 || (dKind desc == 1 && dOp desc == 4)

/-- Whether this is a broadcast. -/
def isBcast (desc : Desc) : Bool := dKind desc == 1 && dOp desc == 0

/-- Whether result elements go to members by blocks (R407). -/
def isScatter (desc : Desc) : Bool := (dKind desc == 1 || dKind desc == 4) && dOp desc == 3

/-- Whether only the root's unit receives (R405). -/
def isRooted (desc : Desc) : Bool := isReduction desc && dOp desc == 1

/-- Elements of chunk `c` of a contribution (R408). -/
def chunkLen (desc : Desc) (c : Nat) : Nat := min (chunkSize desc) (dCount desc - c * chunkSize desc)

/-- The chunk home of a wire index (R410). -/
def homeOf (g : Geo) (wire : Nat) : Pos :=
  if wire = 0xFFFFFFFF then ⟨0, 0, 0⟩
  else if isStream g.desc then posOf g.dims (wire / 2 ^ 26)
  else if isBcast g.desc then posOf g.dims (rootUnit g.desc)
  else reduceHome g.shape g.root wire

/-- The distribution from a home (R412). -/
def distFrom (g : Geo) (h : Pos) : List Transfer := distTransfers g.dims g.view g.routes g.surv g.shape h

/-- Every transfer of a wire index; of the prologue, the distributions from every carrier that is not lost (R398, R410). -/
def transfersFor (g : Geo) (wire : Nat) : List Transfer :=
  if wire = 0xFFFFFFFF then ((carriersOf g.shape).filter fun p => !hollow g p).flatMap (distFrom g)
  else
    (if isReduction g.desc then chunkPasses g.dims g.view g.routes g.surv g.shape g.root wire else []) ++ distFrom g (homeOf g wire)

/-- The transfers of a wire index that enter this unit through a port with a source address, in the order of the schedule. -/
def entering (g : Geo) (wire q src : Nat) : List Transfer :=
  (transfersFor g wire).filter fun t => t.src == src && entersAt g.dims g.own q t

/-- Whether a record is of a transfer of a wire index. -/
def sameRx (r : RxStream) (wire : Nat) (t : Transfer) : Bool :=
  r.src == t.src && r.wire.toNat == wire && decide (r.leg = t.leg) && decide (r.fromPos = t.fromPos) && decide (r.toPos = t.toPos)

/-- What this unit has received of a transfer, by whichever port it came. -/
def rxOf (x : Inst) (wire : Nat) (t : Transfer) : Option RxStream := x.rx.find? fun r => sameRx r wire t

/-- Whether a transfer has still to come, in part or whole. -/
def rxWaits (x : Inst) (wire : Nat) (t : Transfer) : Bool :=
  match rxOf x wire t with
  | some r => !r.done
  | none => true

/-- Whether a transfer passes through this unit on its way to another (R625). -/
def passesBy (g : Geo) (t : Transfer) : Bool :=
  (([0, 1, 2, 3, 4, 5] : List Nat).any fun q => entersAt g.dims g.own q t) && endsAt g.dims t != some g.own

/-! ## Local inputs -/

/-- The descriptor that supplies local member `e` of an instance, and the held bytes of that core: one that runs, or one that has left the instance. -/
def coreInput (d : Dev) (x : Inst) (e : Nat) : Option (Run × List Byte) :=
  let pick (p : LPort) (y : Run) : Option (Run × List Byte) :=
    if p.val = e / 16 ∧ bitOf (dMine y.desc) (e % 16) then some (y, (y.inputs.lookup (e % 16)).getD []) else none
  let live := x.runs.findSome? fun pr => match (ringAt d pr.1 pr.2).cur with
    | some y => pick pr.1 y
    | none => none
  match live with
  | some r => some r
  | none => x.ghosts.findSome? fun g => pick g.1 g.2

/-- Whether a descriptor for every local member has joined (R396, R421). -/
def allJoined (d : Dev) (x : Inst) : Bool := (x.covered ||| lookMask x.removed (ownAddr d)) &&& x.mine == x.mine

/-- Whether every local member is covered and every input of the instance on this unit is held (R410, R415). -/
def inputsHeld (d : Dev) (x : Inst) : Bool :=
  allJoined d x &&
  x.runs.all fun pr => match (ringAt d pr.1 pr.2).cur with
    | some y => y.readDone
    | none => false

/-- Elements of a held input from element `i`, after the recipe, as bits (R370). -/
def inputElems (desc : Desc) (y : Run) (bs : List Byte) (i n : Nat) : List Nat :=
  let w := codeBytes (dIn desc)
  (elemsOf w n (bs.drop (i * w))).map (recipeElem (dInFmt desc) (dRecipeOps y.desc) y.recipe)

/-! ## Partials of a reduction -/

/-- A partial vector so far: the elements known, in order; whether all are; whether it is the empty operand of R447; and whether the SIGNAL of its last transfer has come. -/
structure Part where
  accs : List Acc
  whole : Bool
  empty : Bool
  done : Bool
  deriving DecidableEq, Repr

/-- Nothing known yet. -/
def Part.unknown : Part := { accs := [], whole := false, empty := false, done := false }
/-- The empty operand (R447). -/
def Part.none : Part := { accs := [], whole := true, empty := true, done := true }

/-- A partial as received. -/
def partOfRx (ar : Arith) : Option RxStream → Part
  | .none => Part.unknown
  | some r =>
    if r.notice then (if r.done then Part.none else Part.unknown)
    else { accs := accsOfBytes ar r.bytes.length r.bytes, whole := r.ended, empty := false, done := r.done }

/-- The received partial on the left of a station's own (R447). -/
def partAdd (ar : Arith) (a b : Part) : Part :=
  if a.empty then b else if b.empty then { a with done := a.done && b.done }
  else { accs := List.zipWith (accAdd ar) a.accs b.accs, whole := a.whole && b.whole, empty := false, done := a.done && b.done }

/-- pair() over each list in turn, those without a value left out (R445). -/
def pairEach (ar : Arith) (ports : List (List (List Acc))) : List (List Acc) := ports.filterMap (pairTree ar)

/-- The unit partial of chunk `c`: the canonical tree over the unit's members, port partials first (R410, R445). -/
def unitPart (d : Dev) (g : Geo) (x : Inst) (c : Nat) : Part :=
  if !inputsHeld d x then Part.unknown
  else
    let ar := arithOf g.desc
    let vec (e : Nat) : Option (List Acc) := (coreInput d x e).map fun yb =>
      (inputElems g.desc yb.1 yb.2 (c * chunkSize g.desc) (chunkLen g.desc c)).map (accOf ar (128 * g.own + e))
    let es := bitsSet (unitMembers g x g.own)
    match pairTree ar (pairEach ar ((List.range 8).map fun p => (es.filter fun e => e / 16 == p).filterMap vec)) with
    | some l => { accs := l, whole := true, empty := false, done := true }
    | .none => Part.none

/-- The transfer of a pass between two stations. -/
def passTransfer (g : Geo) (c ax : Nat) (a b : Pos) : Option Transfer :=
  (transfersFor g c).find? fun t => decide (t.leg = .pass ax) && decide (t.fromPos = a) && decide (t.toPos = b)

/-- The values that leave the stations of one pass whose roles this unit holds, given what each held as the pass began (R411, R447). -/
def passVals (g : Geo) (x : Inst) (c ax : Nat) (base : Pos → Part) : Option (Pos × Part) → List Pos → List (Pos × Part)
  | _, [] => []
  | prev, q :: qs =>
    if mine g q then
      let inc := match prev with
        | .none => Part.none
        | some pp => if mine g pp.1 then pp.2 else
            match passTransfer g c ax pp.1 q with
            | some t => partOfRx (arithOf g.desc) (rxOf x c t)
            | .none => Part.unknown
      let v := partAdd (arithOf g.desc) inc (base q)
      (q, v) :: passVals g x c ax base (some (q, v)) qs
    else passVals g x c ax base (some (q, Part.unknown)) qs

/-- What this unit holds for station `p` before the passes of axis `ax` (R410, R411, R624). -/
def valAt (d : Dev) (g : Geo) (x : Inst) (c : Nat) : Nat → Pos → Part
  | 0, p => if hollow g p then Part.none else unitPart d g x c
  | ax + 1, p =>
    if mOf g.shape ax ≤ 1 then valAt d g x c ax p
    else
      let stops := passStops g.dims g.view g.shape g.root c ax p
      match (passVals g x c ax (valAt d g x c ax) .none stops).getLast? with
      | some (_, v) => v
      | .none => Part.none

/-- The value that this unit sends in one pass transfer. -/
def passOut (d : Dev) (g : Geo) (x : Inst) (c ax : Nat) (p : Pos) : Part :=
  let stops := passStops g.dims g.view g.shape g.root c ax p
  match (passVals g x c ax (valAt d g x c ax) .none stops).find? fun e => decide (e.1 = p) with
  | some (_, v) => v
  | .none => Part.unknown

/-- The reduced vector of chunk `c` at its home (R410). -/
def homePart (d : Dev) (g : Geo) (x : Inst) (c : Nat) : Part := valAt d g x c 3 (homeOf g c)

/-! ## Distribution -/

/-- What a station holds of a distributed chunk or stream: its bytes so far, whether all are there, whether it was a notice, whether its SIGNAL has come, and the flags of R554. -/
structure Stm where
  bytes : List Byte
  whole : Bool
  notice : Bool
  done : Bool
  noYard : Bool
  dropped : Bool
  deriving DecidableEq, Repr

/-- Nothing yet. -/
def Stm.unknown : Stm := { bytes := [], whole := false, notice := false, done := false, noYard := false, dropped := false }

/-- Bytes complete at their home. -/
def Stm.full (bs : List Byte) (noYard dropped : Bool) : Stm :=
  { bytes := bs, whole := true, notice := false, done := true, noYard := noYard, dropped := dropped }

/-- As received. -/
def stmOfRx : Option RxStream → Stm
  | none => Stm.unknown
  | some r => { bytes := r.bytes, whole := r.ended, notice := r.notice, done := r.done, noYard := r.noYard, dropped := r.dropped }

/-- The units reached through a station in the distribution from `h` (R412). -/
def reached (g : Geo) (h q : Pos) : List Nat :=
  (distSubtree g.shape h (mOf g.shape 0 + mOf g.shape 1 + mOf g.shape 2) q).map (addrOf g.dims)

/-- Whether a unit reached holds a member. -/
def anyMember (g : Geo) (x : Inst) (us : List Nat) : Bool := us.any fun u => unitMembers g x u != 0

/-- The ranks of the members on a set of units. -/
def ranksOn (g : Geo) (x : Inst) (us : List Nat) : List Nat :=
  let ms := membersOf g x
  (List.range ms.length).filter fun j => us.contains (ms.getD j 0 / 128)

/-- The elements of chunk `c` that lie in the blocks of the members on a set of units (R407, R412). -/
def needElems (g : Geo) (x : Inst) (c : Nat) (us : List Nat) : List Nat :=
  let m := (membersOf g x).length
  let lo := c * chunkSize g.desc
  let rs := ranksOn g x us
  ((List.range (chunkLen g.desc c)).map (· + lo)).filter fun i =>
    rs.any fun j => let b := blockSpan (dCount g.desc) m j; decide (b.1 ≤ i) && decide (i < b.1 + b.2)

/-- The element indices that a station's stream of chunk `c` holds: all at the home, else what its units need. -/
def elemsAt (g : Geo) (x : Inst) (c : Nat) (q : Pos) : List Nat :=
  let h := homeOf g c
  if q = h then (List.range (chunkLen g.desc c)).map (· + c * chunkSize g.desc) else needElems g x c (reached g h q)

/-- Pick the elements `want` from bytes that hold the elements `have_`, `w` bytes each, as far as they have come. -/
def pickElems (w : Nat) (want : List Nat) : List Nat → List Byte → List Byte
  | [], _ => []
  | i :: is, bs =>
    if bs.length < w then []
    else (if want.contains i then bs.take w else []) ++ pickElems w want is (bs.drop w)

/-! ### Exchange streams (R415, R417 to R419) -/

/-- The place of a member in a descriptor's counts table, which is laid out by the members as named at its admission (R417, R607). -/
def tablePlace (y : Run) (gm : Nat) : Nat := y.named.idxOf gm

/-- Entries that the `j`-th core of a descriptor sends to the member of a global number (R417, R418). -/
def sentCount (desc : Desc) (y : Run) (j gm : Nat) : Nat :=
  if dOp desc = 1 then countAt y.counts y.named.length j (tablePlace y gm) else dCount desc

/-- Entries of the `j`-th core's input before those for the member of rank `r`: of equal sizes the blocks of lower ranks, of unequal sizes what the counts table names before it (R405, R417, R607). -/
def sentBefore (desc : Desc) (y : Run) (j r gm : Nat) : Nat :=
  if dOp desc = 1 then ((List.range (tablePlace y gm)).map (countAt y.counts y.named.length j)).sum else r * dCount desc

/-- One pair stream of local member `e` for the destination of rank `r` and global number `gm` (R419). -/
def pairBytes (d : Dev) (g : Geo) (x : Inst) (e r gm : Nat) : List Byte :=
  match coreInput d x e with
  | none => []
  | some (y, bs) =>
    let j := (coresOf (dMine y.desc)).idxOf (e % 16)
    let before := sentBefore g.desc y j r gm
    let n := sentCount g.desc y j gm
    let kept := hemKept g.desc n
    toLe n 4 ++ toLe kept 4 ++ elemBytes (codeBytes (dIn g.desc)) (inputElems g.desc y bs before kept)

/-- Whether local member `e` dropped any entry (R418). -/
def memberDrops (d : Dev) (g : Geo) (x : Inst) (ms : List Nat) (e : Nat) : Bool :=
  match coreInput d x e with
  | none => false
  | some (y, _) =>
    let j := (coresOf (dMine y.desc)).idxOf (e % 16)
    ms.any fun gm => let n := sentCount g.desc y j gm; decide (hemKept g.desc n < n)

/-- The destination ranks of a path, ascending. -/
def pathRanks (g : Geo) (x : Inst) (h q : Pos) : List Nat :=
  if q = h then List.range (membersOf g x).length else ranksOn g x (reached g h q)

/-- The source stream of this unit towards every destination (R419). -/
def sourceStream (d : Dev) (g : Geo) (x : Inst) : List Byte :=
  let ms := membersOf g x
  let es := bitsSet (unitMembers g x g.own)
  BitVec.ofNat 8 (b2n (es.any (memberDrops d g x ms))) :: zeros 7 ++
    es.flatMap fun e => (ms.zipIdx).flatMap fun m => pairBytes d g x e m.2 m.1

/-- Cut a stream of pair streams, given as (source, destination) ranks in order, to the destinations wanted: the bytes so far, and whether every pair stream has come. -/
def cutPairs (eb : Nat) (want : List Nat) : List (Nat × Nat) → List Byte → List Byte × Bool
  | [], _ => ([], true)
  | (_, r) :: rest, bs =>
    if bs.length < 8 then ([], false)
    else
      let n := 8 + leNat bs 4 4 * eb
      let here := if want.contains r then bs.take n else []
      if bs.length < n then (here, false)
      else
        let (more, w) := cutPairs eb want rest (bs.drop n)
        (here ++ more, w)

/-- The pairs of a stream from unit `s` towards some destination ranks (R419). -/
def streamPairs (g : Geo) (x : Inst) (s : Nat) (dests : List Nat) : List (Nat × Nat) :=
  (ranksOn g x [s]).flatMap fun a => dests.map fun b => (a, b)

/-- Cut a station's stream to a path's destinations: 8 leading bytes, then pair streams. -/
def cutStream (g : Geo) (x : Inst) (s : Nat) (haveR want : List Nat) (bs : List Byte) : List Byte × Bool :=
  if bs.length < 8 then ([], false)
  else
    let (more, w) := cutPairs (codeBytes (dIn g.desc)) want (streamPairs g x s haveR) (bs.drop 8)
    (bs.take 8 ++ more, w)

/-- Join the chunks of a stream received in one transfer, in order, with fuel. -/
def joinChunks (g : Geo) (x : Inst) (s : Nat) (t : Transfer) : Nat → Nat → List Byte
  | 0, _ => []
  | n + 1, c => match rxOf x (2 ^ 26 * s + c) t with
    | some r => if r.notice then [] else if r.ended then r.bytes ++ joinChunks g x s t n (c + 1) else r.bytes
    | none => []

/-! ### What each station holds -/

/-- The chunk bytes at its home (R412, R414, R495). -/
def homeStm (d : Dev) (g : Geo) (x : Inst) (wire : Nat) : Stm :=
  if isStream g.desc then
    if dKind g.desc = 2 then
      let s := sourceStream d g x
      if inputsHeld d x && haveAll g x then Stm.full s false (s.getD 0 0 == 1) else Stm.unknown
    else
      let cpm := chunksOf g.desc (dCount g.desc)
      let c := wire % 2 ^ 26
      match (bitsSet (unitMembers g x g.own))[c / cpm]? with
      | some e => match coreInput d x e with
        | some (y, bs) =>
          let k := c % cpm
          if y.readDone then Stm.full (elemBytes (codeBytes (dIn g.desc)) (inputElems g.desc y bs (k * chunkSize g.desc) (chunkLen g.desc k))) false false
          else Stm.unknown
        | none => Stm.unknown
      | none => Stm.unknown
  else if isBcast g.desc then
    match coreInput d x (dRoot g.desc % 128) with
    | some (y, bs) =>
      if y.readDone then Stm.full (elemBytes (codeBytes (dIn g.desc)) (inputElems g.desc y bs (wire * chunkSize g.desc) (chunkLen g.desc wire))) false false
      else Stm.unknown
    | none => Stm.unknown
  else if isDecision g.desc then
    match x.decision with
    | some bs => Stm.full bs x.noYard false
    | none => Stm.unknown
  else
    let v := homePart d g x wire
    if v.empty then (if v.whole then { Stm.full [] false false with notice := true } else Stm.unknown)
    else { bytes := v.accs.flatMap (accBytes (arithOf g.desc)), whole := v.whole, notice := false, done := v.done && v.whole, noYard := false, dropped := false }

/-- Whether the path to station `q` carries data (R412). -/
def pathHasData (g : Geo) (x : Inst) (wire : Nat) (q : Pos) : Bool :=
  let us := reached g (homeOf g wire) q
  if dKind g.desc = 2 then anyMember g x us
  else if isScatter g.desc then !(needElems g x wire us).isEmpty
  else if isRooted g.desc then us.contains (rootUnit g.desc)
  else if isDecision g.desc then anyMember g x us
  else true

/-- What a path carries, cut from what its sending station holds (R412, R419). -/
def pathCut (g : Geo) (x : Inst) (wire : Nat) (p q : Pos) (s : Stm) : Stm :=
  if !pathHasData g x wire q then
    { bytes := [], whole := s.whole || s.notice || dKind g.desc == 2 && !s.bytes.isEmpty, notice := true,
      done := s.done || dKind g.desc == 2 && !s.bytes.isEmpty, noYard := s.noYard, dropped := s.dropped || s.bytes.getD 0 0 == 1 }
  else if dKind g.desc = 2 then
    let h := homeOf g wire
    let (bs, w) := cutStream g x (wire / 2 ^ 26) (pathRanks g x h p) (pathRanks g x h q) s.bytes
    { s with bytes := bs, whole := w, done := w, dropped := s.bytes.getD 0 0 == 1 }
  else if isScatter g.desc then
    { s with bytes := pickElems (wireBytes g.desc) (elemsAt g x wire q) (elemsAt g x wire p) s.bytes }
  else s

/-- The transfer by which a distribution reaches a station. -/
def distTransfer (g : Geo) (wire : Nat) (q : Pos) : Option Transfer :=
  (distFrom g (homeOf g wire)).find? fun t => decide (t.toPos = q)

/-- What has come of a transfer of a distribution. Of an exchange it is the whole stream, joined from its chunks. -/
def recvStm (g : Geo) (x : Inst) (wire : Nat) (t : Transfer) : Stm :=
  let first := stmOfRx (rxOf x wire t)
  if dKind g.desc ≠ 2 ∨ first.notice then first
  else
    let bs := joinChunks g x (wire / 2 ^ 26) t (x.rx.length + 1) 0
    let rs := pathRanks g x (homeOf g wire) t.toPos
    let w := (cutStream g x (wire / 2 ^ 26) rs rs bs).2
    { first with bytes := bs, whole := w, done := w }

/-- What a station whose role this unit holds has of a wire index, with fuel for roles joined on one unit. For an exchange, the wire index of a stream's first chunk stands for the stream. -/
def stmAt (d : Dev) (g : Geo) (x : Inst) (wire : Nat) : Nat → Pos → Stm
  | 0, _ => Stm.unknown
  | n + 1, q =>
    if q = homeOf g wire then homeStm d g x wire
    else match distTransfer g wire q with
      | none => Stm.unknown
      | some t =>
        if mine g t.fromPos then pathCut g x wire t.fromPos q (stmAt d g x wire n t.fromPos)
        else recvStm g x wire t

/-- Fuel for stmAt: a distribution has at most nine steps. -/
def stmFuel : Nat := 12

/-- What this unit itself has of a wire index: at its first station. -/
def ownStm (d : Dev) (g : Geo) (x : Inst) (wire : Nat) : Stm :=
  match myStations g with
  | p :: _ => stmAt d g x wire stmFuel p
  | [] => Stm.unknown

/-- The wire indices that must be gathered (R408, R409, R414): of an exchange, the first of each source's stream. -/
def wiresOf (g : Geo) (x : Inst) : List Nat :=
  let per := chunksOf g.desc (dCount g.desc)
  if isStream g.desc then
    (List.range (unitsIn g.dims)).flatMap fun s =>
      let k := popCount (unitMembers g x s)
      if k = 0 then [] else if dKind g.desc = 2 then [2 ^ 26 * s] else (List.range (k * per)).map (· + 2 ^ 26 * s)
  else List.range per

/-- Whether this unit knows that a wire index is gathered (R414, R415). -/
def gathered (d : Dev) (g : Geo) (x : Inst) (wire : Nat) : Bool :=
  let s := ownStm d g x wire
  if dKind g.desc = 2 then (s.notice && s.done) || !s.bytes.isEmpty
  else s.done && (s.notice || (s.whole && (!isDecision g.desc || (decide (1 ≤ byteAt s.bytes 0) && decide (byteAt s.bytes 0 ≤ 3)))))

/-- Whether a transfer of the instance has no route (R624). -/
def anyUnrouted (g : Geo) (wires : List Nat) : Bool :=
  (0xFFFFFFFF :: wires).any fun w => (transfersFor g w).any fun t => t.route.isNone

/-! ## Sizes that need the members -/

/-- Staging bytes of an instance on this unit (R528). -/
def stagingBytes (g : Geo) (x : Inst) : Nat :=
  let desc := g.desc
  let n := dCount desc
  let m := (membersOf g x).length
  let loc := ranksOn g x [g.own]
  if loc.isEmpty then 0
  else if dKind desc = 4 then
    let w := (layoutOf desc).1
    match dOp desc with
    | 1 => if rootUnit desc = g.own then n * w else 0
    | 2 => n * w
    | _ => (loc.map fun j => (blockSpan n m j).2 * w).sum
  else if dKind desc = 2 then (loc.map fun j => outBytes desc m j false).sum
  else match dOp desc with
    | 1 => if rootUnit desc = g.own then valueRange desc n else 0
    | 3 => (loc.map fun j => valueRange desc (blockSpan n m j).2).sum
    | 4 => m * n * codeBytes (dOut desc)
    | _ => valueRange desc n

end Sys2Proof.Machine
end

