-- ==== Sys2Proof/Machine/CollOps.lean ====
section
/-! DEFINITION. What an instance does: it opens, announces itself, sends and forwards, commits, writes and ends (R396 to R434, R462, R463, R495, R554, R623). -/
namespace Sys2Proof.Machine
open Sys2Proof

/-! ## Agreement and prologues (R397, R398) -/

/-- Zero the bytes from `lo` to `hi` inclusive where a condition holds. -/
def zeroIf (b : Bool) (lo hi : Nat) (d : Desc) : Desc := if b then patch d lo (zeros (hi + 1 - lo)) else d

/-- Replace one byte by its bits under a mask, where a condition holds. -/
def maskIf (b : Bool) (o m : Nat) (d : Desc) : Desc := if b then patch d o [BitVec.ofNat 8 (byteAt d o &&& m)] else d

/-- The descriptor's bytes with every own field and every unused field zero (R397, R398). -/
def agreeDesc (d : Desc) : Desc :=
  let k := dKind d
  let dec := usesDecision d
  zeroIf true 0x30 0x31 <| zeroIf true 0x37 0x37 <| zeroIf true 0x3C 0x3D <| zeroIf true 0x40 0x47 <|
  zeroIf (k != 4) 0x48 0x4F <| zeroIf true 0x50 0x67 <| zeroIf true 0x70 0x77 <|
  maskIf (dGrp d != 0) 0x2C 0x03 <| zeroIf (dGrp d != 1) 0x2D 0x2E <| zeroIf (dGrp d == 2) 0x32 0x33 <|
  zeroIf (!(k == 1 && (dOp d == 0 || dOp d == 1)) && !(k == 4 && dOp d == 1)) 0x34 0x35 <|
  zeroIf (!(k == 1 && dec && (dSieve d == 3 || dSieve d == 4))) 0x2F 0x2F <|
  zeroIf ((k == 1 && !(dec && dPress d)) || k == 4 || (k == 2 && !dHem d)) 0x68 0x6B <|
  zeroIf (!(k == 1 && dec && dSieve d == 5)) 0x6C 0x6F <|
  maskIf (k == 1 && !dec) 0x2A 0xEF <| maskIf (k == 4) 0x29 0x0F <| maskIf (k == 4 && (arithOf d).exact) 0x2A 0xF3 <|
  zeroIf (k == 2 && dOp d == 1) 0x38 0x3B d

/-- Bytes 00h to 57h of a prologue (R398). -/
def agreeOf (d : Desc) : List Byte := d.take 1 ++ slice (agreeDesc d) 0x28 87

/-- This unit's prologue (R398). -/
def prologueBytes (g : Geo) (x : Inst) : List Byte :=
  x.agree ++ [BitVec.ofNat 8 g.own] ++ zeros 7 ++ toLe x.mine.toNat 16 ++ (if dGrp g.desc = 2 then x.list else [])

/-- What a station has of the prologue of carrier `s`, with fuel. -/
def proStm (g : Geo) (x : Inst) (s : Pos) : Nat → Pos → Stm
  | 0, _ => Stm.unknown
  | n + 1, q =>
    if q = s then (if addrOf g.dims s = g.own ∧ x.proSent then Stm.full (prologueBytes g x) false false else Stm.unknown)
    else match (distFrom g s).find? fun t => decide (t.toPos = q) with
      | none => Stm.unknown
      | some t => if mine g t.fromPos then proStm g x s n t.fromPos else
          let r := rxOf x 0xFFFFFFFF t
          { stmOfRx r with done := false }

/-! ## Sending (R398, R410 to R412, R554) -/

/-- What has been sent of a transfer. -/
def txOf (x : Inst) (wire : Nat) (t : Transfer) : TxStream :=
  (x.tx.find? fun e => decide (e.wire.toNat = wire) && e.src == t.src && decide (e.leg = t.leg) && decide (e.fromPos = t.fromPos) && decide (e.toPos = t.toPos)).getD
    { wire := BitVec.ofNat 32 wire, src := t.src, leg := t.leg, fromPos := t.fromPos, toPos := t.toPos, frames := 0, done := false }

/-- Note what has been sent of a transfer. -/
def setTx (d : Dev) (t : Tenant) (coll : W16) (e : TxStream) : Dev :=
  modInst d t coll fun x => { x with
    tx := upsert x.tx (fun y => decide (y.wire = e.wire) && y.src == e.src && decide (y.leg = e.leg) && decide (y.fromPos = e.fromPos) && decide (y.toPos = e.toPos)) e }

/-- A DATA frame (R276, R290). -/
def dataFrame (t : Tenant) (coll : W16) (src wire vc i : Nat) (last : Bool) (pl : List Byte) : TrlFrame :=
  { kind := 1, vc := BitVec.ofNat 3 vc, tenant := t, endChunk := last, src := BitVec.ofNat 6 src, coll := coll,
    chunk := BitVec.ofNat 32 wire, frame := BitVec.ofNat 16 i, dest := 0, payload := pl }

/-- A SIGNAL frame (R554). -/
def signalFrame (t : Tenant) (coll : W16) (src wire vc frames home : Nat) (s : Stm) : TrlFrame :=
  { kind := 2, vc := BitVec.ofNat 3 vc, tenant := t, endChunk := false, src := BitVec.ofNat 6 src, coll := coll,
    chunk := BitVec.ofNat 32 wire, frame := 0, dest := 0, payload := signalPayload s.notice s.noYard s.dropped frames home }

/-- Send what is available of a transfer: every frame behind which more of the chunk is at hand, the frame that ends the chunk, and the SIGNAL once the chunk is done (R276, R285). No SIGNAL follows a prologue. -/
def emitTransfer (d : Dev) (g : Geo) (t : Tenant) (coll : W16) (wire home : Nat) (tr : Transfer) (s : Stm) : Dev :=
  match instAt d t coll, leavesBy g.dims g.own tr with
  | some x, some (q, vc) =>
    let tx := txOf x wire tr
    if tx.done then d
    else
      let len := s.bytes.length
      let total := if s.notice then 0 else if s.whole then ceilDiv len 224 else (len - 1) / 224
      let send (d : Dev) (f : TrlFrame) : Dev := pushTrl d (fin6 q) (.group t coll) 6 f
      let d := each ((List.range total).drop tx.frames) d fun d i =>
        send d (dataFrame t coll tr.src wire vc i (s.whole && i + 1 == total) (slice s.bytes (224 * i) 224))
      let pro := wire == 0xFFFFFFFF
      let fin := if pro then s.whole else s.done && (s.whole || s.notice)
      let d := if fin && !pro then send d (signalFrame t coll tr.src wire vc total home s) else d
      setTx d t coll { tx with frames := total, done := fin }
  | _, _ => d

/-- Send what is available of the chunks of a stream on one path (R408, R409). -/
def emitStream (d : Dev) (g : Geo) (t : Tenant) (coll : W16) (s home : Nat) (tr : Transfer) (st : Stm) : Dev :=
  if st.notice then (if st.done then emitTransfer d g t coll (2 ^ 26 * s) home tr st else d)
  else
    let cb := max (chunkSize g.desc * codeBytes (dIn g.desc)) 1
    let n := st.bytes.length
    let chunks := if st.whole then ceilDiv n cb else n / cb + 1
    each (List.range chunks) d fun d c =>
      let bs := slice st.bytes (c * cb) cb
      let w := bs.length == cb || st.whole
      emitTransfer d g t coll (2 ^ 26 * s + c) home tr { st with bytes := bs, whole := w, done := w }

/-- Send and forward every prologue that is available (R398). -/
def pumpPrologues (d : Dev) (t : Tenant) (coll : W16) : Dev :=
  match instAt d t coll with
  | none => d
  | some x =>
    let g := proGeo d x
    each ((carriersOf g.shape).filter fun p => !hollow g p) d fun d s =>
      each ((distFrom g s).filter fun tr => mine g tr.fromPos && role g tr.toPos != g.own) d fun d tr =>
        emitTransfer d g t coll 0xFFFFFFFF (addrOf g.dims s) tr (proStm g x s stmFuel tr.fromPos)

/-- Whether a transfer's frames depend on the members of other units: an exchange, and the distribution of a reduce-scatter or of a decision (R405, R407, R412). -/
def needsMembers (g : Geo) (tr : Transfer) : Bool :=
  dKind g.desc == 2 || (decide (tr.leg = .dist) && (isScatter g.desc || isDecision g.desc))

/-- Send and forward all the data that is available (R410 to R412). Where no frame depends on the members of other units, no prologue is waited for (R399). -/
def pumpData (d : Dev) (t : Tenant) (coll : W16) : Dev :=
  match instAt d t coll with
  | none => d
  | some x =>
    let g := geoOf d x
    let all := haveAll g x
    each (wiresOf g x) d fun d wire =>
      let home := role g (homeOf g wire)
      each ((transfersFor g wire).filter fun tr => mine g tr.fromPos && role g tr.toPos != g.own && (all || !needsMembers g tr)) d fun d tr =>
        match tr.leg with
        | .pass ax =>
          let v := passOut d g x wire ax tr.fromPos
          emitTransfer d g t coll wire home tr
            { bytes := v.accs.flatMap (accBytes (arithOf g.desc)), whole := v.whole, notice := v.empty, done := v.done && v.whole, noYard := false, dropped := false }
        | .dist =>
          let st := pathCut g x wire tr.fromPos tr.toPos (stmAt d g x wire stmFuel tr.fromPos)
          if dKind g.desc = 2 then emitStream d g t coll (wire / 2 ^ 26) home tr st else emitTransfer d g t coll wire home tr st

/-! ## Staging and commit (R414, R528) -/

/-- Ask for the staging reservation once this unit's prologue has gone and the size is known: that of an all-gather, an exchange or a reduce-scatter needs every prologue (R528). -/
def pumpStaging (c : Cfg) (d : Dev) (t : Tenant) (coll : W16) : Dev :=
  match instAt d t coll with
  | none => d
  | some x =>
    let g := geoOf d x
    if x.stageAsked || !(haveAll g x || (x.proSent && !isStream g.desc && !isScatter g.desc)) then d
    else
      let n := ceilDiv (stagingBytes g x) 65536
      let d := modInst d t coll fun x => { x with stageAsked := true, stageStripes := n, stageOk := n == 0 }
      if n = 0 then d else askStore c d t (.staging coll n)

/-- Commit once every chunk is known to be gathered and results have their space. -/
def pumpCommit (d : Dev) (t : Tenant) (coll : W16) : Dev :=
  match instAt d t coll with
  | none => d
  | some x =>
    let g := geoOf d x
    if !x.committed && haveAll g x && x.stageOk && (wiresOf g x).all (gathered d g x) then
      modInst d t coll fun x => { x with committed := true }
    else d

/-! ## Writing (R406, R407, R416, R418 to R420) -/

/-- Address of core `c`'s output (R361). -/
def coreOut (desc : Desc) (c : Nat) : Nat := dOutAddr desc + (c - (coresOf (dMine desc)).getD 0 0) * dOutStride desc

/-- Bytes at the start of a WRITE frame at `a` that complete an element of `w` bytes begun before it, in a range of elements from `base`. -/
def elemRest (base w : Nat) (it : TxItem) : TxItem :=
  match it.body with
  | .frame (.write _ _ a _) => { it with rest := (w - (a - base) % w) % w }
  | _ => it

/-- The WRITE frames of bytes of a descriptor's output, elements of `w` bytes from `base`, on VC1 in the ring's stream; the frames after the first tell how much of them completes an element (R50, R244). -/
def outItems (r : RingNo) (base w addr : Nat) (bs : List Byte) : List TxItem :=
  match writeItems 1 r.val addr bs with
  | [] => []
  | it :: rest => it :: rest.map (elemRest base (max w 1))

/-- Write bytes of a descriptor's output, of elements that lie from `base`. -/
def outPiece (d : Dev) (p : LPort) (r : RingNo) (base w addr : Nat) (bs : List Byte) : Dev := pushTx d p (outItems r base w addr bs)

/-- Write a range of a descriptor's output. -/
def outWrite (d : Dev) (p : LPort) (r : RingNo) (addr w : Nat) (bs : List Byte) : Dev := outPiece d p r addr w addr bs

/-- The maximal runs of the first `n` bytes at `a` that no range of `above` holds: offset and length of each, ascending. -/
def clearRuns (above : List (Nat × Nat)) (a : Nat) : Nat → List (Nat × Nat) → List (Nat × Nat)
  | 0, acc => acc
  | n + 1, acc =>
    if above.any fun e => decide (e.1 ≤ a + n) && decide (a + n < e.1 + e.2) then clearRuns above a n acc
    else match acc with
      | (s, k) :: rest => if s = n + 1 then clearRuns above a n ((n, k + 1) :: rest) else clearRuns above a n ((n, 1) :: acc)
      | [] => clearRuns above a n [(n, 1)]

/-- Write a range of one core's output, but for the bytes that a higher core of the descriptor writes (R416; log 97). -/
def coreWrite (d : Dev) (p : LPort) (r : RingNo) (above : List (Nat × Nat)) (addr w : Nat) (bs : List Byte) : Dev :=
  if above.any fun e => overlaps e.1 e.2 addr bs.length then
    each (clearRuns above addr bs.length []) d fun d e => outPiece d p r addr w (addr + e.1) (slice bs e.1 e.2)
  else outWrite d p r addr w bs

/-- The rank of a local core in an instance. -/
def rankOf (g : Geo) (x : Inst) (p : LPort) (c : Nat) : Nat := (membersOf g x).idxOf (128 * g.own + 16 * p.val + c)

/-- Whether a reduction writes the winners' indices behind its values (R406). -/
def hasIndices (desc : Desc) : Bool := dRed desc == 2 || dRed desc == 3

/-- The bytes written for `n` reduced elements at `a`: the values, and the indices from the first multiple of 8 from `a` at or after their end (R406). -/
def reducedSpans (desc : Desc) (a n : Nat) : List (Nat × Nat) :=
  let v := n * fmtBytes (dOutFmt desc)
  (a, v) :: if hasIndices desc then [(a + roundUp v 8, 4 * n)] else []

/-- Bytes of an output block of an exchange, and of all blocks of a core (R405, R418). -/
def blockBytesX (desc : Desc) : Nat := (if hemActive desc then dHemCap desc else dCount desc) * codeBytes (dIn desc)

/-- The bytes that an operation with several chunks writes for core `k` of a descriptor (R405 to R407, R418). -/
def coreSpans (g : Geo) (x : Inst) (p : LPort) (y : Run) (k : Nat) : List (Nat × Nat) :=
  let desc := g.desc
  let a := coreOut y.desc k
  let m := (membersOf g x).length
  if dKind desc = 2 then
    (a, m * blockBytesX desc) :: if dOp desc = 1 then [(a + roundUp (m * blockBytesX desc) 8, 4 * m)] else []
  else if isBcast desc then [(a, dCount desc * codeBytes (dOut desc))]
  else if isStream desc then [(a, m * dCount desc * codeBytes (dOut desc))]
  else if isScatter desc then reducedSpans desc a (blockSpan (dCount desc) m (rankOf g x p k)).2
  else if isRooted desc then (if dRoot desc = 128 * g.own + 16 * p.val + k then reducedSpans desc a (dCount desc) else [])
  else reducedSpans desc a (dCount desc)

/-- The bytes that the cores above core `k` of a descriptor write, which prevail over its own (R416). -/
def higherSpans (g : Geo) (x : Inst) (p : LPort) (y : Run) (k : Nat) : List (Nat × Nat) :=
  ((coresOf (dMine y.desc)).filter fun j => decide (k < j)).flatMap (coreSpans g x p y)

/-- Values and winner indices of reduced elements written at a core's output, the first of them element `off` of `n` (R406). -/
def writeReduced (d : Dev) (g : Geo) (p : LPort) (r : RingNo) (above : List (Nat × Nat)) (base n off : Nat) (accs : List Acc) : Dev :=
  let fo := dOutFmt g.desc
  let w := fmtBytes fo
  let d := coreWrite d p r above (base + off * w) w (elemBytes w (accs.map (accOut (arithOf g.desc) fo (dRound g.desc))))
  if hasIndices g.desc then coreWrite d p r above (base + roundUp (n * w) 8 + 4 * off) 4 (accs.flatMap fun a => toLe (accIdx a) 4)
  else d

/-- The reduced elements of a chunk that this unit has, with their element indices. -/
def haveElems (g : Geo) (x : Inst) (wire : Nat) (s : Stm) : List (Nat × Acc) :=
  let q := (myStations g).getD 0 ⟨0, 0, 0⟩
  List.zip (if isScatter g.desc then elemsAt g x wire q else (List.range (chunkLen g.desc wire)).map (· + wire * chunkSize g.desc))
    (accsOfBytes (arithOf g.desc) s.bytes.length s.bytes)

/-- Write a decision stream's bodies for one descriptor that names a receiver: the vector once, then each receiving core's decision without its gaps (R481, R492, R493, R495, R502). -/
def writeDecision (d : Dev) (g : Geo) (p : LPort) (r : RingNo) (y : Run) (bs : List Byte) : Dev :=
  let decB := leNat bs 4 4
  let vecB := leNat bs 8 4
  let w := codeBytes (dOut g.desc)
  let body := slice bs 16 decB
  let cores := (coresOf (dMine y.desc)).filter fun k => dOp g.desc != 1 || dRoot g.desc == 128 * g.own + 16 * p.val + k
  let d := if bitOf (byteAt bs 1) 1 && !cores.isEmpty then outWrite d p r (dVecAddr y.desc) w (slice bs (16 + decB) vecB) else d
  each cores d fun d k =>
    let a := coreOut y.desc k
    if byteAt bs 0 = 1 then
      let vals := sieveQ g.desc * w
      let d := outWrite d p r a w (body.take vals)
      outWrite d p r (a + roundUp vals 8) 4 (body.drop (roundUp vals 8))
    else outWrite d p r a w body

/-- Write one chunk's output for one descriptor (R405 to R407, R416). -/
def writeChunk (d : Dev) (g : Geo) (x : Inst) (p : LPort) (r : RingNo) (y : Run) (wire : Nat) (s : Stm) : Dev :=
  let desc := g.desc
  let off := wire * chunkSize desc
  if isDecision desc then (if s.bytes.isEmpty then d else writeDecision d g p r y s.bytes)
  else each (coresOf (dMine y.desc)) d fun d k =>
    let a := coreOut y.desc k
    let above := higherSpans g x p y k
    let w := codeBytes (dOut desc)
    let conv (l : List Nat) : List Byte := elemBytes w (l.map (convertBits (dInFmt desc) (dOutFmt desc) (dRound desc)))
    if isBcast desc then
      coreWrite d p r above (a + off * w) w (conv (elemsOf (codeBytes (dIn desc)) (chunkLen desc wire) s.bytes))
    else if isStream desc then
      let cpm := chunksOf desc (dCount desc)
      let ci := wire % 2 ^ 26
      let src := (ranksOn g x [wire / 2 ^ 26]).getD (ci / cpm) 0
      coreWrite d p r above (a + (src * dCount desc + ci % cpm * chunkSize desc) * w) w
        (conv (elemsOf (codeBytes (dIn desc)) (chunkLen desc (ci % cpm)) s.bytes))
    else if isScatter desc then
      let (lo, n) := blockSpan (dCount desc) (membersOf g x).length (rankOf g x p k)
      let es := (haveElems g x wire s).filter fun e => decide (lo ≤ e.1) && decide (e.1 < lo + n)
      match es with
      | [] => d
      | e :: _ => writeReduced d g p r above a n (e.1 - lo) (es.map (·.2))
    else if isRooted desc then
      if dRoot desc = 128 * g.own + 16 * p.val + k then writeReduced d g p r above a (dCount desc) off ((haveElems g x wire s).map (·.2)) else d
    else writeReduced d g p r above a (dCount desc) off ((haveElems g x wire s).map (·.2))

/-- One pair stream found in a station's stream: sent count, kept count and kept entries as bits (R419). -/
def findPair (eb : Nat) (want : Nat × Nat) : List (Nat × Nat) → List Byte → Option (Nat × Nat × List Nat)
  | [], _ => none
  | pr :: rest, bs =>
    let kept := leNat bs 4 4
    if pr = want then some (leNat bs 0 4, kept, elemsOf eb kept (bs.drop 8))
    else findPair eb want rest (bs.drop (8 + kept * eb))

/-- The pair (source rank, destination rank) as this unit has it. -/
def pairHere (d : Dev) (g : Geo) (x : Inst) (sr dr : Nat) : Option (Nat × Nat × List Nat) :=
  let s := (membersOf g x).getD sr 0 / 128
  let wire := 2 ^ 26 * s
  let st := ownStm d g x wire
  match myStations g with
  | q :: _ => findPair (codeBytes (dIn g.desc)) (sr, dr) (streamPairs g x s (pathRanks g x (homeOf g wire) q)) (st.bytes.drop 8)
  | [] => none

/-- Write source rank `sr`'s block for one descriptor of an exchange (R416, R418). -/
def writePairs (d : Dev) (g : Geo) (x : Inst) (p : LPort) (r : RingNo) (y : Run) (sr : Nat) : Dev :=
  let eb := codeBytes (dIn g.desc)
  let m := (membersOf g x).length
  let blk := blockBytesX g.desc
  each (coresOf (dMine y.desc)) d fun d k =>
    match pairHere d g x sr (rankOf g x p k) with
    | some (_, kept, es) =>
      let a := coreOut y.desc k
      let above := higherSpans g x p y k
      let d := coreWrite d p r above (a + sr * blk) eb (padTo blk (elemBytes eb es))
      if dOp g.desc = 1 then coreWrite d p r above (a + roundUp (m * blk) 8 + 4 * sr) 4 (toLe kept 4) else d
    | none => d

/-- Whether a descriptor's chunk signals go chunk by chunk: it writes output, as on a rooted operation only the one that names the root does, and on a reduce-scatter one with a block that is not empty; a RESIDENT_ACCUM has additions on its unit (R405, R407, R420, R422, R600). -/
def runWrites (g : Geo) (x : Inst) (p : LPort) (y : Run) : Bool :=
  let ra := dKind g.desc == 4
  let block (j : Nat) : Bool := decide (0 < (blockSpan (dCount g.desc) (membersOf g x).length j).2)
  if isRooted g.desc then rootUnit g.desc == g.own && (ra || (dRoot g.desc % 128 / 16 == p.val && bitOf (dMine y.desc) (dRoot g.desc % 16)))
  else if isScatter g.desc then
    if ra then (ranksOn g x [g.own]).any block else (coresOf (dMine y.desc)).any fun k => block (rankOf g x p k)
  else true

/-- Signals that an instance applies for one descriptor: how many chunks code 1 counts, and the elements of each (R420). -/
def signalCount (g : Geo) (x : Inst) : Nat × Nat :=
  if dKind g.desc = 2 then ((membersOf g x).length, 0)
  else if isStream g.desc then ((wiresOf g x).length, chunkSize g.desc)
  else (chunksOf g.desc (dCount g.desc), chunkSize g.desc)

/-- Queue a chunk signal behind the output frames that precede it (R420). -/
def pushSignal (c : Cfg) (d : Dev) (p : LPort) (r : RingNo) (y : Run) (amount element step : Nat) : Dev :=
  match physPeg c (tenantOf c p) (ringAt d p r).hdr.windowBase (dChunkPeg y.desc) with
  | some peg =>
    let pop := if dChunkSig y.desc = 1 then 3 else 1
    pushTx d p [{ vc := 1, stream := r.val, body := .signal { peg := peg, pop := pop, amount := amount, element := element, step := step } }]
  | none => d

/-! ## Resident accumulation (R422, R462, R463, R517) -/

/-- The elements of the result that this unit adds into its region. -/
def addElems (g : Geo) (x : Inst) : List Nat :=
  if (ranksOn g x [g.own]).isEmpty then []
  else if isRooted g.desc then (if rootUnit g.desc = g.own then List.range (dCount g.desc) else [])
  else if isScatter g.desc then
    let m := (membersOf g x).length
    (ranksOn g x [g.own]).flatMap fun j => let b := blockSpan (dCount g.desc) m j; (List.range b.2).map (· + b.1)
  else List.range (dCount g.desc)

/-- Record `HEADROOM` on every descriptor of the instance here: the lowest refused element, and how many (R462, R463). -/
def noteHeadroom (c : Cfg) (d : Dev) (x : Inst) (refused : List Nat) : Dev :=
  match refused with
  | [] => d
  | i :: _ => each x.runs d fun d e => bumpTenant c (modRun d e.1 e.2 fun y => noteExc y 1 i refused) x.tenant 9

/-- Whether any source of an exchange reports a drop (R419). -/
def anyDrop (d : Dev) (g : Geo) (x : Inst) : Bool :=
  (wiresOf g x).any fun w => let s := ownStm d g x w; if s.notice then s.dropped else s.bytes.getD 0 0 == 1

/-- Whether the decision unit found no block, as this unit knows it (R494). -/
def noYardHere (d : Dev) (g : Geo) (x : Inst) : Bool :=
  isDecision g.desc && (let s := ownStm d g x 0; if s.notice then s.noYard else bitOf (byteAt s.bytes 1) 0)

/-- What an instance has found that its descriptors' warnings tell: that no block lies at the address, and that an exchange dropped an entry (R374, R389, R419, R494). -/
def foundWarnings (d : Dev) (g : Geo) (x : Inst) : W16 :=
  BitVec.ofNat 16 (8 * b2n (x.noYard || noYardHere d g x) + 16 * b2n (dKind g.desc == 2 && anyDrop d g x))

/-- Put what an instance has found into the warnings of its descriptors here, so that they carry it however they end (R374, R389). -/
def noteFound (d : Dev) (t : Tenant) (coll : W16) : Dev :=
  match instAt d t coll with
  | none => d
  | some x =>
    let w := foundWarnings d (geoOf d x) x
    if w = 0 then d else each x.runs d fun d e => modRun d e.1 e.2 fun y => { y with warnings := y.warnings ||| w }

/-- Finish every unfinished descriptor of an instance here. `aux` is M once every prologue has come, and before that the members as named (R377). -/
def finishInst (d : Dev) (x : Inst) (status : Byte) : Dev :=
  let g := geoOf d x
  let m := (membersOf g x).length
  each x.runs d fun d e => modRun d e.1 e.2 fun y =>
    if y.finished then y else { y with status := status, finished := true, aux := if haveAll g x then m else y.aux, evGraft := y.evGraft || x.grafted }

/-! ## The end of an instance (R396, R400, R430, R623) -/

/-- The number of the next instance of a key (R623). -/
def nextNum (d : Dev) (t : Tenant) (coll : W16) : W16 := (d.coll.numbers.lookup (t, coll)).getD 0

/-- Prologues completed from a unit of a key. -/
def proSeen (d : Dev) (t : Tenant) (coll : W16) (u : Nat) : W16 := (d.coll.proCount.lookup (t, coll, u)).getD 0

/-- Count a completed prologue. -/
def countPro (d : Dev) (t : Tenant) (coll : W16) (u : Nat) : Dev :=
  { d with coll := { d.coll with proCount := upsert d.coll.proCount (fun e => e.1 == (t, coll, u)) ((t, coll, u), proSeen d t coll u + 1) } }

/-- What an ended instance's descriptors, by their place of admission, have still to be recorded before its staging is released. -/
def unrecorded (d : Dev) (x : Inst) : List Nat :=
  x.runs.filterMap fun e => (ringAt d e.1 e.2).cur.map (·.no)

/-- Let go of an ended instance's staging: at once where every descriptor is recorded, else with the last record; and of the holds that ended with a link down (R527, R528). -/
def endStore (d : Dev) (x : Inst) : Dev :=
  let left := unrecorded d x
  let d := if left.isEmpty then releaseStaging d x
    else modStore (releaseStaging d { x with stageStripes := 0 }) fun s => { s with
      owed := if x.stageOk && x.stageStripes != 0 then s.owed ++ [(x.tenant, x.stageStripes, left)] else s.owed }
  let n := ((x.ghosts.filter fun e => e.2.holdOk).map fun e => e.2.holdStripes).sum
  modStore d fun s => { s with held := s.held.set x.tenant (s.held[x.tenant] - n) }

/-- What stays known of an instance that has ended (R633, R643). -/
def closedOf (x : Inst) : Relay × W16 :=
  ({ tenant := x.tenant, coll := x.coll, agree := x.agree, list := x.list, base := x.base, masks := x.masks, taken := [] }, x.num)

/-- Remove the open instance of a key, and let go of its space. -/
def closeInst (d : Dev) (t : Tenant) (coll : W16) : Dev :=
  match instAt d t coll with
  | none => d
  | some x =>
    let d := endStore d x
    { d with coll := { d.coll with
      insts := d.coll.insts.filter fun y => !(y.tenant == t && y.coll == coll)
      closed := upsert d.coll.closed (fun e => e.1.tenant == t && e.1.coll == coll) (closedOf x) } }

/-- Whether frames of a key still wait to be sent. -/
def framesWait (d : Dev) (t : Tenant) (coll : W16) : Bool :=
  allTrl.any fun i => d.trl[i].txq.any fun it => decide (it.owner = .group t coll)

/-- The wire indices whose transfers an instance awaits: after a Graft no prologue beyond those that its members came by (R635). -/
def openWires (g : Geo) (x : Inst) : List Nat := (if x.grafted || x.goesOn then [] else [0xFFFFFFFF]) ++ wiresOf g x

/-- Whether a transfer that this unit receives or passes on has still to come, in part or whole. -/
def stillComes (g : Geo) (x : Inst) (wire : Nat) (tr : Transfer) : Bool :=
  tr.route.isSome && (mine g tr.toPos && role g tr.fromPos != g.own || passesBy g tr) &&
  (if wire = 0xFFFFFFFF ∨ dKind g.desc ≠ 2 then rxWaits x wire tr else let s := recvStm g x wire tr; !(s.done || s.notice))

/-- Whether a transfer that this unit sends has not been sent. -/
def stillGoes (g : Geo) (x : Inst) (wire : Nat) (tr : Transfer) : Bool :=
  tr.route.isSome && mine g tr.fromPos && role g tr.toPos != g.own && !(txOf x wire tr).done

/-- Whether the instance waits for a prologue, a frame or a notice of another carrier (R421). -/
def awaitsFrames (g : Geo) (x : Inst) : Bool :=
  !(haveAll g x) || (openWires g x).any fun wire => (transfersFor g wire).any (stillComes g x wire)

/-- Whether every transfer that this unit sends, receives or passes on for an instance is done. After a Graft no prologue is awaited beyond those that its members came by (R635). -/
def transfersDone (g : Geo) (x : Inst) : Bool :=
  (!(x.grafted || x.goesOn) || haveAll g x) &&
  (openWires g x).all fun wire => (transfersFor g wire).all fun tr => !(stillComes g x wire tr) && !(stillGoes g x wire tr)

end Sys2Proof.Machine
end

