-- ==== Sys2Proof/Machine/CollRun.lean ====
section
/-! DEFINITION. The course of an instance on a unit: writing after commit, opening, joining, aborting, ending, and the Trellis frames that it takes or relays (R396 to R434, R495, R554, R623, R624, R635). -/
namespace Sys2Proof.Machine
open Sys2Proof

/-! ## Writing after commit (R416, R420, R422) -/

/-- The parts in which output is written: chunks, or source ranks of an exchange. -/
def writeParts (g : Geo) (x : Inst) : Nat := if dKind g.desc = 2 then (membersOf g x).length else (wiresOf g x).length

/-- Whether part `k` of the output is at hand on this unit. -/
def partReady (d : Dev) (g : Geo) (x : Inst) (k : Nat) : Bool :=
  if dKind g.desc = 2 then
    let s := ownStm d g x (2 ^ 26 * ((membersOf g x).getD k 0 / 128))
    s.notice || s.done
  else gathered d g x ((wiresOf g x).getD k 0)

/-- The first element index of part `k`, which a tally exception of its signal reports (R420). -/
def partElement (g : Geo) (x : Inst) (k : Nat) : Nat :=
  if dKind g.desc = 2 then k * (if hemActive g.desc then dHemCap g.desc else dCount g.desc)
  else if isStream g.desc then
    let wire := (wiresOf g x).getD k 0
    let cpm := chunksOf g.desc (dCount g.desc)
    let ci := wire % 2 ^ 26
    (ranksOn g x [wire / 2 ^ 26]).getD (ci / cpm) 0 * dCount g.desc + ci % cpm * chunkSize g.desc
  else k * chunkSize g.desc

/-- Add one chunk of a RESIDENT_ACCUM into the region. Where a word of it is bad, which of the elements without a bad word were added before the stop is open (R422, R517, R522, R540; log 78). -/
def addChunk (c : Cfg) (d : Dev) (g : Geo) (x : Inst) (wire : Nat) (s : Stm) : Dev × Bool :=
  let mineE := addElems g x
  let es := (haveElems g x wire s).filter fun e => mineE.contains e.1
  let bad := ((es.flatMap fun e => elemWords c x.tenant g.desc e.1).eraseDups).filter fun w => !wordGood d w
  if bad.isEmpty then
    (each es d fun d e => elemAdd c d x.tenant g.desc (membersOf g x).length e.1 e.2, true)
  else
    let (k, d) := draw d
    let done := es.filter fun e => Config.addPerformed k e.1 && (elemWords c x.tenant g.desc e.1).all (wordGood d)
    (meetBad (each done d fun d e => elemAdd c d x.tenant g.desc (membersOf g x).length e.1 e.2) bad, false)

/-- The bad words that hold counts of this unit's elements, which exact mode reads before any addition (R462, R522). -/
def badCounts (c : Cfg) (d : Dev) (g : Geo) (x : Inst) : List Nat :=
  if (arithOf g.desc).exact then (((addElems g x).flatMap (countWords c x.tenant g.desc)).eraseDups).filter fun w => !wordGood d w else []

/-- The additions of one part, of a RESIDENT_ACCUM alone: none where a count word is bad; and whether no bad word was met. -/
def addPart (c : Cfg) (d : Dev) (g : Geo) (x : Inst) (wire : Nat) (s : Stm) (badK : List Nat) : Dev × Bool :=
  if badK.isEmpty then (if dKind g.desc = 4 then addChunk c d g x wire s else (d, true)) else (meetBad d badK, false)

/-- Sent and kept counts over the pairs that a descriptor's cores send and receive: entries dropped at the source and at the destination (R419). -/
def droppedBy (d : Dev) (g : Geo) (x : Inst) (p : LPort) (y : Run) : Nat × Nat :=
  let m := (membersOf g x).length
  let cores := coresOf (dMine y.desc)
  let src := ((List.range cores.length).map fun j => ((membersOf g x).map fun gm => let n := sentCount g.desc y j gm; n - hemKept g.desc n).sum).sum
  let dst := (cores.map fun k => ((List.range m).map fun sr => match pairHere d g x sr (rankOf g x p k) with
    | some (n, kept, _) => n - kept
    | none => 0).sum).sum
  (src, dst)

/-- The last part is written: remaining signals, the result fields, and the descriptors are ready for their records (R372 to R377, R416, R420). -/
def finishWriting (c : Cfg) (d : Dev) (t : Tenant) (coll : W16) : Dev :=
  match instAt d t coll with
  | none => d
  | some x =>
    let g := geoOf d x
    let d := each x.runs (noteFound d t coll) fun d e => match (ringAt d e.1 e.2).cur with
      | none => d
      | some y =>
        if y.finished then d
        else
          let (ds, dd) := if dKind g.desc = 2 then droppedBy d g x e.1 y else (0, 0)
          let w : W16 := BitVec.ofNat 16 (16 * b2n (decide (0 < ds)))
          let d := modRun d e.1 e.2 fun y => { y with droppedSrc := ds, droppedDst := dd, warnings := y.warnings ||| w }
          if dChunkSig y.desc = 0 then d
          else if runWrites g x e.1 y then (if dChunkSig y.desc = 2 then pushSignal c d e.1 e.2 y 1 0 0 else d)
          else
            let (n, step) := signalCount g x
            pushSignal c d e.1 e.2 y (if dChunkSig y.desc = 1 then n else 1) 0 step
    finishInst d x 0

/-- Part `k` of the output for the descriptor of one ring, and the signal that follows it (R416, R420, R422). -/
def writePart (c : Cfg) (d : Dev) (g : Geo) (x : Inst) (wire : Nat) (s : Stm) (k : Nat) (e : LPort × RingNo) : Dev :=
  match (ringAt d e.1 e.2).cur with
  | none => d
  | some y =>
    if y.finished then d
    else
      let d := if dKind g.desc == 4 then modRun d e.1 e.2 fun y => { y with spoolPending := true }
        else if dKind g.desc = 2 then writePairs d g x e.1 e.2 y k
        else writeChunk d g x e.1 e.2 y wire s
      if dChunkSig y.desc = 1 ∧ runWrites g x e.1 y then pushSignal c d e.1 e.2 y 1 (partElement g x k) 0 else d

/-- A bad word ends the additions of an instance here: every descriptor ends with CHECK_ERROR, and the fault of the Spool controller is due (R522). -/
def failAdds (d : Dev) (x : Inst) : Dev :=
  let d := finishInst d x 0x22
  let d := each x.runs d fun d e => modRun d e.1 e.2 fun y => { y with metFault := true }
  { d with recov := { d.recov with due := d.recov.due ++ [(5, 0)] } }

/-- Write the next part of the output where it is at hand, and say whether anything was done. Nothing is written before every local member's descriptor has joined, since one that disagrees ends the instance without output (R397, R400). DEDUCED: log entry 76. -/
def writeStep (c : Cfg) (d : Dev) (t : Tenant) (coll : W16) : Dev × Bool :=
  match instAt d t coll with
  | none => (d, false)
  | some x =>
    let g := geoOf d x
    let k := x.written
    let ra := dKind g.desc == 4
    let clearing := x.runs.any fun e => match (ringAt d e.1 e.2).cur with
      | some y => y.clearing
      | none => false
    if !x.committed || x.frozen || x.spoiled || x.aborted.isSome || !allJoined d x || writeParts g x ≤ k || (ra && clearing) || !partReady d g x k then (d, false)
    else
      let wire := (wiresOf g x).getD k 0
      let s := ownStm d g x wire
      let next (d : Dev) (n : Nat) : Dev := modInst d t coll fun x => { x with written := n }
      let badK := if ra && k == 0 then badCounts c d g x else []
      let refused := if ra && k == 0 && badK.isEmpty then (addElems g x).filter (elemRefuses c d t g.desc (membersOf g x).length) else []
      let d := noteHeadroom c d x refused
      if isExcRestart c && !refused.isEmpty then (finishInst (next d (writeParts g x)) x 0x25, true)
      else
        let (d, ok) := addPart c d g x wire s badK
        if !ok then
          (failAdds (next d (writeParts g x)) x, true)
        else
          let d := next (each x.runs d fun d e => writePart c d g x wire s k e) (k + 1)
          (if writeParts g x ≤ k + 1 then finishWriting c d t coll else d, true)

/-- Write every part that is at hand, with fuel. -/
def writeAll (c : Cfg) (t : Tenant) (coll : W16) : Nat → Dev → Dev
  | 0, d => d
  | n + 1, d =>
    let (d, more) := writeStep c d t coll
    if more then writeAll c t coll n d else d

/-! ## Pumping -/

/-- Send this unit's prologue once it may go: a hold is taken, or the instance was opened by a prologue; only a carrier sends one (R398, R525). -/
def pumpOwnPrologue (d : Dev) (t : Tenant) (coll : W16) : Dev :=
  modInst d t coll fun x =>
    if x.proSent then x
    else
      let held := x.runs.any fun e => match (ringAt d e.1 e.2).cur with
        | some y => y.holdOk
        | none => false
      if (x.byReceipt || held || x.aborted.isSome) && isCarrier (geoOf d x) then
        { x with proSent := true, masks := upsert x.masks (fun e => e.1 == ownAddr d) (ownAddr d, x.mine) }
      else x

/-- Do everything that an instance can do now. A frozen instance sends and writes nothing (R632), nor does one whose data met an uncorrectable error (R51, R476, R504; log 104); an aborted one sends its prologue only. -/
def pumpInst (c : Cfg) (d : Dev) (t : Tenant) (coll : W16) : Dev :=
  match instAt d t coll with
  | none => d
  | some x =>
    let d := noteFound d t coll
    if x.spoiled then d
    else if x.frozen then pumpCommit d t coll
    else
      let d := pumpPrologues (pumpOwnPrologue d t coll) t coll
      if x.aborted.isSome then d
      else
        let d := pumpData (pumpStaging c d t coll) t coll
        let d := pumpData (pumpCommit d t coll) t coll
        match instAt d t coll with
        | some x => writeAll c t coll (writeParts (geoOf d x) x + 1) d
        | none => d

/-! ## Opening, joining and aborting -/

/-- A new instance of a key, whose axes count from a unit of its group: this one, or the sender of the prologue that opens it (R361, R396, R623, R624). -/
def newInst (c : Cfg) (d : Dev) (t : Tenant) (coll : W16) (agree list : List Byte) (base : Nat) (byReceipt : Bool) : Inst :=
  let g := groupOf (descOfAgree agree) list base
  { tenant := t, coll := coll, num := nextNum d t coll, agree := agree, list := list, base := base, opened := true,
    masks := [], removed := [], covered := 0, mine := localMembers c d t g, runs := [], ghosts := [], aborted := none, proSent := false,
    rx := [], tx := [], committed := false, written := 0, decision := none, noYard := false, pressDone := false, pressOut := none,
    stageStripes := 0, stageOk := false, stageAsked := false, frozen := false, round := 0, verdictRound := 0,
    view := viewOf d, surv := surviving d, openView := viewOf d, openSurv := surviving d, toRemove := [], kept := [], parked := [],
    sent := List.replicate 24 0, taken := List.replicate 24 0, skip := List.replicate 24 0, grafted := false, reformDue := false,
    byReceipt := byReceipt, goesOn := false, spoiled := false }

/-- The body of a STATE (R620). -/
def stateBody (committed : Bool) (sent : List Nat) : List Byte :=
  [BitVec.ofNat 8 (b2n committed)] ++ zeros 7 ++ sent.flatMap fun n => toLe n 4

/-- The STATEs held for an instance. -/
def statesOf (d : Dev) (t : Tenant) (coll num : W16) : List Report :=
  (d.coll.states.filter fun e => e.1 == t && e.2.1 == coll && e.2.2.1 == num).map (·.2.2.2)

/-- Whether an instance number lies half the numbers or more before another of its key: what is kept of it is forgotten, as its number comes again. -/
def numPast (num old : W16) : Bool := decide (32768 ≤ (num - old).toNat && (num - old).toNat ≤ 65280)

/-- Keep a STATE, unless one of its unit and round is held already (R643). What is held of instances long past goes. -/
def addState (d : Dev) (t : Tenant) (coll num : W16) (r : Report) : Dev :=
  if (statesOf d t coll num).any (fun q => q.unit == r.unit && q.round == r.round) then d
  else { d with coll := { d.coll with
    states := (d.coll.states.filter fun e => !(e.1 == t && e.2.1 == coll && numPast num e.2.2.1)) ++ [(t, coll, num, r)]
    verdicts := d.coll.verdicts.filter fun e => !(e.1.1 == t && e.1.2.1 == coll && numPast num e.1.2.2) } }

/-- Open an instance: its number is taken, an ABORT that came before opens it aborted, and a STATE that came before freezes it (R396, R623, R632). -/
def openInst (c : Cfg) (d : Dev) (t : Tenant) (coll : W16) (agree list : List Byte) (base : Nat) (byReceipt : Bool) : Dev :=
  let x := newInst c d t coll agree list base byReceipt
  let ab := (d.coll.preAborts.find? fun e => e.1 == t && e.2.1 == coll && e.2.2.1 == x.num).map (·.2.2.2)
  let fr := (statesOf d t coll x.num).map (·.round)
  let round := fr.foldl max 0
  let x := { x with aborted := ab, frozen := !fr.isEmpty && ab.isNone, round := round }
  let d := { d with coll := { d.coll with
    insts := d.coll.insts ++ [x]
    numbers := upsert d.coll.numbers (fun e => e.1 == (t, coll)) ((t, coll), x.num + 1)
    preAborts := d.coll.preAborts.filter fun e => !(e.1 == t && e.2.1 == coll && e.2.2.1 == x.num) } }
  if x.frozen then
    flood (addState d t coll x.num { unit := ownAddr d, round := round, committed := false, sent := List.replicate 24 0 }) 2 t.val round coll.toNat x.num.toNat (stateBody false (List.replicate 24 0))
  else d

/-- Send this unit's prologue if it has not gone yet, so that the i-th prologue of every unit belongs to instance i even where an abort came first (R399, R623). -/
def forcePrologue (d : Dev) (t : Tenant) (coll : W16) : Dev :=
  pumpPrologues (modInst d t coll fun x =>
    if x.proSent || !isCarrier (geoOf d x) then x
    else { x with proSent := true, masks := upsert x.masks (fun e => e.1 == ownAddr d) (ownAddr d, x.mine) }) t coll

/-- End the open instance with a status on this unit (R400, R623). -/
def endInst (d : Dev) (t : Tenant) (coll : W16) (status : Byte) : Dev :=
  let d := forcePrologue d t coll
  match instAt d t coll with
  | none => d
  | some x => closeInst (finishInst d x status) t coll

/-- Decide on an abort: it is sent to every carrier, and the instance ends here (R400). -/
def abortInst (d : Dev) (t : Tenant) (coll : W16) (status : Byte) : Dev :=
  match instAt d t coll with
  | none => d
  | some x => endInst (flood d 4 t.val 0 coll.toNat x.num.toNat [status]) t coll status

/-- Local indices of leaves that are lost: a core count was fixed, and the link is down (R180, R617). They are members no more, and not absent (R66, R624). -/
def lostLeafMask (d : Dev) : BitVec 128 :=
  allLem.foldl (fun m p => if d.lem[p].fixedCount.isSome && !portPresent d p && d.lem[p].outOfUse.isNone then
      m ||| BitVec.ofNat 128 ((2 ^ d.lem[p].accepted.toNat - 1) * 2 ^ (16 * p.val))
    else m) 0

/-- The members on this unit that a group names, whether they are present or not. -/
def ownNamed (c : Cfg) (d : Dev) (t : Tenant) (g : Group) : BitVec 128 :=
  if (memberUnits d.sow.dims g).contains (ownAddr d) then namedMask c (ownAddr d) t g (ownAddr d) else 0

/-- Whether one of this unit's own members is absent, and not of a lost leaf (R58, R66, R400, R624). -/
def ownAbsent (c : Cfg) (d : Dev) (t : Tenant) (g : Group) : Bool :=
  (ownNamed c d t g &&& ~~~(lostLeafMask d) &&& ~~~(presentMask c d)) != 0

/-- What an instance may not be formed for: its root on a lost party, a transfer without a route, or one of this unit's own members absent (R58, R400, R624). -/
def formCheck (c : Cfg) (d : Dev) (x : Inst) : Byte :=
  let g := geoOf d x
  let rootLost := (isBcast g.desc || isRooted g.desc) && g.view.lost.contains (rootUnit g.desc)
  let rootOff := (isBcast g.desc || isRooted g.desc) && rootUnit g.desc == g.own && (lostLeafMask d).getLsbD (dRoot g.desc % 128)
  if ownAbsent c d x.tenant (groupOf g.desc x.list x.base) then 3
  else if rootLost || rootOff then 0x24
  else if d.recov.isolated && (carriersOf g.shape).any (fun p => addrOf g.dims p != g.own) then 0x28
  else if anyUnrouted g (if isStream g.desc then [] else List.range (min 12 (chunksOf g.desc (dCount g.desc)))) then 0x28
  else 0

/-- Whether this unit's source stream of an exchange of unequal sizes, whose counts are all known once every local member's descriptor has joined, has more than 2²⁶ − 1 chunks (R408). -/
def streamTooLong (d : Dev) (x : Inst) : Bool :=
  let desc := instDesc x
  let pair (n : Nat) : Nat := 8 + hemKept desc n * codeBytes (dIn desc)
  dKind desc == 2 && dOp desc == 1 && allJoined d x &&
  decide (67108863 * (chunkSize desc * codeBytes (dIn desc)) < 8 + (x.runs.map fun e => match (ringAt d e.1 e.2).cur with
    | some y => ((List.range (coresOf (dMine y.desc)).length).map fun j => (y.named.map fun gm => pair (sentCount desc y j gm)).sum).sum
    | none => 0).sum)

/-- An instance that opened aborted closes once every local member is covered (R623). -/
def closeAborted (d : Dev) (t : Tenant) (coll : W16) : Dev :=
  match instAt d t coll with
  | some x => if x.aborted.isSome && (x.covered &&& x.mine) == x.mine && x.proSent then closeInst d t coll else d
  | none => d

/-- Open an instance and check that it can be formed. -/
def openChecked (c : Cfg) (d : Dev) (t : Tenant) (coll : W16) (agree list : List Byte) (base : Nat) (byReceipt : Bool) : Dev :=
  let d := openInst c d t coll agree list base byReceipt
  match instAt d t coll with
  | some x => if x.aborted.isNone && formCheck c d x ≠ 0 then abortInst (pumpInst c d t coll) t coll (formCheck c d x) else d
  | none => d

/-- A descriptor joins the open instance of its key (R396, R397, R400, R623). -/
def joinInst (c : Cfg) (d : Dev) (t : Tenant) (p : LPort) (r : RingNo) (y : Run) (x : Inst) : Dev :=
  let mask := mineMask p y.desc
  let coll := x.coll
  let d := modRun d p r fun y => { y with joined := true }
  match x.aborted with
  | some st =>
    let d := modInst d t coll fun x => { x with covered := x.covered ||| mask }
    closeAborted (pumpInst c (modRun d p r fun y => { y with status := st, finished := true }) t coll) t coll
  | none =>
    let d := modInst d t coll fun x => { x with covered := x.covered ||| mask, runs := x.runs ++ [(p, r)] }
    if agreeOf y.desc ≠ x.agree ∨ (dGrp y.desc = 2 ∧ y.list ≠ x.list) then abortInst (pumpInst c d t coll) t coll 9
    else if (instAt d t coll).any (streamTooLong d) then abortInst (pumpInst c d t coll) t coll 1
    else pumpInst c d t coll

/-- Place an admitted collective descriptor: it opens an instance, joins the open one, or is held (R396). -/
def placeColl (c : Cfg) (d : Dev) (p : LPort) (r : RingNo) (y : Run) : Dev :=
  let t := tenantOf c p
  let coll := dColl y.desc
  match instAt d t coll with
  | some x => if (x.covered &&& mineMask p y.desc) = 0 then joinInst c d t p r y x else d
  | none =>
    let d := openInst c d t coll (agreeOf y.desc) (if dGrp y.desc = 2 then y.list else []) (ownAddr d) false
    match instAt d t coll with
    | some x =>
      let d := joinInst c d t p r y x
      if x.aborted.isNone && formCheck c d x ≠ 0 then abortInst d t coll (formCheck c d x) else d
    | none => d

/-! ## Frames that arrive (R399, R402, R424, R554, R623) -/

/-- A frame's place among the counts of R620: input port and virtual channel. -/
def countIdx (q : TPort) (vc : Nat) : Nat := 4 * q.val + (vc - 1)

/-- The virtual channel of the hop by which a transfer enters this unit (R280). -/
def entryVc (g : Geo) (q : Nat) (t : Transfer) : Nat :=
  match t.route with
  | none => 0
  | some r => (((List.zip r (transferVcs g.dims t)).find? fun e =>
      e.1.2 == facingPort q && facing g.dims e.1.1 e.1.2 == g.own).map (·.2)).getD 0

/-- Take a frame into what has been received of a transfer. A SIGNAL whose code is reserved, or whose count does not match, is none (R554). -/
def rxTake (r : RxStream) (f : TrlFrame) (keep pro : Bool) : Option RxStream :=
  if f.kind = 1 then
    let r := { r with bytes := if keep then r.bytes ++ f.payload else r.bytes, frames := r.frames + 1, ended := f.endChunk }
    some { r with done := r.done || (pro && f.endChunk) }
  else
    let k := byteAt f.payload 0
    let n := leNat f.payload 4 4
    if (k = 1 ∧ n = r.frames ∧ r.ended) ∨ (k = 2 ∧ n = 0 ∧ r.frames = 0) then
      some { r with done := true, notice := k == 2, noYard := bitOf (byteAt f.payload 1) 0, dropped := bitOf (byteAt f.payload 1) 1, home := byteAt f.payload 8 % 64 }
    else none

/-- Send a frame on by the hop of its transfer that leaves this unit (R281, R403). -/
def relayBy (d : Dev) (g : Geo) (q : TPort) (t : Transfer) (f : TrlFrame) : Dev :=
  match leavesBy g.dims g.own t with
  | some (o, vc) => pushTrl d (fin6 o) (ownerOf f) q.val { f with vc := BitVec.ofNat 3 vc }
  | none => d

/-- Act on a complete prologue that the open instance has received (R399). -/
def takePrologue (c : Cfg) (d : Dev) (t : Tenant) (coll : W16) (u : Nat) (bs : List Byte) : Dev :=
  match instAt d t coll with
  | none => d
  | some x =>
    let list := bs.drop 0x70
    let mask : BitVec 128 := BitVec.ofNat 128 (leNat bs 0x60 16)
    let grp2 := dGrp (instDesc x) == 2
    let bad := bs.take 88 ≠ x.agree || (grp2 && (list ≠ x.list || mask ≠ listMask x.list u))
    if x.aborted.isSome then d
    else if bad then abortInst (pumpInst c d t coll) t coll 9
    else modInst d t coll fun x => { x with masks := upsert x.masks (fun e => e.1 == u) (u, mask) }

/-- What has been received of a transfer, or the empty start of it. -/
def rxStart (x : Inst) (q : TPort) (f : TrlFrame) (tr : Transfer) : RxStream :=
  (rxOf x f.chunk.toNat tr).getD
    { port := q.val, src := f.src.toNat, wire := f.chunk, leg := tr.leg, fromPos := tr.fromPos, toPos := tr.toPos, bytes := [], frames := 0, ended := false, done := false,
      notice := false, noYard := false, dropped := false, home := 0 }

/-- Whether a frame is the next of a transfer: DATA carries the index of its frame, and a SIGNAL ends what came (R277, R554). A unit with two stations may receive two transfers of one chunk side by side. -/
def isNextOf (x : Inst) (q : TPort) (f : TrlFrame) (tr : Transfer) : Bool :=
  let r := rxStart x q f tr
  !r.done && (if f.kind = 1 then !r.ended && f.frame.toNat == r.frames % 65536 else (rxTake r f false false).isSome)

/-- Whether a transfer is part of a distribution, which brings results. -/
def isDist (t : Transfer) : Bool := decide (t.leg = .dist)

/-- Act on a frame of the open instance of a key (R399, R554). A result frame that arrives before the staging reservation waits for it (R528). A frame that does not fit the run is discarded and counted; a frozen instance keeps it for the rerun, to which it may belong (R635). -/
def deliver (c : Cfg) (d : Dev) (x : Inst) (q : TPort) (f : TrlFrame) : Dev :=
  let t := x.tenant
  let coll := x.coll
  let wire := f.chunk.toNat
  let pro := wire == 0xFFFFFFFF
  let g := if pro then proGeo d x else geoOf d x
  let fits := (entering g wire q.val f.src.toNat).filter fun tr => entryVc g q.val tr == f.vc.toNat
  let next := fits.find? (isNextOf x q f)
  if x.aborted.isSome && !pro then trlDiscard d q
  else if !pro && !x.stageOk && next.all isDist && fits.any (fun tr => isDist tr && endsAt g.dims tr == some g.own) then
    modInst d t coll fun x => { x with parked := x.parked ++ [(q.val, f)] }
  else
    let drop := if x.frozen then d else trlDiscard d q
    match next with
    | none => drop
    | some tr =>
      let ends := endsAt g.dims tr == some g.own
      match rxTake (rxStart x q f tr) f (ends || dKind g.desc == 2) pro with
      | none => drop
      | some r =>
        let d := modInst d t coll fun x => { x with
          rx := upsert x.rx (fun e => sameRx e r.wire.toNat tr) r }
        let d := if ends then d else relayBy d g q tr f
        let d := if pro && r.done && ends then takePrologue c d t coll r.src r.bytes else d
        pumpInst c d t coll

/-- The open instance takes a frame that is its own. It is counted, and a frame of a run that a rerun has replaced goes no further unless it is part of a prologue; a frozen instance keeps it beside processing it (R632, R635). -/
def takeFrame (c : Cfg) (d : Dev) (x : Inst) (q : TPort) (f : TrlFrame) : Dev :=
  let ci := countIdx q f.vc.toNat
  let old := decide (0 < x.skip.getD ci 0)
  let d := modInst d x.tenant x.coll fun x => { x with
    taken := x.taken.modify ci (· + 1)
    skip := if old then x.skip.modify ci (· - 1) else x.skip
    kept := if x.frozen then x.kept ++ [(q.val, f)] else x.kept }
  if old && f.chunk != 0xFFFFFFFF then d else deliver c d x q f

/-- The kept frames of a key from one port and source, in order. -/
def earlyOf (d : Dev) (q : TPort) (f : TrlFrame) : List TrlFrame :=
  (d.coll.early.filter fun e => e.1 == q.val && e.2.tenant == f.tenant && e.2.coll == f.coll && e.2.src == f.src).map (·.2)

/-- The last prologue among kept frames: its bytes. -/
def lastPrologue (fs : List TrlFrame) : List Byte :=
  fs.foldl (fun bs f => if f.chunk = 0xFFFFFFFF then (if f.frame = 0 then f.payload else bs ++ f.payload) else bs) []

/-- The instance number to which a frame belongs: the i-th prologue of a unit opens instance i, and later frames belong to it (R399, R623). A frame of this unit's own that a detour brings back belongs to the open instance. -/
def frameNum (d : Dev) (f : TrlFrame) : W16 :=
  let n := proSeen d f.tenant f.coll f.src.toNat
  match instAt d f.tenant f.coll with
  | some x => if f.src.toNat = ownAddr d then x.num else if f.chunk = 0xFFFFFFFF then n else n - 1
  | none => if f.chunk = 0xFFFFFFFF then n else n - 1

/-- Whether a prologue's group gives this unit a role. -/
def hasRole (d : Dev) (bs : List Byte) (src : Nat) : Bool :=
  let desc := descOfAgree (bs.take 88)
  !(myStations (geoFor d desc (bs.drop 0x70) src)).isEmpty

/-- The schedule's data for a group that this unit relays. -/
def relayGeo (d : Dev) (y : Relay) : Geo := geoFor d (descOfAgree y.agree) y.list y.base

/-- Note a group whose frames this unit only relays, and the members that this prologue names; a further prologue of a unit begins the next instance. Several groups of one key, which share no carrier, are kept side by side (R62). -/
def setRelay (d : Dev) (t : Tenant) (coll : W16) (bs : List Byte) (src : Nat) : Dev :=
  let new : Relay := { tenant := t, coll := coll, agree := bs.take 88, list := bs.drop 0x70, base := src, masks := [], taken := List.replicate 24 0 }
  let same (e : Relay) : Bool := e.tenant == t && e.coll == coll && (relayGeo d e).shape == (relayGeo d new).shape
  let old := match d.coll.relays.find? same with
    | some e => if e.agree = new.agree ∧ e.list = new.list ∧ (e.masks.lookup src).isNone then e else new
    | none => new
  { d with coll := { d.coll with relays := upsert d.coll.relays same { old with masks := old.masks ++ [(src, BitVec.ofNat 128 (leNat bs 0x60 16))] } } }

/-- The relayed group and the transfer to which a frame belongs. -/
def relayOf (d : Dev) (q : TPort) (f : TrlFrame) : Option (Geo × Transfer) :=
  d.coll.relays.findSome? fun e =>
    if e.tenant == f.tenant && e.coll == f.coll then
      ((entering (relayGeo d e) f.chunk.toNat q.val f.src.toNat).head?).map fun tr => (relayGeo d e, tr)
    else none

/-- Count a frame that a noted group's relay has passed on (R635). -/
def countRelayed (d : Dev) (g : Geo) (q : TPort) (f : TrlFrame) : Dev :=
  { d with coll := { d.coll with relays := d.coll.relays.map fun e =>
    if e.tenant = f.tenant ∧ e.coll = f.coll ∧ (relayGeo d e).shape = g.shape then { e with taken := e.taken.modify (countIdx q f.vc.toNat) (· + 1) } else e } }

/-- Relay a frame of a group in which this unit has no role: along the route of its transfer, on the channel that the route gives (R62, R80, R403). -/
def relayFrame (d : Dev) (q : TPort) (f : TrlFrame) : Dev :=
  match relayOf d q f with
  | none => trlDiscard d q
  | some (g, tr) => if entryVc g q.val tr ≠ f.vc.toNat then trlDiscard d q else relayBy (countRelayed d g q f) g q tr f

/-- Whether a unit may send frames of an instance: it is a carrier of its group, holds a carrier's role, or is this unit, to which a detour brings its own frames back. -/
def isParty (d : Dev) (x : Inst) (u : Nat) : Bool :=
  u == ownAddr d || (carriersOf (geoOf d x).shape).any fun p => addrOf d.sow.dims p == u || role (geoOf d x) p == u || role (proGeo d x) p == u

/-- Forget kept frames of one port and source. -/
def dropEarly (d : Dev) (q : TPort) (f : TrlFrame) : Dev :=
  { d with coll := { d.coll with early := d.coll.early.filter fun e => !(e.1 == q.val && e.2.tenant == f.tenant && e.2.coll == f.coll && e.2.src == f.src) } }

/-- Hand kept frames of a key to the open instance they belong to: frames of one source up to that source's next prologue. With fuel. -/
def drainEarly (c : Cfg) (t : Tenant) (coll : W16) : Nat → Dev → Dev
  | 0, d => d
  | n + 1, d => match instAt d t coll with
    | none => d
    | some x =>
      let ready := d.coll.early.find? fun e => e.2.tenant == t && e.2.coll == coll &&
        (earlyOf d (fin6 e.1) e.2).head? == some e.2 &&
        (if e.2.chunk = 0xFFFFFFFF then (x.masks.lookup e.2.src.toNat).isNone else (x.masks.lookup e.2.src.toNat).isSome)
      match ready with
      | none => d
      | some e =>
        let d := { d with coll := { d.coll with early := d.coll.early.erase e } }
        drainEarly c t coll n (takeFrame c d x (fin6 e.1) e.2)

/-- Open an instance from the first kept prologue of a key, where none is open: on a carrier without members, or with one that is absent; on any other the prologue waits for a descriptor (R398 to R400). DEDUCED: log entry 77. -/
def openFromEarly (c : Cfg) (d : Dev) (t : Tenant) (coll : W16) : Dev :=
  match instAt d t coll with
  | some _ => drainEarly c t coll d.coll.early.length d
  | none =>
    match d.coll.early.find? fun e => e.2.tenant == t && e.2.coll == coll && e.2.chunk == 0xFFFFFFFF && e.2.endChunk with
    | none => d
    | some e =>
      let fs := earlyOf d (fin6 e.1) e.2
      let bs := lastPrologue (fs.take (fs.idxOf e.2 + 1))
      let desc := descOfAgree (bs.take 88)
      let list := if dGrp desc = 2 then bs.drop 0x70 else []
      let g := groupOf desc list e.2.src.toNat
      if localMembers c d t g ≠ 0 ∧ ownAbsent c d t g = false then d
      else
        let d := openChecked c d t coll (bs.take 88) list e.2.src.toNat true
        closeAborted (pumpInst c (drainEarly c t coll d.coll.early.length d) t coll) t coll

/-- A prologue frame arrives (R398, R399). -/
def prologueFrame (c : Cfg) (d : Dev) (q : TPort) (f : TrlFrame) : Dev :=
  let t := f.tenant
  if d.recov.restart[t] ≠ .none then trlDiscard d q else
  let coll := f.coll
  let num := frameNum d f
  let u := f.src.toNat
  let proDone (x : Inst) : Bool := x.rx.any fun r => r.src == u && r.wire == 0xFFFFFFFF && r.done
  let moreDue (x : Inst) : Bool :=
    (entering (proGeo d x) 0xFFFFFFFF q.val u).any (rxWaits x 0xFFFFFFFF)
  let cur := match instAt d t coll with
    | some x => if isParty d x u ∧ (x.num = num ∨ (x.num + 1 = num ∧ proDone x ∧ moreDue x)) then some x else none
    | none => none
  match cur with
  | some x =>
    let d := if f.endChunk && !proDone x then countPro d t coll u else d
    takeFrame c d x q f
  | none =>
    let d := { d with coll := { d.coll with early := d.coll.early ++ [(q.val, f)] } }
    if !f.endChunk then d
    else
      let fs := earlyOf d q f
      let bs := lastPrologue fs
      let d := countPro d t coll u
      let next := nextNum d t coll
      if !hasRole d bs u then
        let d := setRelay (dropEarly d q f) t coll bs u
        each (fs.filter fun e => e.chunk == 0xFFFFFFFF) d fun d e => relayFrame d q e
      else if (num - next).toNat < 32768 then openFromEarly c d t coll
      else each (fs.filter fun e => e.chunk == 0xFFFFFFFF) (dropEarly d q f) fun d _ => trlDiscard d q

/-- A DATA frame of a chunk, or a SIGNAL, arrives (R80, R299, R399). -/
def chunkFrame (c : Cfg) (d : Dev) (q : TPort) (f : TrlFrame) : Dev :=
  let t := f.tenant
  if d.recov.restart[t] ≠ .none then trlDiscard d q else
  let coll := f.coll
  let num := frameNum d f
  match instAt d t coll with
  | some x =>
    let degraded := !(viewOf d).lost.isEmpty || !(viewOf d).cut.isEmpty
    if !isParty d x f.src.toNat ∧ (relayOf d q f).isSome then relayFrame d q f
    else if x.num = num ∨ (degraded ∧ (x.masks.lookup f.src.toNat).isNone) then takeFrame c d x q f
    else if (num - x.num).toNat < 32768 then { d with coll := { d.coll with early := d.coll.early ++ [(q.val, f)] } }
    else trlDiscard d q
  | none =>
    if (relayOf d q f).isSome then relayFrame d q f
    else if num = nextNum d t coll ∧ !(earlyOf d q f).isEmpty then { d with coll := { d.coll with early := d.coll.early ++ [(q.val, f)] } }
    else trlDiscard d q

/-! ## The end -/

/-- Place held collective descriptors again, in order of admission (R396, R430). -/
def placeHeldColl (c : Cfg) (d : Dev) : Dev :=
  each (heldRings d isColl) d fun d e => match (ringAt d e.1 e.2).cur with
    | some y => if !y.joined ∧ !y.finished then placeColl c d e.1 e.2 y else d
    | none => d

/-- End every instance that is done: committed, written, every record sent, every transfer complete and sent (R396, R430). -/
def endDone (d : Dev) : Dev :=
  each d.coll.insts d fun d x =>
    let g := geoOf d x
    if x.committed && !x.frozen && x.runs.isEmpty && decide (writeParts g x ≤ x.written) && transfersDone g x && !framesWait d x.tenant x.coll
    then closeInst d x.tenant x.coll else d

/-- Take the result frames that waited for a staging reservation which has now been granted (R528). -/
def unpark (c : Cfg) (d : Dev) : Dev :=
  each (d.coll.insts.filter fun x => x.stageOk && !x.parked.isEmpty) d fun d x =>
    each x.parked (modInst d x.tenant x.coll fun x => { x with parked := [] }) fun d e =>
      match instAt d x.tenant x.coll with
      | some y => deliver c d y (fin6 e.1) e.2
      | none => d

/-- After anything that may end an instance: results that waited for space are taken, ended instances close, held descriptors open the next, and kept prologues open theirs. -/
def settleColl (c : Cfg) (d : Dev) : Dev :=
  let d := placeHeldColl c (endDone (unpark c d))
  each (d.coll.early.map fun e => (e.2.tenant, e.2.coll)).eraseDups d fun d k => openFromEarly c d k.1 k.2

end Sys2Proof.Machine
end

