-- ==== Sys2Proof/Machine/Admit.lean ====
section
/-! DEFINITION. The checks of a descriptor before its admission: groups and members, ranges, dependencies, pegs, and the warnings (R248, R324, R361, R371, R374, R388, R404, R483, R493, R515, R525, R622). -/
namespace Sys2Proof.Machine
open Sys2Proof

/-! ## Members as named -/

/-- Whether a descriptor names a member list (R361). -/
def wantsList (desc : Desc) : Bool := hasGroup (dKind desc) && dGrp desc == 2

/-- Whether a descriptor names a counts table (R363). -/
def wantsCounts (desc : Desc) : Bool := dKind desc == 2 && dOp desc == 1

/-- The members that a group names on a unit: none on a unit outside it. -/
def namedOn (c : Cfg) (d : Dev) (t : Tenant) (g : Group) (u : Nat) : BitVec 128 :=
  if (memberUnits d.sow.dims g).contains u then namedMask c (ownAddr d) t g u else 0

/-- The members named on a unit that are not on a lost unit or, on this unit, a lost leaf (R624). -/
def liveNamed (c : Cfg) (d : Dev) (t : Tenant) (g : Group) (u : Nat) : BitVec 128 :=
  if (viewOf d).lost.contains u then 0
  else namedOn c d t g u &&& ~~~(if u = ownAddr d then lostLeafMask d else 0)

/-- The original M, by which every range is checked before the run (R607). -/
def namedCount (c : Cfg) (d : Dev) (t : Tenant) (g : Group) : Nat :=
  ((List.range (unitsIn d.sow.dims)).map fun u => popCount (liveNamed c d t g u)).sum

/-- The global numbers of the members named, ascending, by which a descriptor's inputs and counts are laid out (R401, R405, R417, R607). -/
def namedMembers (c : Cfg) (d : Dev) (t : Tenant) (g : Group) : List Nat :=
  (List.range (unitsIn d.sow.dims)).flatMap fun u => (bitsSet (liveNamed c d t g u)).map (· + 128 * u)

/-- The rank of a core of port `p` among the members named (R401). -/
def namedRank (c : Cfg) (d : Dev) (t : Tenant) (g : Group) (p : LPort) (k : Nat) : Nat :=
  let own := ownAddr d
  ((List.range own).map fun u => popCount (liveNamed c d t g u)).sum +
    ((List.range (16 * p.val + k)).filter fun e => (liveNamed c d t g own).getLsbD e).length

/-- Whether a descriptor on port `p` names the root among its cores. -/
def hasRootHere (d : Dev) (p : LPort) (desc : Desc) : Bool :=
  rootUnit desc == ownAddr d && dRoot desc % 128 / 16 == p.val && bitOf (dMine desc) (dRoot desc % 16)

/-- Whether an operation has a root (R404, R405). -/
def hasRoot (desc : Desc) : Bool := isBcast desc || isRooted desc

/-! ## Leaf ranges (R248) -/

/-- What is known of the sizes: M, unless the member list was not read, and the counts table, unless it was not. -/
structure Known where
  m : Option Nat
  counts : Option (List Byte)
  deriving DecidableEq, Repr

/-- Input ranges of a descriptor, as far as their sizes are known. -/
def inputRanges (d : Dev) (p : LPort) (desc : Desc) (kn : Known) : List (Nat × Nat) :=
  if !isColl (dKind desc) then []
  else
    let cores := coresOf (dMine desc)
    (List.range cores.length).filterMap fun j =>
      let k := cores.getD j 0
      let n := inBytes desc (kn.m.getD 0) (kn.counts.getD []) j (dRoot desc == 128 * ownAddr d + 16 * p.val + k)
      if dKind desc = 2 ∧ (kn.m.isNone ∨ (dOp desc = 1 ∧ kn.counts.isNone)) then none
      else some (dInAddr desc + (k - cores.getD 0 0) * dInStride desc, n)

/-- Output ranges of a descriptor, as far as their sizes are known, the intermediate vector's among them. -/
def outputRanges (c : Cfg) (d : Dev) (p : LPort) (desc : Desc) (list : List Byte) (kn : Known) : List (Nat × Nat) :=
  let cores := coresOf (dMine desc)
  let g := ownGroup d desc list
  let needM := dKind desc == 2 || (dKind desc == 1 && (dOp desc == 3 || dOp desc == 4))
  let outs := if !(dKind desc == 1 || dKind desc == 2) || (needM && kn.m.isNone) then []
    else cores.map fun k =>
      (coreOut desc k, outBytes desc (kn.m.getD 0) (namedRank c d (tenantOf c p) g p k) (dRoot desc == 128 * ownAddr d + 16 * p.val + k))
  let vec := if isDecision desc && dWantVec desc && (dOp desc == 2 || hasRootHere d p desc) then [(dVecAddr desc, dCount desc * codeBytes (dOut desc))] else []
  let flush := if dKind desc = 5 then [(leNat desc 0x40 8, dCount desc * codeBytes (dOut desc))] else []
  outs ++ vec ++ flush

/-- The range of the counts table (R363). -/
def countsRange (desc : Desc) (m : Nat) : Nat × Nat := (dCountsAddr desc, 4 * m * (coresOf (dMine desc)).length)

/-- Every leaf range that a descriptor names, as far as the sizes are known (R371). -/
def leafRanges (c : Cfg) (d : Dev) (p : LPort) (desc : Desc) (list : List Byte) (kn : Known) : List (Nat × Nat) :=
  (if isColl (dKind desc) ∧ dRecipeOps desc ≠ 0 then [(dRecipeAddr desc, 16 * dRecipeOps desc)] else []) ++
  (if wantsList desc then [(dListAddr desc, 1024)] else []) ++
  (if wantsCounts desc then (kn.m.map (countsRange desc)).toList else []) ++
  (if dKind desc = 3 ∧ !(bitOf (byteAt desc 0x29) 0) then [(leNat desc 0x38 8, loadBytes desc)] else []) ++
  inputRanges d p desc kn ++ outputRanges c d p desc list kn

/-- Whether a range, if it has any byte, lies inside a window. -/
def rangeInside (h : Hello) (r : Nat × Nat) : Bool := r.2 == 0 || inWindow h r.1 r.2

/-! ## The ranks of R371 -/

/-- Rank 1 as far as the group decides it: `my_cores` and `root` name members, and a sub-block stays inside the torus (R361, R404). -/
def groupValid (c : Cfg) (d : Dev) (p : LPort) (desc : Desc) (list : Option (List Byte)) : Bool :=
  if !hasGroup (dKind desc) then true
  else
    let t := tenantOf c p
    let g := ownGroup d desc (list.getD [])
    blockInside d.sow.dims g &&
    ((wantsList desc && list.isNone) ||
      (mineMask p desc &&& ~~~(namedOn c d t g (ownAddr d)) == 0 &&
       (!hasRoot desc || (namedOn c d t g (rootUnit desc)).getLsbD (dRoot desc % 128))))

/-- Rank 1 as far as an exchange's M and counts decide it: a core's counts sum to at most 2³² − 1, and no source stream has more than 2²⁶ − 1 chunks (R408, R417, R419). Of unequal sizes, the counts of the descriptor's own cores are known. DEDUCED: log entry 75. -/
def exchangeFits (c : Cfg) (d : Dev) (p : LPort) (desc : Desc) (list : List Byte) (kn : Known) : Bool :=
  let limit := 67108863 * (chunkSize desc * codeBytes (dIn desc))
  let pair (n : Nat) := 8 + hemKept desc n * codeBytes (dIn desc)
  match dKind desc, dOp desc, kn.m, kn.counts with
  | 2, 0, some m, _ =>
    let g := ownGroup d desc list
    (List.range (unitsIn d.sow.dims)).all fun u => decide (8 + popCount (liveNamed c d (tenantOf c p) g u) * (m * pair (dCount desc)) ≤ limit)
  | 2, 1, some m, some cs =>
    let own := List.range (coresOf (dMine desc)).length
    own.all (fun j => decide (countSum cs m j ≤ 0xFFFFFFFF)) &&
    decide (8 + (own.map fun j => ((List.range m).map fun r => pair (countAt cs m j r)).sum).sum ≤ limit)
  | _, _, _, _ => true

/-- Rank 3: a listed member of another tenant (R65). -/
def tenantBad (c : Cfg) (d : Dev) (t : Tenant) (desc : Desc) (list : Option (List Byte)) : Bool :=
  match list with
  | some l => wantsList desc && (List.range (unitsIn d.sow.dims)).any fun u =>
      (listMask l u &&& useMask c (ownAddr d) u &&& ~~~(tenantMask c (ownAddr d) u t)) != 0
  | none => false

/-- Local indices that certainly have no core on a unit: ports not in use, and cores above the largest count of R146. -/
def absentMask (c : Cfg) (own u : Nat) : BitVec 128 :=
  let cap := coreCap (unitCode c own u 10)
  ~~~((List.range (portsInUse (unitCode c own u 10))).foldl (fun m p => m ||| BitVec.ofNat 128 ((2 ^ cap - 1) * 2 ^ (16 * p))) 0)

/-- Rank 4: a named core that is absent (R66, R624). This unit's own cores are judged by presence, those of others by their configuration; a carrier finds its own absences under R400. -/
def memberAbsent (c : Cfg) (d : Dev) (p : LPort) (desc : Desc) (list : Option (List Byte)) : Bool :=
  let t := tenantOf c p
  let own := ownAddr d
  if dKind desc = 6 then
    (List.range 4).any fun k =>
      let e := dEntry desc k
      ePop e != 0 && eSpace e == 1 && decide (coresOn c d p ≤ ePeg e / 256 % 16)
  else if !hasGroup (dKind desc) || (wantsList desc && list.isNone) then false
  else
    let g := ownGroup d desc (list.getD [])
    (memberUnits d.sow.dims g).any fun u =>
      if u = own then (namedMask c own t g u &&& ~~~(presentMask c d) &&& ~~~(lostLeafMask d)) != 0
      else if g.kind = 2 ∧ (unitsIn d.sow.dims ≤ u ∨ (viewOf d).lost.contains u) then true
      else (namedMask c own t g u &&& absentMask c own u) != 0

/-- Rank 5: a tenant-relative range beyond the share, or no directory entry for a YARD_LOAD (R70, R483, R515). A decision COLLECTIVE whose `yard_addr` lies beyond the share is not refused here: it finds no block (R484, R494; log 85). -/
def shareBad (c : Cfg) (d : Dev) (p : LPort) (desc : Desc) : Bool :=
  let t := tenantOf c p
  match dKind desc with
  | 3 =>
    decide (yardShare c t < leNat desc 0x30 4 + loadBytes desc) ||
    (bitOf (byteAt desc 0x29) 0 && decide (spoolShare c t < leNat desc 0x38 8 + loadBytes desc)) ||
    (freeEntry c (dropBlocks d t (leNat desc 0x30 4) (loadBytes desc)) t).isNone
  | 4 => (dOp desc != 1 || rootUnit desc == ownAddr d) && decide (spoolShare c t < dSpoolAddr desc + regionBytes desc)
  | 5 => decide (spoolShare c t < dSpoolAddr desc + regionBytes desc)
  | _ => false

/-- Rank 7: an invalid descriptor dependency (R324). -/
def depBad (c : Cfg) (d : Dev) (p : LPort) (desc : Desc) : Bool :=
  (List.range 4).any fun k =>
    let e := dDep desc k
    byteAt e 0 == 1 &&
    (decide (8 ≤ byteAt e 1) || decide (8 ≤ byteAt e 2) || !inUse c (fin8 (byteAt e 1)) ||
     tenantOf c (fin8 (byteAt e 1)) != tenantOf c p || (ringAt d (fin8 (byteAt e 1)) (fin8 (byteAt e 2))).st == .off)

/-- Whether a descriptor names a pool peg, through a dependency, an entry or a field; a line barrier of a tenant without pegs does not (R159). -/
def namesPool (c : Cfg) (d : Dev) (p : LPort) (desc : Desc) : Bool :=
  (List.range 4).any (fun k => byteAt (dDep desc k) 0 == 2) ||
  (dKind desc == 6 && (List.range 4).any fun k => ePop (dEntry desc k) != 0 && eSpace (dEntry desc k) == 0) ||
  (isColl (dKind desc) && dChunkSig desc != 0) || (dKind desc == 7 && !(lineWithoutPegs c d p desc))

/-- The status of the first check that applies, 0 where none does (R371, R622). `failed` says that the member list or the counts table could not be read. -/
def judgeStatus (c : Cfg) (d : Dev) (p : LPort) (r : RingNo) (desc : Desc) (list : Option (List Byte)) (kn : Known) (failed : Bool) : Byte :=
  let t := tenantOf c p
  if !bytesValid (unitsIn d.sow.dims) desc || !groupValid c d p desc list || !exchangeFits c d p desc (list.getD []) kn then 1
  else if failed then 0x20
  else if tenantBad c d t desc list then 2
  else if memberAbsent c d p desc list then 3
  else if shareBad c d p desc then 4
  else if (leafRanges c d p desc (list.getD []) kn).any (fun e => !rangeInside d.lem[p].hello e) then 5
  else if depBad c d p desc then 6
  else if namesPool c d p desc && (physPeg c t (ringAt d p r).hdr.windowBase 0).isNone then 7
  else if d.recov.isolated && namesOther d desc (list.getD []) then 0x28
  else 0

/-- The warnings that a descriptor's bytes, ring and group decide (R374, R388). -/
def judgeWarnings (c : Cfg) (d : Dev) (p : LPort) (r : RingNo) (desc : Desc) (list : List Byte) (kn : Known) : W16 :=
  let h := (ringAt d p r).hdr
  let self := (outputRanges c d p desc list kn).any fun e => overlaps e.1 e.2 h.ringBase (128 * 2 ^ h.ringLog2)
  BitVec.ofNat 16 (b2n self + 2 * b2n (exactDowngraded desc) + 4 * b2n (opIgnored desc) +
    32 * b2n (dKind desc == 7 && dUseLine desc && !ownsLine c (tenantOf c p)) +
    64 * b2n (unusedNonzero desc (hasRootHere d p desc)))

/-- Stripes of the hold that a descriptor takes (R525). -/
def holdStripesOf (d : Dev) (p : LPort) (desc : Desc) (kn : Known) : Nat :=
  ceilDiv ((inputRanges d p desc kn).map (·.2)).sum 65536

end Sys2Proof.Machine
end

