-- ==== Sys2Proof/Machine/LemSend.lean ====
section
/-! DEFINITION. What a leaf port sends next, and the first transmission of a frame: the arbiter of R709 over the waiting items, with the streams of R245 and the tags of R240 (R228, R231, R240, R245, R320, R709). -/
namespace Sys2Proof.Machine
open Sys2Proof

/-! ## Waiting reads -/

/-- The ring that a read belongs to. -/
def whyRing : ReadWhy → RingNo
  | .header r | .slots r _ _ | .recipe r | .memberList r _ | .counts r _ | .input r _ _ | .yardSrc r _ => r

/-- Whether a read is of a header. -/
def isHeader : ReadWhy → Bool
  | .header _ => true
  | _ => false

/-- Whether a read is of descriptor slots. -/
def isSlots : ReadWhy → Bool
  | .slots .. => true
  | _ => false

/-- Whether a read is of the head descriptor's recipe, member list or counts table. -/
def isHeadRead : ReadWhy → Bool
  | .recipe _ | .memberList .. | .counts .. => true
  | _ => false

/-- Whether a read is bulk data of the running descriptor. -/
def isBulk : ReadWhy → Bool
  | .input .. | .yardSrc .. => true
  | _ => false

/-- Whether a waiting item is a read that a test accepts. -/
def itemReads (f : ReadWhy → Bool) (it : TxItem) : Bool :=
  match it.body with
  | .read w => f w.why
  | _ => false

/-! ## The arbiter (R709) -/

/-- Whether a waiting item is a read. -/
def isRead (it : TxItem) : Bool := itemReads (fun _ => true) it

/-- The first waiting item of a stream that is no read: what must go next in that stream (R245). -/
def streamHead (q : List TxItem) (s : Nat) : Option TxItem := q.find? fun it => it.stream == s && !isRead it

/-- Whether a WRITE that waits touches a byte of a range (R320). -/
def writeWaits (q : List TxItem) (a n : Nat) : Bool :=
  q.any fun it => match it.body with
    | .frame (.write _ _ b data) => overlaps a n b data.length
    | _ => false

/-- The lowest tag that is neither outstanding nor retired, where fewer than 1,024 reads are outstanding (R240). -/
def freeTag (x : LemPort) : Option Nat :=
  if x.reads.length < 1024 then (List.range 1024).find? fun t => !(x.reads.any fun o => o.tag == t) && !(x.retired.contains t) else none

/-- Whether the first waiting item of a channel and stream may be sent now (R240, R245, R320). `held` says of which streams the outputs are held back (R632). -/
def itemReady (held : Nat → Bool) (x : LemPort) (it : TxItem) : Bool :=
  match it.body with
  | .read w => (freeTag x).isSome && !((isHeader w.why || isSlots w.why) && writeWaits x.txq w.addr w.size)
  | .frame _ => streamHead x.txq it.stream == some it && !(it.vc == 1 && held it.stream)
  | .signal _ => false

/-- The first item of a channel and stream, where it may be sent. -/
def readyAt (held : Nat → Bool) (x : LemPort) (vc s : Nat) : Option TxItem :=
  match x.txq.find? fun it => it.vc == vc && it.stream == s with
  | some it => if itemReady held x it then some it else none
  | none => none

/-- The item that a channel sends next: the work rings take turns, and stream 8 comes where no ring holds a frame of the channel (R658, R709). -/
def pickIn (held : Nat → Bool) (x : LemPort) (vc : Fin 4) : Option TxItem :=
  let rings := (List.range 8).filterMap fun k => readyAt held x vc.val (((x.turn[vc]).val + k) % 8)
  match rings with
  | it :: _ => some it
  | [] => if vc.val = 2 ∧ x.txq.any (fun it => it.vc == 2 && decide (it.stream < 8)) then none else readyAt held x vc.val 8

/-- Whether VC1 holds a frame that it may send and has credit (R709). -/
def vc1Waits (held : Nat → Bool) (x : LemPort) : Bool := creditLeft x.credit[(1 : Fin 4)] && (pickIn held x 1).isSome

/-- The order in which the channels are tried: VC3, VC0, VC2, VC1, with VC1 first where three frames have gone without it (R709). -/
def vcOrder (x : LemPort) : List (Fin 4) := if 3 ≤ x.sinceVc1 then [1, 3, 0, 2] else [3, 0, 2, 1]

/-- The item that a leaf port sends next. -/
def pickLem (held : Nat → Bool) (x : LemPort) : Option (Fin 4 × TxItem) :=
  (vcOrder x).findSome? fun v => if creditLeft x.credit[v] then (pickIn held x v).map fun it => (v, it) else none

/-- The credit fields of the next frame: what has been freed on each channel (R228). -/
def lemReturns (x : LemPort) : List Nat := x.credit.toList.map fun k => k.freed.toNat

/-- The width on which a port's rate and width row settles (R218): x8 twice, then x4. -/
def lemWidth (x : LemPort) : Nat := if x.mode = 3 then 4 else 8

/-- A frame's bytes leave: they carry the acknowledgement, a NACK that is due, and the credit returns, which the partner then knows (R228, R232). -/
def lemOut (x : LemPort) (seq : Option (BitVec 12)) (body : List Byte) : LemPort :=
  { x with
    wire := withTail body seq x.darn.last x.darn.nackDue
    lanes := dealLanes (lemWidth x) (withTail body seq x.darn.last x.darn.nackDue)
    darn := clearDue x.darn
    credit := x.credit.map fun k => { k with freedSent := k.freed } }

/-- The first transmission of an item: its number, its credit, its turn; a read becomes outstanding (R228, R231, R240). -/
def lemFirst (held : Nat → Bool) (p : LPort) (x : LemPort) (v : Fin 4) (it : TxItem) : LemPort × Option LemTx :=
  let f : Option (LemTx × List ReadOut) := match it.body with
    | .read w => (freeTag x).map fun t => (.readReq w.vc w.addr t w.size, [{ tag := t, want := w, got := [], discard := false }])
    | .frame g => some (g, [])
    | .signal _ => none
  match f with
  | none => (x, none)
  | some (g, rs) =>
    let y := lemOut x (some x.darn.next) (lemBody p g (lemReturns x))
    ({ y with
      darn := darnSend y.darn g
      txq := x.txq.erase it
      reads := x.reads ++ rs
      credit := y.credit.set v (creditSpend y.credit[v])
      turn := if it.stream < 8 then x.turn.set v (fin8 (it.stream + 1)) else x.turn
      sinceVc1 := if v.val ≠ 1 ∧ vc1Waits held x = true then x.sinceVc1 + 1 else 0 }, some g)

/-- Send an item of a leaf port for the first time, counted (R228, R231, R383). -/
def putLem (held : Nat → Bool) (d : Dev) (p : LPort) (v : Fin 4) (it : TxItem) : Dev :=
  bumpLem (modP d p fun x => (lemFirst held p x v it).1) p 0

/-- What a port sends next, where no replay is under way and Darn may hold another frame (R234, R235, R709). -/
def nextLem (held : Nat → Bool) (x : LemPort) : Option (Fin 4 × TxItem) :=
  if x.darn.replay.isEmpty && darnRoom x.darn then pickLem held x else none

end Sys2Proof.Machine
end

