-- ==== Sys2Proof/Machine/RingOps.lean ====
section
/-! DEFINITION. The work rings as shared operations: reads asked for, headers adopted, slots fetched, the head descriptor judged and admitted, input reads begun, and records sent (R306 to R334, R371, R410, R525). -/
namespace Sys2Proof.Machine
open Sys2Proof

/-! ## Reads (R240, R309, R314, R320) -/

/-- Whether the outputs of a port's stream are held back: they are of an instance that is frozen (R632). -/
def heldStream (c : Cfg) (d : Dev) (p : LPort) (s : Nat) : Bool :=
  decide (s < 8) && match (ringAt d p (fin8 s)).cur with
    | some x => isColl (dKind x.desc) && x.joined && (instAt d (tenantOf c p) (dColl x.desc)).any fun y => y.frozen && y.runs.contains (p, fin8 s)
    | none => false

/-- Queue one read. -/
def wantRead (d : Dev) (p : LPort) (w : ReadWant) : Dev :=
  pushTx d p [{ vc := w.vc, stream := (whyRing w.why).val, body := .read w }]

/-- Whether a read of ring `r` that a test accepts is waiting or outstanding. -/
def readsOut (d : Dev) (p : LPort) (r : RingNo) (f : ReadWhy → Bool) : Bool :=
  d.lem[p].txq.any (itemReads fun w => whyRing w == r && f w) ||
  d.lem[p].reads.any fun o => !o.discard && whyRing o.want.why == r && f o.want.why

/-- Forget the waiting reads of ring `r` that a test accepts, and mark its outstanding ones so that their data is discarded (R327). -/
def dropReads (d : Dev) (p : LPort) (r : RingNo) (f : ReadWhy → Bool) : Dev :=
  modP d p fun x => { x with
    txq := x.txq.filter fun it => !(itemReads (fun w => whyRing w == r && f w) it)
    reads := x.reads.map fun o => if whyRing o.want.why == r && f o.want.why then { o with discard := true } else o }

/-- The address of ring `r`'s header (R354). -/
def headerAddr (d : Dev) (p : LPort) (r : RingNo) : Nat := d.lem[p].hello.ringTable + 64 * r.val

/-- Output ranges of the running descriptor of a ring (R334). -/
def runOutputs (c : Cfg) (d : Dev) (p : LPort) (x : Run) : List (Nat × Nat) :=
  outputRanges c d p x.desc x.list { m := some (namedCount c d (tenantOf c p) (ownGroup d x.desc x.list)), counts := some x.counts }

/-- Whether a descriptor that runs on the port writes over ring `r`'s header (R334). -/
def writesHeader (c : Cfg) (d : Dev) (p : LPort) (r : RingNo) (x : Run) : Bool :=
  (runOutputs c d p x).any fun e => overlaps e.1 e.2 (headerAddr d p r) 64

/-- Whether a descriptor that has been admitted on the port, and not yet recorded, writes over ring `r`'s header (R334). -/
def headerBusy (c : Cfg) (d : Dev) (p : LPort) (r : RingNo) : Bool :=
  allRings.any fun q => (ringAt d p q).cur.any (writesHeader c d p r)

/-- Whether a ring may read its header now: it does not run, it is not adopting one already, and a stalled ring waits for the end of its tenant's restart (R308, R333, R628 step 6). -/
def headerOpen (c : Cfg) (d : Dev) (p : LPort) (r : RingNo) : Bool :=
  (ringAt d p r).st != .running && (ringAt d p r).adopting.isNone && ((ringAt d p r).st != .stalled || d.recov.restart[tenantOf c p] == .none)

/-- Read a header once; deferred while an admitted descriptor writes over it (R308, R309, R316, R334). -/
def readHeaderAgain (c : Cfg) (d : Dev) (p : LPort) (r : RingNo) : Dev :=
  if headerBusy c d p r then modR d p r fun x => { x with hdrDeferred := true }
  else wantRead (modR d p r fun x => { x with hdrDeferred := false, retry := x.retry.filter fun w => !isHeader w }) p
    { why := .header r, vc := 0, addr := headerAddr d p r, size := 64 }

/-- Read a header once, unless such a read is under way (R309, R317, R319). -/
def readHeader (c : Cfg) (d : Dev) (p : LPort) (r : RingNo) : Dev :=
  if readsOut d p r isHeader || (ringAt d p r).hdrData.isSome then d else readHeaderAgain c d p r

/-- Make the header reads that were deferred and need be no more (R334). -/
def readDeferred (c : Cfg) (d : Dev) (p : LPort) : Dev :=
  each allRings d fun d r => if (ringAt d p r).hdrDeferred && headerOpen c d p r then readHeader c d p r else d

/-- Defer the header reads that wait to be sent while the descriptor that runs on ring `r` writes over the header (R41, R334). -/
def deferHeaders (c : Cfg) (d : Dev) (p : LPort) (r : RingNo) : Dev :=
  match (ringAt d p r).cur with
  | none => d
  | some x => each allRings d fun d q =>
    let mine (w : ReadWhy) : Bool := isHeader w && whyRing w == q
    if writesHeader c d p q x && d.lem[p].txq.any (itemReads mine) then
      modR (modP d p fun y => { y with txq := y.txq.filter fun it => !(itemReads mine it) }) p q fun y => { y with hdrDeferred := true }
    else d

/-- Read `n` slots from index `i` in one entry. -/
def readSlots (d : Dev) (p : LPort) (r : RingNo) (i : W16) (n : Nat) : Dev :=
  let h := (ringAt d p r).hdr
  wantRead d p { why := .slots r i n, vc := 0, addr := h.ringBase + 128 * slotOf h i, size := 128 * n }

/-- Slots named by a read. -/
def whySlots : ReadWhy → Nat
  | .slots _ _ n => n
  | _ => 0

/-- Slots of ring `r` that have been asked for and not yet taken, those whose data is to be discarded among them while their read is outstanding (R314). -/
def slotsOut (d : Dev) (p : LPort) (r : RingNo) : Nat :=
  (d.lem[p].txq.map fun it => match it.body with
    | .read w => if whyRing w.why = r then whySlots w.why else 0
    | _ => 0).sum +
  (d.lem[p].reads.map fun o => if whyRing o.want.why = r then whySlots o.want.why else 0).sum +
  (ringAt d p r).slotData.length

/-- Fetch onwards while the prefetch window has room: runs of consecutive indices, split where the slots wrap and at 4 KiB (R314). -/
def fetchRuns (p : LPort) (r : RingNo) : Nat → Dev → Dev
  | 0, d => d
  | f + 1, d =>
    let x := ringAt d p r
    let room := 8 - (x.queue.length + slotsOut d p r)
    if x.st ≠ .running ∨ x.waiting ∨ room = 0 then d
    else
      let s := slotOf x.hdr x.nextFetch
      let n := min room (min (2 ^ x.hdr.ringLog2 - s) (32 - s % 32))
      fetchRuns p r f (modR (readSlots d p r x.nextFetch n) p r fun x => { x with nextFetch := x.nextFetch + BitVec.ofNat 16 n })

/-- Fetch onwards: at most 8 runs fill the window. -/
def fetchMore (d : Dev) (p : LPort) (r : RingNo) : Dev := fetchRuns p r 8 d

/-- Read the one slot at which a ring waits (R315). -/
def readWaiting (d : Dev) (p : LPort) (r : RingNo) : Dev :=
  if readsOut d p r isSlots then d
  else readSlots (modR d p r fun x => { x with retry := x.retry.filter fun w => !isSlots w }) p r (ringAt d p r).nextFetch 1

/-! ## The prefetch queue -/

/-- Discard what a ring has fetched, and its head's work (R327, R332, R333). -/
def discardFetched (d : Dev) (p : LPort) (r : RingNo) : Dev :=
  modR (dropReads d p r fun w => isSlots w || isHeadRead w) p r fun x => { x with
    queue := [], head := none, slotData := [], waiting := false, refetches := 0, refetchPending := false,
    retry := x.retry.filter isHeader }

/-- Write the consumed word (R329, R356). -/
def writeConsumed (d : Dev) (p : LPort) (r : RingNo) : Dev :=
  let x := ringAt d p r
  pushTx d p (writeItems 2 r.val x.hdr.consumedAddr (consumedWord x.recorded x.hdr.epoch))

/-! ## The head descriptor (R321, R323, R325, R371) -/

/-- Work on a head that has just reached the front. -/
def Head.new : Head :=
  { stage := .reading, list := none, counts := [], countsLeft := 0, readFailed := false, met := [false, false, false, false],
    status := 0, warnings := 0, recipe := [], recipeTries := 0, watchIds := [none, none, none, none], watchFull := [false, false, false, false] }

/-- A descriptor as admitted. -/
def newRun (d : Dev) (h : Head) (s : Slot) (stripes : Nat) (named : List Nat) : Run :=
  { index := s.index, desc := s.bytes, status := h.status, warnings := h.warnings, exception := 0, excAt := [], element := 0,
    droppedSrc := 0, droppedDst := 0, aux := 0, evGraft := false, lineBar := none, finished := h.status != 0,
    list := h.list.getD [], counts := h.counts, recipe := h.recipe, holdStripes := stripes, holdOk := false, joined := false,
    inputs := [], readsLeft := 0, readDone := false, prepared := false, entry := 0, waitReq := none, clearing := false,
    spoolPending := false, yardStage := 0, metFault := h.status == 0x20, no := d.coll.admitted, named := named }

/-- What a head knows of sizes. -/
def headKnown (c : Cfg) (d : Dev) (p : LPort) (desc : Desc) (h : Head) : Known :=
  { m := if wantsList desc && h.list.isNone then none else some (namedCount c d (tenantOf c p) (ownGroup d desc (h.list.getD []))),
    counts := if wantsCounts desc && !h.readFailed && !(wantsList desc && h.list.isNone) then some h.counts else none }

/-- Admit the head descriptor: it leaves the prefetch queue, which makes room (R314, R321). -/
def admitHead (c : Cfg) (d : Dev) (p : LPort) (r : RingNo) : Dev :=
  match (ringAt d p r).head, (ringAt d p r).queue with
  | some h, s :: rest =>
    let n := holdStripesOf d p s.bytes (headKnown c d p s.bytes h)
    let named := if isColl (dKind s.bytes) && h.status == 0 then namedMembers c d (tenantOf c p) (ownGroup d s.bytes (h.list.getD [])) else []
    let d := modR d p r fun x => { x with queue := rest, head := none, cur := some (newRun d h s n named) }
    fetchMore (deferHeaders c { d with coll := { d.coll with admitted := d.coll.admitted + 1 } } p r) p r
  | _, _ => d

/-- Take the head on from its waiting stage: a status ends its wait at once; with every dependency satisfied its recipe is read, or it is ready (R321, R325). -/
def advanceHead (c : Cfg) (d : Dev) (p : LPort) (r : RingNo) : Dev :=
  match (ringAt d p r).head, (ringAt d p r).queue with
  | some h, s :: _ =>
    if h.stage ≠ .waiting then d
    else if h.status ≠ 0 then
      let d := if h.status = 0x20 then { d with recov := { d.recov with due := d.recov.due ++ [(2, p.val)] } } else d
      admitHead c d p r
    else if h.met.all id then
      if isColl (dKind s.bytes) && dRecipeOps s.bytes != 0 then
        wantRead (modHead d p r fun h => { h with stage := .recipe, recipeTries := 0 }) p
          { why := .recipe r, vc := 0, addr := dRecipeAddr s.bytes, size := 16 * dRecipeOps s.bytes }
      else modHead d p r fun h => { h with stage := .ready }
    else d
  | _, _ => d

/-- End the head's wait with a status (R323, R325). -/
def failHead (c : Cfg) (d : Dev) (p : LPort) (r : RingNo) (status : Byte) : Dev :=
  advanceHead c (modHead d p r fun h => { h with stage := .waiting, status := status }) p r

/-- Send the WATCH of every unsatisfied dependency on a peg of another unit (R551). -/
def sendWatches (c : Cfg) (d : Dev) (p : LPort) (r : RingNo) (desc : Desc) : Dev :=
  each [0, 1, 2, 3] d fun d k =>
    if depRemote d desc k then
      let (id, d) := newReq d
      sendWatch c (modHead d p r fun h => { h with watchIds := h.watchIds.set k (some id) }) p r desc k id 2
    else d

/-- The checks are complete: status and warnings, then the dependencies (R321, R371). -/
def judgeHead (c : Cfg) (d : Dev) (p : LPort) (r : RingNo) : Dev :=
  match (ringAt d p r).head, (ringAt d p r).queue with
  | some h, s :: _ =>
    let kn := headKnown c d p s.bytes h
    let st := judgeStatus c d p r s.bytes h.list kn h.readFailed
    let w := judgeWarnings c d p r s.bytes (h.list.getD []) kn
    let d := modHead d p r fun h => { h with stage := .waiting, status := st, warnings := w }
    if st ≠ 0 then advanceHead c d p r
    else advanceHead c (judgeRing c (sendWatches c d p r s.bytes) p r) p r
  | _, _ => d

/-- Read the head descriptor's member list, in pieces where a 4 KiB boundary cuts it (R240, R371). -/
def readList (d : Dev) (p : LPort) (r : RingNo) (desc : Desc) : Dev :=
  let ps := readPieces (dListAddr desc) 1024
  each ps (modHead d p r fun h => { h with list := some (zeros 1024), countsLeft := ps.length }) fun d e =>
    wantRead d p { why := .memberList r e.1, vc := 0, addr := e.2.1, size := e.2.2 }

/-- Read the head descriptor's counts table, in pieces (R240, R371). -/
def readCounts (d : Dev) (p : LPort) (r : RingNo) (rg : Nat × Nat) : Dev :=
  let ps := readPieces rg.1 rg.2
  each ps (modHead d p r fun h => { h with counts := zeros rg.2, countsLeft := ps.length }) fun d e =>
    wantRead d p { why := .counts r e.1, vc := 0, addr := e.2.1, size := e.2.2 }

/-- The member list is there, or is not to be read: the counts table follows where it can be read, else the checks (R371). -/
def afterList (c : Cfg) (d : Dev) (p : LPort) (r : RingNo) : Dev :=
  match (ringAt d p r).head, (ringAt d p r).queue with
  | some h, s :: _ =>
    let desc := s.bytes
    let rg := countsRange desc (namedCount c d (tenantOf c p) (ownGroup d desc (h.list.getD [])))
    if wantsCounts desc && !h.readFailed && !(wantsList desc && h.list.isNone) && rg.2 != 0 && inWindow d.lem[p].hello rg.1 rg.2 then
      readCounts (modHead d p r fun h => { h with recipeTries := 0 }) p r rg
    else judgeHead c d p r
  | _, _ => d

/-- Start on the descriptor at the head of the prefetch queue once the previous record has been sent (R321, R371). No descriptor of a tenant is admitted while its restart lasts (R628, R707). -/
def startHead (c : Cfg) (d : Dev) (p : LPort) (r : RingNo) : Dev :=
  let x := ringAt d p r
  match x.queue with
  | s :: _ =>
    if x.st = .running ∧ x.cur.isNone ∧ x.head.isNone ∧ d.recov.restart[tenantOf c p] = .none then
      let d := modR d p r fun x => { x with head := some Head.new }
      if wantsList s.bytes && inWindow d.lem[p].hello (dListAddr s.bytes) 1024 then readList d p r s.bytes else afterList c d p r
    else d
  | [] => d

/-! ## Slots and headers that have been read (R310, R313, R315, R333) -/

/-- Take the slots of completed reads in index order, with fuel (R315). Behind a slot that is not new, what other reads of the ring bring, or would bring, is discarded too, as the ring then reads one slot alone (log 89). -/
def takeSlots (p : LPort) (r : RingNo) : Nat → Dev → Dev
  | 0, d => d
  | n + 1, d =>
    let x := ringAt d p r
    match x.slotData.lookup x.intake with
    | none => d
    | some bs =>
      if slotNew x.hdr x.intake bs then
        takeSlots p r n (modR d p r fun x => { x with
          slotData := x.slotData.filter fun e => e.1 != x.intake
          queue := x.queue ++ [{ index := x.intake, bytes := bs }]
          nextFetch := if x.waiting && x.nextFetch == x.intake then x.nextFetch + 1 else x.nextFetch
          refetches := if x.waiting && x.nextFetch == x.intake then 0 else x.refetches
          refetchPending := if x.waiting && x.nextFetch == x.intake then false else x.refetchPending
          waiting := x.waiting && x.nextFetch != x.intake
          intake := x.intake + 1 })
      else
        modR (dropReads d p r isSlots) p r fun x => { x with
          slotData := [], waiting := true, nextFetch := x.intake,
          refetches := if x.refetchPending then 4 else x.refetches, refetchPending := false,
          retry := x.retry.filter fun w => !isSlots w }

/-- Adopt a header (R310). -/
def adoptHeader (c : Cfg) (d : Dev) (p : LPort) (r : RingNo) (h : RingHdr) : Dev :=
  let d := modR (dropReads (discardFetched d p r) p r isHeader) p r fun x => { x with
    hdr := h, hdrInvalid := false, hdrDeferred := false, retry := [], nextFetch := h.startIndex, intake := h.startIndex, recorded := h.startIndex,
    st := if h.ringLog2 = 0 then .off else .running }
  let d := if h.ringLog2 ≠ 0 ∨ (h.consumedAddr % 8 = 0 ∧ inWindow d.lem[p].hello h.consumedAddr 8) then writeConsumed d p r else d
  judgeAll c (fetchMore d p r)

/-- A header that would be adopted is not valid: the ring becomes off (R310). -/
def refuseHeader (d : Dev) (p : LPort) (r : RingNo) : Dev :=
  addCause (modR (discardFetched d p r) p r fun x => { x with st := .off, hdrInvalid := true }) p 3

/-! ## Records (R328 to R331, R372) -/

/-- Whether the last record of an instance on this unit has been sent: no descriptor runs in it, and every local member has had one (R528). -/
def lastRecorded (y : Inst) : Bool := y.runs.isEmpty && (y.covered ||| lookMask y.removed y.base) &&& y.mine == y.mine

/-- A descriptor leaves an instance, which keeps what it holds of it. -/
def leaveOne (p : LPort) (r : RingNo) (x : Run) (y : Inst) : Inst :=
  if y.runs.contains (p, r) then { y with runs := y.runs.filter (· != (p, r)), ghosts := y.ghosts ++ [(p, x)] } else y

/-- The running descriptor of a ring leaves its instance; the last to be recorded releases the instance's staging (R525, R527, R528). -/
def leaveInst (d : Dev) (p : LPort) (r : RingNo) (x : Run) : Dev :=
  let d' : Dev := { d with coll := { d.coll with insts := d.coll.insts.map (leaveOne p r x) } }
  each (d.coll.insts.filter fun y => y.runs.contains (p, r) && lastRecorded (leaveOne p r x y)) d' fun d y =>
    modInst (releaseStaging d y) y.tenant y.coll fun z => { z with stageStripes := 0 }

/-- `ev_line_fallback` of a descriptor that is recorded now: the unit is in line fallback, from a start at or below its barrier's number (R567). -/
def lineEv (d : Dev) (x : Run) : Bool := d.line.fallback && x.lineBar.any fun n => decide (d.line.f ≤ n)

/-- The WRITE of the completion record of a ring's running descriptor (R330, R372). -/
def recordItem (d : Dev) (p : LPort) (r : RingNo) (x : Run) : TxItem :=
  let h := (ringAt d p r).hdr
  { vc := 2, stream := r.val, body := .frame (.write 2 r.val (h.cplBase + 32 * slotOf h x.index)
      (recordBytes x.index x.status (expectedPhase h x.index) x.evGraft (lineEv d x) h.epoch x.warnings x.exception x.excAt.length
        x.element x.droppedSrc x.droppedDst x.aux (Config.freeElapsed d.free))) }

/-- Adopt a header, or refuse it. -/
def settleHeader (c : Cfg) (d : Dev) (p : LPort) (r : RingNo) (bs : List Byte) : Dev :=
  let h := parseHdr bs
  if hdrValid d.lem[p].hello h then adoptHeader c d p r h else refuseHeader d p r

/-- A fence's record has gone: its ring adopts the header that ended it, and a nudge that came meanwhile acts on what the ring has become (R333 step 3, R337). -/
def fenceAdopt (c : Cfg) (d : Dev) (p : LPort) (r : RingNo) : Dev :=
  match (ringAt d p r).adopting with
  | none => d
  | some bs =>
    let nudged := (ringAt d p r).nudged
    let d := settleHeader c (modR d p r fun y => { y with adopting := none, nudged := false }) p r bs
    if nudged && headerOpen c d p r then readHeaderAgain c d p r else d

/-- What follows once a ring's record has left its port: the consumed word, the counts, the hold and the place in the instance, a re-fetch, a fence's adoption, and the next descriptor (R321, R327 to R329, R333, R384, R527). -/
def afterRecord (c : Cfg) (d : Dev) (p : LPort) (r : RingNo) (x : Run) : Dev :=
  let d := modR d p r fun y => { y with recorded := x.index + 1, cur := none }
  let d := bumpLem (bumpRing (writeConsumed d p r) p r false) p 11
  let d := dropReads (releaseHold d (tenantOf c p) p r x) p r isBulk
  let d := leaveInst (paidStaging d x) p r { x with holdOk := false }
  let d := if dRefetch x.desc && (ringAt d p r).st == .running then
      modR (discardFetched d p r) p r fun y => { y with nextFetch := x.index + 1, intake := x.index + 1 }
    else d
  let d := readDeferred c (judgeAll c (fenceAdopt c d p r)) p
  startHead c (fetchMore d p r) p r

/-- Send the completion record of a ring's running descriptor (R330). -/
def sendRecord (c : Cfg) (d : Dev) (p : LPort) (r : RingNo) : Dev :=
  match (ringAt d p r).cur with
  | none => d
  | some x =>
    let it := recordItem d p r x
    afterRecord c (putLem (heldStream c d p) (pushTx (draw d).2 p [it]) p 2 it) p r x

/-- Drop the output frames of a ring that have not been sent, but for the bytes that complete an element of which a part has gone: an element holds its old or its final value whole (R50, R629; log 96). -/
def cutOutputs (r : RingNo) (q : List TxItem) : List TxItem :=
  let mine (it : TxItem) : Bool := it.vc == 1 && it.stream == r.val && !(isRead it)
  let rest := q.filter fun it => !(mine it)
  match q.find? mine with
  | some it => match it.body with
    | .frame (.write v s a bs) => if it.rest = 0 then rest else rest ++ [{ it with body := .frame (.write v s a (bs.take it.rest)), rest := 0 }]
    | _ => rest
  | none => rest

/-- Whether every frame of a ring that must precede its record has been sent, and every chunk signal applied (R330, R420). -/
def outputsSent (d : Dev) (p : LPort) (r : RingNo) : Bool :=
  !(d.lem[p].txq.any fun it => it.vc == 1 && it.stream == r.val && !(itemReads (fun _ => true) it))

/-- Whether the record of a ring's running descriptor is due (R330, R529): a clear of its region under way ends before it. -/
def recordDue (d : Dev) (p : LPort) (r : RingNo) : Bool :=
  match (ringAt d p r).cur with
  | some x => x.finished && outputsSent d p r && !x.clearing && !(dFence x.desc && x.spoolPending)
  | none => false

/-- Whether the record of a ring's running descriptor, which is due, is what its port sends next: it has credit on VC2, and the arbiter chooses it (R228, R348, R709). -/
def recordLeaves (c : Cfg) (d : Dev) (p : LPort) (r : RingNo) : Bool :=
  match (ringAt d p r).cur with
  | some x =>
    let it := recordItem d p r x
    recordDue d p r && d.lem[p].phase == .up && nextLem (heldStream c d p) (pushTx d p [it]).lem[p] == some (2, it)
  | none => false

/-! ## Input reads (R240, R410, R525) -/

/-- Whether the running descriptor of a ring may begin its input reads: its hold is taken, it has joined, and its unit's prologue has gone (R398, R525). -/
def mayRead (c : Cfg) (d : Dev) (p : LPort) (x : Run) : Bool :=
  isColl (dKind x.desc) && x.holdOk && x.joined && !x.prepared && !x.finished &&
  (match instAt d (tenantOf c p) (dColl x.desc) with
   | some y => y.proSent
   | none => false)

/-- Queue the input reads of a running descriptor. -/
def beginReads (c : Cfg) (d : Dev) (p : LPort) (r : RingNo) : Dev :=
  match (ringAt d p r).cur with
  | none => d
  | some x =>
    if !mayRead c d p x then d
    else
      let kn : Known := { m := some (namedCount c d (tenantOf c p) (ownGroup d x.desc x.list)), counts := some x.counts }
      let ranges := List.zip (coresOf (dMine x.desc)) (inputRanges d p x.desc kn)
      let pieces := ranges.flatMap fun e => (readPieces e.2.1 e.2.2).map fun q => (e.1, q)
      let d := modRun d p r fun y => { y with
        prepared := true, readsLeft := pieces.length, readDone := pieces.isEmpty, inputs := ranges.map fun e => (e.1, zeros e.2.2) }
      each pieces d fun d e => wantRead d p { why := .input r e.1 e.2.1, vc := 1, addr := e.2.2.1, size := e.2.2.2 }

/-- Begin every input read that may begin. -/
def beginAllReads (c : Cfg) (d : Dev) : Dev := each allLem d fun d p => each allRings d fun d r => beginReads c d p r

/-- End the running descriptor of a ring by a failed or timed-out read of its data: a fault of this port's leaf (R242, R243, R617). -/
def failBulk (d : Dev) (p : LPort) (r : RingNo) (status : Byte) (cls : Nat) : Dev :=
  match (ringAt d p r).cur with
  | some x =>
    if x.finished then d
    else
      let d := modRun (dropReads d p r isBulk) p r fun x => { x with status := status, finished := true, metFault := true }
      { d with recov := { d.recov with due := d.recov.due ++ [(cls, p.val)] } }
  | none => d

/-! ## A header that has been read (R308, R310, R333) -/

/-- Take a header that has been read (R308, R310, R333). A fence's record goes before the adoption; the header of a ring that is adopting one already is passed over. -/
def takeHeader (c : Cfg) (d : Dev) (p : LPort) (r : RingNo) (bs : List Byte) : Dev :=
  let h := parseHdr bs
  let x := ringAt d p r
  let d := modR d p r fun x => { x with hdrData := none }
  let go := match x.st with
    | .off => true
    | .running => false
    | .fenced => h.epoch != x.hdr.epoch
    | .stalled => h.epoch != x.hdr.epoch && d.recov.restart[tenantOf c p] == .none
  if x.st = .running ∨ x.adopting.isSome then d
  else
    let d := modR d p r fun x => { x with hdrInvalid := !(hdrValid d.lem[p].hello h) }
    if !go then d
    else if x.fenceOpen then
      modRun (modR d p r fun x => { x with fenceOpen := false, adopting := some bs }) p r fun y => { y with finished := true }
    else settleHeader c d p r bs

end Sys2Proof.Machine
end

