-- ==== Sys2Proof/Machine/Recovery.lean ====
section
/-! DEFINITION. Faults, fault restart and Graft as shared operations (spec/17, R616 to R652; R568 to R570, R707). -/
namespace Sys2Proof.Machine
open Sys2Proof

/-- Change the recovery part. -/
def modRec (d : Dev) (f : Rec → Rec) : Dev := { d with recov := f d.recov }

/-! ## What a fault affects (R617, R618) -/

/-- The failed party of a fault class (R617). -/
inductive Party
  | leaf (unit port : Nat)
  | excluded (unit : Nat)
  | lost (unit : Nat)
  | cut (unit port : Nat)
  deriving DecidableEq, Repr

/-- The party that a FAULT's fields name (R620). -/
def partyOf (cls unit port : Nat) : Party :=
  if cls ≤ 4 then .leaf unit port else if cls = 5 then .excluded unit else if cls = 6 then .lost unit else .cut unit port

/-- Local indices of a leaf port. -/
def leafMask (p : Nat) : BitVec 128 := BitVec.ofNat 128 (0xFFFF * 2 ^ (16 * p))

/-- The members of an instance on a unit: as its prologue named them, or as the group names them while no prologue has come. -/
def partyMembers (c : Cfg) (d : Dev) (g : Geo) (x : Inst) (u : Nat) : BitVec 128 :=
  match x.masks.lookup u with
  | some m => m &&& ~~~(lookMask x.removed u)
  | none => namedOn c d x.tenant (groupOf g.desc x.list x.base) u &&& ~~~(lookMask x.removed u)

/-- Wire indices that show every path of an instance: starts and ends repeat after at most 12 chunks, and streams once for each source unit. -/
def probeWires (g : Geo) : List Nat :=
  if isStream g.desc then (carriersOf g.shape).map fun p => 2 ^ 26 * addrOf g.dims p
  else List.range (min 12 (chunksOf g.desc (dCount g.desc)))

/-- Whether a transfer of an instance takes a hop that a test accepts. -/
def crosses (g : Geo) (f : Hop → Bool) : Bool :=
  (0xFFFFFFFF :: probeWires g).any fun w => (transfersFor g w).any fun t => match t.route with
    | some r => r.any f
    | none => false

/-- Whether a fault affects an instance (R618). -/
def affects (c : Cfg) (d : Dev) (x : Inst) (pa : Party) : Bool :=
  let g := geoOf d x
  match pa with
  | .leaf u p => (partyMembers c d g x u &&& leafMask p) != 0
  | .excluded u => partyMembers c d g x u != 0
  | .lost u => (carriersOf g.shape).any (fun q => addrOf g.dims q == u) || crosses g fun h => h.1 == u || facing g.dims h.1 h.2 == u
  | .cut u q => crosses g fun h => h == (u, q) || h == (facing g.dims u q, facingPort q)

/-- The members that a fault's party takes with it, unit by unit (R624). -/
def partyMask (pa : Party) : List (Nat × BitVec 128) :=
  match pa with
  | .leaf u p => [(u, leafMask p)]
  | .excluded u => [(u, BitVec.allOnes 128)]
  | .lost u => [(u, BitVec.allOnes 128)]
  | .cut _ _ => []

/-- Add masks to an association list. -/
def addMasks (l m : List (Nat × BitVec 128)) : List (Nat × BitVec 128) :=
  m.foldl (fun l e => upsert l (fun f => f.1 == e.1) (e.1, lookMask l e.1 ||| e.2)) l

/-! ## The view (R622) -/

/-- Units that a new view makes lost: named, or outside the surviving component. -/
def lostBy (d : Dev) (v : View) : List Nat :=
  let s := survivingOf d.sow.dims v
  (List.range (unitsIn d.sow.dims)).filter fun u => !(s.contains u) && !(d.recov.view.lost.contains u)

/-- The view with a failed party in it. -/
def viewWith (d : Dev) (pa : Party) : View :=
  let v := d.recov.view
  match pa with
  | .lost u => { v with lost := if v.lost.contains u then v.lost else v.lost ++ [u] }
  | .cut u q => { v with cut := v.cut ++ [(u, q), (facing d.sow.dims u q, facingPort q)] }
  | _ => v

/-- Whether a FAULT names a party or a link already known (R621); a cut link of a lost unit is handled as the lost unit alone (R646). Only its own unit reports a lost leaf, once for each link down, so that report is always new. -/
def knownParty (d : Dev) (pa : Party) : Bool :=
  match pa with
  | .lost u => d.recov.view.lost.contains u
  | .cut u q => d.recov.view.cut.contains (u, q) || d.recov.view.lost.contains u || d.recov.view.lost.contains (facing d.sow.dims u q)
  | _ => false

/-- Record failed units (R387). -/
def noteFailed (d : Dev) (us : List Nat) : Dev := modS d fun s => { s with failedUnits := s.failedUnits ||| unitMap us }

/-! ## Peg homes and barriers after a loss (R627) -/

/-- The rings whose PEG_OP waits for a DONE from one of these homes. -/
def waitingOn (d : Dev) (us : List Nat) : List (LPort × RingNo) :=
  allLem.flatMap fun p => allRings.filter (fun r => match (ringAt d p r).cur with
    | some x => x.waitReq.isSome && us.contains (liveHome d (eHome (dEntry x.desc (skipNone x.desc 4 x.entry))))
    | none => false) |>.map fun r => (p, r)

/-- The dependencies whose WATCH is held at one of these homes. -/
def watchesAt (d : Dev) (us : List Nat) : List (LPort × RingNo × Nat) :=
  allLem.flatMap fun p => allRings.flatMap fun r => match (ringAt d p r).head, (ringAt d p r).queue with
    | some h, s :: _ => if h.stage = .waiting then
        [0, 1, 2, 3].filterMap fun k => if (h.watchIds.getD k none).isSome && !(h.met.getD k true) && us.contains (liveHome d (byteAt (dDep s.bytes k) 6 % 64)) then some (p, r, k) else none
      else []
    | _, _ => []

/-- End a running descriptor's remote PEG_OP or barrier with a status. -/
def endRun (d : Dev) (e : LPort × RingNo) (status : Byte) : Dev :=
  modRun d e.1 e.2 fun x => if x.finished then x else { x with status := status, finished := true, waitReq := none }

/-- Cut off what a ring's running descriptor has not sent of its outputs. -/
def cutRun (d : Dev) (e : LPort × RingNo) : Dev := modP d e.1 fun x => { x with txq := cutOutputs e.2 x.txq }

/-- End a descriptor that is admitted and not yet recorded because of a fault: the one that met the fault keeps its status, every other takes the one given, also where it had ended otherwise; no output write of it goes any more (R629, R632, R647). -/
def faultEnd (d : Dev) (e : LPort × RingNo) (status : Byte) : Dev :=
  modRun (cutRun d e) e.1 e.2 fun x => { x with status := if x.metFault then x.status else status, finished := true, waitReq := none }

/-- Move what was at lost homes to their stand-ins: watches and reports are sent again, waiting PEG_OPs end, and engines judge their phases without the lost units (R627). -/
def rehome (c : Cfg) (d : Dev) (waits : List (LPort × RingNo)) (watches : List (LPort × RingNo × Nat)) (us : List Nat) : Dev :=
  let d := each waits d fun d e => endRun d e 0x24
  let d := each watches d fun d e => match (ringAt d e.1 e.2.1).head, (ringAt d e.1 e.2.1).queue with
    | some h, s :: _ =>
      if depRemote d s.bytes e.2.2 then sendWatch c d e.1 e.2.1 s.bytes e.2.2 ((h.watchIds.getD e.2.2 none).getD 0) 2 else d
    | _, _ => d
  let d := each (d.pegs.arrivals.filter fun a => us.contains a.home) d fun d a =>
    let home := liveHome d a.home
    let d := modArrival d a fun b => { b with home := home }
    if a.arrived then sendPeg d a.tenant home 4 0 a.peg 0 0 (popCount a.members) a.body else d
  let owner := (allTenants.find? (ownsLine c)).getD 0
  let d := each (d.pegs.ignored.filter fun e => us.contains e.1) d fun d e =>
    sendPeg d owner (liveHome d e.1) 4 0 e.2.1 0 0 e.2.2.1 e.2.2.2
  let d := { d with pegs := { d.pegs with ignored := d.pegs.ignored.map fun e => if us.contains e.1 then (liveHome d e.1, e.2) else e } }
  judgeAll c (each d.pegs.phases d (engineRelease c))

/-- Whether an instance has a carrier on another unit. -/
def manyUnits (d : Dev) (x : Inst) : Bool := (carriersOf (geoOf d x).shape).any fun p => addrOf d.sow.dims p != ownAddr d

/-- This unit finds itself outside the surviving component (R622, R659). -/
def isolate (c : Cfg) (d : Dev) : Dev :=
  let d := assertFaultN (modRec d fun x => { x with isolated := true })
  let d := noteFailed d ((List.range (unitsIn d.sow.dims)).filter (· != ownAddr d))
  let d := each (d.coll.insts.filter (manyUnits d)) d fun d x => endInst d x.tenant x.coll 0x28
  let d := each (d.pegs.arrivals.filter fun a => a.home != ownAddr d || a.runs.any fun e => match (ringAt d e.1 e.2).cur with
      | some x => namesOther d x.desc x.list
      | none => false) d fun d a => endArrival c d a 0x28
  let others (x : Run) : Bool := x.waitReq.isSome || (dKind x.desc == 7 && !x.joined && namesOther d x.desc x.list)
  each allLem d fun d p => each allRings d fun d r =>
    let d := match (ringAt d p r).cur with
      | some x => if others x then endRun d (p, r) 0x28 else d
      | none => d
    match (ringAt d p r).head, (ringAt d p r).queue with
    | some h, s :: _ => if h.stage ≠ .reading ∧ h.status = 0 ∧ namesOther d s.bytes (h.list.getD []) then failHead c (dropReads d p r isHeadRead) p r 0x28 else d
    | _, _ => d

/-! ## Graft (R632 to R637) -/

/-- Remove the queued frames of an instance, but for prologues. -/
def purgeFrames (d : Dev) (t : Tenant) (coll : W16) : Dev :=
  each allTrl d fun d i => modT d i fun x => { x with
    txq := x.txq.filter fun it => !(decide (it.owner = .group t coll)) || it.frame.chunk == 0xFFFFFFFF }

/-- The highest round of an instance for which a VERDICT is known. -/
def verdictOf (d : Dev) (t : Tenant) (coll num : W16) : Nat := (d.coll.verdicts.lookup (t, coll, num)).getD 0

/-- End the descriptors of an instance on this unit's excluded party: those that met the fault keep its status (R632 step 1). -/
def endExcluded (d : Dev) (x : Inst) (pa : Party) : Dev :=
  let hit (e : LPort × RingNo) : Bool := match pa with
    | .leaf u p => u == ownAddr d && e.1.val == p
    | .excluded u => u == ownAddr d
    | _ => false
  each (x.runs.filter hit) d fun d e => faultEnd d e 0x24

/-- Freeze an instance in a round and flood its STATE (R632 steps 2 and 3, R642). -/
def freeze (d : Dev) (t : Tenant) (coll : W16) (round : Nat) : Dev :=
  match instAt (pumpCommit d t coll) t coll with
  | none => d
  | some x =>
    let d := modInst (pumpCommit d t coll) t coll fun x => { x with frozen := true, round := round, reformDue := false }
    let d := addState d t coll x.num { unit := ownAddr d, round := round, committed := x.committed, sent := x.sent }
    flood d 2 t.val round coll.toNat x.num.toNat (stateBody x.committed x.sent)

/-- Whether every STATE that the rerun needs has come: one of the round from each neighbour that is a carrier (R635 step 2). -/
def neighbourStates (d : Dev) (x : Inst) : Bool :=
  let g := geoFor d (instDesc x) x.list x.base
  [0, 1, 2, 3, 4, 5].all fun q =>
    let u := facing g.dims g.own q
    dimOf g.dims (q / 2) ≤ 1 || g.view.lost.contains u || g.view.cut.contains (g.own, q) ||
    !((carriersOf g.shape).any fun p => addrOf g.dims p == u) ||
    (statesOf d x.tenant x.coll x.num).any fun r => r.unit == u && r.round == x.round

/-- The frames of the old run that arrive at each port and channel (R635 step 2): the neighbour's `sent` count for the facing port. -/
def oldFrames (d : Dev) (x : Inst) : List Nat :=
  let st := statesOf d x.tenant x.coll x.num
  (List.range 24).map fun i =>
    let q := i / 4
    let u := facing d.sow.dims (ownAddr d) q
    match st.find? fun r => r.unit == u && r.round == x.round with
    | some r => r.sent.getD (4 * facingPort q + i % 4) 0
    | none => 0

/-- Hand the frames kept while frozen to the rerun: those beyond the old run, counted from the instance's opening (R635 step 2). -/
def replayKept (c : Cfg) (t : Tenant) (coll : W16) : List (Nat × TrlFrame) → List Nat → List Nat → Dev → Dev
  | [], _, _, d => d
  | (q, f) :: rest, seen, old, d =>
    let i := countIdx (fin6 q) f.vc.toNat
    let k := seen.getD i 0
    let d := if k < old.getD i 0 ∨ f.chunk = 0xFFFFFFFF then d
      else match instAt d t coll with
        | some x => deliver c d x (fin6 q) f
        | none => d
    replayKept c t coll rest (seen.modify i (· + 1)) old d

/-- Load the recipe buffers of the Base Bobbins that read a running descriptor's held copy, from the recipe taken at its admission: 256 bytes, read-only while the RECIPE sequence runs (R519, R520). -/
def loadRecipe (d : Dev) (e : LPort × RingNo) : Dev :=
  match (ringAt d e.1 e.2).cur with
  | some y =>
    if y.recipe.isEmpty then d
    else
      let (k, d) := draw d
      let put (l : List (Nat × List Byte)) (ch : Nat) : List (Nat × List Byte) := upsert l (fun b => b.1 == ch) (ch, padTo 256 y.recipe)
      modStore d fun s => { s with recipeBufs := ((List.range 64).filter (Config.holdsPart k)).foldl put s.recipeBufs }
  | none => d

/-- Rerun a re-formed instance (R635). -/
def reform (c : Cfg) (d : Dev) (t : Tenant) (coll : W16) : Dev :=
  match instAt d t coll with
  | none => d
  | some x =>
    let old := oldFrames d x
    let counted := x.kept.foldl (fun l e => l.modify (countIdx (fin6 e.1) e.2.vc.toNat) (· + 1)) (List.replicate 24 0)
    let before := List.zipWith (fun a b => a - b) x.taken counted
    let d := purgeFrames d t coll
    let d := modInst d t coll fun x =>
      let removed := addMasks x.removed x.toRemove
      { x with
        rx := x.rx.filter fun r => r.wire == 0xFFFFFFFF
        tx := x.tx.filter fun r => r.wire == 0xFFFFFFFF
        committed := false, written := 0, decision := none, noYard := false, pressDone := false, pressOut := none,
        spoiled := false, parked := [],
        removed := removed, toRemove := [], mine := x.mine &&& ~~~(lookMask removed (ownAddr d))
        view := viewOf d, surv := surviving d, frozen := false, reformDue := false, grafted := true, kept := []
        skip := List.zipWith (fun o n => o - n) old x.taken }
    let d := replayKept c t coll x.kept before old (each x.runs d loadRecipe)
    pumpInst c d t coll

/-- Rerun an instance whose REFORM verdict waited only for STATEs that have come (R637 step 5). -/
def tryReform (c : Cfg) (d : Dev) (t : Tenant) (coll : W16) : Dev :=
  match instAt d t coll with
  | some x => if x.reformDue && neighbourStates d x then reform c d t coll else d
  | none => d

/-- Take an ABORT, or a VERDICT with outcome END: the open instance ends, one not yet opened will open aborted, an ended one is untouched (R623, R636). -/
def takeAbort (c : Cfg) (d : Dev) (t : Tenant) (coll num : W16) (status : Byte) (isMine : Inst → Bool) : Dev :=
  match instAt d t coll with
  | some x =>
    if x.num = num then (if isMine x && x.aborted.isNone then endInst d t coll status else d)
    else if (num - x.num).toNat < 32768 then
      { d with coll := { d.coll with preAborts := d.coll.preAborts ++ [(t, coll, num, status)] } }
    else d
  | none =>
    if (num - nextNum d t coll).toNat < 32768 then
      settleColl c { d with coll := { d.coll with preAborts := d.coll.preAborts ++ [(t, coll, num, status)] } }
    else d

/-- The members named of a group that a unit noted: those of the prologues that it relayed, and of every other carrier what the spec does not say how it learns (log 105). -/
def notedMasks (d : Dev) (y : Relay) (num : W16) : List (Nat × BitVec 128) :=
  let g := relayGeo d y
  ((carriersOf g.shape).filter fun p => !(hollow g p)).map fun p =>
    let u := addrOf g.dims p
    (u, (y.masks.lookup u).getD (BitVec.ofNat 128 (leNat (Config.farGroup (y.tenant.val, y.coll, num, y.base) (2 + u)) 0 16)))

/-- A REFORM gives this unit the role of a lost unit in a group of which it is no carrier, and whose frames it has relayed: it opens the re-formed instance from what the prologues told it, and counts the frames of the old run that it passed on as taken (R624, R635; log 106). -/
def takeRole (c : Cfg) (d : Dev) (t : Tenant) (coll num : W16) (round : Nat) : Dev :=
  match d.coll.relays.find? fun y => y.tenant == t && y.coll == coll && !(myStations (relayGeo d y)).isEmpty with
  | none => d
  | some y =>
    let x := newInst c d t coll y.agree y.list y.base true
    { d with coll := { d.coll with
      relays := d.coll.relays.filter (· != y)
      insts := d.coll.insts ++ [{ x with
        num := num, masks := notedMasks d y num, proSent := true, frozen := true, round := round, verdictRound := round
        removed := d.recov.gone, taken := y.taken, reformDue := true }] } }

/-- The highest round of an instance of which a STATE has been sent or accepted (R632). -/
def highestRound (d : Dev) (t : Tenant) (coll num : W16) : Nat := ((statesOf d t coll num).map (·.round)).foldl max 0

/-- Act on a VERDICT (R633 to R636): one of a round below the highest, or a second one of its round, is ignored. -/
def takeVerdict (c : Cfg) (d : Dev) (t : Tenant) (coll num : W16) (round outcome : Nat) (status : Byte) : Dev :=
  if round ≤ verdictOf d t coll num ∨ round < highestRound d t coll num then d
  else
    let d := { d with coll := { d.coll with verdicts := upsert d.coll.verdicts (fun e => e.1 == (t, coll, num)) ((t, coll, num), round) } }
    let d := if outcome = 2 then bumpTenant c (addCauseTenant c d t 6) t 2 else d
    if outcome = 3 then takeAbort c d t coll num status fun x => x.frozen
    else match instAt d t coll with
      | none => if outcome = 2 then tryReform c (takeRole c d t coll num round) t coll else d
      | some x =>
        if x.num ≠ num ∨ !x.frozen ∨ x.round ≠ round then d
        else
          let d := modInst d t coll fun x => { x with verdictRound := round }
          if outcome = 1 then
            pumpInst c (modInst d t coll fun x => { x with frozen := false, goesOn := true, toRemove := [], kept := [] }) t coll
          else tryReform c (modInst d t coll fun x => { x with reformDue := true }) t coll

/-- The recovery root (R622). -/
def isRoot (d : Dev) : Bool := lowestOf (surviving d) == ownAddr d

/-- What the recovery root knows of a group: the schedule's data, the members named unit by unit, and those that the faults have taken. -/
structure RootView where
  geo : Geo
  masks : List (Nat × BitVec 128)
  gone : List (Nat × BitVec 128)

/-- Whether a group has a unit among its carriers. -/
def carries (g : Geo) (u : Nat) : Bool := (carriersOf g.shape).any fun p => addrOf g.dims p == u

/-- What a unit knows of a group that it noted. -/
def notedView (d : Dev) (y : Relay) : RootView := { geo := relayGeo d y, masks := y.masks, gone := d.recov.gone }

/-- What the recovery root uses of a group of which no frame has told it: the spec has it decide, and does not say what it knows (R633; log 105). -/
def farView (d : Dev) (t : Tenant) (coll num : W16) (u : Nat) : RootView :=
  let far (i : Nat) : List Byte := Config.farGroup (t.val, coll, num, u) i
  let masks := (List.range (unitsIn d.sow.dims)).map fun a => (a, BitVec.ofNat 128 (leNat (far (2 + a)) 0 16))
  notedView d { tenant := t, coll := coll, agree := padTo 88 (far 0), list := padTo 1024 (far 1), base := u, taken := [], masks := masks }

/-- What the recovery root knows of the group whose STATE a unit sent: from its own instance, open or ended, or from prologues that it relayed (R633, R643). -/
def rootView (d : Dev) (t : Tenant) (coll num : W16) (u : Nat) : RootView :=
  match (d.coll.insts.find? fun x => x.tenant == t && x.coll == coll && x.num == num && carries (geoOf d x) u) with
  | some x => { geo := geoFor d (instDesc x) x.list x.base, masks := x.masks, gone := addMasks x.removed x.toRemove }
  | none => match ((d.coll.closed.filter fun e => e.2 == num).map (·.1) ++ d.coll.relays).find? fun y => y.tenant == t && y.coll == coll && carries (relayGeo d y) u with
    | some y => notedView d y
    | none => farView d t coll num u

/-- The verdict of R633 on a round: its outcome and status. `late` says that a carrier's STATE has not arrived in time. -/
def verdictFor (d : Dev) (v : RootView) (reps : List Report) (late : Bool) : Nat × Byte :=
  let g := v.geo
  let out (u : Nat) : BitVec 128 := lookMask v.gone u
  if reps.any (·.committed) then (1, 0)
  else
    let rootOut := hasRoot g.desc && ((viewOf d).lost.contains (rootUnit g.desc) || (out (rootUnit g.desc)).getLsbD (dRoot g.desc % 128))
    let noneLeft := (carriersOf g.shape).all fun p => hollow g p || (match v.masks.lookup (addrOf g.dims p) with
      | some m => m &&& ~~~(out (addrOf g.dims p)) == 0
      | none => false)
    if rootOut || noneLeft then (3, 0x24)
    else if anyUnrouted g (probeWires g) then (3, 0x28)
    else if late then (3, 0x26)
    else (2, 0)

/-- The recovery root decides an instance whose highest round lacks a VERDICT, once every carrier's STATE of the round has come, or where the wait for one is over (R633, R643). -/
def decideVerdict (c : Cfg) (d : Dev) (t : Tenant) (coll num : W16) (late : Bool) : Dev :=
  let st := statesOf d t coll num
  let round := highestRound d t coll num
  let reps := st.filter fun r => r.round == round
  if !isRoot d || reps.isEmpty || round ≤ verdictOf d t coll num then d
  else
    let v := rootView d t coll num (reps.head?.map (·.unit) |>.getD 0)
    let full := (carriersOf v.geo.shape).all fun p => hollow v.geo p || reps.any fun r => r.unit == addrOf v.geo.dims p
    if full || late then
      let (o, s) := verdictFor d v reps (late && !full)
      let d := flood d 3 t.val round coll.toNat num.toNat [BitVec.ofNat 8 o, s]
      takeVerdict c d t coll num round o s
    else d

/-- Keys and numbers of the instances for which STATEs are held. -/
def stateKeys (d : Dev) : List (Tenant × W16 × W16) := (d.coll.states.map fun e => (e.1, e.2.1, e.2.2.1)).eraseDups

/-- Decide whatever the recovery root can decide; what faults have taken from groups is forgotten where no instance's highest round lacks a VERDICT, since a later instance knows its own members. -/
def decideAll (c : Cfg) (d : Dev) : Dev :=
  let d := each (stateKeys d) d fun d k => decideVerdict c d k.1 k.2.1 k.2.2 false
  if (stateKeys d).all fun k => highestRound d k.1 k.2.1 k.2.2 ≤ verdictOf d k.1 k.2.1 k.2.2 then modRec d fun x => { x with gone := [] } else d

/-- Take a STATE (R632, R633, R643): keep it, also where the instance has ended here; freeze the instance in its round, and go on where this STATE was the last awaited. -/
def takeState (c : Cfg) (d : Dev) (t : Tenant) (coll num : W16) (r : Report) : Dev :=
  let d := addState d t coll num r
  let d := match instAt d t coll with
    | some x =>
      if x.num = num ∧ carries (geoOf d x) r.unit ∧ x.aborted.isNone ∧ (x.round < r.round ∨ (!x.frozen ∧ x.verdictRound < r.round)) then freeze d t coll r.round
      else d
    | none => d
  decideVerdict c (tryReform c d t coll) t coll num false

/-- After a Graft the running BARRIERs report the members that are left (R377). -/
def regroup (c : Cfg) (d : Dev) : Dev :=
  each allLem d fun d p => each allRings d fun d r => modRun d p r fun y =>
    if dKind y.desc = 7 ∧ !y.finished then { y with aux := namedCount c d (tenantOf c p) (ownGroup d y.desc y.list) } else y

/-- Freeze every affected instance in a new round (R632, R641). -/
def graftFault (d : Dev) (hit : List (Tenant × W16)) (pa : Party) (extra : List Nat) : Dev :=
  each hit d fun d k =>
    match instAt d k.1 k.2 with
    | none => d
    | some x =>
      if x.aborted.isSome then d
      else
        let d := modInst (endExcluded d x pa) k.1 k.2 fun x => { x with toRemove := addMasks x.toRemove (partyMask pa ++ extra.map fun u => (u, BitVec.allOnes 128)) }
        freeze d k.1 k.2 (((statesOf d k.1 k.2 x.num).map (·.round)).foldl max x.round + 1)

/-! ## Fault restart (R628 to R631) -/

/-- The drain of one ring (R629 steps 2 and 3): what is admitted ends, what is fetched goes, and the ring is stalled unless it is off. -/
def drainRing (d : Dev) (p : LPort) (r : RingNo) : Dev :=
  let d := modRun (discardFetched (dropReads (faultEnd d (p, r) 0x23) p r fun _ => true) p r) p r fun x => { x with spoolPending := false }
  modR d p r fun x => { x with
    st := if x.st = .running ∨ x.st = .fenced then .stalled else x.st
    fenceOpen := false, adopting := none, nudged := false, hdrData := none, retry := [], hdrDeferred := false }

/-- The drain of a tenant (R629): admitted descriptors end, prefetch queues go, rings stall, and instances close. What waits for space waits no more; a hold is released with its descriptor's record, and staging with the last of an instance's (R527, R528). -/
def drain (c : Cfg) (d : Dev) (t : Tenant) : Dev :=
  let d := modRec d fun x => { x with restart := x.restart.set t .draining }
  let d := bumpTenant c (addCauseTenant c d t 5) t 1
  let d := each (portsOf c t) d fun d p => each allRings d fun d r => drainRing d p r
  let d := each (d.coll.insts.filter fun x => x.tenant == t) d fun d x => closeInst (purgeFrames d t x.coll) t x.coll
  let d := { d with coll := { d.coll with
    early := d.coll.early.filter fun e => e.2.tenant != t
    preAborts := d.coll.preAborts.filter fun e => e.1 != t
    states := d.coll.states.filter fun e => e.1 != t
    verdicts := d.coll.verdicts.filter fun e => e.1.1 != t
    numbers := d.coll.numbers.filter fun e => e.1.1 != t
    proCount := d.coll.proCount.filter fun e => e.1.1 != t
    relays := d.coll.relays.filter fun e => e.tenant != t
    closed := d.coll.closed.filter fun e => e.1.tenant != t } }
  let d := modStore d fun s => { s with wait := s.wait.set t [] }
  { d with pegs := { d.pegs with arrivals := d.pegs.arrivals.filter fun a => a.tenant != t } }

/-- The 4-bit mask of a set of tenants. -/
def tenantBits (f : Tenant → Bool) : Nat := (allTenants.map fun t => if f t then 2 ^ t.val else 0).sum

/-- The tenants of a mask. -/
def bitTenants (m : Nat) : List Tenant := allTenants.filter fun t => bitOf m t.val

/-- Whether every record of a draining tenant has been sent. -/
def drainedHere (c : Cfg) (d : Dev) (t : Tenant) : Bool :=
  (portsOf c t).all fun p => allRings.all fun r => (ringAt d p r).cur.isNone

/-- Kept windows of this unit's rings of a tenant (R569 step 2, R620). -/
def keptWindows (c : Cfg) (d : Dev) (t : Tenant) : List Nat :=
  if !isKeep c then []
  else (portsOf c t).flatMap fun p => allRings.filterMap fun r =>
    let x := ringAt d p r
    if x.hdr.pegClass then physPeg c t x.hdr.windowBase 0 else none

/-- The physical address of the Spool word that keeps pool peg `k` during a context change: a word of the work area, the first 128 MiB (R524, R569). Which one is free (log 19). -/
def savedAt (k : Nat) : Nat := 32 * (Config.savedWord k % 4194304)

/-- The kept set of a tenant: the pegs of every kept window that a DRAINED named (R569 step 2). -/
def keptPegs (c : Cfg) (d : Dev) (t : Tenant) : List Nat :=
  (d.recov.windows.flatMap fun w => (List.range 4096).filterMap fun v => physPeg c t w v).eraseDups

/-- Step 1 of a context change (R569, R579). -/
def startChange (c : Cfg) (d : Dev) (t : Tenant) : Dev :=
  let d := modRec d fun x => { x with restart := x.restart.set t .changing }
  let d := { d with pegs := { d.pegs with
    watches := d.pegs.watches.filter fun w => w.tenant != t, phases := d.pegs.phases.filter fun x => x.tenant != t } }
  let d := modStore d fun s => { s with spoolBad := s.spoolBad.filter fun w => !((keptPegs c d t).any fun k => savedAt k == w) }
  if ownsLine c t then
    { d with
      line := (if d.line.fallback then { d.line with n := 0, f := 0, completed := [] }
        else { d.line with n := 0, completed := [], assertA := true, assertB := true, released := false })
      pegs := { d.pegs with ignored := [] } }
  else d

/-- Start the context change of every tenant whose DRAINED has come from every surviving unit, or which need wait no longer (R628 step 4). -/
def tryChange (c : Cfg) (d : Dev) (late : Bool) : Dev :=
  each allTenants d fun d t =>
    if d.recov.restart[t] = .drained ∧ (late ∨ (surviving d).all fun u => d.recov.drained.contains (t, u)) then startChange c d t else d

/-- A tenant's restart is over on this unit: its stalled rings may read their headers again (R628 step 6). -/
def endRestart (d : Dev) (t : Tenant) : Dev :=
  modRec d fun x => { x with
    restart := x.restart.set t .none, drained := x.drained.filter fun e => e.1 != t, cleaned := x.cleaned.filter fun e => e.1 != t }

/-- End every restart whose CLEAN has come from every surviving unit, or which need wait no longer. -/
def tryEnd (d : Dev) (late : Bool) : Dev :=
  each allTenants d fun d t =>
    if d.recov.restart[t] = .cleaning ∧ (late ∨ (surviving d).all fun u => d.recov.cleaned.contains (t, u)) then endRestart d t else d

/-- A saved peg as it is restored: 0, and counted, where its saved word reads uncorrectable (R570). -/
def restorePeg (d : Dev) (pool : Sparse 16) (k : Nat) : Dev :=
  if wordGood d (savedAt k) then setPool d k (spRead pool k) else meetBad d [savedAt k]

/-- Steps 3 to 5 of a context change (R569). A peg whose word is bad is not saved, and ends cleared (R583). -/
def finishChange (c : Cfg) (d : Dev) (t : Tenant) : Dev :=
  let kept := (keptPegs c d t).filter (pegGood d)
  let pool := d.pegs.pool
  let (f, z) := sliceOf c t
  let d := { d with pegs := { d.pegs with pool := spClear pool f (f + z), bad := d.pegs.bad.filter fun k => !(inSlice c t k) } }
  let d := each (portsOf c t) d fun d p => modP d p fun x => { x with pocket := [] }
  let d := each kept d fun d k => restorePeg d pool k
  let d := bumpTenant c d t 4
  modRec d fun x => { x with
    restart := x.restart.set t .cleaning, pgen := x.pgen.set t (x.pgen[t] + 1), cleaned := x.cleaned ++ [(t, ownAddr d)],
    windows := x.windows.filter fun w => !inSlice c t w }

/-! ## Accepting and raising faults (R617, R621, R628, R631) -/

/-- What a unit does with a new fault: its view, its instances, its peg homes, and its policy. -/
def acceptFault (c : Cfg) (d : Dev) (cls unit port tenants : Nat) : Dev :=
  let pa := partyOf cls unit port
  if knownParty d pa then d
  else
    let v := viewWith d pa
    let newLost := if d.recov.isolated then [] else lostBy d v
    let named := newLost.filter fun u => decide (pa ≠ .lost u)
    let hit := (d.coll.insts.filter fun x => affects c d x pa || newLost.any fun u => affects c d x (.lost u)).map fun x => (x.tenant, x.coll)
    let waits := waitingOn d newLost
    let watches := watchesAt d newLost
    let d := each (bitTenants tenants) d fun d t => bumpTenant c d t 0
    let d := noteFailed d ((if cls = 5 ∨ cls = 6 then [unit] else []) ++ newLost)
    let d := if cls = 5 ∧ unit = ownAddr d then assertFaultN d else d
    let out := newLost.contains (ownAddr d)
    let d := modRec d fun x => { x with view := if out then v else { v with lost := v.lost ++ newLost.filter fun u => !(v.lost.contains u) } }
    let d := if out then isolate c d else if newLost.isEmpty then d else rehome c d waits watches newLost
    let d := modRec d fun x => { x with gone := addMasks x.gone (partyMask pa ++ newLost.map fun u => (u, BitVec.allOnes 128)) }
    let d := if isGraft c then graftFault (regroup c d) hit pa named
      else each (bitTenants tenants) d fun d t => if d.recov.restart[t] = .none then drain c d t else d
    decideAll c (tryEnd (tryChange c d false) false)

/-- Raise a fault that this unit detected: the FAULT is flooded, and the unit accepts it itself (R617, R619, R628). Before the chain has formed there is no address to name, and nobody to tell. -/
def raiseFault (c : Cfg) (d : Dev) (cls unit port : Nat) : Dev :=
  if !d.sow.formed then (if cls = 5 then assertFaultN d else d)
  else
    let tenants := if cls ≤ 4 then 2 ^ (tenantOf c (fin8 port)).val else 15
    let d := flood d 1 0 0 0 0 [BitVec.ofNat 8 cls, BitVec.ofNat 8 unit, BitVec.ofNat 8 port, BitVec.ofNat 8 tenants]
    acceptFault c d cls unit port tenants

/-- Raise a fault whose party is this unit or one of its leaves. -/
def raiseOwn (c : Cfg) (d : Dev) (cls port : Nat) : Dev := raiseFault c d cls (ownAddr d) port

/-- Raise the faults that an operation met, with fuel. -/
def raiseDue (c : Cfg) : Nat → Dev → Dev
  | 0, d => d
  | n + 1, d => match d.recov.due with
    | [] => d
    | e :: rest => raiseDue c n (raiseOwn c (modRec d fun x => { x with due := rest }) e.1 e.2)

/-- What follows every happening within its bounds: heads that may be worked on are, faults met are raised, this unit's messages to itself are handled, instances that are done end and held ones open, and input reads begin. -/
def epilogue (c : Cfg) (d : Dev) : Dev :=
  let d := each allLem d fun d p => each allRings d fun d r => startHead c d p r
  let d := settle c (raiseDue c 64 d)
  let d := beginAllReads c (settleColl c d)
  settle c (raiseDue c 64 d)

/-- Take the header that a completed read has brought, if it is not yet taken (R310, R337). -/
def takePending (c : Cfg) (d : Dev) (p : LPort) (r : RingNo) : Dev :=
  match (ringAt d p r).hdrData with
  | some bs => epilogue c (takeHeader c d p r bs)
  | none => d

end Sys2Proof.Machine
end

