-- ==== Sys2Proof/Machine/SowOps.lean ====
section
/-! DEFINITION. Sowing and the stops as shared operations (spec/06, R192 to R213, R704; R125, R176). -/
namespace Sys2Proof.Machine
open Sys2Proof

/-- Change the sowing part. -/
def modSow (d : Dev) (f : Sow → Sow) : Dev := { d with sow := f d.sow }

/-! ## Sending (R199, R281) -/

/-- A sowing message with what this unit knows, all else zero (R199, R704). -/
def sowBase (c : Cfg) (d : Dev) (kind : Nat) : SowMsg :=
  { kind := kind, port := 0, coded := isCoded c, axis := 0, stop := 0, pos := [0, 0, 0], dims := d.sow.dims,
    codes := [0, 0, 0, 0, 0], roll := 0, serial := 0, mask := 0 }

/-- Coordinates as bytes. -/
def posBytes (p : Pos) : List Nat := [p.x, p.y, p.z]

/-- A sowing message as the frame that a port sends, which it names as its sender's. -/
def sowOut (d : Dev) (i : TPort) (m : SowMsg) : TrlFrame := mkTrl 5 0 0 (ownAddr d) 0 (sowPayload { m with port := i.val })

/-- Send a sowing message through a port. Until the HELLO of the other end has been checked, the port is not up and carries HELLO and STOP only; what is meant for an up port waits for that check (R196, R200, R203). -/
def sowSend (d : Dev) (i : TPort) (m : SowMsg) : Dev :=
  if d.trl[i].linkUp && d.trl[i].hello.isNone && m.kind != 1 && m.kind != 8 then
    modT d i fun x => { x with sowWait := x.sowWait ++ [sowOut d i m] }
  else sendControl d i (sowOut d i m)

/-- The ports that carry sowing frames: those whose link is up and that are not miswired, or those too (R196, R203). -/
def sowPorts (d : Dev) (miswired : Bool) : List TPort :=
  allTrl.filter fun i => d.trl[i].linkUp && (miswired || d.trl[i].st != .miswired)

/-- Send a sowing message on every such port but one. -/
def sowFlood (d : Dev) (miswired : Bool) (except : Option TPort) (m : SowMsg) : Dev :=
  each (sowPorts d miswired) d fun d i => if except = some i then d else sowSend d i m

/-! ## Stops (R125, R176, R203) -/

/-- Whether a port's leaf gets the pages of a stop: its hello has been accepted. -/
def pageInStop (d : Dev) (p : LPort) : Bool := portPresent d p

/-- Enter a stop, unless the unit is in one: FAULT_N, neither washing line driven, and the stop's page to every leaf whose hello is complete (R125, R659). -/
def setStop (d : Dev) (s : Stop) (mask : W16) (pos : Option Pos) (port : Byte) (ref : Option (List (BitVec 4))) : Dev :=
  if stopped d then d
  else
    let d := { modS d fun x => { x with stop := some s, stopMask := mask, stopPos := pos, stopPort := port, stopRef := ref, faultN := true } with
      line := Line.reset }
    each allLem d fun d p => if pageInStop d p then modP d p fun x => { x with causes := x.causes ||| 4 } else d

/-- The state of a Trellis port once a stop of step 3, 4 or 5 has put its lanes in electrical idle (R125, R705). -/
def idleTrl (x : TrlPort) : TrlPort :=
  { x with st := (if x.linkUp ∧ x.st = .up then TrlSt.down else TrlSt.unused), linkUp := false, txq := [], sowWait := [], slots := [], wire := [], lanes := [],
           darn := Darn.init, credit := Vector.replicate 8 Credit.none }

/-- A stop found at step 3, 4 or 5 of R173: the Trellis goes to electrical idle (R125). -/
def earlyStop (d : Dev) (s : Stop) (mask : W16) : Dev :=
  if stopped d then d
  else each allTrl (setStop d s mask none 0xFF none) fun d i => modT d i idleTrl

/-- The reference codes for a STOP: those held, or none that the spec names. -/
def stopCodes (d : Dev) (ref : Option (List (BitVec 4))) : List (BitVec 4) × Dev :=
  match ref with
  | some l => (l, d)
  | none => let (k, d) := draw d; ((List.range 5).map (Config.unheldCode k), d)

/-- Enter a sowing stop by detection, and tell the chain (R202, R203). -/
def detectStop (c : Cfg) (d : Dev) (s : Stop) (mask : W16) (pos : Option Pos) (ref : Option (List (BitVec 4))) : Dev :=
  if stopped d then d
  else
    let d := setStop d s mask pos 0xFF ref
    let (codes, d) := stopCodes d ref
    let where_ := match pos with
      | some p => posBytes p
      | none => [255, 255, 255]
    sowFlood d true none { sowBase c d 8 with stop := stopNat s, pos := where_, codes := codes, mask := mask }

/-- This unit's position, where it knows one (R704). -/
def knownPos (d : Dev) : Option Pos := if d.sow.posKnown then some d.sow.pos else none

/-- Enter a sowing stop at this unit's own position, with the reference it holds. -/
def sowStop (c : Cfg) (d : Dev) (s : Stop) (mask : W16) : Dev := detectStop c d s mask (knownPos d) d.sow.refCodes

/-! ## Dimensions (R131, R704) -/

/-- Replace one dimension. -/
def setDim (dm : Dims) (ax n : Nat) : Dims :=
  match ax with
  | 0 => { dm with nx := n }
  | 1 => { dm with ny := n }
  | _ => { dm with nz := n }

/-- Whether every dimension is known. -/
def dimsKnown (dm : Dims) : Bool := dm.nx != 0 && dm.ny != 0 && dm.nz != 0

/-- Pins of LVL_POS_A and LVL_POS_B for coordinates that differ or fall outside (R202). -/
def posMask (xy z : Bool) : W16 := BitVec.ofNat 16 (b2n xy + 2 * b2n z)

/-- What a unit knows from step 3 (R704): its coded position, or the ORIGIN unit's, and the dimensions of LVL_DIMS codes 0 to 14. -/
def initialSow (c : Cfg) : Sow :=
  let one := code c 2 == 0
  { Sow.reset with
    posKnown := one || isCoded c || isOrigin c
    pos := if one then ⟨0, 0, 0⟩ else if isCoded c then codedPos c else ⟨0, 0, 0⟩
    dims := (dimsOfCode (code c 2)).getD ⟨0, 0, 0⟩
    formed := one }

/-! ## Formation (R200 phase 8, R564) -/

/-- Barriers numbered from 0, and both washing lines asserted where LVL_LINE gives them an owner (R144, R564). -/
def assertLines (c : Cfg) (d : Dev) : Dev :=
  let b := decide (code c 9 ≤ 3)
  { d with line := { d.line with assertA := b, assertB := b, n := 0, ready := true, released := false } }

/-- FORMED: addresses, axis rings and global numbers are fixed, the ports of axes of dimension 1 are powered down, and both lines are asserted (R200, R201, R564). -/
def form (c : Cfg) (d : Dev) : Dev :=
  let d := modSow d fun x => { x with formed := true }
  let d := each allTrl d fun d i =>
    if dimOf d.sow.dims (i.val / 2) = 1 then modT d i fun x => { x with st := .unused, linkUp := false, txq := [], wire := [], lanes := [] } else d
  assertLines c d

/-! ## Roll call (R200 phase 7) -/

/-- Whether all coordinates on axes above `ax` are 0: the unit takes part in the roll call of `ax`. -/
def inRoll (p : Pos) (ax : Nat) : Bool := [0, 1, 2].all fun b => decide (b ≤ ax) || coordOf p b == 0

/-- The units counted by the roll calls from axis Z down to axis `ax`. -/
def rollExpected (dm : Dims) (ax : Nat) : Nat := ([0, 1, 2].map fun b => if ax ≤ b then dimOf dm b else 1).foldl (· * ·) 1

/-- Send a ROLLCALL on the + port of an axis. -/
def sendRoll (c : Cfg) (d : Dev) (ax count : Nat) : Dev :=
  sowSend d (fin6 (2 * ax)) { sowBase c d 6 with axis := ax, roll := count }

/-- Forward the ROLLCALLs of an axis that waited for this unit's result. -/
def rollOn (c : Cfg) (d : Dev) (ax r : Nat) : Dev :=
  let due := d.sow.rollWaiting.filter fun e => e.1 == ax
  let d := modSow d fun x => { x with rollWaiting := x.rollWaiting.filter fun e => e.1 != ax }
  each due d fun d e => sendRoll c d ax (((parseSow e.2.2.payload).roll + r) % 65536)

/-- The full count has come back to the ORIGIN unit: it forms the chain (R200 phase 8). -/
def finishRoll (c : Cfg) (d : Dev) (count : Nat) : Dev :=
  if count ≠ unitsIn d.sow.dims then sowStop c d .sowTopology 0
  else if isOrigin c ∧ !d.sow.formed then form c (sowFlood d false none (sowBase c d 7)) else d

/-- Take this unit's result into the roll calls of the axes from `ax` down, with fuel: an axis of dimension 1 is skipped; on another the unit starts the lap where its coordinate is 0, and else adds its result as the lap passes. -/
def advanceRoll (c : Cfg) : Nat → Dev → Nat → Nat → Dev
  | 0, d, _, _ => d
  | f + 1, d, ax, r =>
    if !inRoll d.sow.pos ax then d
    else if dimOf d.sow.dims ax = 1 then (if ax = 0 then finishRoll c d r else advanceRoll c f d (ax - 1) r)
    else
      let d := modSow d fun x => { x with rollReady := x.rollReady ++ [(ax, r)] }
      if coordOf d.sow.pos ax = 0 then sendRoll c d ax r else rollOn c d ax r

/-- A ROLLCALL arrives (R200 phase 7). -/
def takeRoll (c : Cfg) (d : Dev) (i : TPort) (f : TrlFrame) : Dev :=
  let m := parseSow f.payload
  let ax := m.axis
  if d.sow.posKnown && d.sow.checkPassed && coordOf d.sow.pos ax == 0 then
    if m.roll ≠ rollExpected d.sow.dims ax then sowStop c d .sowTopology 0
    else if ax = 0 then finishRoll c d m.roll else advanceRoll c 3 d (ax - 1) m.roll
  else match d.sow.rollReady.lookup ax with
    | some r => sendRoll c d ax ((m.roll + r) % 65536)
    | none => modSow d fun x => { x with rollWaiting := x.rollWaiting ++ [(ax, i.val, f)] }

/-! ## Positions (R200 phase 6) -/

/-- Begin the roll call once a POSITION that agrees has come on every up port. -/
def tryCheck (c : Cfg) (d : Dev) : Dev :=
  if d.sow.posSent && !d.sow.checkPassed && (sowPorts d false).all (fun i => d.sow.posSeen.contains i.val) && !stopped d then
    advanceRoll c 4 (modSow d fun x => { x with checkPassed := true }) 2 1
  else d

/-- Check a received POSITION against R193 and this unit's dimensions. -/
def checkPosition (c : Cfg) (d : Dev) (i : TPort) (m : SowMsg) : Dev :=
  if m.dims ≠ d.sow.dims then sowStop c d .sowShape 0
  else if m.pos ≠ posBytes (posOf d.sow.dims (facing d.sow.dims (addrOf d.sow.dims d.sow.pos) i.val)) then sowStop c d .sowTopology 0
  else tryCheck c (modSow d fun x => { x with posSeen := x.posSeen ++ [i.val] })

/-- A POSITION arrives: checked once this unit holds its own position and dimensions, else kept. -/
def takePosition (c : Cfg) (d : Dev) (i : TPort) (f : TrlFrame) : Dev :=
  if d.sow.posSent then checkPosition c d i (parseSow f.payload)
  else modSow d fun x => { x with held := x.held ++ [(i.val, f)] }

/-- Phase 6: the unit sends its POSITION, and checks those that came before (R200, R202). -/
def startPosition (c : Cfg) (d : Dev) : Dev :=
  if d.sow.posSent then d
  else if allTrl.any fun i => decide (1 < dimOf d.sow.dims (i.val / 2)) && d.trl[i].st == .silent then sowStop c d .sowTopology 0
  else
    let d := sowFlood d false none { sowBase c d 5 with pos := posBytes d.sow.pos }
    let d := modSow d fun x => { x with posSent := true }
    let early := d.sow.held.filter fun e => byteAt e.2.payload 0 == 5
    let d := modSow d fun x => { x with held := x.held.filter fun e => byteAt e.2.payload 0 != 5 }
    tryCheck c (each early d fun d e => checkPosition c d (fin6 e.1) (parseSow e.2.payload))

/-! ## Laps (R200 phases 3 to 5) -/

/-- The coded position lies outside the discovered dimensions (R132, R202): the pins to mark. -/
def outside (d : Dev) : W16 :=
  posMask (decide (d.sow.dims.nx ≤ d.sow.pos.x) || decide (d.sow.dims.ny ≤ d.sow.pos.y)) (decide (d.sow.dims.nz ≤ d.sow.pos.z))

/-- Go on to the laps from axis `ax`, with fuel: a unit whose coordinates from `ax` on are all 0 starts the lap of that axis; past the last axis the position phase begins. -/
def nextLap (c : Cfg) (ser : BitVec 48) : Nat → Dev → Nat → Dev
  | 0, d, _ => d
  | f + 1, d, ax =>
    if stopped d then d
    else if 3 ≤ ax then
      (if code c 2 = 15 ∧ isCoded c ∧ outside d ≠ 0 then sowStop c d .sowPosition (outside d)
       else if dimsKnown d.sow.dims then startPosition c d else d)
    else if dimOf d.sow.dims ax = 1 then nextLap c ser f d (ax + 1)
    else if d.sow.posKnown && !(d.sow.lapStarted.contains ax) && [0, 1, 2].all (fun b => decide (b < ax) || coordOf d.sow.pos b == 0) then
      sowSend (modSow d fun x => { x with lapStarted := x.lapStarted ++ [ax] }) (fin6 (2 * ax))
        { sowBase c d 3 with axis := ax, pos := posBytes (setCoord d.sow.pos ax 1), serial := ser }
    else d

/-- Learn an axis's dimension from its CLOSE, or at the return of this unit's SEED (R200, R202). -/
def learnDim (c : Cfg) (d : Dev) (ax n : Nat) : Dev :=
  if decide (code c 2 ≤ 14) && dimOf d.sow.dims ax != n then sowStop c d .sowShape 4
  else modSow d fun x => { x with dims := setDim x.dims ax n }

/-- A SEED arrives (R200, R202). -/
def takeSeed (c : Cfg) (ser : BitVec 48) (d : Dev) (f : TrlFrame) : Dev :=
  let m := parseSow f.payload
  let ax := m.axis
  let k := m.pos.getD ax 0
  let p : Pos := ⟨m.pos.getD 0 0, m.pos.getD 1 0, m.pos.getD 2 0⟩
  if m.serial = ser then
    if d.sow.lapStarted.contains ax ∧ !(d.sow.lapClosed.contains ax) then
      learnDim c (sowSend (modSow d fun x => { x with lapClosed := x.lapClosed ++ [ax] }) (fin6 (2 * ax))
        { sowBase c d 4 with axis := ax, serial := ser, dims := setDim d.sow.dims ax k }) ax k
    else d
  else if k = 4 then sowStop c d .sowShape 4
  else if d.sow.seeded || isOrigin c then sowStop c d .sowTopology 0
  else
    let own := codedPos c
    if isCoded c ∧ own ≠ p then
      detectStop c d .sowPosition (posMask (decide (own.x ≠ p.x) || decide (own.y ≠ p.y)) (decide (own.z ≠ p.z))) (some p) d.sow.refCodes
    else
      let teach (dm : Dims) (b : Nat) : Dims := if b < ax ∧ dimOf dm b = 0 then setDim dm b (dimOf m.dims b) else dm
      let d := modSow d fun x => { x with seeded := true, posKnown := true, pos := p, dims := teach (teach x.dims 0) 1 }
      sowSend d (fin6 (2 * ax)) { m with coded := isCoded c, dims := d.sow.dims, pos := posBytes (setCoord p ax (k + 1)) }

/-- A CLOSE arrives: its dimension is recorded, it is passed on unless this unit started the lap, and the next lap may start (R200). -/
def takeClose (c : Cfg) (ser : BitVec 48) (d : Dev) (f : TrlFrame) : Dev :=
  let m := parseSow f.payload
  if m.serial = ser then nextLap c ser 4 d (m.axis + 1)
  else
    let d := learnDim c d m.axis (dimOf m.dims m.axis)
    if stopped d then d
    else nextLap c ser 4 (sowSend d (fin6 (2 * m.axis)) { m with coded := isCoded c, dims := d.sow.dims }) (m.axis + 1)

/-! ## Hello, reference, formed and stop -/

/-- A HELLO arrives: the pairing check; where it passes, what waited for the port to be up goes (R196, R197). -/
def takeSowHello (c : Cfg) (d : Dev) (i : TPort) (f : TrlFrame) : Dev :=
  if d.trl[i].hello.isSome then d
  else
    let ok := (parseSow f.payload).port == facingPort i.val
    let due := d.trl[i].sowWait
    let d := modT d i fun x => { x with hello := some f, st := if ok then .up else .miswired, sowWait := [] }
    if ok then each due d fun d g => sendControl d i g else sowStop c d .sowTopology 0

/-- A REFERENCE arrives (R200 phase 2, R202). -/
def takeReference (c : Cfg) (ser : BitVec 48) (d : Dev) (i : TPort) (f : TrlFrame) : Dev :=
  let m := parseSow f.payload
  let originMask : W16 := BitVec.ofNat 16 (4096 * b2n (isOrigin c))
  if isOrigin c then (if m.serial = ser then d else sowStop c d .sowMultiOrigin originMask)
  else if d.sow.refHeld then (if m.serial = d.sow.refSerial then d else sowStop c d .sowMultiOrigin originMask)
  else
    let d := modSow d fun x => { x with refHeld := true, refSerial := m.serial, refCodes := some m.codes }
    let d := sowFlood d false (some i) { m with coded := isCoded c, dims := d.sow.dims }
    if mismatchMask c m.codes ≠ 0 then sowStop c d .cfgChainMismatch (mismatchMask c m.codes) else d

/-- FORMED arrives: the first copy is passed on, and the unit is formed (R200 phase 8). -/
def takeFormed (c : Cfg) (d : Dev) (i : TPort) (f : TrlFrame) : Dev :=
  if d.sow.formed then d else form c (sowFlood d false (some i) { parseSow f.payload with coded := isCoded c, dims := d.sow.dims })

/-- A STOP arrives: the unit enters that stop and passes it on (R203). The port that it reports is the STOP's `sender_port`, as R382 says, and not that of its own on which the STOP came, as R203 says (log 82). -/
def takeStop (c : Cfg) (d : Dev) (i : TPort) (f : TrlFrame) : Dev :=
  let m := parseSow f.payload
  match stopOfNat m.stop with
  | none => d
  | some s =>
    let mask := if s = .cfgChainMismatch then mismatchMask c m.codes else 0
    let pos := if m.pos = [255, 255, 255] then none else some ⟨m.pos.getD 0 0, m.pos.getD 1 0, m.pos.getD 2 0⟩
    let d := setStop d s mask pos (BitVec.ofNat 8 m.port) (some m.codes)
    sowFlood d true (some i) { m with coded := isCoded c, dims := d.sow.dims }

/-- Process one sowing frame (R200). A miswired port carries STOP only (R196). -/
def sowAct (c : Cfg) (ser : BitVec 48) (d : Dev) (i : TPort) (f : TrlFrame) : Dev :=
  if stopped d || (d.trl[i].st == .miswired && byteAt f.payload 0 != 8) then d
  else if d.sow.formed && byteAt f.payload 0 != 8 then d
  else match byteAt f.payload 0 with
    | 1 => takeSowHello c d i f
    | 2 => takeReference c ser d i f
    | 3 => takeSeed c ser d f
    | 4 => takeClose c ser d f
    | 5 => takePosition c d i f
    | 6 => takeRoll c d i f
    | 7 => takeFormed c d i f
    | 8 => if d.sow.formed then d else takeStop c d i f
    | _ => d

/-! ## Step 10 (R196, R200, R201) -/

/-- The ports that train: those of an axis that the dimensions use, or all six where they are not known (R173 step 9). -/
def trains (c : Cfg) (i : TPort) : Bool :=
  match dimsOfCode (code c 2) with
  | some dm => decide (1 < dimOf dm (i.val / 2))
  | none => true

/-- Whether step 10 may complete: every port that trains has linked or is silent, and one has linked, or this is the ORIGIN unit under code 15. -/
def step10Due (c : Cfg) (d : Dev) : Bool :=
  let ps := allTrl.filter (trains c)
  d.stat.trainStarted && !d.sow.step10 && !d.sow.formed && !stopped d && !ps.isEmpty &&
  ps.all (fun i => d.trl[i].linkUp || d.trl[i].st == .silent) &&
  (ps.any (fun i => d.trl[i].linkUp) || (isOrigin c && code c 2 == 15))

/-- Whether a port is silent where the dimensions need it or opposite a linked port (R202). -/
def silentBad (c : Cfg) (d : Dev) : Bool :=
  allTrl.any fun i => d.trl[i].st == .silent &&
    (decide (code c 2 ≤ 14) || d.trl[fin6 (facingPort i.val)].linkUp)

/-- Step 10 and what follows it at once: HELLO on every port that trained, the checks on silent ports, the ORIGIN unit's REFERENCE and first lap, and the frames that came early (R200, R201). -/
def tryStep10 (c : Cfg) (ser : BitVec 48) (d : Dev) : Dev :=
  if !step10Due c d then d
  else
    let own (dm : Dims) (ax : Nat) : Dims :=
      if dimOf dm ax = 0 ∧ d.trl[fin6 (2 * ax)].st = .silent ∧ d.trl[fin6 (2 * ax + 1)].st = .silent then setDim dm ax 1 else dm
    let d := modSow d fun x => { x with
      step10 := true, dims := own (own (own x.dims 0) 1) 2
      refHeld := isOrigin c, refSerial := if isOrigin c then ser else 0, refCodes := if isOrigin c then some (uniformCodes c) else none }
    if (allTrl.all fun i => !d.trl[i].linkUp) then form c d
    else
      let d := sowFlood d false none { sowBase c d 1 with
        pos := (if isCoded c then posBytes (codedPos c) else [0, 0, 0]), codes := uniformCodes c, serial := ser }
      let d := if silentBad c d then sowStop c d .sowTopology 0 else d
      let d := if isOrigin c ∧ !stopped d then
          nextLap c ser 5 (sowFlood d false none { sowBase c d 2 with codes := uniformCodes c, serial := ser }) 0
        else d
      let early := d.sow.held
      each early (modSow d fun x => { x with held := [] }) fun d e => sowAct c ser d (fin6 e.1) e.2

/-- A sowing frame of one kind arrives: kept until step 10, then processed (R200). -/
def sowFrame (c : Cfg) (ser : BitVec 48) (d : Dev) (i : TPort) (f : TrlFrame) (kind : Nat) : Dev :=
  if !d.trl[i].linkUp || f.kind != 5 || byteAt f.payload 0 != kind || stopped d then d
  else if d.sow.step10 then sowAct c ser d i f
  else modSow d fun x => { x with held := x.held ++ [(i.val, f)] }

/-! ## Deadlines (R204, R205) -/

/-- The HELLOs received, with their ports in order. -/
def hellos (d : Dev) : List SowMsg := allTrl.filterMap fun i => d.trl[i].hello.map fun f => parseSow f.payload

/-- A coded position as a number that orders addresses in any torus that contains it. -/
def posOrder (m : List Nat) : Nat := m.getD 0 0 + 4 * m.getD 1 0 + 16 * m.getD 2 0

/-- The codes that a unit compares against where no REFERENCE came (R205). Where two coded positions are the lowest, its own comes first, then the HELLO of the lower port (log 83). -/
def compareCodes (c : Cfg) (d : Dev) : List (BitVec 4) :=
  let hs := hellos d
  let coded := (hs.filter (·.coded)).map fun m => (posOrder m.pos, m.codes)
  let all := (if isCoded c then [(posOrder (posBytes (codedPos c)), uniformCodes c)] else []) ++ coded
  match all with
  | e :: es => (es.foldl (fun b x => if x.1 < b.1 then x else b) e).2
  | [] => ((hs.find? fun m => m.codes != uniformCodes c).map (·.codes)).getD (uniformCodes c)

/-- A non-ORIGIN unit's REFERENCE deadline (R205). -/
def referenceDeadline (c : Cfg) (d : Dev) : Dev :=
  if !d.sow.step10 || isOrigin c || d.sow.refHeld || d.sow.formed then d
  else if (hellos d).any fun m => m.codes != uniformCodes c then
    let ref := compareCodes c d
    detectStop c d .cfgChainMismatch (mismatchMask c ref) (knownPos d) (some ref)
  else sowStop c d .sowNoOrigin 0

end Sys2Proof.Machine
end

