-- ==== Sys2Proof/Machine/Link.lean ====
section
/-! DEFINITION. Links coming up and going down, on either side (R180, R220, R228, R231, R250, R251, R270, R283, R293, R300). -/
namespace Sys2Proof.Machine
open Sys2Proof

/-! ## Lemius -/

/-- The credits of a Lemius link up: 2 on VC3 in each direction and none elsewhere (R229). -/
def lemCreditInit : Vector Credit 4 :=
  (Vector.replicate 4 Credit.none).set 3 { Credit.none with lim := 2, adv := 2 }

/-- Link up on a leaf port (R220 step 4, R231). -/
def lemUp (d : Dev) (p : LPort) (mode : Nat) : Dev :=
  modP d p fun x => { x with
    phase := .up, mode := BitVec.ofNat 8 (mode + 1), darn := Darn.init, credit := lemCreditInit, txq := [],
    turn := Vector.replicate 4 0, sinceVc1 := 0, helloSeen := false, helloDone := false, reads := [], retired := [] }

/-- A ring whose link went down: off, with nothing fetched; its indices and its header's fields stay as they were until a header is adopted (R308, R332). -/
def ringDown (y : Ring) : Ring :=
  { Ring.reset with recs := y.recs, fails := y.fails, recorded := y.recorded, hdr := y.hdr, nextFetch := y.nextFetch, intake := y.intake }

/-- A leaf port whose link went down: PORTACT low, everything queued discarded, pocket pegs cleared, the transmitters in electrical idle (R180, R251, R656). -/
def portDown (x : LemPort) : LemPort :=
  { x with
    phase := .idleHold, mode := 0, darn := Darn.init, credit := Vector.replicate 4 Credit.none, txq := [],
    turn := Vector.replicate 4 0, sinceVc1 := 0, helloSeen := false, helloDone := false, present := false, started := false,
    portact := false, reads := [], retired := [], causes := 0, margin := none, marginReply := none, pocket := [], rings := x.rings.map ringDown, wire := [], lanes := [] }

/-- Take a port's descriptors out of the arrivals; their members are no longer covered, and one that has not reported and has none left is gone (R557, R578). -/
def leaveArrivals (d : Dev) (p : LPort) : Dev :=
  let arr := d.pegs.arrivals.map fun a =>
    let runs := a.runs.filter fun e => e.1 != p
    { a with runs := runs, covered := coveredBy d runs }
  { d with pegs := { d.pegs with arrivals := arr.filter fun a => a.arrived || !a.runs.isEmpty } }

/-- A ring's running descriptor goes with its link, without a record: what it holds for an open instance stays with the instance until that ends, and everything else is let go (R180, R527, R528). -/
def leaveDown (c : Cfg) (d : Dev) (p : LPort) (r : RingNo) : Dev :=
  match (ringAt d p r).cur with
  | some x =>
    let d := paidStaging d x
    if d.coll.insts.any fun y => y.runs.contains (p, r) then leaveInst (dropHoldReq d (tenantOf c p) p r) p r x
    else releaseHold d (tenantOf c p) p r x
  | none => d

/-- Link down on a leaf port: its descriptors end without a record, and the loss of its leaf is a fault of class 01h (R180, R332, R578, R617). -/
def lemDown (c : Cfg) (d : Dev) (p : LPort) : Dev :=
  if d.lem[p].phase ≠ .up then d
  else
    let d := each allRings d fun d r => leaveDown c d p r
    let d := bumpLem (modP (leaveArrivals d p) p portDown) p 6
    let d := modS d fun x => { x with startQueue := x.startQueue.filter (· != p) }
    let d := placeHeld c (tryArrivals c d)
    if stopped d then d else raiseOwn c d 1 p.val

/-! ## Trellis -/

/-- The credits of a Trellis link up (R283). -/
def trlCreditInit : Vector Credit 8 := Vector.ofFn fun v => { Credit.none with lim := trlLimit v.val, adv := trlLimit v.val }

/-- Link up on a Trellis port, with the lane margins measured (R270 step 4, R274, R283, R287). -/
def trlLinkUp (d : Dev) (i : TPort) (h v : List Byte) : Dev :=
  modT d i fun x => { x with
    linkUp := true, darn := Darn.init, credit := trlCreditInit, creditSel := 0, txq := [], slots := [], ptr := 0,
    sinceAlign := 0, alignSent := 0, alignSeen := 0, scramblerSeeded := true, hMargin := padTo 16 h, vMargin := padTo 16 v }

/-- A Trellis port whose link went down (R293, R705). -/
def trlPortDown (reason : Byte) (x : TrlPort) : TrlPort :=
  { x with
    linkUp := false, st := (if x.st = .miswired then TrlSt.miswired else TrlSt.down), downReason := reason, darn := Darn.init,
    credit := Vector.replicate 8 Credit.none, txq := [], sowWait := [], slots := [], wire := [], lanes := [], scramblerSeeded := false }

/-- Link down on a Trellis port: counted and paged; a sowing stop before FORMED, and after it a fault: of class 06h where the neighbour told that it resets or halts, else of class 07h (R202, R293, R617). -/
def trlDown (c : Cfg) (d : Dev) (i : TPort) (reason : Byte) (lost : Bool) : Dev :=
  if !d.trl[i].linkUp then d
  else
    let d := addCauseAll (bumpTrl (modT d i (trlPortDown reason)) i 6) 9
    if stopped d then d
    else if !d.sow.formed then sowStop c d .sowTopology 0
    else if lost then raiseFault c d 6 (facing d.sow.dims (ownAddr d) i.val) 0
    else raiseFault c d 7 (ownAddr d) i.val

/-- The retry limit takes a Trellis link down; LINK_DOWN with reason 03h goes first (R284, R293). -/
def trlRetryDown (c : Cfg) (d : Dev) (i : TPort) : Dev :=
  if !d.trl[i].linkUp then d
  else trlDown c (modT d i fun x => { x with lastLinkDown := 3, parting := linkDownBytes (ownAddr d) x 3 }) i 2 false

end Sys2Proof.Machine
end

