-- ==== Sys2Proof/Machine/Lemius.lean ====
section
/-! DEFINITION. The commands of a leaf port: training, Darn, the hello, nudges, link down and read completions (spec/07, R214 to R266, R703; R180 to R188, R316, R319, R325, R371). -/
namespace Sys2Proof.Machine
open Sys2Proof

/-! ## Training (R216, R217, R220) -/

/-- The one alternate protocol that the Vareg offers: its identifier and version (R217). -/
def lemiusOffer : W16 × Byte := (0x4C45, 1)

/-- The row of R218 on which a port settles: the first that holds, of x8 at 64 GT/s, x8 at 32 GT/s and x4 at 32 GT/s. -/
def settledRow (f : Training) : Option Nat :=
  if f.offers64 ∧ f.inOrder = 0xFF ∧ f.equal64 = 0xFF then some 0
  else if f.inOrder = 0xFF ∧ f.equal32 = 0xFF then some 1
  else if f.inOrder &&& 0x0F = 0x0F ∧ f.equal32 &&& 0x0F = 0x0F then some 2
  else none

/-- What a training comes to: Configuration completes only where the partner selects what the Vareg offers (R217), and equalisation on a row of R218. -/
def trainedRow (f : Training) : Option Nat := if f.selected = some lemiusOffer then settledRow f else none

/-- Link up (R220 step 4), on the row that the training comes to; a training that comes to none stays without a link, and LEMIUS_BACK_TO_DETECT ends it (R217, R218). -/
def execLemiusLinkUp (p : LPort) (found : Training) (s : State) : Host.Outcome State Fault Refusal :=
  onDev s fun d => if d.lem[p].phase = .training then (match trainedRow found with
    | some m => lemUp d p m
    | none => d) else d

/-- Training starts again from Detect. -/
def backToDetect (d : Dev) (p : LPort) : Dev :=
  if d.lem[p].phase = .training ∨ d.lem[p].phase = .loopback then modP d p fun x => { x with phase := .training } else d

/-- The partner misses a latest bound (R220). -/
def execLemiusTrainingTimeout (p : LPort) (s : State) : Host.Outcome State Fault Refusal :=
  onDev s fun d => backToDetect d p

/-- The partner does not select Lemius, or no rate and width fit (R215, R217, R218). -/
def execLemiusBackToDetect (p : LPort) (s : State) : Host.Outcome State Fault Refusal :=
  onDev s fun d => backToDetect d p

/-- The 4 µs hold of electrical idle ends, and the port is in Detect (R251). -/
def execElectricalIdleHoldEnd (p : LPort) (s : State) : Host.Outcome State Fault Refusal :=
  onDev s fun d => if d.lem[p].phase = .idleHold then modP d p fun x => { x with phase := .training } else d

/-- A Lane Margining request, which the port answers as margined receiver, on the lane that it names (R216). -/
def execLaneMarginingRequest (p : LPort) (m : MarginRequest) (s : State) : Host.Outcome State Fault Refusal :=
  onDev s fun d =>
    if d.lem[p].phase = .up then
      let a := Config.marginAnswer d.free
      modP (draw d).2 p fun x => { x with margin := some m, marginReply := some { lane := m.lane, command := a.1, payload := a.2 } }
    else d

/-- The partner asks for Loopback during training: the port follows (R216, R269). -/
def execLoopbackFollowerEntry (trellis : Bool) (port : Fin 8) (s : State) : Host.Outcome State Fault Refusal :=
  onDev s fun d =>
    if trellis then
      (if port.val < 6 ∧ d.trl[fin6 port.val].st = .training ∧ !d.trl[fin6 port.val].linkUp then
        modT d (fin6 port.val) fun x => { x with loopFollower := true } else d)
    else if d.lem[port].phase = .training then modP d port fun x => { x with phase := .loopback } else d

/-! ## Darn -/

/-- A frame's 256 bytes arrive (R225, R228, R232); a replay past the limit takes the link down (R234). -/
def execLemiusFrameReceive (p : LPort) (bytes : List Byte) (fixes : FecFix) (s : State) : Host.Outcome State Fault Refusal :=
  onDev s fun d =>
    let r := lemRx d p (fecApply bytes fixes) (fecFixed fixes)
    if r.2 then epilogue s.cfg (lemDown s.cfg r.1 p) else r.1

/-- The replay timer expires (R234, R253). -/
def execLemiusReplayTimer (p : LPort) (s : State) : Host.Outcome State Fault Refusal :=
  onDev s fun d =>
    if d.lem[p].phase = .up ∧ timerRuns d.lem[p].darn then
      match lemReplay d p false with
      | some d => d
      | none => epilogue s.cfg (lemDown s.cfg d p)
    else d

/-! ## The hello (R236 to R239, R703) -/

/-- Whether a frame's content is a leaf frame of this kind on VC3 with this length (R226). -/
def isLeafFrame (f : LemFrame) (kind len : Nat) : Bool := f.kind.toNat == kind && f.vc == 3 && f.payload.length == len

/-- The result with which a HELLO is answered (R181, R237, R703). -/
def helloResultOf (x : LemPort) (m : HelloMsg) : Byte :=
  if !helloValid m then 1
  else match x.outOfUse with
    | some r => r
    | none => match x.fixedCount with
      | some n => if n = m.cores then 0 else 2
      | none => 0

/-- Take a HELLO: what a valid one carries takes effect, and the HELLO_ACK is queued (R181, R229, R237, R238, R703). -/
def takeHello (c : Cfg) (d : Dev) (p : LPort) (m : HelloMsg) : Dev :=
  let x := d.lem[p]
  let r := helloResultOf x m
  let cores := if r = 0 then min m.cores (coreCap (code c 10)) else 0
  let d := modP d p fun x => { x with
    helloSeen := true
    outOfUse := match x.outOfUse with
      | some q => some q
      | none => if r = 0 then none else some r
    hello := if helloValid m then m.info else x.hello
    reported := m.cores
    credit := if helloValid m then x.credit.mapFinIdx fun k cr _ => { cr with lim := m.adv.getD k 0 } else x.credit }
  pushTx d p [{ vc := 3, stream := 8, body := .frame (.helloAck cores r.toNat) }]

/-- A HELLO arrives: one for each link up; a further one, or one whose reserved bytes are not zero, is discarded (R236, R239, R260). -/
def execHello (p : LPort) (f : LemFrame) (s : State) : Host.Outcome State Fault Refusal :=
  onDev s fun d =>
    if !(d.lem[p].phase == .up && isLeafFrame f 5 0x30) then d
    else if d.lem[p].helloSeen || !allZero f.payload 2 2 then lemDiscard d p
    else takeHello s.cfg d p (parseHello f.payload)

/-- The HELLO_ACK has been sent, and its credits hold: with result 00h step 8 is complete and the count is fixed; with 02h a page is due, unless the unit is in a stop; in a stop, the stop's page is written again (R57, R125, R181, R186, R187, R229, R238, R653). -/
def completeHello (c : Cfg) (d : Dev) (p : LPort) (cores result : Nat) : Dev :=
  let ok := result == 0
  let d := modP d p fun x => { x with
    helloDone := true, helloResult := BitVec.ofNat 8 result, accepted := BitVec.ofNat 8 cores
    credit := x.credit.mapFinIdx fun k cr _ => { cr with adv := [64, 128, 0, 8].getD k 0 }
    present := ok
    fixedCount := if ok && x.fixedCount.isNone then some x.reported else x.fixedCount
    causes := (if ok then (if stopped d then 4 else 0) else if result = 2 ∧ !stopped d then 16 else 0) }
  if !ok then d
  else
    let d := if d.stat.ready then modS d fun x => { x with startQueue := x.startQueue ++ [p] } else d
    epilogue c (placeHeld c (tryArrivals c d))

/-! ## Nudges (R239, R249, R316) -/

/-- What an honoured nudge does to the ring it names, as the ring stands (R316): a nudge of a ring that does not run reads the header, whatever read of it is under way; one that comes while a fence adopts a header waits for the adoption (R337). -/
def nudgeNow (c : Cfg) (d : Dev) (p : LPort) (r : RingNo) : Dev :=
  let x := ringAt d p r
  if x.st = .running then
    if x.waiting then
      let out := readsOut d p r isSlots
      let d := modR d p r fun x => { x with refetchPending := true, refetches := if out then x.refetches else 0 }
      if out then d else readWaiting d p r
    else fetchMore d p r
  else if x.adopting.isSome then modR d p r fun x => { x with nudged := true }
  else if headerOpen c d p r then readHeaderAgain c d p r
  else d

/-- An honoured nudge: a header that has been read is adopted first (R337). -/
def nudgeRing (c : Cfg) (d : Dev) (p : LPort) (r : RingNo) : Dev := nudgeNow c (takePending c d p r) p r

/-- A NUDGE arrives (R79, R239, R249). -/
def execNudge (p : LPort) (f : LemFrame) (s : State) : Host.Outcome State Fault Refusal :=
  onDev s fun d =>
    let x := d.lem[p]
    if !(x.phase == .up && isLeafFrame f 4 2) then d
    else if !(x.helloDone && x.present) || byteAt f.payload 0 != p.val || decide (7 < byteAt f.payload 1) then lemDiscard d p
    else if !x.started then d
    else nudgeRing s.cfg (bumpLem d p 10) p (fin8 (byteAt f.payload 1))

/-! ## Link down (R180, R250, R251) -/

/-- LINK_DOWN arrives, at any moment: its reason is kept, and the link is down (R180, R239, R250). -/
def execLeafLinkDownFrame (p : LPort) (f : LemFrame) (s : State) : Host.Outcome State Fault Refusal :=
  onDev s fun d =>
    if !(d.lem[p].phase == .up && isLeafFrame f 7 1) then d
    else epilogue s.cfg (lemDown s.cfg (modP d p fun x => { x with downReason := f.payload.getD 0 0 }) p)

/-- Electrical idle on lane 0 for more than 2 µs (R180). -/
def execLane0ElectricalIdle (p : LPort) (s : State) : Host.Outcome State Fault Refusal :=
  onDev s fun d => if d.lem[p].phase = .up then epilogue s.cfg (lemDown s.cfg d p) else d

/-! ## Read completions (R240 to R243) -/

/-- A READ_CPL as R241 wants it: the bytes are those that the read expects next. -/
def cplFits (o : ReadOut) (f : LemFrame) : Bool :=
  let off := f.addr.toNat / 2 ^ 16 % 2 ^ 13
  f.vc.toNat == o.want.vc && off == o.got.length &&
  (if f.status = 0 then
     f.payload.length == min 224 (o.want.size - off) && f.last == (off + f.payload.length == o.want.size)
   else f.payload.isEmpty && f.last && off == 0)

/-- Remove an outstanding read. -/
def endRead (d : Dev) (p : LPort) (tag : Nat) : Dev := modP d p fun x => { x with reads := x.reads.filter fun o => o.tag != tag }

/-- The 128-byte slots of a run of consecutive indices. -/
def slotRun (first : W16) : Nat → List Byte → List (W16 × List Byte)
  | 0, _ => []
  | n + 1, bs => (first, bs.take 128) :: slotRun (first + 1) n (bs.drop 128)

/-- Whether a read of slots begins within a run of `n` slots from index `first`. -/
def slotsWithin (first : W16) (n : Nat) (w : ReadWhy) : Bool :=
  match w with
  | .slots _ i _ => decide ((i - first).toNat < n)
  | _ => false

/-- The recipe has been read: a recipe that is not valid ends the descriptor with RECIPE_INVALID (R369, R371). -/
def takeRecipe (c : Cfg) (d : Dev) (p : LPort) (r : RingNo) (bs : List Byte) : Dev :=
  let n := bs.length / 16
  if recipeOk n bs then
    modHead d p r fun h => { h with stage := .ready, recipe := bs, warnings := if recipeUnused n bs then h.warnings ||| 64 else h.warnings }
  else failHead c d p r 8

/-- A read has completed with its data (R310, R315, R325, R371, R410). -/
def readGood (c : Cfg) (d : Dev) (p : LPort) (w : ReadWhy) (bs : List Byte) : Dev :=
  match w with
  | .header r => modR (takePending c d p r) p r fun x => { x with hdrData := some bs, retry := x.retry.filter fun w => !isHeader w }
  | .slots r first n => modR d p r fun x => { x with slotData := x.slotData ++ slotRun first n bs, retry := x.retry.filter fun w => !(slotsWithin first n w) }
  | .recipe r => takeRecipe c d p r bs
  | .memberList r off =>
    let d := modHead d p r fun h => { h with list := h.list.map fun l => patch l off bs, countsLeft := h.countsLeft - 1 }
    match (ringAt d p r).head with
    | some h => if h.countsLeft = 0 then afterList c d p r else d
    | none => d
  | .counts r off =>
    let d := modHead d p r fun h => { h with counts := patch h.counts off bs, countsLeft := h.countsLeft - 1 }
    match (ringAt d p r).head with
    | some h => if h.countsLeft = 0 then judgeHead c d p r else d
    | none => d
  | .input r k off => modRun d p r fun x => { x with
      inputs := x.inputs.map (fun e => if e.1 = k then (k, patch e.2 off bs) else e), readsLeft := x.readsLeft - 1, spoolPending := true }
  | .yardSrc r off => match (ringAt d p r).cur with
    | some x => modRun (writeYard c d (tenantOf c p) (leNat x.desc 0x30 4 + off) bs) p r fun x => { x with readsLeft := x.readsLeft - 1 }
    | none => d

/-- A slot was left unread: it counts as not new, and the ring waits at it (R315, R319). -/
def slotUnread (d : Dev) (p : LPort) (r : RingNo) (first : W16) : Dev :=
  let later (w : ReadWhy) : Bool := match w with
    | .slots _ i _ => indexBefore first i
    | _ => false
  modR (dropReads d p r later) p r fun x => { x with
    slotData := x.slotData.filter (fun e => !(indexBefore first e.1)), waiting := true, nextFetch := first
    refetches := if x.refetchPending then 4 else x.refetches, refetchPending := false
    retry := (x.retry.filter fun w => !isSlots w) ++ [.slots r first 1] }

/-- A structure of the head descriptor was left unread: it is read again, up to 4 times; then the descriptor ends with LEAF_READ_ERROR (R325, R371). -/
def headUnread (c : Cfg) (d : Dev) (p : LPort) (r : RingNo) (w : ReadWhy) : Dev :=
  match (ringAt d p r).head with
  | none => d
  | some h =>
    let d := modHead (dropReads d p r isHeadRead) p r fun h => { h with recipeTries := h.recipeTries + 1 }
    if h.recipeTries + 1 < 5 then modR d p r fun x => { x with retry := (x.retry.filter fun w => !isHeadRead w) ++ [w] }
    else match w with
      | .recipe _ => failHead c d p r 0x20
      | .memberList .. => judgeHead c (modHead d p r fun h => { h with readFailed := true, list := none }) p r
      | _ => judgeHead c (modHead d p r fun h => { h with readFailed := true }) p r

/-- A read on VC0 has failed, or timed out, which is the same (R242, R243, R319). -/
def readBad (c : Cfg) (d : Dev) (p : LPort) (w : ReadWhy) : Dev :=
  match w with
  | .header r => modR d p r fun x => { x with retry := (x.retry.filter fun w => !isHeader w) ++ [w] }
  | .slots r first _ => slotUnread d p r first
  | .recipe r | .memberList r _ | .counts r _ => headUnread c d p r w
  | .input .. | .yardSrc .. => d

/-- Count a failed read: on VC0 for the port, and for the ring where it was of a slot or a header; on VC1 as an error or a timeout (R242, R243, R383, R384). -/
def countFailed (d : Dev) (p : LPort) (w : ReadWant) (timeout : Bool) : Dev :=
  if w.vc = 0 then
    let d := bumpLem d p 7
    if isHeader w.why || isSlots w.why then bumpRing d p (whyRing w.why) true else d
  else bumpLem d p (if timeout then 9 else 8)

/-- A read whose data was to be discarded has ended: the prefetch window has room again (R314, R327). -/
def discardedEnds (d : Dev) (p : LPort) (w : ReadWhy) : Dev := if isSlots w then fetchMore d p (whyRing w) else d

/-- A read has failed for good: its tag has ended (R242, R243, R327). -/
def readFails (c : Cfg) (d : Dev) (p : LPort) (o : ReadOut) (timeout : Bool) : Dev :=
  let d := countFailed (endRead d p o.tag) p o.want timeout
  if o.discard then discardedEnds d p o.want.why
  else if o.want.vc = 0 then readBad c d p o.want.why
  else failBulk d p (whyRing o.want.why) (if timeout then 0x21 else 0x20) (if timeout then 3 else 2)

/-- A READ_CPL arrives (R241 to R243). -/
def takeCpl (c : Cfg) (d : Dev) (p : LPort) (f : LemFrame) : Dev :=
  match d.lem[p].reads.find? fun o => o.tag == f.addr.toNat % 4096 with
  | none => lemDiscard d p
  | some o =>
    if !cplFits o f then lemDiscard d p
    else if f.status ≠ 0 then readFails c d p o false
    else
      let got := o.got ++ f.payload
      if f.last then (let d := endRead d p o.tag; if o.discard then discardedEnds d p o.want.why else readGood c d p o.want.why got)
      else modP d p fun x => { x with reads := x.reads.map fun q => if q.tag = o.tag then { q with got := got } else q }

/-- A READ_CPL arrives. -/
def execReadCpl (p : LPort) (f : LemFrame) (s : State) : Host.Outcome State Fault Refusal :=
  onDev s fun d => if d.lem[p].phase = .up ∧ f.kind = 2 then epilogue s.cfg (takeCpl s.cfg d p f) else d

/-- An outstanding read times out, and its tag is retired (R243). -/
def execReadTimeout (p : LPort) (tag : BitVec 10) (s : State) : Host.Outcome State Fault Refusal :=
  onDev s fun d =>
    match d.lem[p].reads.find? fun o => o.tag == tag.toNat with
    | none => d
    | some o => epilogue s.cfg (readFails s.cfg (modP d p fun x => { x with retired := x.retired ++ [tag.toNat] }) p o true)

/-- A tag's retirement ends (R243). -/
def execTagRetireEnd (p : LPort) (tag : BitVec 10) (s : State) : Host.Outcome State Fault Refusal :=
  onDev s fun d => modP d p fun x => { x with retired := x.retired.filter (· != tag.toNat) }

end Sys2Proof.Machine
end

