-- ==== Sys2Proof/Machine/Rings.lean ====
section
/-! DEFINITION. The commands of a work ring: headers, fetching, dependencies, the admission of each kind of descriptor, and the record (spec/09, R306 to R342; R359 to R370, R422, R483, R515 to R529, R706). -/
namespace Sys2Proof.Machine
open Sys2Proof

/-! ## Headers and slots (R310, R315 to R319, R333) -/

/-- A header read completes (R310). -/
def execHeaderRead (p : LPort) (r : RingNo) (s : State) : Host.Outcome State Fault Refusal :=
  onDev s fun d => takePending s.cfg d p r

/-- The slots that reads have brought are checked in index order (R315). -/
def execDescriptorFetch (p : LPort) (r : RingNo) (s : State) : Host.Outcome State Fault Refusal :=
  onDev s fun d =>
    if (ringAt d p r).slotData.isEmpty then d
    else epilogue s.cfg (fetchMore (takeSlots p r 9 d) p r)

/-- The poll interval of a ring expires (R317, R337): one read of the slot it waits at, or of its header. -/
def execPollTimer (p : LPort) (r : RingNo) (s : State) : Host.Outcome State Fault Refusal :=
  onDev s fun d =>
    let x := ringAt d p r
    if x.hdr.pollCode = 0 ∨ x.st = .off then d
    else if x.st = .running then (if x.waiting then readWaiting d p r else d)
    else if headerOpen s.cfg d p r then readHeader s.cfg d p r else d

/-- A re-fetch after a nudge falls due (R316). -/
def execRefetchTimer (p : LPort) (r : RingNo) (s : State) : Host.Outcome State Fault Refusal :=
  onDev s fun d =>
    let x := ringAt d p r
    if x.st = .running ∧ x.waiting ∧ 0 < x.refetches ∧ !(readsOut d p r isSlots) then
      readWaiting (modR d p r fun x => { x with refetches := x.refetches - 1 }) p r
    else d

/-- Read again one structure that was left unread (R319, R325, R371). -/
def retryRead (c : Cfg) (d : Dev) (p : LPort) (r : RingNo) (w : ReadWhy) : Dev :=
  match w, (ringAt d p r).queue with
  | .header _, _ => if headerOpen c d p r then readHeader c d p r else d
  | .slots .., _ => if (ringAt d p r).st = .running ∧ (ringAt d p r).waiting then readWaiting d p r else d
  | .recipe _, q :: _ => wantRead d p { why := .recipe r, vc := 0, addr := dRecipeAddr q.bytes, size := 16 * dRecipeOps q.bytes }
  | .memberList .., q :: _ => readList d p r q.bytes
  | .counts .., q :: _ =>
    let list := match (ringAt d p r).head with
      | some h => h.list.getD []
      | none => []
    readCounts d p r (countsRange q.bytes (namedCount c d (tenantOf c p) (ownGroup d q.bytes list)))
  | _, _ => d

/-- The retry of a failed read on VC0 falls due (R319, R325). -/
def execReadRetryTimer (p : LPort) (r : RingNo) (s : State) : Host.Outcome State Fault Refusal :=
  onDev s fun d =>
    let ws := (ringAt d p r).retry
    each ws (modR d p r fun x => { x with retry := x.retry.filter fun w => !isHeadRead w }) fun d w => retryRead s.cfg d p r w

/-! ## Dependencies (R322, R323, R551) -/

/-- Dependency `k` of the head descriptor is satisfied, and the descriptor may be admitted (R321, R322). -/
def execDependencySatisfied (p : LPort) (r : RingNo) (k : Fin 4) (s : State) : Host.Outcome State Fault Refusal :=
  onDev s fun d =>
    let d := judgeRing s.cfg d p r
    match (ringAt d p r).head with
    | some h => if h.stage = .waiting ∧ h.met.getD k.val false then epilogue s.cfg (advanceHead s.cfg d p r) else d
    | none => d

/-- Send an UNWATCH for every watch that the head descriptor still holds (R551). -/
def sendUnwatches (c : Cfg) (d : Dev) (p : LPort) (r : RingNo) (desc : Desc) (h : Head) : Dev :=
  each [0, 1, 2, 3] d fun d k => match h.watchIds.getD k none with
    | some id => if h.met.getD k true then d else sendWatch c d p r desc k id 3
    | none => d

/-- The wait watchdog expires: a head whose dependencies are not all satisfied ends with WAIT_TIMEOUT (R323, R551, R385, R387). -/
def waitTimeout (c : Cfg) (d : Dev) (p : LPort) (r : RingNo) : Dev :=
  match (ringAt d p r).head, (ringAt d p r).queue with
  | some h, q :: _ =>
    if h.stage ≠ .waiting ∨ h.status ≠ 0 ∨ h.met.all id then d
    else
      let d := sendUnwatches c d p r q.bytes h
      let d := bumpHealth (bumpTenant c d (tenantOf c p) 5) 5
      failHead c d p r 0x10
  | _, _ => d

/-- The wait watchdog of a head descriptor expires; satisfaction in the same cycle prevails (R323). -/
def execWaitTimeoutExpiry (p : LPort) (r : RingNo) (s : State) : Host.Outcome State Fault Refusal :=
  onDev s fun d => epilogue s.cfg (waitTimeout s.cfg (judgeRing s.cfg d p r) p r)

/-! ## Admission of each kind (R321, R359) -/

/-- Admit a ready head whose descriptor a test accepts, and run what its kind does. -/
def admitWhen (c : Cfg) (d : Dev) (p : LPort) (r : RingNo) (ok : Desc → Bool) (act : Dev → Run → Dev) : Dev :=
  match (ringAt d p r).head, (ringAt d p r).queue with
  | some h, q :: _ =>
    if h.stage = .ready ∧ h.status = 0 ∧ ok q.bytes then
      let d := admitHead c d p r
      match (ringAt d p r).cur with
      | some x => epilogue c (act d x)
      | none => d
    else d
  | _, _ => d

/-- A descriptor that runs nothing more is ready for its record. -/
def finishRun (d : Dev) (p : LPort) (r : RingNo) (aux : Nat) : Dev := modRun d p r fun x => { x with finished := true, aux := aux }

/-- A running descriptor met an uncorrectable error: CHECK_ERROR, and a fault of this unit (R51, R476, R522, R617). -/
def checkError (d : Dev) (p : LPort) (r : RingNo) : Dev :=
  let d := modRun d p r fun x => { x with status := 0x22, finished := true, metFault := true }
  { d with recov := { d.recov with due := d.recov.due ++ [(5, 0)] } }

/-- NOP (R359). -/
def execNop (p : LPort) (r : RingNo) (s : State) : Host.Outcome State Fault Refusal :=
  onDev s fun d => admitWhen s.cfg d p r (fun q => dKind q == 0) fun d _ => finishRun d p r 0

/-- Whether this unit receives the result of a resident accumulation (R412, R515). -/
def receivesHere (d : Dev) (desc : Desc) : Bool := dOp desc != 1 || rootUnit desc == ownAddr d

/-- Run an admitted collective descriptor: it asks for its hold, its region is cleared first where it says so, and it is placed (R396, R517, R525). -/
def runColl (c : Cfg) (d : Dev) (p : LPort) (r : RingNo) (x : Run) : Dev :=
  let d := askStore c d (tenantOf c p) (.hold p r x.holdStripes)
  let d := modRun d p r fun y => { y with aux := y.named.length, clearing := dKind x.desc == 4 && dClear x.desc && receivesHere d x.desc }
  match (ringAt d p r).cur with
  | some y => placeColl c d p r y
  | none => d

/-- Admit a collective descriptor of this kind and operation. -/
def admitColl (c : Cfg) (d : Dev) (p : LPort) (r : RingNo) (kind op : Nat) : Dev :=
  admitWhen c d p r (fun q => dKind q == kind && dOp q == op) fun d x => runColl c d p r x

/-- Broadcast (R405). -/
def execBroadcast (p : LPort) (r : RingNo) (s : State) : Host.Outcome State Fault Refusal :=
  onDev s fun d => admitColl s.cfg d p r 1 0

/-- Reduce to one (R405). -/
def execReduceToOne (p : LPort) (r : RingNo) (s : State) : Host.Outcome State Fault Refusal :=
  onDev s fun d => admitColl s.cfg d p r 1 1

/-- All-reduce (R405). -/
def execAllReduce (p : LPort) (r : RingNo) (s : State) : Host.Outcome State Fault Refusal :=
  onDev s fun d => admitColl s.cfg d p r 1 2

/-- Reduce-scatter (R407). -/
def execReduceScatter (p : LPort) (r : RingNo) (s : State) : Host.Outcome State Fault Refusal :=
  onDev s fun d => admitColl s.cfg d p r 1 3

/-- All-gather (R405). -/
def execAllGather (p : LPort) (r : RingNo) (s : State) : Host.Outcome State Fault Refusal :=
  onDev s fun d => admitColl s.cfg d p r 1 4

/-- Exchange of equal sizes (R405). -/
def execExchangeEqualSizes (p : LPort) (r : RingNo) (s : State) : Host.Outcome State Fault Refusal :=
  onDev s fun d => admitColl s.cfg d p r 2 0

/-- Exchange of unequal sizes (R418). -/
def execExchangeUnequalSizes (p : LPort) (r : RingNo) (s : State) : Host.Outcome State Fault Refusal :=
  onDev s fun d => admitColl s.cfg d p r 2 1

/-- RESIDENT_ACCUM (R422). -/
def execResidentAccum (p : LPort) (r : RingNo) (s : State) : Host.Outcome State Fault Refusal :=
  onDev s fun d => admitWhen s.cfg d p r (fun q => dKind q == 4) fun d x => runColl s.cfg d p r x

/-! ## YARD_LOAD (R364, R483) -/

/-- Steps 2 and 3 of R483: overlapping entries go, and the source is read into the yard. -/
def copyYard (c : Cfg) (d : Dev) (p : LPort) (r : RingNo) (desc : Desc) : Dev :=
  let t := tenantOf c p
  let n := loadBytes desc
  let src := leNat desc 0x38 8
  let d := dropBlocks d t (leNat desc 0x30 4) n
  let d := modRun d p r fun y => { y with yardStage := 1 }
  if bitOf (byteAt desc 0x29) 0 then
    let bad := (spoolWords c t src n).filter fun w => !wordGood d w
    if bad.isEmpty then writeYard c d t (leNat desc 0x30 4) (spoolBytes c d t src n)
    else checkError (meetBad d bad) p r
  else
    let ps := readPieces src n
    each ps (modRun d p r fun y => { y with readsLeft := ps.length }) fun d e =>
      wantRead d p { why := .yardSrc r e.1, vc := 1, addr := e.2.1, size := e.2.2 }

/-- Steps 1 to 3 of R483: at admission a directory entry is kept for the block, and with none left the descriptor ends with OUT_OF_SHARE (log 103). -/
def runYardLoad (c : Cfg) (d : Dev) (p : LPort) (r : RingNo) (x : Run) : Dev :=
  if entriesLeft c d (tenantOf c p) p r x.desc = 0 then endWith d p r 4 else copyYard c d p r x.desc

/-- YARD_LOAD (R483 steps 1 to 3). -/
def execYardLoad (p : LPort) (r : RingNo) (s : State) : Host.Outcome State Fault Refusal :=
  onDev s fun d => admitWhen s.cfg d p r (fun q => dKind q == 3) fun d x => runYardLoad s.cfg d p r x

/-- The source of a YARD_LOAD is copied: its block is registered (R483 step 4). -/
def execYardBlockRegister (p : LPort) (r : RingNo) (s : State) : Host.Outcome State Fault Refusal :=
  onDev s fun d => match (ringAt d p r).cur with
    | some x =>
      if dKind x.desc = 3 ∧ x.yardStage = 1 ∧ x.readsLeft = 0 ∧ !x.finished then
        finishRun (modRun (registerBlock s.cfg d (tenantOf s.cfg p) x.desc) p r fun y => { y with yardStage := 2 }) p r (loadBytes x.desc)
      else d
    | none => d

/-! ## RESIDENT_FLUSH (R366, R515 to R517, R706) -/

/-- A flush's descriptor as the accumulating descriptors gave the region: a sum (R366, R515). -/
def flushDesc (desc : Desc) : Desc := patch desc 0x28 [0x11]

/-- The words of element `i`, numbered from the start of the region. -/
def elemWordNos (desc : Desc) (i : Nat) : List Nat :=
  let lay := layoutOf desc
  let (vo, ko) := elemOff lay i
  (List.range ((vo + lay.1 - 1) / 32 + 1 - vo / 32)).map (· + vo / 32) ++ [ko / 32]

/-- The physical address of word `k` of a region. -/
def regionWord (c : Cfg) (t : Tenant) (desc : Desc) (k : Nat) : Nat := spoolPhys c t (dSpoolAddr desc + 32 * k)

/-- The bad words that a flush meets. -/
def flushBad (c : Cfg) (d : Dev) (t : Tenant) (desc : Desc) : List Nat :=
  (badWordsOf d.store).filter fun w =>
    (List.range (dCount desc)).any fun i => (elemWordNos desc i).any fun k => regionWord c t desc k == w

/-- Clear the words of a region that a test names. -/
def clearWords (c : Cfg) (d : Dev) (t : Tenant) (desc : Desc) (f : Nat → Bool) : Dev :=
  let hit (w : Nat) : Bool := (List.range (regionBytes desc / 32)).any fun k => f k && regionWord c t desc k == w
  modStore d fun s => cureWords { s with spool := s.spool.filter fun e => !(hit (e.1 / 32 * 32)) } hit

/-- The value of element `i` as a flush writes it: rounded to `out_fmt` (R449, R453). -/
def flushElem (c : Cfg) (d : Dev) (t : Tenant) (desc : Desc) (i : Nat) : List Byte :=
  let fd := flushDesc desc
  toLe (accOut (arithOf fd) (dOutFmt fd) (dRound fd) (elemRead c d t fd i).1) (fmtBytes (dOutFmt fd))

/-- Run a RESIDENT_FLUSH: every element is read and rounded, and the region cleared where the descriptor says so; where it meets a bad word it ends with CHECK_ERROR, and under `clear_after` any set of good words may have been cleared, each element that was cleared whole being written (R706). Every Spool write of a descriptor is made in the happening that causes it, so that a later descriptor always reads the new value (R326; log 88). -/
def runFlush (c : Cfg) (d : Dev) (p : LPort) (r : RingNo) (x : Run) : Dev :=
  let t := tenantOf c p
  let desc := x.desc
  let w := codeBytes (dOut desc)
  let bad := flushBad c d t desc
  let out := leNat desc 0x40 8
  if bad.isEmpty then
    let bs := (List.range (dCount desc)).flatMap (flushElem c d t desc)
    let d := outWrite d p r out w bs
    let d := if dClear desc then modRun (clearSpool c d t (dSpoolAddr desc) (regionBytes desc)) p r fun y => { y with spoolPending := true } else d
    finishRun d p r (dCount desc)
  else if dClear desc then
    let (k, d) := draw d
    let cleared (i : Nat) : Bool := Config.flushCleared k i && !(bad.contains (regionWord c t desc i))
    let es := (List.range (dCount desc)).filter fun i => (elemWordNos desc i).all cleared
    let written := es.map fun i => (i, flushElem c d t desc i)
    let d := each written d fun d e => outPiece d p r out w (out + e.1 * w) e.2
    let d := clearWords c (meetBad d bad) t desc cleared
    checkError (modRun d p r fun y => { y with aux := es.length, spoolPending := true }) p r
  else checkError (meetBad d bad) p r

/-- RESIDENT_FLUSH (R366). -/
def execResidentFlush (p : LPort) (r : RingNo) (s : State) : Host.Outcome State Fault Refusal :=
  onDev s fun d => admitWhen s.cfg d p r (fun q => dKind q == 5) fun d x => runFlush s.cfg d p r x

/-! ## PEG_OP (R367, R542 to R548) -/

/-- Whether the next entry to apply from place `k` has operation `pop`, or there is none. -/
def nextPop (desc : Desc) (k pop : Nat) : Bool := decide (4 ≤ skipNone desc 4 k) || ePop (dEntry desc (skipNone desc 4 k)) == pop

/-- Apply the next entry of the PEG_OP that runs on a ring where its operation is `pop`; with none left, the descriptor is done. -/
def stepPegOp (c : Cfg) (d : Dev) (p : LPort) (r : RingNo) (pop : Nat) : Dev :=
  match (ringAt d p r).cur with
  | some x =>
    if dKind x.desc = 6 ∧ x.waitReq.isNone ∧ !x.finished ∧ nextPop x.desc x.entry pop then
      let k := skipNone x.desc 4 x.entry
      pegFinish (if k < 4 then pegEntry c d p r x k else d) p r
    else d
  | none => d

/-- A PEG_OP entry of operation `pop`: the first of a descriptor that is admitted with it, or the next of one that runs. -/
def pegRow (c : Cfg) (d : Dev) (p : LPort) (r : RingNo) (pop : Nat) : Dev :=
  if (ringAt d p r).cur.isSome then epilogue c (stepPegOp c d p r pop)
  else admitWhen c d p r (fun q => dKind q == 6 && nextPop q 0 pop) fun d _ => stepPegOp c d p r pop

/-- A PEG_OP entry with `pop` 1 (R542). -/
def execPegSet (p : LPort) (r : RingNo) (s : State) : Host.Outcome State Fault Refusal :=
  onDev s fun d => pegRow s.cfg d p r 1

/-- A PEG_OP entry with `pop` 2 (R542). -/
def execPegClear (p : LPort) (r : RingNo) (s : State) : Host.Outcome State Fault Refusal :=
  onDev s fun d => pegRow s.cfg d p r 2

/-- A PEG_OP entry with `pop` 3 (R542). -/
def execTallyAdd (p : LPort) (r : RingNo) (s : State) : Host.Outcome State Fault Refusal :=
  onDev s fun d => pegRow s.cfg d p r 3

/-- A PEG_OP entry with `pop` 4 (R542). -/
def execTallyTake (p : LPort) (r : RingNo) (s : State) : Host.Outcome State Fault Refusal :=
  onDev s fun d => pegRow s.cfg d p r 4

/-! ## BARRIER and EPOCH_FENCE (R333, R368, R557, R563) -/

/-- Whether a line BARRIER's group on this unit is exactly the participants (R563). -/
def lineGroupOk (c : Cfg) (d : Dev) (t : Tenant) (desc : Desc) (list : List Byte) : Bool :=
  localMembers c d t (ownGroup d desc list) == (presentMask c d &&& tenantMask c (ownAddr d) (ownAddr d) t)

/-- Run an admitted BARRIER: it is placed in its unit's arrival (R557, R563). -/
def runBarrier (c : Cfg) (d : Dev) (p : LPort) (r : RingNo) (x : Run) : Dev :=
  let t := tenantOf c p
  let d := modRun d p r fun y => { y with aux := namedCount c d t (ownGroup d x.desc x.list) }
  if lineRun c p x.desc && !lineGroupOk c d t x.desc x.list then endWith (noteLine d p r true d.line.n) p r 9
  else match (ringAt d p r).cur with
    | some y => placeBarrier c d p r y
    | none => d

/-- BARRIER (R557). -/
def execBarrier (p : LPort) (r : RingNo) (s : State) : Host.Outcome State Fault Refusal :=
  onDev s fun d => admitWhen s.cfg d p r (fun q => dKind q == 7) fun d x => runBarrier s.cfg d p r x

/-- EPOCH_FENCE: the ring becomes fenced and reads its header (R333). -/
def execEpochFence (p : LPort) (r : RingNo) (s : State) : Host.Outcome State Fault Refusal :=
  onDev s fun d => admitWhen s.cfg d p r (fun q => dKind q == 8) fun d _ =>
    readHeader s.cfg (modR d p r fun x => { x with st := .fenced, fenceOpen := true }) p r

/-! ## The record (R330, R529) -/

/-- Every Bobbin write of a descriptor has been performed (R529). -/
def execSpoolWritesPerformed (p : LPort) (r : RingNo) (s : State) : Host.Outcome State Fault Refusal :=
  onDev s fun d => match (ringAt d p r).cur with
    | some x => if x.finished ∧ !x.clearing then modRun d p r fun x => { x with spoolPending := false } else d
    | none => d

/-- The completion record leaves its port, once it is due and its turn, and the consumed word follows it (R330, R348). -/
def execCompletionRecord (p : LPort) (r : RingNo) (s : State) : Host.Outcome State Fault Refusal :=
  onDev s fun d => if recordLeaves s.cfg d p r then epilogue s.cfg (sendRecord s.cfg d p r) else d

end Sys2Proof.Machine
end

