-- ==== Sys2Proof/Machine/Colls.lean ====
section
/-! DEFINITION. The commands of an open instance: space granted, inputs read, frames that arrive, the Press and the Sieve, and the waits (spec/11, R396 to R434; spec/13, R484 to R495; spec/14, R518, R525 to R528; R554, R623, R634). -/
namespace Sys2Proof.Machine
open Sys2Proof

/-! ## Space and inputs -/

/-- Pump every open instance of a tenant. -/
def pumpTenant (c : Cfg) (d : Dev) (t : Tenant) : Dev :=
  each ((d.coll.insts.filter fun x => x.tenant == t).map (·.coll)) d fun d coll => pumpInst c d t coll

/-- The next hold or staging reservation of a tenant is granted (R526, R528). -/
def execHoldGrant (t : Tenant) (s : State) : Host.Outcome State Fault Refusal :=
  onDev s fun d => match nextGrant s.cfg d t with
    | some q => epilogue s.cfg (pumpTenant s.cfg (grantReq (dropReq d t q) t q) t)
    | none => d

/-- A descriptor's input reads are all complete: its inputs are held, and the gather goes on (R410, R525). -/
def execInputReadDone (p : LPort) (r : RingNo) (s : State) : Host.Outcome State Fault Refusal :=
  onDev s fun d => match (ringAt d p r).cur with
    | some x =>
      if x.prepared ∧ !x.readDone ∧ x.readsLeft = 0 ∧ !x.finished then
        epilogue s.cfg (pumpInst s.cfg (modRun d p r fun y => { y with readDone := true }) (tenantOf s.cfg p) (dColl x.desc))
      else d
    | none => d

/-- A region's `clear_first` is complete, and the additions may proceed (R517, R518). -/
def execClearFirstComplete (p : LPort) (r : RingNo) (s : State) : Host.Outcome State Fault Refusal :=
  onDev s fun d => match (ringAt d p r).cur with
    | some x =>
      if x.clearing then
        let t := tenantOf s.cfg p
        let d := clearSpool s.cfg d t (dSpoolAddr x.desc) (regionBytes x.desc)
        epilogue s.cfg (pumpInst s.cfg (modRun d p r fun y => { y with clearing := false, spoolPending := true }) t (dColl x.desc))
      else d
    | none => d

/-! ## Frames (R398, R399, R554) -/

/-- Whether a Trellis frame of this kind, as Darn delivered it, may be acted on: the port is up and the chain has formed (R196, R277). -/
def trlFrameIn (d : Dev) (i : TPort) (f : TrlFrame) (kind : Nat) : Bool :=
  trlUp d i && d.sow.formed && f.kind.toNat == kind && trlContentOk f && trlCodesOk f

/-- A prologue frame arrives (R398, R399). -/
def execPrologueReceive (i : TPort) (f : TrlFrame) (s : State) : Host.Outcome State Fault Refusal :=
  onDev s fun d => if trlFrameIn d i f 1 && f.chunk == 0xFFFFFFFF then epilogue s.cfg (prologueFrame s.cfg d i f) else d

/-- A DATA frame of a chunk arrives (R411). -/
def execTrellisDataReceive (i : TPort) (f : TrlFrame) (s : State) : Host.Outcome State Fault Refusal :=
  onDev s fun d => if trlFrameIn d i f 1 && f.chunk != 0xFFFFFFFF then epilogue s.cfg (chunkFrame s.cfg d i f) else d

/-- A SIGNAL frame arrives (R554). -/
def execTrellisSignalReceive (i : TPort) (f : TrlFrame) (s : State) : Host.Outcome State Fault Refusal :=
  onDev s fun d => if trlFrameIn d i f 2 then epilogue s.cfg (chunkFrame s.cfg d i f) else d

/-! ## The Press and the Sieve (R484 to R495) -/

/-- The reduced vector of a decision collective as values, once it is complete at this unit, which decides (R480, R486). -/
def reducedVals (d : Dev) (g : Geo) (x : Inst) : Option (List Val) :=
  let v := homePart d g x 0
  if isDecision g.desc && role g (homeOf g 0) == g.own && haveAll g x && v.whole && !v.empty && x.decision.isNone && !x.frozen && x.aborted.isNone then
    some (v.accs.map (accVal (arithOf g.desc) (dRound g.desc)))
  else none

/-- The weights of column `j` of a registered block, from row 0 (R483). -/
def blockColumn (c : Cfg) (d : Dev) (b : Block) (fw : Fmt) (rows j : Nat) : List Val :=
  (List.range rows).map fun k => decodeVal fw (leNat (yardBytes c d b.tenant (b.addr + (k * b.n + j) * fmtBytes fw) (fmtBytes fw)) 0 (fmtBytes fw))

/-- The Press output b_0 to b_(N-1) as binary32 bits (R486 to R488). -/
def pressOutput (c : Cfg) (d : Dev) (desc : Desc) (b : Block) (vals : List Val) : List Nat :=
  let fw := (fmtOf b.wFmt).getD .bf16
  let rows := min b.k (dCount desc)
  let xs := (vals.take rows).map fun v => roundVal v fw (dRound desc)
  (List.range b.n).map fun j =>
    roundTo (pressFn b.fn (decodeVal .binary32 b.lo.toNat) (decodeVal .binary32 b.hi.toNat)
      (pressColumn (.fin false 0 0) xs (blockColumn c d b fw rows j))) .binary32 0

/-- Values rounded to `out_fmt`, as bytes. -/
def roundedBytes (desc : Desc) (vals : List Val) : List Byte :=
  elemBytes (fmtBytes (dOutFmt desc)) (vals.map fun v => roundTo v (dOutFmt desc) (dRound desc))

/-- The decision stream (R495). -/
def decisionStream (desc : Desc) (kind : Nat) (noYard : Bool) (vals : List Val) (body : List Byte) : List Byte :=
  let vec := if dWantVec desc then roundedBytes desc vals else []
  [BitVec.ofNat 8 kind, BitVec.ofNat 8 (b2n noYard + 2 * b2n (dWantVec desc)), BitVec.ofNat 8 (dOut desc), 0] ++
  toLe body.length 4 ++ toLe vec.length 4 ++ zeros 4 ++ body ++ vec

/-- The Press stage at the decision unit: with no block at the address the stage is skipped, and NO_YARD is found; with no Sieve selection to follow, the decision is formed at once (R484 to R489, R493, R494). -/
def pressStage (c : Cfg) (d : Dev) (t : Tenant) (coll : W16) : Dev :=
  match instAt d t coll with
  | none => d
  | some x =>
    let g := geoOf d x
    match reducedVals d g x with
    | none => d
    | some vals =>
      if !dPress g.desc || x.pressDone then d
      else
        let out := (findBlock d t (dYardAddr g.desc)).map fun b => pressOutput c d g.desc b vals
        let noYard := out.isNone
        let dec := if dSieve g.desc ≠ 0 then none
          else match out with
            | some bs => some (decisionStream g.desc 2 false vals (roundedBytes g.desc ((bs.take (dCount g.desc)).map (decodeVal .binary32))))
            | none => some (decisionStream g.desc 3 true vals (roundedBytes g.desc vals))
        pumpInst c (modInst d t coll fun x => { x with pressDone := true, pressOut := out, noYard := noYard, decision := dec }) t coll

/-- PRESS_STAGE (R487). -/
def execPressStage (t : Tenant) (coll : W16) (s : State) : Host.Outcome State Fault Refusal :=
  onDev s fun d => epilogue s.cfg (pressStage s.cfg d t coll)

/-- The Sieve selection at the decision unit, and the decision stream (R490, R491, R495). -/
def sieveStage (c : Cfg) (d : Dev) (t : Tenant) (coll : W16) : Dev :=
  match instAt d t coll with
  | none => d
  | some x =>
    let g := geoOf d x
    match reducedVals d g x with
    | none => d
    | some vals =>
      if dSieve g.desc = 0 ∨ (dPress g.desc ∧ !x.pressDone) then d
      else
        let inputs := match x.pressOut with
          | some bs => bs.map (decodeVal .binary32)
          | none => vals.map fun v => roundVal v (dOutFmt g.desc) (dRound g.desc)
        let sel := sieveSelect (dSieve g.desc) (dK g.desc) (decodeVal .binary32 (dThreshold g.desc)) inputs
        let dec := decisionStream g.desc 1 x.noYard vals (sieveBytes (dOutFmt g.desc) (dRound g.desc) sel)
        pumpInst c (modInst d t coll fun x => { x with decision := some dec }) t coll

/-- SIEVE_SELECTION (R491). -/
def execSieveSelection (t : Tenant) (coll : W16) (s : State) : Host.Outcome State Fault Refusal :=
  onDev s fun d => epilogue s.cfg (sieveStage s.cfg d t coll)

/-! ## Waits (R421, R623, R634) -/

/-- Whether an instance waits for space: a hold of one of its descriptors, its staging, or a group slot of a link (R286, R421, R526, R528). -/
def awaitsSpace (d : Dev) (x : Inst) : Bool :=
  (x.stageAsked && !x.stageOk) ||
  (x.runs.any fun e => (ringAt d e.1 e.2).cur.any fun y => !y.holdOk && !y.finished) ||
  allTrl.any fun i => (slotOfGroup d.trl[i] x.tenant x.coll).isNone && d.trl[i].txq.any fun it => decide (it.owner = .group x.tenant x.coll)

/-- Whether an instance is in a contribution wait that is timed: it lacks a descriptor for a local member, waits for a prologue, a frame or a notice of another carrier, or for space, and no input read of it is outstanding (R421, R526, R528). -/
def inContribWait (d : Dev) (x : Inst) : Bool :=
  let reading := x.runs.any fun e => (ringAt d e.1 e.2).cur.any fun y => y.prepared && !y.readDone
  !reading && (!(allJoined d x) || awaitsFrames (geoOf d x) x || awaitsSpace d x)

/-- The contribution wait of an instance expires: the unit aborts it; one that goes on after a COMMITTED verdict ends here alone (R400, R421, R634). -/
def contribTimeout (d : Dev) (t : Tenant) (coll : W16) : Dev :=
  match instAt d t coll with
  | none => d
  | some x =>
    if x.aborted.isSome || !inContribWait d x then d
    else
      let d := bumpHealth d 5
      if x.goesOn then endInst d t coll 0x24 else abortInst d t coll 0x26

/-- CONTRIBUTION_WAIT_EXPIRY (R421). -/
def execContributionWaitExpiry (t : Tenant) (coll : W16) (s : State) : Host.Outcome State Fault Refusal :=
  onDev s fun d => epilogue s.cfg (contribTimeout d t coll)

/-- The wait watchdog expires on an instance that opened aborted: it closes (R623). -/
def execAbortedInstanceWatchdogExpiry (t : Tenant) (coll : W16) (s : State) : Host.Outcome State Fault Refusal :=
  onDev s fun d => match instAt d t coll with
    | some x => if x.aborted.isSome then epilogue s.cfg (closeInst (forcePrologue (bumpHealth d 5) t coll) t coll) else d
    | none => d

end Sys2Proof.Machine
end

