-- ==== Sys2Proof/Machine/Trellis.lean ====
section
/-! DEFINITION. The commands of a Trellis port and of sowing: training, Darn, alignment, link down, the sowing frames and their deadlines (spec/08, R267 to R305; spec/06, R196 to R205). -/
namespace Sys2Proof.Machine
open Sys2Proof

/-! ## Training (R270, R196) -/

/-- Trellis link up, with the lane margins measured (R270, R274, R283). -/
def execTrellisLinkUp (i : TPort) (hMargin vMargin : List Byte) (s : State) : Host.Outcome State Fault Refusal :=
  onDev s fun d =>
    let x := d.trl[i]
    if d.stat.trainStarted && x.st == .training && !x.linkUp && !x.loopLeader && !x.loopFollower && !stopped d then
      tryStep10 s.cfg s.hk.dieSerial (trlLinkUp d i hMargin vMargin)
    else d

/-- An end misses a latest bound, and training starts again from step 1; a follower leaves loopback with it (R270). -/
def execTrellisTrainingTimeout (i : TPort) (s : State) : Host.Outcome State Fault Refusal :=
  onDev s fun d => if d.trl[i].st = .training ∧ !d.trl[i].linkUp then modT d i fun x => { x with loopFollower := false } else d

/-- A port has not trained 20,000 µs after step 9: it is silent until the next reset (R196). -/
def execTrellisPortSilent (i : TPort) (s : State) : Host.Outcome State Fault Refusal :=
  onDev s fun d =>
    let x := d.trl[i]
    if d.stat.trainStarted && x.st == .training && !x.linkUp && !x.loopLeader then
      tryStep10 s.cfg s.hk.dieSerial (modT d i fun x => { x with st := .silent, loopFollower := false })
    else d

/-! ## Frames and blocks (R272, R284, R296) -/

/-- A frame's 256 bytes arrive (R225, R232, R284); a replay past the limit takes the link down (R293). -/
def execTrellisFrameReceive (i : TPort) (bytes : List Byte) (fixes : FecFix) (s : State) : Host.Outcome State Fault Refusal :=
  onDev s fun d =>
    let r := trlRx d i (fecApply bytes fixes) (fecFixed fixes)
    if r.2 then epilogue s.cfg (trlRetryDown s.cfg r.1 i) else r.1

/-- The 80 ns replay timer expires (R284, R297). -/
def execTrellisReplayTimer (i : TPort) (s : State) : Host.Outcome State Fault Refusal :=
  onDev s fun d =>
    if d.trl[i].linkUp ∧ timerRuns d.trl[i].darn then
      match trlReplay d i false with
      | some d => d
      | none => epilogue s.cfg (trlRetryDown s.cfg d i)
    else d

/-- An alignment block is due after every 20 frames, and goes before any further frame (R272, R298). -/
def alignDue (x : TrlPort) : Bool := x.linkUp && decide (20 ≤ x.sinceAlign)

/-- The alignment block is sent: it carries the count of blocks since link up, itself among them, and the scramblers are reseeded (R272). -/
def execAlignmentBlock (i : TPort) (s : State) : Host.Outcome State Fault Refusal :=
  onDev s fun d =>
    if alignDue d.trl[i] then
      modT d i fun x => { x with alignSent := x.alignSent + 1, sinceAlign := 0, scramblerSeeded := true, wire := alignBytes (x.alignSent + 1), lanes := dealLanes 16 (alignBytes (x.alignSent + 1)) }
    else d

/-- An alignment block arrives: where every lane carries its own bytes, its count is taken and the receive scramblers are reseeded (R272). -/
def execAlignmentBlockReceive (i : TPort) (bytes : List Byte) (s : State) : Host.Outcome State Fault Refusal :=
  onDev s fun d =>
    let n : W16 := BitVec.ofNat 16 (byteAt bytes 192 + 256 * byteAt bytes 208)
    if d.trl[i].linkUp then
      modT d i fun x =>
        if bytes = alignBytes n then { x with alignSeen := n, scramblerSeeded := true } else { x with scramblerSeeded := false }
    else d

/-! ## Link down (R293, R300, R617) -/

/-- A receive lane loses signal, lock or alignment for more than 1 µs (R293). -/
def execTrellisLaneLoss (i : TPort) (s : State) : Host.Outcome State Fault Refusal :=
  onDev s fun d => if d.trl[i].linkUp then epilogue s.cfg (trlDown s.cfg d i 1 false) else d

/-- LINK_DOWN arrives: reasons 01h and 02h say that the neighbour is lost; every other is treated as 03h (R277, R293, R617). -/
def execTrellisLinkDownFrame (i : TPort) (f : TrlFrame) (s : State) : Host.Outcome State Fault Refusal :=
  onDev s fun d =>
    if d.trl[i].linkUp && f.kind == 6 && trlContentOk f then
      epilogue s.cfg (trlDown s.cfg d i 3 (byteAt f.payload 0 == 1 || byteAt f.payload 0 == 2))
    else d

/-! ## Sowing (R197 to R205) -/

/-- A sowing frame of one kind, unless its content is not what its kind lists (R199, R302). -/
def sowRow (s : State) (i : TPort) (f : TrlFrame) (kind : Nat) : Host.Outcome State Fault Refusal :=
  onDev s fun d => if trlContentOk f && trlCodesOk f then sowFrame s.cfg s.hk.dieSerial d i f kind else d

/-- HELLO: the pairing check (R197). -/
def execSowHello (i : TPort) (f : TrlFrame) (s : State) : Host.Outcome State Fault Refusal := sowRow s i f 1

/-- REFERENCE (R200 phase 2). -/
def execReference (i : TPort) (f : TrlFrame) (s : State) : Host.Outcome State Fault Refusal := sowRow s i f 2

/-- SEED (R200). -/
def execSeed (i : TPort) (f : TrlFrame) (s : State) : Host.Outcome State Fault Refusal := sowRow s i f 3

/-- CLOSE (R200). -/
def execClose (i : TPort) (f : TrlFrame) (s : State) : Host.Outcome State Fault Refusal := sowRow s i f 4

/-- POSITION (R200 phase 6). -/
def execPosition (i : TPort) (f : TrlFrame) (s : State) : Host.Outcome State Fault Refusal := sowRow s i f 5

/-- ROLLCALL (R200 phase 7). -/
def execRollcall (i : TPort) (f : TrlFrame) (s : State) : Host.Outcome State Fault Refusal := sowRow s i f 6

/-- FORMED (R200 phase 8). -/
def execFormed (i : TPort) (f : TrlFrame) (s : State) : Host.Outcome State Fault Refusal := sowRow s i f 7

/-- STOP (R203). -/
def execStop (i : TPort) (f : TrlFrame) (s : State) : Host.Outcome State Fault Refusal := sowRow s i f 8

/-- The ORIGIN unit's deadline for the full roll call (R204). -/
def execSowOriginDeadline (s : State) : Host.Outcome State Fault Refusal :=
  onDev s fun d => if isOrigin s.cfg && d.sow.step10 && !d.sow.formed then sowStop s.cfg d .sowIncomplete 0 else d

/-- A non-ORIGIN unit's deadline for a REFERENCE (R204, R205). -/
def execSowReferenceDeadline (s : State) : Host.Outcome State Fault Refusal :=
  onDev s fun d => referenceDeadline s.cfg d

/-- A non-ORIGIN unit's deadline for FORMED or STOP (R204). -/
def execSowFormedDeadline (s : State) : Host.Outcome State Fault Refusal :=
  onDev s fun d => if !(isOrigin s.cfg) && d.sow.refHeld && !d.sow.formed then sowStop s.cfg d .sowIncomplete 0 else d

end Sys2Proof.Machine
end

