-- ==== Sys2Proof/Machine/Pegs.lean ====
section
/-! DEFINITION. The commands of pegs, barriers and the washing line: the peg messages that arrive, the watchdogs, and the line (spec/15, R547 to R567). -/
namespace Sys2Proof.Machine
open Sys2Proof

/-! ## PEG frames (R552) -/

/-- A PEG frame with this `pmsg`. -/
def pegMsg (c : Cfg) (d : Dev) (i : TPort) (f : TrlFrame) (pmsg : Nat) : Dev :=
  if trlFrameIn d i f 3 && byteAt f.payload 0 == pmsg then epilogue c (pegFrame c d i f) else d

/-- OP: the operation is applied at the home, and DONE answers it (R548). -/
def execPegOpReceive (i : TPort) (f : TrlFrame) (s : State) : Host.Outcome State Fault Refusal :=
  onDev s fun d => pegMsg s.cfg d i f 1

/-- WATCH: answered MET or FULL, or kept (R551). -/
def execWatch (i : TPort) (f : TrlFrame) (s : State) : Host.Outcome State Fault Refusal :=
  onDev s fun d => pegMsg s.cfg d i f 2

/-- UNWATCH: the home forgets the watch (R551). -/
def execUnwatch (i : TPort) (f : TrlFrame) (s : State) : Host.Outcome State Fault Refusal :=
  onDev s fun d => pegMsg s.cfg d i f 3

/-- ARRIVE: the barrier engine takes a unit's report (R558). -/
def execArrive (i : TPort) (f : TrlFrame) (s : State) : Host.Outcome State Fault Refusal :=
  onDev s fun d => pegMsg s.cfg d i f 4

/-- WITHDRAW: the engine removes a unit from an open phase (R560). -/
def execWithdraw (i : TPort) (f : TrlFrame) (s : State) : Host.Outcome State Fault Refusal :=
  onDev s fun d => pegMsg s.cfg d i f 5

/-- FALLBACK: the unit enters line fallback, or lowers its fallback start (R566). -/
def execFallback (i : TPort) (f : TrlFrame) (s : State) : Host.Outcome State Fault Refusal :=
  onDev s fun d => pegMsg s.cfg d i f 6

/-! ## PEG_REPLY frames (R553) -/

/-- A PEG_REPLY frame with this `rmsg`. -/
def replyMsg (c : Cfg) (d : Dev) (i : TPort) (f : TrlFrame) (rmsg : Nat) : Dev :=
  if trlFrameIn d i f 4 && byteAt f.payload 0 == rmsg then epilogue c (replyFrame c d i f) else d

/-- DONE: the waiting entry of a PEG_OP is complete (R548). -/
def execDone (i : TPort) (f : TrlFrame) (s : State) : Host.Outcome State Fault Refusal :=
  onDev s fun d => replyMsg s.cfg d i f 1

/-- MET: the dependency is satisfied (R551). -/
def execMet (i : TPort) (f : TrlFrame) (s : State) : Host.Outcome State Fault Refusal :=
  onDev s fun d => replyMsg s.cfg d i f 2

/-- FULL: the home keeps no further watch, and the WATCH is sent again after 1 µs (R551). -/
def execFull (i : TPort) (f : TrlFrame) (s : State) : Host.Outcome State Fault Refusal :=
  onDev s fun d => replyMsg s.cfg d i f 3

/-- BEGIN: a unit without local members reports at once (R559). -/
def execBegin (i : TPort) (f : TrlFrame) (s : State) : Host.Outcome State Fault Refusal :=
  onDev s fun d => replyMsg s.cfg d i f 4

/-- RELEASE: the arrival's descriptors complete with OK (R559). -/
def execRelease (i : TPort) (f : TrlFrame) (s : State) : Host.Outcome State Fault Refusal :=
  onDev s fun d => replyMsg s.cfg d i f 5

/-- MISMATCH: the arrival's descriptors complete with GROUP_MISMATCH (R559). -/
def execMismatch (i : TPort) (f : TrlFrame) (s : State) : Host.Outcome State Fault Refusal :=
  onDev s fun d => replyMsg s.cfg d i f 7

/-- WITHDRAWN: the arrival's descriptors complete with BARRIER_TIMEOUT (R560). -/
def execWithdrawn (i : TPort) (f : TrlFrame) (s : State) : Host.Outcome State Fault Refusal :=
  onDev s fun d => replyMsg s.cfg d i f 6

/-! ## Watchdogs (R548, R551, R560) -/

/-- 1 µs after a FULL, the WATCH of dependency `k` is sent again (R551). -/
def execWatchResendTimer (p : LPort) (r : RingNo) (k : Fin 4) (s : State) : Host.Outcome State Fault Refusal :=
  onDev s fun d => match (ringAt d p r).head, (ringAt d p r).queue with
    | some h, q :: _ =>
      (match h.watchIds.getD k.val none with
       | some id =>
         if h.stage = .waiting ∧ h.status = 0 ∧ !(h.met.getD k.val true) ∧ h.watchFull.getD k.val false ∧ depRemote d q.bytes k.val then
           epilogue s.cfg (sendWatch s.cfg (modHead d p r fun h => { h with watchFull := h.watchFull.set k.val false }) p r q.bytes k.val id 2)
         else d
       | none => d)
    | _, _ => d

/-- A remote entry has no DONE within the wait watchdog: the PEG_OP ends with WAIT_TIMEOUT, and no later entry is issued (R548, R385, R387). -/
def execPegOpDoneTimeout (p : LPort) (r : RingNo) (s : State) : Host.Outcome State Fault Refusal :=
  onDev s fun d => match (ringAt d p r).cur with
    | some x =>
      if x.waitReq.isSome ∧ !x.finished then
        let d := modRun d p r fun x => { x with status := 0x10, finished := true, waitReq := none }
        epilogue s.cfg (bumpHealth (bumpTenant s.cfg d (tenantOf s.cfg p) 5) 5)
      else d
    | none => d

/-- A barrier descriptor that has not been reported times out alone, and its members are no longer covered (R560). -/
def barrierAlone (c : Cfg) (d : Dev) (p : LPort) (r : RingNo) (a : Option Arrival) : Dev :=
  let d := bumpTenant c (finishRuns d [(p, r)] 0x27) (tenantOf c p) 6
  match a with
  | none => d
  | some a =>
    let runs := a.runs.filter (· != (p, r))
    if runs.isEmpty then placeHeld c (sendCompleted c (closeArrival d a))
    else modArrival d a fun b => { b with runs := runs, covered := coveredBy d runs }

/-- A reported arrival whose descriptor's wait watchdog expires: WITHDRAW, or the end at once where no route to the home exists (R560). -/
def withdrawArrival (c : Cfg) (d : Dev) (a : Arrival) : Dev :=
  if a.withdrawId.isSome then d
  else if hasRoute d a.home then
    let (id, d) := newReq d
    sendPeg (modArrival d a fun b => { b with withdrawId := some id }) a.tenant a.home 5 0 a.peg 0 id.toNat 0 []
  else endArrival c d a 0x27

/-- The arrival that a ring's running BARRIER has joined. -/
def arrivalOf (d : Dev) (p : LPort) (r : RingNo) : Option Arrival := d.pegs.arrivals.find? fun a => a.runs.contains (p, r)

/-- Whether a BARRIER waits as a peg barrier: it is no line barrier, or runs under line fallback (R560, R562, R567). -/
def pegBarrier (c : Cfg) (d : Dev) (p : LPort) (x : Run) (a : Option Arrival) : Bool :=
  match a with
  | some a => (match a.line with
    | some n => d.line.fallback && decide (d.line.f ≤ n)
    | none => true)
  | none => !(lineRun c p x.desc) || (d.line.fallback && decide (d.line.f ≤ d.line.n + 1))

/-- The wait watchdog of a peg-barrier descriptor expires (R560). -/
def barrierTimeout (c : Cfg) (d : Dev) (p : LPort) (r : RingNo) : Dev :=
  match (ringAt d p r).cur with
  | none => d
  | some x =>
    let a := arrivalOf d p r
    if dKind x.desc ≠ 7 ∨ x.finished ∨ !(pegBarrier c d p x a) then d
    else
      let d := bumpHealth d 5
      match a with
      | some b => if b.arrived then withdrawArrival c d b else barrierAlone c d p r a
      | none => barrierAlone c d p r none

/-- BARRIER_WATCHDOG_EXPIRY (R560). -/
def execBarrierWatchdogExpiry (p : LPort) (r : RingNo) (s : State) : Host.Outcome State Fault Refusal :=
  onDev s fun d => epilogue s.cfg (barrierTimeout s.cfg d p r)

/-- No reply to a WITHDRAW has come within one further wait watchdog: every descriptor of the arrival ends with BARRIER_TIMEOUT (R560). -/
def execWithdrawReplyTimeout (p : LPort) (r : RingNo) (s : State) : Host.Outcome State Fault Refusal :=
  onDev s fun d => match arrivalOf d p r with
    | some a => if a.withdrawId.isSome then epilogue s.cfg (endArrival s.cfg (bumpHealth d 5) a 0x27) else d
    | none => d

/-! ## The washing line (R562 to R567) -/

/-- The participants of a line barrier on this unit: the owning tenant's cores that are present (R563). -/
def participants (c : Cfg) (d : Dev) : BitVec 128 :=
  match allTenants.find? (ownsLine c) with
  | some t => presentMask c d &&& tenantMask c (ownAddr d) (ownAddr d) t
  | none => 0

/-- The arrival for line barrier n. -/
def lineArrival (d : Dev) : Option Arrival := d.pegs.arrivals.find? fun a => a.line == some d.line.n

/-- Whether the line of n may be released: the arrival for n covers every participant, or there is none (R564). -/
def lineCovered (c : Cfg) (d : Dev) : Bool :=
  participants c d == 0 ||
  (match lineArrival d with
   | some a => !a.runs.isEmpty && (participants c d &&& a.covered) == participants c d
   | none => false)

/-- Drive the line of barrier `n`: assert it, or release it. -/
def driveLine (l : Line) (n : Nat) (v : Bool) : Line := if n % 2 = 0 then { l with assertA := v } else { l with assertB := v }

/-- LINE_RELEASE (R564). -/
def execLineRelease (s : State) : Host.Outcome State Fault Refusal :=
  onDev s fun d =>
    if d.line.ready && (allTenants.any (ownsLine s.cfg)) && onLine d.line && !d.line.released && lineCovered s.cfg d then
      { d with line := { driveLine d.line d.line.n false with released := true } }
    else d

/-- The line of n reads high: barrier n is complete, the line of n - 1 is asserted again unless line fallback drives neither, and n advances (R564, R566, R567). -/
def completeLine (c : Cfg) (d : Dev) : Dev :=
  let n := d.line.n
  let kept : List (Nat × Nat × Nat × Nat × List Byte) := match lineArrival d with
    | some a => (match a.runs.head?.bind fun e => (ringAt d e.1 e.2).cur with
      | some x => [(n, a.home, a.peg, popCount (participants c d), arriveBody x.desc (unitMap (List.range (unitsIn d.sow.dims))) n)]
      | none => [])
    | none => []
  let d := match lineArrival d with
    | some a => dropArrival (finishRuns d a.runs 0) a
    | none => d
  let l := if 1 ≤ n ∧ d.line.fallback = false then driveLine d.line (n - 1) true else d.line
  placeHeld c { d with line := { l with n := n + 1, released := false, completed := d.line.completed ++ kept } }

/-- LINE_READ_HIGH (R564). -/
def execLineReadHigh (line : Fin 2) (s : State) : Host.Outcome State Fault Refusal :=
  onDev s fun d =>
    if d.line.ready && d.line.released && onLine d.line && d.line.n % 2 == line.val then epilogue s.cfg (completeLine s.cfg d) else d

/-- The line watchdog expires: line fallback from this unit's own n, and FALLBACK to every other unit, whose `peg` is the first of the slice, so that it passes R555 (R566; log 95). -/
def lineTimeout (c : Cfg) (d : Dev) : Dev :=
  if d.line.ready && d.line.released && !d.line.fallback then
    let d := enterFallback c (bumpHealth d 5) d.line.n
    let t := (allTenants.find? (ownsLine c)).getD 0
    each ((List.range (unitsIn d.sow.dims)).filter (· != ownAddr d)) d fun d u =>
      sendPeg d t u 6 0 (sliceOf c t).1 0 0 0 (zeros 22 ++ toLe d.line.f 4)
  else d

/-- LINE_WATCHDOG_EXPIRY (R566). -/
def execLineWatchdogExpiry (s : State) : Host.Outcome State Fault Refusal :=
  onDev s fun d => epilogue s.cfg (lineTimeout s.cfg d)

end Sys2Proof.Machine
end

