-- ==== Sys2Proof/Machine/PageOps.lean ====
section
/-! DEFINITION. The status page (R378 to R387, R653 to R657). -/
namespace Sys2Proof.Machine
open Sys2Proof

/-- `state` of a ring (R384). -/
def ringStNat : RingSt → Nat
  | .off => 0 | .running => 1 | .fenced => 2 | .stalled => 3

/-- `state` of a Trellis port (R705); a port that DBG_LOOP holds shows 05h, and 01h after it has left (R670). -/
def trlStNat (x : TrlPort) : Nat :=
  if x.loopLeader then 5
  else if x.looped then 1
  else match x.st with
    | .unused => 0 | .silent => 1 | .miswired => 2 | .up => 3 | .down => 4 | .training => 5

/-- A stop found at step 3, 4 or 5 of R173. -/
def stopEarly : Stop → Bool
  | .cfgReserved | .cfgConflict | .bringupPll | .bringupSram | .bringupSpool => true
  | _ => false

/-- The reference codes that a page shows, FFh where the unit holds none (R382). -/
def pageRefs (c : Cfg) (d : Dev) : List Byte :=
  let held := match d.stat.stopRef with
    | some l => some l
    | none => d.sow.refCodes
  let early := match d.stat.stop with
    | some s => stopEarly s
    | none => false
  match held with
  | some l => if early || code c 2 == 0 then List.replicate 5 0xFF else l.map fun v => v.setWidth 8
  | none => List.replicate 5 0xFF

/-- `fault_state` of a tenant (R385): 2 while it has a frozen instance, else 1 while a ring of it is stalled. -/
def faultState (c : Cfg) (d : Dev) (t : Tenant) : Nat :=
  if d.coll.insts.any fun x => x.tenant == t && x.frozen then 2
  else if (portsOf c t).any fun p => allRings.any fun r => (ringAt d p r).st == .stalled then 1 else 0

/-- Identity and cause, 256 bytes (R381). -/
def pageIdentity (hk : Hk) (c : Cfg) (d : Dev) (p : LPort) (n : Nat) (up : W64) : List Byte :=
  let pos := if d.sow.posKnown then posBytes d.sow.pos else [255, 255, 255]
  padTo 256 (toLe n 8 ++ toLe d.lem[p].causes.toNat 2 ++
    [1, BitVec.ofNat 8 p.val, BitVec.ofNat 8 (tenantOf c p).val, BitVec.ofNat 8 (b2n (stopped d)), 0, 0] ++
    toLe hk.dieSerial.toNat 6 ++ [0, 0] ++ toLe d.lem[p].hello.leafTag.toNat 8 ++ [BitVec.ofNat 8 (ownAddr d)] ++
    (pos ++ [d.sow.dims.nx, d.sow.dims.ny, d.sow.dims.nz]).map (BitVec.ofNat 8) ++ [BitVec.ofNat 8 (b2n d.sow.formed)] ++
    toLe up.toNat 8 ++ [hk.resetCause, BitVec.ofNat 8 (b2n hk.brownOut + 2 * b2n hk.clockLoss)])

/-- Configuration and stop, 256 bytes (R382). -/
def pageConfig (hk : Hk) (c : Cfg) (d : Dev) : List Byte :=
  let stop := match d.stat.stop with
    | some s => stopNat s
    | none => 0
  let at_ := match d.stat.stopPos with
    | some q => posBytes q
    | none => [255, 255, 255]
  padTo 256 (c.codes.toList.map (fun v => v.setWidth 8) ++
    [c.straps.setWidth 8, BitVec.ofNat 8 (b2n hk.fuseBlown + 2 * b2n c.fuseFail + 4 * b2n c.debugOpen), 0, 0,
     BitVec.ofNat 8 stop, 0] ++ toLe (c.pinMask ||| d.stat.stopMask).toNat 2 ++ [d.stat.bringupMask.setWidth 8, 0, 0, 0] ++
    toLe d.stat.pllFail.toNat 4 ++ at_.map (BitVec.ofNat 8) ++ [d.stat.stopPort] ++ pageRefs c d)

/-- This port's link, 512 bytes (R383). -/
def pageLink (x : LemPort) : List Byte :=
  padTo 512 (toLe x.sat.toNat 8 ++ [x.mode, x.helloResult, x.accepted, x.downReason, 0, 0, 0, 0] ++
    x.ctr.toList.flatMap fun v => toLe v.toNat 8)

/-- This port's rings, 512 bytes (R384). -/
def pageRings (x : LemPort) : List Byte :=
  padTo 512 ((x.rings.toList.flatMap fun y =>
    [BitVec.ofNat 8 (ringStNat y.st), BitVec.ofNat 8 (b2n y.hdrInvalid)] ++ toLe y.nextFetch.toNat 2 ++ toLe y.recorded.toNat 2 ++
    [BitVec.ofNat 8 y.queue.length, 0] ++ toLe y.hdr.epoch.toNat 4 ++ [0, 0, 0, 0] ++ toLe y.recs.toNat 8 ++ toLe y.fails.toNat 8) ++ toLe x.ringSat.toNat 2)

/-- This port's tenant, 512 bytes (R385). -/
def pageTenant (c : Cfg) (d : Dev) (t : Tenant) : List Byte :=
  let own := ((portsOf c t).map fun p => 2 ^ p.val).sum
  padTo 512 ([BitVec.ofNat 8 t.val, BitVec.ofNat 8 own, BitVec.ofNat 8 ((sliceOf c t).1 / 4096), BitVec.ofNat 8 ((sliceOf c t).2 / 4096),
    BitVec.ofNat 8 (b2n (ownsLine c t) + 2 * b2n (ownsLine c t && d.line.fallback)), BitVec.ofNat 8 (faultState c d t), 0, 0] ++
    toLe (d.stat.tsat[t]).toNat 8 ++ (d.stat.tctr[t]).toList.flatMap fun v => toLe v.toNat 8)

/-- One Trellis port, 128 bytes (R386). -/
def pageTrl (x : TrlPort) : List Byte :=
  padTo 128 ([BitVec.ofNat 8 (trlStNat x), x.downReason, 0, 0, 0, 0, 0, 0] ++ toLe x.sat.toNat 8 ++ padTo 16 x.hMargin ++
    padTo 16 x.vMargin ++ x.ctr.toList.flatMap fun v => toLe v.toNat 8)

/-- Unit health, 256 bytes (R387). -/
def pageHealth (d : Dev) : List Byte :=
  padTo 256 (toLe d.stat.healthSat.toNat 8 ++ toLe d.stat.failedUnits.toNat 8 ++ toLe d.stat.tj.toNat 2 ++ zeros 6 ++
    d.stat.health.toList.flatMap fun v => toLe v.toNat 8)

/-- The 4,096 bytes of a page (R379). -/
def pageBytes (hk : Hk) (c : Cfg) (d : Dev) (p : LPort) (n : Nat) (up : W64) : List Byte :=
  padTo 0xFF8 (pageIdentity hk c d p n up ++ pageConfig hk c d ++ pageLink d.lem[p] ++ pageRings d.lem[p] ++
    pageTenant c d (tenantOf c p) ++ d.trl.toList.flatMap pageTrl ++ pageHealth d) ++ toLe n 8

/-- Whether a page's cause waits on a port that may be written one (R653, R655): after step 13, or a stop's page after the hello, or the HELLO_CHANGED page of a port out of use. -/
def mayPage (d : Dev) (p : LPort) : Bool :=
  let x := d.lem[p]
  x.phase == .up && x.helloDone && x.causes != 0 && (x.started || (stopped d && pageInStop d p) || (x.outOfUse == some 2 && !stopped d)) &&
  !(x.txq.any fun it => it.stream == 8 && it.vc == 2)

/-- Write a page (R378, R654, R657): every pending cause is carried and cleared; the first page after a reset carries and clears the halt flags (R179). -/
def writePage (hk : Hk) (c : Cfg) (d : Dev) (p : LPort) : Hk × Dev :=
  let (k, d) := draw d
  let n := d.lem[p].pageNo + 1
  let first := !d.stat.flagsPaged
  let shown := if first then hk else { hk with brownOut := false, clockLoss := false }
  let bs := pageBytes shown c d p n.toNat (Config.freeUptime k)
  let d := pushTx d p (writeItems 2 8 d.lem[p].hello.statusPage bs)
  let d := modS (modP d p fun x => { x with causes := 0, pageNo := n }) fun x => { x with flagsPaged := true }
  (if first then { hk with brownOut := false, clockLoss := false } else hk, d)

end Sys2Proof.Machine
end

