-- ==== Sys2Proof/Machine/Supply.lean ====
section
/-! DEFINITION. Supplies, reset and the way up (spec/05, R164 to R191; R119 to R132, R150, R151, R162). -/
namespace Sys2Proof.Machine
open Sys2Proof

/-! ## Losing everything (R172, R178) -/

/-- What a reset leaves: everything discarded but the draw counter; a Trellis port whose link was up has sent LINK_DOWN with this reason, 0 for none (R293). -/
def freshDev (d : Dev) (reason : Byte) : Dev :=
  { Dev.reset with
    free := d.free
    trl := d.trl.map fun x => { TrlPort.reset with
      lastLinkDown := if x.linkUp then reason else 0
      parting := if x.linkUp && reason != 0 then linkDownBytes (ownAddr d) x reason else [] } }

/-- A halt: FAULT_N asserted, everything else as in a reset, until the next reset (R178). -/
def haltDev (d : Dev) : Dev :=
  let d := freshDev d 2
  { d with stat := { d.stat with halted := true, faultN := true } }

/-- Reset release (R108, R170, R179): the cause of the reset is known, and no boundary instruction holds the pins. From here on the unit counts as out of reset, also while it waits for REFCLK, where R177 says that it stays in reset: a brown-out in that time halts it (log 81). -/
def releaseReset (hk : Hk) : Hk :=
  { hk with inReset := false, resetCause := if hk.causeRising then 1 else if hk.causeChain then 3 else 2, causeRising := false, causeChain := false, pinDrive := .none }

/-- VDD_IO comes into range: the rails-rising phase, in which the unit is in reset and asserts CHAIN_RESET_N (R165, R170). Which rails are in range as the monitors power up is free (R164; log 80). The flags of R179 have not outlived the loss of VDD_IO, and the TAP starts in Test-Logic-Reset. -/
def execVddIoRise (s : State) : Host.Outcome State Fault Refusal :=
  .next (if s.hk.vddIo then s else
    { s with
      hk := { s.hk with vddIo := true, rails := Config.railsInRange s.dev.free, railsRising := true, inReset := true, causeRising := true, causeChain := s.hk.chainPin,
                        brownOut := false, clockLoss := false, tapIr := 2, tapDr := [], pinDrive := .none }
      cfg := Cfg.reset, dev := (draw (freshDev s.dev 0)).2 })

/-- The rails-rising phase ends (R165); where neither reset input is asserted, that is reset release (R170). -/
def execRailsRisingEnd (s : State) : Host.Outcome State Fault Refusal :=
  .next (if !(s.hk.vddIo && s.hk.railsRising) then s else
    let hk := { s.hk with rails := 0x1FF, railsRising := false }
    { s with hk := if hk.resetPin || hk.chainPin then hk else releaseReset hk })

/-- VDD_IO falls: every pad powers down (R178). -/
def execVddIoFall (s : State) : Host.Outcome State Fault Refusal :=
  .next (if !s.hk.vddIo then s else
    { s with
      hk := { s.hk with vddIo := false, railsRising := false, inReset := true, brownOut := false, clockLoss := false, tapIr := 2, tapDr := [], pinDrive := .none }
      cfg := Cfg.reset, dev := freshDev s.dev 0 })

/-- A brown-out (R178, R179, R184): a halt with its flag; in reset or in a halt, the flag alone. A clock loss in the same moment sets its own flag. -/
def execBrownOut (rail : Fin 9) (clockToo : Bool) (s : State) : Host.Outcome State Fault Refusal :=
  .next (if !(s.hk.vddIo && !s.hk.railsRising) then s else
    let hk := { s.hk with brownOut := true, rails := s.hk.rails &&& ~~~(BitVec.ofNat 9 (2 ^ rail.val)) }
    if s.hk.inReset || s.dev.stat.halted then { s with hk := hk }
    else { s with hk := { hk with clockLoss := hk.clockLoss || clockToo }, dev := haltDev s.dev })

/-- A clock loss (R178, R179, R184): judged only out of reset and not halted. A brown-out in the same moment sets its own flag in any case. -/
def execClockLoss (brownToo : Bool) (s : State) : Host.Outcome State Fault Refusal :=
  .next (if !(s.hk.vddIo && !s.hk.railsRising) then s else
    let hk := { s.hk with brownOut := s.hk.brownOut || brownToo }
    if s.hk.inReset || s.dev.stat.halted then { s with hk := hk }
    else { s with hk := { hk with clockLoss := true }, dev := haltDev s.dev })

/-- RESET_N or CHAIN_RESET_N asserts (R170, R172, R183). -/
def execResetAssert (chain : Bool) (s : State) : Host.Outcome State Fault Refusal :=
  .next (
    let hk := { s.hk with resetPin := s.hk.resetPin || !chain, chainPin := s.hk.chainPin || chain }
    if !s.hk.vddIo then { s with hk := hk }
    else
      let hk := { hk with inReset := true, causeChain := s.hk.causeChain || chain }
      if s.hk.inReset then { s with hk := hk } else { s with hk := hk, cfg := Cfg.reset, dev := freshDev s.dev 1 })

/-- RESET_N or CHAIN_RESET_N is released; with both released and the rails-rising phase over, that is reset release (R170, R173). -/
def execResetRelease (chain : Bool) (s : State) : Host.Outcome State Fault Refusal :=
  .next (
    let hk := { s.hk with resetPin := s.hk.resetPin && chain, chainPin := s.hk.chainPin && !chain }
    { s with hk := if hk.vddIo && hk.inReset && !hk.resetPin && !hk.chainPin && !hk.railsRising then releaseReset hk else hk })

/-- A rail falls in the rails-rising phase, whose 1 ms starts again (R165, R166). -/
def execRailFallDuringRisingPhase (rail : Fin 9) (s : State) : Host.Outcome State Fault Refusal :=
  .next (if !(s.hk.vddIo && s.hk.railsRising) then s else
    { s with hk := { s.hk with rails := s.hk.rails &&& ~~~(BitVec.ofNat 9 (2 ^ rail.val)) } })

/-- The housekeeping loop locks (R173 step 1). -/
def execHousekeepingLock (s : State) : Host.Outcome State Fault Refusal :=
  onDev s fun d => modS d fun x => { x with hkLocked := true }

/-- The housekeeping loop does not lock: FAULT_N, and nothing else (R177). -/
def execHousekeepingLockFail (s : State) : Host.Outcome State Fault Refusal :=
  onDev s fun d => if d.stat.hkLocked then d else modS d fun x => { x with hkFailed := true, faultN := true }

/-! ## Steps 2 and 3 (R122, R123, R126, R132, R150, R151, R162) -/

/-- The bounds of the bands of R123, in ohms. -/
def bandBounds : List Nat :=
  [500, 1220, 1820, 2680, 3920, 5760, 8440, 12400, 18200, 26800, 39200, 57600, 84400, 124000, 300000]

/-- The code of a resistance of `uv` microvolts over `ua` microamperes (R123): a band includes its lower bound. -/
def bandCode (uv ua : Nat) : Nat := (bandBounds.filter fun b => decide (b * ua ≤ uv)).length

/-- Whether a voltage lies from 0.05 V to 1.20 V (R122). -/
def usable (uv : Nat) : Bool := decide (50000 ≤ uv) && decide (uv ≤ 1200000)

/-- The code that a level pin's three averaged voltages give (R122). -/
def levelCode (v : PinVolts) : BitVec 4 :=
  BitVec.ofNat 4 (
    if v.at100 < 50000 then 0
    else if usable v.at100 then bandCode v.at100 100
    else if usable v.at10 then bandCode v.at10 10
    else if usable v.at4 then bandCode v.at4 4
    else 15)

/-- Stage 1: the pins whose code is reserved (R126, R129, R142, R144). -/
def reservedMask (c : Cfg) : W16 :=
  BitVec.ofNat 16 (2 * b2n (decide (4 ≤ code c 1) && decide (code c 1 ≤ 14)) + 256 * b2n (decide (8 ≤ code c 8)) +
    512 * b2n (decide (4 ≤ code c 9) && decide (code c 9 ≤ 14)))

/-- Stage 2: the pins of a contradiction among position, dimensions and ORIGIN (R132). -/
def conflictMask (c : Cfg) : W16 :=
  let p := codedPos c
  let zero := decide (p = ⟨0, 0, 0⟩)
  if !isCoded c then 0
  else if code c 2 = 0 then (if zero then 0 else 3)
  else
    let out := match dimsOfCode (code c 2) with
      | some dm => decide (dm.nx ≤ p.x) || decide (dm.ny ≤ p.y) || decide (dm.nz ≤ p.z)
      | none => false
    BitVec.ofNat 16 (7 * b2n out) ||| (if isOrigin c && !zero then 0x1003 else 0)

/-- What step 2 latches and step 3 decides (R119, R126, R150, R162). -/
def latchCfg (volts : List PinVolts) (straps : BitVec 4) (rsvdG : W16) (fuseBlown blowTakes : Bool) : Cfg :=
  let c := { Cfg.reset with
    latched := true, straps := straps, rsvdG := rsvdG
    codes := Vector.ofFn fun i => levelCode (volts.getD i.val ⟨0, 0, 0⟩) }
  let blow := !straps.getLsbD 2 && !fuseBlown
  let c := { c with
    fuseFail := blow && !blowTakes
    debugOpen := straps.getLsbD 1 && straps.getLsbD 2 && !fuseBlown }
  if reservedMask c ≠ 0 then { c with pinMask := reservedMask c, stop := some .cfgReserved }
  else if conflictMask c ≠ 0 then { c with pinMask := conflictMask c, stop := some .cfgConflict }
  else c

/-- Steps 6 and 9: with the loops locked and the configuration checked, every leaf port in use whose loop locked trains, and, unless the unit is stopped, every Trellis port that the dimensions use (R125, R127, R173, R176). -/
def startTraining (c : Cfg) (d : Dev) : Dev :=
  if !(c.latched && d.stat.loopsLocked) || d.stat.trainStarted then d
  else
    let d := modS d fun x => { x with trainStarted := true }
    let d := each allLem d fun d p =>
      if inUse c p && !d.stat.pllFail.getLsbD p.val then modP d p fun x => { x with phase := .training } else d
    if stopped d then d
    else each allTrl d fun d i => if trains c i then modT d i fun x => { x with st := .training } else d

/-- Steps 2 and 3 (R122, R126, R151): everything is latched, the debug-lock fuse is blown where DBG_LOCK_N reads 0, and the checks of stages 1 and 2 are made. Where a ball of RSVD_G reads 1, the unit asserts FAULT_N and does nothing else (R99). -/
def execLevelPinMeasurement (volts : List PinVolts) (straps : BitVec 4) (rsvdG : W16) (blowTakes : Bool) (s : State) : Host.Outcome State Fault Refusal :=
  .next (if !(alive s && s.dev.stat.hkLocked && !s.cfg.latched) then s else
    let c := latchCfg volts straps rsvdG s.hk.fuseBlown blowTakes
    let hk := { s.hk with fuseBlown := s.hk.fuseBlown || (!straps.getLsbD 2 && blowTakes) }
    let d := modSow s.dev fun _ => initialSow c
    if rsvdG ≠ 0 then { s with hk := hk, cfg := c, dev := assertFaultN d }
    else
      let d := match c.stop with
        | some st => earlyStop d st c.pinMask
        | none => d
      { s with hk := hk, cfg := c, dev := startTraining c d })

/-! ## Steps 4, 5 and 12 -/

/-- Step 4: the island loops have locked, or some have failed (R173, R176). Bit 19 is never set: the housekeeping loop is that of step 1. -/
def execIslandLoopsLocked (fail : BitVec 20) (s : State) : Host.Outcome State Fault Refusal :=
  onDev s fun d =>
    if !d.stat.hkLocked || d.stat.loopsLocked then d
    else
      let fail := fail &&& 0x7FFFF
      let d := modS d fun x => { x with loopsLocked := true, pllFail := fail, bringupMask := if fail = 0 then x.bringupMask else x.bringupMask ||| 1 }
      startTraining s.cfg (if fail = 0 then d else earlyStop d .bringupPll 0)

/-- Step 5: memory initialised, or a check failed (R173, R176). -/
def execMemoryInitialised (sramFail spool0Fail spool1Fail : Bool) (s : State) : Host.Outcome State Fault Refusal :=
  onDev s fun d =>
    if !d.stat.loopsLocked || d.stat.pllFail != 0 || d.stat.memReady || d.stat.bringupMask != 0 then d
    else
      let mask : BitVec 4 := BitVec.ofNat 4 (2 * b2n sramFail + 4 * b2n spool0Fail + 8 * b2n spool1Fail)
      if mask = 0 then modS d fun x => { x with memReady := true }
      else earlyStop (modS d fun x => { x with bringupMask := mask }) (if sramFail then .bringupSram else .bringupSpool) 0

/-- Whether READY may be asserted: memory initialised and the chain formed, or, under LVL_DIMS code 0, memory alone (R173 step 12). -/
def readyDue (c : Cfg) (d : Dev) : Bool :=
  c.latched && d.stat.trainStarted && d.stat.memReady && d.sow.formed && !stopped d && !d.stat.ready

/-- Step 12: READY; under LVL_DIMS code 0 both lines are asserted; the ports whose hello is complete start in ascending order (R173, R185, R564). -/
def execReadyAssert (s : State) : Host.Outcome State Fault Refusal :=
  onDev s fun d =>
    if !readyDue s.cfg d then d
    else
      let d := modS d fun x => { x with ready := true, startQueue := allLem.filter (portPresent d) }
      if code s.cfg 2 = 0 then assertLines s.cfg d else d

/-- Step 13 on a port: its first status page, then PORTACT, then the reading of all 8 headers (R173, R308, R654). -/
def startPort (hk : Hk) (c : Cfg) (d : Dev) (p : LPort) : Hk × Dev :=
  let d := modS d fun x => { x with startQueue := x.startQueue.filter (· != p) }
  let d := modP d p fun x => { x with started := true }
  let d := addCause d p 1
  let d := if c.fuseFail then addCause d p 10 else d
  let (hk, d) := writePage hk c d p
  let d := modP d p fun x => { x with portact := true }
  (hk, each allRings d fun d r => readHeader c d p r)

/-- Step 13 (R173, R185): ports start in the order of READY's list. -/
def execPortStart (p : LPort) (s : State) : Host.Outcome State Fault Refusal :=
  .next (if !(alive s && s.dev.stat.ready && portPresent s.dev p && s.dev.stat.startQueue.head? == some p) then s else
    let r := startPort s.hk s.cfg s.dev p
    { s with hk := r.1, dev := r.2 })

end Sys2Proof.Machine
end

