-- ==== Sys2Proof/Machine/Faults.lean ====
section
/-! DEFINITION. The commands of faults and recovery: what the chain tells, what this unit finds, and the waits (spec/17, R616 to R652; R88, R504, R522, R708). -/
namespace Sys2Proof.Machine
open Sys2Proof

/-! ## RECOVERY frames (R619 to R621) -/

/-- Whether a RECOVERY message has been processed before: it is this unit's own, or one of its serial has come from its unit. -/
def recSeen (d : Dev) (f : TrlFrame) : Bool :=
  f.src.toNat == ownAddr d || d.recov.seen.contains (f.src.toNat, f.payload.getD 1 0)

/-- Keep a message's serial, and forget those of its unit that lie 128 or more serials back, which its next messages will reuse. -/
def recNote (d : Dev) (f : TrlFrame) : Dev :=
  let u := f.src.toNat
  let n := f.payload.getD 1 0
  modRec d fun x => { x with seen := (x.seen.filter fun e => e.1 != u || decide ((n - e.2).toNat < 128)) ++ [(u, n)] }

/-- A RECOVERY message of one kind: the first copy is forwarded on every up port but the one it came on, and acted on; a later copy is discarded (R621). -/
def recovRow (c : Cfg) (d : Dev) (i : TPort) (f : TrlFrame) (rkind : Nat) (act : Dev → Dev) : Dev :=
  if trlFrameIn d i f 7 && byteAt f.payload 0 == rkind && !(recSeen d f) then
    epilogue c (act (floodOn (recNote d f) (some i) f.src.toNat f.payload))
  else d

/-- The tenant that a message names. -/
def recTenant (f : TrlFrame) : Tenant := Fin.ofNat 4 (byteAt f.payload 2)
/-- `rcoll`. -/
def recColl (f : TrlFrame) : W16 := BitVec.ofNat 16 (leNat f.payload 4 2)
/-- `rinst`. -/
def recNum (f : TrlFrame) : W16 := BitVec.ofNat 16 (leNat f.payload 6 2)

/-- FAULT (R621, R628, R632). -/
def execFault (i : TPort) (f : TrlFrame) (s : State) : Host.Outcome State Fault Refusal :=
  onDev s fun d => recovRow s.cfg d i f 1 fun d =>
    acceptFault s.cfg d (byteAt f.payload 8) (byteAt f.payload 9) (byteAt f.payload 10) (byteAt f.payload 11)

/-- The drain is complete: DRAINED is flooded with this unit's kept windows, and counts as accepted here (R628 step 3, R629, R620). -/
def drainComplete (c : Cfg) (d : Dev) : Dev :=
  let ready := allTenants.filter fun t => d.recov.restart[t] == .draining && drainedHere c d t
  if ready.isEmpty then d
  else
    let wins := ready.flatMap (keptWindows c d)
    let d := flood d 5 0 0 0 0 ([BitVec.ofNat 8 (tenantBits ready.contains), BitVec.ofNat 8 wins.length] ++ zeros 6 ++ wins.flatMap fun w => toLe w 2)
    let d := modRec d fun x => { x with
      restart := ready.foldl (fun v (t : Tenant) => v.set t RestartSt.drained) x.restart
      drained := x.drained ++ ready.map fun t => (t, ownAddr d)
      windows := x.windows ++ wins }
    tryChange c d false

/-- DRAIN_COMPLETE (R628 step 3). -/
def execDrainComplete (s : State) : Host.Outcome State Fault Refusal :=
  onDev s fun d => epilogue s.cfg (drainComplete s.cfg d)

/-- DRAINED: its windows join the kept set, and the context change starts once every surviving unit's has come (R569, R628 step 4). -/
def execDrained (i : TPort) (f : TrlFrame) (s : State) : Host.Outcome State Fault Refusal :=
  onDev s fun d => recovRow s.cfg d i f 5 fun d =>
    let ts := bitTenants (byteAt f.payload 8)
    let wins := (List.range (byteAt f.payload 9)).map fun j => leNat f.payload (0x10 + 2 * j) 2
    tryChange s.cfg (modRec d fun x => { x with
      drained := x.drained ++ ts.map fun t => (t, f.src.toNat)
      windows := x.windows ++ wins }) false

/-- The context changes under way end; CLEAN is flooded, and counts as accepted here (R569, R628 step 5). -/
def changeDone (c : Cfg) (d : Dev) : Dev :=
  let ready := allTenants.filter fun t => d.recov.restart[t] == .changing
  if ready.isEmpty then d
  else
    let d := each ready d (finishChange c)
    tryEnd (flood d 6 0 0 0 0 [BitVec.ofNat 8 (tenantBits ready.contains)]) false

/-- CONTEXT_CHANGE_DONE (R628 step 5). -/
def execContextChangeDone (s : State) : Host.Outcome State Fault Refusal :=
  onDev s fun d => epilogue s.cfg (changeDone s.cfg d)

/-- CLEAN: a tenant's restart ends once every surviving unit's has come (R628 step 6). -/
def execClean (i : TPort) (f : TrlFrame) (s : State) : Host.Outcome State Fault Refusal :=
  onDev s fun d => recovRow s.cfg d i f 6 fun d =>
    let ts := bitTenants (byteAt f.payload 8)
    tryEnd (modRec d fun x => { x with cleaned := x.cleaned ++ ts.map fun t => (t, f.src.toNat) }) false

/-- A DRAINED or a CLEAN has not come within the wait watchdog: the unit goes on without it (R628). -/
def execRecoveryWaitExpiry (s : State) : Host.Outcome State Fault Refusal :=
  onDev s fun d =>
    if allTenants.any fun t => d.recov.restart[t] == .drained || d.recov.restart[t] == .cleaning then
      epilogue s.cfg (tryEnd (tryChange s.cfg (bumpHealth d 5) true) true)
    else d

/-- STATE (R632, R633). -/
def execState (i : TPort) (f : TrlFrame) (s : State) : Host.Outcome State Fault Refusal :=
  onDev s fun d => recovRow s.cfg d i f 2 fun d =>
    takeState s.cfg d (recTenant f) (recColl f) (recNum f)
      { unit := f.src.toNat, round := byteAt f.payload 3, committed := bitOf (byteAt f.payload 8) 0,
        sent := (List.range 24).map fun k => leNat f.payload (0x10 + 4 * k) 4 }

/-- A carrier's STATE has not come within the wait watchdog: the recovery root decides without it (R633). -/
def execStateWaitExpiry (t : Tenant) (coll : W16) (s : State) : Host.Outcome State Fault Refusal :=
  onDev s fun d =>
    epilogue s.cfg (each ((stateKeys d).filter fun k => k.1 == t && k.2.1 == coll) d fun d k =>
      let e := decideVerdict s.cfg d k.1 k.2.1 k.2.2 true
      if e = d then d else bumpHealth e 5)

/-- VERDICT (R633 to R636). -/
def execVerdict (i : TPort) (f : TrlFrame) (s : State) : Host.Outcome State Fault Refusal :=
  onDev s fun d => recovRow s.cfg d i f 3 fun d =>
    takeVerdict s.cfg d (recTenant f) (recColl f) (recNum f) (byteAt f.payload 3) (byteAt f.payload 8) (f.payload.getD 9 0)

/-- ABORT (R400, R623): it ends the open instance whose carrier sent it. -/
def execAbort (i : TPort) (f : TrlFrame) (s : State) : Host.Outcome State Fault Refusal :=
  onDev s fun d => recovRow s.cfg d i f 4 fun d =>
    takeAbort s.cfg d (recTenant f) (recColl f) (recNum f) (f.payload.getD 8 0) fun x =>
      (carriersOf (geoOf d x).shape).any fun q => addrOf d.sow.dims q == f.src.toNat

/-! ## Errors that this unit finds (R86, R88, R504, R522, R583, R617, R708) -/

/-- A crossing queue has stalled: a link down in a leaf-port island, a halt elsewhere, without the flags of R179 (R88, R251, R617). -/
def execCrossingQueueStall (island : Island) (s : State) : Host.Outcome State Fault Refusal :=
  onDev s fun d => match island with
    | .leaf p => if d.lem[p].phase = .up then epilogue s.cfg (lemDown s.cfg (bumpHealth d 5) p) else d
    | _ => haltDev d

/-- One of a list of candidates, or none, by a free value: the spec does not say which reads meet an error (log 12). -/
def victim {α : Type} (d : Dev) (l : List α) : Option α × Dev :=
  let (k, d) := draw d
  (l[Config.errorVictim k % (l.length + 1)]?, d)

/-- Add a fault that this unit has met. -/
def faultDue (d : Dev) (cls port : Nat) : Dev := modRec d fun x => { x with due := x.due ++ [(cls, port)] }

/-- A running descriptor met an uncorrectable error. -/
def hitRun (d : Dev) (e : LPort × RingNo) : Dev :=
  modRun d e.1 e.2 fun x => if x.finished then x else { x with status := 0x22, finished := true, metFault := true }

/-- An instance's data on this unit met an uncorrectable error: its descriptors end, and nothing is sent or written of it before a rerun, whether it has descriptors here or not (R51, R476, R504). -/
def hitInst (d : Dev) (x : Inst) : Dev := each x.runs (modInst d x.tenant x.coll fun y => { y with spoiled := true }) hitRun

/-- The rings whose running descriptor has not ended, for which a test holds. -/
def runningThat (d : Dev) (f : LPort → Run → Bool) : List (LPort × RingNo) :=
  allLem.flatMap fun p => allRings.filterMap fun r => match (ringAt d p r).cur with
    | some x => if !x.finished && f p x then some (p, r) else none
    | none => none

/-- The descriptors whose region on this unit holds a Spool word (R422, R515). -/
def regionRuns (c : Cfg) (d : Dev) (w : Nat) : List (LPort × RingNo) :=
  runningThat d fun p x => (dKind x.desc == 5 || (dKind x.desc == 4 && receivesHere d x.desc)) &&
    (List.range (ceilDiv (regionBytes x.desc) 65536)).any fun k =>
      let a := spoolPhys c (tenantOf c p) (dSpoolAddr x.desc + 65536 * k)
      decide (a ≤ w) && decide (w < a + 65536)

/-- The tenant whose hold or staging area a word of the unit reserve belongs to: both areas are divided per leaf port in use (R67, R524). -/
def areaTenant (c : Cfg) (w : Nat) : Option Tenant :=
  let mib : Nat := 1048576
  let p := if w < 4224 * mib then (w - 128 * mib) / (512 * mib) else (w - 4224 * mib) / (496 * mib)
  if p < 8 ∧ inUse c (fin8 p) then some (tenantOf c (fin8 p)) else none

/-- Whether a Spool word holds a saved peg of a context change under way (R569, R570). -/
def savedPegWord (c : Cfg) (d : Dev) (w : Nat) : Bool :=
  allTenants.any fun t => d.recov.restart[t] == .changing && (keptPegs c d t).any fun k => savedAt k == w

/-- An uncorrectable error in a Spool word (R522, R524, R570): counted and poisoned, and a fault of this unit. In a saved peg's word, and in a tenant's word that no running descriptor adds to, it waits for the read that meets it: the restore, a flush, a YARD_LOAD, a later addition or the patrol scrub (log 102). -/
def spoolError (c : Cfg) (d : Dev) (addr : Nat) : Dev :=
  let w := addr / 32 * 32
  let mib : Nat := 1048576
  let runs := regionRuns c d w
  if savedPegWord c d w || (decide (8192 * mib ≤ w) && runs.isEmpty) then modStore d fun s => { s with spoolBad := addNew s.spoolBad w }
  else
    let d :=
      if 128 * mib ≤ w ∧ w < 4224 * mib then
        let (v, d) := victim d (runningThat d fun p x => x.holdOk && areaTenant c w == some (tenantOf c p))
        each v.toList d hitRun
      else if 4224 * mib ≤ w ∧ w < 8192 * mib then
        let (v, d) := victim d (d.coll.insts.filter fun x => x.stageOk && areaTenant c w == some x.tenant)
        each v.toList d hitInst
      else d
    faultDue (each runs (meetBad d [w]) hitRun) 5 0

/-- The instances whose block the Press reads, of those that hold a yard word: the reduced vector is complete, and the Press has not finished with it (R484, R504, R487). -/
def pressReads (d : Dev) (holds : Block → Bool) : List Inst :=
  d.coll.insts.filter fun x =>
    let g := geoOf d x
    dPress g.desc && !x.pressDone && (reducedVals d g x).isSome && (findBlock d x.tenant (dYardAddr g.desc)).any holds

/-- One of a list of candidates, by a free value; none of an empty list. -/
def oneOf {α : Type} (d : Dev) (l : List α) : Option α × Dev :=
  let (k, d) := draw d
  (l[Config.errorVictim k % l.length]?, d)

/-- An uncorrectable error in a yard word (R504, R708): counted; every block that holds the word leaves the directory, and the instance whose block the Press was reading ends with CHECK_ERROR; later ones find no block. Which of several the Press was reading is free (log 12). -/
def yardError (c : Cfg) (d : Dev) (addr : Nat) : Dev :=
  let w := addr / 32 * 32
  let holds (b : Block) : Bool := (List.range (blockBytes b / 32 + 2)).any fun k =>
    decide (32 * k < blockBytes b + 31) && yardPhys c b.tenant (b.addr + min (32 * k) (blockBytes b - 1)) / 32 * 32 == w
  let (reader, d) := oneOf d (pressReads d holds)
  let d :=
    if w < 32 * 1048576 then
      let (v, d) := victim d (d.coll.insts.filter fun x => !x.committed)
      each v.toList d hitInst
    else d
  faultDue (each reader.toList (dropBadBlocks c (bumpHealth d 3) w) hitInst) 5 0

/-- CHECK_BIT_ERROR (R86, R504, R522, R583, R617, R708); a corrected error is counted, and changes nothing else (R387, R521). -/
def execCheckBitError (site : ErrSite) (s : State) : Host.Outcome State Fault Refusal :=
  onDev s fun d => epilogue s.cfg (match site with
    | .spool a => if a < 2 ^ 36 then spoolError s.cfg d a else d
    | .yard a => if a < 192 * 1048576 then yardError s.cfg d a else d
    | .leafIsland p =>
      let (v, d) := victim d (runningThat d fun q _ => q == p)
      faultDue (each v.toList (bumpHealth d 4) hitRun) 4 p.val
    | .poolPeg k => faultDue (modPegs (bumpHealth d 4) fun x => { x with bad := if x.bad.contains k.toNat then x.bad else x.bad ++ [k.toNat] }) 5 0
    | .otherIsland =>
      let (v, d) := victim d ((runningThat d fun _ _ => true).map Sum.inl ++ (d.coll.insts.filter fun x => x.runs.isEmpty).map Sum.inr)
      faultDue (each v.toList (bumpHealth d 4) fun d e => match e with
        | .inl e => hitRun d e
        | .inr x => hitInst d x) 5 0
    | .spoolCorrected => bumpHealth d 0
    | .yardCorrected => bumpHealth d 2
    | .otherCorrected => bumpHealth d 6)

end Sys2Proof.Machine
end

