-- ==== Sys2Proof/Machine/Status.lean ====
section
/-! DEFINITION. The commands of the status pages, the patrol scrub, the temperature sensor, the TAP and the debug port (spec/18, R653 to R675; R108, R523, R687). -/
namespace Sys2Proof.Machine
open Sys2Proof

/-! ## Status pages (R653 to R657) -/

/-- A periodic due moment: under LVL_STATUS code 0, never (R141, R654). -/
def execStatusPeriodDue (p : LPort) (s : State) : Host.Outcome State Fault Refusal :=
  onDev s fun d => if code s.cfg 7 = 0 ∨ stopped d then d else addCause d p 0

/-- A page is written (R655, R657). -/
def execStatusPageWrite (p : LPort) (s : State) : Host.Outcome State Fault Refusal :=
  .next (if alive s && mayPage s.dev p then
    let r := writePage s.hk s.cfg s.dev p
    { s with hk := r.1, dev := r.2 }
  else s)

/-! ## Scrub and temperature (R522, R523, R687) -/

/-- The row of its bank in which a Spool word lies (R512). -/
def wordRow (w : Nat) : Nat := (bytePlace (stripePlace (w / 65536)).2.2.2 (w % 65536)).2.1

/-- Every Bank Bobbin scrubs the next row of each of its banks: corrected errors are counted, and every bad word of the row is counted and poisoned; no descriptor is affected (R522, R523). -/
def execPatrolScrub (corrected : Nat) (badWords : List Nat) (s : State) : Host.Outcome State Fault Refusal :=
  onDev s fun d =>
    if !d.stat.memReady then d
    else
      let found := badWords.map fun a => a % 2 ^ 36 / 32 * 32
      let bad := ((found ++ badWordsOf d.store).filter fun w => wordRow w == d.store.scrubRow).eraseDups
      modStore (meetBad (bumpHealthN d 0 corrected) bad) fun x => { x with scrubRow := (x.scrubRow + 1) % 32768 }

/-- The junction temperature is sampled (R387, R687). -/
def execTjSample (tj : W16) (s : State) : Host.Outcome State Fault Refusal :=
  onDev s fun d => modS d fun x => { x with tj := tj }

/-! ## The TAP (R660 to R663) -/

/-- The bits of a register as they are shifted out, bit 0 first. -/
def shiftBits {w : Nat} (v : BitVec w) : List Bool := (List.range w).map v.getLsbD

/-- An instruction is loaded: what its data register captured, and which instruction holds the pins. A powered-down TAP does nothing (R105, R178). -/
def loadTap (s : State) (ir : Byte) (dr : List Bool) (drive : PinDrive) : State :=
  if s.hk.vddIo then { s with hk := { s.hk with tapIr := ir, tapDr := dr, pinDrive := drive } } else s

/-- An instruction that is executed as BYPASS: its register is one bit, which captures 0 (R662). -/
def asBypass (s : State) (ir : Byte) : State := loadTap s ir [false] .none

/-- Whether a reset input is asserted, so that a boundary instruction may take the pins (R106, R108). -/
def pinsFree (s : State) : Bool := s.hk.vddIo && (s.hk.resetPin || s.hk.chainPin || s.hk.railsRising)

/-- The boundary cells that this unit sets itself: controls, output data and output enable (R663). -/
def ownCells (s : State) : BitVec 39 :=
  let d := s.dev
  let port := ((allLem.filter fun p => d.lem[p].portact).map fun p => 2 ^ (10 + p.val)).sum
  BitVec.ofNat 39 (4 * b2n s.hk.railsRising + 16 * b2n d.line.assertA + 64 * b2n d.line.assertB + 256 * b2n d.stat.faultN +
    512 * b2n d.stat.ready + port + 2 ^ 18)

/-- The input cells of the boundary register (R663). -/
def inputCells : BitVec 39 := 0x7FFFF800AB#39

/-- What the boundary register captures: its own cells, and the levels at the input balls (R663). -/
def capturePins (s : State) (levels : BitVec 39) : List Bool := shiftBits (ownCells s ||| (levels &&& inputCells))

/-- Test-Logic-Reset: the instruction is IDCODE (R112, R660). -/
def execTapReset (s : State) : Host.Outcome State Fault Refusal := .next (loadTap s 2 [] .none)

/-- EXTEST: in a reset the cells drive the pins; at any other moment it is executed as BYPASS (R108, R662). -/
def execExtest (drive : BitVec 39) (s : State) : Host.Outcome State Fault Refusal :=
  .next (if pinsFree s then
    let (k, d) := draw s.dev
    let t := loadTap s 0 (capturePins s (Config.pinsSeen k)) .extest
    { t with hk := { t.hk with boundary := drive }, dev := d }
  else asBypass s 0)

/-- SAMPLE/PRELOAD: the pins are observed, and the boundary register loaded, at any moment (R107, R108). -/
def execSamplePreload (sample drive : BitVec 39) (s : State) : Host.Outcome State Fault Refusal :=
  .next (if s.hk.vddIo then
    let t := loadTap s 1 (capturePins s sample) .none
    { t with hk := { t.hk with boundary := drive } }
  else s)

/-- The identification code (R661). -/
def idcodeOf (hk : Hk) : BitVec 32 := if hk.codeX then 0x17A656BB#32 else 0x17A646BB#32

/-- IDCODE (R661). -/
def execIdcode (s : State) : Host.Outcome State Fault Refusal := .next (loadTap s 2 (shiftBits (idcodeOf s.hk)) .none)

/-- CLAMP: in a reset the pins keep what the boundary register holds; else BYPASS (R108). -/
def execClamp (s : State) : Host.Outcome State Fault Refusal :=
  .next (if pinsFree s then loadTap s 3 [false] .clamp else asBypass s 3)

/-- HIGHZ: in a reset the pins are released; else BYPASS (R108). -/
def execHighz (s : State) : Host.Outcome State Fault Refusal :=
  .next (if pinsFree s then loadTap s 4 [false] .highz else asBypass s 4)

/-- BYPASS (R662). -/
def execBypass (s : State) : Host.Outcome State Fault Refusal := .next (asBypass s 0xFF)

/-! ## The debug port (R664 to R670) -/

/-- Whether the private debug instructions are open: decided by step 3 of this reset (R150, R675). -/
def debugOpen (s : State) : Bool := alive s && s.cfg.latched && s.cfg.debugOpen

/-- A private instruction: executed where debug is open, else as BYPASS (R662). -/
def privateTap (s : State) (ir : Byte) (dr : State → List Bool) (act : Cfg → Dev → Dev) : Host.Outcome State Fault Refusal :=
  .next (if debugOpen s then
    let t := loadTap s ir (dr s) .none
    { t with dev := act s.cfg s.dev }
  else asBypass s ir)

/-- What DBG_STATUS captures (R664). -/
def debugStatus (s : State) : BitVec 64 :=
  let d := s.dev
  let stop := match d.stat.stop with
    | some x => stopNat x
    | none => 0
  BitVec.ofNat 64 (1 + 2 * b2n d.stat.ready + 4 * b2n d.stat.faultN + 8 * b2n (stopped d) + 2 ^ 8 * stop + 2 ^ 16 * ownAddr d +
    2 ^ 22 * b2n d.sow.formed + 2 ^ 32 * d.dbg.handOps.toNat)

/-- DBG_STATUS (R664). -/
def execDbgStatus (s : State) : Host.Outcome State Fault Refusal := privateTap s 0x40 (fun s => shiftBits (debugStatus s)) fun _ d => d

/-- DBG_ADDR: the address is loaded, and its read starts (R665, R666). -/
def execDbgAddr (addr : W64) (s : State) : Host.Outcome State Fault Refusal :=
  privateTap s 0x41 (fun _ => []) fun _ d => { d with dbg := { d.dbg with addr := addr, started := true, busy := true, result := 0 } }

/-- The space of a debug address. -/
def dbgSpace (a : W64) : Nat := a.toNat / 2 ^ 56
/-- The unit address of a debug address. -/
def dbgUnit (a : W64) : Nat := a.toNat % 2 ^ 56

/-- The result of a read of nothing (R666). -/
def dbgNothing : BitVec 288 := BitVec.ofNat 288 (2 ^ 260)

/-- What DBG_READ captures: busy, or the result of the last read; before any read has started, that of a read of nothing (R666). -/
def dbgCapture (x : Dbg) : BitVec 288 :=
  if !x.started then dbgNothing else if x.busy then BitVec.ofNat 288 (2 ^ 259) else x.result

/-- DBG_READ: a capture, with an Update-DR or not; an Update-DR starts the next read, one step on unless busy was captured (R666). -/
def execDbgRead (update : Bool) (s : State) : Host.Outcome State Fault Refusal :=
  privateTap s 0x42 (fun s => shiftBits (dbgCapture s.dev.dbg)) fun _ d =>
    if !update then d
    else
      let x := d.dbg
      let step : Nat := if dbgSpace x.addr = 1 ∨ dbgSpace x.addr = 2 then 32 else 1
      let unit_ := (dbgUnit x.addr + step) % 2 ^ 56
      let next : W64 := if x.busy then x.addr else BitVec.ofNat 64 (2 ^ 56 * dbgSpace x.addr + unit_)
      { d with dbg := { x with addr := next, started := true, busy := true, result := 0 } }

/-- A number made of little-endian bytes. -/
def numOf (bs : List Byte) : Nat := leNat bs 0 bs.length

/-- The tenant whose slice holds a pool peg; 0 for none. -/
def sliceTenant (c : Cfg) (k : Nat) : Nat := ((allTenants.find? fun t => inSlice c t k).getD 0).val

/-- The flush sequence of a region's layout (R514, R519). -/
def flushSeq (desc : Desc) : Nat :=
  let n := (layoutOf desc).1
  if (arithOf desc).exact then (if n = 40 then 0 else if n = 12 then 1 else match dInFmt desc with
    | .e4m3 | .e5m2 => 2
    | _ => 3)
  else if n = 8 then 4 else if n = 4 then 5 else if n = 2 then 6 else 7

/-- The Base Bobbin sequences that a descriptor's kind, operation, formats and modes select (R519). -/
def descSeqs (desc : Desc) : List Nat :=
  let gathers := [0x12, 0x13, 0x1D] ++ (if dRecipeOps desc = 0 then [] else [0x11])
  let longs := if (arithOf desc).exact then [8 + dIn desc] else []
  match dKind desc with
  | 1 => gathers ++ longs ++ (if isScatter desc then [0x18] else []) ++ (if isStream desc then [0x19] else [])
  | 2 => gathers ++ [0x15, 0x16, 0x17] ++ (if hemActive desc then [0x14] else [])
  | 3 => if bitOf (byteAt desc 0x29) 0 then [0x1E] else []
  | 4 => gathers ++ longs ++ (if isScatter desc then [0x18] else [])
  | 5 => [flushSeq desc]
  | _ => []

/-- The sequences that a Base Bobbin may be running as the unit stands: at step 5 of R173 the clear and the march tests; from then on the patrol scrub and the poisoning of words, those of the descriptors that run, and in a context change the peg saves and restores; never one of the manufacturing tests (R519). -/
def seqsNow (d : Dev) : List Nat :=
  if !d.stat.memReady then [0x1C, 0x21, 0x22, 0x23, 0x24, 0x25, 0x26, 0x27]
  else [0x1A, 0x1B] ++ (allLem.flatMap fun p => allRings.flatMap fun r => ((ringAt d p r).cur.toList).flatMap fun x => descSeqs x.desc) ++
    (if allTenants.any fun t => d.recov.restart[t] == .changing then [0x1F, 0x20] else [])

/-- What debug space 07h shows of a Base Bobbin: the code of one of the sequences that may run, whether one runs, and how many have run (R667; log 21). -/
def bobbinData (d : Dev) (k a : Nat) : Nat :=
  let b := Config.bobbinState k a
  let l := seqsNow d
  l.getD (b.toNat % 64 % l.length) 0 + 64 * (b.toNat / 64)

/-- The data of a debug read, with its poison flag; none where the address lies outside its space or the space reads nothing (R665 to R667). -/
def dbgData (hk : Hk) (c : Cfg) (d : Dev) (k : Nat) : Option (Nat × Bool) :=
  let a := dbgUnit d.dbg.addr
  match dbgSpace d.dbg.addr with
  | 1 =>
    if a % 32 = 0 ∧ a < 2 ^ 36 then
      some (if a < 8 * 2 ^ 30 then (Config.reserveWord k a).toNat else numOf (spReads d.store.spool a 32), poisoned d.store a)
    else none
  | 2 =>
    if a % 32 = 0 ∧ a < 192 * 2 ^ 20 then
      some (if a < 32 * 2 ^ 20 then (Config.reserveWord k a).toNat else numOf (spReads d.store.yard a 32), false)
    else none
  | 3 =>
    if a < 65536 then
      some ((poolPeg d a).toNat + 2 ^ 16 * b2n (d.pegs.watches.any fun w => w.peg == a) +
        2 ^ 17 * b2n (d.pegs.phases.any fun x => x.peg == a) + 2 ^ 18 * sliceTenant c a, false)
    else none
  | 4 =>
    if a < 6144 then
      let p := fin8 (a / 768)
      some ((spRead d.lem[p].pocket (a % 768)).toNat + 2 ^ 18 * (tenantOf c p).val, false)
    else none
  | 5 =>
    if a < 2048 then
      (((ringAt d (fin8 (a / 256)) (fin8 (a / 32))).queue)[a / 4 % 8]?).map fun q => (numOf (slice q.bytes (32 * (a % 4)) 32), false)
    else none
  | 6 =>
    if a < 1024 then
      some (match (d.store.dir.filter fun b => b.port.val == a / 128)[a % 128]? with
        | some b => (1 + 2 * b.tenant.val + 2 ^ 3 * b.addr + 2 ^ 35 * b.k + 2 ^ 51 * b.n + 2 ^ 67 * b.wFmt + 2 ^ 71 * b.fn +
            2 ^ 74 * b.lo.toNat + 2 ^ 106 * b.hi.toNat, false)
        | none => (0, false))
    else none
  | 7 => if a < 64 then some (bobbinData d k a, false) else none
  | 8 =>
    if a < 96 then
      let x := d.trl[fin6 (a / 16)]
      some ((x.loopBits.getD (a % 16) 0).toNat + 2 ^ 64 * (x.loopErrors.getD (a % 16) 0).toNat, false)
    else none
  | 9 => if a < 8 then some (numOf (slice (pageConfig hk c d) (32 * a) 32), false) else none
  | _ => none

/-- The 288-bit result of a read (R666): an uncorrectable word shows zeros. -/
def dbgResult (r : Option (Nat × Bool)) (corrected uncorrectable : Bool) : BitVec 288 :=
  match r with
  | none => dbgNothing
  | some (v, poison) =>
    BitVec.ofNat 288 ((if uncorrectable then 0 else v % 2 ^ 256) + 2 ^ 256 * b2n corrected + 2 ^ 257 * b2n uncorrectable + 2 ^ 258 * b2n poison)

/-- The read under way completes (R666). -/
def execDbgReadDone (corrected uncorrectable : Bool) (s : State) : Host.Outcome State Fault Refusal :=
  onDev s fun d =>
    if d.dbg.busy then
      let (k, d) := draw d
      { d with dbg := { d.dbg with busy := false, result := dbgResult (dbgData s.hk s.cfg d k) corrected uncorrectable } }
    else d

/-! ## Hand operations (R668, R669) -/

/-- Count a hand operation that was applied (R664). -/
def countHand (d : Dev) : Dev :=
  { d with dbg := { d.dbg with handOps := if d.dbg.handOps = 0xFFFF then 0xFFFF else d.dbg.handOps + 1 } }

/-- Change a peg by hand: a pool peg with its watches and dependencies judged, or a pocket peg (R550, R551, R668). A tally operation leaves a pool peg whose word is bad as it is (R583; log 93). -/
def handPeg (c : Cfg) (d : Dev) (hspace : BitVec 2) (hpeg : W16) (pop : Nat) (f : W16 → W16) : Dev :=
  let k := hpeg.toNat
  if hspace = 0 ∧ pegFails d k pop then countHand d
  else if hspace = 0 then epilogue c (countHand (poolWrite c d k (f (poolPeg d k))))
  else if hspace = 1 ∧ k < 6144 then
    countHand (modP d (fin8 (k / 768)) fun x => { x with pocket := spWrite x.pocket (k % 768) (f (spRead x.pocket (k % 768))) })
  else d

/-- `hop` 1: set (R542, R668). -/
def execHandSet (hspace : BitVec 2) (hpeg : W16) (s : State) : Host.Outcome State Fault Refusal :=
  privateTap s 0x43 (fun _ => []) fun c d => handPeg c d hspace hpeg 1 fun v => (pegApply 1 v 0).1

/-- `hop` 2: clear (R542, R668). -/
def execHandClear (hspace : BitVec 2) (hpeg : W16) (s : State) : Host.Outcome State Fault Refusal :=
  privateTap s 0x43 (fun _ => []) fun c d => handPeg c d hspace hpeg 2 fun v => (pegApply 2 v 0).1

/-- `hop` 3: tally add; an exception it raises is recorded nowhere (R542, R668). -/
def execHandTallyAdd (hspace : BitVec 2) (hpeg hvalue : W16) (s : State) : Host.Outcome State Fault Refusal :=
  privateTap s 0x43 (fun _ => []) fun c d => handPeg c d hspace hpeg 3 fun v => (pegApply 3 v hvalue).1

/-- `hop` 4: tally take (R542, R668). -/
def execHandTallyTake (hspace : BitVec 2) (hpeg hvalue : W16) (s : State) : Host.Outcome State Fault Refusal :=
  privateTap s 0x43 (fun _ => []) fun c d => handPeg c d hspace hpeg 4 fun v => (pegApply 4 v hvalue).1

/-- `hop` 5: write value (R668). -/
def execHandWriteValue (hspace : BitVec 2) (hpeg hvalue : W16) (s : State) : Host.Outcome State Fault Refusal :=
  privateTap s 0x43 (fun _ => []) fun c d => handPeg c d hspace hpeg 1 fun _ => hvalue

/-- `hop` 6: an open phase ends with MISMATCH to every unit that has reported; with none open, nothing (R668). -/
def execHandEndBarrierPhase (hspace : BitVec 2) (hpeg : W16) (s : State) : Host.Outcome State Fault Refusal :=
  privateTap s 0x43 (fun _ => []) fun c d =>
    match (if hspace = 0 then d.pegs.phases.find? fun x => x.peg == hpeg.toNat else none) with
    | some x => epilogue c (countHand (engineMismatch c d x.tenant x.peg (x.reported.map (·.1))))
    | none => d

/-! ## Loopback (R274, R670) -/

/-- Whether DBG_LOOP may take a port: it is not up, the torus does not leave it unused, and the unit waits at step 10 or is stopped (R102, R670; log 79). -/
def mayLoop (d : Dev) (i : TPort) : Bool :=
  !d.trl[i].linkUp && dimOf d.sow.dims (i.val / 2) != 1 && ((d.stat.trainStarted && !d.sow.step10 && !d.sow.formed) || stopped d)

/-- DBG_LOOP with `lenter` 1: the port trains with loopback requested, and counts in space 08h (R670). -/
def execDbgLoopEnter (lport : BitVec 3) (s : State) : Host.Outcome State Fault Refusal :=
  privateTap s 0x44 (fun _ => []) fun _ d =>
    if lport.toNat < 6 ∧ mayLoop d (fin6 lport.toNat) then
      modT d (fin6 lport.toNat) fun x => { x with
        loopLeader := true, looped := true, loopFollower := false
        loopBits := List.replicate 16 0, loopErrors := List.replicate 16 0 }
    else d

/-- DBG_LOOP with `lenter` 0: the port leaves loopback, and is silent until the next reset (R196, R670). -/
def execDbgLoopLeave (lport : BitVec 3) (s : State) : Host.Outcome State Fault Refusal :=
  privateTap s 0x44 (fun _ => []) fun c d =>
    if lport.toNat < 6 ∧ d.trl[fin6 lport.toNat].loopLeader then
      tryStep10 c s.hk.dieSerial (modT d (fin6 lport.toNat) fun x => { x with st := .silent, loopLeader := false })
    else d

end Sys2Proof.Machine
end

