-- ==== Sys2Proof/Machine/Dispatch.lean ====
section
/-! DEFINITION. The dispatch: one arm per command, each one direct call of its meaning. -/
namespace Sys2Proof.Machine
open Sys2Proof

/-- The effect of a command on everything but the queue. -/
def exec (i : Instr) (s : State) : Host.Outcome State Fault Refusal :=
  match i with
  | .vddIoRise => Sys2Proof.Machine.execVddIoRise s
  | .railsRisingEnd => Sys2Proof.Machine.execRailsRisingEnd s
  | .vddIoFall => Sys2Proof.Machine.execVddIoFall s
  | .brownOut rail clockToo => Sys2Proof.Machine.execBrownOut rail clockToo s
  | .clockLoss brownToo => Sys2Proof.Machine.execClockLoss brownToo s
  | .resetAssert chain => Sys2Proof.Machine.execResetAssert chain s
  | .resetRelease chain => Sys2Proof.Machine.execResetRelease chain s
  | .housekeepingLock => Sys2Proof.Machine.execHousekeepingLock s
  | .housekeepingLockFail => Sys2Proof.Machine.execHousekeepingLockFail s
  | .levelPinMeasurement volts straps rsvdG blowTakes => Sys2Proof.Machine.execLevelPinMeasurement volts straps rsvdG blowTakes s
  | .islandLoopsLocked fail => Sys2Proof.Machine.execIslandLoopsLocked fail s
  | .memoryInitialised sramFail spool0Fail spool1Fail => Sys2Proof.Machine.execMemoryInitialised sramFail spool0Fail spool1Fail s
  | .readyAssert => Sys2Proof.Machine.execReadyAssert s
  | .portStart p => Sys2Proof.Machine.execPortStart p s
  | .lemiusLinkUp p found => Sys2Proof.Machine.execLemiusLinkUp p found s
  | .lemiusTrainingTimeout p => Sys2Proof.Machine.execLemiusTrainingTimeout p s
  | .lemiusFrameReceive p bytes fixes => Sys2Proof.Machine.execLemiusFrameReceive p bytes fixes s
  | .lemiusReplayTimer p => Sys2Proof.Machine.execLemiusReplayTimer p s
  | .hello p f => Sys2Proof.Machine.execHello p f s
  | .nudge p f => Sys2Proof.Machine.execNudge p f s
  | .leafLinkDownFrame p f => Sys2Proof.Machine.execLeafLinkDownFrame p f s
  | .lane0ElectricalIdle p => Sys2Proof.Machine.execLane0ElectricalIdle p s
  | .readCpl p f => Sys2Proof.Machine.execReadCpl p f s
  | .readTimeout p tag => Sys2Proof.Machine.execReadTimeout p tag s
  | .tagRetireEnd p tag => Sys2Proof.Machine.execTagRetireEnd p tag s
  | .headerRead p r => Sys2Proof.Machine.execHeaderRead p r s
  | .descriptorFetch p r => Sys2Proof.Machine.execDescriptorFetch p r s
  | .pollTimer p r => Sys2Proof.Machine.execPollTimer p r s
  | .refetchTimer p r => Sys2Proof.Machine.execRefetchTimer p r s
  | .readRetryTimer p r => Sys2Proof.Machine.execReadRetryTimer p r s
  | .dependencySatisfied p r k => Sys2Proof.Machine.execDependencySatisfied p r k s
  | .waitTimeoutExpiry p r => Sys2Proof.Machine.execWaitTimeoutExpiry p r s
  | .nop p r => Sys2Proof.Machine.execNop p r s
  | .broadcast p r => Sys2Proof.Machine.execBroadcast p r s
  | .reduceToOne p r => Sys2Proof.Machine.execReduceToOne p r s
  | .allReduce p r => Sys2Proof.Machine.execAllReduce p r s
  | .reduceScatter p r => Sys2Proof.Machine.execReduceScatter p r s
  | .allGather p r => Sys2Proof.Machine.execAllGather p r s
  | .exchangeEqualSizes p r => Sys2Proof.Machine.execExchangeEqualSizes p r s
  | .exchangeUnequalSizes p r => Sys2Proof.Machine.execExchangeUnequalSizes p r s
  | .yardLoad p r => Sys2Proof.Machine.execYardLoad p r s
  | .yardBlockRegister p r => Sys2Proof.Machine.execYardBlockRegister p r s
  | .residentAccum p r => Sys2Proof.Machine.execResidentAccum p r s
  | .residentFlush p r => Sys2Proof.Machine.execResidentFlush p r s
  | .pegSet p r => Sys2Proof.Machine.execPegSet p r s
  | .pegClear p r => Sys2Proof.Machine.execPegClear p r s
  | .tallyAdd p r => Sys2Proof.Machine.execTallyAdd p r s
  | .tallyTake p r => Sys2Proof.Machine.execTallyTake p r s
  | .barrier p r => Sys2Proof.Machine.execBarrier p r s
  | .epochFence p r => Sys2Proof.Machine.execEpochFence p r s
  | .holdGrant t => Sys2Proof.Machine.execHoldGrant t s
  | .inputReadDone p r => Sys2Proof.Machine.execInputReadDone p r s
  | .prologueReceive q f => Sys2Proof.Machine.execPrologueReceive q f s
  | .trellisDataReceive q f => Sys2Proof.Machine.execTrellisDataReceive q f s
  | .trellisSignalReceive q f => Sys2Proof.Machine.execTrellisSignalReceive q f s
  | .spoolWritesPerformed p r => Sys2Proof.Machine.execSpoolWritesPerformed p r s
  | .completionRecord p r => Sys2Proof.Machine.execCompletionRecord p r s
  | .contributionWaitExpiry t coll => Sys2Proof.Machine.execContributionWaitExpiry t coll s
  | .pressStage t coll => Sys2Proof.Machine.execPressStage t coll s
  | .sieveSelection t coll => Sys2Proof.Machine.execSieveSelection t coll s
  | .trellisLinkUp q hMargin vMargin => Sys2Proof.Machine.execTrellisLinkUp q hMargin vMargin s
  | .trellisTrainingTimeout q => Sys2Proof.Machine.execTrellisTrainingTimeout q s
  | .trellisPortSilent q => Sys2Proof.Machine.execTrellisPortSilent q s
  | .trellisFrameReceive q bytes fixes => Sys2Proof.Machine.execTrellisFrameReceive q bytes fixes s
  | .trellisReplayTimer q => Sys2Proof.Machine.execTrellisReplayTimer q s
  | .alignmentBlock q => Sys2Proof.Machine.execAlignmentBlock q s
  | .trellisLaneLoss q => Sys2Proof.Machine.execTrellisLaneLoss q s
  | .trellisLinkDownFrame q f => Sys2Proof.Machine.execTrellisLinkDownFrame q f s
  | .sowHello q f => Sys2Proof.Machine.execSowHello q f s
  | .reference q f => Sys2Proof.Machine.execReference q f s
  | .seed q f => Sys2Proof.Machine.execSeed q f s
  | .close q f => Sys2Proof.Machine.execClose q f s
  | .position q f => Sys2Proof.Machine.execPosition q f s
  | .rollcall q f => Sys2Proof.Machine.execRollcall q f s
  | .formed q f => Sys2Proof.Machine.execFormed q f s
  | .stop q f => Sys2Proof.Machine.execStop q f s
  | .sowOriginDeadline => Sys2Proof.Machine.execSowOriginDeadline s
  | .sowReferenceDeadline => Sys2Proof.Machine.execSowReferenceDeadline s
  | .sowFormedDeadline => Sys2Proof.Machine.execSowFormedDeadline s
  | .pegOpReceive q f => Sys2Proof.Machine.execPegOpReceive q f s
  | .watch q f => Sys2Proof.Machine.execWatch q f s
  | .unwatch q f => Sys2Proof.Machine.execUnwatch q f s
  | .arrive q f => Sys2Proof.Machine.execArrive q f s
  | .withdraw q f => Sys2Proof.Machine.execWithdraw q f s
  | .fallback q f => Sys2Proof.Machine.execFallback q f s
  | .done q f => Sys2Proof.Machine.execDone q f s
  | .met q f => Sys2Proof.Machine.execMet q f s
  | .full q f => Sys2Proof.Machine.execFull q f s
  | .watchResendTimer p r k => Sys2Proof.Machine.execWatchResendTimer p r k s
  | .begin q f => Sys2Proof.Machine.execBegin q f s
  | .release q f => Sys2Proof.Machine.execRelease q f s
  | .mismatch q f => Sys2Proof.Machine.execMismatch q f s
  | .withdrawn q f => Sys2Proof.Machine.execWithdrawn q f s
  | .pegOpDoneTimeout p r => Sys2Proof.Machine.execPegOpDoneTimeout p r s
  | .barrierWatchdogExpiry p r => Sys2Proof.Machine.execBarrierWatchdogExpiry p r s
  | .withdrawReplyTimeout p r => Sys2Proof.Machine.execWithdrawReplyTimeout p r s
  | .lineRelease => Sys2Proof.Machine.execLineRelease s
  | .lineReadHigh line => Sys2Proof.Machine.execLineReadHigh line s
  | .lineWatchdogExpiry => Sys2Proof.Machine.execLineWatchdogExpiry s
  | .crossingQueueStall island => Sys2Proof.Machine.execCrossingQueueStall island s
  | .checkBitError site => Sys2Proof.Machine.execCheckBitError site s
  | .fault q f => Sys2Proof.Machine.execFault q f s
  | .drainComplete => Sys2Proof.Machine.execDrainComplete s
  | .drained q f => Sys2Proof.Machine.execDrained q f s
  | .contextChangeDone => Sys2Proof.Machine.execContextChangeDone s
  | .clean q f => Sys2Proof.Machine.execClean q f s
  | .recoveryWaitExpiry => Sys2Proof.Machine.execRecoveryWaitExpiry s
  | .state q f => Sys2Proof.Machine.execState q f s
  | .stateWaitExpiry t coll => Sys2Proof.Machine.execStateWaitExpiry t coll s
  | .verdict q f => Sys2Proof.Machine.execVerdict q f s
  | .abort q f => Sys2Proof.Machine.execAbort q f s
  | .statusPeriodDue p => Sys2Proof.Machine.execStatusPeriodDue p s
  | .statusPageWrite p => Sys2Proof.Machine.execStatusPageWrite p s
  | .patrolScrub corrected badWords => Sys2Proof.Machine.execPatrolScrub corrected badWords s
  | .tjSample tj => Sys2Proof.Machine.execTjSample tj s
  | .tapReset => Sys2Proof.Machine.execTapReset s
  | .extest drive => Sys2Proof.Machine.execExtest drive s
  | .samplePreload sample drive => Sys2Proof.Machine.execSamplePreload sample drive s
  | .idcode => Sys2Proof.Machine.execIdcode s
  | .clamp => Sys2Proof.Machine.execClamp s
  | .highz => Sys2Proof.Machine.execHighz s
  | .bypass => Sys2Proof.Machine.execBypass s
  | .dbgStatus => Sys2Proof.Machine.execDbgStatus s
  | .dbgAddr addr => Sys2Proof.Machine.execDbgAddr addr s
  | .dbgRead update => Sys2Proof.Machine.execDbgRead update s
  | .dbgReadDone corrected uncorrectable => Sys2Proof.Machine.execDbgReadDone corrected uncorrectable s
  | .handSet hspace hpeg => Sys2Proof.Machine.execHandSet hspace hpeg s
  | .handClear hspace hpeg => Sys2Proof.Machine.execHandClear hspace hpeg s
  | .handTallyAdd hspace hpeg hvalue => Sys2Proof.Machine.execHandTallyAdd hspace hpeg hvalue s
  | .handTallyTake hspace hpeg hvalue => Sys2Proof.Machine.execHandTallyTake hspace hpeg hvalue s
  | .handWriteValue hspace hpeg hvalue => Sys2Proof.Machine.execHandWriteValue hspace hpeg hvalue s
  | .handEndBarrierPhase hspace hpeg => Sys2Proof.Machine.execHandEndBarrierPhase hspace hpeg s
  | .dbgLoopEnter lport => Sys2Proof.Machine.execDbgLoopEnter lport s
  | .dbgLoopLeave lport => Sys2Proof.Machine.execDbgLoopLeave lport s
  | .railFallDuringRisingPhase rail => Sys2Proof.Machine.execRailFallDuringRisingPhase rail s
  | .lemiusBackToDetect p => Sys2Proof.Machine.execLemiusBackToDetect p s
  | .electricalIdleHoldEnd p => Sys2Proof.Machine.execElectricalIdleHoldEnd p s
  | .laneMarginingRequest p m => Sys2Proof.Machine.execLaneMarginingRequest p m s
  | .loopbackFollowerEntry trellis port => Sys2Proof.Machine.execLoopbackFollowerEntry trellis port s
  | .alignmentBlockReceive q bytes => Sys2Proof.Machine.execAlignmentBlockReceive q bytes s
  | .clearFirstComplete p r => Sys2Proof.Machine.execClearFirstComplete p r s
  | .abortedInstanceWatchdogExpiry t coll => Sys2Proof.Machine.execAbortedInstanceWatchdogExpiry t coll s

end Sys2Proof.Machine
end

