-- ==== Sys2Proof/Machine/Tick.lean ====
section
/-! DEFINITION. The tick, which the block takes where no command waits (log 3): every link that is up sends one frame, under the arbiters of R709 and R287, with Darn's replays first, and a loopback port counts (R228 to R235, R245, R272, R283 to R287, R320, R420, R670). -/
namespace Sys2Proof.Machine
open Sys2Proof

/-! ## A leaf port (R709) -/

/-- Apply a chunk signal whose output frames have all been sent; an overflow is the descriptor's tally exception (R420, R543). -/
def applyMark (c : Cfg) (d : Dev) (p : LPort) (r : RingNo) (m : SigMark) : Dev :=
  if pegFails d m.peg m.pop then d else
  let v := (poolPeg d m.peg).toNat
  let (d, _, e) := poolOp c d m.peg m.pop (BitVec.ofNat 16 (min m.amount 0xFFFF))
  let e := if m.pop = 3 ∧ 0xFFFF < m.amount then 2 else e
  tallyExc c d p r e (m.element + (0xFFFF - v) * m.step)

/-- Apply every chunk signal that is next in its stream, with fuel. -/
def applyMarks (c : Cfg) (p : LPort) : Nat → Dev → Dev
  | 0, d => d
  | n + 1, d =>
    let q := d.lem[p].txq
    match (List.range 8).findSome? fun s => if heldStream c d p s then none else match streamHead q s with
      | some it => (match it.body with
        | .signal m => some (it, m)
        | _ => none)
      | none => none with
    | none => d
    | some (it, m) => applyMarks c p n (applyMark c (modP d p fun x => { x with txq := x.txq.erase it }) p (fin8 it.stream) m)

/-- A leaf port's tick: a replayed frame, else a frame never sent, else IDLE (R227, R233, R234, R709). -/
def tickLem (c : Cfg) (d : Dev) (p : LPort) : Dev :=
  if d.lem[p].phase ≠ .up then d
  else
    let d := applyMarks c p d.lem[p].txq.length d
    let x := d.lem[p]
    match x.darn.replay with
    | (n, f) :: rest =>
      modP d p fun x => let y := lemOut x (some n) (lemBody p f (lemReturns x)); { y with darn := { y.darn with replay := rest, asked := false } }
    | [] =>
      match nextLem (heldStream c d p) x with
      | some (v, it) =>
        let d := putLem (heldStream c d p) d p v it
        (match it.body with
         | .frame (.helloAck cores result) => completeHello c d p cores result
         | _ => d)
      | none => modP d p fun x => lemOut x none (zeros 12 ++ (lemReturns x).map (BitVec.ofNat 8))

/-! ## A Trellis port (R286, R287) -/

/-- Whether a group has still to send, or to pass on, a frame by a link: a transfer of its open instance that leaves by it is not done (R286; log 14). -/
def moreOn (d : Dev) (i : TPort) (t : Tenant) (coll : W16) : Bool :=
  (instAt d t coll).any fun x =>
    let g := geoOf d x
    x.aborted.isNone && (openWires g x).any fun wire => (transfersFor g wire).any fun tr =>
      (leavesBy g.dims g.own tr).any (fun e => e.1 == i.val) && (if mine g tr.fromPos then stillGoes g x wire tr else stillComes g x wire tr)

/-- Free the slots of the groups that have sent their last frame on the link, and give them to those that wait (R286, R295). -/
def freeSlots (d : Dev) (i : TPort) (x : TrlPort) : TrlPort :=
  giveSlots { x with slots := x.slots.filter fun e => x.txq.any (fun it => decide (it.owner = .group e.2.1 e.2.2)) || moreOn d i e.2.1 e.2.2 }

/-- The contender number of an item; none for link control, and for a group that waits for a slot (R286). -/
def contender (x : TrlPort) (it : TrlItem) : Option Nat :=
  match it.owner with
  | .control => none
  | .group t coll => slotOfGroup x t coll
  | .pegs t => some (64 + t.val)
  | .recovery => some 68

/-- Whether a frozen instance holds a frame back: it is one of the instance's, and not of another group of its key (R632). -/
def heldBack (d : Dev) (it : TrlItem) : Bool :=
  match it.owner with
  | .group t coll => (instAt d t coll).any fun y => y.frozen && isParty d y it.frame.src.toNat
  | _ => false

/-- Whether a waiting frame may be sent now (R283, R632). -/
def trlReady (d : Dev) (x : TrlPort) (it : TrlItem) : Bool :=
  creditLeft x.credit[fin8 it.frame.vc.toNat] && !(heldBack d it)

/-- The frame that the arbiter chooses, with its contender number; none for link control (R287). -/
def pickTrl (d : Dev) (x : TrlPort) : Option (TrlItem × Option Nat) :=
  match x.txq.find? fun it => it.owner == .control && trlReady d x it with
  | some it => some (it, none)
  | none =>
    (List.range 69).findSome? fun k =>
      let n := (x.ptr + k) % 69
      (x.txq.find? fun it => contender x it == some n && trlReady d x it).map fun it => (it, some n)

/-- A frame's bytes leave a Trellis port: the acknowledgement, a NACK that is due, and one channel's credit return, in turn (R232, R272, R276, R283). -/
def trlOut (x : TrlPort) (seq : Option (BitVec 12)) (body : Nat → Nat → List Byte) : TrlPort :=
  let v := fin8 x.creditSel
  let cr := x.credit[v]
  { x with
    wire := withTail (body x.creditSel cr.freed.toNat) seq x.darn.last x.darn.nackDue
    lanes := trlLanes x.sinceAlign (withTail (body x.creditSel cr.freed.toNat) seq x.darn.last x.darn.nackDue)
    darn := clearDue x.darn
    credit := x.credit.set v { cr with freedSent := cr.freed }
    creditSel := (x.creditSel + 1) % 8
    sinceAlign := x.sinceAlign + 1 }

/-- Count a frame that an instance has sent for the first time (R620). -/
def countSent (d : Dev) (i : TPort) (it : TrlItem) : Dev :=
  match it.owner with
  | .group t coll => modInst d t coll fun y => { y with sent := y.sent.modify (4 * i.val + (it.frame.vc.toNat - 1)) (· + 1) }
  | _ => d

/-- The first transmission of a frame on a Trellis port. -/
def trlFirst (x : TrlPort) (it : TrlItem) (n : Option Nat) : TrlPort :=
  let y := trlOut x (some x.darn.next) (trlBody it.frame)
  let v := fin8 it.frame.vc.toNat
  { y with
    darn := darnSend y.darn it.frame
    txq := x.txq.erase it
    credit := y.credit.set v (creditSpend y.credit[v])
    ptr := match n with
      | some k => (k + 1) % 69
      | none => x.ptr }

/-- A Trellis port's tick: nothing where an alignment block is due, which goes first; else a replayed frame, a frame never sent, or IDLE (R272, R284, R287, R298). A port that DBG_LOOP holds counts what it has checked (R670). -/
def tickTrl (d : Dev) (i : TPort) : Dev :=
  let x := d.trl[i]
  if x.loopLeader then
    let (k, d) := draw d
    modT d i fun x => { x with
      loopBits := x.loopBits.mapIdx fun l v => satInc64 v (Config.loopChecked k l)
      loopErrors := x.loopErrors.mapIdx fun l v => satInc64 v (Config.loopErrors k l) }
  else if !x.linkUp || alignDue x then d
  else
    match x.darn.replay with
    | (n, f) :: rest => modT d i fun x => let y := trlOut x (some n) (trlBody f); { y with darn := { y.darn with replay := rest, asked := false } }
    | [] =>
      let x := freeSlots d i x
      match (if darnRoom x.darn then pickTrl d x else none) with
      | some (it, n) => bumpTrl (countSent (modT d i fun _ => trlFirst x it n) i it) i 0
      | none => modT d i fun _ => trlOut x none (trlIdle (ownAddr d))

/-- The tick of a unit that runs: every port in turn, then what follows. -/
def tickDev (c : Cfg) (d : Dev) : Dev := epilogue c (each allTrl (each allLem d (tickLem c)) tickTrl)

/-- Rails that are out of range may come into it, which no command tells (R164; log 80). -/
def riseRails (s : State) : State :=
  if s.hk.vddIo && s.hk.rails != 0x1FF then
    { s with hk := { s.hk with rails := s.hk.rails ||| Config.railsInRange s.dev.free }, dev := (draw s.dev).2 }
  else s

/-- The tick of the block: of a unit that does not run only the rails may change. -/
def tick (s : State) : State :=
  let s := riseRails s
  if alive s then { s with dev := tickDev s.cfg s.dev } else s

end Sys2Proof.Machine
end

