-- ==== Sys2Proof/Safety.lean ====
section
/-! DEFINITION. What counts as a sound state of the block: storage in its one canonical form (R516, R541), Darn's books within their window (R231, R235), the debug lock (R150, R151, R675), what a reset discards (R172), and the parts of the state that only their own commands change. The statements and the provers use these predicates; the machine does not. -/
namespace Sys2Proof.Machine
open Sys2Proof

/-- Every addressed storage of the unit is in canonical form: keys strictly rising, nothing listed that reads as an unlisted address does (log 13). -/
abbrev Memory.wf (d : Dev) : Prop :=
  spWf d.store.spool = true ∧ spWf d.store.yard = true ∧ spWf d.pegs.pool = true ∧ ∀ p : LPort, spWf d.lem[p].pocket = true

/-- Whether held frames carry consecutive numbers from `n` (R231). -/
def numberedFrom {α : Type} (n : BitVec 12) : List (BitVec 12 × α) → Bool
  | [] => true
  | e :: es => e.1 == n && numberedFrom (n + 1) es

/-- Darn's books on one side of a link: at most 1,024 frames are held (R235), they carry consecutive numbers up to the last one sent (R231), and only held frames are replayed (R234). -/
abbrev darnSound {α : Type} (dn : Darn α) : Prop :=
  dn.held.length ≤ 1024 ∧ numberedFrom (dn.next - BitVec.ofNat 12 dn.held.length) dn.held = true ∧
  dn.replay.all (fun e => dn.held.any fun h => h.1 == e.1) = true

/-- Darn's books on every port. -/
abbrev linksSound (d : Dev) : Prop := (∀ p : LPort, darnSound d.lem[p].darn) ∧ ∀ i : TPort, darnSound d.trl[i].darn

/-- What the operations of a unit keep of its storage and links. -/
structure Sound (d : Dev) : Prop where
  mem : Memory.wf d
  links : linksSound d

/-- The debug lock: the private instructions are open only where DBG_EN and DBG_LOCK_N were latched high and the fuse is intact (R150, R151). -/
abbrev debugLock (s : State) : Prop :=
  s.cfg.debugOpen = true → s.cfg.latched = true ∧ s.cfg.straps.getLsbD 1 = true ∧ s.cfg.straps.getLsbD 2 = true ∧ s.hk.fuseBlown = false

/-! ## What a reset discards -/

/-- Everything of the unit is at its reset value (R172), but for the status part, the draw counter of the free values, and the LINK_DOWN that a Trellis port had sent (log 5). -/
def Discarded (d : Dev) : Prop :=
  d = { Dev.reset with stat := d.stat, trl := d.trl, free := d.free } ∧
  ∀ i : TPort, d.trl[i] = { TrlPort.reset with lastLinkDown := d.trl[i].lastLinkDown, parting := d.trl[i].parting }

/-- The rows of the supplies and of the reset inputs: the only ones that reach a unit that does not run, beside those of the test access port. -/
def supplyRow : Instr → Bool
  | .vddIoRise | .railsRisingEnd | .vddIoFall | .brownOut .. | .clockLoss .. | .resetAssert .. | .resetRelease .. | .railFallDuringRisingPhase .. => true
  | _ => false

/-- The private instructions of the debug port (R662). -/
def privateRow : Instr → Bool
  | .dbgStatus .. | .dbgAddr .. | .dbgRead .. | .handSet .. | .handClear .. | .handTallyAdd .. | .handTallyTake .. | .handWriteValue .. | .handEndBarrierPhase .. | .dbgLoopEnter .. | .dbgLoopLeave .. => true
  | _ => false

/-! ## The state beside storage and descriptors -/

/-- The fields of a leaf port that only link and hello commands change. -/
def lemSide (x : LemPort) : LemPort :=
  { x with txq := [], rings := Vector.replicate 8 Ring.reset, pocket := [], reads := [], causes := 0, ctr := Vector.replicate 12 0, sat := 0, ringSat := 0 }

/-- The fields of a Trellis port that only link and sowing commands change: all but its queues, the slots of the groups queued, and its counters. -/
def trlSide (x : TrlPort) : TrlPort := { x with txq := [], sowWait := [], slots := [], ctr := Vector.replicate 7 0, sat := 0 }

/-- The status fields that only bring-up, stops, sensors and pages change. -/
def statSide (x : Stat) : Stat :=
  { x with faultN := false, health := Vector.replicate 7 0, healthSat := 0, failedUnits := 0, tctr := Vector.replicate 4 (Vector.replicate 10 0), tsat := Vector.replicate 4 0 }

/-- What stays as it was. -/
structure SideAs (d0 d : Dev) : Prop where
  lem : ∀ p : LPort, lemSide d.lem[p] = lemSide d0.lem[p]
  trl : ∀ i : TPort, trlSide d.trl[i] = trlSide d0.trl[i]
  stat : statSide d.stat = statSide d0.stat
  sow : d.sow = d0.sow
  dbg : d.dbg = d0.dbg

end Sys2Proof.Machine
end

