-- ==== Sys2Proof/Certificates/Slice0/Obligations.lean ====
section
/-! DEFINITION. The statements for the provers. A docstring begins with the rules of the spec that a statement rests on, each in the part that the docstring's words give; what is the model's own choice names the log entry. -/
open Sys2Proof Sys2Proof.Machine

/-! ## The step, and what holds of every command -/

/-- A step takes the command at the front of the queue and runs it with the queue's rest. The queue is the model's own (log 1). -/
def Obligations.StepRunsTheFrontCommand : Prop :=
  ∀ (c : Instr) (rest : List Instr) (s : State), step { s with pending := c :: rest } = exec c { s with pending := rest }

/-- On an empty queue the block ticks: rails that are out of range may come into it, a free choice while VDD_IO is in range (log 80); a unit that runs gives every port its turn to send, and any other unit stays as it is (the model's choice, log 3). -/
def Obligations.AnEmptyQueueTicks : Prop :=
  ∀ s : State, s.pending = [] →
    let r : State := if s.hk.vddIo = true ∧ s.hk.rails ≠ 0x1FF then
      { s with hk := { s.hk with rails := s.hk.rails ||| Config.railsInRange s.dev.free }, dev := { s.dev with free := s.dev.free + 1 } } else s
    (alive s = true → step s = .next { r with dev := epilogue s.cfg (each allTrl (each allLem r.dev (tickLem s.cfg)) tickTrl) }) ∧
    (alive s = false → step s = .next r)

/-- Every command in every state answers a next state, and leaves the queue to the step. -/
def Obligations.EveryCommandIsAnswered : Prop :=
  ∀ (c : Instr) (s : State), ∃ t, exec c s = .next t ∧ t.pending = s.pending

/-- R119: the configuration is held unchanged until the next reset. A command leaves it as it is, or begins a reset that loses it, or is the measurement of R173 step 2, which latches it once. R151: a blown fuse stays blown, and only a bring-up with DBG_LOCK_N at 0 blows it. The die's serial number and ordering code never change. -/
def Obligations.ConfigurationAndFuseAreHeld : Prop :=
  (∀ (c : Instr) (s t : State), exec c s = .next t →
    t.cfg = s.cfg ∨ (t.cfg = Cfg.reset ∧ t.hk.inReset = true) ∨
    (s.cfg.latched = false ∧ t.cfg.latched = true ∧
      ∃ volts straps rsvdG blow, c = .levelPinMeasurement volts straps rsvdG blow ∧ t.cfg = latchCfg volts straps rsvdG s.hk.fuseBlown blow)) ∧
  (∀ (c : Instr) (s t : State), exec c s = .next t →
    t.hk.dieSerial = s.hk.dieSerial ∧ t.hk.codeX = s.hk.codeX ∧ (s.hk.fuseBlown = true → t.hk.fuseBlown = true) ∧
    (s.hk.fuseBlown = false → t.hk.fuseBlown = true →
      ∃ volts straps rsvdG, c = .levelPinMeasurement volts straps rsvdG true ∧ straps.getLsbD 2 = false))

/-- R99, R170, R177, R178: a unit in reset, halted, or stopped for good in bring-up does nothing. No command but those of the supplies and the reset inputs changes its configuration or its device state; the draw counter of the free values apart. -/
def Obligations.AUnitThatDoesNotRunKeepsItsState : Prop :=
  ∀ (c : Instr) (s t : State), alive s = false → supplyRow c = false → exec c s = .next t →
    t.cfg = s.cfg ∧ t.dev = { s.dev with free := t.dev.free }

/-! ## Supplies, reset and bring-up -/

/-- What the state after a reset holds: the unit out of reset before step 1, every peg 0 (R541), Spool and yard 0 (R516), every ring off (R308), Darn's numbers as at a link up (R231), every counter 0 (R380), READY low and FAULT_N released (R105), DBG_ADDR 0 and nothing open (R675). What every step keeps holds there. -/
def Obligations.ResetState : Prop :=
  let d := State.reset.dev
  State.reset.pending = [] ∧ alive State.reset = true ∧ State.reset.cfg.latched = false ∧
  (∀ k, poolPeg d k = 0) ∧ (∀ a, spRead d.store.spool a = 0) ∧ (∀ a, spRead d.store.yard a = 0) ∧ d.store.dir = [] ∧
  (∀ (p : LPort) (k : Nat), spRead d.lem[p].pocket k = 0) ∧ (∀ (p : LPort) (r : RingNo), (ringAt d p r).st = .off) ∧
  (∀ p : LPort, d.lem[p].darn.next = 0 ∧ d.lem[p].darn.last = 0xFFF ∧ d.lem[p].darn.retries = 0 ∧ d.lem[p].phase = .down ∧ d.lem[p].portact = false) ∧
  (∀ i : TPort, d.trl[i].darn.next = 0 ∧ d.trl[i].darn.last = 0xFFF ∧ d.trl[i].darn.retries = 0 ∧ d.trl[i].linkUp = false) ∧
  (∀ (p : LPort) (n : Fin 12), d.lem[p].ctr[n] = 0) ∧ (∀ (i : TPort) (n : Fin 7), d.trl[i].ctr[n] = 0) ∧ (∀ n : Fin 7, d.stat.health[n] = 0) ∧
  (∀ (t : Tenant) (n : Fin 10), d.stat.tctr[t][n] = 0) ∧
  d.stat.ready = false ∧ d.stat.faultN = false ∧ d.line.assertA = false ∧ d.line.assertB = false ∧ d.dbg.addr = 0 ∧
  debugOpen State.reset = false ∧ d.coll.insts = [] ∧ d.recov.view = { lost := [], cut := [] } ∧ Sound d ∧ debugLock State.reset

/-- VDD_IO and the rails (R165, R170, R178, R179): VDD_IO in range begins the rails-rising phase, in reset and with both flags clear, the rails found in range being a free value (log 80); the phase's end is reset release where no reset input is asserted, with cause power-on; a rail that falls in it leaves it running; VDD_IO out of range powers the unit down. -/
def Obligations.SupplyRowsGiveTheRailsRisingPhase : Prop :=
  (∀ s : State, s.hk.vddIo = false → ∃ d, exec .vddIoRise s = .next { s with
      hk := { s.hk with vddIo := true, rails := Config.railsInRange s.dev.free, railsRising := true, inReset := true, causeRising := true, causeChain := s.hk.chainPin,
                        brownOut := false, clockLoss := false, tapIr := 2, tapDr := [], pinDrive := .none }
      cfg := Cfg.reset, dev := d } ∧ Discarded d ∧ d.stat = Stat.reset) ∧
  (∀ s : State, s.hk.vddIo = true → s.hk.railsRising = true → s.hk.resetPin = false → s.hk.chainPin = false →
    exec .railsRisingEnd s = .next { s with
      hk := { s.hk with rails := 0x1FF, railsRising := false, inReset := false, causeRising := false, causeChain := false, pinDrive := .none
                        resetCause := if s.hk.causeRising then 1 else if s.hk.causeChain then 3 else 2 } }) ∧
  (∀ s : State, s.hk.vddIo = true → s.hk.railsRising = true → (s.hk.resetPin = true ∨ s.hk.chainPin = true) →
    exec .railsRisingEnd s = .next { s with hk := { s.hk with rails := 0x1FF, railsRising := false } }) ∧
  (∀ s : State, s.hk.vddIo = true → ∃ d, exec .vddIoFall s = .next { s with
      hk := { s.hk with vddIo := false, railsRising := false, inReset := true, brownOut := false, clockLoss := false, tapIr := 2, tapDr := [], pinDrive := .none }
      cfg := Cfg.reset, dev := d } ∧ Discarded d ∧ d.stat = Stat.reset) ∧
  (∀ (s : State) (rail : Fin 9), s.hk.vddIo = true → s.hk.railsRising = true → ∃ m, exec (.railFallDuringRisingPhase rail) s = .next { s with hk := { s.hk with rails := m } } ∧
    ∀ k : Fin 9, m.getLsbD k.val = (s.hk.rails.getLsbD k.val && k != rail))

/-- R178, R179: a brown-out or a clock loss out of reset halts the unit: FAULT_N asserted, everything else as in a reset, and each Trellis link that was up has been told with LINK_DOWN reason 02h (R293). The neighbour gets the frame's bytes. Each halt sets its own flag, and one that both cause sets both. A brown-out in reset or in a halt sets its flag and changes nothing else; a clock loss there sets none, and the flag of a brown-out that comes with it is set. -/
def Obligations.HaltsSetTheirFlags : Prop :=
  (∀ (s : State) (rail : Fin 9) (both : Bool), s.hk.vddIo = true → s.hk.railsRising = false → s.hk.inReset = false → s.dev.stat.halted = false →
    ∃ m d, exec (.brownOut rail both) s = .next { s with hk := { s.hk with brownOut := true, clockLoss := s.hk.clockLoss || both, rails := m }, dev := d } ∧
      Discarded d ∧ d.stat = { Stat.reset with halted := true, faultN := true } ∧ d.free = s.dev.free ∧
      ∀ i : TPort, d.trl[i].lastLinkDown = (if s.dev.trl[i].linkUp then 2 else 0) ∧
        d.trl[i].parting = (if s.dev.trl[i].linkUp then linkDownBytes (ownAddr s.dev) s.dev.trl[i] 2 else [])) ∧
  (∀ (s : State) (rail : Fin 9) (both : Bool), s.hk.vddIo = true → s.hk.railsRising = false → (s.hk.inReset = true ∨ s.dev.stat.halted = true) →
    ∃ m, exec (.brownOut rail both) s = .next { s with hk := { s.hk with brownOut := true, rails := m } } ∧
      ∀ k : Fin 9, m.getLsbD k.val = (s.hk.rails.getLsbD k.val && k != rail)) ∧
  (∀ (s : State) (both : Bool), s.hk.vddIo = true → s.hk.railsRising = false → s.hk.inReset = false → s.dev.stat.halted = false →
    ∃ d, exec (.clockLoss both) s = .next { s with hk := { s.hk with clockLoss := true, brownOut := s.hk.brownOut || both }, dev := d } ∧
      Discarded d ∧ d.stat = { Stat.reset with halted := true, faultN := true } ∧ d.free = s.dev.free ∧
      ∀ i : TPort, d.trl[i].lastLinkDown = (if s.dev.trl[i].linkUp then 2 else 0) ∧
        d.trl[i].parting = (if s.dev.trl[i].linkUp then linkDownBytes (ownAddr s.dev) s.dev.trl[i] 2 else [])) ∧
  (∀ (s : State) (both : Bool), s.hk.vddIo = true → s.hk.railsRising = false → (s.hk.inReset = true ∨ s.dev.stat.halted = true) →
    exec (.clockLoss both) s = .next { s with hk := { s.hk with brownOut := s.hk.brownOut || both } })

/-- R170, R172, R179, R183: the first assertion of RESET_N or CHAIN_RESET_N begins one reset, which discards everything but the fuse and the two flags and tells each neighbour LINK_DOWN reason 01h (R293); a further assertion is part of it; the last release ends it, with the cause power-on where it included a rails-rising phase, else CHAIN_RESET_N where that input was asserted at any moment, else RESET_N. -/
def Obligations.ResetFromFirstAssertionToLastRelease : Prop :=
  (∀ (s : State) (chain : Bool), s.hk.vddIo = true → s.hk.inReset = false →
    ∃ d, exec (.resetAssert chain) s = .next { s with
        hk := { s.hk with resetPin := s.hk.resetPin || !chain, chainPin := s.hk.chainPin || chain, inReset := true, causeChain := s.hk.causeChain || chain }
        cfg := Cfg.reset, dev := d } ∧
      Discarded d ∧ d.stat = Stat.reset ∧ d.free = s.dev.free ∧ ∀ i : TPort, d.trl[i].lastLinkDown = (if s.dev.trl[i].linkUp then 1 else 0) ∧
        d.trl[i].parting = (if s.dev.trl[i].linkUp then linkDownBytes (ownAddr s.dev) s.dev.trl[i] 1 else [])) ∧
  (∀ (s : State) (chain : Bool), s.hk.vddIo = true → s.hk.inReset = true →
    exec (.resetAssert chain) s = .next { s with
      hk := { s.hk with resetPin := s.hk.resetPin || !chain, chainPin := s.hk.chainPin || chain, causeChain := s.hk.causeChain || chain } }) ∧
  (∀ s : State, s.hk.vddIo = true → s.hk.inReset = true → s.hk.railsRising = false → s.hk.chainPin = false →
    exec (.resetRelease false) s = .next { s with hk := { s.hk with
      resetPin := false, inReset := false, causeRising := false, causeChain := false, pinDrive := .none
      resetCause := if s.hk.causeRising then 1 else if s.hk.causeChain then 3 else 2 } }) ∧
  (∀ s : State, s.hk.vddIo = true → s.hk.inReset = true → s.hk.railsRising = false → s.hk.resetPin = false →
    exec (.resetRelease true) s = .next { s with hk := { s.hk with
      chainPin := false, inReset := false, causeRising := false, causeChain := false, pinDrive := .none
      resetCause := if s.hk.causeRising then 1 else if s.hk.causeChain then 3 else 2 } }) ∧
  (∀ s : State, s.hk.chainPin = true → exec (.resetRelease false) s = .next { s with hk := { s.hk with resetPin := false } }) ∧
  (∀ s : State, s.hk.resetPin = true → exec (.resetRelease true) s = .next { s with hk := { s.hk with chainPin := false } })

/-- R173 steps 6 and 9, R125, R127, R146, R176: once the configuration is latched and the loops have locked, training starts, once: on every leaf port in use whose loop has locked, and, in a unit that is in no stop, on every Trellis port that the dimensions use, which is all six where they are not coded. -/
def Obligations.TrainingStartsOnThePortsInUse : Prop :=
  ∀ (c : Cfg) (d : Dev), c.latched = true → d.stat.loopsLocked = true → d.stat.trainStarted = false →
    let e := startTraining c d
    e.stat = { d.stat with trainStarted := true } ∧
    (∀ p : LPort, e.lem[p] = if p.val < portsInUse c.codes[10].toNat ∧ d.stat.pllFail.getLsbD p.val = false then { d.lem[p] with phase := .training } else d.lem[p]) ∧
    (∀ i : TPort, e.trl[i] = if d.stat.stop = none ∧ trains c i = true then { d.trl[i] with st := .training } else d.trl[i]) ∧
    e = { d with stat := e.stat, lem := e.lem, trl := e.trl }

/-- R173 steps 1, 4 and 5, R176, R177: the housekeeping loop locks, or does not and FAULT_N is asserted, after which the unit does nothing; the island loops lock and training may start, or some fail and the unit stops with BRINGUP_PLL; memory is initialised, or a check fails and the unit stops with BRINGUP_SRAM before BRINGUP_SPOOL. Neither stop leaves a washing line driven (R125). -/
def Obligations.BringUpStepsAndTheirStops : Prop :=
  ∀ s : State, alive s = true →
    exec .housekeepingLock s = .next { s with dev := { s.dev with stat := { s.dev.stat with hkLocked := true } } } ∧
    (s.dev.stat.hkLocked = false → ∃ t, exec .housekeepingLockFail s = .next t ∧ alive t = false ∧
      t = { s with dev := { s.dev with stat := { s.dev.stat with hkFailed := true, faultN := true } } }) ∧
    (s.dev.stat.hkLocked = true → s.dev.stat.loopsLocked = false →
      exec (.islandLoopsLocked 0) s = .next { s with dev := startTraining s.cfg { s.dev with stat := { s.dev.stat with loopsLocked := true, pllFail := 0 } } }) ∧
    (s.dev.stat.hkLocked = true → s.dev.stat.loopsLocked = false → s.dev.stat.stop = none → ∀ fail : BitVec 20, fail &&& 0x7FFFF ≠ 0 →
      ∃ t, exec (.islandLoopsLocked fail) s = .next t ∧ t.dev.stat.stop = some .bringupPll ∧ t.dev.stat.pllFail = fail &&& 0x7FFFF ∧
        t.dev.stat.faultN = true ∧ t.dev.stat.bringupMask = s.dev.stat.bringupMask ||| 1 ∧ t.dev.line.assertA = false ∧ t.dev.line.assertB = false ∧
        ∀ i : TPort, t.dev.trl[i].linkUp = false) ∧
    (s.dev.stat.loopsLocked = true → s.dev.stat.pllFail = 0 → s.dev.stat.memReady = false → s.dev.stat.bringupMask = 0 →
      exec (.memoryInitialised false false false) s = .next { s with dev := { s.dev with stat := { s.dev.stat with memReady := true } } } ∧
      (s.dev.stat.stop = none → ∀ sram spool0 spool1 : Bool, (sram || spool0 || spool1) = true →
        ∃ t, exec (.memoryInitialised sram spool0 spool1) s = .next t ∧ t.dev.stat.memReady = false ∧ t.dev.stat.faultN = true ∧
          t.dev.line.assertA = false ∧ t.dev.line.assertB = false ∧ t.dev.stat.stop = some (if sram then .bringupSram else .bringupSpool) ∧
          t.dev.stat.bringupMask = BitVec.ofNat 4 (2 * b2n sram + 4 * b2n spool0 + 8 * b2n spool1)))

/-- R119, R122, R126, R132, R150, R151, R173: the measurement latches a code for each of the twelve pins by R122, the straps and RSVD_G; blows the fuse where DBG_LOCK_N reads 0; decides whether debug is open; and finds the stop: reserved codes first, then contradictions. With no stop the unit is in none and training may start. A ball of RSVD_G at 1 leaves FAULT_N asserted and a unit that does nothing (R99). -/
def Obligations.TheMeasurementLatchesTheConfiguration : Prop :=
  ∀ (s : State) (volts : List PinVolts) (straps : BitVec 4) (rsvdG : W16) (blow : Bool),
    alive s = true → s.dev.stat.hkLocked = true → s.cfg.latched = false →
    ∃ t, exec (.levelPinMeasurement volts straps rsvdG blow) s = .next t ∧ t.cfg.latched = true ∧ t.cfg.straps = straps ∧ t.cfg.rsvdG = rsvdG ∧
      (∀ i : Fin 12, t.cfg.codes[i] = levelCode (volts.getD i.val ⟨0, 0, 0⟩)) ∧
      t.hk = { s.hk with fuseBlown := s.hk.fuseBlown || (!straps.getLsbD 2 && blow) } ∧
      (t.cfg.debugOpen = true ↔ straps.getLsbD 1 = true ∧ straps.getLsbD 2 = true ∧ s.hk.fuseBlown = false) ∧
      (t.cfg.fuseFail = true ↔ straps.getLsbD 2 = false ∧ s.hk.fuseBlown = false ∧ blow = false) ∧
      (rsvdG ≠ 0 → alive t = false ∧ t.dev.stat.faultN = true) ∧
      (rsvdG = 0 → s.dev.stat.stop = none →
        t.dev.stat.stop = (if reservedMask t.cfg ≠ 0 then some .cfgReserved else if conflictMask t.cfg ≠ 0 then some .cfgConflict else none) ∧
        t.cfg.pinMask = (if reservedMask t.cfg ≠ 0 then reservedMask t.cfg else conflictMask t.cfg) ∧
        (t.dev.stat.stop ≠ none → t.dev.stat.faultN = true))

/-- R122: a voltage below 0.05 V at 100 microamperes is code 0; else the highest current whose voltage lies from 0.05 V to 1.20 V gives the resistance; with none, code 15. R123: the bands that map the resistance to a code, each with its lower bound and without its upper bound; the resistance is `uv` microvolts over `ua` microamperes. -/
def Obligations.ResistanceBandsGiveTheLevelPinCodes : Prop :=
  (∀ v : PinVolts, (levelCode v).toNat =
    if v.at100 < 50000 then 0
    else if v.at100 ≤ 1200000 then bandCode v.at100 100
    else if 50000 ≤ v.at10 ∧ v.at10 ≤ 1200000 then bandCode v.at10 10
    else if 50000 ≤ v.at4 ∧ v.at4 ≤ 1200000 then bandCode v.at4 4
    else 15) ∧
  (∀ uv ua : Nat, 0 < ua →
    bandCode uv ua =
      if uv < 500 * ua then 0 else if uv < 1220 * ua then 1 else if uv < 1820 * ua then 2 else if uv < 2680 * ua then 3
      else if uv < 3920 * ua then 4 else if uv < 5760 * ua then 5 else if uv < 8440 * ua then 6 else if uv < 12400 * ua then 7
      else if uv < 18200 * ua then 8 else if uv < 26800 * ua then 9 else if uv < 39200 * ua then 10 else if uv < 57600 * ua then 11
      else if uv < 84400 * ua then 12 else if uv < 124000 * ua then 13 else if uv < 300000 * ua then 14 else 15)

/-- R126, R129, R142, R144: the reserved codes are 4 to 14 of LVL_POS_B, 8 to 15 of LVL_POLICY and 4 to 14 of LVL_LINE, and each marks its pin. R130 and R131: a coded position is x + 4y and z. R134: the pairs' tenants. -/
def Obligations.LevelPinCodesMean : Prop :=
  (∀ (c : Cfg) (k : Fin 16), (reservedMask c).getLsbD k.val =
    ((k == 1 && decide (4 ≤ c.codes[1].toNat ∧ c.codes[1].toNat ≤ 14)) || (k == 8 && decide (8 ≤ c.codes[8].toNat)) ||
      (k == 9 && decide (4 ≤ c.codes[9].toNat ∧ c.codes[9].toNat ≤ 14)))) ∧
  (∀ c : Cfg, (codedPos c).x + 4 * (codedPos c).y = c.codes[0].toNat ∧ (codedPos c).x < 4 ∧ (codedPos c).z = c.codes[1].toNat) ∧
  (∀ (c : Cfg) (p : LPort), (tenantOf c p).val =
    if p.val < 2 then 3 - c.codes[3].toNat % 4 else if p.val < 4 then 3 - c.codes[3].toNat / 4
    else if p.val < 6 then 3 - c.codes[4].toNat % 4 else 3 - c.codes[4].toNat / 4)

/-- R173 steps 12 and 13, R185, R564, R654: READY is asserted once memory is initialised and the chain has formed; the ports whose hello is complete start in ascending order; under LVL_DIMS code 0 the barriers are numbered from 0 and both lines are asserted where a tenant owns the line. The port at the head of the start order gets its first status page, then PORTACT, and then reads its ring headers, all in one command (log 51); its start is the cause of that page. -/
def Obligations.ReadyAndThePortsStart : Prop :=
  (∀ s : State, alive s = true → s.cfg.latched = true → s.dev.stat.trainStarted = true → s.dev.stat.memReady = true → s.dev.sow.formed = true →
    s.dev.stat.stop = none → s.dev.stat.ready = false →
    ∃ t, exec .readyAssert s = .next t ∧
      t.dev.stat = { s.dev.stat with ready := true, startQueue := allLem.filter (portPresent s.dev) } ∧
      t = { s with dev := { s.dev with stat := t.dev.stat, line := t.dev.line } } ∧
      (s.cfg.codes[2].toNat = 0 → t.dev.line = { s.dev.line with
        assertA := decide (s.cfg.codes[9].toNat ≤ 3), assertB := decide (s.cfg.codes[9].toNat ≤ 3), n := 0, ready := true, released := false }) ∧
      (s.cfg.codes[2].toNat ≠ 0 → t.dev.line = s.dev.line)) ∧
  (∀ (s : State) (p : LPort), alive s = true → s.dev.stat.ready = true → portPresent s.dev p = true → s.dev.stat.startQueue.head? = some p →
    ∃ t, exec (.portStart p) s = .next t ∧ t.dev.lem[p].started = true ∧ t.dev.lem[p].portact = true ∧
      t.dev.lem[p].pageNo = s.dev.lem[p].pageNo + 1 ∧ t.dev.lem[p].causes = 0 ∧ p ∉ t.dev.stat.startQueue ∧ t.dev.stat.flagsPaged = true ∧
      (∀ q : LPort, q ≠ p → t.dev.lem[q] = s.dev.lem[q]) ∧ t.cfg = s.cfg ∧ t.dev.store = s.dev.store ∧ t.dev.trl = s.dev.trl)

/-! ## Leaf ports -/

/-- R216, R217, R220, R229, R231, R251, R269: at link up a port has Darn's numbers 000h and FFFh, no retry, 2 credits on VC3 in each direction and none elsewhere, and nothing queued or outstanding; a latest bound missed, or a partner that does not select Lemius, brings it back to Detect; so does the end of the electrical-idle hold. A Loopback request in training makes the port follow, on either kind of link; a margining request is answered by a port that is up. Nothing else changes. -/
def Obligations.PortsTrainAndFollow : Prop :=
  ∀ (s : State) (p : LPort), alive s = true →
    (∀ found : Training,
      let row : Option Nat := if found.selected = some (0x4C45, 1) then
        (if found.offers64 ∧ found.inOrder = 0xFF ∧ found.equal64 = 0xFF then some 0 else if found.inOrder = 0xFF ∧ found.equal32 = 0xFF then some 1
          else if found.inOrder &&& 0x0F = 0x0F ∧ found.equal32 &&& 0x0F = 0x0F then some 2 else none) else none
      (row = none → exec (.lemiusLinkUp p found) s = .next s) ∧
      ∀ mode : Nat, row = some mode → s.dev.lem[p].phase = .training → exec (.lemiusLinkUp p found) s = .next { s with dev := modP s.dev p fun x => { x with
      phase := .up, mode := BitVec.ofNat 8 (mode + 1)
      darn := { next := 0, last := 0xFFF, retries := 0, nackOut := false, ackDue := false, nackDue := false, held := [], replay := [], asked := false }
      credit := Vector.ofFn fun v => { lim := if v = 3 then 2 else 0, sent := 0, ret := 0, adv := if v = 3 then 2 else 0, recv := 0, freed := 0, freedSent := 0 }
      txq := [], turn := Vector.replicate 4 0, sinceVc1 := 0, helloSeen := false, helloDone := false, reads := [], retired := [] } }) ∧
    ((s.dev.lem[p].phase = .training ∨ s.dev.lem[p].phase = .loopback) →
      exec (.lemiusTrainingTimeout p) s = .next { s with dev := modP s.dev p fun x => { x with phase := .training } } ∧
      exec (.lemiusBackToDetect p) s = .next { s with dev := modP s.dev p fun x => { x with phase := .training } }) ∧
    (s.dev.lem[p].phase = .idleHold → exec (.electricalIdleHoldEnd p) s = .next { s with dev := modP s.dev p fun x => { x with phase := .training } }) ∧
    (∀ m, s.dev.lem[p].phase = .up → exec (.laneMarginingRequest p m) s = .next { s with dev := modP { s.dev with free := s.dev.free + 1 } p fun x => { x with
      margin := some m, marginReply := some { lane := m.lane, command := (Config.marginAnswer s.dev.free).1, payload := (Config.marginAnswer s.dev.free).2 } } }) ∧
    (s.dev.lem[p].phase = .training → exec (.loopbackFollowerEntry false p) s = .next { s with dev := modP s.dev p fun x => { x with phase := .loopback } }) ∧
    (∀ i : TPort, s.dev.trl[i].st = .training → s.dev.trl[i].linkUp = false → exec (.loopbackFollowerEntry true (fin8 i.val)) s =
      .next { s with dev := modT s.dev i fun x => { x with loopFollower := true } })

/-- R232: a sequenced frame with a valid CRC is accepted where its number is A + 1, a duplicate from A - 2,047 to A, and ahead from A + 2 to A + 2,048; a NACK becomes due for a frame ahead or a failed CRC unless one is outstanding, and is outstanding until A + 1 is accepted. -/
def Obligations.DarnComparesEachNumberWithTheLast : Prop :=
  ∀ (dn : Darn LemTx) (t : Tail),
    let nacked := if dn.nackOut then dn else { dn with nackOut := true, nackDue := true }
    darnRx dn false t = (.bad, nacked) ∧
    (t.seqd = false → darnRx dn true t = (.idle, dn)) ∧
    (t.seqd = true → t.seq = dn.last + 1 → darnRx dn true t = (.accept, { dn with last := t.seq, ackDue := true, nackOut := false, nackDue := false })) ∧
    (∀ k : Nat, k ≤ 2047 → t.seqd = true → t.seq = dn.last - BitVec.ofNat 12 k → darnRx dn true t = (.duplicate, { dn with ackDue := true })) ∧
    (∀ k : Nat, 2 ≤ k → k ≤ 2048 → t.seqd = true → t.seq = dn.last + BitVec.ofNat 12 k → darnRx dn true t = (.ahead, nacked))

/-- R231, R232, R234, R235: a first transmission takes the next number and is held; an acknowledgement of a held frame releases it with every frame before it, and no other, and clears the retry count; one of no held frame releases none (the model's choice, log 6); a replay is of every held frame, adds 1 to the count, and is not made where the count would become 8; an acknowledgement that comes before a replay that a NACK asked for has resent anything withdraws it (R254); at most 1,024 frames are held. -/
def Obligations.HeldFramesAreReleasedInOrder : Prop :=
  ∀ (dn : Darn TrlFrame) (f : TrlFrame) (ack : BitVec 12),
    (darnSend dn f).held = dn.held ++ [(dn.next, f)] ∧ (darnSend dn f).next = dn.next + 1 ∧ (darnSend dn f).last = dn.last ∧ (darnSend dn f).retries = dn.retries ∧
    (∀ pre g post, dn.held = pre ++ (ack, g) :: post → (∀ e ∈ pre, e.1 ≠ ack) →
      (darnAck dn ack).held = post ∧ (darnAck dn ack).retries = 0 ∧ (darnAck dn ack).next = dn.next ∧ (darnAck dn ack).last = dn.last ∧
      (darnAck dn ack).asked = false ∧ ∀ e, e ∈ (darnAck dn ack).replay ↔ dn.asked = false ∧ e ∈ dn.replay ∧ ∃ h ∈ post, h.1 = e.1) ∧
    ((∀ e ∈ dn.held, e.1 ≠ ack) → darnAck dn ack = dn) ∧
    (∀ nack : Bool, (dn.retries < 7 → darnReplay nack dn = some { dn with retries := dn.retries + 1, replay := dn.held, asked := nack }) ∧
      (dn.retries = 7 → darnReplay nack dn = none)) ∧
    (darnRoom dn = true ↔ dn.held.length < 1024)

/-- R225, R228, R232, R234, R254: the bytes of a frame reach a port that is up, as the FEC leaves them. A failed CRC leaves everything but the count of CRC errors and a NACK that falls due. With a valid CRC the acknowledgement and the credit returns are used; the next frame is accepted, counted, and its credit taken and freed; one that the link does not allow is counted as a discard besides. A NACK that asks for a replay starts one, or takes the link down where the count would become 8. The replay timer does the same. -/
def Obligations.FramesReachALeafPort : Prop :=
  ∀ (s : State) (p : LPort) (raw : List Byte) (fixes : FecFix), alive s = true → s.dev.lem[p].phase = .up →
    let bytes := fecApply raw fixes
    let t := parseTail bytes
    let x := s.dev.lem[p]
    let undone := (t.ackValid || t.nack) && x.darn.asked && x.darn.held.any fun e => e.1 == t.ack
    let dn := (applyTail x.darn t).1
    (crcOk bytes = false → exec (.lemiusFrameReceive p raw fixes) s = .next { s with dev := (modP (bumpLem s.dev p 4) p fun x => { x with
      darn := if x.darn.nackOut then x.darn else { x.darn with nackOut := true, nackDue := true } }) }) ∧
    (crcOk bytes = true → t.seqd = true → t.seq = dn.last + 1 → (applyTail x.darn t).2 = false →
      ∃ y, exec (.lemiusFrameReceive p raw fixes) s = .next { s with dev := modP s.dev p fun _ => y } ∧
        y.darn = { dn with last := t.seq, ackDue := true, nackOut := false, nackDue := false } ∧
        (∀ v : Fin 4, y.credit[v] = (let k := { x.credit[v] with ret := bytes.getD (0x0C + v.val) 0 }
          if v.val = byteAt bytes 1 % 4 then { k with recv := k.recv + 1, freed := k.freed + 1 } else k)) ∧
        y.ctr[1] = satInc64 x.ctr[1] 1 ∧ y.ctr[3] = (if fecFixed fixes then satInc64 x.ctr[3] 1 else x.ctr[3]) ∧ y.ctr[4] = x.ctr[4] ∧
        y.ctr[5] = (if undone then x.ctr[5] - 1 else x.ctr[5]) ∧
        (lemFieldsOk bytes = true → hadCredit x.credit[Fin.ofNat 4 (byteAt bytes 1)] = true → y.ctr[2] = x.ctr[2]) ∧
        (lemFieldsOk bytes = false ∨ hadCredit x.credit[Fin.ofNat 4 (byteAt bytes 1)] = false → y.ctr[2] = satInc64 x.ctr[2] 1) ∧
        y.txq = x.txq ∧ y.reads = x.reads ∧ y.rings = x.rings ∧ y.pocket = x.pocket ∧ y.phase = x.phase ∧ y.hello = x.hello) ∧
    (crcOk bytes = true → t.seqd = false → lemFieldsOk bytes = true → (applyTail x.darn t).2 = true → dn.retries < 7 → fecFixed fixes = false → undone = false →
      exec (.lemiusFrameReceive p raw fixes) s = .next { s with dev := (bumpLem (modP (modP s.dev p fun x => { x with
          darn := dn, credit := x.credit.mapFinIdx fun k cr _ => { cr with ret := bytes.getD (0x0C + k) 0 } }) p fun x => { x with
        darn := { dn with retries := dn.retries + 1, replay := dn.held, asked := true } }) p 5) }) ∧
    (timerRuns x.darn = true → x.darn.retries < 7 → exec (.lemiusReplayTimer p) s = .next { s with dev := (bumpLem (modP s.dev p fun x => { x with
      darn := { x.darn with retries := x.darn.retries + 1, replay := x.darn.held, asked := false } }) p 5) }) ∧
    (timerRuns x.darn = true → x.darn.retries = 7 → exec (.lemiusReplayTimer p) s = .next { s with dev := epilogue s.cfg (lemDown s.cfg s.dev p) })

/-- R181, R229, R236 to R239, R703: the one HELLO of a link up is answered with one HELLO_ACK on VC3 as link control. A valid one gives the port its window, ring table, status page and credits, each of them even where its result is not 00h; its result is 00h where the port is in use and the count is the one fixed, else 02h; an invalid one has 01h. A port out of use stays so, with the result that put it out of use. A further HELLO is discarded and counted. -/
def Obligations.AHelloIsAnswered : Prop :=
  ∀ (s : State) (p : LPort) (f : LemFrame), alive s = true → s.dev.lem[p].phase = .up → isLeafFrame f 5 0x30 = true →
    let x := s.dev.lem[p]
    let m := parseHello f.payload
    let r : Byte := if helloValid m = false then 1 else match x.outOfUse with
      | some q => q
      | none => if x.fixedCount = none ∨ x.fixedCount = some m.cores then 0 else 2
    (x.helloSeen = true ∨ allZero f.payload 2 2 = false → exec (.hello p f) s = .next { s with dev := bumpLem s.dev p 2 }) ∧
    (x.helloSeen = false → allZero f.payload 2 2 = true →
      exec (.hello p f) s = .next { s with dev := (modP s.dev p fun _ => { x with
        helloSeen := true, reported := m.cores
        outOfUse := if x.outOfUse = none ∧ r ≠ 0 then some r else x.outOfUse
        hello := if helloValid m then m.info else x.hello
        credit := if helloValid m then x.credit.mapFinIdx fun k cr _ => { cr with lim := m.adv.getD k 0 } else x.credit
        txq := x.txq ++ [{ vc := 3, stream := 8, body := .frame (.helloAck (if r = 0 then min m.cores (coreCap (code s.cfg 10)) else 0) r.toNat) }] }) })

/-- R79, R239, R249, R316, R337: a NUDGE that names this port and a ring is honoured after the port's start and counted; one that names another port or a ring beyond 7, or reaches a port whose hello is not accepted, is discarded and counted; one before the port's start does neither. A header that has been read is adopted first. An honoured nudge of a ring that is off or fenced, or stalled with no restart of its tenant under way, reads its header once more, whatever read of it is out, unless an admitted descriptor writes over it; while a fence's header is being adopted it waits for the adoption. Of a running ring that waits: with a read of the slot outstanding it makes no further read, and 4 re-fetches follow if that read finds the slot not new; without one it reads the slot. -/
def Obligations.NudgesMakeARingFetch : Prop :=
  ∀ (s : State) (p : LPort) (f : LemFrame), alive s = true → s.dev.lem[p].phase = .up → isLeafFrame f 4 2 = true →
    let d := bumpLem s.dev p 10
    let r := fin8 (byteAt f.payload 1)
    let y := ringAt s.dev p r
    (s.dev.lem[p].helloDone = false ∨ s.dev.lem[p].present = false ∨ byteAt f.payload 0 ≠ p.val ∨ 7 < byteAt f.payload 1 →
      exec (.nudge p f) s = .next { s with dev := bumpLem s.dev p 2 }) ∧
    (s.dev.lem[p].helloDone = true → s.dev.lem[p].present = true → byteAt f.payload 0 = p.val → byteAt f.payload 1 ≤ 7 →
      (s.dev.lem[p].started = false → exec (.nudge p f) s = .next s) ∧
      (s.dev.lem[p].started = true → ∀ bs, y.hdrData = some bs →
        exec (.nudge p f) s = .next { s with dev := nudgeNow s.cfg (epilogue s.cfg (takeHeader s.cfg d p r bs)) p r }) ∧
      (s.dev.lem[p].started = true → y.hdrData = none →
        (y.st = .running → y.waiting = true → readsOut s.dev p r isSlots = true →
          exec (.nudge p f) s = .next { s with dev := modR d p r fun x => { x with refetchPending := true } }) ∧
        (y.st = .running → y.waiting = true → readsOut s.dev p r isSlots = false →
          exec (.nudge p f) s = .next { s with dev := (pushTx (modR d p r fun x => { x with
            refetchPending := true, refetches := 0, retry := x.retry.filter fun w => !isSlots w }) p
            [{ vc := 0, stream := r.val, body := .read { why := .slots r y.nextFetch 1, vc := 0, addr := y.hdr.ringBase + 128 * (y.nextFetch.toNat % 2 ^ y.hdr.ringLog2), size := 128 } }]) }) ∧
        (y.st = .running → y.waiting = false → exec (.nudge p f) s = .next { s with dev := fetchMore d p r }) ∧
        (y.st ≠ .running → y.adopting ≠ none → exec (.nudge p f) s = .next { s with dev := modR d p r fun x => { x with nudged := true } }) ∧
        (y.st ≠ .running → y.adopting = none → (y.st = .stalled → s.dev.recov.restart[tenantOf s.cfg p] = .none) → headerBusy s.cfg d p r = false →
          exec (.nudge p f) s = .next { s with dev := (pushTx (modR d p r fun x => { x with
            hdrDeferred := false, retry := x.retry.filter fun w => !isHeader w }) p
            [{ vc := 0, stream := r.val, body := .read { why := .header r, vc := 0, addr := s.dev.lem[p].hello.ringTable + 64 * r.val, size := 64 } }]) })))

/-- R180, R239, R250, R251, R578: LINK_DOWN, at any moment of a link that is up, or electrical idle on lane 0, takes the link down. PORTACT falls, the port holds its transmitters in electrical idle, its cores are absent, its rings and everything else of the link are gone; READY, the configuration, sowing and the Trellis links stay as they were. A LINK_DOWN's reason is kept. -/
def Obligations.ALeafLinkGoesDown : Prop :=
  ∀ (s : State) (p : LPort) (f : LemFrame), alive s = true → s.dev.lem[p].phase = .up →
    (isLeafFrame f 7 1 = true → ∃ t, exec (.leafLinkDownFrame p f) s = .next t ∧ t.dev.lem[p].downReason = f.payload.getD 0 0 ∧
      t.dev.lem[p].phase = .idleHold ∧ t.dev.lem[p].portact = false ∧ t.dev.lem[p].started = false ∧ portPresent t.dev p = false ∧
      t.dev.lem[p].darn = Darn.init ∧ t.dev.lem[p].helloSeen = false ∧ t.cfg = s.cfg ∧ t.dev.stat.ready = s.dev.stat.ready ∧ t.dev.sow = s.dev.sow ∧
      (∀ i : TPort, trlSide t.dev.trl[i] = trlSide s.dev.trl[i]) ∧ ∀ q : LPort, q ≠ p → lemSide t.dev.lem[q] = lemSide s.dev.lem[q]) ∧
    (∃ t, exec (.lane0ElectricalIdle p) s = .next t ∧ t.dev.lem[p].downReason = s.dev.lem[p].downReason ∧
      t.dev.lem[p].phase = .idleHold ∧ t.dev.lem[p].portact = false ∧ t.dev.lem[p].started = false ∧ portPresent t.dev p = false ∧
      t.dev.lem[p].darn = Darn.init ∧ t.dev.lem[p].helloSeen = false ∧ t.cfg = s.cfg ∧ t.dev.stat.ready = s.dev.stat.ready ∧ t.dev.sow = s.dev.sow ∧
      (∀ i : TPort, trlSide t.dev.trl[i] = trlSide s.dev.trl[i]) ∧ ∀ q : LPort, q ≠ p → lemSide t.dev.lem[q] = lemSide s.dev.lem[q])

/-- R240 to R243, R251, R310, R315: a READ_CPL that brings what an outstanding read expects next is taken: the last one ends the read, whose data then serve (a header is kept for its ring, and one kept before it is judged first; slots are kept with their indices); an earlier one adds its 224 bytes. One that answers no outstanding read, or not as it expects, is discarded and counted. A timeout retires the tag, and the end of the retirement frees it. -/
def Obligations.ReadCompletionsAreMatched : Prop :=
  ∀ (s : State) (p : LPort) (f : LemFrame), alive s = true → s.dev.lem[p].phase = .up → f.kind = 2 →
    let find := s.dev.lem[p].reads.find? fun o => o.tag == f.addr.toNat % 4096
    let ended (tag : Nat) : Dev := modP s.dev p fun x => { x with reads := x.reads.filter fun o => o.tag != tag }
    (find = none → exec (.readCpl p f) s = .next { s with dev := epilogue s.cfg (bumpLem s.dev p 2) }) ∧
    (∀ o, find = some o → cplFits o f = false → exec (.readCpl p f) s = .next { s with dev := epilogue s.cfg (bumpLem s.dev p 2) }) ∧
    (∀ o, find = some o → cplFits o f = true → f.status = 0 → f.last = false → exec (.readCpl p f) s = .next { s with dev := (epilogue s.cfg
      (modP s.dev p fun x => { x with reads := x.reads.map fun q => if q.tag = o.tag then { q with got := o.got ++ f.payload } else q })) }) ∧
    (∀ o r, find = some o → cplFits o f = true → f.status = 0 → f.last = true → o.discard = false → o.want.why = .header r →
      let keep (d : Dev) : Dev := modR d p r fun x => { x with hdrData := some (o.got ++ f.payload), retry := x.retry.filter fun w => !isHeader w }
      ((ringAt s.dev p r).hdrData = none → exec (.readCpl p f) s = .next { s with dev := epilogue s.cfg (keep (ended o.tag)) }) ∧
      ∀ bs, (ringAt s.dev p r).hdrData = some bs → exec (.readCpl p f) s =
        .next { s with dev := epilogue s.cfg (keep (epilogue s.cfg (takeHeader s.cfg (ended o.tag) p r bs))) }) ∧
    (∀ o r i n, find = some o → cplFits o f = true → f.status = 0 → f.last = true → o.discard = false → o.want.why = .slots r i n →
      exec (.readCpl p f) s = .next { s with dev := (epilogue s.cfg
        (modR (ended o.tag) p r fun x => { x with slotData := x.slotData ++ slotRun i n (o.got ++ f.payload), retry := x.retry.filter fun w => !(slotsWithin i n w) })) }) ∧
    (∀ (tag : BitVec 10) (o : ReadOut), (s.dev.lem[p].reads.find? fun o => o.tag == tag.toNat) = some o → o.discard = true → o.want.vc = 1 →
      let e := bumpLem (modP s.dev p fun x => { x with retired := x.retired ++ [tag.toNat], reads := x.reads.filter fun q => q.tag != o.tag }) p 9
      exec (.readTimeout p tag) s = .next { s with dev := epilogue s.cfg (if isSlots o.want.why then fetchMore e p (whyRing o.want.why) else e) }) ∧
    (∀ (tag : BitVec 10) (o : ReadOut) (r : RingNo), (s.dev.lem[p].reads.find? fun o => o.tag == tag.toNat) = some o → o.discard = false → o.want.vc = 0 → o.want.why = .header r →
      ∃ e, exec (.readTimeout p tag) s = .next { s with dev := epilogue s.cfg e } ∧ e.lem[p].ctr[7] = satInc64 s.dev.lem[p].ctr[7] 1 ∧
        e.lem[p].retired = s.dev.lem[p].retired ++ [tag.toNat] ∧ e.lem[p].reads = (s.dev.lem[p].reads.filter fun q => q.tag != o.tag) ∧
        (ringAt e p r).retry = ((ringAt s.dev p r).retry.filter fun w => !isHeader w) ++ [.header r] ∧ e = { s.dev with lem := e.lem } ∧
        ∀ q : LPort, q ≠ p → e.lem[q] = s.dev.lem[q]) ∧
    (∀ tag : BitVec 10, exec (.tagRetireEnd p tag) s = .next { s with dev := modP s.dev p fun x => { x with retired := x.retired.filter (· != tag.toNat) } })

/-! ## Trellis ports and sowing -/

/-- R196, R231, R270, R272, R274, R283, R298: at link up a Trellis port has Darn's start numbers, the credits of R283 on both sides, nothing queued, and its lane margins as measured; a missed bound starts training again, and a follower leaves loopback; a port not trained in time is silent; step 10 is then tried. After 20 frames an alignment block goes, with the count of blocks since link up; one that arrives with every lane's own bytes gives its count and reseeds the scramblers, any other does not. -/
def Obligations.TrellisPortsTrainAndAlign : Prop :=
  ∀ (s : State) (i : TPort), alive s = true →
    (∀ h v : List Byte, s.dev.stat.trainStarted = true → s.dev.trl[i].st = .training → s.dev.trl[i].linkUp = false → s.dev.trl[i].loopLeader = false →
      s.dev.trl[i].loopFollower = false → s.dev.stat.stop = none → ∃ D, exec (.trellisLinkUp i h v) s = .next { s with dev := tryStep10 s.cfg s.hk.dieSerial D } ∧
        (step10Due s.cfg D = false → tryStep10 s.cfg s.hk.dieSerial D = D) ∧
        D = modT s.dev i fun x => { x with
          linkUp := true, creditSel := 0, txq := [], slots := [], ptr := 0, sinceAlign := 0, alignSent := 0, alignSeen := 0, scramblerSeeded := true
          darn := { next := 0, last := 0xFFF, retries := 0, nackOut := false, ackDue := false, nackDue := false, held := [], replay := [], asked := false }
          credit := Vector.ofFn fun v => { lim := trlLimit v.val, sent := 0, ret := 0, adv := trlLimit v.val, recv := 0, freed := 0, freedSent := 0 }
          hMargin := padTo 16 h, vMargin := padTo 16 v }) ∧
    (s.dev.trl[i].st = .training → s.dev.trl[i].linkUp = false → exec (.trellisTrainingTimeout i) s = .next { s with dev := modT s.dev i fun x => { x with loopFollower := false } }) ∧
    (s.dev.stat.trainStarted = true → s.dev.trl[i].st = .training → s.dev.trl[i].linkUp = false → s.dev.trl[i].loopLeader = false →
      exec (.trellisPortSilent i) s = .next { s with dev := tryStep10 s.cfg s.hk.dieSerial (modT s.dev i fun x => { x with st := .silent, loopFollower := false }) }) ∧
    (s.dev.trl[i].linkUp = true → 20 ≤ s.dev.trl[i].sinceAlign → exec (.alignmentBlock i) s = .next { s with dev := modT s.dev i fun x => { x with
      alignSent := x.alignSent + 1, sinceAlign := 0, scramblerSeeded := true, wire := alignBytes (x.alignSent + 1)
      lanes := dealLanes 16 (alignBytes (x.alignSent + 1)) } }) ∧
    (∀ n : W16, s.dev.trl[i].linkUp = true → exec (.alignmentBlockReceive i (alignBytes n)) s =
      .next { s with dev := modT s.dev i fun x => { x with alignSeen := n, scramblerSeeded := true } }) ∧
    (∀ bytes : List Byte, s.dev.trl[i].linkUp = true → (∀ n, bytes ≠ alignBytes n) → exec (.alignmentBlockReceive i bytes) s =
      .next { s with dev := modT s.dev i fun x => { x with scramblerSeeded := false } })

/-- R225, R232, R283, R284, R296: the bytes of a frame reach a Trellis port that is up. A failed CRC leaves everything but the count of CRC errors and a NACK that falls due. With a valid CRC the acknowledgement and the credit return of one channel are used; the next frame is accepted, counted, and its credit taken and freed. The replay timer starts a replay, or takes the link down where the count would become 8. Counting on a Trellis port may mark a page cause of the leaf ports, and changes nothing else of them. -/
def Obligations.FramesReachATrellisPort : Prop :=
  ∀ (s : State) (i : TPort) (raw : List Byte) (fixes : FecFix), alive s = true → s.dev.trl[i].linkUp = true →
    let bytes := fecApply raw fixes
    let t := parseTail bytes
    let x := s.dev.trl[i]
    let undone := (t.ackValid || t.nack) && x.darn.asked && x.darn.held.any fun e => e.1 == t.ack
    let dn := (applyTail x.darn t).1
    let quiet (D : Dev) : Prop := D = { s.dev with lem := D.lem, trl := D.trl } ∧ (∀ j : TPort, j ≠ i → D.trl[j] = s.dev.trl[j]) ∧
      ∀ p : LPort, { D.lem[p] with causes := 0 } = { s.dev.lem[p] with causes := 0 }
    (crcOk bytes = false → ∃ D, exec (.trellisFrameReceive i raw fixes) s = .next { s with dev := D } ∧ quiet D ∧
      D.trl[i].darn = (if x.darn.nackOut then x.darn else { x.darn with nackOut := true, nackDue := true }) ∧ D.trl[i].ctr[4] = satInc64 x.ctr[4] 1 ∧
      D.trl[i].credit = x.credit ∧ D.trl[i].txq = x.txq) ∧
    (crcOk bytes = true → t.seqd = true → t.seq = dn.last + 1 → (applyTail x.darn t).2 = false →
      ∃ D, exec (.trellisFrameReceive i raw fixes) s = .next { s with dev := D } ∧ quiet D ∧
        D.trl[i].darn = { dn with last := t.seq, ackDue := true, nackOut := false, nackDue := false } ∧ D.trl[i].ctr[1] = satInc64 x.ctr[1] 1 ∧
        D.trl[i].ctr[5] = (if undone then x.ctr[5] - 1 else x.ctr[5]) ∧
        (∀ v : Fin 8, D.trl[i].credit[v] = (let k := if v.val = byteAt bytes 3 % 8 then { x.credit[v] with ret := bytes.getD 4 0 } else x.credit[v]
          if v.val = byteAt bytes 1 % 8 then { k with recv := k.recv + 1, freed := k.freed + 1 } else k)) ∧
        D.trl[i].txq = x.txq ∧ D.trl[i].st = x.st ∧ D.trl[i].linkUp = true) ∧
    (timerRuns x.darn = true → x.darn.retries < 7 → ∃ D, exec (.trellisReplayTimer i) s = .next { s with dev := D } ∧ quiet D ∧
      D.trl[i].darn = { x.darn with retries := x.darn.retries + 1, replay := x.darn.held, asked := false } ∧ D.trl[i].ctr[5] = satInc64 x.ctr[5] 1) ∧
    (timerRuns x.darn = true → x.darn.retries = 7 → exec (.trellisReplayTimer i) s = .next { s with dev := epilogue s.cfg (trlRetryDown s.cfg s.dev i) })

/-- R202, R206, R293, R300, R617, R705: a lane loss, or a LINK_DOWN frame, takes a Trellis link down, with reason 1 or 3: the port is down (a miswired one stays miswired), holds nothing, and has Darn's start numbers. READY and the configuration stay, and every other port's link stays up where it was up. Before FORMED, a unit in no stop enters SOW_TOPOLOGY. -/
def Obligations.ATrellisLinkGoesDown : Prop :=
  ∀ (s : State) (i : TPort) (f : TrlFrame), alive s = true → s.dev.trl[i].linkUp = true →
    let down (t : State) (reason : Byte) : Prop :=
      t.dev.trl[i].linkUp = false ∧ t.dev.trl[i].downReason = reason ∧ t.dev.trl[i].st = (if s.dev.trl[i].st = .miswired then .miswired else .down) ∧
      t.dev.trl[i].darn = Darn.init ∧ t.cfg = s.cfg ∧ t.dev.stat.ready = s.dev.stat.ready ∧ (∀ p : LPort, lemSide t.dev.lem[p] = lemSide s.dev.lem[p]) ∧
      (∀ j : TPort, j ≠ i → trlSide t.dev.trl[j] = trlSide s.dev.trl[j]) ∧
      (s.dev.sow.formed = false → s.dev.stat.stop = none → t.dev.stat.stop = some .sowTopology) ∧
      (s.dev.sow.formed = true ∨ s.dev.stat.stop ≠ none → t.dev.stat.stop = s.dev.stat.stop)
    (∃ t, exec (.trellisLaneLoss i) s = .next t ∧ down t 1) ∧
    (f.kind = 6 → trlContentOk f = true → ∃ t, exec (.trellisLinkDownFrame i f) s = .next t ∧ down t 3)

/-- R197, R199, R200, R202, R203: what each sowing frame does to a unit past its step 10 that is neither formed nor stopped, on a port that is not miswired. HELLO passes the pairing check where the sender's port faces this one, and what waited for the port to be up then goes; REFERENCE is kept and passed on once; SEED gives the position and goes on with the coordinate plus 1; CLOSE records the dimension; POSITION is checked, or kept; ROLLCALL goes on with this unit's result added; FORMED forms the unit and goes on; STOP is entered and goes on, with neither washing line driven (R125). -/
def Obligations.SowingFramesFormTheTorus : Prop :=
  ∀ (s : State) (i : TPort) (f : TrlFrame), alive s = true → s.dev.trl[i].linkUp = true → f.kind = 5 → trlContentOk f = true → trlCodesOk f = true →
    s.dev.stat.stop = none → s.dev.sow.step10 = true → s.dev.sow.formed = false → s.dev.trl[i].st ≠ .miswired →
    let m := parseSow f.payload
    let c := s.cfg
    let d := s.dev
    (m.kind = 1 → d.trl[i].hello = none →
      (m.port = facingPort i.val → exec (.sowHello i f) s = .next { s with dev :=
        (each d.trl[i].sowWait (modT d i fun x => { x with hello := some f, st := .up, sowWait := [] }) fun d g => sendControl d i g) }) ∧
      (m.port ≠ facingPort i.val → ∃ t, exec (.sowHello i f) s = .next t ∧ t.dev.trl[i].st = .miswired ∧ t.dev.stat.stop = some .sowTopology ∧ t.dev.stat.faultN = true)) ∧
    (m.kind = 2 → isOrigin c = false → d.sow.refHeld = false →
      (m.codes = uniformCodes c → exec (.reference i f) s = .next { s with dev :=
        (sowFlood (modSow d fun x => { x with refHeld := true, refSerial := m.serial, refCodes := some m.codes }) false (some i) { m with coded := isCoded c, dims := d.sow.dims }) }) ∧
      (mismatchMask c m.codes ≠ 0 → ∃ t, exec (.reference i f) s = .next t ∧ t.dev.stat.stop = some .cfgChainMismatch ∧ t.dev.stat.stopMask = mismatchMask c m.codes ∧
        t.dev.stat.stopRef = some m.codes ∧ t.dev.stat.faultN = true)) ∧
    (m.kind = 2 → d.sow.refHeld = true → isOrigin c = false → m.serial ≠ d.sow.refSerial → ∃ t, exec (.reference i f) s = .next t ∧ t.dev.stat.stop = some .sowMultiOrigin) ∧
    (m.kind = 3 → m.serial ≠ s.hk.dieSerial → m.pos.getD m.axis 0 < 4 → d.sow.seeded = false → isOrigin c = false → isCoded c = false →
      ∃ e, exec (.seed i f) s = .next { s with dev := (sowSend e (fin6 (2 * m.axis)) { m with
            coded := false, dims := e.sow.dims
            pos := posBytes (setCoord ⟨m.pos.getD 0 0, m.pos.getD 1 0, m.pos.getD 2 0⟩ m.axis (m.pos.getD m.axis 0 + 1)) }) } ∧
        e.sow.pos = ⟨m.pos.getD 0 0, m.pos.getD 1 0, m.pos.getD 2 0⟩ ∧ e.sow.posKnown = true ∧ e.sow.seeded = true ∧ e = { d with sow := e.sow }) ∧
    (m.kind = 3 → m.serial ≠ s.hk.dieSerial → m.pos.getD m.axis 0 = 4 → ∃ t, exec (.seed i f) s = .next t ∧ t.dev.stat.stop = some .sowShape ∧ t.dev.stat.stopMask = 4) ∧
    (m.kind = 4 → m.serial ≠ s.hk.dieSerial → code c 2 = 15 → exec (.close i f) s = .next { s with dev := (nextLap c s.hk.dieSerial 4
      (sowSend (modSow d fun x => { x with dims := setDim x.dims m.axis (dimOf m.dims m.axis) }) (fin6 (2 * m.axis)) { m with coded := isCoded c, dims := setDim d.sow.dims m.axis (dimOf m.dims m.axis) }) (m.axis + 1)) }) ∧
    (m.kind = 5 → d.sow.posSent = false → exec (.position i f) s = .next { s with dev := modSow d fun x => { x with held := x.held ++ [(i.val, f)] } }) ∧
    (m.kind = 5 → d.sow.posSent = true → m.dims ≠ d.sow.dims → ∃ t, exec (.position i f) s = .next t ∧ t.dev.stat.stop = some .sowShape ∧ t.dev.stat.stopMask = 0) ∧
    (∀ r : Nat, m.kind = 6 → (d.sow.posKnown && d.sow.checkPassed && coordOf d.sow.pos m.axis == 0) = false → d.sow.rollReady.lookup m.axis = some r →
      exec (.rollcall i f) s = .next { s with dev := sowSend d (fin6 (2 * m.axis)) { sowBase c d 6 with axis := m.axis, roll := (m.roll + r) % 65536 } }) ∧
    (m.kind = 7 → ∃ t, exec (.formed i f) s = .next t ∧ t.dev.sow = { d.sow with formed := true } ∧ t.dev.line = { d.line with
        assertA := decide (c.codes[9].toNat ≤ 3), assertB := decide (c.codes[9].toNat ≤ 3), n := 0, ready := true, released := false } ∧
        ∀ j : TPort, dimOf d.sow.dims (j.val / 2) = 1 → t.dev.trl[j].st = .unused ∧ t.dev.trl[j].linkUp = false) ∧
    (∀ z, m.kind = 8 → stopOfNat m.stop = some z → ∃ t, exec (.stop i f) s = .next t ∧ t.dev.stat.stop = some z ∧ t.dev.stat.faultN = true ∧
      t.dev.stat.stopPort = BitVec.ofNat 8 m.port ∧ t.dev.stat.stopRef = some m.codes ∧
      t.dev.stat.stopMask = (if z = .cfgChainMismatch then mismatchMask c m.codes else 0) ∧ t.dev.sow = d.sow ∧ t.dev.line.assertA = false ∧ t.dev.line.assertB = false)

/-- R200: each unit processes a sowing frame only after its own step 10; one that comes earlier is held, in arrival order. R202 to R205: at its deadline the ORIGIN unit that is not formed enters SOW_INCOMPLETE; so does another unit that holds a REFERENCE; one that holds none enters CFG_CHAIN_MISMATCH where a HELLO carried other codes, with the reference that it compares against, and else SOW_NO_ORIGIN. Each asserts FAULT_N and keeps what the unit has learnt. -/
def Obligations.SowingWaitsForStep10AndEndsAtItsDeadlines : Prop :=
  (∀ (s : State) (i : TPort) (f : TrlFrame), alive s = true → s.dev.trl[i].linkUp = true → f.kind = 5 → trlContentOk f = true → trlCodesOk f = true →
    s.dev.stat.stop = none → s.dev.sow.step10 = false → ∀ c : Instr,
      ((c = .sowHello i f ∧ byteAt f.payload 0 = 1) ∨ (c = .reference i f ∧ byteAt f.payload 0 = 2) ∨ (c = .seed i f ∧ byteAt f.payload 0 = 3) ∨
       (c = .close i f ∧ byteAt f.payload 0 = 4) ∨ (c = .position i f ∧ byteAt f.payload 0 = 5) ∨ (c = .rollcall i f ∧ byteAt f.payload 0 = 6) ∨
       (c = .formed i f ∧ byteAt f.payload 0 = 7) ∨ (c = .stop i f ∧ byteAt f.payload 0 = 8)) →
      exec c s = .next { s with dev := { s.dev with sow := { s.dev.sow with held := s.dev.sow.held ++ [(i.val, f)] } } }) ∧
  (∀ s : State, alive s = true → s.dev.sow.step10 = true → s.dev.sow.formed = false → s.dev.stat.stop = none →
    (isOrigin s.cfg = true → ∃ t, exec .sowOriginDeadline s = .next t ∧ t.dev.stat.stop = some .sowIncomplete ∧ t.dev.stat.faultN = true ∧ t.dev.stat.stopMask = 0 ∧ t.dev.sow = s.dev.sow) ∧
    (isOrigin s.cfg = false → s.dev.sow.refHeld = true → ∃ t, exec .sowFormedDeadline s = .next t ∧ t.dev.stat.stop = some .sowIncomplete ∧ t.dev.stat.faultN = true ∧ t.dev.stat.stopMask = 0 ∧
      t.dev.sow = s.dev.sow) ∧
    (isOrigin s.cfg = false → s.dev.sow.refHeld = false → ∃ t, exec .sowReferenceDeadline s = .next t ∧ t.dev.stat.faultN = true ∧ t.dev.sow = s.dev.sow ∧
      (if (hellos s.dev).any (fun m => m.codes != uniformCodes s.cfg) = true
        then t.dev.stat.stop = some .cfgChainMismatch ∧ t.dev.stat.stopRef = some (compareCodes s.cfg s.dev) ∧ t.dev.stat.stopMask = mismatchMask s.cfg (compareCodes s.cfg s.dev)
        else t.dev.stat.stop = some .sowNoOrigin ∧ t.dev.stat.stopMask = 0)))

/-! ## What a port sends -/

/-- R227, R228, R231 to R235, R709: in its turn a leaf port that is up, with no chunk signal next in a stream, sends one frame: the first that a replay has still to send; else, where fewer than 1,024 are held, the one its arbiter picks, which takes the next number, is held and spends a credit; else IDLE. Whichever goes carries the acknowledgement of the last accepted frame, a NACK that is due, and the credit returns, and byte i of it leaves on lane i mod w (R221). The outputs of a ring whose instance is frozen are held back (R632). A port that is not up sends nothing. -/
def Obligations.ALeafPortSendsOneFrame : Prop :=
  ∀ (c : Cfg) (d : Dev) (p : LPort), (d.lem[p].phase ≠ .up → tickLem c d p = d) ∧
    (d.lem[p].phase = .up → (∀ it ∈ d.lem[p].txq, ∀ m, it.body ≠ .signal m) →
      let x := d.lem[p]
      let returns := x.credit.toList.map fun k => k.freed.toNat
      let held := heldStream c d p
      let out (seq : Option (BitVec 12)) (body : List Byte) : LemPort := { x with
        wire := withTail body seq x.darn.last x.darn.nackDue
        lanes := dealLanes (if x.mode = 3 then 4 else 8) (withTail body seq x.darn.last x.darn.nackDue)
        darn := { x.darn with ackDue := false, nackDue := false }
        credit := x.credit.map fun k => { k with freedSent := k.freed } }
      (∀ n f rest, x.darn.replay = (n, f) :: rest → tickLem c d p = modP d p fun _ => { out (some n) (lemBody p f returns) with
        darn := { x.darn with ackDue := false, nackDue := false, replay := rest, asked := false } }) ∧
      (x.darn.replay = [] → (1024 ≤ x.darn.held.length ∨ pickLem held x = none) →
        tickLem c d p = modP d p fun _ => out none (zeros 12 ++ returns.map (BitVec.ofNat 8))) ∧
      (∀ (v : Fin 4) (it : TxItem) (g : LemTx), x.darn.replay = [] → x.darn.held.length < 1024 → pickLem held x = some (v, it) → it.body = .frame g →
        (∀ a b, g ≠ .helloAck a b) → tickLem c d p = bumpLem (modP d p fun _ => { out (some x.darn.next) (lemBody p g returns) with
          darn := { x.darn with next := x.darn.next + 1, held := x.darn.held ++ [(x.darn.next, g)], ackDue := false, nackDue := false }
          txq := x.txq.erase it
          credit := (out none []).credit.set v { (out none []).credit[v] with sent := (out none []).credit[v].sent + 1 }
          turn := if it.stream < 8 then x.turn.set v (fin8 (it.stream + 1)) else x.turn
          sinceVc1 := if v.val ≠ 1 ∧ (creditLeft x.credit[(1 : Fin 4)] && (pickIn held x 1).isSome) = true then x.sinceVc1 + 1 else 0 }) p 0))

/-- R272, R276, R283, R284, R298: in its turn a Trellis port that is up sends the first frame that a replay has still to send, or, where none is and nothing waits, IDLE. Whichever goes carries the acknowledgement of the last accepted frame, a NACK that is due, and the credit return of one channel, in turn. It sends nothing where an alignment block is due, or its link is down. -/
def Obligations.ATrellisPortSendsOneFrame : Prop :=
  ∀ (d : Dev) (i : TPort), d.trl[i].loopLeader = false →
    (d.trl[i].linkUp = false ∨ 20 ≤ d.trl[i].sinceAlign → tickTrl d i = d) ∧
    (d.trl[i].linkUp = true → d.trl[i].sinceAlign < 20 →
      let x := d.trl[i]
      let v := fin8 x.creditSel
      let out (seq : Option (BitVec 12)) (body : Nat → Nat → List Byte) : TrlPort := { x with
        wire := withTail (body x.creditSel x.credit[v].freed.toNat) seq x.darn.last x.darn.nackDue
        lanes := trlLanes x.sinceAlign (withTail (body x.creditSel x.credit[v].freed.toNat) seq x.darn.last x.darn.nackDue)
        darn := { x.darn with ackDue := false, nackDue := false }
        credit := x.credit.set v { x.credit[v] with freedSent := x.credit[v].freed }
        creditSel := (x.creditSel + 1) % 8
        sinceAlign := x.sinceAlign + 1 }
      (∀ n f rest, x.darn.replay = (n, f) :: rest → tickTrl d i = modT d i fun _ => { out (some n) (trlBody f) with
        darn := { x.darn with ackDue := false, nackDue := false, replay := rest, asked := false } }) ∧
      (x.darn.replay = [] → x.txq = [] → tickTrl d i = modT d i fun _ => { out none (trlIdle (ownAddr d)) with slots := x.slots.filter fun e => moreOn d i e.2.1 e.2.2 }))

/-! ## Work rings -/

/-- R308, R310, R333, R356: a header that has been read is judged: a ring that is off adopts a valid one, and takes its start index as the next index to fetch, to take and to record; the consumed word goes at once. An invalid one leaves the ring off, marked, with its page cause pending. A fenced ring keeps its state while the epoch is the old one; another epoch ends its fence, whose record goes before the header is adopted. A running ring ignores a header. -/
def Obligations.HeadersAreAdopted : Prop :=
  ∀ (s : State) (p : LPort) (r : RingNo) (bs : List Byte), alive s = true → (ringAt s.dev p r).hdrData = some bs →
    let x := ringAt s.dev p r
    let h := parseHdr bs
    (x.st = .running → exec (.headerRead p r) s = .next { s with dev := epilogue s.cfg (modR s.dev p r fun x => { x with hdrData := none }) }) ∧
    (x.st = .off → x.adopting = none → x.fenceOpen = false → hdrValid s.dev.lem[p].hello h = true → h.ringLog2 ≠ 0 →
      ∃ E pre, exec (.headerRead p r) s = .next { s with dev := epilogue s.cfg (judgeAll s.cfg (fetchMore E p r)) } ∧
        ringAt E p r = { x with
          hdr := h, hdrInvalid := false, hdrData := none, st := .running, nextFetch := h.startIndex, intake := h.startIndex, recorded := h.startIndex
          queue := [], head := none, slotData := [], waiting := false, refetches := 0, refetchPending := false, retry := [], hdrDeferred := false } ∧
        E.lem[p].txq = pre ++ writeItems 2 r.val h.consumedAddr (consumedWord h.startIndex h.epoch) ∧ E = { s.dev with lem := E.lem } ∧
        ∀ q : LPort, q ≠ p → E.lem[q] = s.dev.lem[q]) ∧
    (x.st = .off → x.adopting = none → x.fenceOpen = false → hdrValid s.dev.lem[p].hello h = false → s.dev.lem[p].started = true →
      ∃ E, exec (.headerRead p r) s = .next { s with dev := epilogue s.cfg E } ∧ (ringAt E p r).st = .off ∧ (ringAt E p r).hdrInvalid = true ∧ (ringAt E p r).queue = [] ∧
        E.lem[p].causes = s.dev.lem[p].causes ||| 8) ∧
    (x.st = .fenced → x.adopting = none → h.epoch ≠ x.hdr.epoch → x.fenceOpen = true →
      exec (.headerRead p r) s = .next { s with dev := epilogue s.cfg (modRun (modR s.dev p r fun x => { x with
        hdrData := none, hdrInvalid := !(hdrValid s.dev.lem[p].hello h), fenceOpen := false, adopting := some bs }) p r fun y => { y with finished := true }) }) ∧
    (x.st = .fenced → x.adopting = none → h.epoch = x.hdr.epoch →
      exec (.headerRead p r) s = .next { s with dev := epilogue s.cfg (modR s.dev p r fun x => { x with hdrData := none, hdrInvalid := !(hdrValid s.dev.lem[p].hello h) }) })

/-- R314, R315: slots are taken in index order. One that is new joins the prefetch queue, and fetching goes on; at one that is not new the ring waits, what was fetched behind it is dropped, and the slot is not run, recorded or reported. R311: index i of a ring of 2^k slots has slot i mod 2^k, and of two indices less than 32,768 apart one lies before the other. R312: the expected phase of i is the complement of bit k of i, and alternates from lap to lap, across the 16-bit wrap too; a zeroed ring holds no new slot on its first lap. R313: a slot is new where its phase bit equals the expected phase and its `epoch` is the ring's. -/
def Obligations.SlotsAreTakenInIndexOrder : Prop :=
  (∀ (s : State) (p : LPort) (r : RingNo) (bs : List Byte), alive s = true → (ringAt s.dev p r).slotData = [((ringAt s.dev p r).intake, bs)] →
    let x := ringAt s.dev p r
    (slotNew x.hdr x.intake bs = true → x.waiting = false → exec (.descriptorFetch p r) s = .next { s with dev := (epilogue s.cfg (fetchMore (modR s.dev p r fun x => { x with
      slotData := [], queue := x.queue ++ [{ index := x.intake, bytes := bs }], intake := x.intake + 1 }) p r)) }) ∧
    (slotNew x.hdr x.intake bs = true → x.waiting = true → x.nextFetch = x.intake → exec (.descriptorFetch p r) s = .next { s with dev := (epilogue s.cfg (fetchMore (modR s.dev p r fun x => { x with
      slotData := [], queue := x.queue ++ [{ index := x.intake, bytes := bs }], intake := x.intake + 1
      nextFetch := x.intake + 1, waiting := false, refetches := 0, refetchPending := false }) p r)) }) ∧
    (slotNew x.hdr x.intake bs = false → exec (.descriptorFetch p r) s = .next { s with dev := (epilogue s.cfg (fetchMore (modR (dropReads s.dev p r isSlots) p r fun x => { x with
      slotData := [], waiting := true, nextFetch := x.intake, refetches := if x.refetchPending then 4 else x.refetches, refetchPending := false
      retry := x.retry.filter fun w => !isSlots w }) p r)) })) ∧
  (∀ (h : RingHdr) (i : W16) (bs : List Byte), h.ringLog2 ≤ 15 →
    slotOf h i < 2 ^ h.ringLog2 ∧ slotOf h i = i.toNat % 2 ^ h.ringLog2 ∧ expectedPhase h i = 1 - i.toNat / 2 ^ h.ringLog2 % 2 ∧
    slotOf h (i + BitVec.ofNat 16 (2 ^ h.ringLog2)) = slotOf h i ∧ expectedPhase h (i + BitVec.ofNat 16 (2 ^ h.ringLog2)) = 1 - expectedPhase h i ∧
    (slotNew h i bs = true ↔ byteAt bs 0x7F % 2 = expectedPhase h i ∧ leNat bs 4 4 = h.epoch.toNat) ∧
    (i.toNat < 2 ^ h.ringLog2 → slotNew h i (zeros 128) = false) ∧
    (∀ k : Nat, 1 ≤ k → k ≤ 32767 → indexBefore i (i + BitVec.ofNat 16 k) = true ∧ indexBefore (i + BitVec.ofNat 16 k) i = false) ∧ indexBefore i i = false)

/-- R316, R317, R319, R337: the poll of a waiting ring reads its slot once, unless such a read is out; the poll of a fenced ring reads its header; a ring whose poll code is 0 does not poll. A re-fetch after a nudge reads the slot and leaves one fewer. A retry reads again what was left unread: a header, or the slot of a ring that waits. -/
def Obligations.RingTimersRead : Prop :=
  ∀ (s : State) (p : LPort) (r : RingNo), alive s = true →
    let x := ringAt s.dev p r
    let slot : TxItem := { vc := 0, stream := r.val, body := .read { why := .slots r x.nextFetch 1, vc := 0, addr := x.hdr.ringBase + 128 * slotOf x.hdr x.nextFetch, size := 128 } }
    (x.hdr.pollCode = 0 → exec (.pollTimer p r) s = .next s) ∧
    (x.hdr.pollCode ≠ 0 → x.st = .running → x.waiting = true → readsOut s.dev p r isSlots = false → exec (.pollTimer p r) s = .next { s with dev :=
      (pushTx (modR s.dev p r fun x => { x with retry := x.retry.filter fun w => !isSlots w }) p [slot]) }) ∧
    (x.hdr.pollCode ≠ 0 → x.st = .fenced → x.adopting = none → exec (.pollTimer p r) s = .next { s with dev := readHeader s.cfg s.dev p r }) ∧
    (x.st = .running → x.waiting = true → 0 < x.refetches → readsOut s.dev p r isSlots = false → exec (.refetchTimer p r) s = .next { s with dev :=
      (pushTx (modR s.dev p r fun x => { x with refetches := x.refetches - 1, retry := x.retry.filter fun w => !isSlots w }) p [slot]) }) ∧
    (x.retry = [.header r] → headerOpen s.cfg s.dev p r = true → readsOut s.dev p r isHeader = false → x.hdrData = none → headerBusy s.cfg s.dev p r = false → exec (.readRetryTimer p r) s = .next { s with dev :=
      (pushTx (modR s.dev p r fun x => { x with retry := [], hdrDeferred := false }) p
        [{ vc := 0, stream := r.val, body := .read { why := .header r, vc := 0, addr := s.dev.lem[p].hello.ringTable + 64 * r.val, size := 64 } }]) }) ∧
    (∀ i n, x.retry = [.slots r i n] → x.st = .running → x.waiting = true → readsOut s.dev p r isSlots = false → exec (.readRetryTimer p r) s = .next { s with dev :=
      (pushTx (modR s.dev p r fun x => { x with retry := [] }) p [slot]) })

/-- R321, R322, R323, R385, R387: a head whose last dependency is satisfied is ready, or reads its recipe first; one whose wait watchdog expires with a dependency unsatisfied is admitted with WAIT_TIMEOUT, finished, and is counted for its tenant and the unit; satisfaction in the same cycle prevails. -/
def Obligations.DependenciesHoldBackTheHead : Prop :=
  ∀ (s : State) (p : LPort) (r : RingNo), alive s = true →
    let e := judgeRing s.cfg s.dev p r
    ∀ (h : Head) (q : Slot) (rest : List Slot), (ringAt e p r).head = some h → (ringAt e p r).queue = q :: rest → h.stage = .waiting → h.status = 0 →
      (∀ k : Fin 4, h.met.all id = true → h.met.getD k.val false = true → (isColl (dKind q.bytes) = false ∨ dRecipeOps q.bytes = 0) →
        exec (.dependencySatisfied p r k) s = .next { s with dev := epilogue s.cfg (modHead e p r fun h => { h with stage := .ready }) }) ∧
      (∀ k : Fin 4, h.met.all id = true → h.met.getD k.val false = true → isColl (dKind q.bytes) = true → dRecipeOps q.bytes ≠ 0 →
        exec (.dependencySatisfied p r k) s = .next { s with dev := (epilogue s.cfg (pushTx (modHead e p r fun h => { h with stage := .recipe, recipeTries := 0 }) p
          [{ vc := 0, stream := r.val, body := .read { why := .recipe r, vc := 0, addr := dRecipeAddr q.bytes, size := 16 * dRecipeOps q.bytes } }])) }) ∧
      (h.met.all id = true → exec (.waitTimeoutExpiry p r) s = .next { s with dev := epilogue s.cfg e }) ∧
      (h.met.all id = false → ∃ D x, exec (.waitTimeoutExpiry p r) s = .next { s with dev := epilogue s.cfg D } ∧ (ringAt D p r).cur = some x ∧ (ringAt D p r).head = none ∧
        x.status = 0x10 ∧ x.finished = true ∧ x.desc = q.bytes ∧ x.index = q.index ∧ D.stat.health[5] = satInc64 e.stat.health[5] 1 ∧
        D.stat.tctr[tenantOf s.cfg p][5] = satInc64 e.stat.tctr[tenantOf s.cfg p][5] 1)

/-! ## Descriptors -/

/-- R321, R359, R396, R525, R526, R422: a ready head is admitted: it leaves the prefetch queue and runs, numbered in the order of admissions. A NOP is then ready for its record. A collective asks for the hold of its inputs, which is granted at once where no earlier hold waits and it fits its quota, and else waits in order; a RESIDENT_ACCUM that clears first waits for its clear on a unit that receives (R517); and the descriptor is placed. `aux` names its M from admission on (R377). -/
def Obligations.CollectivesAreAdmitted : Prop :=
  ∀ (s : State) (p : LPort) (r : RingNo) (h : Head) (q : Slot) (rest : List Slot), alive s = true →
    (ringAt s.dev p r).head = some h → (ringAt s.dev p r).queue = q :: rest → h.stage = .ready → h.status = 0 →
    let t := tenantOf s.cfg p
    let n := holdStripesOf s.dev p q.bytes (headKnown s.cfg s.dev p q.bytes h)
    let store := s.dev.store
    let now : Prop := (∀ w ∈ store.wait[t], reqIsHold w = false) ∧ store.held[t] + n ≤ holdQuota s.cfg t
    let admitted (D : Dev) (y : Run) : Prop := (ringAt D p r).cur = some y ∧ (ringAt D p r).head = none ∧ (ringAt D p r).queue = rest ∧
      y.desc = q.bytes ∧ y.index = q.index ∧ y.status = 0 ∧ y.warnings = h.warnings ∧ y.no = s.dev.coll.admitted ∧
      D.coll = { s.dev.coll with admitted := s.dev.coll.admitted + 1 } ∧ D.trl = s.dev.trl ∧ D.pegs = s.dev.pegs
    let collective (D : Dev) (y : Run) : Prop := admitted D y ∧ y.finished = false ∧ y.joined = false ∧ y.holdStripes = n ∧ y.aux = y.named.length ∧ y.named = namedMembers s.cfg s.dev t (groupOf q.bytes (h.list.getD []) (ownAddr s.dev)) ∧
      (now → y.holdOk = true ∧ D.store = { store with held := store.held.set t (store.held[t] + n) }) ∧
      (¬now → y.holdOk = false ∧ D.store = { store with wait := store.wait.set t (store.wait[t] ++ [.hold p r n]) }) ∧
      (y.clearing = true ↔ dKind q.bytes = 4 ∧ dClear q.bytes = true ∧ (dOp q.bytes ≠ 1 ∨ dRoot q.bytes / 128 = ownAddr s.dev))
    (dKind q.bytes = 0 → ∃ D y, exec (.nop p r) s = .next { s with dev := epilogue s.cfg D } ∧ admitted D y ∧ y.finished = true ∧ y.aux = 0 ∧ D.store = store) ∧
    (∀ e ∈ [(Instr.broadcast p r, 1, 0), (.reduceToOne p r, 1, 1), (.allReduce p r, 1, 2), (.reduceScatter p r, 1, 3), (.allGather p r, 1, 4),
        (.exchangeEqualSizes p r, 2, 0), (.exchangeUnequalSizes p r, 2, 1)], dKind q.bytes = e.2.1 → dOp q.bytes = e.2.2 →
      ∃ D y, exec e.1 s = .next { s with dev := epilogue s.cfg (placeColl s.cfg D p r y) } ∧ collective D y) ∧
    (dKind q.bytes = 4 → ∃ D y, exec (.residentAccum p r) s = .next { s with dev := epilogue s.cfg (placeColl s.cfg D p r y) } ∧ collective D y)

/-- R396, R397, R400, R623: where an instance of its key is open, a collective descriptor whose members it does not yet cover joins it, and the instance goes on; one that disagrees aborts it with GROUP_MISMATCH, and one by which a unit's stream becomes too long (R408) with DESC_INVALID; one that joins an instance that opened aborted ends with the abort's status; one whose members are already covered is held. With no instance open, one opens with the next number, by that descriptor, aborted where an abort of that number has come first. -/
def Obligations.CollectivesJoinTheirInstance : Prop :=
  ∀ (c : Cfg) (d : Dev) (p : LPort) (r : RingNo) (y : Run),
    let t := tenantOf c p
    let k := dColl y.desc
    (∀ x, instAt d t k = some x → x.covered &&& mineMask p y.desc ≠ 0 → placeColl c d p r y = d) ∧
    (∀ x, instAt d t k = some x → x.covered &&& mineMask p y.desc = 0 → x.aborted = none →
      ∃ D, (ringAt D p r).cur = (ringAt d p r).cur.map (fun z => { z with joined := true }) ∧ D.trl = d.trl ∧
        instAt D t k = some { x with covered := x.covered ||| mineMask p y.desc, runs := x.runs ++ [(p, r)] } ∧
        placeColl c d p r y = if agreeOf y.desc ≠ x.agree ∨ (dGrp y.desc = 2 ∧ y.list ≠ x.list) then abortInst (pumpInst c D t k) t k 9
          else if (instAt D t k).any (streamTooLong D) = true then abortInst (pumpInst c D t k) t k 1 else pumpInst c D t k) ∧
    (∀ x st, instAt d t k = some x → x.covered &&& mineMask p y.desc = 0 → x.aborted = some st →
      ∃ D, (ringAt D p r).cur = (ringAt d p r).cur.map (fun z => { z with joined := true, status := st, finished := true }) ∧ D.trl = d.trl ∧
        instAt D t k = some { x with covered := x.covered ||| mineMask p y.desc } ∧ placeColl c d p r y = closeAborted (pumpInst c D t k) t k) ∧
    (instAt d t k = none → (∀ e ∈ d.coll.states, ¬(e.1 = t ∧ e.2.1 = k)) → ∀ agree list base,
      let D := openInst c d t k agree list base false
      ∃ x, instAt D t k = some x ∧ x.num = nextNum d t k ∧ x.agree = agree ∧ x.list = list ∧ x.base = base ∧ x.runs = [] ∧ x.covered = 0 ∧ x.committed = false ∧ x.frozen = false ∧
        x.byReceipt = false ∧ nextNum D t k = nextNum d t k + 1 ∧ D.coll.insts = d.coll.insts ++ [x] ∧ D.lem = d.lem ∧ D.trl = d.trl ∧
        (x.aborted.isSome ↔ ∃ e ∈ d.coll.preAborts, e.1 = t ∧ e.2.1 = k ∧ e.2.2.1 = nextNum d t k))

/-- R547, R542, R546, R377, R375, R367, R622: the entries of a PEG_OP are applied in their order, one by one, those with `pop` 0 being passed over. An entry on a Pocket peg of the port writes it at once; one on a pool peg homed here writes it, or, where it is a tally operation and the peg's word has an uncorrectable error, ends the descriptor with CHECK_ERROR (R583); one homed on another unit goes there as an OP with the next request number, and no later entry is issued until its DONE, which the wait watchdog bounds even where no route leads there; on an isolated unit such an entry ends the descriptor with UNREACHABLE. After each of this unit's own entries `aux` is the peg's value, its low bit where the peg was set or cleared; after the last entry the descriptor is ready for its record. -/
def Obligations.PegEntriesApply : Prop :=
  ∀ (s : State) (p : LPort) (r : RingNo) (x : Run) (pop : Nat) (c : Instr), alive s = true → (pop, c) ∈ [(1, Instr.pegSet p r), (2, .pegClear p r), (3, .tallyAdd p r), (4, .tallyTake p r)] →
    (ringAt s.dev p r).cur = some x → dKind x.desc = 6 → x.waitReq = none → x.finished = false →
    let k := skipNone x.desc 4 x.entry
    let e := dEntry x.desc k
    let last : Bool := decide (4 ≤ skipNone x.desc 4 (k + 1))
    let amount := BitVec.ofNat 16 (eAmount e)
    let home := if eHere e then ownAddr s.dev else liveHome s.dev (eHome e)
    (4 ≤ k → ∃ D, exec c s = .next { s with dev := epilogue s.cfg D } ∧ (ringAt D p r).cur = some { x with finished := true }) ∧
    (k < 4 → ePop e = pop → eSpace e = 1 →
      let key := pocketKey (ePeg e / 256 % 16) (ePeg e % 64)
      let v := (pegApply pop (spRead s.dev.lem[p].pocket key) amount).1
      ∃ D y, exec c s = .next { s with dev := epilogue s.cfg D } ∧ (ringAt D p r).cur = some y ∧ y.entry = k + 1 ∧ y.finished = last ∧ y.status = x.status ∧
        y.aux = (if pop ≤ 2 then min v.toNat 1 else v.toNat) ∧ D.lem[p].pocket = spWrite s.dev.lem[p].pocket key v ∧ D.pegs = s.dev.pegs ∧
        ((pegApply pop (spRead s.dev.lem[p].pocket key) amount).2 = 0 → y.exception = x.exception ∧ y.excAt = x.excAt)) ∧
    (k < 4 → ePop e = pop → eSpace e ≠ 1 → ∀ peg, physPeg s.cfg (tenantOf s.cfg p) (ringAt s.dev p r).hdr.windowBase (ePeg e % 4096) = some peg →
      (home = ownAddr s.dev → peg ∈ s.dev.pegs.bad → 3 ≤ pop →
        ∃ D, exec c s = .next { s with dev := epilogue s.cfg D } ∧ (ringAt D p r).cur = some { x with status := 0x22, finished := true } ∧ D.pegs = s.dev.pegs) ∧
      (home = ownAddr s.dev → peg ∉ s.dev.pegs.bad ∨ pop ≤ 2 →
        let v := (pegApply pop (poolPeg s.dev peg) amount).1
        ∃ D y, exec c s = .next { s with dev := epilogue s.cfg D } ∧ (ringAt D p r).cur = some y ∧ y.entry = k + 1 ∧ y.finished = last ∧ y.status = x.status ∧
          y.aux = (if pop ≤ 2 then min v.toNat 1 else v.toNat) ∧ D.pegs.pool = spWrite s.dev.pegs.pool peg v) ∧
      (home ≠ ownAddr s.dev → s.dev.recov.isolated = false →
        ∃ D, exec c s = .next { s with dev := epilogue s.cfg (sendPeg D (tenantOf s.cfg p) home 1 pop peg amount.toNat s.dev.pegs.nextReq.toNat 0 []) } ∧
          (ringAt D p r).cur = some { x with waitReq := some s.dev.pegs.nextReq } ∧ D.pegs = { s.dev.pegs with nextReq := s.dev.pegs.nextReq + 1 } ∧ D.trl = s.dev.trl) ∧
      (home ≠ ownAddr s.dev → s.dev.recov.isolated = true →
        ∃ D, exec c s = .next { s with dev := epilogue s.cfg D } ∧ (ringAt D p r).cur = some { x with status := 0x28, finished := true } ∧ D.pegs = s.dev.pegs))

/-- R483, R364, R482: a YARD_LOAD for whose block no directory entry is left ends with OUT_OF_SHARE at its admission (log 103); that of any other removes every block that its range overlaps, then brings the source into the yard: from the leaf by reads, from the Spool at once where every word is good. Once it is there the block is registered under the lowest port of the tenant with a free entry, and the record's `aux` is the bytes loaded. R366, R515, R517, R449: a RESIDENT_FLUSH of a region whose words are all good writes every element, rounded to `out_fmt`, and clears the region where it says so; `aux` is the number of elements. What waited on the port before stays, but for header reads that the output ranges defer (R334). -/
def Obligations.YardLoadsRegisterAndFlushesWrite : Prop :=
  (∀ (s : State) (p : LPort) (r : RingNo), alive s = true →
    let t := tenantOf s.cfg p
    (∀ (h : Head) (q : Slot) (rest : List Slot), (ringAt s.dev p r).head = some h → (ringAt s.dev p r).queue = q :: rest → h.stage = .ready → h.status = 0 → dKind q.bytes = 3 →
      entriesLeft s.cfg s.dev t p r q.bytes = 0 →
      ∃ D y, exec (.yardLoad p r) s = .next { s with dev := epilogue s.cfg D } ∧ (ringAt D p r).cur = some y ∧ (ringAt D p r).head = none ∧ (ringAt D p r).queue = rest ∧ y.desc = q.bytes ∧
        y.status = 4 ∧ y.finished = true ∧ D.store = s.dev.store) ∧
    (∀ (h : Head) (q : Slot) (rest : List Slot), (ringAt s.dev p r).head = some h → (ringAt s.dev p r).queue = q :: rest → h.stage = .ready → h.status = 0 → dKind q.bytes = 3 →
      entriesLeft s.cfg s.dev t p r q.bytes ≠ 0 →
      ∃ D y, exec (.yardLoad p r) s = .next { s with dev := epilogue s.cfg D } ∧ (ringAt D p r).cur = some y ∧ (ringAt D p r).head = none ∧ (ringAt D p r).queue = rest ∧ y.desc = q.bytes ∧
        (∀ b, b ∈ D.store.dir ↔ b ∈ s.dev.store.dir ∧ ¬(b.tenant = t ∧ overlaps b.addr (b.k * b.n * codeBytes b.wFmt) (leNat q.bytes 0x30 4) (loadBytes q.bytes) = true)) ∧
        (bitOf (byteAt q.bytes 0x29) 0 = false → y.yardStage = 1 ∧ y.finished = false ∧ y.readsLeft = (readPieces (leNat q.bytes 0x38 8) (loadBytes q.bytes)).length ∧ D.store.yard = s.dev.store.yard) ∧
        (bitOf (byteAt q.bytes 0x29) 0 = true → (∀ w ∈ spoolWords s.cfg t (leNat q.bytes 0x38 8) (loadBytes q.bytes), wordGood s.dev w = true) →
          y.yardStage = 1 ∧ y.finished = false ∧ y.readsLeft = 0 ∧
          D.store.yard = (writeYard s.cfg s.dev t (leNat q.bytes 0x30 4) (spoolBytes s.cfg s.dev t (leNat q.bytes 0x38 8) (loadBytes q.bytes))).store.yard)) ∧
    (∀ x, (ringAt s.dev p r).cur = some x → dKind x.desc = 3 → x.yardStage = 1 → x.readsLeft = 0 → x.finished = false →
      ∃ D, exec (.yardBlockRegister p r) s = .next { s with dev := D } ∧ (ringAt D p r).cur = some { x with yardStage := 2, finished := true, aux := loadBytes x.desc } ∧
        D = { s.dev with lem := D.lem, store := { s.dev.store with dir := D.store.dir } } ∧
        (∀ l, l = s.dev.store.dir.filter (fun b => !(b.tenant == t && overlaps b.addr (blockBytes b) (leNat x.desc 0x30 4) (loadBytes x.desc))) →
          ∀ g, (portsOf s.cfg t).find? (fun g => decide ((l.filter fun b => b.port == g).length < 128)) = some g → D.store.dir = l ++ [blockOf t g x.desc]))) ∧
  (∀ (s : State) (p : LPort) (r : RingNo) (h : Head) (q : Slot) (rest : List Slot), alive s = true →
    (ringAt s.dev p r).head = some h → (ringAt s.dev p r).queue = q :: rest → h.stage = .ready → h.status = 0 → dKind q.bytes = 5 →
    flushBad s.cfg s.dev (tenantOf s.cfg p) q.bytes = [] →
    let t := tenantOf s.cfg p
    ∃ D y pre, exec (.residentFlush p r) s = .next { s with dev := epilogue s.cfg D } ∧ (ringAt D p r).cur = some y ∧ (ringAt D p r).head = none ∧ (ringAt D p r).queue = rest ∧
      y.desc = q.bytes ∧ y.finished = true ∧ y.status = 0 ∧ y.aux = dCount q.bytes ∧ y.spoolPending = dClear q.bytes ∧
      D.lem[p].txq = pre ++ outItems r (leNat q.bytes 0x40 8) (codeBytes (dOut q.bytes)) (leNat q.bytes 0x40 8) ((List.range (dCount q.bytes)).flatMap fun i => flushElem s.cfg s.dev t q.bytes i) ∧
      (∀ it ∈ s.dev.lem[p].txq, itemReads isHeader it = false → it ∈ pre) ∧
      (∀ it ∈ pre, it ∈ s.dev.lem[p].txq ∨ itemReads isSlots it = true) ∧
      D.store = if dClear q.bytes then (clearSpool s.cfg s.dev t (dSpoolAddr q.bytes) (regionBytes q.bytes)).store else s.dev.store)

/-- R557, R563, R333: an admitted BARRIER names its M in `aux`; on the line with a group that is not the participants it ends with GROUP_MISMATCH, else it is placed in its unit's arrival. An admitted EPOCH_FENCE makes its ring fenced and reads the ring's header, unless such a read is under way or an admitted descriptor writes over it (R334). -/
def Obligations.BarriersAndFencesAreAdmitted : Prop :=
  ∀ (s : State) (p : LPort) (r : RingNo) (h : Head) (q : Slot) (rest : List Slot), alive s = true →
    (ringAt s.dev p r).head = some h → (ringAt s.dev p r).queue = q :: rest → h.stage = .ready → h.status = 0 →
    let t := tenantOf s.cfg p
    let admitted (D : Dev) (y : Run) : Prop := (ringAt D p r).cur = some y ∧ (ringAt D p r).head = none ∧ (ringAt D p r).queue = rest ∧ y.desc = q.bytes ∧ y.index = q.index ∧
      D.trl = s.dev.trl ∧ D.pegs = s.dev.pegs ∧ D.store = s.dev.store
    (dKind q.bytes = 7 →
      let g := groupOf q.bytes (h.list.getD []) (ownAddr s.dev)
      let line := dUseLine q.bytes = true ∧ s.cfg.codes[9].toNat = t.val
      let parts := presentMask s.cfg s.dev &&& tenantMask s.cfg (ownAddr s.dev) (ownAddr s.dev) t
      (line → localMembers s.cfg s.dev t g ≠ parts → ∃ D y, exec (.barrier p r) s = .next { s with dev := epilogue s.cfg D } ∧ admitted D y ∧ y.finished = true ∧ y.status = 9 ∧ y.lineBar = some s.dev.line.n ∧ y.aux = namedCount s.cfg s.dev t g) ∧
      (¬line ∨ localMembers s.cfg s.dev t g = parts → ∃ D y, exec (.barrier p r) s = .next { s with dev := epilogue s.cfg (placeBarrier s.cfg D p r y) } ∧ admitted D y ∧
        y.finished = false ∧ y.status = 0 ∧ y.aux = namedCount s.cfg s.dev t g)) ∧
    (dKind q.bytes = 8 → ∃ D y, exec (.epochFence p r) s = .next { s with dev := epilogue s.cfg (readHeader s.cfg D p r) } ∧ admitted D y ∧ y.finished = false ∧
      (ringAt D p r).st = .fenced ∧ (ringAt D p r).fenceOpen = true)

/-- R330, R329, R372, R384, R529, R228, R348, R709: the record of a finished descriptor is due once its frames have all gone, its clear has ended, and its writes have been performed where it is fenced. It leaves when the port's arbiter chooses it, with credit on VC2: it goes to its slot of the completion array, with its index, status, phase, epoch and counts, and is held for replay; then the consumed word follows with the next index; the ring and the port each count one record, a fence adopts its header, and the next descriptor may begin. Until it leaves nothing of that happens. -/
def Obligations.RecordsAreSent : Prop :=
  ∀ (s : State) (p : LPort) (r : RingNo) (x : Run), alive s = true → (ringAt s.dev p r).cur = some x → x.finished = true →
    let h := (ringAt s.dev p r).hdr
    let bs := recordBytes x.index x.status (expectedPhase h x.index) x.evGraft (lineEv s.dev x) h.epoch x.warnings x.exception x.excAt.length
      x.element x.droppedSrc x.droppedDst x.aux (Config.freeElapsed s.dev.free)
    let f : LemTx := .write 2 r.val (h.cplBase + 32 * slotOf h x.index) bs
    let it : TxItem := { vc := 2, stream := r.val, body := .frame f }
    let chosen := nextLem (heldStream s.cfg s.dev p) { s.dev.lem[p] with txq := s.dev.lem[p].txq ++ [it] } = some (2, it)
    (outputsSent s.dev p r = false ∨ x.clearing = true ∨ (dFence x.desc = true ∧ x.spoolPending = true) ∨ s.dev.lem[p].phase ≠ .up ∨ ¬chosen → exec (.completionRecord p r) s = .next s) ∧
    (x.clearing = false → exec (.spoolWritesPerformed p r) s = .next { s with dev := modR s.dev p r fun y => { y with cur := some { x with spoolPending := false } } }) ∧
    (outputsSent s.dev p r = true → x.clearing = false → (dFence x.desc = false ∨ x.spoolPending = false) → s.dev.lem[p].phase = .up → chosen →
      ∃ D, exec (.completionRecord p r) s = .next { s with dev := epilogue s.cfg (startHead s.cfg (fetchMore (readDeferred s.cfg (judgeAll s.cfg (fenceAdopt s.cfg D p r)) p) p r) p r) } ∧
        (ringAt D p r).cur = none ∧ (ringAt D p r).recorded = x.index + 1 ∧ (ringAt D p r).recs = satInc64 (ringAt s.dev p r).recs 1 ∧
        D.lem[p].ctr[11] = satInc64 s.dev.lem[p].ctr[11] 1 ∧ D.lem[p].ctr[0] = satInc64 s.dev.lem[p].ctr[0] 1 ∧
        D.lem[p].darn.held = s.dev.lem[p].darn.held ++ [(s.dev.lem[p].darn.next, f)] ∧ D.lem[p].darn.next = s.dev.lem[p].darn.next + 1 ∧
        D.lem[p].credit[2].sent = s.dev.lem[p].credit[2].sent + 1 ∧
        (dRefetch x.desc = false → D.lem[p].txq = ((s.dev.lem[p].txq ++ [it]).erase it ++ writeItems 2 r.val h.consumedAddr (consumedWord (x.index + 1) h.epoch)).filter
              fun it => !(itemReads (fun w => whyRing w == r && isBulk w) it)) ∧
        (∀ b ∈ D.coll.insts, (p, r) ∉ b.runs) ∧ D.trl = s.dev.trl ∧ D.pegs = s.dev.pegs)

/-! ## Open instances -/

/-- R526, R528, R410, R525, R517, R518: the first waiting hold of a tenant is granted where it fits what is free of the quota; where it does not, or none waits, the first waiting staging is, where that fits. A descriptor whose reads are all complete holds its inputs. A region whose clear ends reads 0, its poison is gone, and its additions go on. In each case the instance goes on. -/
def Obligations.SpaceInputsAndClears : Prop :=
  ∀ (s : State) (t : Tenant), alive s = true →
    let store := s.dev.store
    (∀ p r n, store.wait[t].find? reqIsHold = some (.hold p r n) → store.held[t] + n ≤ holdQuota s.cfg t →
      ∃ D, exec (.holdGrant t) s = .next { s with dev := epilogue s.cfg (pumpTenant s.cfg D t) } ∧
        D.store = { store with held := store.held.set t (store.held[t] + n), wait := store.wait.set t (store.wait[t].erase (.hold p r n)) } ∧
        (ringAt D p r).cur = (ringAt s.dev p r).cur.map (fun y => { y with holdOk := true }) ∧ D.coll = s.dev.coll ∧ D.trl = s.dev.trl) ∧
    (∀ k n, (∀ w, store.wait[t].find? reqIsHold = some w → holdQuota s.cfg t < store.held[t] + reqStripes w) →
      store.wait[t].find? (fun w => !reqIsHold w) = some (.staging k n) → store.staged[t] + n ≤ stagingQuota s.cfg t →
      ∃ D, exec (.holdGrant t) s = .next { s with dev := epilogue s.cfg (pumpTenant s.cfg D t) } ∧
        D.store = { store with staged := store.staged.set t (store.staged[t] + n), wait := store.wait.set t (store.wait[t].erase (.staging k n)) } ∧
        instAt D t k = (instAt s.dev t k).map (fun x => { x with stageOk := true }) ∧ D.lem = s.dev.lem ∧ D.trl = s.dev.trl) ∧
    (store.wait[t] = [] → exec (.holdGrant t) s = .next s) ∧
    (∀ (p : LPort) (r : RingNo) (x : Run), (ringAt s.dev p r).cur = some x →
      (x.prepared = true → x.readDone = false → x.readsLeft = 0 → x.finished = false →
        exec (.inputReadDone p r) s = .next { s with dev := (epilogue s.cfg (pumpInst s.cfg (modR s.dev p r fun y => { y with cur := some { x with readDone := true } }) (tenantOf s.cfg p) (dColl x.desc))) }) ∧
      (x.clearing = true → ∃ D, exec (.clearFirstComplete p r) s = .next { s with dev := epilogue s.cfg (pumpInst s.cfg D (tenantOf s.cfg p) (dColl x.desc)) } ∧
        (ringAt D p r).cur = some { x with clearing := false, spoolPending := true } ∧
        D.store = (clearSpool s.cfg s.dev (tenantOf s.cfg p) (dSpoolAddr x.desc) (regionBytes x.desc)).store ∧ D.coll = s.dev.coll ∧ D.trl = s.dev.trl))

/-- R398, R399, R411, R554, R620, R403: a frame of the open instance's number, from a unit of its group, that is the next of one of its transfers is taken: it is counted by port and channel, its bytes join what has come of that transfer, END_CHUNK marks the last, a SIGNAL ends the transfer, and where the transfer goes on to another unit so does the frame; then the instance goes on. A result frame that comes before the staging reservation waits for it (R528). One that is next of none is discarded and counted, as is every frame of a tenant under restart (R628). A prologue frame for which no instance is open is kept, in order, until its last. -/
def Obligations.InstancesTakeFrames : Prop :=
  ∀ (s : State) (i : TPort) (f : TrlFrame), alive s = true → trlUp s.dev i = true → s.dev.sow.formed = true → trlContentOk f = true → trlCodesOk f = true → (f.kind = 1 ∨ f.kind = 2) →
    let t := f.tenant
    let k := f.coll
    let pro : Bool := f.kind == 1 && f.chunk == 0xFFFFFFFF
    let row : Instr := if f.kind = 2 then .trellisSignalReceive i f else if f.chunk = 0xFFFFFFFF then .prologueReceive i f else .trellisDataReceive i f
    (s.dev.recov.restart[t] ≠ .none → exec row s = .next { s with dev := epilogue s.cfg (bumpTrl s.dev i 2) }) ∧
    (s.dev.recov.restart[t] = .none → pro = true → f.endChunk = false → instAt s.dev t k = none →
      exec row s = .next { s with dev := epilogue s.cfg { s.dev with coll := { s.dev.coll with early := s.dev.coll.early ++ [(i.val, f)] } } }) ∧
    (∀ x, s.dev.recov.restart[t] = .none → instAt s.dev t k = some x → x.num = frameNum s.dev f → x.aborted = none → x.frozen = false → isParty s.dev x f.src.toNat = true → x.skip.getD (4 * i.val + (f.vc.toNat - 1)) 0 = 0 →
      (f.kind = 2 → f.chunk ≠ 0xFFFFFFFF) →
      let g := if pro then proGeo s.dev x else geoOf s.dev x
      let fits (tr : Transfer) : Bool := entryVc g i.val tr == f.vc.toNat && isNextOf x i f tr
      let counted := { x with taken := x.taken.modify (4 * i.val + (f.vc.toNat - 1)) (· + 1) }
      let waits : Bool := !pro && !x.stageOk && ((entering g f.chunk.toNat i.val f.src.toNat).find? fits).all isDist &&
        (entering g f.chunk.toNat i.val f.src.toNat).any (fun tr => entryVc g i.val tr == f.vc.toNat && isDist tr && endsAt g.dims tr == some g.own)
      (waits = true → ∃ D, exec row s = .next { s with dev := epilogue s.cfg D } ∧ instAt D t k = some { counted with parked := x.parked ++ [(i.val, f)] } ∧ D.lem = s.dev.lem ∧ D.trl = s.dev.trl) ∧
      (waits = false → (entering g f.chunk.toNat i.val f.src.toNat).find? fits = none → ∃ D, exec row s = .next { s with dev := epilogue s.cfg (bumpTrl D i 2) } ∧ instAt D t k = some counted ∧ D.lem = s.dev.lem ∧ D.trl = s.dev.trl) ∧
      (∀ tr, waits = false → (entering g f.chunk.toNat i.val f.src.toNat).find? fits = some tr →
        let ends := endsAt g.dims tr == some g.own
        let old := rxStart x i f tr
        ∃ D r, exec row s = .next { s with dev := epilogue s.cfg (pumpInst s.cfg (if pro && r.done && ends then takePrologue s.cfg D t k r.src r.bytes else D) t k) } ∧
          instAt D t k = some { counted with rx := upsert x.rx (fun e => sameRx e r.wire.toNat tr) r } ∧ D.lem = s.dev.lem ∧ (ends = true → D.trl = s.dev.trl) ∧
          (f.kind = 1 → r.frames = old.frames + 1 ∧ r.ended = f.endChunk ∧ (r.done = true ↔ old.done = true ∨ (pro = true ∧ f.endChunk = true)) ∧
            r.bytes = (if ends = true ∨ dKind g.desc = 2 then old.bytes ++ f.payload else old.bytes)) ∧
          (f.kind = 2 → r = { old with done := true, notice := byteAt f.payload 0 == 2, noYard := bitOf (byteAt f.payload 1) 0, dropped := bitOf (byteAt f.payload 1) 1, home := byteAt f.payload 8 % 64 })))

/-- R486, R487, R489, R491, R494, R495: at the unit that decides, with the reduced vector complete, the Press works with the block registered at `yard_addr`; with none there the stage is skipped and NO_YARD found. With no Sieve to follow the decision is formed at once, of kind 2, or of kind 3 with the values themselves. The Sieve then selects from the Press output, or from the values rounded to `out_fmt`, and the decision is of kind 1. -/
def Obligations.ThePressAndTheSieveDecide : Prop :=
  ∀ (s : State) (t : Tenant) (k : W16) (x : Inst) (vals : List Val), alive s = true → instAt s.dev t k = some x → reducedVals s.dev (geoOf s.dev x) x = some vals →
    let desc := instDesc x
    let goes (c : Instr) (y : Inst) : Prop := ∃ D, exec c s = .next { s with dev := epilogue s.cfg (pumpInst s.cfg D t k) } ∧ instAt D t k = some y ∧ D = { s.dev with coll := { s.dev.coll with insts := D.coll.insts } }
    (∀ b, dPress desc = true → x.pressDone = false → findBlock s.dev t (dYardAddr desc) = some b →
      let out := pressOutput s.cfg s.dev desc b vals
      goes (.pressStage t k) { x with
        pressDone := true, pressOut := some out, noYard := false
        decision := (if dSieve desc = 0 then some (decisionStream desc 2 false vals (roundedBytes desc ((out.take (dCount desc)).map (decodeVal .binary32)))) else none) }) ∧
    (dPress desc = true → x.pressDone = false → findBlock s.dev t (dYardAddr desc) = none →
      goes (.pressStage t k) { x with
        pressDone := true, pressOut := none, noYard := true
        decision := (if dSieve desc = 0 then some (decisionStream desc 3 true vals (roundedBytes desc vals)) else none) }) ∧
    (dSieve desc ≠ 0 → (dPress desc = false ∨ x.pressDone = true) →
      let inputs := match x.pressOut with
        | some out => out.map (decodeVal .binary32)
        | none => vals.map fun v => roundVal v (dOutFmt desc) (dRound desc)
      let sel := sieveSelect (dSieve desc) (dK desc) (decodeVal .binary32 (dThreshold desc)) inputs
      goes (.sieveSelection t k) { x with decision := some (decisionStream desc 1 x.noYard vals (sieveBytes (dOutFmt desc) (dRound desc) sel)) })

/-- R421, R400, R387, R634, R623: where an instance waits for a descriptor, a carrier or space with no input read outstanding, the wait's end counts in unit health 5 and ends it here: by an abort to every unit with CONTRIBUTION_TIMEOUT, or, for one that went on after a COMMITTED verdict, with LINK_LOST here alone. Each of its unfinished descriptors gets that status. One that opened aborted closes. Nothing happens to one that does not wait. -/
def Obligations.WaitsEndInstances : Prop :=
  ∀ (s : State) (t : Tenant) (k : W16) (x : Inst), alive s = true → instAt s.dev t k = some x →
    (x.aborted.isSome = true ∨ inContribWait s.dev x = false → exec (.contributionWaitExpiry t k) s = .next { s with dev := epilogue s.cfg s.dev }) ∧
    (x.aborted = none → inContribWait s.dev x = true →
      ∃ D, exec (.contributionWaitExpiry t k) s = .next { s with dev := epilogue s.cfg D } ∧ instAt D t k = none ∧ D.stat.health[5] = satInc64 s.dev.stat.health[5] 1 ∧
        (D.recov.serial = if x.goesOn then s.dev.recov.serial else s.dev.recov.serial + 1) ∧
        ∀ (p : LPort) (r : RingNo) (y : Run), (p, r) ∈ x.runs → (ringAt s.dev p r).cur = some y → y.finished = false →
          ∃ z, (ringAt D p r).cur = some z ∧ z.finished = true ∧ z.status = (if x.goesOn then 0x24 else 0x26) ∧ z.index = y.index) ∧
    (x.aborted.isSome = true → ∃ D, exec (.abortedInstanceWatchdogExpiry t k) s = .next { s with dev := epilogue s.cfg D } ∧ instAt D t k = none ∧ D.stat.health[5] = satInc64 s.dev.stat.health[5] 1)

/-! ## Pegs, barriers and the line -/

/-- R281, R555, R585, R548, R551, R558, R559, R560, R566, R583: each PEG frame completes at its home, or goes on towards it. One whose pegs lie outside the tenant's slice, whose count of context changes is not the home's, or that is a FALLBACK of a tenant without the line, is counted and gets no reply. OP applies its operation and is answered DONE with the new value, but for a tally operation on a bad word. WATCH is answered FULL where the home keeps no more, else MET where its condition holds, and is else kept; UNWATCH forgets it. ARRIVE opens a phase, whose other units are told BEGIN, or adds a report to one with the same bytes; any other ARRIVE ends the phase with MISMATCH. WITHDRAW takes a report back and is answered WITHDRAWN. FALLBACK begins line fallback, or lowers its start. R558, R564, R583: a phase is released once every unit of its map that is not lost has reported: its count peg becomes 0, its sense peg changes between 0 and 1 where its word can be read, and the phase is over. Until then a report changes neither. -/
def Obligations.PegMessagesAndPhases : Prop :=
  (∀ (s : State) (i : TPort) (f : TrlFrame), alive s = true → trlUp s.dev i = true → s.dev.sow.formed = true → f.kind = 3 → trlContentOk f = true → trlCodesOk f = true →
    let pl := f.payload
    let t := f.tenant
    let u := f.src.toNat
    let peg := leNat pl 2 2
    let amount : W16 := BitVec.ofNat 16 (leNat pl 4 2)
    let id := leNat pl 6 2
    let same (ph : Phase) : Bool := decide (ph.peg = peg) && decide (ph.tenant = t)
    let goes (D : Dev) : Host.Outcome State Fault Refusal := .next { s with dev := epilogue s.cfg (settle s.cfg D) }
    let answer (n : Nat) : Host.Outcome State Fault Refusal := goes (sendReply s.dev t u n 0 peg 0 id [])
    (∀ e ∈ [(1, Instr.pegOpReceive i f), (2, .watch i f), (3, .unwatch i f), (4, .arrive i f), (5, .withdraw i f), (6, .fallback i f)], byteAt pl 0 = e.1 →
      (f.dest.toNat ≠ ownAddr s.dev → exec e.2 s = .next { s with dev := epilogue s.cfg (sendPt s.dev i.val f) }) ∧
      (f.dest.toNat = ownAddr s.dev → pegAccepted s.cfg s.dev f = false → exec e.2 s = .next { s with dev := epilogue s.cfg (bumpTrl s.dev i 2) })) ∧
    (f.dest.toNat = ownAddr s.dev → pegAccepted s.cfg s.dev f = true →
      (byteAt pl 0 = 1 → peg ∉ s.dev.pegs.bad ∨ byteAt pl 1 = 1 ∨ byteAt pl 1 = 2 →
        ∃ D, exec (.pegOpReceive i f) s = goes (sendReply D t u 1 (pegApply (byteAt pl 1) (poolPeg s.dev peg) amount).2 peg (pegApply (byteAt pl 1) (poolPeg s.dev peg) amount).1.toNat id []) ∧
          D.pegs.pool = spWrite s.dev.pegs.pool peg (pegApply (byteAt pl 1) (poolPeg s.dev peg) amount).1) ∧
      (byteAt pl 0 = 1 → peg ∈ s.dev.pegs.bad → byteAt pl 1 ≠ 1 → byteAt pl 1 ≠ 2 → exec (.pegOpReceive i f) s = goes s.dev) ∧
      (byteAt pl 0 = 2 → 256 * ((sliceOf s.cfg t).2 / 4096) ≤ (s.dev.pegs.watches.filter fun w => w.tenant == t).length → exec (.watch i f) s = answer 3) ∧
      (byteAt pl 0 = 2 → (s.dev.pegs.watches.filter fun w => w.tenant == t).length < 256 * ((sliceOf s.cfg t).2 / 4096) →
        peg ∉ s.dev.pegs.bad → condHolds (byteAt pl 1) (poolPeg s.dev peg) amount = true → exec (.watch i f) s = answer 2) ∧
      (byteAt pl 0 = 2 → (s.dev.pegs.watches.filter fun w => w.tenant == t).length < 256 * ((sliceOf s.cfg t).2 / 4096) →
        peg ∈ s.dev.pegs.bad ∨ condHolds (byteAt pl 1) (poolPeg s.dev peg) amount = false →
        exec (.watch i f) s = goes { s.dev with pegs := { s.dev.pegs with watches := s.dev.pegs.watches ++
          [{ peg := peg, cond := byteAt pl 1, operand := amount, tenant := t, unit := u, reqId := BitVec.ofNat 16 id, pgen := homePgen s.dev t }] } }) ∧
      (byteAt pl 0 = 3 → exec (.unwatch i f) s = goes { s.dev with pegs := { s.dev.pegs with
        watches := s.dev.pegs.watches.filter fun w => !(decide (w.unit = u) && decide (w.reqId = BitVec.ofNat 16 id) && decide (w.tenant = t)) } }) ∧
      (byteAt pl 0 = 4 →
        let body := slice pl 10 26
        let map : W64 := BitVec.ofNat 64 (leNat body 0x0E 8)
        (∀ ph : Phase, s.dev.pegs.phases.find? same = none → (mapUnits map).contains u = true →
          ph = { peg := peg, sense := nextPeg s.cfg t peg, tenant := t, body := body, map := map, reported := [(u, byteAt pl 8)] } →
          ∃ D, exec (.arrive i f) s = goes (engineRelease s.cfg D ph) ∧ D.pegs.pool = spWrite s.dev.pegs.pool peg 1 ∧
            D.pegs.phases = (s.dev.pegs.phases.filter fun x => !(same x)) ++ [ph]) ∧
        (∀ ph, s.dev.pegs.phases.find? same = some ph → ph.body = body → (mapUnits map).contains u = true → (ph.reported.any fun e => e.1 == u) = false →
          ∃ D, exec (.arrive i f) s = goes (engineRelease s.cfg D { ph with reported := ph.reported ++ [(u, byteAt pl 8)] }) ∧
            D.pegs.pool = spWrite s.dev.pegs.pool peg (BitVec.ofNat 16 (ph.reported.length + 1)) ∧
            D.pegs.phases = (s.dev.pegs.phases.filter fun x => !(same x)) ++ [{ ph with reported := ph.reported ++ [(u, byteAt pl 8)] }]) ∧
        ((mapUnits map).contains u = false ∨ (∃ ph, s.dev.pegs.phases.find? same = some ph ∧ (ph.body ≠ body ∨ (ph.reported.any fun e => e.1 == u) = true)) →
          ∃ D, exec (.arrive i f) s = goes D ∧ D.pegs.pool = spWrite s.dev.pegs.pool peg 0 ∧ D.pegs.phases = s.dev.pegs.phases.filter fun x => !(same x))) ∧
      (byteAt pl 0 = 5 →
        (∀ ph, s.dev.pegs.phases.find? (fun x => decide (x.peg = peg) && decide (x.tenant = t) && x.reported.any (fun e => e.1 == u)) = some ph →
          let left := ph.reported.filter fun e => e.1 != u
          ∃ D, exec (.withdraw i f) s = goes (sendReply D t u 6 0 peg 0 id []) ∧ D.pegs.pool = spWrite s.dev.pegs.pool peg (BitVec.ofNat 16 left.length) ∧
            D.pegs.phases = (s.dev.pegs.phases.filter fun x => !(same x)) ++ [{ ph with reported := left }]) ∧
        ((∀ x ∈ s.dev.pegs.phases, same x = true → (x.reported.any fun e => e.1 == u) = false) → exec (.withdraw i f) s = goes s.dev)) ∧
      (byteAt pl 0 = 6 → ∃ D, exec (.fallback i f) s = goes D ∧ D.line.fallback = true ∧
        D.line.f = (if s.dev.line.fallback = true then min (leNat pl 0x20 4) s.dev.line.f else leNat pl 0x20 4) ∧
        (s.dev.line.fallback = false → D.line.assertA = false ∧ D.line.assertB = false) ∧
        ((∀ a ∈ s.dev.pegs.arrivals, a.line ≠ none → (sliceOf s.cfg a.tenant).2 ≠ 0) → D.line.n = s.dev.line.n)))) ∧
  (∀ (c : Cfg) (d : Dev) (ph : Phase),
    ((∃ u ∈ mapUnits ph.map, u ∉ d.recov.view.lost ∧ ∀ m, (u, m) ∉ ph.reported) → engineRelease c d ph = d) ∧
    ((∀ u ∈ mapUnits ph.map, u ∉ d.recov.view.lost → ∃ m, (u, m) ∈ ph.reported) →
      (engineRelease c d ph).pegs.pool = (if ph.sense ∈ d.pegs.bad ∧ ph.sense ≠ ph.peg then spWrite d.pegs.pool ph.peg 0
        else spWrite (spWrite d.pegs.pool ph.peg 0) ph.sense (if poolPeg d ph.sense = 0 then 1 else 0)) ∧
      (engineRelease c d ph).pegs.phases = d.pegs.phases.filter fun x => !(decide (x.peg = ph.peg) && decide (x.tenant = ph.tenant))))

/-- R548, R551, R559, R560, R567: DONE completes the entry that waits for it; MET satisfies the dependency that waits for it; FULL leaves the WATCH to be sent again; BEGIN for a group without members here is answered with an ARRIVE of none, one for a line barrier begins line fallback, and one from before a context change is discarded (R707); RELEASE, MISMATCH and WITHDRAWN end the arrival, whose descriptors complete with OK, GROUP_MISMATCH or BARRIER_TIMEOUT. The end of a phase that the line had completed is ignored, once (R567). A reply for another unit goes on towards it. -/
def Obligations.PegRepliesAreActedOn : Prop :=
  ∀ (s : State) (i : TPort) (f : TrlFrame), alive s = true → trlUp s.dev i = true → s.dev.sow.formed = true → f.kind = 4 → trlContentOk f = true → trlCodesOk f = true →
    let pl := f.payload
    let t := f.tenant
    let peg := leNat pl 2 2
    let id : W16 := BitVec.ofNat 16 (leNat pl 6 2)
    let goes (D : Dev) : Host.Outcome State Fault Refusal := .next { s with dev := epilogue s.cfg (settle s.cfg D) }
    let ended (c : Instr) (a : Arrival) (st : Byte) : Prop := ∃ D, exec c s = goes (placeHeld s.cfg D) ∧
      (∀ (p : LPort) (r : RingNo) (y : Run), (p, r) ∈ a.runs → (ringAt s.dev p r).cur = some y → y.finished = false →
        ∃ z, (ringAt D p r).cur = some z ∧ z.finished = true ∧ z.status = st ∧ z.index = y.index) ∧
      (∀ b, b ∈ D.pegs.arrivals ↔ b ∈ s.dev.pegs.arrivals ∧ ¬(b.tenant = a.tenant ∧ b.home = a.home ∧ b.peg = a.peg ∧ b.line = a.line))
    (∀ e ∈ [(1, Instr.done i f), (2, .met i f), (3, .full i f), (4, .begin i f), (5, .release i f), (6, .withdrawn i f), (7, .mismatch i f)], byteAt pl 0 = e.1 →
      f.dest.toNat ≠ ownAddr s.dev → exec e.2 s = .next { s with dev := epilogue s.cfg (sendPt s.dev i.val f) }) ∧
    (f.dest.toNat = ownAddr s.dev →
      (byteAt pl 0 = 1 → ∀ p r x, doneOwner s.dev id = some (p, r) → (ringAt s.dev p r).cur = some x →
        let k := skipNone x.desc 4 x.entry
        ∃ D y, exec (.done i f) s = goes D ∧ (ringAt D p r).cur = some y ∧ y.entry = k + 1 ∧ y.waitReq = none ∧ y.status = x.status ∧
          y.aux = (if ePop (dEntry x.desc k) = 1 ∨ ePop (dEntry x.desc k) = 2 then min (leNat pl 4 2) 1 else leNat pl 4 2) ∧
          (x.finished = false → y.finished = decide (4 ≤ skipNone x.desc 4 (k + 1)))) ∧
      (byteAt pl 0 = 2 → ∀ p r k, watchOwner s.dev id = some (p, r, k) → exec (.met i f) s = goes (modHead s.dev p r fun h => { h with met := h.met.set k true })) ∧
      (byteAt pl 0 = 3 → (∀ p r k, watchOwner s.dev id = some (p, r, k) → exec (.full i f) s = goes (modHead s.dev p r fun h => { h with watchFull := h.watchFull.set k true })) ∧
        (watchOwner s.dev id = none → exec (.full i f) s = goes s.dev)) ∧
      (byteAt pl 0 = 4 → byteAt pl 9 ≠ (homePgen s.dev t).toNat → exec (.begin i f) s = goes s.dev) ∧
      (byteAt pl 0 = 4 → byteAt pl 9 = (homePgen s.dev t).toNat →
        let g := groupOfBody (slice pl 10 26) f.src.toNat
        let n := leNat (slice pl 10 26) 0x16 4
        let D := if n ≠ 0xFFFFFFFF ∧ s.dev.line.fallback = false ∧ ownsLine s.cfg t = true then enterFallback s.cfg s.dev n else s.dev
        exec (.begin i f) s = if g.kind ≤ 1 ∧ localMembers s.cfg D t { g with base := ownAddr D } = 0 then goes (sendPeg D t f.src.toNat 4 0 peg 0 0 0 (slice pl 10 26)) else goes D) ∧
      (∀ a, ((s.dev.pegs.ignored.any fun e => e.1 == f.src.toNat && e.2.1 == peg) = false ∨ ownsLine s.cfg t = false) → arrivalAt s.dev t f.src.toNat peg = some a →
        (byteAt pl 0 = 5 → ended (.release i f) a 0) ∧ (byteAt pl 0 = 7 → ended (.mismatch i f) a 9)) ∧
      (∀ e, ownsLine s.cfg t = true → (s.dev.pegs.ignored.find? fun e => e.1 == f.src.toNat && e.2.1 == peg) = some e →
        let D := tryArrivals s.cfg (sendCompleted s.cfg { s.dev with pegs := { s.dev.pegs with ignored := s.dev.pegs.ignored.erase e } })
        (byteAt pl 0 = 5 → exec (.release i f) s = goes D) ∧ (byteAt pl 0 = 7 → exec (.mismatch i f) s = goes D)) ∧
      (∀ a, byteAt pl 0 = 6 → s.dev.pegs.arrivals.find? (fun a => a.withdrawId == some id) = some a → ended (.withdrawn i f) a 0x27))

/-- R551, R548, R560, R385, R387: one microsecond after a FULL the WATCH goes again. A PEG_OP whose DONE does not come ends with WAIT_TIMEOUT. A peg barrier whose wait ends: before its unit has reported, the descriptor ends alone with BARRIER_TIMEOUT and its members are covered no more; after, the unit withdraws from the home, once; and without an answer to that every descriptor of the arrival ends so. Each wait's end counts. -/
def Obligations.PegAndBarrierWaitsEnd : Prop :=
  ∀ (s : State) (p : LPort) (r : RingNo), alive s = true →
    let t := tenantOf s.cfg p
    (∀ (k : Fin 4) (h : Head) (q : Slot) (rest : List Slot) (id : W16) (peg : Nat), (ringAt s.dev p r).head = some h → (ringAt s.dev p r).queue = q :: rest → h.watchIds.getD k.val none = some id →
      h.stage = .waiting → h.status = 0 → h.met.getD k.val true = false → h.watchFull.getD k.val false = true → depRemote s.dev q.bytes k.val = true →
      physPeg s.cfg t (ringAt s.dev p r).hdr.windowBase (leNat (dDep q.bytes k.val) 2 2 % 4096) = some peg →
      let e := dDep q.bytes k.val
      exec (.watchResendTimer p r k) s = .next { s with dev := epilogue s.cfg (sendPeg (modHead s.dev p r fun h => { h with watchFull := h.watchFull.set k.val false }) t (liveHome s.dev (byteAt e 6 % 64)) 2 (byteAt e 1) peg (leNat e 4 2) id.toNat 0 []) }) ∧
    (∀ x, (ringAt s.dev p r).cur = some x → x.waitReq.isSome = true → x.finished = false →
      ∃ D, exec (.pegOpDoneTimeout p r) s = .next { s with dev := epilogue s.cfg D } ∧ (ringAt D p r).cur = some { x with status := 0x10, finished := true, waitReq := none } ∧
        D.stat.health[5] = satInc64 s.dev.stat.health[5] 1 ∧ D.stat.tctr[t][5] = satInc64 s.dev.stat.tctr[t][5] 1 ∧ D.pegs = s.dev.pegs) ∧
    (∀ x, (ringAt s.dev p r).cur = some x → dKind x.desc = 7 → x.finished = false →
      (arrivalOf s.dev p r = none → (lineRun s.cfg p x.desc = false ∨ (s.dev.line.fallback = true ∧ s.dev.line.f ≤ s.dev.line.n + 1)) →
        ∃ D, exec (.barrierWatchdogExpiry p r) s = .next { s with dev := epilogue s.cfg D } ∧ (ringAt D p r).cur = some { x with status := 0x27, finished := true } ∧
          D.stat.health[5] = satInc64 s.dev.stat.health[5] 1 ∧ D.stat.tctr[t][6] = satInc64 s.dev.stat.tctr[t][6] 1 ∧ D.pegs = s.dev.pegs) ∧
      (∀ a, arrivalOf s.dev p r = some a → a.line = none → a.arrived = false → a.runs.filter (· != (p, r)) ≠ [] →
        ∃ D, exec (.barrierWatchdogExpiry p r) s = .next { s with dev := epilogue s.cfg D } ∧ (ringAt D p r).cur = some { x with status := 0x27, finished := true } ∧
          D.stat.health[5] = satInc64 s.dev.stat.health[5] 1 ∧ D.stat.tctr[t][6] = satInc64 s.dev.stat.tctr[t][6] 1 ∧
          D.pegs.arrivals = s.dev.pegs.arrivals.map fun b => if b.tenant = a.tenant ∧ b.home = a.home ∧ b.peg = a.peg ∧ b.line = a.line then
            { b with runs := a.runs.filter (· != (p, r)), covered := coveredBy D (a.runs.filter (· != (p, r))) } else b) ∧
      (∀ a, arrivalOf s.dev p r = some a → a.line = none → a.arrived = true → a.withdrawId = none → hasRoute s.dev a.home = true →
        ∃ D, exec (.barrierWatchdogExpiry p r) s = .next { s with dev := epilogue s.cfg (sendPeg D a.tenant a.home 5 0 a.peg 0 s.dev.pegs.nextReq.toNat 0 []) } ∧
          D.stat.health[5] = satInc64 s.dev.stat.health[5] 1 ∧ D.pegs.nextReq = s.dev.pegs.nextReq + 1 ∧ (ringAt D p r).cur = some x ∧
          D.pegs.arrivals = s.dev.pegs.arrivals.map fun b => if b.tenant = a.tenant ∧ b.home = a.home ∧ b.peg = a.peg ∧ b.line = a.line then { b with withdrawId := some s.dev.pegs.nextReq } else b)) ∧
    (∀ a, arrivalOf s.dev p r = some a → a.withdrawId.isSome = true →
      ∃ D, exec (.withdrawReplyTimeout p r) s = .next { s with dev := epilogue s.cfg (placeHeld s.cfg D) } ∧ D.stat.health[5] = satInc64 s.dev.stat.health[5] 1 ∧
        (∀ (q : LPort) (z : RingNo) (y : Run), (q, z) ∈ a.runs → (ringAt s.dev q z).cur = some y → y.finished = false →
          ∃ w, (ringAt D q z).cur = some w ∧ w.finished = true ∧ w.status = 0x27) ∧
        (∀ b, b ∈ D.pegs.arrivals ↔ b ∈ s.dev.pegs.arrivals ∧ ¬(b.tenant = a.tenant ∧ b.home = a.home ∧ b.peg = a.peg ∧ b.line = a.line)))

/-- R564, R566, R562: a unit of a chain whose line a tenant owns releases the line of barrier n once its participants have arrived, or there are none, and once only. When that line then reads high, barrier n is complete, its descriptors with OK; n goes on by one, and the line of the barrier before is asserted again. The line watchdog begins line fallback from this unit's n, lets both lines go, and tells every other unit. Under fallback the line completes the barriers below the fallback start, asserts no line again, and completes no other. -/
def Obligations.TheLineCompletesBarriers : Prop :=
  ∀ s : State, alive s = true → s.dev.line.ready = true →
    let l := s.dev.line
    let owner := s.cfg.codes[9].toNat
    (owner ≤ 3 → (l.fallback = false ∨ l.n < l.f) → l.released = false → lineCovered s.cfg s.dev = true →
      exec .lineRelease s = .next { s with dev := { s.dev with line := { l with
        assertA := (if l.n % 2 = 0 then false else l.assertA), assertB := (if l.n % 2 = 0 then l.assertB else false), released := true } } }) ∧
    (l.released = true ∨ (l.fallback = true ∧ l.f ≤ l.n) ∨ 3 < owner ∨ lineCovered s.cfg s.dev = false → exec .lineRelease s = .next s) ∧
    (∀ w : Fin 2, l.released = true → (l.fallback = false ∨ l.n < l.f) → l.n % 2 = w.val →
      ∃ D, exec (.lineReadHigh w) s = .next { s with dev := epilogue s.cfg (placeHeld s.cfg D) } ∧ D.line.n = l.n + 1 ∧ D.line.released = false ∧ D.line.fallback = l.fallback ∧
        D.line.assertA = (if 1 ≤ l.n ∧ l.fallback = false ∧ l.n % 2 = 1 then true else l.assertA) ∧ D.line.assertB = (if 1 ≤ l.n ∧ l.fallback = false ∧ l.n % 2 = 0 then true else l.assertB) ∧
        (∀ a, lineArrival s.dev = some a → (∀ (p : LPort) (r : RingNo) (y : Run), (p, r) ∈ a.runs → (ringAt s.dev p r).cur = some y → y.finished = false →
          ∃ z, (ringAt D p r).cur = some z ∧ z.finished = true ∧ z.status = 0 ∧ z.index = y.index) ∧
          ∀ b, b ∈ D.pegs.arrivals ↔ b ∈ s.dev.pegs.arrivals ∧ ¬(b.tenant = a.tenant ∧ b.home = a.home ∧ b.peg = a.peg ∧ b.line = a.line))) ∧
    (∀ w : Fin 2, (l.released = false ∨ (l.fallback = true ∧ l.f ≤ l.n) ∨ l.n % 2 ≠ w.val) → exec (.lineReadHigh w) s = .next s) ∧
    (l.released = true → l.fallback = false →
      ∃ D, exec .lineWatchdogExpiry s = .next { s with dev := (epilogue s.cfg (each ((List.range (unitsIn D.sow.dims)).filter (· != ownAddr D)) D fun d u =>
          sendPeg d ((allTenants.find? (ownsLine s.cfg)).getD 0) u 6 0 (sliceOf s.cfg ((allTenants.find? (ownsLine s.cfg)).getD 0)).1 0 0 0 (zeros 22 ++ toLe l.n 4))) } ∧
        D.line.fallback = true ∧ D.line.f = l.n ∧ ((∀ a ∈ s.dev.pegs.arrivals, a.line ≠ none → (sliceOf s.cfg a.tenant).2 ≠ 0) → D.line.n = l.n) ∧ D.line.assertA = false ∧ D.line.assertB = false ∧ D.stat.health[5] = satInc64 s.dev.stat.health[5] 1)

/-! ## Faults and recovery -/

/-- R621: a RECOVERY message is forwarded, unchanged, on every up port but the one it arrived on, and acted on, for the first copy of its origin and serial; a later copy is discarded. The six kinds act as R622, R628, R632, R633, R623, R569 lay down. -/
def Obligations.RecoveryMessagesAreFloodedOnce : Prop :=
  ∀ (s : State) (i : TPort) (f : TrlFrame) (c : Instr), alive s = true → trlUp s.dev i = true → s.dev.sow.formed = true → f.kind = 7 → trlContentOk f = true → trlCodesOk f = true →
    (byteAt f.payload 0, c) ∈ [(1, Instr.fault i f), (2, .state i f), (3, .verdict i f), (4, .abort i f), (5, .drained i f), (6, .clean i f)] →
    let pl := f.payload
    let F := floodOn (recNote s.dev f) (some i) f.src.toNat pl
    let t : Tenant := Fin.ofNat 4 (byteAt pl 2)
    let k : W16 := BitVec.ofNat 16 (leNat pl 4 2)
    let n : W16 := BitVec.ofNat 16 (leNat pl 6 2)
    let goes (D : Dev) : Host.Outcome State Fault Refusal := .next { s with dev := epilogue s.cfg D }
    (recSeen s.dev f = true → exec c s = .next s) ∧
    (recSeen s.dev f = false →
      (∀ j : TPort, F.trl[j] = if trlUp s.dev j = true ∧ j ≠ i then giveSlots { s.dev.trl[j] with
          txq := s.dev.trl[j].txq ++ [{ owner := .recovery, source := 7, frame := mkTrl 7 7 0 f.src.toNat (facing s.dev.sow.dims (ownAddr s.dev) j.val) pl }] } else s.dev.trl[j]) ∧
      recSeen F f = true ∧ F = { s.dev with trl := F.trl, recov := { s.dev.recov with seen := F.recov.seen } } ∧
      (byteAt pl 0 = 1 → exec c s = goes (acceptFault s.cfg F (byteAt pl 8) (byteAt pl 9) (byteAt pl 10) (byteAt pl 11))) ∧
      (byteAt pl 0 = 2 → exec c s = goes (takeState s.cfg F t k n { unit := f.src.toNat, round := byteAt pl 3, committed := bitOf (byteAt pl 8) 0, sent := (List.range 24).map fun j => leNat pl (0x10 + 4 * j) 4 })) ∧
      (byteAt pl 0 = 3 → exec c s = goes (takeVerdict s.cfg F t k n (byteAt pl 3) (byteAt pl 8) (pl.getD 9 0))) ∧
      (byteAt pl 0 = 4 → exec c s = goes (takeAbort s.cfg F t k n (pl.getD 8 0) fun x => (carriersOf (geoOf F x).shape).any fun q => addrOf F.sow.dims q == f.src.toNat)) ∧
      (byteAt pl 0 = 5 → exec c s = goes (tryChange s.cfg { F with recov := { F.recov with
        drained := F.recov.drained ++ (bitTenants (byteAt pl 8)).map fun t => (t, f.src.toNat)
        windows := F.recov.windows ++ (List.range (byteAt pl 9)).map fun j => leNat pl (0x10 + 2 * j) 2 } } false)) ∧
      (byteAt pl 0 = 6 → exec c s = goes (tryEnd { F with recov := { F.recov with
        cleaned := F.recov.cleaned ++ (bitTenants (byteAt pl 8)).map fun t => (t, f.src.toNat) } } false)))

/-- R623, R628, R629: the drain of a tenant. Every descriptor that is admitted and not recorded ends with ABORTED, also one that had ended otherwise, but for one that met the fault, which keeps its status (R647); its prefetch queues go, its running and fenced rings are stalled, its instances close, numbering starts again at 0, its arrivals and what waits for space go. A hold stays until its descriptor's record (R527), but for the holds that an instance kept of a leaf that went down, which go with it. No other tenant's ring, instance, hold or restart changes. -/
def Obligations.ADrainEndsATenantsWork : Prop :=
  ∀ (c : Cfg) (d : Dev) (t : Tenant),
    let D := drain c d t
    (∀ u : Tenant, D.recov.restart[u] = if u = t then .draining else d.recov.restart[u]) ∧
    (∀ (p : LPort) (r : RingNo), p ∈ portsOf c t →
      (ringAt D p r).st = (if (ringAt d p r).st = .running ∨ (ringAt d p r).st = .fenced then .stalled else (ringAt d p r).st) ∧
      (ringAt D p r).queue = [] ∧ (ringAt D p r).head = none ∧ ((ringAt d p r).cur = none → (ringAt D p r).cur = none) ∧
      (∀ x, (ringAt d p r).cur = some x → ∃ y, (ringAt D p r).cur = some y ∧ y.finished = true ∧ y.status = (if x.metFault then x.status else 0x23) ∧ y.index = x.index ∧
        y.desc = x.desc ∧ y.holdOk = x.holdOk ∧ y.holdStripes = x.holdStripes)) ∧
    (∀ (p : LPort) (r : RingNo), p ∉ portsOf c t → ringAt D p r = ringAt d p r) ∧
    (∀ x, x ∈ D.coll.insts ↔ x ∈ d.coll.insts ∧ x.tenant ≠ t) ∧ (∀ k, nextNum D t k = 0) ∧ (∀ a ∈ D.pegs.arrivals, a.tenant ≠ t) ∧
    ((∀ x ∈ d.coll.insts, x.tenant = t → ∀ e ∈ x.ghosts, e.2.holdOk = false) → D.store.held[t] = d.store.held[t]) ∧ D.store.wait[t] = [] ∧ D.pegs.pool = d.pegs.pool ∧ D.pegs.phases = d.pegs.phases ∧ D.store.spool = d.store.spool ∧
    (∀ u : Tenant, u ≠ t → D.store.held[u] = d.store.held[u] ∧ D.store.staged[u] = d.store.staged[u] ∧ D.store.wait[u] = d.store.wait[u])

/-- R569, R570, R628: a fault restart goes on. The drain is complete once every record of the tenant is sent; the context change starts once a DRAINED of every surviving unit is there, or the wait is over; it ends with the count of changes one higher, the pocket pegs of the tenant's ports cleared, and its pool pegs cleared but for those of kept windows whose own word and saved word read well; and the restart ends once every CLEAN is there, or the wait is over. Each wait that ends counts. -/
def Obligations.RestartsGoOnStepByStep : Prop :=
  (∀ (s : State) (t : Tenant), alive s = true →
    let ready (t : Tenant) : Prop := s.dev.recov.restart[t] = .draining ∧ drainedHere s.cfg s.dev t = true
    (¬(∃ t, ready t) → exec .drainComplete s = .next { s with dev := epilogue s.cfg s.dev }) ∧
    ((∃ t, ready t) → ∃ D, exec .drainComplete s = .next { s with dev := epilogue s.cfg (tryChange s.cfg D false) } ∧
      (ready t → D.recov.restart[t] = .drained ∧ (t, ownAddr s.dev) ∈ D.recov.drained ∧ ∀ w ∈ keptWindows s.cfg s.dev t, w ∈ D.recov.windows) ∧
      (¬ready t → D.recov.restart[t] = s.dev.recov.restart[t]) ∧ D.pegs = s.dev.pegs ∧ D.lem = s.dev.lem) ∧
    ((∀ u : Tenant, s.dev.recov.restart[u] ≠ .changing) → exec .contextChangeDone s = .next { s with dev := epilogue s.cfg s.dev }) ∧
    ((∃ u : Tenant, s.dev.recov.restart[u] = .changing) → ∃ D, exec .contextChangeDone s = .next { s with dev := epilogue s.cfg (tryEnd D false) } ∧
      (s.dev.recov.restart[t] = .changing → D.recov.restart[t] = .cleaning ∧ D.recov.pgen[t] = s.dev.recov.pgen[t] + 1 ∧ (t, ownAddr s.dev) ∈ D.recov.cleaned) ∧
      (s.dev.recov.restart[t] ≠ .changing → D.recov.restart[t] = s.dev.recov.restart[t] ∧ D.recov.pgen[t] = s.dev.recov.pgen[t])) ∧
    ((∃ u : Tenant, s.dev.recov.restart[u] = .drained ∨ s.dev.recov.restart[u] = .cleaning) →
      exec .recoveryWaitExpiry s = .next { s with dev := epilogue s.cfg (tryEnd (tryChange s.cfg (bumpHealth s.dev 5) true) true) }) ∧
    ((∀ u : Tenant, s.dev.recov.restart[u] ≠ .drained ∧ s.dev.recov.restart[u] ≠ .cleaning) → exec .recoveryWaitExpiry s = .next s)) ∧
  (∀ (c : Cfg) (d : Dev) (late : Bool) (t : Tenant),
    (tryChange c d late).recov.restart[t] = (if d.recov.restart[t] = .drained ∧ (late = true ∨ ∀ u ∈ surviving d, (t, u) ∈ d.recov.drained) then .changing else d.recov.restart[t]) ∧
    (tryEnd d late).recov.restart[t] = (if d.recov.restart[t] = .cleaning ∧ (late = true ∨ ∀ u ∈ surviving d, (t, u) ∈ d.recov.cleaned) then .none else d.recov.restart[t])) ∧
  (∀ (c : Cfg) (d : Dev) (t : Tenant) (k : Nat),
    (inSlice c t k = true → k ∉ keptPegs c d t → poolPeg (finishChange c d t) k = 0) ∧
    (inSlice c t k = false → k ∉ keptPegs c d t → poolPeg (finishChange c d t) k = poolPeg d k) ∧
    (k ∈ keptPegs c d t → k ∉ d.pegs.bad → spWf d.pegs.pool = true → (∀ j ∈ keptPegs c d t, wordGood d (savedAt j) = true) → poolPeg (finishChange c d t) k = poolPeg d k) ∧
    (k ∈ keptPegs c d t → k ∈ d.pegs.bad → inSlice c t k = true → poolPeg (finishChange c d t) k = 0) ∧
    (∀ p : LPort, (finishChange c d t).lem[p].pocket = if p ∈ portsOf c t then [] else d.lem[p].pocket))

/-- R632 to R636, R623: graft. A frozen instance of the verdict's round goes on under COMMITTED, is due for its rerun under REFORM, and ends with the status under END. A verdict of no higher round than one accepted before, or of a lower round than the highest STATE, changes nothing. An ABORT ends the open instance of its number where a carrier sent it, makes one not yet opened open aborted, and leaves an ended one. The root's wait for a STATE ends in its verdict. -/
def Obligations.VerdictsAndAborts : Prop :=
  ∀ (c : Cfg) (d : Dev) (t : Tenant) (k n : W16) (st : Byte),
    (∀ round outcome, round ≤ verdictOf d t k n ∨ round < highestRound d t k n → takeVerdict c d t k n round outcome st = d) ∧
    (∀ round x, verdictOf d t k n < round → highestRound d t k n ≤ round → instAt d t k = some x → x.num = n → x.frozen = true → x.round = round →
      (∃ D, takeVerdict c d t k n round 1 st = pumpInst c D t k ∧ D.lem = d.lem ∧ D.trl = d.trl ∧ verdictOf D t k n = round ∧
        instAt D t k = some { x with verdictRound := round, frozen := false, goesOn := true, toRemove := [], kept := [] }) ∧
      (∃ D, takeVerdict c d t k n round 2 st = tryReform c D t k ∧ verdictOf D t k n = round ∧ D.trl = d.trl ∧ D.stat.tctr[t][2] = satInc64 d.stat.tctr[t][2] 1 ∧
        instAt D t k = some { x with verdictRound := round, reformDue := true }) ∧
      (x.aborted = none → instAt (takeVerdict c d t k n round 3 st) t k = none ∧
        ∀ (p : LPort) (r : RingNo) (y : Run), (p, r) ∈ x.runs → (ringAt d p r).cur = some y → y.finished = false →
          ∃ z, (ringAt (takeVerdict c d t k n round 3 st) p r).cur = some z ∧ z.finished = true ∧ z.status = st ∧ z.index = y.index)) ∧
    (∀ (mine : Inst → Bool) (x : Inst), instAt d t k = some x →
      (x.num = n → mine x = true → x.aborted = none → instAt (takeAbort c d t k n st mine) t k = none ∧
        ∀ (p : LPort) (r : RingNo) (y : Run), (p, r) ∈ x.runs → (ringAt d p r).cur = some y → y.finished = false →
          ∃ z, (ringAt (takeAbort c d t k n st mine) p r).cur = some z ∧ z.finished = true ∧ z.status = st ∧ z.index = y.index) ∧
      (x.num = n → (mine x = false ∨ x.aborted ≠ none) → takeAbort c d t k n st mine = d) ∧
      (x.num ≠ n → (n - x.num).toNat < 32768 → takeAbort c d t k n st mine = { d with coll := { d.coll with preAborts := d.coll.preAborts ++ [(t, k, n, st)] } }) ∧
      (32768 ≤ (n - x.num).toNat → takeAbort c d t k n st mine = d)) ∧
    (∀ x, instAt d t k = some x → x.reformDue = true → neighbourStates d x = false → tryReform c d t k = d) ∧
    (∀ x, instAt d t k = some x → x.reformDue = true → neighbourStates d x = true → x.kept = [] → ∃ D y, tryReform c d t k = pumpInst c D t k ∧ instAt D t k = some y ∧
      y.frozen = false ∧ y.spoiled = false ∧ y.parked = [] ∧ y.grafted = true ∧ y.reformDue = false ∧ y.committed = false ∧ y.written = 0 ∧ y.toRemove = [] ∧ y.removed = addMasks x.removed x.toRemove ∧
      (∀ r ∈ y.rx, r.wire = 0xFFFFFFFF) ∧ (∀ r ∈ y.tx, r.wire = 0xFFFFFFFF) ∧ y.masks = x.masks ∧ y.runs = x.runs) ∧
    (∀ s : State, alive s = true → s.cfg = c → s.dev = d → stateKeys d = [(t, k, n)] →
      let e := decideVerdict c d t k n true
      exec (.stateWaitExpiry t k) s = .next { s with dev := epilogue c (if e = d then d else bumpHealth e 5) })

/-! ## Status pages, errors found, and the test access port -/

/-- R141, R653, R654: a due moment makes a page pending, but under LVL_STATUS code 0, in a stop, or on a port that receives none. R178, R179, R378, R654, R655: a page is 4,096 bytes in 19 WRITE frames, carries its number at both ends and every pending cause, clears them, and reports the halt flags once. R522, R523: a patrol scrubs the next row, counts what it corrects, and sets every copy of the poison flag of each bad word of the row, so that the majority of R521 reads it set; no ring and no instance changes. R687: the temperature sampled is the one shown. -/
def Obligations.PagesScrubsAndSamples : Prop :=
  ∀ s : State, alive s = true →
    (∀ p : LPort, s.cfg.codes[7].toNat ≠ 0 → stopped s.dev = false → s.dev.lem[p].started = true →
      exec (.statusPeriodDue p) s = .next { s with dev := modP s.dev p fun x => { x with causes := x.causes ||| 1 } }) ∧
    (∀ p : LPort, (s.cfg.codes[7].toNat = 0 ∨ stopped s.dev = true ∨ s.dev.lem[p].started = false) → exec (.statusPeriodDue p) s = .next s) ∧
    (∀ p : LPort, mayPage s.dev p = false → exec (.statusPageWrite p) s = .next s) ∧
    (∀ p : LPort, mayPage s.dev p = true → ∃ bs t, exec (.statusPageWrite p) s = .next t ∧ bs.length = 4096 ∧
      leNat bs 0 8 = (s.dev.lem[p].pageNo + 1).toNat ∧ leNat bs 8 2 = s.dev.lem[p].causes.toNat ∧ leNat bs 0xFF8 8 = (s.dev.lem[p].pageNo + 1).toNat ∧
      t.dev.lem[p] = { s.dev.lem[p] with causes := 0, pageNo := s.dev.lem[p].pageNo + 1, txq := s.dev.lem[p].txq ++ writeItems 2 8 s.dev.lem[p].hello.statusPage bs } ∧
      (s.dev.lem[p].hello.statusPage % 4096 = 0 → (writeItems 2 8 s.dev.lem[p].hello.statusPage bs).length = 19) ∧
      (∀ q : LPort, q ≠ p → t.dev.lem[q] = s.dev.lem[q]) ∧ t.cfg = s.cfg ∧ t.dev.stat = { s.dev.stat with flagsPaged := true } ∧
      t.hk = if s.dev.stat.flagsPaged = true then s.hk else { s.hk with brownOut := false, clockLoss := false }) ∧
    (∀ corrected badWords, s.dev.stat.memReady = false → exec (.patrolScrub corrected badWords) s = .next s) ∧
    (∀ corrected badWords, s.dev.stat.memReady = true → ∃ t, exec (.patrolScrub corrected badWords) s = .next t ∧
      t.dev.store.scrubRow = (s.dev.store.scrubRow + 1) % 32768 ∧ t.dev.stat.health[0] = satInc64 s.dev.stat.health[0] corrected ∧
      (∀ w, poisoned t.dev.store w = true ↔ poisoned s.dev.store w = true ∨ (wordRow w = s.dev.store.scrubRow ∧ (w ∈ s.dev.store.spoolBad ∨ ∃ a ∈ badWords, w = a % 2 ^ 36 / 32 * 32))) ∧
      t.dev.store.spool = s.dev.store.spool ∧ t.dev.store.yard = s.dev.store.yard ∧ t.dev.coll = s.dev.coll ∧ t.dev.pegs = s.dev.pegs ∧ t.dev.recov = s.dev.recov ∧
      ∀ p r, ringAt t.dev p r = ringAt s.dev p r) ∧
    (∀ tj, exec (.tjSample tj) s = .next { s with dev := { s.dev with stat := { s.dev.stat with tj := tj } } })

/-- R86, R88, R251, R504, R522, R569, R583, R617, R708: a crossing queue that stalls takes a leaf link down, or halts the unit without setting the flags of R179. An uncorrectable error counts, is a fault of the leaf (class 04h) or of the unit (05h), and ends with CHECK_ERROR what was reading the word; a Spool word is poisoned, a yard word takes its blocks out of the directory. A saved peg's word, and a tenant's word that no running descriptor adds to, waits for the read that meets it (log 102). A peg's word that cannot be read is marked bad, and its value is used no more; a corrected error is counted, and changes nothing else (R387). An instance without descriptors here that meets an error sends and writes nothing of it. Which running descriptor of an island meets an error is a free value (log 12). -/
def Obligations.StallsAndErrorsThisUnitFinds : Prop :=
  ∀ s : State, alive s = true →
    let hit (x : Run) : Run := { x with status := 0x22, finished := true, metFault := true }
    let some_ (D : Dev) (ok : LPort → Bool) : Prop := ∀ (p : LPort) (r : RingNo),
      (ringAt D p r).cur = (ringAt s.dev p r).cur ∨ ∃ x, (ringAt s.dev p r).cur = some x ∧ x.finished = false ∧ ok p = true ∧ (ringAt D p r).cur = some (hit x)
    let waits (a : Nat) : Prop := savedPegWord s.cfg s.dev (a / 32 * 32) = true ∨ (8192 * 1048576 ≤ a ∧ regionRuns s.cfg s.dev (a / 32 * 32) = [])
    (∀ p : LPort, s.dev.lem[p].phase = .up → exec (.crossingQueueStall (.leaf p)) s = .next { s with dev := epilogue s.cfg (lemDown s.cfg (bumpHealth s.dev 5) p) }) ∧
    (∀ p : LPort, s.dev.lem[p].phase ≠ .up → exec (.crossingQueueStall (.leaf p)) s = .next s) ∧
    (∀ island, (∀ p, island ≠ .leaf p) → ∃ d, exec (.crossingQueueStall island) s = .next { s with dev := d } ∧ Discarded d ∧
      d.stat = { Stat.reset with halted := true, faultN := true } ∧ ∀ i : TPort, d.trl[i].lastLinkDown = (if s.dev.trl[i].linkUp then 2 else 0) ∧
        d.trl[i].parting = if s.dev.trl[i].linkUp then linkDownBytes (ownAddr s.dev) s.dev.trl[i] 2 else []) ∧
    (∀ p : LPort, ∃ D, exec (.checkBitError (.leafIsland p)) s = .next { s with dev := epilogue s.cfg D } ∧ D.recov.due = s.dev.recov.due ++ [(4, p.val)] ∧
      D.stat.health[4] = satInc64 s.dev.stat.health[4] 1 ∧ some_ D (· == p)) ∧
    (∃ D, exec (.checkBitError .otherIsland) s = .next { s with dev := epilogue s.cfg D } ∧ D.recov.due = s.dev.recov.due ++ [(5, 0)] ∧
      D.stat.health[4] = satInc64 s.dev.stat.health[4] 1 ∧ (some_ D fun _ => true) ∧
      (D.coll.insts = s.dev.coll.insts ∨ ∃ x ∈ s.dev.coll.insts, x.runs = [] ∧ D.coll.insts = s.dev.coll.insts.map fun y => if y.tenant = x.tenant ∧ y.coll = x.coll then { y with spoiled := true } else y)) ∧
    (∀ k : W16, ∃ D, exec (.checkBitError (.poolPeg k)) s = .next { s with dev := epilogue s.cfg D } ∧ D.recov.due = s.dev.recov.due ++ [(5, 0)] ∧
      D.stat.health[4] = satInc64 s.dev.stat.health[4] 1 ∧ D.coll = s.dev.coll ∧ D.pegs = { s.dev.pegs with bad := D.pegs.bad } ∧ (∀ n, n ∈ D.pegs.bad ↔ n ∈ s.dev.pegs.bad ∨ n = k.toNat) ∧
      ∀ p r, ringAt D p r = ringAt s.dev p r) ∧
    (∀ (site : ErrSite) (n : Fin 7), (site, n) ∈ [(ErrSite.spoolCorrected, 0), (.yardCorrected, 2), (.otherCorrected, 6)] → ∃ D,
      exec (.checkBitError site) s = .next { s with dev := epilogue s.cfg D } ∧ D.stat.health[n] = satInc64 s.dev.stat.health[n] 1 ∧ (∀ m : Fin 7, m ≠ n → D.stat.health[m] = s.dev.stat.health[m]) ∧
      D.store = s.dev.store ∧ D.coll = s.dev.coll ∧ D.pegs = s.dev.pegs ∧ D.recov = s.dev.recov ∧ ∀ p r, ringAt D p r = ringAt s.dev p r) ∧
    (∀ a, 2 ^ 36 ≤ a → exec (.checkBitError (.spool a)) s = .next { s with dev := epilogue s.cfg s.dev }) ∧
    (∀ a, a < 2 ^ 36 → waits a → ∃ D, exec (.checkBitError (.spool a)) s = .next { s with dev := epilogue s.cfg D } ∧
      D = { s.dev with store := { s.dev.store with spoolBad := D.store.spoolBad } } ∧ ∀ w, w ∈ D.store.spoolBad ↔ w ∈ s.dev.store.spoolBad ∨ w = a / 32 * 32) ∧
    (∀ a, a < 2 ^ 36 → ¬waits a → ∃ D, exec (.checkBitError (.spool a)) s = .next { s with dev := epilogue s.cfg D } ∧
      D.recov.due = s.dev.recov.due ++ [(5, 0)] ∧ D.stat.health[1] = satInc64 s.dev.stat.health[1] 1 ∧ poisoned D.store (a / 32 * 32) = true ∧
      (∀ p r x, (p, r) ∈ regionRuns s.cfg s.dev (a / 32 * 32) → (ringAt s.dev p r).cur = some x →
        ∃ y, (ringAt D p r).cur = some y ∧ y.finished = true ∧ y.status = 0x22 ∧ y.metFault = true ∧ y.index = x.index)) ∧
    (∀ a, 192 * 1048576 ≤ a → exec (.checkBitError (.yard a)) s = .next { s with dev := epilogue s.cfg s.dev }) ∧
    (∀ a, a < 192 * 1048576 → ∃ D, exec (.checkBitError (.yard a)) s = .next { s with dev := epilogue s.cfg D } ∧
      D.recov.due = s.dev.recov.due ++ [(5, 0)] ∧ D.stat.health[3] = satInc64 s.dev.stat.health[3] 1 ∧ D.store.dir = (dropBadBlocks s.cfg s.dev (a / 32 * 32)).store.dir)

/-- R105 to R108, R112, R178, R660 to R663: the public instructions. Test-Logic-Reset selects IDCODE, which captures 17A646BBh or 17A656BBh. SAMPLE/PRELOAD captures the 39 cells and loads them at any moment; EXTEST, CLAMP and HIGHZ take the pins only while a reset input is asserted or the rails rise, and are executed as BYPASS at any other moment, whose one bit captures 0. Without VDD_IO none does anything. -/
def Obligations.PublicTapInstructions : Prop :=
  ∀ s : State,
    let held (ir : Byte) (dr : List Bool) (drive : PinDrive) : State := { s with hk := { s.hk with tapIr := ir, tapDr := dr, pinDrive := drive } }
    let free : Prop := s.hk.resetPin = true ∨ s.hk.chainPin = true ∨ s.hk.railsRising = true
    let cells (dr : List Bool) : Prop := dr.length = 39 ∧ dr[2]? = some s.hk.railsRising ∧ dr[4]? = some s.dev.line.assertA ∧ dr[6]? = some s.dev.line.assertB ∧
      dr[8]? = some s.dev.stat.faultN ∧ dr[9]? = some s.dev.stat.ready ∧ dr[18]? = some true ∧ ∀ p : LPort, dr[10 + p.val]? = some s.dev.lem[p].portact
    (s.hk.vddIo = true →
      exec .tapReset s = .next (held 2 [] .none) ∧ exec .bypass s = .next (held 0xFF [false] .none) ∧
      exec .idcode s = .next (held 2 ((List.range 32).map fun i => (if s.hk.codeX then 0x17A656BB#32 else 0x17A646BB#32).getLsbD i) .none) ∧
      (∀ sample drive, ∃ dr, exec (.samplePreload sample drive) s = .next { s with hk := { s.hk with tapIr := 1, tapDr := dr, pinDrive := .none, boundary := drive } } ∧
        cells dr ∧ ∀ i ∈ [0, 1, 3, 5, 7] ++ (List.range 20).map (· + 19), dr[i]? = some (sample.getLsbD i)) ∧
      (free → exec .clamp s = .next (held 3 [false] .clamp) ∧ exec .highz s = .next (held 4 [false] .highz) ∧
        ∀ drive, ∃ dr, cells dr ∧ exec (.extest drive) s = .next { s with hk := { s.hk with tapIr := 0, tapDr := dr, pinDrive := .extest, boundary := drive }, dev := { s.dev with free := s.dev.free + 1 } }) ∧
      (¬free → exec .clamp s = .next (held 3 [false] .none) ∧ exec .highz s = .next (held 4 [false] .none) ∧ ∀ drive, exec (.extest drive) s = .next (held 0 [false] .none))) ∧
    (s.hk.vddIo = false → ∀ c, c ∈ [Instr.tapReset, .bypass, .idcode, .clamp, .highz] ∨ (∃ a b, c = .samplePreload a b) ∨ (∃ a, c = .extest a) → exec c s = .next s)

/-- R150, R662, R675: while debug is closed, every private instruction is executed as BYPASS: it captures one 0 and changes nothing but what the test access port holds. R274, R550, R542, R558, R664 to R670: the private instructions where debug is open. DBG_STATUS captures the unit's state; DBG_ADDR loads the address and starts its read; DBG_READ captures busy, the result, or a read of nothing, and its Update-DR goes on, one step further unless busy was captured. A read changes nothing else; one captured before any address was loaded reads as of nothing (log 62). A hand operation changes the peg, judged like any other change, and counts, saturating; a tally operation on a peg whose word is bad only counts (log 93); an open barrier phase ends with its count peg 0. DBG_LOOP takes a port that is not up while the unit waits at step 10 or is stopped, and leaves it silent. -/
def Obligations.PrivateInstructions : Prop :=
  (∀ (c : Instr) (s : State), privateRow c = true → debugOpen s = false →
    ∃ ir : Byte, 0x40 ≤ ir ∧ ir ≤ 0x44 ∧ exec c s = .next (if s.hk.vddIo = true then { s with hk := { s.hk with tapIr := ir, tapDr := [false], pinDrive := .none } } else s)) ∧
  (∀ s : State, debugOpen s = true →
    let held (ir : Byte) (dr : List Bool) (D : Dev) : Host.Outcome State Fault Refusal := .next { s with hk := { s.hk with tapIr := ir, tapDr := dr, pinDrive := .none }, dev := D }
    let bits (v : BitVec 288) : List Bool := (List.range 288).map v.getLsbD
    let x := s.dev.dbg
    let more : W16 := if x.handOps = 0xFFFF then 0xFFFF else x.handOps + 1
    (∃ v : BitVec 64, exec .dbgStatus s = held 0x40 ((List.range 64).map v.getLsbD) s.dev ∧
      (ownAddr s.dev < 64 → v.toNat = 1 + 2 * b2n s.dev.stat.ready + 4 * b2n s.dev.stat.faultN + 8 * b2n s.dev.stat.stop.isSome + 2 ^ 8 * (s.dev.stat.stop.map stopNat).getD 0 +
        2 ^ 16 * ownAddr s.dev + 2 ^ 22 * b2n s.dev.sow.formed + 2 ^ 32 * x.handOps.toNat)) ∧
    (∀ a, exec (.dbgAddr a) s = held 0x41 [] { s.dev with dbg := { x with addr := a, started := true, busy := true, result := 0 } }) ∧
    (∀ update, ∃ D, exec (.dbgRead update) s = held 0x42 (bits (if x.started = false then BitVec.ofNat 288 (2 ^ 260) else if x.busy = true then BitVec.ofNat 288 (2 ^ 259) else x.result)) D ∧
      (update = false → D = s.dev) ∧
      (update = true → ∃ a, D = { s.dev with dbg := { x with addr := a, started := true, busy := true, result := 0 } } ∧
        a.toNat = if x.busy = true then x.addr.toNat else
          2 ^ 56 * (x.addr.toNat / 2 ^ 56) + (x.addr.toNat % 2 ^ 56 + if x.addr.toNat / 2 ^ 56 = 1 ∨ x.addr.toNat / 2 ^ 56 = 2 then 32 else 1) % 2 ^ 56)) ∧
    (∀ cor unc, (x.busy = false → exec (.dbgReadDone cor unc) s = .next s) ∧
      (x.busy = true → ∃ v, exec (.dbgReadDone cor unc) s = .next { s with dev := { s.dev with free := s.dev.free + 1, dbg := { x with busy := false, result := v } } } ∧
        (9 < x.addr.toNat / 2 ^ 56 ∨ x.addr.toNat / 2 ^ 56 = 0 → v = BitVec.ofNat 288 (2 ^ 260)) ∧
        (x.addr.toNat / 2 ^ 56 = 3 → x.addr.toNat % 2 ^ 56 < 65536 → v.toNat / 2 ^ 256 % 8 = b2n cor + 2 * b2n unc ∧
          v.toNat % 65536 = if unc then 0 else (poolPeg s.dev (x.addr.toNat % 2 ^ 56)).toNat) ∧
        (x.addr.toNat / 2 ^ 56 = 3 → 65536 ≤ x.addr.toNat % 2 ^ 56 → v = BitVec.ofNat 288 (2 ^ 260)))) ∧
    (∀ (h : BitVec 2) (k v : W16) (c : Instr) (g : W16 → W16) (tally : Bool), (c, g, tally) ∈ [(Instr.handSet h k, (fun _ => 1), false), (.handClear h k, (fun _ => 0), false),
        (.handTallyAdd h k v, (fun y => (pegApply 3 y v).1), true), (.handTallyTake h k v, (fun y => (pegApply 4 y v).1), true), (.handWriteValue h k v, (fun _ => v), false)] →
      (h = 0 → tally = true → k.toNat ∈ s.dev.pegs.bad → exec c s = held 0x43 [] { s.dev with dbg := { x with handOps := more } }) ∧
      (h = 0 → (tally = false ∨ k.toNat ∉ s.dev.pegs.bad) → ∃ D, exec c s = held 0x43 [] (epilogue s.cfg D) ∧ D.dbg.handOps = more ∧ D.pegs.pool = spWrite s.dev.pegs.pool k.toNat (g (poolPeg s.dev k.toNat)) ∧ D.pegs.phases = s.dev.pegs.phases) ∧
      (∀ hk : k.toNat < 6144, h = 1 → exec c s = held 0x43 [] { modP s.dev (fin8 (k.toNat / 768)) (fun y => { y with pocket := spWrite y.pocket (k.toNat % 768) (g (spRead y.pocket (k.toNat % 768))) }) with dbg := { x with handOps := more } }) ∧
      (h = 2 ∨ h = 3 ∨ (h = 1 ∧ 6144 ≤ k.toNat) → exec c s = held 0x43 [] s.dev)) ∧
    (∀ (h : BitVec 2) (k : W16), (∀ ph, h = 0 → (s.dev.pegs.phases.find? fun y => y.peg == k.toNat) = some ph →
        ∃ D, exec (.handEndBarrierPhase h k) s = held 0x43 [] (epilogue s.cfg D) ∧ D.dbg.handOps = more ∧ D.pegs.pool = spWrite s.dev.pegs.pool k.toNat 0 ∧
          D.pegs.phases = s.dev.pegs.phases.filter fun y => !(decide (y.peg = k.toNat) && decide (y.tenant = ph.tenant))) ∧
      (h ≠ 0 ∨ (s.dev.pegs.phases.find? fun y => y.peg == k.toNat) = none → exec (.handEndBarrierPhase h k) s = held 0x43 [] s.dev)) ∧
    (∀ l : BitVec 3, (l.toNat < 6 → mayLoop s.dev (fin6 l.toNat) = true → exec (.dbgLoopEnter l) s = held 0x44 [] (modT s.dev (fin6 l.toNat) fun y => { y with
        loopLeader := true, looped := true, loopFollower := false, loopBits := List.replicate 16 0, loopErrors := List.replicate 16 0 })) ∧
      (6 ≤ l.toNat ∨ mayLoop s.dev (fin6 l.toNat) = false → exec (.dbgLoopEnter l) s = held 0x44 [] s.dev) ∧
      (l.toNat < 6 → s.dev.trl[fin6 l.toNat].loopLeader = true →
        exec (.dbgLoopLeave l) s = held 0x44 [] (tryStep10 s.cfg s.hk.dieSerial (modT s.dev (fin6 l.toNat) fun y => { y with st := .silent, loopLeader := false }))) ∧
      (6 ≤ l.toNat ∨ s.dev.trl[fin6 l.toNat].loopLeader = false → exec (.dbgLoopLeave l) s = held 0x44 [] s.dev)))

/-! ## Pegs and addresses as values, frames as bytes, and what every step keeps -/

/-- R542: the four peg operations on a value v: set gives 0001h and clear 0000h, with no exception; a tally add gives min(v + a, FFFFh), with TALLY_OVERFLOW (code 2) where v + a > FFFFh; a tally take gives max(v - a, 0), with TALLY_UNDERFLOW (code 3) where a > v. An amount of 0 changes nothing and raises nothing. A peg reads set where its value is not 0, and reads clear where it is 0. -/
def Obligations.PegOperationsActAsTabled : Prop :=
  ∀ v a : W16,
    pegApply 1 v a = (0x0001, 0) ∧ pegApply 2 v a = (0x0000, 0) ∧
    (pegApply 3 v a).1.toNat = min (v.toNat + a.toNat) 0xFFFF ∧ (pegApply 3 v a).2 = (if 0xFFFF < v.toNat + a.toNat then 2 else 0) ∧
    (pegApply 4 v a).1.toNat = max (v.toNat - a.toNat) 0 ∧ (pegApply 4 v a).2 = (if v.toNat < a.toNat then 3 else 0) ∧
    pegApply 3 v 0 = (v, 0) ∧ pegApply 4 v 0 = (v, 0) ∧
    (condHolds 0 v a = true ↔ v ≠ 0) ∧ (condHolds 1 v a = true ↔ v = 0)

/-- R192: a unit at (x, y, z) has the address x + n_X · y + n_X · n_Y · z; addresses run densely from 0 to n_X · n_Y · n_Z - 1; the ORIGIN unit has address 0, a configuration in which it could not being a stop (R132); under LVL_DIMS code 0 the address is 0. R193: along axis A, a unit's A+ port faces the unit at (k + 1) mod n_A and its A- port the one at (k - 1) mod n_A, its other two coordinates its own. -/
def Obligations.AddressesAreDenseAndPortsFaceTheirAxisRing : Prop :=
  (∀ (d : Dims) (p : Pos), addrOf d p = p.x + d.nx * p.y + d.nx * d.ny * p.z) ∧
  (∀ (d : Dims) (p : Pos), p.x < d.nx → p.y < d.ny → p.z < d.nz → addrOf d p < d.nx * d.ny * d.nz ∧ posOf d (addrOf d p) = p) ∧
  (∀ (d : Dims) (a : Nat), a < d.nx * d.ny * d.nz →
    (posOf d a).x < d.nx ∧ (posOf d a).y < d.ny ∧ (posOf d a).z < d.nz ∧ addrOf d (posOf d a) = a) ∧
  (∀ (volts : List PinVolts) (straps : BitVec 4) (rsvdG : W16) (blown takes : Bool) (d : Dims), straps.getLsbD 0 = true →
    (latchCfg volts straps rsvdG blown takes).stop = none → addrOf d (initialSow (latchCfg volts straps rsvdG blown takes)).pos = 0) ∧
  (∀ (c : Cfg) (d : Dev), code c 2 = 0 → d.sow = initialSow c → d.sow.formed = true ∧ ownAddr d = 0) ∧
  (∀ (d : Dims) (a ax : Nat), a < d.nx * d.ny * d.nz → ax < 3 →
    let p := posOf d a
    let n := dimOf d ax
    posOf d (facing d a (2 * ax)) = setCoord p ax ((coordOf p ax + 1) % n) ∧
    posOf d (facing d a (2 * ax + 1)) = setCoord p ax ((coordOf p ax + n - 1) % n) ∧
    facing d (facing d a (2 * ax)) (facingPort (2 * ax)) = a)

/-- R224, R225, R275, R276: a Trellis frame is 256 bytes, and whatever this unit builds, a unit reads back: every header field, the payload, the channel and the value of the credit return, the number and the acknowledgement of the tail, with a CRC that matches and no reserved bit at 1. What the FEC bytes hold is a free value (log 7), of which none of this depends. -/
def Obligations.TrellisFramesReadBack : Prop :=
  ∀ (f : TrlFrame) (sel credit : Nat) (seq : Option (BitVec 12)) (ack : BitVec 12) (nack : Bool),
    f.payload.length ≤ 224 → sel < 8 → credit < 256 →
    let bs := withTail (trlBody f sel credit) seq ack nack
    bs.length = 256 ∧ parseTrl bs = f ∧ byteAt bs 3 = sel ∧ byteAt bs 4 = credit ∧ crcOk bs = true ∧
    parseTail bs = { seq := seq.getD 0, seqd := seq.isSome, ack := ack, ackValid := true, nack := nack, reservedOk := true } ∧
    (∀ k, 16 + f.payload.length ≤ k → k < 0xF0 → byteAt bs k = 0) ∧
    (trlContentOk f = true → seq.isSome = true → f.kind ≠ 0 → trlFieldsOk bs = true)

/-- What every step keeps: Spool, yard, pool pegs and pocket pegs in their one canonical form (log 13); on every link, at most 1,024 held frames, numbered one after another up to the last one sent, and only held frames in a replay (R231, R234, R235); and the debug lock: debug is open only under a latched configuration with DBG_EN and DBG_LOCK_N at 1 and an intact fuse (R150, R151). -/
def Obligations.SoundIsKeptByEveryStep : Prop :=
  ∀ s t : State, step s = .next t → Sound s.dev → debugLock s → Sound t.dev ∧ debugLock t
end

