-- ==== Sys2Proof/Laws/Bytes.lean ====
section
/-! SUPPORT. Little-endian fields read back what was written, and stay within their width; a frame that this unit builds has a CRC that matches. -/
namespace Sys2Proof.Machine
open Sys2Proof

theorem leNat_lt (bs : List Byte) : ∀ off n : Nat, leNat bs off n < 256 ^ n
  | _, 0 => Nat.one_pos
  | off, n + 1 => by
    have h := leNat_lt bs (off + 1) n
    have hb := (bs.getD off 0).isLt
    unfold leNat
    rw [Nat.pow_succ]
    omega

theorem toLe_length (n : Nat) : ∀ v : Nat, (toLe v n).length = n := by
  induction n with
  | zero => intro v; rfl
  | succ n ih => intro v; rw [toLe, List.length_cons, ih]

/-- A field inside the first part of an append. -/
theorem leNat_append_left (a b : List Byte) : ∀ n off : Nat, off + n ≤ a.length → leNat (a ++ b) off n = leNat a off n := by
  intro n
  induction n with
  | zero => intro off _; rfl
  | succ n ih =>
    intro off h
    unfold leNat
    rw [ih (off + 1) (by omega), List.getD_append _ _ _ _ (by omega)]

/-- A field past the first part of an append. -/
theorem leNat_append_right (a b : List Byte) : ∀ n off : Nat, a.length ≤ off → leNat (a ++ b) off n = leNat b (off - a.length) n := by
  intro n
  induction n with
  | zero => intro off _; rfl
  | succ n ih =>
    intro off h
    unfold leNat
    rw [ih (off + 1) (by omega), List.getD_append_right _ _ _ _ h, show off + 1 - a.length = off - a.length + 1 by omega]

/-- A field written whole reads back, modulo its width. -/
theorem leNat_toLe (n : Nat) : ∀ v : Nat, ∀ rest : List Byte, leNat (toLe v n ++ rest) 0 n = v % 256 ^ n := by
  induction n with
  | zero => intro v rest; simp [leNat, Nat.mod_one]
  | succ n ih =>
    intro v rest
    unfold leNat
    rw [toLe]
    have h : ∀ (x : Byte) (l : List Byte) (k off : Nat), leNat (x :: l) (off + 1) k = leNat l off k := by
      intro x l k
      induction k with
      | zero => intro off; rfl
      | succ k ihk => intro off; unfold leNat; rw [ihk (off + 1), List.getD_cons_succ]
    rw [List.cons_append, h, ih, List.getD_cons_zero, BitVec.toNat_ofNat]
    have e : 256 ^ (n + 1) = 256 * 256 ^ n := by rw [Nat.pow_succ]; omega
    rw [e, Nat.mod_mul]

/-- Padding gives the length asked for. -/
theorem padTo_length (n : Nat) (bs : List Byte) : (padTo n bs).length = n := by
  unfold padTo; simp [zeros]; omega

/-- 246 bytes, their CRC, and 6 more bytes: the CRC matches. -/
theorem crcOk_append (B F : List Byte) (hl : B.length = 246) (hF : F.length = 6) : crcOk (B ++ toLe (crc32c B).toNat 4 ++ F) = true := by
  have := (crc32c B).isLt
  unfold crcOk
  rw [List.append_assoc, List.take_append_of_le_length (by omega), List.take_of_length_le (by omega), leNat_append_right _ _ _ _ (by omega), hl,
    show (0xF6 : Nat) - 246 = 0 by omega, leNat_toLe, Nat.mod_eq_of_lt (by omega)]
  simp [hl, hF, toLe_length]

/-- A frame as this unit builds it has a CRC that matches (R225). -/
theorem withTail_crcOk (hp : List Byte) (seq : Option (BitVec 12)) (ack : BitVec 12) (nack : Bool) : crcOk (withTail hp seq ack nack) = true := by
  cases seq <;> exact crcOk_append _ _ (by simp [padTo_length, toLe_length]) (by simp)

end Sys2Proof.Machine
end

