-- ==== Sys2Proof/Laws/State.lean ====
section
/-! SUPPORT. One lemma for each field under each primitive change of the state, true by definition, and what the changed part becomes. No proof unfolds a record update. -/
namespace Sys2Proof.Machine
open Sys2Proof

/-! ### modP -/

@[simp] theorem modP_stat (d : Dev) (p : LPort) (f : LemPort → LemPort) : (modP d p f).stat = d.stat := rfl
@[simp] theorem modP_trl (d : Dev) (p : LPort) (f : LemPort → LemPort) : (modP d p f).trl = d.trl := rfl
@[simp] theorem modP_sow (d : Dev) (p : LPort) (f : LemPort → LemPort) : (modP d p f).sow = d.sow := rfl
@[simp] theorem modP_pegs (d : Dev) (p : LPort) (f : LemPort → LemPort) : (modP d p f).pegs = d.pegs := rfl
@[simp] theorem modP_line (d : Dev) (p : LPort) (f : LemPort → LemPort) : (modP d p f).line = d.line := rfl
@[simp] theorem modP_coll (d : Dev) (p : LPort) (f : LemPort → LemPort) : (modP d p f).coll = d.coll := rfl
@[simp] theorem modP_store (d : Dev) (p : LPort) (f : LemPort → LemPort) : (modP d p f).store = d.store := rfl
@[simp] theorem modP_recov (d : Dev) (p : LPort) (f : LemPort → LemPort) : (modP d p f).recov = d.recov := rfl
@[simp] theorem modP_dbg (d : Dev) (p : LPort) (f : LemPort → LemPort) : (modP d p f).dbg = d.dbg := rfl
@[simp] theorem modP_free (d : Dev) (p : LPort) (f : LemPort → LemPort) : (modP d p f).free = d.free := rfl

/-! ### modR -/

@[simp] theorem modR_stat (d : Dev) (p : LPort) (r : RingNo) (f : Ring → Ring) : (modR d p r f).stat = d.stat := rfl
@[simp] theorem modR_trl (d : Dev) (p : LPort) (r : RingNo) (f : Ring → Ring) : (modR d p r f).trl = d.trl := rfl
@[simp] theorem modR_sow (d : Dev) (p : LPort) (r : RingNo) (f : Ring → Ring) : (modR d p r f).sow = d.sow := rfl
@[simp] theorem modR_pegs (d : Dev) (p : LPort) (r : RingNo) (f : Ring → Ring) : (modR d p r f).pegs = d.pegs := rfl
@[simp] theorem modR_line (d : Dev) (p : LPort) (r : RingNo) (f : Ring → Ring) : (modR d p r f).line = d.line := rfl
@[simp] theorem modR_coll (d : Dev) (p : LPort) (r : RingNo) (f : Ring → Ring) : (modR d p r f).coll = d.coll := rfl
@[simp] theorem modR_store (d : Dev) (p : LPort) (r : RingNo) (f : Ring → Ring) : (modR d p r f).store = d.store := rfl
@[simp] theorem modR_recov (d : Dev) (p : LPort) (r : RingNo) (f : Ring → Ring) : (modR d p r f).recov = d.recov := rfl
@[simp] theorem modR_dbg (d : Dev) (p : LPort) (r : RingNo) (f : Ring → Ring) : (modR d p r f).dbg = d.dbg := rfl
@[simp] theorem modR_free (d : Dev) (p : LPort) (r : RingNo) (f : Ring → Ring) : (modR d p r f).free = d.free := rfl

/-! ### modRun -/

@[simp] theorem modRun_stat (d : Dev) (p : LPort) (r : RingNo) (f : Run → Run) : (modRun d p r f).stat = d.stat := rfl
@[simp] theorem modRun_trl (d : Dev) (p : LPort) (r : RingNo) (f : Run → Run) : (modRun d p r f).trl = d.trl := rfl
@[simp] theorem modRun_sow (d : Dev) (p : LPort) (r : RingNo) (f : Run → Run) : (modRun d p r f).sow = d.sow := rfl
@[simp] theorem modRun_pegs (d : Dev) (p : LPort) (r : RingNo) (f : Run → Run) : (modRun d p r f).pegs = d.pegs := rfl
@[simp] theorem modRun_line (d : Dev) (p : LPort) (r : RingNo) (f : Run → Run) : (modRun d p r f).line = d.line := rfl
@[simp] theorem modRun_coll (d : Dev) (p : LPort) (r : RingNo) (f : Run → Run) : (modRun d p r f).coll = d.coll := rfl
@[simp] theorem modRun_store (d : Dev) (p : LPort) (r : RingNo) (f : Run → Run) : (modRun d p r f).store = d.store := rfl
@[simp] theorem modRun_recov (d : Dev) (p : LPort) (r : RingNo) (f : Run → Run) : (modRun d p r f).recov = d.recov := rfl
@[simp] theorem modRun_dbg (d : Dev) (p : LPort) (r : RingNo) (f : Run → Run) : (modRun d p r f).dbg = d.dbg := rfl
@[simp] theorem modRun_free (d : Dev) (p : LPort) (r : RingNo) (f : Run → Run) : (modRun d p r f).free = d.free := rfl

/-! ### modHead -/

@[simp] theorem modHead_stat (d : Dev) (p : LPort) (r : RingNo) (f : Head → Head) : (modHead d p r f).stat = d.stat := rfl
@[simp] theorem modHead_trl (d : Dev) (p : LPort) (r : RingNo) (f : Head → Head) : (modHead d p r f).trl = d.trl := rfl
@[simp] theorem modHead_sow (d : Dev) (p : LPort) (r : RingNo) (f : Head → Head) : (modHead d p r f).sow = d.sow := rfl
@[simp] theorem modHead_pegs (d : Dev) (p : LPort) (r : RingNo) (f : Head → Head) : (modHead d p r f).pegs = d.pegs := rfl
@[simp] theorem modHead_line (d : Dev) (p : LPort) (r : RingNo) (f : Head → Head) : (modHead d p r f).line = d.line := rfl
@[simp] theorem modHead_coll (d : Dev) (p : LPort) (r : RingNo) (f : Head → Head) : (modHead d p r f).coll = d.coll := rfl
@[simp] theorem modHead_store (d : Dev) (p : LPort) (r : RingNo) (f : Head → Head) : (modHead d p r f).store = d.store := rfl
@[simp] theorem modHead_recov (d : Dev) (p : LPort) (r : RingNo) (f : Head → Head) : (modHead d p r f).recov = d.recov := rfl
@[simp] theorem modHead_dbg (d : Dev) (p : LPort) (r : RingNo) (f : Head → Head) : (modHead d p r f).dbg = d.dbg := rfl
@[simp] theorem modHead_free (d : Dev) (p : LPort) (r : RingNo) (f : Head → Head) : (modHead d p r f).free = d.free := rfl

/-! ### pushTx -/

@[simp] theorem pushTx_stat (d : Dev) (p : LPort) (l : List TxItem) : (pushTx d p l).stat = d.stat := rfl
@[simp] theorem pushTx_trl (d : Dev) (p : LPort) (l : List TxItem) : (pushTx d p l).trl = d.trl := rfl
@[simp] theorem pushTx_sow (d : Dev) (p : LPort) (l : List TxItem) : (pushTx d p l).sow = d.sow := rfl
@[simp] theorem pushTx_pegs (d : Dev) (p : LPort) (l : List TxItem) : (pushTx d p l).pegs = d.pegs := rfl
@[simp] theorem pushTx_line (d : Dev) (p : LPort) (l : List TxItem) : (pushTx d p l).line = d.line := rfl
@[simp] theorem pushTx_coll (d : Dev) (p : LPort) (l : List TxItem) : (pushTx d p l).coll = d.coll := rfl
@[simp] theorem pushTx_store (d : Dev) (p : LPort) (l : List TxItem) : (pushTx d p l).store = d.store := rfl
@[simp] theorem pushTx_recov (d : Dev) (p : LPort) (l : List TxItem) : (pushTx d p l).recov = d.recov := rfl
@[simp] theorem pushTx_dbg (d : Dev) (p : LPort) (l : List TxItem) : (pushTx d p l).dbg = d.dbg := rfl
@[simp] theorem pushTx_free (d : Dev) (p : LPort) (l : List TxItem) : (pushTx d p l).free = d.free := rfl

/-! ### wantRead -/

@[simp] theorem wantRead_stat (d : Dev) (p : LPort) (w : ReadWant) : (wantRead d p w).stat = d.stat := rfl
@[simp] theorem wantRead_trl (d : Dev) (p : LPort) (w : ReadWant) : (wantRead d p w).trl = d.trl := rfl
@[simp] theorem wantRead_sow (d : Dev) (p : LPort) (w : ReadWant) : (wantRead d p w).sow = d.sow := rfl
@[simp] theorem wantRead_pegs (d : Dev) (p : LPort) (w : ReadWant) : (wantRead d p w).pegs = d.pegs := rfl
@[simp] theorem wantRead_line (d : Dev) (p : LPort) (w : ReadWant) : (wantRead d p w).line = d.line := rfl
@[simp] theorem wantRead_coll (d : Dev) (p : LPort) (w : ReadWant) : (wantRead d p w).coll = d.coll := rfl
@[simp] theorem wantRead_store (d : Dev) (p : LPort) (w : ReadWant) : (wantRead d p w).store = d.store := rfl
@[simp] theorem wantRead_recov (d : Dev) (p : LPort) (w : ReadWant) : (wantRead d p w).recov = d.recov := rfl
@[simp] theorem wantRead_dbg (d : Dev) (p : LPort) (w : ReadWant) : (wantRead d p w).dbg = d.dbg := rfl
@[simp] theorem wantRead_free (d : Dev) (p : LPort) (w : ReadWant) : (wantRead d p w).free = d.free := rfl

/-! ### dropReads -/

@[simp] theorem dropReads_stat (d : Dev) (p : LPort) (r : RingNo) (f : ReadWhy → Bool) : (dropReads d p r f).stat = d.stat := rfl
@[simp] theorem dropReads_trl (d : Dev) (p : LPort) (r : RingNo) (f : ReadWhy → Bool) : (dropReads d p r f).trl = d.trl := rfl
@[simp] theorem dropReads_sow (d : Dev) (p : LPort) (r : RingNo) (f : ReadWhy → Bool) : (dropReads d p r f).sow = d.sow := rfl
@[simp] theorem dropReads_pegs (d : Dev) (p : LPort) (r : RingNo) (f : ReadWhy → Bool) : (dropReads d p r f).pegs = d.pegs := rfl
@[simp] theorem dropReads_line (d : Dev) (p : LPort) (r : RingNo) (f : ReadWhy → Bool) : (dropReads d p r f).line = d.line := rfl
@[simp] theorem dropReads_coll (d : Dev) (p : LPort) (r : RingNo) (f : ReadWhy → Bool) : (dropReads d p r f).coll = d.coll := rfl
@[simp] theorem dropReads_store (d : Dev) (p : LPort) (r : RingNo) (f : ReadWhy → Bool) : (dropReads d p r f).store = d.store := rfl
@[simp] theorem dropReads_recov (d : Dev) (p : LPort) (r : RingNo) (f : ReadWhy → Bool) : (dropReads d p r f).recov = d.recov := rfl
@[simp] theorem dropReads_dbg (d : Dev) (p : LPort) (r : RingNo) (f : ReadWhy → Bool) : (dropReads d p r f).dbg = d.dbg := rfl
@[simp] theorem dropReads_free (d : Dev) (p : LPort) (r : RingNo) (f : ReadWhy → Bool) : (dropReads d p r f).free = d.free := rfl

/-! ### modT -/

@[simp] theorem modT_stat (d : Dev) (i : TPort) (f : TrlPort → TrlPort) : (modT d i f).stat = d.stat := rfl
@[simp] theorem modT_lem (d : Dev) (i : TPort) (f : TrlPort → TrlPort) : (modT d i f).lem = d.lem := rfl
@[simp] theorem modT_sow (d : Dev) (i : TPort) (f : TrlPort → TrlPort) : (modT d i f).sow = d.sow := rfl
@[simp] theorem modT_pegs (d : Dev) (i : TPort) (f : TrlPort → TrlPort) : (modT d i f).pegs = d.pegs := rfl
@[simp] theorem modT_line (d : Dev) (i : TPort) (f : TrlPort → TrlPort) : (modT d i f).line = d.line := rfl
@[simp] theorem modT_coll (d : Dev) (i : TPort) (f : TrlPort → TrlPort) : (modT d i f).coll = d.coll := rfl
@[simp] theorem modT_store (d : Dev) (i : TPort) (f : TrlPort → TrlPort) : (modT d i f).store = d.store := rfl
@[simp] theorem modT_recov (d : Dev) (i : TPort) (f : TrlPort → TrlPort) : (modT d i f).recov = d.recov := rfl
@[simp] theorem modT_dbg (d : Dev) (i : TPort) (f : TrlPort → TrlPort) : (modT d i f).dbg = d.dbg := rfl
@[simp] theorem modT_free (d : Dev) (i : TPort) (f : TrlPort → TrlPort) : (modT d i f).free = d.free := rfl

/-! ### pushTrl -/

@[simp] theorem pushTrl_stat (d : Dev) (i : TPort) (o : Owner) (n : Nat) (f : TrlFrame) : (pushTrl d i o n f).stat = d.stat := rfl
@[simp] theorem pushTrl_lem (d : Dev) (i : TPort) (o : Owner) (n : Nat) (f : TrlFrame) : (pushTrl d i o n f).lem = d.lem := rfl
@[simp] theorem pushTrl_sow (d : Dev) (i : TPort) (o : Owner) (n : Nat) (f : TrlFrame) : (pushTrl d i o n f).sow = d.sow := rfl
@[simp] theorem pushTrl_pegs (d : Dev) (i : TPort) (o : Owner) (n : Nat) (f : TrlFrame) : (pushTrl d i o n f).pegs = d.pegs := rfl
@[simp] theorem pushTrl_line (d : Dev) (i : TPort) (o : Owner) (n : Nat) (f : TrlFrame) : (pushTrl d i o n f).line = d.line := rfl
@[simp] theorem pushTrl_coll (d : Dev) (i : TPort) (o : Owner) (n : Nat) (f : TrlFrame) : (pushTrl d i o n f).coll = d.coll := rfl
@[simp] theorem pushTrl_store (d : Dev) (i : TPort) (o : Owner) (n : Nat) (f : TrlFrame) : (pushTrl d i o n f).store = d.store := rfl
@[simp] theorem pushTrl_recov (d : Dev) (i : TPort) (o : Owner) (n : Nat) (f : TrlFrame) : (pushTrl d i o n f).recov = d.recov := rfl
@[simp] theorem pushTrl_dbg (d : Dev) (i : TPort) (o : Owner) (n : Nat) (f : TrlFrame) : (pushTrl d i o n f).dbg = d.dbg := rfl
@[simp] theorem pushTrl_free (d : Dev) (i : TPort) (o : Owner) (n : Nat) (f : TrlFrame) : (pushTrl d i o n f).free = d.free := rfl

/-! ### trlLinkUp -/

@[simp] theorem trlLinkUp_stat (d : Dev) (i : TPort) (h v : List Byte) : (trlLinkUp d i h v).stat = d.stat := rfl
@[simp] theorem trlLinkUp_lem (d : Dev) (i : TPort) (h v : List Byte) : (trlLinkUp d i h v).lem = d.lem := rfl
@[simp] theorem trlLinkUp_sow (d : Dev) (i : TPort) (h v : List Byte) : (trlLinkUp d i h v).sow = d.sow := rfl
@[simp] theorem trlLinkUp_pegs (d : Dev) (i : TPort) (h v : List Byte) : (trlLinkUp d i h v).pegs = d.pegs := rfl
@[simp] theorem trlLinkUp_line (d : Dev) (i : TPort) (h v : List Byte) : (trlLinkUp d i h v).line = d.line := rfl
@[simp] theorem trlLinkUp_coll (d : Dev) (i : TPort) (h v : List Byte) : (trlLinkUp d i h v).coll = d.coll := rfl
@[simp] theorem trlLinkUp_store (d : Dev) (i : TPort) (h v : List Byte) : (trlLinkUp d i h v).store = d.store := rfl
@[simp] theorem trlLinkUp_recov (d : Dev) (i : TPort) (h v : List Byte) : (trlLinkUp d i h v).recov = d.recov := rfl
@[simp] theorem trlLinkUp_dbg (d : Dev) (i : TPort) (h v : List Byte) : (trlLinkUp d i h v).dbg = d.dbg := rfl
@[simp] theorem trlLinkUp_free (d : Dev) (i : TPort) (h v : List Byte) : (trlLinkUp d i h v).free = d.free := rfl

/-! ### modS -/

@[simp] theorem modS_lem (d : Dev) (f : Stat → Stat) : (modS d f).lem = d.lem := rfl
@[simp] theorem modS_trl (d : Dev) (f : Stat → Stat) : (modS d f).trl = d.trl := rfl
@[simp] theorem modS_sow (d : Dev) (f : Stat → Stat) : (modS d f).sow = d.sow := rfl
@[simp] theorem modS_pegs (d : Dev) (f : Stat → Stat) : (modS d f).pegs = d.pegs := rfl
@[simp] theorem modS_line (d : Dev) (f : Stat → Stat) : (modS d f).line = d.line := rfl
@[simp] theorem modS_coll (d : Dev) (f : Stat → Stat) : (modS d f).coll = d.coll := rfl
@[simp] theorem modS_store (d : Dev) (f : Stat → Stat) : (modS d f).store = d.store := rfl
@[simp] theorem modS_recov (d : Dev) (f : Stat → Stat) : (modS d f).recov = d.recov := rfl
@[simp] theorem modS_dbg (d : Dev) (f : Stat → Stat) : (modS d f).dbg = d.dbg := rfl
@[simp] theorem modS_free (d : Dev) (f : Stat → Stat) : (modS d f).free = d.free := rfl

/-! ### modSow -/

@[simp] theorem modSow_stat (d : Dev) (f : Sow → Sow) : (modSow d f).stat = d.stat := rfl
@[simp] theorem modSow_lem (d : Dev) (f : Sow → Sow) : (modSow d f).lem = d.lem := rfl
@[simp] theorem modSow_trl (d : Dev) (f : Sow → Sow) : (modSow d f).trl = d.trl := rfl
@[simp] theorem modSow_pegs (d : Dev) (f : Sow → Sow) : (modSow d f).pegs = d.pegs := rfl
@[simp] theorem modSow_line (d : Dev) (f : Sow → Sow) : (modSow d f).line = d.line := rfl
@[simp] theorem modSow_coll (d : Dev) (f : Sow → Sow) : (modSow d f).coll = d.coll := rfl
@[simp] theorem modSow_store (d : Dev) (f : Sow → Sow) : (modSow d f).store = d.store := rfl
@[simp] theorem modSow_recov (d : Dev) (f : Sow → Sow) : (modSow d f).recov = d.recov := rfl
@[simp] theorem modSow_dbg (d : Dev) (f : Sow → Sow) : (modSow d f).dbg = d.dbg := rfl
@[simp] theorem modSow_free (d : Dev) (f : Sow → Sow) : (modSow d f).free = d.free := rfl

/-! ### modStore -/

@[simp] theorem modStore_stat (d : Dev) (f : Store → Store) : (modStore d f).stat = d.stat := rfl
@[simp] theorem modStore_lem (d : Dev) (f : Store → Store) : (modStore d f).lem = d.lem := rfl
@[simp] theorem modStore_trl (d : Dev) (f : Store → Store) : (modStore d f).trl = d.trl := rfl
@[simp] theorem modStore_sow (d : Dev) (f : Store → Store) : (modStore d f).sow = d.sow := rfl
@[simp] theorem modStore_pegs (d : Dev) (f : Store → Store) : (modStore d f).pegs = d.pegs := rfl
@[simp] theorem modStore_line (d : Dev) (f : Store → Store) : (modStore d f).line = d.line := rfl
@[simp] theorem modStore_coll (d : Dev) (f : Store → Store) : (modStore d f).coll = d.coll := rfl
@[simp] theorem modStore_recov (d : Dev) (f : Store → Store) : (modStore d f).recov = d.recov := rfl
@[simp] theorem modStore_dbg (d : Dev) (f : Store → Store) : (modStore d f).dbg = d.dbg := rfl
@[simp] theorem modStore_free (d : Dev) (f : Store → Store) : (modStore d f).free = d.free := rfl

/-! ### modInst -/

@[simp] theorem modInst_stat (d : Dev) (t : Tenant) (coll : W16) (f : Inst → Inst) : (modInst d t coll f).stat = d.stat := rfl
@[simp] theorem modInst_lem (d : Dev) (t : Tenant) (coll : W16) (f : Inst → Inst) : (modInst d t coll f).lem = d.lem := rfl
@[simp] theorem modInst_trl (d : Dev) (t : Tenant) (coll : W16) (f : Inst → Inst) : (modInst d t coll f).trl = d.trl := rfl
@[simp] theorem modInst_sow (d : Dev) (t : Tenant) (coll : W16) (f : Inst → Inst) : (modInst d t coll f).sow = d.sow := rfl
@[simp] theorem modInst_pegs (d : Dev) (t : Tenant) (coll : W16) (f : Inst → Inst) : (modInst d t coll f).pegs = d.pegs := rfl
@[simp] theorem modInst_line (d : Dev) (t : Tenant) (coll : W16) (f : Inst → Inst) : (modInst d t coll f).line = d.line := rfl
@[simp] theorem modInst_store (d : Dev) (t : Tenant) (coll : W16) (f : Inst → Inst) : (modInst d t coll f).store = d.store := rfl
@[simp] theorem modInst_recov (d : Dev) (t : Tenant) (coll : W16) (f : Inst → Inst) : (modInst d t coll f).recov = d.recov := rfl
@[simp] theorem modInst_dbg (d : Dev) (t : Tenant) (coll : W16) (f : Inst → Inst) : (modInst d t coll f).dbg = d.dbg := rfl
@[simp] theorem modInst_free (d : Dev) (t : Tenant) (coll : W16) (f : Inst → Inst) : (modInst d t coll f).free = d.free := rfl

/-! ### modRec -/

@[simp] theorem modRec_stat (d : Dev) (f : Rec → Rec) : (modRec d f).stat = d.stat := rfl
@[simp] theorem modRec_lem (d : Dev) (f : Rec → Rec) : (modRec d f).lem = d.lem := rfl
@[simp] theorem modRec_trl (d : Dev) (f : Rec → Rec) : (modRec d f).trl = d.trl := rfl
@[simp] theorem modRec_sow (d : Dev) (f : Rec → Rec) : (modRec d f).sow = d.sow := rfl
@[simp] theorem modRec_pegs (d : Dev) (f : Rec → Rec) : (modRec d f).pegs = d.pegs := rfl
@[simp] theorem modRec_line (d : Dev) (f : Rec → Rec) : (modRec d f).line = d.line := rfl
@[simp] theorem modRec_coll (d : Dev) (f : Rec → Rec) : (modRec d f).coll = d.coll := rfl
@[simp] theorem modRec_store (d : Dev) (f : Rec → Rec) : (modRec d f).store = d.store := rfl
@[simp] theorem modRec_dbg (d : Dev) (f : Rec → Rec) : (modRec d f).dbg = d.dbg := rfl
@[simp] theorem modRec_free (d : Dev) (f : Rec → Rec) : (modRec d f).free = d.free := rfl

/-! ### setPool -/

@[simp] theorem setPool_stat (d : Dev) (k : Nat) (v : W16) : (setPool d k v).stat = d.stat := rfl
@[simp] theorem setPool_lem (d : Dev) (k : Nat) (v : W16) : (setPool d k v).lem = d.lem := rfl
@[simp] theorem setPool_trl (d : Dev) (k : Nat) (v : W16) : (setPool d k v).trl = d.trl := rfl
@[simp] theorem setPool_sow (d : Dev) (k : Nat) (v : W16) : (setPool d k v).sow = d.sow := rfl
@[simp] theorem setPool_line (d : Dev) (k : Nat) (v : W16) : (setPool d k v).line = d.line := rfl
@[simp] theorem setPool_coll (d : Dev) (k : Nat) (v : W16) : (setPool d k v).coll = d.coll := rfl
@[simp] theorem setPool_store (d : Dev) (k : Nat) (v : W16) : (setPool d k v).store = d.store := rfl
@[simp] theorem setPool_recov (d : Dev) (k : Nat) (v : W16) : (setPool d k v).recov = d.recov := rfl
@[simp] theorem setPool_dbg (d : Dev) (k : Nat) (v : W16) : (setPool d k v).dbg = d.dbg := rfl
@[simp] theorem setPool_free (d : Dev) (k : Nat) (v : W16) : (setPool d k v).free = d.free := rfl

/-! ### modArrival -/

@[simp] theorem modArrival_stat (d : Dev) (a : Arrival) (f : Arrival → Arrival) : (modArrival d a f).stat = d.stat := rfl
@[simp] theorem modArrival_lem (d : Dev) (a : Arrival) (f : Arrival → Arrival) : (modArrival d a f).lem = d.lem := rfl
@[simp] theorem modArrival_trl (d : Dev) (a : Arrival) (f : Arrival → Arrival) : (modArrival d a f).trl = d.trl := rfl
@[simp] theorem modArrival_sow (d : Dev) (a : Arrival) (f : Arrival → Arrival) : (modArrival d a f).sow = d.sow := rfl
@[simp] theorem modArrival_line (d : Dev) (a : Arrival) (f : Arrival → Arrival) : (modArrival d a f).line = d.line := rfl
@[simp] theorem modArrival_coll (d : Dev) (a : Arrival) (f : Arrival → Arrival) : (modArrival d a f).coll = d.coll := rfl
@[simp] theorem modArrival_store (d : Dev) (a : Arrival) (f : Arrival → Arrival) : (modArrival d a f).store = d.store := rfl
@[simp] theorem modArrival_recov (d : Dev) (a : Arrival) (f : Arrival → Arrival) : (modArrival d a f).recov = d.recov := rfl
@[simp] theorem modArrival_dbg (d : Dev) (a : Arrival) (f : Arrival → Arrival) : (modArrival d a f).dbg = d.dbg := rfl
@[simp] theorem modArrival_free (d : Dev) (a : Arrival) (f : Arrival → Arrival) : (modArrival d a f).free = d.free := rfl

/-! ### dropArrival -/

@[simp] theorem dropArrival_stat (d : Dev) (a : Arrival) : (dropArrival d a).stat = d.stat := rfl
@[simp] theorem dropArrival_lem (d : Dev) (a : Arrival) : (dropArrival d a).lem = d.lem := rfl
@[simp] theorem dropArrival_trl (d : Dev) (a : Arrival) : (dropArrival d a).trl = d.trl := rfl
@[simp] theorem dropArrival_sow (d : Dev) (a : Arrival) : (dropArrival d a).sow = d.sow := rfl
@[simp] theorem dropArrival_line (d : Dev) (a : Arrival) : (dropArrival d a).line = d.line := rfl
@[simp] theorem dropArrival_coll (d : Dev) (a : Arrival) : (dropArrival d a).coll = d.coll := rfl
@[simp] theorem dropArrival_store (d : Dev) (a : Arrival) : (dropArrival d a).store = d.store := rfl
@[simp] theorem dropArrival_recov (d : Dev) (a : Arrival) : (dropArrival d a).recov = d.recov := rfl
@[simp] theorem dropArrival_dbg (d : Dev) (a : Arrival) : (dropArrival d a).dbg = d.dbg := rfl
@[simp] theorem dropArrival_free (d : Dev) (a : Arrival) : (dropArrival d a).free = d.free := rfl

/-! ### countHand -/

@[simp] theorem countHand_stat (d : Dev) : (countHand d).stat = d.stat := rfl
@[simp] theorem countHand_lem (d : Dev) : (countHand d).lem = d.lem := rfl
@[simp] theorem countHand_trl (d : Dev) : (countHand d).trl = d.trl := rfl
@[simp] theorem countHand_sow (d : Dev) : (countHand d).sow = d.sow := rfl
@[simp] theorem countHand_pegs (d : Dev) : (countHand d).pegs = d.pegs := rfl
@[simp] theorem countHand_line (d : Dev) : (countHand d).line = d.line := rfl
@[simp] theorem countHand_coll (d : Dev) : (countHand d).coll = d.coll := rfl
@[simp] theorem countHand_store (d : Dev) : (countHand d).store = d.store := rfl
@[simp] theorem countHand_recov (d : Dev) : (countHand d).recov = d.recov := rfl
@[simp] theorem countHand_free (d : Dev) : (countHand d).free = d.free := rfl

/-! ### assertFaultN -/

@[simp] theorem assertFaultN_lem (d : Dev) : (assertFaultN d).lem = d.lem := rfl
@[simp] theorem assertFaultN_trl (d : Dev) : (assertFaultN d).trl = d.trl := rfl
@[simp] theorem assertFaultN_sow (d : Dev) : (assertFaultN d).sow = d.sow := rfl
@[simp] theorem assertFaultN_pegs (d : Dev) : (assertFaultN d).pegs = d.pegs := rfl
@[simp] theorem assertFaultN_line (d : Dev) : (assertFaultN d).line = d.line := rfl
@[simp] theorem assertFaultN_coll (d : Dev) : (assertFaultN d).coll = d.coll := rfl
@[simp] theorem assertFaultN_store (d : Dev) : (assertFaultN d).store = d.store := rfl
@[simp] theorem assertFaultN_recov (d : Dev) : (assertFaultN d).recov = d.recov := rfl
@[simp] theorem assertFaultN_dbg (d : Dev) : (assertFaultN d).dbg = d.dbg := rfl
@[simp] theorem assertFaultN_free (d : Dev) : (assertFaultN d).free = d.free := rfl

/-! ### draw -/

@[simp] theorem draw_stat (d : Dev) : (draw d).2.stat = d.stat := rfl
@[simp] theorem draw_lem (d : Dev) : (draw d).2.lem = d.lem := rfl
@[simp] theorem draw_trl (d : Dev) : (draw d).2.trl = d.trl := rfl
@[simp] theorem draw_sow (d : Dev) : (draw d).2.sow = d.sow := rfl
@[simp] theorem draw_pegs (d : Dev) : (draw d).2.pegs = d.pegs := rfl
@[simp] theorem draw_line (d : Dev) : (draw d).2.line = d.line := rfl
@[simp] theorem draw_coll (d : Dev) : (draw d).2.coll = d.coll := rfl
@[simp] theorem draw_store (d : Dev) : (draw d).2.store = d.store := rfl
@[simp] theorem draw_recov (d : Dev) : (draw d).2.recov = d.recov := rfl
@[simp] theorem draw_dbg (d : Dev) : (draw d).2.dbg = d.dbg := rfl

/-! ### modPegs -/

@[simp] theorem modPegs_stat (d : Dev) (f : Pegs → Pegs) : (modPegs d f).stat = d.stat := rfl
@[simp] theorem modPegs_lem (d : Dev) (f : Pegs → Pegs) : (modPegs d f).lem = d.lem := rfl
@[simp] theorem modPegs_trl (d : Dev) (f : Pegs → Pegs) : (modPegs d f).trl = d.trl := rfl
@[simp] theorem modPegs_sow (d : Dev) (f : Pegs → Pegs) : (modPegs d f).sow = d.sow := rfl
@[simp] theorem modPegs_line (d : Dev) (f : Pegs → Pegs) : (modPegs d f).line = d.line := rfl
@[simp] theorem modPegs_coll (d : Dev) (f : Pegs → Pegs) : (modPegs d f).coll = d.coll := rfl
@[simp] theorem modPegs_store (d : Dev) (f : Pegs → Pegs) : (modPegs d f).store = d.store := rfl
@[simp] theorem modPegs_recov (d : Dev) (f : Pegs → Pegs) : (modPegs d f).recov = d.recov := rfl
@[simp] theorem modPegs_dbg (d : Dev) (f : Pegs → Pegs) : (modPegs d f).dbg = d.dbg := rfl
@[simp] theorem modPegs_free (d : Dev) (f : Pegs → Pegs) : (modPegs d f).free = d.free := rfl

/-! ### cutRun -/

@[simp] theorem cutRun_stat (d : Dev) (e : LPort × RingNo) : (cutRun d e).stat = d.stat := rfl
@[simp] theorem cutRun_trl (d : Dev) (e : LPort × RingNo) : (cutRun d e).trl = d.trl := rfl
@[simp] theorem cutRun_sow (d : Dev) (e : LPort × RingNo) : (cutRun d e).sow = d.sow := rfl
@[simp] theorem cutRun_pegs (d : Dev) (e : LPort × RingNo) : (cutRun d e).pegs = d.pegs := rfl
@[simp] theorem cutRun_line (d : Dev) (e : LPort × RingNo) : (cutRun d e).line = d.line := rfl
@[simp] theorem cutRun_coll (d : Dev) (e : LPort × RingNo) : (cutRun d e).coll = d.coll := rfl
@[simp] theorem cutRun_store (d : Dev) (e : LPort × RingNo) : (cutRun d e).store = d.store := rfl
@[simp] theorem cutRun_recov (d : Dev) (e : LPort × RingNo) : (cutRun d e).recov = d.recov := rfl
@[simp] theorem cutRun_dbg (d : Dev) (e : LPort × RingNo) : (cutRun d e).dbg = d.dbg := rfl
@[simp] theorem cutRun_free (d : Dev) (e : LPort × RingNo) : (cutRun d e).free = d.free := rfl

/-! ### faultEnd -/

@[simp] theorem faultEnd_stat (d : Dev) (e : LPort × RingNo) (status : Byte) : (faultEnd d e status).stat = d.stat := rfl
@[simp] theorem faultEnd_trl (d : Dev) (e : LPort × RingNo) (status : Byte) : (faultEnd d e status).trl = d.trl := rfl
@[simp] theorem faultEnd_sow (d : Dev) (e : LPort × RingNo) (status : Byte) : (faultEnd d e status).sow = d.sow := rfl
@[simp] theorem faultEnd_pegs (d : Dev) (e : LPort × RingNo) (status : Byte) : (faultEnd d e status).pegs = d.pegs := rfl
@[simp] theorem faultEnd_line (d : Dev) (e : LPort × RingNo) (status : Byte) : (faultEnd d e status).line = d.line := rfl
@[simp] theorem faultEnd_coll (d : Dev) (e : LPort × RingNo) (status : Byte) : (faultEnd d e status).coll = d.coll := rfl
@[simp] theorem faultEnd_store (d : Dev) (e : LPort × RingNo) (status : Byte) : (faultEnd d e status).store = d.store := rfl
@[simp] theorem faultEnd_recov (d : Dev) (e : LPort × RingNo) (status : Byte) : (faultEnd d e status).recov = d.recov := rfl
@[simp] theorem faultEnd_dbg (d : Dev) (e : LPort × RingNo) (status : Byte) : (faultEnd d e status).dbg = d.dbg := rfl
@[simp] theorem faultEnd_free (d : Dev) (e : LPort × RingNo) (status : Byte) : (faultEnd d e status).free = d.free := rfl

/-! ### endWith -/

@[simp] theorem endWith_stat (d : Dev) (p : LPort) (r : RingNo) (status : Byte) : (endWith d p r status).stat = d.stat := rfl
@[simp] theorem endWith_trl (d : Dev) (p : LPort) (r : RingNo) (status : Byte) : (endWith d p r status).trl = d.trl := rfl
@[simp] theorem endWith_sow (d : Dev) (p : LPort) (r : RingNo) (status : Byte) : (endWith d p r status).sow = d.sow := rfl
@[simp] theorem endWith_pegs (d : Dev) (p : LPort) (r : RingNo) (status : Byte) : (endWith d p r status).pegs = d.pegs := rfl
@[simp] theorem endWith_line (d : Dev) (p : LPort) (r : RingNo) (status : Byte) : (endWith d p r status).line = d.line := rfl
@[simp] theorem endWith_coll (d : Dev) (p : LPort) (r : RingNo) (status : Byte) : (endWith d p r status).coll = d.coll := rfl
@[simp] theorem endWith_store (d : Dev) (p : LPort) (r : RingNo) (status : Byte) : (endWith d p r status).store = d.store := rfl
@[simp] theorem endWith_recov (d : Dev) (p : LPort) (r : RingNo) (status : Byte) : (endWith d p r status).recov = d.recov := rfl
@[simp] theorem endWith_dbg (d : Dev) (p : LPort) (r : RingNo) (status : Byte) : (endWith d p r status).dbg = d.dbg := rfl
@[simp] theorem endWith_free (d : Dev) (p : LPort) (r : RingNo) (status : Byte) : (endWith d p r status).free = d.free := rfl

/-! ### What the changed part becomes -/

@[simp] theorem draw_free (d : Dev) : (draw d).2.free = d.free + 1 := rfl
@[simp] theorem draw_index (d : Dev) : (draw d).1 = d.free := rfl
@[simp] theorem modPegs_pegs (d : Dev) (f : Pegs → Pegs) : (modPegs d f).pegs = f d.pegs := rfl
@[simp] theorem modS_stat (d : Dev) (f : Stat → Stat) : (modS d f).stat = f d.stat := rfl
@[simp] theorem modSow_sow (d : Dev) (f : Sow → Sow) : (modSow d f).sow = f d.sow := rfl
@[simp] theorem modStore_store (d : Dev) (f : Store → Store) : (modStore d f).store = f d.store := rfl
@[simp] theorem modRec_recov (d : Dev) (f : Rec → Rec) : (modRec d f).recov = f d.recov := rfl
@[simp] theorem setPool_pool (d : Dev) (k : Nat) (v : W16) : (setPool d k v).pegs.pool = spWrite d.pegs.pool k v := rfl

/-- The changed leaf port. -/
theorem modP_at (d : Dev) (p : LPort) (f : LemPort → LemPort) : (modP d p f).lem[p] = f d.lem[p] := by simp [modP]

/-- The same with the port's number as the index, which is how simp writes it. -/
@[simp] theorem modP_val (d : Dev) (p : LPort) (f : LemPort → LemPort) : (modP d p f).lem[p.val] = f d.lem[p] := by simp [modP]

/-- Every other leaf port stays. -/
theorem modP_other (d : Dev) {p q : LPort} (f : LemPort → LemPort) (h : q ≠ p) : (modP d p f).lem[q] = d.lem[q] := by
  have : p.val ≠ q.val := fun e => h (Fin.ext e.symm)
  simp [modP, this]

/-- The changed Trellis port. -/
theorem modT_at (d : Dev) (i : TPort) (f : TrlPort → TrlPort) : (modT d i f).trl[i] = f d.trl[i] := by simp [modT]

/-- The same with the port's number as the index. -/
@[simp] theorem modT_val (d : Dev) (i : TPort) (f : TrlPort → TrlPort) : (modT d i f).trl[i.val] = f d.trl[i] := by simp [modT]

/-- Every other Trellis port stays. -/
theorem modT_other (d : Dev) {i j : TPort} (f : TrlPort → TrlPort) (h : j ≠ i) : (modT d i f).trl[j] = d.trl[j] := by
  have : i.val ≠ j.val := fun e => h (Fin.ext e.symm)
  simp [modT, this]

/-- The changed ring. -/
@[simp] theorem modR_at (d : Dev) (p : LPort) (r : RingNo) (f : Ring → Ring) : ringAt (modR d p r f) p r = f (ringAt d p r) := by
  simp only [modR, ringAt, modP_at]
  simp

/-- Every other ring of the port stays. -/
theorem modR_ring (d : Dev) (p : LPort) {r q : RingNo} (f : Ring → Ring) (h : q ≠ r) : ringAt (modR d p r f) p q = ringAt d p q := by
  have : r.val ≠ q.val := fun e => h (Fin.ext e.symm)
  simp only [modR, ringAt, modP_at]
  simp [this]

/-- Every ring of another port stays. -/
theorem modR_port (d : Dev) {p q : LPort} (r s : RingNo) (f : Ring → Ring) (h : q ≠ p) : ringAt (modR d p r f) q s = ringAt d q s := by
  simp only [modR, ringAt, modP_other d _ h]

/-- A change of a port that leaves its rings leaves them. -/
theorem ringAt_modP (d : Dev) (p q : LPort) (r : RingNo) (f : LemPort → LemPort) (h : ∀ x, (f x).rings = x.rings) : ringAt (modP d p f) q r = ringAt d q r := by
  by_cases e : q = p
  · subst e; simp only [ringAt, modP_at, h]
  · simp only [ringAt, modP_other d f e]

@[simp] theorem ringAt_pushTx (d : Dev) (p q : LPort) (r : RingNo) (l : List TxItem) : ringAt (pushTx d p l) q r = ringAt d q r := ringAt_modP d p q r _ fun _ => rfl
@[simp] theorem ringAt_wantRead (d : Dev) (p q : LPort) (r : RingNo) (w : ReadWant) : ringAt (wantRead d p w) q r = ringAt d q r := ringAt_modP d p q r _ fun _ => rfl

/-! ### The gate -/

/-- On a unit that runs, a command's effect is a change of the device part. -/
theorem onDev_alive {s : State} (h : alive s = true) (f : Dev → Dev) : onDev s f = .next { s with dev := f s.dev } := by simp [onDev, h]

/-- On a unit that does not run, nothing changes. -/
theorem onDev_dead {s : State} (h : alive s = false) (f : Dev → Dev) : onDev s f = .next s := by simp [onDev, h]

/-- Which command waits does not decide whether the unit runs. -/
@[simp] theorem alive_pending (s : State) (l : List Instr) : alive { s with pending := l } = alive s := rfl

end Sys2Proof.Machine
end

