-- ==== Sys2Proof/Laws/Each.lean ====
section
/-! SUPPORT. Folds of one change over the ports: what each port becomes, and that nothing else changes; with what stops and the start of training do. -/
namespace Sys2Proof.Machine
open Sys2Proof

theorem each_nil {α : Type} (d : Dev) (f : Dev → α → Dev) : each [] d f = d := rfl

theorem each_cons {α : Type} (x : α) (l : List α) (d : Dev) (f : Dev → α → Dev) : each (x :: l) d f = each l (f d x) f := rfl

/-- A field that every change of a fold leaves is left by the fold. -/
theorem each_field {α β : Type} (l : List α) (f : Dev → α → Dev) (g : Dev → β) (h : ∀ d x, g (f d x) = g d) (d : Dev) : g (each l d f) = g d := by
  induction l generalizing d with
  | nil => rfl
  | cons x l ih => rw [each_cons, ih, h]

/-- Two folds agree where their changes agree on every state that a kept property allows. -/
theorem each_congr {α : Type} (l : List α) (P : Dev → Prop) {f g : Dev → α → Dev} (hp : ∀ d x, P d → P (g d x)) (hfg : ∀ d x, P d → f d x = g d x)
    (d : Dev) (h : P d) : each l d f = each l d g := by
  induction l generalizing d with
  | nil => rfl
  | cons x l ih => rw [each_cons, each_cons, hfg d x h, ih _ (hp d x h)]

theorem allLem_nodup : allLem.Nodup := by decide
theorem allTrl_nodup : allTrl.Nodup := by decide
theorem allRings_nodup : allRings.Nodup := by decide
theorem mem_allLem (p : LPort) : p ∈ allLem := by revert p; decide
theorem mem_allTrl (i : TPort) : i ∈ allTrl := by revert i; decide
theorem mem_allRings (r : RingNo) : r ∈ allRings := by revert r; decide

theorem modP_id (d : Dev) (p : LPort) (f : LemPort → LemPort) : modP d p f = { d with lem := (modP d p f).lem } := rfl
theorem modT_id (d : Dev) (i : TPort) (f : TrlPort → TrlPort) : modT d i f = { d with trl := (modT d i f).trl } := rfl

/-- A fold that changes each leaf port that a test names. -/
theorem each_modP (l : List LPort) (hn : l.Nodup) (d : Dev) (g : LPort → Bool) (f : LPort → LemPort → LemPort) (p : LPort) :
    (each l d fun d p => if g p then modP d p (f p) else d).lem[p] = if p ∈ l ∧ g p = true then f p d.lem[p] else d.lem[p] := by
  induction l generalizing d with
  | nil => simp [each]
  | cons q l ih =>
    have hq := List.nodup_cons.1 hn
    rw [each_cons, ih hq.2]
    by_cases e : p = q
    · subst e
      simp only [hq.1, false_and, if_false, List.mem_cons, true_or, true_and]
      split
      · exact modP_at d p _
      · rfl
    · have h1 : (if g q then modP d q (f q) else d).lem[p] = d.lem[p] := by
        split
        · exact modP_other d _ e
        · rfl
      rw [h1]
      simp [e]

/-- A fold that changes each Trellis port that a test names. -/
theorem each_modT (l : List TPort) (hn : l.Nodup) (d : Dev) (g : TPort → Bool) (f : TPort → TrlPort → TrlPort) (i : TPort) :
    (each l d fun d i => if g i then modT d i (f i) else d).trl[i] = if i ∈ l ∧ g i = true then f i d.trl[i] else d.trl[i] := by
  induction l generalizing d with
  | nil => simp [each]
  | cons q l ih =>
    have hq := List.nodup_cons.1 hn
    rw [each_cons, ih hq.2]
    by_cases e : i = q
    · subst e
      simp only [hq.1, false_and, if_false, List.mem_cons, true_or, true_and]
      split
      · exact modT_at d i _
      · rfl
    · have h1 : (if g q then modT d q (f q) else d).trl[i] = d.trl[i] := by
        split
        · exact modT_other d _ e
        · rfl
      rw [h1]
      simp [e]

/-- Such a fold changes leaf ports only. -/
theorem each_modP_rest (l : List LPort) (d : Dev) (g : LPort → Bool) (f : LPort → LemPort → LemPort) :
    ∃ v, (each l d fun d p => if g p then modP d p (f p) else d) = { d with lem := v } := by
  induction l generalizing d with
  | nil => exact ⟨d.lem, rfl⟩
  | cons q l ih =>
    obtain ⟨v, h⟩ := ih (if g q then modP d q (f q) else d)
    refine ⟨v, ?_⟩
    rw [each_cons, h]
    split <;> rfl

/-- Such a fold changes Trellis ports only. -/
theorem each_modT_rest (l : List TPort) (d : Dev) (g : TPort → Bool) (f : TPort → TrlPort → TrlPort) :
    ∃ v, (each l d fun d i => if g i then modT d i (f i) else d) = { d with trl := v } := by
  induction l generalizing d with
  | nil => exact ⟨d.trl, rfl⟩
  | cons q l ih =>
    obtain ⟨v, h⟩ := ih (if g q then modT d q (f q) else d)
    refine ⟨v, ?_⟩
    rw [each_cons, h]
    split <;> rfl

/-! ## Stops -/

/-- A stop of a unit that is in none: its fields and FAULT_N. -/
theorem setStop_stat (d : Dev) (s : Stop) (m : W16) (a : Option Pos) (b : Byte) (r : Option (List (BitVec 4))) (h : d.stat.stop = none) :
    (setStop d s m a b r).stat = { d.stat with stop := some s, stopMask := m, stopPos := a, stopPort := b, stopRef := r, faultN := true } := by
  unfold setStop stopped
  rw [h]
  refine each_field allLem _ (·.stat) (fun d x => ?_) _
  split <;> rfl

/-- A stop changes the status part, page causes and the lines this unit drives alone (R125). -/
theorem setStop_rest (d : Dev) (s : Stop) (m : W16) (a : Option Pos) (b : Byte) (r : Option (List (BitVec 4))) :
    ∃ x v n, setStop d s m a b r = { d with stat := x, lem := v, line := n } := by
  unfold setStop
  split
  · exact ⟨d.stat, d.lem, d.line, rfl⟩
  · have : ∀ (l : List LPort) (e : Dev), ∃ v, (each l e fun d p => if pageInStop d p then modP d p fun x => { x with causes := x.causes ||| 4 } else d) = { e with lem := v } := by
      intro l
      induction l with
      | nil => intro e; exact ⟨e.lem, rfl⟩
      | cons q l ih =>
        intro e
        obtain ⟨v, h⟩ := ih (if pageInStop e q then modP e q fun x => { x with causes := x.causes ||| 4 } else e)
        refine ⟨v, ?_⟩
        rw [each_cons, h]
        split <;> rfl
    obtain ⟨v, h⟩ := this allLem { modS d fun x => { x with stop := some s, stopMask := m, stopPos := a, stopPort := b, stopRef := r, faultN := true } with line := Line.reset }
    exact ⟨_, v, _, h⟩

/-- A stop found at step 3, 4 or 5 of R173: its status fields. -/
theorem earlyStop_stat (d : Dev) (s : Stop) (m : W16) (h : d.stat.stop = none) :
    (earlyStop d s m).stat = { d.stat with stop := some s, stopMask := m, stopPos := none, stopPort := 0xFF, stopRef := none, faultN := true } := by
  unfold earlyStop stopped
  rw [h]
  show (each allTrl (setStop d s m none 0xFF none) fun d i => modT d i idleTrl).stat = _
  exact (each_field allTrl (fun d i => modT d i idleTrl) (·.stat) (fun _ _ => rfl) _).trans (setStop_stat d s m none 0xFF none h)

/-- A stop found at step 3, 4 or 5 of R173: every Trellis port is idle. -/
theorem earlyStop_trl (d : Dev) (s : Stop) (m : W16) (h : d.stat.stop = none) (i : TPort) : (earlyStop d s m).trl[i] = idleTrl d.trl[i] := by
  have e := each_modT allTrl allTrl_nodup (setStop d s m none 0xFF none) (fun _ => true) (fun _ => idleTrl) i
  simp only [if_true, mem_allTrl, and_self] at e
  unfold earlyStop stopped
  rw [h]
  refine e.trans ?_
  obtain ⟨x, v, n, hx⟩ := setStop_rest d s m none 0xFF none
  rw [hx]

/-! ## The start of training -/

/-- Every leaf port in use whose loop locked trains. -/
def trainLem (c : Cfg) (d : Dev) : Dev :=
  each allLem (modS d fun x => { x with trainStarted := true }) fun e p =>
    if inUse c p && !d.stat.pllFail.getLsbD p.val then modP e p fun x => { x with phase := .training } else e

theorem startTraining_eq (c : Cfg) (d : Dev) (h1 : c.latched = true) (h2 : d.stat.loopsLocked = true) (h3 : d.stat.trainStarted = false) :
    startTraining c d = if stopped d then trainLem c d else each allTrl (trainLem c d) fun d i => if trains c i then modT d i fun x => { x with st := .training } else d := by
  have hc : (each allLem (modS d fun x => { x with trainStarted := true }) fun d p =>
      if inUse c p && !d.stat.pllFail.getLsbD p.val then modP d p fun x => { x with phase := .training } else d) = trainLem c d := by
    refine each_congr allLem (fun e => e.stat.pllFail = d.stat.pllFail) ?_ ?_ _ rfl
    · intro e p he
      split
      · exact he
      · exact he
    · intro e p he
      simp only [he]
  obtain ⟨v, hv⟩ := each_modP_rest allLem (modS d fun x => { x with trainStarted := true }) (fun p => inUse c p && !d.stat.pllFail.getLsbD p.val)
    (fun _ x => { x with phase := .training })
  have hs : stopped (trainLem c d) = stopped d := by unfold trainLem; rw [hv]; rfl
  unfold startTraining
  rw [h1, h2]
  simp only [h3, Bool.and_self, Bool.not_true, Bool.or_self, Bool.false_eq_true, if_false]
  rw [hc, hs]

/-- Training does not start twice, nor before its steps. -/
theorem startTraining_not (c : Cfg) (d : Dev) (h : ¬(c.latched = true ∧ d.stat.loopsLocked = true ∧ d.stat.trainStarted = false)) : startTraining c d = d := by
  unfold startTraining
  split
  · rfl
  · rename_i g
    exfalso
    apply h
    simpa [and_assoc] using g

end Sys2Proof.Machine
end

