-- ==== Sys2Proof/Laws/Sparse.lean ====
section
/-! SUPPORT. Sparse storage: what a read gives after a write or a clear, and that every operation keeps the canonical form. -/
namespace Sys2Proof.Machine

theorem spWfFrom_mono {w : Nat} {lo lo' : Nat} (h : lo' ≤ lo) : ∀ {m : Sparse w}, spWfFrom lo m = true → spWfFrom lo' m = true
  | [], _ => rfl
  | (k, v) :: rest, hm => by
    simp only [spWfFrom, Bool.and_eq_true, decide_eq_true_eq] at hm ⊢
    exact ⟨⟨by omega, hm.1.2⟩, hm.2⟩

theorem spWfFrom_filter {w : Nat} (f : Nat × BitVec w → Bool) : ∀ {lo : Nat} {m : Sparse w}, spWfFrom lo m = true → spWfFrom lo (m.filter f) = true
  | _, [], _ => rfl
  | lo, (k, v) :: rest, hm => by
    simp only [spWfFrom, Bool.and_eq_true, decide_eq_true_eq] at hm
    have ih := spWfFrom_filter f hm.2
    rw [List.filter_cons]
    split
    · simp only [spWfFrom, Bool.and_eq_true, decide_eq_true_eq]
      exact ⟨hm.1, ih⟩
    · exact spWfFrom_mono (by omega) ih

/-- Removing entries keeps the canonical form. -/
theorem spWf_filter {w : Nat} (f : Nat × BitVec w → Bool) {m : Sparse w} (h : spWf m = true) : spWf (m.filter f) = true := spWfFrom_filter f h

/-- A clear keeps the canonical form. -/
theorem spWf_clear {w : Nat} {m : Sparse w} (lo hi : Nat) (h : spWf m = true) : spWf (spClear m lo hi) = true := spWf_filter _ h

theorem spWfFrom_write {w : Nat} (k : Nat) (v : BitVec w) : ∀ {lo : Nat} {m : Sparse w}, lo ≤ k → spWfFrom lo m = true → spWfFrom lo (spWrite m k v) = true
  | lo, [], hk, _ => by
    simp only [spWrite]
    split
    · rfl
    · simp only [spWfFrom, Bool.and_eq_true, decide_eq_true_eq]
      exact ⟨⟨hk, by simpa using ‹¬v = 0›⟩, trivial⟩
  | lo, (k', v') :: rest, hk, hm => by
    simp only [spWfFrom, Bool.and_eq_true, decide_eq_true_eq] at hm
    simp only [spWrite]
    split
    · split
      · simp only [spWfFrom, Bool.and_eq_true, decide_eq_true_eq]
        exact hm
      · simp only [spWfFrom, Bool.and_eq_true, decide_eq_true_eq]
        exact ⟨⟨hk, by simpa using ‹¬v = 0›⟩, ⟨by omega, hm.1.2⟩, hm.2⟩
    · split
      · subst k'
        split
        · exact spWfFrom_mono (by omega) hm.2
        · simp only [spWfFrom, Bool.and_eq_true, decide_eq_true_eq]
          exact ⟨⟨hk, by simpa using ‹¬v = 0›⟩, hm.2⟩
      · simp only [spWfFrom, Bool.and_eq_true, decide_eq_true_eq]
        exact ⟨hm.1, spWfFrom_write k v (by omega) hm.2⟩

/-- A write keeps the canonical form. -/
theorem spWf_write {w : Nat} {m : Sparse w} (k : Nat) (v : BitVec w) (h : spWf m = true) : spWf (spWrite m k v) = true :=
  spWfFrom_write k v (Nat.zero_le _) h

theorem spWf_writes {m : Sparse 8} (k : Nat) (bs : List Byte) (h : spWf m = true) : spWf (spWrites m k bs) = true := by
  induction bs generalizing m k with
  | nil => exact h
  | cons b bs ih => exact ih (k + 1) (spWf_write k b h)

/-- A fold of writes keeps the canonical form. -/
theorem spWf_foldl {α : Type} (l : List α) (key : α → Nat) (val : α → Byte) {m : Sparse 8} (h : spWf m = true) :
    spWf (l.foldl (fun m e => spWrite m (key e) (val e)) m) = true := by
  induction l generalizing m with
  | nil => exact h
  | cons e l ih => exact ih (spWf_write _ _ h)

/-- A key below every listed key reads as nothing listed. -/
theorem spRead_below {w : Nat} : ∀ {lo k : Nat} {m : Sparse w}, spWfFrom lo m = true → k < lo → spRead m k = 0
  | _, _, [], _, _ => rfl
  | lo, k, (k', v) :: rest, hm, hk => by
    simp only [spWfFrom, Bool.and_eq_true, decide_eq_true_eq] at hm
    have hne : k' ≠ k := by omega
    rw [spRead, if_neg hne]
    exact spRead_below hm.2 (by omega)

/-- A write leaves every other key alone. -/
theorem spRead_write_other {w : Nat} {j k : Nat} (h : j ≠ k) (v : BitVec w) : ∀ m : Sparse w, spRead (spWrite m k v) j = spRead m j
  | [] => by
    unfold spWrite
    split
    · rfl
    · exact if_neg (Ne.symm h)
  | (k', v') :: rest => by
    unfold spWrite
    split
    · split
      · rfl
      · rw [spRead, if_neg (Ne.symm h)]
    · split
      · rename_i _ he
        split
        · rw [spRead, if_neg (by omega)]
        · rw [spRead, if_neg (Ne.symm h), spRead, if_neg (by omega)]
      · rw [spRead, spRead, spRead_write_other h v rest]

/-- A value other than 0 reads back. -/
theorem spRead_write_pos {w : Nat} {k : Nat} {v : BitVec w} (h : v ≠ 0) : ∀ m : Sparse w, spRead (spWrite m k v) k = v
  | [] => by rw [spWrite, if_neg h, spRead, if_pos rfl]
  | (k', v') :: rest => by
    simp only [spWrite, if_neg h]
    split
    · rw [spRead, if_pos rfl]
    · split
      · rw [spRead, if_pos rfl]
      · rename_i _ he
        rw [spRead, if_neg (by omega), spRead_write_pos h rest]

/-- Storage in canonical form reads back every value written to it. -/
theorem spRead_write_self {w : Nat} {k : Nat} (v : BitVec w) : ∀ {lo : Nat} {m : Sparse w}, spWfFrom lo m = true → spRead (spWrite m k v) k = v
  | _, [], _ => by
    unfold spWrite
    split
    · rename_i h; rw [h]; rfl
    · rw [spRead, if_pos rfl]
  | lo, (k', v') :: rest, hm => by
    simp only [spWfFrom, Bool.and_eq_true, decide_eq_true_eq] at hm
    unfold spWrite
    split
    · rename_i hk
      split
      · rename_i h
        rw [h, spRead, if_neg (by omega)]
        exact spRead_below hm.2 (by omega)
      · rw [spRead, if_pos rfl]
    · split
      · rename_i _ he
        split
        · rename_i h
          rw [h]
          exact spRead_below hm.2 (by omega)
        · rw [spRead, if_pos rfl]
      · rename_i _ he
        rw [spRead, if_neg (by omega), spRead_write_self v hm.2]

/-- What clearing a range leaves. -/
theorem spRead_clear {w : Nat} (lo hi k : Nat) : ∀ m : Sparse w, spRead (spClear m lo hi) k = if lo ≤ k ∧ k < hi then 0 else spRead m k
  | [] => by unfold spClear; rw [List.filter_nil]; split <;> rfl
  | (k', v') :: rest => by
    have ih := spRead_clear lo hi k rest
    unfold spClear at ih ⊢
    rw [List.filter_cons]
    split
    · rename_i h
      rw [spRead, ih, spRead]
      by_cases he : k' = k
      · subst he
        rw [if_pos rfl, if_pos rfl, if_neg]
        have : k' < lo ∨ hi ≤ k' := by simpa using h
        omega
      · rw [if_neg he, if_neg he]
    · rename_i h
      rw [ih, spRead]
      by_cases he : k' = k
      · subst he
        have : lo ≤ k' ∧ k' < hi := by simpa using h
        rw [if_pos this, if_pos this]
      · rw [if_neg he]

end Sys2Proof.Machine
end

