-- ==== Sys2Proof/Laws/Kept.lean ====
section
/-! SUPPORT. The relation "what follows up keeps this": storage stays canonical, and the parts of a unit that only its own commands change stay as they were. One lemma for each primitive change of the state; Laws/Follow.lean has one for each shared operation. -/
namespace Sys2Proof.Machine
open Sys2Proof

/-- Storage stays canonical, and the side state stays as it was. -/
structure Kept (d0 d : Dev) : Prop where
  mem : Memory.wf d0 → Memory.wf d
  side : SideAs d0 d

theorem Kept.refl (d : Dev) : Kept d d := ⟨id, ⟨fun _ => rfl, fun _ => rfl, rfl, rfl, rfl⟩⟩

theorem Kept.trans {a b d : Dev} (h : Kept a b) (g : Kept b d) : Kept a d :=
  ⟨fun m => g.mem (h.mem m),
   ⟨fun p => (g.side.lem p).trans (h.side.lem p), fun i => (g.side.trl i).trans (h.side.trl i), g.side.stat.trans h.side.stat,
    g.side.sow.trans h.side.sow, g.side.dbg.trans h.side.dbg⟩⟩

/-- A change of none of these parts. -/
theorem Kept.of_eq {d0 d d' : Dev} (h : Kept d0 d) (hl : d'.lem = d.lem) (ht : d'.trl = d.trl) (hs : statSide d'.stat = statSide d.stat)
    (hw : d'.sow = d.sow) (hd : d'.dbg = d.dbg) (h1 : d'.store.spool = d.store.spool) (h2 : d'.store.yard = d.store.yard)
    (h3 : d'.pegs.pool = d.pegs.pool) : Kept d0 d' := by
  refine h.trans ⟨fun m => ?_, ⟨fun p => by rw [hl], fun i => by rw [ht], hs, hw, hd⟩⟩
  unfold Memory.wf at m ⊢
  rw [h1, h2, h3, hl]
  exact m

theorem modP_kept {d0 d : Dev} (h : Kept d0 d) (p : LPort) {f : LemPort → LemPort}
    (hw : ∀ x, spWf x.pocket = true → spWf (f x).pocket = true) (hs : ∀ x, lemSide (f x) = lemSide x) : Kept d0 (modP d p f) := by
  refine h.trans ⟨fun m => ⟨m.1, m.2.1, m.2.2.1, fun q => ?_⟩, ⟨fun q => ?_, fun _ => rfl, rfl, rfl, rfl⟩⟩
  · by_cases e : p = q
    · subst e; simpa [modP] using hw _ (m.2.2.2 p)
    · have : p.val ≠ q.val := fun c => e (Fin.ext c)
      simpa [modP, this] using m.2.2.2 q
  · by_cases e : p = q
    · subst e; simpa [modP] using hs _
    · have : p.val ≠ q.val := fun c => e (Fin.ext c)
      simp [modP, this]

theorem modR_kept {d0 d : Dev} (h : Kept d0 d) (p : LPort) (r : RingNo) (f : Ring → Ring) : Kept d0 (modR d p r f) :=
  modP_kept h p (fun _ m => m) fun _ => rfl

theorem modRun_kept {d0 d : Dev} (h : Kept d0 d) (p : LPort) (r : RingNo) (f : Run → Run) : Kept d0 (modRun d p r f) := modR_kept h p r _

theorem modHead_kept {d0 d : Dev} (h : Kept d0 d) (p : LPort) (r : RingNo) (f : Head → Head) : Kept d0 (modHead d p r f) := modR_kept h p r _

theorem modT_kept {d0 d : Dev} (h : Kept d0 d) (i : TPort) {f : TrlPort → TrlPort} (hs : ∀ x, trlSide (f x) = trlSide x) : Kept d0 (modT d i f) := by
  refine h.trans ⟨fun m => m, ⟨fun _ => rfl, fun j => ?_, rfl, rfl, rfl⟩⟩
  by_cases e : i = j
  · subst e; simpa [modT] using hs _
  · have : i.val ≠ j.val := fun c => e (Fin.ext c)
    simp [modT, this]

theorem modS_kept {d0 d : Dev} (h : Kept d0 d) {f : Stat → Stat} (hs : ∀ x, statSide (f x) = statSide x) : Kept d0 (modS d f) :=
  h.of_eq rfl rfl (hs _) rfl rfl rfl rfl rfl

theorem modStore_kept {d0 d : Dev} (h : Kept d0 d) {f : Store → Store} (h1 : ∀ x, spWf x.spool = true → spWf (f x).spool = true)
    (h2 : ∀ x, spWf x.yard = true → spWf (f x).yard = true) : Kept d0 (modStore d f) :=
  h.trans ⟨fun m => ⟨h1 _ m.1, h2 _ m.2.1, m.2.2.1, m.2.2.2⟩, ⟨fun _ => rfl, fun _ => rfl, rfl, rfl, rfl⟩⟩

theorem setPool_kept {d0 d : Dev} (h : Kept d0 d) (k : Nat) (v : W16) : Kept d0 (setPool d k v) :=
  h.trans ⟨fun m => ⟨m.1, m.2.1, spWf_write k v m.2.2.1, m.2.2.2⟩, ⟨fun _ => rfl, fun _ => rfl, rfl, rfl, rfl⟩⟩

/-- A fold of changes that are each kept. -/
theorem each_kept {α : Type} {d0 d : Dev} (h : Kept d0 d) (l : List α) {f : Dev → α → Dev} (hf : ∀ d x, Kept d0 d → Kept d0 (f d x)) :
    Kept d0 (each l d f) := by
  induction l generalizing d with
  | nil => exact h
  | cons x l ih => exact ih (hf d x h)

end Sys2Proof.Machine
end

