-- ==== Sys2Proof/Laws/Ports.lean ====
section
/-! SUPPORT. Two changes of one port are one, and a count on a port is one change of it. -/
namespace Sys2Proof.Machine
open Sys2Proof

/-- Two changes of one leaf port. -/
theorem modP_modP (d : Dev) (p : LPort) (f g : LemPort → LemPort) : modP (modP d p f) p g = modP d p fun x => g (f x) := by
  simp [modP]

/-- Two changes of one Trellis port. -/
theorem modT_modT (d : Dev) (i : TPort) (f g : TrlPort → TrlPort) : modT (modT d i f) i g = modT d i fun x => g (f x) := by
  simp [modT]

/-- Two changes of a leaf port that agree on what it holds. -/
theorem modP_congr {d : Dev} {p : LPort} {f g : LemPort → LemPort} (h : f d.lem[p] = g d.lem[p]) : modP d p f = modP d p g := by
  unfold modP; rw [h]

/-- Two changes of a Trellis port that agree on what it holds. -/
theorem modT_congr {d : Dev} {i : TPort} {f g : TrlPort → TrlPort} (h : f d.trl[i] = g d.trl[i]) : modT d i f = modT d i g := by
  unfold modT; rw [h]

/-- A count on a leaf port changes its counter, its saturation mask and its page causes alone. -/
theorem bumpLemN_eq (d : Dev) (p : LPort) (n : Fin 12) (k : Nat) :
    bumpLemN d p n k = modP d p fun x => { x with
      ctr := x.ctr.set n (satInc64 x.ctr[n] k)
      sat := if wouldSaturate x.ctr[n] k then setSat x.sat n.val else x.sat
      causes := if wouldSaturate x.ctr[n] k ∧ x.sat.getLsbD n.val = false ∧ x.started then x.causes ||| BitVec.ofNat 16 (2 ^ 8) else x.causes } := by
  have go : ∀ (a b s : Bool), wouldSaturate d.lem[p].ctr[n] k = a → d.lem[p].sat.getLsbD n.val = b → d.lem[p].started = s →
      bumpLemN d p n k = modP d p fun x => { x with
        ctr := x.ctr.set n (satInc64 x.ctr[n] k)
        sat := if a then setSat x.sat n.val else x.sat
        causes := if a = true ∧ b = false ∧ s = true then x.causes ||| BitVec.ofNat 16 (2 ^ 8) else x.causes } := by
    intro a b s h1 h2 h3
    unfold bumpLemN addCause
    dsimp only
    rw [h1, h2, modP_at, h3, modP_modP]
    cases a <;> cases b <;> cases s <;> rfl
  rw [go _ _ _ rfl rfl rfl]
  exact modP_congr rfl

/-- Counting once. -/
theorem bumpLem_eq (d : Dev) (p : LPort) (n : Fin 12) :
    bumpLem d p n = modP d p fun x => { x with
      ctr := x.ctr.set n (satInc64 x.ctr[n] 1)
      sat := if wouldSaturate x.ctr[n] 1 then setSat x.sat n.val else x.sat
      causes := if wouldSaturate x.ctr[n] 1 ∧ x.sat.getLsbD n.val = false ∧ x.started then x.causes ||| BitVec.ofNat 16 (2 ^ 8) else x.causes } :=
  bumpLemN_eq d p n 1

/-- A count on a ring changes its counter, the port's saturation mask and page causes alone. -/
theorem bumpRing_eq (d : Dev) (p : LPort) (r : RingNo) (b : Bool) : ∃ m k, bumpRing d p r b = modP d p fun x => { x with
    rings := x.rings.set r (if b then { x.rings[r] with fails := satInc64 x.rings[r].fails 1 } else { x.rings[r] with recs := satInc64 x.rings[r].recs 1 })
    ringSat := m, causes := k } := by
  unfold bumpRing addCause modR
  dsimp only
  generalize wouldSaturate _ 1 = a
  generalize d.lem[p].ringSat.getLsbD _ = z
  cases a with
  | false => simp only [Bool.false_and, Bool.false_eq_true, if_false]; exact ⟨d.lem[p].ringSat, d.lem[p].causes, modP_congr rfl⟩
  | true =>
    cases z with
    | true => simp only [Bool.not_true, Bool.and_false, Bool.false_eq_true, if_false, if_true]; rw [modP_modP]; exact ⟨_, d.lem[p].causes, modP_congr rfl⟩
    | false =>
      simp only [Bool.not_false, Bool.and_true, if_true]
      rw [modP_modP, modP_at]
      by_cases hs : d.lem[p].started = true
      · rw [if_pos (by exact hs), modP_modP]; exact ⟨_, _, modP_congr rfl⟩
      · rw [if_neg (by exact hs)]; exact ⟨_, d.lem[p].causes, modP_congr rfl⟩

/-- A relation that holds of each change of a fold, and is reflexive and transitive, holds of the fold. -/
theorem each_rel {α : Type} (P : Dev → Dev → Prop) (hr : ∀ d, P d d) (ht : ∀ a b c, P a b → P b c → P a c) (l : List α) (f : Dev → α → Dev)
    (h : ∀ d x, P d (f d x)) (d : Dev) : P d (each l d f) := by
  induction l generalizing d with
  | nil => exact hr d
  | cons x l ih => exact ht _ _ _ (h d x) (ih (f d x))

/-- Only the page causes of leaf ports differ. -/
def CausesOnly (d e : Dev) : Prop := e = { d with lem := e.lem } ∧ ∀ p : LPort, { e.lem[p] with causes := 0 } = { d.lem[p] with causes := 0 }

theorem CausesOnly.refl (d : Dev) : CausesOnly d d := ⟨rfl, fun _ => rfl⟩

theorem CausesOnly.trans {a b c : Dev} (h : CausesOnly a b) (g : CausesOnly b c) : CausesOnly a c := by
  refine ⟨?_, fun p => (g.2 p).trans (h.2 p)⟩
  have e := g.1
  rw [h.1] at e
  exact e

theorem addCause_only (d : Dev) (p : LPort) (b : Nat) : CausesOnly d (addCause d p b) := by
  unfold addCause
  split
  · refine ⟨rfl, fun q => ?_⟩
    by_cases e : q = p
    · subst e; rw [modP_at]
    · rw [modP_other _ _ e]
  · exact CausesOnly.refl d

theorem addCauseAll_only (d : Dev) (b : Nat) : CausesOnly d (addCauseAll d b) :=
  each_rel CausesOnly CausesOnly.refl (fun _ _ _ => CausesOnly.trans) allLem _ (fun d p => addCause_only d p b) d

theorem addCauseTenant_only (c : Cfg) (d : Dev) (t : Tenant) (b : Nat) : CausesOnly d (addCauseTenant c d t b) :=
  each_rel CausesOnly CausesOnly.refl (fun _ _ _ => CausesOnly.trans) (portsOf c t) _ (fun d p => addCause_only d p b) d

theorem CausesOnly.stat {d e : Dev} (h : CausesOnly d e) : e.stat = d.stat := (congrArg Dev.stat h.1).trans rfl
theorem CausesOnly.ring {d e : Dev} (h : CausesOnly d e) (p : LPort) (r : RingNo) : ringAt e p r = ringAt d p r := by
  have g := congrArg LemPort.rings (h.2 p)
  dsimp only at g
  unfold ringAt
  rw [g]

/-- A count for a tenant changes its counter and saturation mask, and page causes. -/
theorem bumpTenant_eq (c : Cfg) (d : Dev) (t : Tenant) (n : Fin 10) : ∃ m, CausesOnly (modS d fun x => { x with
    tctr := x.tctr.set t (x.tctr[t].set n (satInc64 x.tctr[t][n] 1)), tsat := m }) (bumpTenant c d t n) := by
  unfold bumpTenant
  dsimp only
  generalize wouldSaturate d.stat.tctr[t][n] 1 = b
  generalize (b && !d.stat.tsat[t].getLsbD n.val) = z
  refine ⟨if b then d.stat.tsat.set t (setSat d.stat.tsat[t] n.val) else d.stat.tsat, ?_⟩
  have e : (modS d fun x => { x with
      tctr := x.tctr.set t (x.tctr[t].set n (satInc64 x.tctr[t][n] 1)), tsat := if b then d.stat.tsat.set t (setSat d.stat.tsat[t] n.val) else d.stat.tsat }) =
      modS d fun x => { x with
      tctr := x.tctr.set t (x.tctr[t].set n (satInc64 x.tctr[t][n] 1)), tsat := if b then x.tsat.set t (setSat x.tsat[t] n.val) else x.tsat } := rfl
  rw [e]
  cases z
  · exact CausesOnly.refl _
  · exact addCauseTenant_only _ _ _ 8

/-- A unit health count changes its counter and saturation mask, and page causes. -/
theorem bumpHealthN_eq (d : Dev) (n : Fin 7) (k : Nat) : ∃ m, CausesOnly (modS d fun x => { x with
    health := x.health.set n (satInc64 x.health[n] k), healthSat := m }) (bumpHealthN d n k) := by
  unfold bumpHealthN
  dsimp only
  generalize wouldSaturate d.stat.health[n] k = b
  generalize (b && !d.stat.healthSat.getLsbD n.val) = z
  refine ⟨if b then setSat d.stat.healthSat n.val else d.stat.healthSat, ?_⟩
  have e : (modS d fun x => { x with
      health := x.health.set n (satInc64 x.health[n] k), healthSat := if b then setSat d.stat.healthSat n.val else d.stat.healthSat }) =
      modS d fun x => { x with
      health := x.health.set n (satInc64 x.health[n] k), healthSat := if b then setSat x.healthSat n.val else x.healthSat } := rfl
  rw [e]
  cases z
  · exact CausesOnly.refl _
  · exact addCauseAll_only _ 8

/-- A count on a Trellis port changes its counter and saturation mask, and page causes. -/
theorem bumpTrl_eq (d : Dev) (i : TPort) (n : Fin 7) : ∃ a, CausesOnly (modT d i fun x => { x with ctr := x.ctr.set n (satInc64 x.ctr[n] 1), sat := a }) (bumpTrl d i n) := by
  unfold bumpTrl
  dsimp only
  generalize wouldSaturate d.trl[i].ctr[n] 1 = b
  generalize (b && !d.trl[i].sat.getLsbD n.val) = z
  refine ⟨if b then setSat d.trl[i].sat n.val else d.trl[i].sat, ?_⟩
  have e : (modT d i fun x => { x with ctr := x.ctr.set n (satInc64 x.ctr[n] 1), sat := if b then setSat x.sat n.val else x.sat }) =
      modT d i fun x => { x with ctr := x.ctr.set n (satInc64 x.ctr[n] 1), sat := if b then setSat d.trl[i].sat n.val else d.trl[i].sat } := modT_congr rfl
  rw [e]
  cases z
  · exact CausesOnly.refl _
  · exact addCauseAll_only _ 8

/-- What a port becomes, and that nothing else changes. -/
theorem modP_only {d e : Dev} {p : LPort} {f : LemPort → LemPort} (h : e = modP d p f) :
    e.lem[p] = f d.lem[p] ∧ (∀ q : LPort, q ≠ p → e.lem[q] = d.lem[q]) ∧ e = { d with lem := e.lem } := by
  subst h; exact ⟨modP_at d p f, fun q hq => modP_other d f hq, rfl⟩

/-! ## What equal side states share -/

theorem lemSide_phase {x y : LemPort} (h : lemSide x = lemSide y) : x.phase = y.phase := congrArg (fun z => z.phase) h
theorem lemSide_portact {x y : LemPort} (h : lemSide x = lemSide y) : x.portact = y.portact := congrArg (fun z => z.portact) h
theorem lemSide_started {x y : LemPort} (h : lemSide x = lemSide y) : x.started = y.started := congrArg (fun z => z.started) h
theorem lemSide_present {x y : LemPort} (h : lemSide x = lemSide y) : x.present = y.present := congrArg (fun z => z.present) h
theorem lemSide_darn {x y : LemPort} (h : lemSide x = lemSide y) : x.darn = y.darn := congrArg (fun z => z.darn) h
theorem lemSide_helloSeen {x y : LemPort} (h : lemSide x = lemSide y) : x.helloSeen = y.helloSeen := congrArg (fun z => z.helloSeen) h
theorem lemSide_downReason {x y : LemPort} (h : lemSide x = lemSide y) : x.downReason = y.downReason := congrArg (fun z => z.downReason) h
theorem statSide_ready {x y : Stat} (h : statSide x = statSide y) : x.ready = y.ready := congrArg (fun z => z.ready) h
theorem statSide_stop {x y : Stat} (h : statSide x = statSide y) : x.stop = y.stop := congrArg (fun z => z.stop) h

/-- A link down keeps side states apart only by what they held. -/
theorem lemSide_portDown {x y : LemPort} (h : lemSide x = lemSide y) : lemSide (portDown x) = lemSide (portDown y) := by
  have e : ∀ z : LemPort, lemSide (portDown z) = lemSide (portDown (lemSide z)) := fun _ => rfl
  rw [e x, e y, h]

end Sys2Proof.Machine
end

