-- ==== Sys2Proof/Laws/Rings.lean ====
section
/-! SUPPORT. What changes of one ring do, and what fetching onwards leaves as it was. -/
namespace Sys2Proof.Machine
open Sys2Proof

/-- A change of a ring is a change of its port. -/
theorem modR_modP (d : Dev) (p : LPort) (r : RingNo) (f : Ring → Ring) : modR d p r f = modP d p fun x => { x with rings := x.rings.set r (f x.rings[r]) } := rfl

theorem ringAt_dropReads (d : Dev) (p q : LPort) (r s : RingNo) (f : ReadWhy → Bool) : ringAt (dropReads d p r f) q s = ringAt d q s :=
  ringAt_modP d p q s _ fun _ => rfl

/-- A ring of a changed port. -/
theorem ringAt_port (d : Dev) (p : LPort) (f : LemPort → LemPort) (r : RingNo) : ringAt (modP d p f) p r = (f d.lem[p]).rings[r] := by
  unfold ringAt; rw [modP_at]

/-- The ring that was set. -/
theorem set_ring (v : Vector Ring 8) (r : RingNo) (y : Ring) : (v.set r y)[r] = y := by simp

/-- Setting a ring twice. -/
theorem set_set_ring (v : Vector Ring 8) (r : RingNo) (y z : Ring) : (v.set r y).set r z = v.set r z := by simp

/-- Setting a ring to itself. -/
theorem set_self_ring (v : Vector Ring 8) (r : RingNo) : v.set r v[r] = v := by simp

/-- Setting a port to itself. -/
theorem modP_self {d : Dev} {p : LPort} {f : LemPort → LemPort} (h : f d.lem[p] = d.lem[p]) : modP d p f = d := by
  have e : d.lem.set p d.lem[p] = d.lem := by simp
  unfold modP
  rw [h, e]

/-- Two changes of one ring. -/
theorem modR_modR (d : Dev) (p : LPort) (r : RingNo) (f g : Ring → Ring) : modR (modR d p r f) p r g = modR d p r fun x => g (f x) := by
  unfold modR; rw [modP_modP]; exact modP_congr (by dsimp only; rw [set_ring, set_set_ring])

/-- Two changes of a ring that agree on what it holds. -/
theorem modR_congr {d : Dev} {p : LPort} {r : RingNo} {f g : Ring → Ring} (h : f (ringAt d p r) = g (ringAt d p r)) : modR d p r f = modR d p r g :=
  modP_congr (by unfold ringAt at h; rw [h])

/-- A change that leaves a ring as it is. -/
theorem modR_self {d : Dev} {p : LPort} {r : RingNo} {f : Ring → Ring} (h : f (ringAt d p r) = ringAt d p r) : modR d p r f = d :=
  modP_self (by unfold ringAt at h; rw [h, set_self_ring])

/-- Fetching onwards queues reads of slots and moves the fetch index: nothing else. -/
theorem fetchRuns_shape (p : LPort) (r : RingNo) (k : Nat) (d : Dev) : ∃ n l, (∀ it ∈ l, itemReads isSlots it = true) ∧
    fetchRuns p r k d = modP d p fun x => { x with txq := x.txq ++ l, rings := x.rings.set r { x.rings[r] with nextFetch := n } } := by
  have hself : ∀ d : Dev, d = modP d p fun x => { x with txq := x.txq ++ [], rings := x.rings.set r { x.rings[r] with nextFetch := (ringAt d p r).nextFetch } } := by
    intro d; refine (modP_self ?_).symm; unfold ringAt; dsimp only; rw [List.append_nil, set_self_ring]
  induction k generalizing d with
  | zero => exact ⟨_, [], by simp, hself d⟩
  | succ k ih =>
    unfold fetchRuns
    dsimp only
    split
    · exact ⟨_, [], by simp, hself d⟩
    · generalize hw : (min _ _ : Nat) = w
      obtain ⟨n, l, hl, e⟩ := ih (modR (readSlots d p r (ringAt d p r).nextFetch w) p r fun x => { x with nextFetch := x.nextFetch + BitVec.ofNat 16 w })
      rw [e]
      unfold readSlots wantRead pushTx modR
      dsimp only
      rw [modP_modP, modP_modP]
      refine ⟨n, { vc := 0, stream := r.val, body := .read { why := .slots r (ringAt d p r).nextFetch w, vc := 0, addr := (ringAt d p r).hdr.ringBase + 128 * slotOf (ringAt d p r).hdr (ringAt d p r).nextFetch, size := 128 * w } } :: l, ?_, modP_congr ?_⟩
      rotate_left
      · dsimp only
        rw [List.append_assoc, set_ring, set_set_ring]
        rfl
      · intro it hit
        rcases List.mem_cons.1 hit with h | h
        · subst h; rfl
        · exact hl it h

theorem fetchMore_shape (d : Dev) (p : LPort) (r : RingNo) : ∃ n l, (∀ it ∈ l, itemReads isSlots it = true) ∧
    fetchMore d p r = modP d p fun x => { x with txq := x.txq ++ l, rings := x.rings.set r { x.rings[r] with nextFetch := n } } := fetchRuns_shape p r 8 d

/-- A change of each of some rings that drops queue entries of one kind and sets one flag of that ring: what it does to the port. -/
theorem deferFold_shape (p : LPort) (g : Dev → RingNo → Bool) (w : RingNo → ReadWhy → Bool) (hw : ∀ q y, w q y = true → isHeader y = true) (l : List RingNo) (d : Dev) :
    ∃ (keep : TxItem → Bool) (v : Vector Ring 8), (∀ it, keep it = false → itemReads isHeader it = true) ∧ (∀ q : RingNo, ∃ b, v[q] = { (ringAt d p q) with hdrDeferred := b }) ∧
      (each l d fun d q => if g d q then modR (modP d p fun y => { y with txq := y.txq.filter fun it => !(itemReads (w q) it) }) p q fun y => { y with hdrDeferred := true } else d) =
        modP d p fun x => { x with txq := x.txq.filter keep, rings := v } := by
  induction l generalizing d with
  | nil =>
    refine ⟨fun _ => true, d.lem[p].rings, by simp, fun q => ⟨(ringAt d p q).hdrDeferred, rfl⟩, ?_⟩
    show d = _
    exact (modP_self (by simp)).symm
  | cons q l ih =>
    rw [each_cons]
    obtain ⟨keep, v, hk, hv, e⟩ := ih (if g d q then modR (modP d p fun y => { y with txq := y.txq.filter fun it => !(itemReads (w q) it) }) p q fun y => { y with hdrDeferred := true } else d)
    rw [e]
    by_cases hg : g d q = true
    · rw [if_pos hg] at hv ⊢
      refine ⟨fun it => !(itemReads (w q) it) && keep it, v, fun it h => ?_, fun z => ?_, ?_⟩
      · by_cases c : itemReads (w q) it = true
        · unfold itemReads at c ⊢
          split at c
          · exact hw q _ c
          · exact absurd c (by simp)
        · exact hk it (by simpa [c] using h)
      · obtain ⟨b, hb⟩ := hv z
        refine ⟨b, hb.trans ?_⟩
        by_cases hz : z = q
        · subst hz
          rw [modR_at]
          show ({ (ringAt (modP d p _) p z) with hdrDeferred := b } : Ring) = _
          rw [ringAt_port]
          rfl
        · rw [modR_ring _ _ _ hz, ringAt_port]
          rfl
      · unfold modR
        rw [modP_modP, modP_modP]
        refine modP_congr ?_
        dsimp only
        rw [List.filter_filter]
        congr 2
        funext it
        exact Bool.and_comm _ _
    · rw [if_neg hg] at hv ⊢
      exact ⟨keep, v, hk, hv, rfl⟩

/-- Deferring header reads drops reads of headers from the port's queue and notes them on their rings: nothing else. -/
theorem deferHeaders_shape (c : Cfg) (d : Dev) (p : LPort) (r : RingNo) : ∃ (keep : TxItem → Bool) (v : Vector Ring 8),
    (∀ it, keep it = false → itemReads isHeader it = true) ∧ (∀ q : RingNo, ∃ b, v[q] = { (ringAt d p q) with hdrDeferred := b }) ∧
    deferHeaders c d p r = modP d p fun x => { x with txq := x.txq.filter keep, rings := v } := by
  unfold deferHeaders
  split
  · exact ⟨fun _ => true, d.lem[p].rings, by simp, fun q => ⟨(ringAt d p q).hdrDeferred, rfl⟩, (modP_self (by simp)).symm⟩
  · rename_i x _
    exact deferFold_shape p (fun d q => writesHeader c d p q x && d.lem[p].txq.any (itemReads fun w => isHeader w && whyRing w == q))
      (fun q w => isHeader w && whyRing w == q) (fun q y h => (Bool.and_eq_true_iff.1 h).1) allRings d

/-- The descriptor that is admitted from a head. -/
def admittedRun (c : Cfg) (d : Dev) (p : LPort) (h : Head) (q : Slot) : Run :=
  newRun d h q (holdStripesOf d p q.bytes (headKnown c d p q.bytes h))
    (if isColl (dKind q.bytes) && h.status == 0 then namedMembers c d (tenantOf c p) (ownGroup d q.bytes (h.list.getD [])) else [])

/-- After a change of one ring and of the scheduler: deferring header reads and fetching onwards. -/
theorem deferFetch_shape (c : Cfg) (d : Dev) (p : LPort) (r : RingNo) (g : Ring → Ring) (k : Coll) :
    ∃ (keep : TxItem → Bool) (v : Vector Ring 8) (n : W16) (b : Bool) (l : List TxItem), (∀ it ∈ l, itemReads isSlots it = true) ∧ (∀ it, keep it = false → itemReads isHeader it = true) ∧
      (∀ z : RingNo, z ≠ r → ∃ b, v[z] = { (ringAt d p z) with hdrDeferred := b }) ∧ v[r] = { g (ringAt d p r) with nextFetch := n, hdrDeferred := b } ∧
      fetchMore (deferHeaders c { modR d p r g with coll := k } p r) p r = { modP d p (fun x => { x with txq := x.txq.filter keep ++ l, rings := v }) with coll := k } := by
  have hm : ∀ f, modP { modR d p r g with coll := k } p f = { modP (modR d p r g) p f with coll := k } := fun _ => rfl
  have hr : ∀ z, ringAt { modR d p r g with coll := k } p z = ringAt (modR d p r g) p z := fun _ => rfl
  generalize { modR d p r g with coll := k } = D at *
  obtain ⟨keep, v, hk, hv, e⟩ := deferHeaders_shape c D p r
  obtain ⟨n, l, hl, e'⟩ := fetchMore_shape (deferHeaders c D p r) p r
  obtain ⟨b, hb⟩ := hv r
  refine ⟨keep, v.set r { v[r] with nextFetch := n }, n, b, l, hl, hk, fun z hz => ?_, ?_, ?_⟩
  · obtain ⟨b', hb'⟩ := hv z
    refine ⟨b', ?_⟩
    have : r.val ≠ z.val := fun c => hz (Fin.ext c).symm
    rw [hr, modR_ring _ _ _ hz] at hb'
    rw [← hb']
    simp [this]
  · rw [set_ring, hb, hr, modR_at]
  · rw [e', e, modP_modP, hm]
    unfold modR
    rw [modP_modP]

/-- Admission: the head descriptor leaves the prefetch queue and runs, it is counted, header reads that it would overtake are deferred (R334), and fetching goes on. -/
theorem admitHead_shape (c : Cfg) (d : Dev) (p : LPort) (r : RingNo) (h : Head) (q : Slot) (rest : List Slot)
    (hh : (ringAt d p r).head = some h) (hq : (ringAt d p r).queue = q :: rest) :
    ∃ (keep : TxItem → Bool) (v : Vector Ring 8) (n : W16) (b : Bool) (l : List TxItem), (∀ it ∈ l, itemReads isSlots it = true) ∧ (∀ it, keep it = false → itemReads isHeader it = true) ∧
      (∀ z : RingNo, z ≠ r → ∃ b, v[z] = { (ringAt d p z) with hdrDeferred := b }) ∧
      v[r] = { (ringAt d p r) with queue := rest, head := none, nextFetch := n, cur := some (admittedRun c d p h q), hdrDeferred := b } ∧
      admitHead c d p r = { modP d p (fun x => { x with txq := x.txq.filter keep ++ l, rings := v }) with
      coll := { d.coll with admitted := d.coll.admitted + 1 } } := by
  unfold admitHead
  rw [hh, hq]
  exact deferFetch_shape c d p r (fun x => { x with queue := rest, head := none, cur := some (admittedRun c d p h q) }) { d.coll with admitted := d.coll.admitted + 1 }

/-- Where no header that has been read is kept, there is none to take. -/
theorem takePending_none {c : Cfg} {d : Dev} {p : LPort} {r : RingNo} (h : (ringAt d p r).hdrData = none) : takePending c d p r = d := by
  unfold takePending
  rw [h]

/-- A header that has been read and kept is judged, and what follows from it settles. -/
theorem takePending_some {c : Cfg} {d : Dev} {p : LPort} {r : RingNo} {bs : List Byte} (h : (ringAt d p r).hdrData = some bs) :
    takePending c d p r = epilogue c (takeHeader c d p r bs) := by
  unfold takePending
  rw [h]

end Sys2Proof.Machine
end

