-- ==== Sys2Proof/Laws/Pegs.lean ====
section
/-! SUPPORT. What the shared operations of pegs, barriers and running descriptors change, each said once. -/
namespace Sys2Proof.Machine
open Sys2Proof

theorem cur_modRun (d : Dev) (p : LPort) (r : RingNo) (f : Run → Run) : (ringAt (modRun d p r f) p r).cur = (ringAt d p r).cur.map f := by
  unfold modRun; rw [modR_at]

theorem modHead_cur (d : Dev) (p q : LPort) (r z : RingNo) (f : Head → Head) : (ringAt (modHead d p r f) q z).cur = (ringAt d q z).cur := by
  unfold modHead
  by_cases hq : q = p
  · subst hq
    by_cases hz : z = r
    · subst hz; rw [modR_at]
    · rw [modR_ring _ _ _ hz]
  · rw [modR_port _ _ _ _ hq]

theorem judgeRing_cur (c : Cfg) (d : Dev) (p q : LPort) (r z : RingNo) : (ringAt (judgeRing c d p r) q z).cur = (ringAt d q z).cur := by
  unfold judgeRing
  split
  · split
    · dsimp only
      split
      · rfl
      · exact modHead_cur _ _ _ _ _ _
    · rfl
  · rfl

theorem judgeAll_cur (c : Cfg) (d : Dev) (q : LPort) (z : RingNo) : (ringAt (judgeAll c d) q z).cur = (ringAt d q z).cur :=
  each_field allLem _ (fun d => (ringAt d q z).cur) (fun d p => each_field allRings _ (fun d => (ringAt d q z).cur) (fun d r => judgeRing_cur c d p q r z) d) d

theorem judgeRing_pegs (c : Cfg) (d : Dev) (p : LPort) (r : RingNo) : (judgeRing c d p r).pegs = d.pegs := by
  unfold judgeRing
  split
  · split
    · dsimp only
      split <;> rfl
    · rfl
  · rfl

theorem judgeAll_pegs (c : Cfg) (d : Dev) : (judgeAll c d).pegs = d.pegs :=
  each_field allLem _ (·.pegs) (fun d p => each_field allRings _ (·.pegs) (fun d r => judgeRing_pegs c d p r) d) d

/-- Sending a message keeps the leaf side and the pool. -/
theorem sendReply_keep (d : Dev) (t : Tenant) (dest rmsg exc peg value reqId : Nat) (body : List Byte) :
    (sendReply d t dest rmsg exc peg value reqId body).lem = d.lem ∧ (sendReply d t dest rmsg exc peg value reqId body).pegs.pool = d.pegs.pool := by
  unfold sendReply sendMsg
  split
  · exact ⟨rfl, rfl⟩
  · unfold sendPt
    split
    · split <;> exact ⟨rfl, rfl⟩
    · exact ⟨rfl, rfl⟩

theorem answer_keep (d : Dev) (k : Nat) : (answerWatches d k).lem = d.lem ∧ (answerWatches d k).pegs.pool = d.pegs.pool := by
  unfold answerWatches
  dsimp only
  exact ⟨(each_field _ _ (·.lem) (fun d w => (sendReply_keep d _ _ _ _ _ _ _ _).1) _), (each_field _ _ (·.pegs.pool) (fun d w => (sendReply_keep d _ _ _ _ _ _ _ _).2) _)⟩

/-- A pool operation writes the peg and keeps running descriptors. -/
theorem poolOp_keep (c : Cfg) (d : Dev) (k pop : Nat) (a : W16) :
    (∀ q z, (ringAt (poolOp c d k pop a).1 q z).cur = (ringAt d q z).cur) ∧
    (poolOp c d k pop a).1.pegs.pool = spWrite d.pegs.pool k (pegApply pop (poolPeg d k) a).1 ∧
    (poolOp c d k pop a).2 = ((pegApply pop (poolPeg d k) a).1, (pegApply pop (poolPeg d k) a).2) := by
  unfold poolOp
  dsimp only
  refine ⟨fun q z => ?_, ?_, rfl⟩
  · rw [judgeAll_cur]
    unfold ringAt
    rw [(answer_keep _ _).1]; rfl
  · rw [judgeAll_pegs, (answer_keep _ _).2]; rfl

/-- What the record fields become after an entry. -/
theorem entryDone_keep (c : Cfg) (d : Dev) (p : LPort) (r : RingNo) (k v e : Nat) (b : Bool) (x : Run) (hx : (ringAt d p r).cur = some x) :
    ∃ y, (ringAt (entryDone c d p r k v e b) p r).cur = some y ∧ y.entry = k + 1 ∧ y.waitReq = none ∧ y.finished = x.finished ∧ y.status = x.status ∧ y.desc = x.desc ∧
      y.aux = (if b then min v 1 else v) ∧ (e = 0 → y.exception = x.exception ∧ y.excAt = x.excAt) ∧
      (entryDone c d p r k v e b).pegs = d.pegs ∧ (∀ q : LPort, (entryDone c d p r k v e b).lem[q].pocket = d.lem[q].pocket) := by
  unfold entryDone tallyExc
  dsimp only
  have h1 : (ringAt (modRun d p r fun x => { x with entry := k + 1, waitReq := none, aux := if b then min v 1 else v }) p r).cur =
      some { x with entry := k + 1, waitReq := none, aux := if b then min v 1 else v } := by rw [cur_modRun, hx]; rfl
  have hp : ∀ (d : Dev) (f : Run → Run) (q : LPort), (modRun d p r f).lem[q].pocket = d.lem[q].pocket := by
    intro d f q
    by_cases hq : q = p
    · subst hq; unfold modRun modR; rw [modP_at]
    · unfold modRun modR; rw [modP_other _ _ hq]
  by_cases he : e = 0
  · rw [if_pos he]
    exact ⟨_, h1, rfl, rfl, rfl, rfl, rfl, rfl, fun _ => ⟨rfl, rfl⟩, rfl, fun q => hp _ _ q⟩
  · rw [if_neg he]
    generalize (if e = 2 then 7 else 8 : Fin 10) = nn
    obtain ⟨m, hc⟩ := bumpTenant_eq c (modRun (modRun d p r fun x => { x with entry := k + 1, waitReq := none, aux := if b then min v 1 else v }) p r fun x => noteExc x e k [k]) (tenantOf c p) nn
    have hr := hc.ring p r
    have hnote : ∀ x : Run, (noteExc x e k [k]).entry = x.entry ∧ (noteExc x e k [k]).waitReq = x.waitReq ∧ (noteExc x e k [k]).finished = x.finished ∧ (noteExc x e k [k]).status = x.status ∧ (noteExc x e k [k]).desc = x.desc ∧ (noteExc x e k [k]).aux = x.aux := by
      intro x; unfold noteExc; rw [if_neg he]; exact ⟨rfl, rfl, rfl, rfl, rfl, rfl⟩
    have hcur : (ringAt (modS (modRun (modRun d p r fun x => { x with entry := k + 1, waitReq := none, aux := if b then min v 1 else v }) p r fun x => noteExc x e k [k]) fun x => { x with
    tctr := x.tctr.set (tenantOf c p) (x.tctr[tenantOf c p].set nn (satInc64 x.tctr[tenantOf c p][nn] 1)), tsat := m }) p r).cur = some (noteExc { x with entry := k + 1, waitReq := none, aux := if b then min v 1 else v } e k [k]) := by
      show (ringAt (modRun (modRun d p r _) p r _) p r).cur = _
      rw [cur_modRun, h1]; rfl
    obtain ⟨entry, waitReq, finished, status, desc, aux⟩ := hnote { x with entry := k + 1, waitReq := none, aux := if b then min v 1 else v }
    refine ⟨noteExc { x with entry := k + 1, waitReq := none, aux := if b then min v 1 else v } e k [k], ?_, entry, waitReq, finished, status, desc, aux, fun h => absurd h he, ?_, ?_⟩
    · rw [hr]; exact hcur
    · exact (congrArg Dev.pegs hc.1).trans rfl
    · intro q
      have := congrArg LemPort.pocket (hc.2 q)
      refine Eq.trans this ?_
      show (modRun (modRun d p r _) p r _).lem[q].pocket = _
      rw [hp, hp]

theorem pegFinish_keep (d : Dev) (p : LPort) (r : RingNo) (x : Run) (hx : (ringAt d p r).cur = some x) :
    (ringAt (pegFinish d p r) p r).cur = some (if x.waitReq.isNone && decide (4 ≤ skipNone x.desc 4 x.entry) then { x with finished := true } else x) ∧
    (pegFinish d p r).pegs = d.pegs ∧ (∀ q : LPort, (pegFinish d p r).lem[q].pocket = d.lem[q].pocket) := by
  unfold pegFinish
  refine ⟨by rw [cur_modRun, hx]; rfl, rfl, fun q => ?_⟩
  by_cases hq : q = p
  · subst hq; unfold modRun modR; rw [modP_at]
  · unfold modRun modR; rw [modP_other _ _ hq]

theorem cur_modRun_any (d : Dev) (p q : LPort) (r z : RingNo) (f : Run → Run) : (ringAt (modRun d p r f) q z).cur = if q = p ∧ z = r then (ringAt d q z).cur.map f else (ringAt d q z).cur := by
  unfold modRun
  by_cases hq : q = p
  · subst hq
    by_cases hz : z = r
    · subst hz; rw [modR_at, if_pos ⟨rfl, rfl⟩]
    · rw [modR_ring _ _ _ hz, if_neg (fun h => hz h.2)]
  · rw [modR_port _ _ _ _ hq, if_neg (fun h => hq h.1)]


/-- A change by sent peg messages alone: what waits on the Trellis ports and in this unit's own queue. -/
def MsgOnly (d e : Dev) : Prop := ∃ v q, e = { d with trl := v, pegs := { d.pegs with selfq := q } }

theorem MsgOnly.refl (d : Dev) : MsgOnly d d := ⟨d.trl, d.pegs.selfq, rfl⟩
theorem MsgOnly.trans {a b c : Dev} (h : MsgOnly a b) (g : MsgOnly b c) : MsgOnly a c := by
  obtain ⟨v, q, rfl⟩ := h
  obtain ⟨w, z, rfl⟩ := g
  exact ⟨w, z, rfl⟩

theorem sendMsg_only (d : Dev) (f : TrlFrame) : MsgOnly d (sendMsg d f) := by
  unfold sendMsg
  split
  · exact ⟨d.trl, _, rfl⟩
  · unfold sendPt
    split
    · split
      · exact ⟨_, d.pegs.selfq, rfl⟩
      · exact MsgOnly.refl d
    · exact MsgOnly.refl d

theorem sendReply_only (d : Dev) (t : Tenant) (dest rmsg exc peg value reqId : Nat) (body : List Byte) : MsgOnly d (sendReply d t dest rmsg exc peg value reqId body) := sendMsg_only d _
theorem sendPeg_only (d : Dev) (t : Tenant) (dest pmsg pcode peg operand reqId members : Nat) (body : List Byte) :
    MsgOnly d (sendPeg d t dest pmsg pcode peg operand reqId members body) := sendMsg_only d _

theorem each_msgs {α : Type} (l : List α) (f : Dev → α → Dev) (h : ∀ d x, MsgOnly d (f d x)) (d : Dev) : MsgOnly d (each l d f) :=
  each_rel MsgOnly MsgOnly.refl (fun _ _ _ => MsgOnly.trans) l f h d

/-- What a write of a pool peg leaves: the other parts of the peg island, the line, the status, the recovery part, and every running descriptor. -/
structure PoolOnly (d e : Dev) : Prop where
  phases : e.pegs.phases = d.pegs.phases
  arrivals : e.pegs.arrivals = d.pegs.arrivals
  nextReq : e.pegs.nextReq = d.pegs.nextReq
  line : e.line = d.line
  stat : e.stat = d.stat
  recov : e.recov = d.recov
  cur : ∀ p r, (ringAt e p r).cur = (ringAt d p r).cur

theorem PoolOnly.refl (d : Dev) : PoolOnly d d := ⟨rfl, rfl, rfl, rfl, rfl, rfl, fun _ _ => rfl⟩
theorem PoolOnly.trans {a b c : Dev} (h : PoolOnly a b) (g : PoolOnly b c) : PoolOnly a c :=
  ⟨g.phases.trans h.phases, g.arrivals.trans h.arrivals, g.nextReq.trans h.nextReq, g.line.trans h.line, g.stat.trans h.stat, g.recov.trans h.recov, fun p r => (g.cur p r).trans (h.cur p r)⟩

theorem MsgOnly.keep {d e : Dev} (h : MsgOnly d e) : PoolOnly d e ∧ e.pegs.pool = d.pegs.pool ∧ e.pegs.watches = d.pegs.watches := by
  obtain ⟨v, q, rfl⟩ := h
  exact ⟨{ PoolOnly.refl d with }, rfl, rfl⟩

theorem answerWatches_only (d : Dev) (k : Nat) : PoolOnly d (answerWatches d k) := by
  unfold answerWatches
  dsimp only
  have h : PoolOnly d { d with pegs := { d.pegs with watches := d.pegs.watches.filter fun w => !(w.peg == k && pegMeets d k w.cond w.operand) } } :=
    { PoolOnly.refl d with }
  exact h.trans (each_msgs _ _ (fun d (w : Watch) => sendReply_only d _ _ _ _ _ _ _ _) _).keep.1

theorem judgeRing_only (c : Cfg) (d : Dev) (p : LPort) (r : RingNo) : PoolOnly d (judgeRing c d p r) := by
  have hc := fun q z => judgeRing_cur c d p q r z
  have : ∃ v, judgeRing c d p r = { d with lem := v } := by
    unfold judgeRing
    split
    · split
      · dsimp only
        split
        · exact ⟨d.lem, rfl⟩
        · exact ⟨_, rfl⟩
      · exact ⟨d.lem, rfl⟩
    · exact ⟨d.lem, rfl⟩
  obtain ⟨v, h⟩ := this
  exact ⟨by rw [h], by rw [h], by rw [h], by rw [h], by rw [h], by rw [h], hc⟩

theorem judgeAll_only (c : Cfg) (d : Dev) : PoolOnly d (judgeAll c d) :=
  each_rel PoolOnly PoolOnly.refl (fun _ _ _ => PoolOnly.trans) _ _ (fun d p => each_rel PoolOnly PoolOnly.refl (fun _ _ _ => PoolOnly.trans) _ _ (fun d r => judgeRing_only c d p r) d) d

theorem poolWrite_only (c : Cfg) (d : Dev) (k : Nat) (v : W16) : PoolOnly d (poolWrite c d k v) ∧ (poolWrite c d k v).pegs.pool = spWrite d.pegs.pool k v := by
  unfold poolWrite
  have h : PoolOnly d (setPool d k v) := { PoolOnly.refl d with }
  refine ⟨(h.trans (answerWatches_only _ k)).trans (judgeAll_only c _), ?_⟩
  rw [judgeAll_pegs, (answer_keep _ _).2]
  rfl

/-- Completing a list of descriptors changes nothing but the leaf side. -/
theorem finishRuns_only (d : Dev) (l : List (LPort × RingNo)) (st : Byte) : ∃ v, finishRuns d l st = { d with lem := v } :=
  each_rel (fun d e : Dev => ∃ v, e = { d with lem := v }) (fun d => ⟨d.lem, rfl⟩) (fun a b c h g => by
    obtain ⟨v, rfl⟩ := h; obtain ⟨w, rfl⟩ := g; exact ⟨w, rfl⟩) l _ (fun d e => ⟨_, rfl⟩) d

/-- Completing a list of descriptors: those named are finished, with the status where they were not, and keep their index. -/
theorem finishRuns_cur (l : List (LPort × RingNo)) (st : Byte) (d : Dev) (p : LPort) (r : RingNo) (y : Run) (hy : (ringAt d p r).cur = some y)
    (h : ((p, r) ∈ l ∧ y.finished = false) ∨ (y.finished = true ∧ y.status = st)) :
    ∃ z, (ringAt (finishRuns d l st) p r).cur = some z ∧ z.finished = true ∧ z.status = st ∧ z.index = y.index := by
  unfold finishRuns
  induction l generalizing d y with
  | nil =>
    rcases h with h | h
    · exact absurd h.1 (by simp)
    · exact ⟨y, hy, h.1, h.2, rfl⟩
  | cons e l ih =>
    rw [each_cons]
    have hc := cur_modRun_any d e.1 p e.2 r fun y => if y.finished then y else { y with status := st, finished := true }
    by_cases he : p = e.1 ∧ r = e.2
    · rw [if_pos he, hy, Option.map_some] at hc
      obtain ⟨z, z1, z2, z3, z4⟩ := ih _ _ hc (Or.inr (by
        rcases h with h | h
        · rw [if_neg (by rw [h.2]; decide)]; exact ⟨rfl, rfl⟩
        · rw [if_pos h.1]; exact h))
      refine ⟨z, z1, z2, z3, z4.trans ?_⟩
      split <;> rfl
    · rw [if_neg he, hy] at hc
      refine ih _ _ hc ?_
      rcases h with h | h
      · rcases List.mem_cons.1 h.1 with g | g
        · exact absurd ⟨congrArg Prod.fst g, congrArg Prod.snd g⟩ he
        · exact Or.inl ⟨g, h.2⟩
      · exact Or.inr h

/-- Counting timeouts changes the tenant's counters and its interrupt causes. -/
theorem countTimeouts_only (c : Cfg) (d : Dev) (t : Tenant) (n : Nat) :
    (countTimeouts c d t n).pegs = d.pegs ∧ (countTimeouts c d t n).line = d.line ∧ (countTimeouts c d t n).stat.health = d.stat.health ∧ ∀ p r, ringAt (countTimeouts c d t n) p r = ringAt d p r := by
  have h := each_rel (fun d e : Dev => e.pegs = d.pegs ∧ e.line = d.line ∧ e.stat.health = d.stat.health ∧ ∀ p r, ringAt e p r = ringAt d p r) (fun d => ⟨rfl, rfl, rfl, fun _ _ => rfl⟩)
    (fun a b c h g => ⟨g.1.trans h.1, g.2.1.trans h.2.1, g.2.2.1.trans h.2.2.1, fun p r => (g.2.2.2 p r).trans (h.2.2.2 p r)⟩) (List.range n) (fun d _ => bumpTenant c d t 6) (fun d _ => by
      obtain ⟨m, hc⟩ := bumpTenant_eq c d t 6
      exact ⟨(congrArg Dev.pegs hc.1).trans rfl, (congrArg Dev.line hc.1).trans rfl, (congrArg Stat.health hc.stat).trans rfl, fun p r => (hc.ring p r).trans rfl⟩) d
  exact h

theorem pred_ite {α : Type} (P : α → Prop) {p : Prop} [Decidable p] {a b : α} (ha : P a) (hb : P b) : P (if p then a else b) := by
  split
  · exact ha
  · exact hb

/-- The arrive step changes arrivals and sends. -/
theorem tryArrive_line (c : Cfg) (d : Dev) (a : Arrival) : (tryArrive c d a).line = d.line ∧ (tryArrive c d a).stat = d.stat := by
  unfold tryArrive
  dsimp only
  refine pred_ite (fun e : Dev => e.line = d.line ∧ e.stat = d.stat) ⟨rfl, rfl⟩ (pred_ite (fun e : Dev => e.line = d.line ∧ e.stat = d.stat) ?_ ⟨rfl, rfl⟩)
  have h := fun D x1 x2 x3 x4 x5 x6 x7 x8 x9 => (sendPeg_only D x1 x2 x3 x4 x5 x6 x7 x8 x9).keep.1
  exact ⟨(h _ _ _ _ _ _ _ _ _ _).line, (h _ _ _ _ _ _ _ _ _ _).stat⟩

theorem tryArrivals_line (c : Cfg) (d : Dev) : (tryArrivals c d).line = d.line ∧ (tryArrivals c d).stat = d.stat :=
  ⟨each_field _ _ (·.line) (fun d a => (tryArrive_line c d a).1) d, each_field _ _ (·.stat) (fun d a => (tryArrive_line c d a).2) d⟩

/-- Sending the ARRIVE of barriers that the line had completed changes no more of the line than what is left to send, and neither counters nor arrivals nor rings. -/
theorem sendCompleted_only (c : Cfg) (d : Dev) :
    { (sendCompleted c d).line with completed := [] } = { d.line with completed := [] } ∧ (sendCompleted c d).stat = d.stat ∧
    (sendCompleted c d).pegs.arrivals = d.pegs.arrivals ∧ ∀ p r, (ringAt (sendCompleted c d) p r).cur = (ringAt d p r).cur := by
  unfold sendCompleted
  dsimp only
  generalize (allTenants.find? (ownsLine c)).getD 0 = t
  have one : ∀ (D : Dev) (e : Nat × Nat × Nat × Nat × List Byte) (E : Dev), E = (if (!(inSlice c t e.2.2.1) || pairBusy D (liveHome D e.2.1) e.2.2.1 || (D.pegs.arrivals.any fun a => a.arrived && a.home == liveHome D e.2.1 && a.peg == e.2.2.1) || !(hasRoute D (liveHome D e.2.1))) = true then D
      else sendPeg { D with
        line := { D.line with completed := D.line.completed.erase e }
        pegs := { D.pegs with ignored := D.pegs.ignored ++ [(liveHome D e.2.1, e.2.2.1, e.2.2.2.1, e.2.2.2.2)] } } t (liveHome D e.2.1) 4 0 e.2.2.1 0 0 e.2.2.2.1 e.2.2.2.2) →
      { E.line with completed := [] } = { D.line with completed := [] } ∧ E.stat = D.stat ∧ E.pegs.arrivals = D.pegs.arrivals ∧ ∀ p r, (ringAt E p r).cur = (ringAt D p r).cur := by
    intro D e E hE
    rw [hE]
    split
    · exact ⟨rfl, rfl, rfl, fun _ _ => rfl⟩
    · have h := sendPeg_only { D with
        line := { D.line with completed := D.line.completed.erase e }
        pegs := { D.pegs with ignored := D.pegs.ignored ++ [(liveHome D e.2.1, e.2.2.1, e.2.2.2.1, e.2.2.2.2)] } } t (liveHome D e.2.1) 4 0 e.2.2.1 0 0 e.2.2.2.1 e.2.2.2.2
      have k := h.keep.1
      exact ⟨by rw [k.line], k.stat, k.arrivals, k.cur⟩
  generalize (d.line.completed.filter fun e => d.line.fallback && decide (d.line.f ≤ e.1)) = l
  induction l generalizing d with
  | nil => exact ⟨rfl, rfl, rfl, fun _ _ => rfl⟩
  | cons e l ih =>
    obtain ⟨h1, h2, h3, h4⟩ := one d e _ rfl
    obtain ⟨g1, g2, g3, g4⟩ := ih (if (!(inSlice c t e.2.2.1) || pairBusy d (liveHome d e.2.1) e.2.2.1 || (d.pegs.arrivals.any fun a => a.arrived && a.home == liveHome d e.2.1 && a.peg == e.2.2.1) || !(hasRoute d (liveHome d e.2.1))) = true then d
      else sendPeg { d with
        line := { d.line with completed := d.line.completed.erase e }
        pegs := { d.pegs with ignored := d.pegs.ignored ++ [(liveHome d e.2.1, e.2.2.1, e.2.2.2.1, e.2.2.2.2)] } } t (liveHome d e.2.1) 4 0 e.2.2.1 0 0 e.2.2.2.1 e.2.2.2.2)
    exact ⟨g1.trans h1, g2.trans h2, g3.trans h3, fun p r => (g4 p r).trans (h4 p r)⟩

/-- What ending an arrival keeps: all of the line but its number, and the status part. -/
structure LineKeep (d e : Dev) : Prop where
  fallback : e.line.fallback = d.line.fallback
  f : e.line.f = d.line.f
  assertA : e.line.assertA = d.line.assertA
  assertB : e.line.assertB = d.line.assertB
  stat : e.stat = d.stat

theorem LineKeep.of_eq {d e : Dev} (h : e.line = d.line) (k : e.stat = d.stat) : LineKeep d e := ⟨by rw [h], by rw [h], by rw [h], by rw [h], k⟩
theorem LineKeep.refl (d : Dev) : LineKeep d d := .of_eq rfl rfl
theorem LineKeep.trans {a b c : Dev} (h : LineKeep a b) (g : LineKeep b c) : LineKeep a c :=
  ⟨g.fallback.trans h.fallback, g.f.trans h.f, g.assertA.trans h.assertA, g.assertB.trans h.assertB, g.stat.trans h.stat⟩

theorem each_line {α : Type} (l : List α) (g : Dev → α → Dev) (h : ∀ d x, LineKeep d (g d x)) (d : Dev) : LineKeep d (each l d g) :=
  each_rel LineKeep LineKeep.refl (fun _ _ _ => LineKeep.trans) l g h d

theorem tryArrivals_keep (c : Cfg) (d : Dev) : LineKeep d (tryArrivals c d) := .of_eq (tryArrivals_line c d).1 (tryArrivals_line c d).2

theorem tryArrivals_from {d e : Dev} (c : Cfg) (h : e.line = d.line) (k : e.stat = d.stat) : LineKeep d (tryArrivals c e) := (LineKeep.of_eq h k).trans (tryArrivals_keep c e)

theorem noteLine_keep (d : Dev) (p : LPort) (r : RingNo) (line : Bool) (n : Nat) : (noteLine d p r line n).line = d.line ∧ (noteLine d p r line n).stat = d.stat := by
  unfold noteLine
  split <;> exact ⟨rfl, rfl⟩

theorem placeBarrier_keep (c : Cfg) (d : Dev) (p : LPort) (r : RingNo) (x : Run) : LineKeep d (placeBarrier c d p r x) := by
  have hn := noteLine_keep d p r (lineRun c p x.desc) d.line.n
  refine LineKeep.trans (.of_eq hn.1 hn.2) ?_
  unfold placeBarrier
  dsimp only
  generalize noteLine d p r (lineRun c p x.desc) d.line.n = D
  refine pred_ite (LineKeep D) (.of_eq rfl rfl) ?_
  split
  · exact .of_eq rfl rfl
  · split
    · unfold joinArrival
      refine pred_ite (LineKeep D) (.of_eq rfl rfl) (pred_ite (LineKeep D) ?_ ?_)
      · exact .of_eq (noteLine_keep _ _ _ _ _).1 (noteLine_keep _ _ _ _ _).2
      · exact tryArrivals_from c rfl rfl
    · unfold openArrival
      exact tryArrivals_from c rfl rfl

theorem placeHeld_keep (c : Cfg) (d : Dev) : LineKeep d (placeHeld c d) := by
  unfold placeHeld
  refine each_line _ _ (fun d e => ?_) d
  split
  · exact pred_ite (LineKeep d) (placeBarrier_keep c d _ _ _) (LineKeep.refl d)
  · exact LineKeep.refl d

/-- Ending an arrival for want of pegs (R159). -/
theorem endArrival_keep (c : Cfg) (d : Dev) (a : Arrival) : LineKeep d (endArrival c d a 7) := by
  unfold endArrival
  dsimp only
  rw [if_neg (by decide)]
  refine LineKeep.trans ?_ (placeHeld_keep c _)
  obtain ⟨v, hv⟩ := finishRuns_only d a.runs 7
  obtain ⟨h1, h2, _, _⟩ := sendCompleted_only c (closeArrival (finishRuns d a.runs 7) a)
  have hk : LineKeep d (closeArrival (finishRuns d a.runs 7) a) := by
    rw [hv]
    unfold closeArrival
    dsimp only
    split <;> exact ⟨rfl, rfl, rfl, rfl, rfl⟩
  have q := fun {α : Type} (g : Line → α) (hg : ∀ l : Line, g { l with completed := [] } = g l) => (hg _).symm.trans ((congrArg g h1).trans (hg _))
  exact hk.trans ⟨q Line.fallback fun _ => rfl, q Line.f fun _ => rfl, q Line.assertA fun _ => rfl, q Line.assertB fun _ => rfl, h2⟩

theorem endPegless_keep (c : Cfg) (d : Dev) : LineKeep d (endPegless c d) := each_line _ _ (fun d a => endArrival_keep c d a) d

/-- Sending what is due keeps the line but for what is left to send. -/
theorem sendDue_keep (c : Cfg) (d : Dev) : LineKeep d (tryArrivals c (sendCompleted c d)) ∧ (tryArrivals c (sendCompleted c d)).line.n = d.line.n := by
  obtain ⟨h1, h2, _, _⟩ := sendCompleted_only c d
  have q := fun {α : Type} (g : Line → α) (hg : ∀ l : Line, g { l with completed := [] } = g l) => (hg _).symm.trans ((congrArg g h1).trans (hg _))
  exact ⟨LineKeep.trans ⟨q Line.fallback fun _ => rfl, q Line.f fun _ => rfl, q Line.assertA fun _ => rfl, q Line.assertB fun _ => rfl, h2⟩ (tryArrivals_keep c _),
    (congrArg Line.n (tryArrivals_line c (sendCompleted c d)).1).trans (q Line.n fun _ => rfl)⟩

/-- Noting line fallback: the line's fields, and no health counter changes. -/
theorem noteFallback_line (c : Cfg) (d : Dev) (f : Nat) :
    (noteFallback c d f).line = (if d.line.fallback = true then { d.line with f := f } else { d.line with fallback := true, f := f, assertA := false, assertB := false }) ∧
    (noteFallback c d f).stat.health = d.stat.health ∧ (noteFallback c d f).pegs = d.pegs := by
  unfold noteFallback
  split
  · exact ⟨rfl, rfl, rfl⟩
  · have hb : ∀ d : Dev, (each allTenants d fun d t => if ownsLine c t then bumpTenant c d t 3 else d).line = d.line ∧
        (each allTenants d fun d t => if ownsLine c t then bumpTenant c d t 3 else d).stat.health = d.stat.health ∧
        (each allTenants d fun d t => if ownsLine c t then bumpTenant c d t 3 else d).pegs = d.pegs :=
      each_rel (fun d e : Dev => e.line = d.line ∧ e.stat.health = d.stat.health ∧ e.pegs = d.pegs) (fun _ => ⟨rfl, rfl, rfl⟩)
        (fun _ _ _ h g => ⟨g.1.trans h.1, g.2.1.trans h.2.1, g.2.2.trans h.2.2⟩) _ _ (fun d t => by
          split
          · obtain ⟨m, hc⟩ := bumpTenant_eq c d t 3
            exact ⟨(congrArg Dev.line hc.1).trans rfl, (congrArg Stat.health hc.stat).trans rfl, (congrArg Dev.pegs hc.1).trans rfl⟩
          · exact ⟨rfl, rfl, rfl⟩)
    have hE := hb { d with line := { d.line with fallback := true, f := f, assertA := false, assertB := false } }
    dsimp only
    generalize (each allTenants { d with line := { d.line with fallback := true, f := f, assertA := false, assertB := false } } fun d t => if ownsLine c t then bumpTenant c d t 3 else d) = E at hE ⊢
    have hc := addCauseAll_only E 7
    exact ⟨((congrArg Dev.line hc.1).trans rfl).trans hE.1, (congrArg Stat.health hc.stat).trans hE.2.1, ((congrArg Dev.pegs hc.1).trans rfl).trans hE.2.2⟩

/-- The line after entering line fallback. -/
theorem enterFallback_line (c : Cfg) (d : Dev) (f : Nat) :
    (enterFallback c d f).line.fallback = true ∧
    (enterFallback c d f).line.f = (if d.line.fallback = true then min f d.line.f else f) ∧
    (d.line.fallback = false → (enterFallback c d f).line.assertA = false ∧ (enterFallback c d f).line.assertB = false) ∧
    (enterFallback c d f).stat.health = d.stat.health ∧
    ((∀ a ∈ d.pegs.arrivals, a.line.isSome = true → (sliceOf c a.tenant).2 ≠ 0) → (enterFallback c d f).line.n = d.line.n) := by
  unfold enterFallback
  by_cases hs : (d.line.fallback && decide (d.line.f ≤ f)) = true
  · rw [if_pos hs]
    simp only [Bool.and_eq_true, decide_eq_true_eq] at hs
    refine ⟨hs.1, ?_, fun h => absurd (hs.1.symm.trans h) (by decide), rfl, fun _ => rfl⟩
    rw [if_pos hs.1]; omega
  · rw [if_neg hs]
    obtain ⟨n1, n2, n3⟩ := noteFallback_line c d f
    generalize noteFallback c d f = D at n1 n2 n3 ⊢
    have hp := endPegless_keep c D
    obtain ⟨hd, hn⟩ := sendDue_keep c (endPegless c D)
    have hk := hp.trans hd
    refine ⟨?_, ?_, fun h => ?_, ?_, fun h => ?_⟩
    · rw [hk.fallback, n1]; split
      · assumption
      · rfl
    · rw [hk.f, n1]
      by_cases hf : d.line.fallback = true
      · rw [if_pos hf, if_pos hf]
        rw [hf] at hs
        simp only [Bool.true_and, decide_eq_true_eq] at hs
        show f = min f d.line.f
        omega
      · rw [if_neg hf, if_neg hf]
    · rw [hk.assertA, hk.assertB, n1, if_neg (by rw [h]; decide)]; exact ⟨rfl, rfl⟩
    · rw [hk.stat]; exact n2
    · have he : endPegless c D = D := by
        unfold endPegless
        have : (D.pegs.arrivals.filter fun a => a.line.any (fun n => decide (D.line.f ≤ n)) && (sliceOf c a.tenant).2 == 0) = [] := by
          rw [List.filter_eq_nil_iff, n3]
          intro a ha hb
          simp only [Bool.and_eq_true, beq_iff_eq] at hb
          refine h a ha ?_ hb.2
          cases hl : a.line with
          | none => rw [hl] at hb; exact absurd hb.1 (by simp)
          | some _ => rfl
        rw [this]; rfl
      rw [hn, he, n1]
      split <;> rfl

theorem setPhase_only (d : Dev) (k : Nat) (t : Tenant) (o : Option Phase) : (setPhase d k t o).pegs.pool = d.pegs.pool ∧
    (setPhase d k t o).pegs.phases = (d.pegs.phases.filter fun x => !(decide (x.peg = k) && decide (x.tenant = t))) ++ (match o with | some x => [x] | none => []) := by
  cases o <;> exact ⟨rfl, by simp [setPhase]⟩

theorem engineMismatch_only (c : Cfg) (d : Dev) (t : Tenant) (k : Nat) (us : List Nat) :
    (engineMismatch c d t k us).pegs.pool = spWrite d.pegs.pool k 0 ∧
    (engineMismatch c d t k us).pegs.phases = d.pegs.phases.filter fun x => !(decide (x.peg = k) && decide (x.tenant = t)) := by
  unfold engineMismatch
  dsimp only
  have hm := (each_msgs us (fun d u => sendReply d t u 7 0 k 0 0 []) (fun d u => sendReply_only d _ _ _ _ _ _ _ _) (setPhase d k t none)).keep
  generalize each us (setPhase d k t none) (fun d u => sendReply d t u 7 0 k 0 0 []) = E at hm ⊢
  have hw := poolWrite_only c E k 0
  refine ⟨?_, ?_⟩
  · rw [hw.2, hm.2.1]; rfl
  · rw [hw.1.phases, hm.1.phases, (setPhase_only d k t none).2, List.append_nil]

/-- When a frame of a kind is taken. -/
theorem trlIn (d : Dev) (i : TPort) (f : TrlFrame) (k : Nat) (h1 : trlUp d i = true) (h2 : d.sow.formed = true) (h3 : f.kind = BitVec.ofNat 8 k) (hk : k < 256) (h4 : trlContentOk f = true) (h5 : trlCodesOk f = true) :
    trlFrameIn d i f k = true := by
  unfold trlFrameIn
  rw [h1, h2, h3, h4, h5]
  simp [Nat.mod_eq_of_lt hk]

/-- What dropping an arrival leaves. -/
theorem dropArrival_mem (d : Dev) (a b : Arrival) :
    b ∈ (dropArrival d a).pegs.arrivals ↔ b ∈ d.pegs.arrivals ∧ ¬(b.tenant = a.tenant ∧ b.home = a.home ∧ b.peg = a.peg ∧ b.line = a.line) := by
  unfold dropArrival
  dsimp only
  rw [List.mem_filter]
  simp only [Bool.not_eq_true', Bool.and_eq_false_iff, decide_eq_false_iff_not]
  refine and_congr Iff.rfl ?_
  constructor
  · rintro h ⟨h1, h2, h3, h4⟩
    rcases h with ((h | h) | h) | h
    · exact h h1
    · exact h h2
    · exact h h3
    · exact h h4
  · intro h
    by_cases h1 : b.tenant = a.tenant
    · by_cases h2 : b.home = a.home
      · by_cases h3 : b.peg = a.peg
        · exact Or.inr fun h4 => h ⟨h1, h2, h3, h4⟩
        · exact Or.inl (Or.inr h3)
      · exact Or.inl (Or.inl (Or.inr h2))
    · exact Or.inl (Or.inl (Or.inl h1))

/-- Ending an arrival, before held barriers are placed again. -/
theorem endArrival_ended (c : Cfg) (d : Dev) (a : Arrival) (st : Byte) :
    ∃ D, endArrival c d a st = placeHeld c D ∧ D.stat.health = d.stat.health ∧
      (∀ (p : LPort) (r : RingNo) (y : Run), (p, r) ∈ a.runs → (ringAt d p r).cur = some y → y.finished = false →
        ∃ z, (ringAt D p r).cur = some z ∧ z.finished = true ∧ z.status = st ∧ z.index = y.index) ∧
      (∀ b, b ∈ D.pegs.arrivals ↔ b ∈ d.pegs.arrivals ∧ ¬(b.tenant = a.tenant ∧ b.home = a.home ∧ b.peg = a.peg ∧ b.line = a.line)) := by
  unfold endArrival
  dsimp only
  obtain ⟨v, hv⟩ := finishRuns_only d a.runs st
  have hcur := fun p r y => finishRuns_cur a.runs st d p r y
  generalize finishRuns d a.runs st = F at hv hcur ⊢
  have hC : ∃ G, (if st = 0x27 then countTimeouts c F a.tenant a.runs.length else F) = G ∧ G.pegs = F.pegs ∧ G.stat.health = F.stat.health ∧ ∀ p r, ringAt G p r = ringAt F p r := by
    refine ⟨_, rfl, ?_⟩
    split
    · obtain ⟨h1, h2, h3, h4⟩ := countTimeouts_only c F a.tenant a.runs.length
      exact ⟨h1, h3, h4⟩
    · exact ⟨rfl, rfl, fun _ _ => rfl⟩
  obtain ⟨G, hG, g1, g2, g3⟩ := hC
  rw [hG]
  have hD : ∀ b, b ∈ (dropArrival G a).pegs.arrivals ↔ b ∈ d.pegs.arrivals ∧ ¬(b.tenant = a.tenant ∧ b.home = a.home ∧ b.peg = a.peg ∧ b.line = a.line) := by
    intro b
    rw [dropArrival_mem, g1, hv]
  have hr : ∀ (p : LPort) (r : RingNo) (y : Run), (p, r) ∈ a.runs → (ringAt d p r).cur = some y → y.finished = false →
        ∃ z, (ringAt (dropArrival G a) p r).cur = some z ∧ z.finished = true ∧ z.status = st ∧ z.index = y.index := by
    intro p r y hm hy hf
    obtain ⟨z, z1, z2⟩ := hcur p r y hy (Or.inl ⟨hm, hf⟩)
    refine ⟨z, ?_, z2⟩
    show (ringAt G p r).cur = _
    rw [g3]; exact z1
  have hs : (dropArrival G a).stat.health = d.stat.health := by
    show G.stat.health = _
    rw [g2, hv]
  obtain ⟨h1, h2, h3, h4⟩ := sendCompleted_only c (closeArrival G a)
  have hK : (closeArrival G a).stat = (dropArrival G a).stat ∧ (closeArrival G a).pegs.arrivals = (dropArrival G a).pegs.arrivals ∧ ∀ p r, (ringAt (closeArrival G a) p r).cur = (ringAt (dropArrival G a) p r).cur := by
    unfold closeArrival
    dsimp only
    split
    · exact ⟨rfl, rfl, fun _ _ => rfl⟩
    · exact ⟨rfl, rfl, fun _ _ => rfl⟩
  refine ⟨_, rfl, ?_, ?_, ?_⟩
  · rw [h2, hK.1]; exact hs
  · intro p r y hm hy hf
    rw [h4, hK.2.2]
    exact hr p r y hm hy hf
  · intro b
    rw [h3, hK.2.1]
    exact hD b

end Sys2Proof.Machine
end

