-- ==== Sys2Proof/Laws/Colls.lean ====
section
/-! SUPPORT. What sending for an instance, ending and closing it change, each said once. -/
namespace Sys2Proof.Machine
open Sys2Proof

theorem instAt_modInst (d : Dev) (t : Tenant) (k : W16) (f : Inst → Inst) (hf : ∀ x, (f x).tenant = x.tenant ∧ (f x).coll = x.coll) :
    instAt (modInst d t k f) t k = (instAt d t k).map f := by
  unfold instAt modInst
  dsimp only
  induction d.coll.insts with
  | nil => rfl
  | cons y l ih =>
    rw [List.map_cons, List.find?_cons, List.find?_cons]
    by_cases hy : y.tenant = t ∧ y.coll = k
    · rw [if_pos hy, (hf y).1, (hf y).2, hy.1, hy.2]
      simp
    · rw [if_neg hy]
      have : (y.tenant == t && y.coll == k) = false := by
        cases h : (y.tenant == t && y.coll == k) with
        | false => rfl
        | true => exact absurd (by simpa using h) hy
      rw [this]
      exact ih


theorem instAt_key {d : Dev} {t : Tenant} {k : W16} {x : Inst} (h : instAt d t k = some x) : x.tenant = t ∧ x.coll = k := by
  have := List.find?_some h
  simpa using this

/-- What sending leaves: leaf side, status, the recovery part, and what the instance runs. -/
def Quiet (t : Tenant) (k : W16) (d e : Dev) : Prop :=
  e.lem = d.lem ∧ e.stat = d.stat ∧ e.recov = d.recov ∧ (instAt e t k).map (·.runs) = (instAt d t k).map (·.runs) ∧ (instAt e t k).map (·.goesOn) = (instAt d t k).map (·.goesOn)

theorem Quiet.refl (t : Tenant) (k : W16) (d : Dev) : Quiet t k d d := ⟨rfl, rfl, rfl, rfl, rfl⟩
theorem Quiet.trans {t : Tenant} {k : W16} {a b c : Dev} (h : Quiet t k a b) (g : Quiet t k b c) : Quiet t k a c :=
  ⟨g.1.trans h.1, g.2.1.trans h.2.1, g.2.2.1.trans h.2.2.1, g.2.2.2.1.trans h.2.2.2.1, g.2.2.2.2.trans h.2.2.2.2⟩

theorem quiet_modInst (d : Dev) (t : Tenant) (k : W16) (f : Inst → Inst) (hf : ∀ x, (f x).tenant = x.tenant ∧ (f x).coll = x.coll ∧ (f x).runs = x.runs ∧ (f x).goesOn = x.goesOn) : Quiet t k d (modInst d t k f) := by
  have h := instAt_modInst d t k f (fun x => ⟨(hf x).1, (hf x).2.1⟩)
  refine ⟨rfl, rfl, rfl, ?_, ?_⟩
  · rw [h, Option.map_map]; congr 1; funext x; exact (hf x).2.2.1
  · rw [h, Option.map_map]; congr 1; funext x; exact (hf x).2.2.2

theorem quiet_push (d : Dev) (t : Tenant) (k : W16) (i : TPort) (o : Owner) (n : Nat) (f : TrlFrame) : Quiet t k d (pushTrl d i o n f) := ⟨rfl, rfl, rfl, rfl, rfl⟩

theorem quiet_each {α : Type} (t : Tenant) (k : W16) (l : List α) (f : Dev → α → Dev) (h : ∀ d x, Quiet t k d (f d x)) (d : Dev) : Quiet t k d (each l d f) :=
  each_rel (Quiet t k) (Quiet.refl t k) (fun _ _ _ => Quiet.trans) l f h d

theorem quiet_ite (t : Tenant) (k : W16) {p : Prop} [Decidable p] {d a b : Dev} (ha : Quiet t k d a) (hb : Quiet t k d b) : Quiet t k d (if p then a else b) := by
  split
  · exact ha
  · exact hb

theorem quiet_emit (d : Dev) (g : Geo) (t : Tenant) (k : W16) (w h : Nat) (tr : Transfer) (s : Stm) : Quiet t k d (emitTransfer d g t k w h tr s) := by
  unfold emitTransfer
  split
  · dsimp only
    split
    · exact Quiet.refl _ _ _
    · refine Quiet.trans ?_ (quiet_modInst _ t k _ (fun _ => ⟨rfl, rfl, rfl, rfl⟩))
      refine quiet_ite t k ?_ ?_
      · exact Quiet.trans (quiet_each t k _ _ (fun d i => quiet_push d t k _ _ _ _) d) (quiet_push _ t k _ _ _ _)
      · exact quiet_each t k _ _ (fun d i => quiet_push d t k _ _ _ _) d
  · exact Quiet.refl _ _ _

theorem quiet_prologues (d : Dev) (t : Tenant) (k : W16) : Quiet t k d (pumpPrologues d t k) := by
  unfold pumpPrologues
  split
  · exact Quiet.refl _ _ _
  · dsimp only
    exact each_rel (Quiet t k) (Quiet.refl t k) (fun _ _ _ => Quiet.trans) _ _ (fun d s =>
      each_rel (Quiet t k) (Quiet.refl t k) (fun _ _ _ => Quiet.trans) _ _ (fun d tr => quiet_emit d _ t k _ _ _ _) d) d

theorem quiet_force (d : Dev) (t : Tenant) (k : W16) : Quiet t k d (forcePrologue d t k) := by
  unfold forcePrologue
  refine Quiet.trans (quiet_modInst d t k _ ?_) (quiet_prologues _ t k)
  intro x
  split <;> exact ⟨rfl, rfl, rfl, rfl⟩

theorem floodOn_only (d : Dev) (ex : Option TPort) (src : Nat) (pl : List Byte) : ∃ v, floodOn d ex src pl = { d with trl := v } := by
  have := each_rel (fun d e : Dev => ∃ v, e = { d with trl := v }) (fun d => ⟨d.trl, rfl⟩) (fun a b c h g => by
    obtain ⟨v, rfl⟩ := h; obtain ⟨w, rfl⟩ := g; exact ⟨w, rfl⟩) allTrl (fun d i =>
    if trlUp d i && ex != some i then
      pushTrl d i .recovery 7 (mkTrl 7 7 0 src (facing d.sow.dims (ownAddr d) i.val) pl)
    else d) (fun d i => by
      split
      · exact ⟨_, rfl⟩
      · exact ⟨d.trl, rfl⟩) d
  exact this

theorem quiet_flood (d : Dev) (a b c e g : Nat) (body : List Byte) :
    (flood d a b c e g body).lem = d.lem ∧ (flood d a b c e g body).stat = d.stat ∧ (flood d a b c e g body).coll = d.coll ∧ (flood d a b c e g body).recov = { d.recov with serial := d.recov.serial + 1 } := by
  unfold flood
  dsimp only
  obtain ⟨v, h⟩ := floodOn_only { d with recov := { d.recov with serial := d.recov.serial + 1 } } none (ownAddr d) (recPayload a (d.recov.serial + 1).toNat b c e g body)
  have e2 : ownAddr { d with recov := { d.recov with serial := d.recov.serial + 1 } } = ownAddr d := rfl
  first
    | rw [h]
    | rw [e2, h]
  exact ⟨rfl, rfl, rfl, rfl⟩

theorem closeInst_none (d : Dev) (t : Tenant) (k : W16) : instAt (closeInst d t k) t k = none := by
  unfold closeInst
  split
  · assumption
  · unfold instAt
    dsimp only
    rw [List.find?_eq_none]
    intro y hy
    rw [List.mem_filter] at hy
    intro h
    rw [h] at hy
    exact absurd hy.2 (by simp)

theorem releaseStaging_keep (d : Dev) (x : Inst) : (releaseStaging d x).lem = d.lem ∧ (releaseStaging d x).stat = d.stat ∧ (releaseStaging d x).recov = d.recov := by
  unfold releaseStaging
  dsimp only
  split <;> exact ⟨rfl, rfl, rfl⟩

theorem endStore_keep (d : Dev) (x : Inst) : (endStore d x).lem = d.lem ∧ (endStore d x).stat = d.stat ∧ (endStore d x).recov = d.recov := by
  unfold endStore
  dsimp only
  split
  · exact releaseStaging_keep d x
  · exact releaseStaging_keep d _

theorem closeInst_keep (d : Dev) (t : Tenant) (k : W16) : (closeInst d t k).lem = d.lem ∧ (closeInst d t k).stat = d.stat ∧ (closeInst d t k).recov = d.recov := by
  unfold closeInst
  split
  · exact ⟨rfl, rfl, rfl⟩
  · exact endStore_keep d _

/-- Finishing a list of runs: those named are finished, with the status where they were not, and keep their index. -/
theorem finish_runs (l : List (LPort × RingNo)) (st : Byte) (u : Run → Nat) (gr : Bool) (d : Dev) (p : LPort) (r : RingNo) (y : Run) (hy : (ringAt d p r).cur = some y)
    (h : ((p, r) ∈ l ∧ y.finished = false) ∨ (y.finished = true ∧ y.status = st)) :
    ∃ z, (ringAt (each l d fun d e => modRun d e.1 e.2 fun y => if y.finished then y else { y with status := st, finished := true, aux := u y, evGraft := y.evGraft || gr }) p r).cur = some z ∧
      z.finished = true ∧ z.status = st ∧ z.index = y.index := by
  induction l generalizing d y with
  | nil =>
    rcases h with h | h
    · exact absurd h.1 (by simp)
    · exact ⟨y, hy, h.1, h.2, rfl⟩
  | cons e l ih =>
    rw [each_cons]
    have hc := cur_modRun_any d e.1 p e.2 r fun y => if y.finished then y else { y with status := st, finished := true, aux := u y, evGraft := y.evGraft || gr }
    by_cases he : p = e.1 ∧ r = e.2
    · rw [if_pos he, hy] at hc
      rw [Option.map_some] at hc
      have hz := ih _ _ hc (Or.inr ?_)
      · obtain ⟨z, z1, z2, z3, z4⟩ := hz
        refine ⟨z, z1, z2, z3, z4.trans ?_⟩
        split <;> rfl
      · rcases h with h | h
        · rw [if_neg (by rw [h.2]; decide)]; exact ⟨rfl, rfl⟩
        · rw [if_pos h.1]; exact h
    · rw [if_neg he, hy] at hc
      refine ih _ _ hc ?_
      rcases h with h | h
      · rcases List.mem_cons.1 h.1 with g | g
        · exact absurd ⟨congrArg Prod.fst g, congrArg Prod.snd g⟩ he
        · exact Or.inl ⟨g, h.2⟩
      · exact Or.inr h

theorem finishInst_keep (d0 : Dev) (x : Inst) (st : Byte) : (finishInst d0 x st).stat = d0.stat ∧ (finishInst d0 x st).coll = d0.coll ∧ (finishInst d0 x st).recov = d0.recov := by
  have := each_rel (fun d e : Dev => ∃ v, e = { d with lem := v }) (fun d => ⟨d.lem, rfl⟩) (fun a b c h g => by
    obtain ⟨v, rfl⟩ := h; obtain ⟨w, rfl⟩ := g; exact ⟨w, rfl⟩) x.runs (fun d e => modRun d e.1 e.2 fun y =>
    if y.finished then y else { y with status := st, finished := true, aux := if haveAll (geoOf d0 x) x then (membersOf (geoOf d0 x) x).length else y.aux, evGraft := y.evGraft || x.grafted }) (fun d i => ⟨_, rfl⟩) d0
  obtain ⟨v, h⟩ := this
  have e : finishInst d0 x st = { d0 with lem := v } := h
  rw [e]
  exact ⟨rfl, rfl, rfl⟩

theorem endInst_facts (d : Dev) (t : Tenant) (k : W16) (st : Byte) (x : Inst) (hx : instAt d t k = some x) :
    instAt (endInst d t k st) t k = none ∧ (endInst d t k st).stat = d.stat ∧ (endInst d t k st).recov = d.recov ∧
    ∀ (p : LPort) (r : RingNo) (y : Run), (p, r) ∈ x.runs → (ringAt d p r).cur = some y → y.finished = false →
          ∃ z, (ringAt (endInst d t k st) p r).cur = some z ∧ z.finished = true ∧ z.status = st ∧ z.index = y.index := by
  have q := quiet_force d t k
  unfold endInst
  dsimp only
  generalize forcePrologue d t k = E at *
  have hr := q.2.2.2.1
  rw [hx] at hr
  cases hE : instAt E t k with
  | none => rw [hE] at hr; cases hr
  | some z =>
    rw [hE] at hr
    have hz : z.runs = x.runs := by simpa using hr
    dsimp only
    have f := finishInst_keep E z st
    have c := closeInst_keep (finishInst E z st) t k
    refine ⟨closeInst_none _ _ _, c.2.1.trans (f.1.trans q.2.1), c.2.2.trans (f.2.2.trans q.2.2.1), ?_⟩
    intro p r y hm hy hyf
    have hy' : (ringAt E p r).cur = some y := by rw [← hy]; unfold ringAt; rw [q.1]
    obtain ⟨w, w1, w2⟩ := finish_runs z.runs st (fun y => if haveAll (geoOf E z) z then (membersOf (geoOf E z) z).length else y.aux) z.grafted E p r y hy' (Or.inl ⟨by rw [hz]; exact hm, hyf⟩)
    refine ⟨w, ?_, w2⟩
    unfold ringAt at w1 ⊢
    rw [c.1]
    exact w1

end Sys2Proof.Machine
end

