-- ==== Sys2Proof/Laws/DarnLaws.lean ====
section
/-! SUPPORT. Darn's books: each operation of Darn keeps them sound, and what a change of a port needs for the whole unit to stay sound. -/
namespace Sys2Proof.Machine
open Sys2Proof

variable {α : Type}

theorem darnSound_init : darnSound (Darn.init : Darn α) := ⟨by simp [Darn.init], rfl, rfl⟩

/-- Only the three fields that the books are about matter. -/
theorem darnSound_of_eq {a b : Darn α} (h : darnSound a) (h1 : b.held = a.held) (h2 : b.next = a.next) (h3 : b.replay = a.replay) : darnSound b := by
  unfold darnSound at h ⊢
  rw [h1, h2, h3]
  exact h

theorem afterAck_length (ack : BitVec 12) : ∀ l : List (BitVec 12 × α), (afterAck ack l).length ≤ l.length
  | [] => Nat.le_refl _
  | e :: es => by
    unfold afterAck
    split
    · simp
    · have := afterAck_length ack es; simp only [List.length_cons]; omega

/-- What stays behind an acknowledgement is numbered on from where it begins. -/
theorem afterAck_numbered (ack : BitVec 12) : ∀ (l : List (BitVec 12 × α)) (last : BitVec 12),
    numberedFrom (last - BitVec.ofNat 12 l.length) l = true →
    numberedFrom (last - BitVec.ofNat 12 (afterAck ack l).length) (afterAck ack l) = true
  | [], _, _ => rfl
  | e :: es, last, h => by
    simp only [numberedFrom, Bool.and_eq_true] at h
    have step : last - BitVec.ofNat 12 (e :: es).length + 1 = last - BitVec.ofNat 12 es.length := by
      simp only [List.length_cons]
      rw [show BitVec.ofNat 12 (es.length + 1) = BitVec.ofNat 12 es.length + 1 by simp [BitVec.ofNat_add]]
      generalize BitVec.ofNat 12 es.length = n
      bv_omega
    unfold afterAck
    split
    · rw [← step]; exact h.2
    · exact afterAck_numbered ack es last (by rw [← step]; exact h.2)

theorem darnAck_sound {dn : Darn α} (h : darnSound dn) (ack : BitVec 12) : darnSound (darnAck dn ack) := by
  unfold darnAck
  split
  · refine ⟨Nat.le_trans (afterAck_length ack dn.held) h.1, afterAck_numbered ack dn.held dn.next h.2.1, ?_⟩
    split
    · rfl
    · simp
  · exact h

theorem wantNack_sound {dn : Darn α} (h : darnSound dn) : darnSound (wantNack dn) := by
  unfold wantNack
  split
  · exact h
  · exact darnSound_of_eq h rfl rfl rfl

theorem darnRx_sound {dn : Darn α} (h : darnSound dn) (crc : Bool) (t : Tail) : darnSound (darnRx dn crc t).2 := by
  unfold darnRx
  dsimp only
  repeat' first
    | exact darnSound_of_eq h rfl rfl rfl
    | exact wantNack_sound h
    | exact h
    | split

theorem applyTail_sound {dn : Darn α} (h : darnSound dn) (t : Tail) : darnSound (applyTail dn t).1 := by
  unfold applyTail
  split
  · exact darnAck_sound h t.ack
  · exact h

theorem darnReplay_sound {dn dn' : Darn α} (h : darnSound dn) {asked : Bool} (e : darnReplay asked dn = some dn') : darnSound dn' := by
  unfold darnReplay at e
  split at e
  · cases e
  · cases e
    refine ⟨h.1, h.2.1, ?_⟩
    simp only [List.all_eq_true, List.any_eq_true]
    exact fun x hx => ⟨x, hx, by simp⟩

theorem numberedFrom_append (f : α) : ∀ (l : List (BitVec 12 × α)) (n : BitVec 12), numberedFrom n l = true →
    numberedFrom n (l ++ [(n + BitVec.ofNat 12 l.length, f)]) = true
  | [], n, _ => by simp [numberedFrom]
  | e :: es, n, h => by
    simp only [numberedFrom, Bool.and_eq_true] at h
    have ih := numberedFrom_append f es (n + 1) h.2
    simp only [List.cons_append, numberedFrom, Bool.and_eq_true]
    refine ⟨h.1, ?_⟩
    have : n + BitVec.ofNat 12 (e :: es).length = n + 1 + BitVec.ofNat 12 es.length := by
      simp only [List.length_cons]
      rw [show BitVec.ofNat 12 (es.length + 1) = BitVec.ofNat 12 es.length + 1 by simp [BitVec.ofNat_add]]
      generalize BitVec.ofNat 12 es.length = k
      bv_omega
    rw [this]
    exact ih

theorem darnSend_sound {dn : Darn α} (h : darnSound dn) (room : darnRoom dn = true) (hr : dn.replay = []) (f : α) : darnSound (darnSend dn f) := by
  have hlt : dn.held.length < 1024 := by simpa [darnRoom] using room
  refine ⟨by simp only [darnSend, List.length_append, List.length_singleton]; omega, ?_, by simp [darnSend, hr]⟩
  have key := numberedFrom_append f dn.held _ h.2.1
  have e1 : dn.next - BitVec.ofNat 12 dn.held.length + BitVec.ofNat 12 dn.held.length = dn.next := by
    generalize BitVec.ofNat 12 dn.held.length = k
    bv_omega
  have e2 : dn.next + 1 - BitVec.ofNat 12 (dn.held.length + 1) = dn.next - BitVec.ofNat 12 dn.held.length := by
    rw [show BitVec.ofNat 12 (dn.held.length + 1) = BitVec.ofNat 12 dn.held.length + 1 by simp [BitVec.ofNat_add]]
    generalize BitVec.ofNat 12 dn.held.length = k
    bv_omega
  rw [e1] at key
  simp only [darnSend, List.length_append, List.length_singleton]
  rw [e2]
  exact key

theorem replayTail_sound {dn : Darn α} {e : BitVec 12 × α} {rest : List (BitVec 12 × α)} (h : darnSound dn) (hr : dn.replay = e :: rest) :
    darnSound { dn with replay := rest } := by
  refine ⟨h.1, h.2.1, ?_⟩
  have := h.2.2
  rw [hr] at this
  simp only [List.all_cons, Bool.and_eq_true] at this
  exact this.2

/-! ## The unit -/

/-- Whatever is Kept stays sound. -/
theorem Kept.sound {a b : Dev} (k : Kept a b) (h : Sound a) : Sound b := by
  refine ⟨k.mem h.mem, fun p => ?_, fun i => ?_⟩
  · have : (lemSide b.lem[p]).darn = (lemSide a.lem[p]).darn := by rw [k.side.lem p]
    change b.lem[p].darn = a.lem[p].darn at this
    rw [this]; exact h.links.1 p
  · have : (trlSide b.trl[i]).darn = (trlSide a.trl[i]).darn := by rw [k.side.trl i]
    change b.trl[i].darn = a.trl[i].darn at this
    rw [this]; exact h.links.2 i

theorem modP_sound {d : Dev} (h : Sound d) (p : LPort) {f : LemPort → LemPort} (hw : ∀ x, spWf x.pocket = true → spWf (f x).pocket = true)
    (hd : ∀ x, darnSound x.darn → darnSound (f x).darn) : Sound (modP d p f) := by
  refine ⟨⟨h.mem.1, h.mem.2.1, h.mem.2.2.1, fun q => ?_⟩, fun q => ?_, h.links.2⟩
  · by_cases e : p = q
    · subst e; simpa [modP] using hw _ (h.mem.2.2.2 p)
    · have : p.val ≠ q.val := fun c => e (Fin.ext c)
      simpa [modP, this] using h.mem.2.2.2 q
  · by_cases e : p = q
    · subst e; simpa [modP] using hd _ (h.links.1 p)
    · have : p.val ≠ q.val := fun c => e (Fin.ext c)
      simpa [modP, this] using h.links.1 q

/-- A change that takes the port as it stands. -/
theorem modPAt_sound {d : Dev} (h : Sound d) (p : LPort) {f : LemPort → LemPort} (hw : (f d.lem[p]).pocket = d.lem[p].pocket)
    (hd : darnSound (f d.lem[p]).darn) : Sound (modP d p f) := by
  refine ⟨⟨h.mem.1, h.mem.2.1, h.mem.2.2.1, fun q => ?_⟩, fun q => ?_, h.links.2⟩
  · by_cases e : p = q
    · subst e
      have := h.mem.2.2.2 p
      rw [← hw] at this
      simpa [modP] using this
    · have : p.val ≠ q.val := fun c => e (Fin.ext c)
      simpa [modP, this] using h.mem.2.2.2 q
  · by_cases e : p = q
    · subst e; simpa [modP] using hd
    · have : p.val ≠ q.val := fun c => e (Fin.ext c)
      simpa [modP, this] using h.links.1 q

theorem modT_sound {d : Dev} (h : Sound d) (i : TPort) {f : TrlPort → TrlPort} (hd : ∀ x, darnSound x.darn → darnSound (f x).darn) : Sound (modT d i f) := by
  refine ⟨h.mem, h.links.1, fun j => ?_⟩
  by_cases e : i = j
  · subst e; simpa [modT] using hd _ (h.links.2 i)
  · have : i.val ≠ j.val := fun c => e (Fin.ext c)
    simpa [modT, this] using h.links.2 j

theorem modTAt_sound {d : Dev} (h : Sound d) (i : TPort) {f : TrlPort → TrlPort} (hd : darnSound (f d.trl[i]).darn) : Sound (modT d i f) := by
  refine ⟨h.mem, h.links.1, fun j => ?_⟩
  by_cases e : i = j
  · subst e; simpa [modT] using hd
  · have : i.val ≠ j.val := fun c => e (Fin.ext c)
    simpa [modT, this] using h.links.2 j

theorem modS_sound {d : Dev} (h : Sound d) (f : Stat → Stat) : Sound (modS d f) := ⟨h.mem, h.links⟩

/-- A record update of anything but storage and ports. -/
theorem misc_sound {d : Dev} (h : Sound d) (stat : Stat) (sow : Sow) (pegs : Pegs) (line : Line) (coll : Coll) (recov : Rec) (dbg : Dbg) (free : Nat)
    (hp : pegs.pool = d.pegs.pool) : Sound ⟨stat, d.lem, d.trl, sow, pegs, line, coll, d.store, recov, dbg, free⟩ :=
  ⟨⟨h.mem.1, h.mem.2.1, by rw [show (Dev.mk stat d.lem d.trl sow pegs line coll d.store recov dbg free).pegs.pool = d.pegs.pool from hp]; exact h.mem.2.2.1, h.mem.2.2.2⟩, h.links⟩

theorem each_sound {β : Type} {d : Dev} (h : Sound d) (l : List β) {f : Dev → β → Dev} (hf : ∀ d x, Sound d → Sound (f d x)) : Sound (each l d f) := by
  induction l generalizing d with
  | nil => exact h
  | cons x l ih => exact ih (hf d x h)

theorem ite_sound {a b : Dev} {p : Prop} [Decidable p] (ha : Sound a) (hb : Sound b) : Sound (if p then a else b) := by
  split
  · exact ha
  · exact hb

end Sys2Proof.Machine
end

