-- ==== Sys2Proof/Laws/Follow.lean ====
section
/-! SUPPORT. One lemma for each shared operation that leaves links, sowing, the debug port and the bring-up status alone: it keeps the canonical form of storage and all of that (relation Kept). -/
namespace Sys2Proof.Machine
open Sys2Proof

/-- A record update of the scheduler, the line, recovery, the draw counter, or of pegs apart from the pool. -/
theorem misc_kept {d0 d : Dev} (h : Kept d0 d) (pegs : Pegs) (line : Line) (coll : Coll) (recov : Rec) (free : Nat) (hp : pegs.pool = d.pegs.pool) :
    Kept d0 ⟨d.stat, d.lem, d.trl, d.sow, pegs, line, coll, d.store, recov, d.dbg, free⟩ :=
  h.of_eq rfl rfl rfl rfl rfl rfl rfl hp

theorem ite_kept {d0 a b : Dev} {p : Prop} [Decidable p] (ha : Kept d0 a) (hb : Kept d0 b) : Kept d0 (if p then a else b) := by
  split
  · exact ha
  · exact hb

theorem addCause_kept {d0 d : Dev} (h : Kept d0 d) (p : LPort) (bit : Nat) : Kept d0 (addCause d p bit) := by
  unfold addCause
  try dsimp only
  repeat' first
    | with_reducible assumption
    | with_reducible refine modP_kept ?_ _ ?_ ?_
    | exact fun _ => rfl
    | exact fun _ m => m
    | with_reducible refine ite_kept ?_ ?_

theorem addCauseAll_kept {d0 d : Dev} (h : Kept d0 d) (bit : Nat) : Kept d0 (addCauseAll d bit) := by
  unfold addCauseAll
  try dsimp only
  repeat' first
    | with_reducible assumption
    | with_reducible apply addCause_kept
    | with_reducible refine each_kept ?_ _ ?_
    | (intro _ _ _)

theorem addCauseTenant_kept {d0 d : Dev} (h : Kept d0 d) (c : Cfg) (t : Tenant) (bit : Nat) : Kept d0 (addCauseTenant c d t bit) := by
  unfold addCauseTenant
  try dsimp only
  repeat' first
    | with_reducible assumption
    | with_reducible apply addCause_kept
    | with_reducible refine each_kept ?_ _ ?_
    | (intro _ _ _)

theorem bumpLemN_kept {d0 d : Dev} (h : Kept d0 d) (p : LPort) (n : Fin 12) (k : Nat) : Kept d0 (bumpLemN d p n k) := by
  unfold bumpLemN
  try dsimp only
  repeat' first
    | with_reducible assumption
    | with_reducible apply addCause_kept
    | with_reducible refine modP_kept ?_ _ ?_ ?_
    | exact fun _ => rfl
    | exact fun _ m => m
    | with_reducible refine ite_kept ?_ ?_

theorem bumpLem_kept {d0 d : Dev} (h : Kept d0 d) (p : LPort) (n : Fin 12) : Kept d0 (bumpLem d p n) := by
  unfold bumpLem
  try dsimp only
  repeat' first
    | with_reducible assumption
    | with_reducible apply bumpLemN_kept

theorem bumpTrl_kept {d0 d : Dev} (h : Kept d0 d) (i : TPort) (n : Fin 7) : Kept d0 (bumpTrl d i n) := by
  unfold bumpTrl
  try dsimp only
  repeat' first
    | with_reducible assumption
    | with_reducible apply addCauseAll_kept
    | with_reducible refine modT_kept ?_ _ ?_
    | exact fun _ => rfl
    | with_reducible refine ite_kept ?_ ?_

theorem bumpTenant_kept {d0 d : Dev} (h : Kept d0 d) (c : Cfg) (t : Tenant) (n : Fin 10) : Kept d0 (bumpTenant c d t n) := by
  unfold bumpTenant
  try dsimp only
  repeat' first
    | with_reducible assumption
    | with_reducible apply addCauseTenant_kept
    | with_reducible refine modS_kept ?_ ?_
    | exact fun _ => rfl
    | with_reducible refine ite_kept ?_ ?_

theorem bumpHealthN_kept {d0 d : Dev} (h : Kept d0 d) (n : Fin 7) (k : Nat) : Kept d0 (bumpHealthN d n k) := by
  unfold bumpHealthN
  try dsimp only
  repeat' first
    | with_reducible assumption
    | with_reducible apply addCauseAll_kept
    | with_reducible refine modS_kept ?_ ?_
    | exact fun _ => rfl
    | with_reducible refine ite_kept ?_ ?_

theorem bumpHealth_kept {d0 d : Dev} (h : Kept d0 d) (n : Fin 7) : Kept d0 (bumpHealth d n) := by
  unfold bumpHealth
  try dsimp only
  repeat' first
    | with_reducible assumption
    | with_reducible apply bumpHealthN_kept

theorem bumpRing_kept {d0 d : Dev} (h : Kept d0 d) (p : LPort) (r : RingNo) (failed : Bool) : Kept d0 (bumpRing d p r failed) := by
  unfold bumpRing
  try dsimp only
  repeat' first
    | with_reducible assumption
    | with_reducible apply addCause_kept
    | with_reducible refine modP_kept ?_ _ ?_ ?_
    | with_reducible refine modR_kept ?_ _ _ _
    | exact fun _ => rfl
    | exact fun _ m => m
    | with_reducible refine ite_kept ?_ ?_

theorem pushTx_kept {d0 d : Dev} (h : Kept d0 d) (p : LPort) (items : List TxItem) : Kept d0 (pushTx d p items) := by
  unfold pushTx
  try dsimp only
  repeat' first
    | with_reducible assumption
    | with_reducible refine modP_kept ?_ _ ?_ ?_
    | exact fun _ => rfl
    | exact fun _ m => m

theorem pushTrl_kept {d0 d : Dev} (h : Kept d0 d) (i : TPort) (o : Owner) (source : Nat) (f : TrlFrame) : Kept d0 (pushTrl d i o source f) := by
  unfold pushTrl
  try dsimp only
  repeat' first
    | with_reducible assumption
    | with_reducible refine modT_kept ?_ _ ?_
    | exact fun _ => rfl

theorem sendPt_kept {d0 d : Dev} (h : Kept d0 d) (source : Nat) (f : TrlFrame) : Kept d0 (sendPt d source f) := by
  unfold sendPt
  try dsimp only
  repeat' first
    | with_reducible assumption
    | with_reducible apply pushTrl_kept
    | with_reducible refine ite_kept ?_ ?_
    | (intro _ _ _)
    | split

theorem sendMsg_kept {d0 d : Dev} (h : Kept d0 d) (f : TrlFrame) : Kept d0 (sendMsg d f) := by
  unfold sendMsg
  try dsimp only
  repeat' first
    | with_reducible assumption
    | with_reducible apply sendPt_kept
    | with_reducible refine ite_kept ?_ ?_
    | (intro _ _ _)
    | split
    | refine misc_kept ?_ _ _ _ _ _ rfl

theorem sendPeg_kept {d0 d : Dev} (h : Kept d0 d) (t : Tenant) (dest pmsg pcode peg operand reqId members : Nat) (body : List Byte) : Kept d0 (sendPeg d t dest pmsg pcode peg operand reqId members body) := by
  unfold sendPeg
  try dsimp only
  repeat' first
    | with_reducible assumption
    | with_reducible apply sendMsg_kept

theorem sendReply_kept {d0 d : Dev} (h : Kept d0 d) (t : Tenant) (dest rmsg exc peg value reqId : Nat) (body : List Byte) : Kept d0 (sendReply d t dest rmsg exc peg value reqId body) := by
  unfold sendReply
  try dsimp only
  repeat' first
    | with_reducible assumption
    | with_reducible apply sendMsg_kept

theorem floodOn_kept {d0 d : Dev} (h : Kept d0 d) (except : Option TPort) (src : Nat) (pl : List Byte) : Kept d0 (floodOn d except src pl) := by
  unfold floodOn
  try dsimp only
  repeat' first
    | with_reducible assumption
    | with_reducible apply pushTrl_kept
    | with_reducible refine each_kept ?_ _ ?_
    | with_reducible refine ite_kept ?_ ?_
    | (intro _ _ _)

theorem flood_kept {d0 d : Dev} (h : Kept d0 d) (rkind tenant round coll inst : Nat) (body : List Byte) : Kept d0 (flood d rkind tenant round coll inst body) := by
  unfold flood
  try dsimp only
  repeat' first
    | with_reducible assumption
    | with_reducible apply floodOn_kept
    | (intro _ _ _)
    | split
    | refine misc_kept ?_ _ _ _ _ _ rfl

theorem sendControl_kept {d0 d : Dev} (h : Kept d0 d) (i : TPort) (f : TrlFrame) : Kept d0 (sendControl d i f) := by
  unfold sendControl
  try dsimp only
  repeat' first
    | with_reducible assumption
    | with_reducible apply pushTrl_kept
    | with_reducible refine ite_kept ?_ ?_

theorem draw_kept {d0 d : Dev} (h : Kept d0 d)  : Kept d0 (draw d).2 := by
  unfold draw
  try dsimp only
  repeat' first
    | with_reducible assumption
    | (intro _ _ _)
    | split
    | refine misc_kept ?_ _ _ _ _ _ rfl

theorem draw_pair {d0 d d' : Dev} (h : Kept d0 d) {q : Nat}  (e : draw d = (q, d')) : Kept d0 d' := by
  have := draw_kept h 
  rwa [e] at this

theorem assertFaultN_kept {d0 d : Dev} (h : Kept d0 d)  : Kept d0 (assertFaultN d) := by
  unfold assertFaultN
  try dsimp only
  repeat' first
    | with_reducible assumption
    | with_reducible refine modS_kept ?_ ?_
    | exact fun _ => rfl

theorem answerWatches_kept {d0 d : Dev} (h : Kept d0 d) (p : Nat) : Kept d0 (answerWatches d p) := by
  unfold answerWatches
  try dsimp only
  repeat' first
    | with_reducible assumption
    | with_reducible apply sendReply_kept
    | with_reducible refine each_kept ?_ _ ?_
    | (intro _ _ _)
    | refine misc_kept ?_ _ _ _ _ _ rfl

theorem judgeRing_kept {d0 d : Dev} (h : Kept d0 d) (c : Cfg) (p : LPort) (r : RingNo) : Kept d0 (judgeRing c d p r) := by
  unfold judgeRing
  try dsimp only
  repeat' first
    | with_reducible assumption
    | with_reducible refine modHead_kept ?_ _ _ _
    | with_reducible refine ite_kept ?_ ?_
    | (intro _ _ _)
    | split

theorem judgeAll_kept {d0 d : Dev} (h : Kept d0 d) (c : Cfg)  : Kept d0 (judgeAll c d) := by
  unfold judgeAll
  try dsimp only
  repeat' first
    | with_reducible assumption
    | with_reducible apply judgeRing_kept
    | with_reducible refine each_kept ?_ _ ?_
    | (intro _ _ _)

theorem poolOp_kept {d0 d : Dev} (h : Kept d0 d) (c : Cfg) (p pop : Nat) (amount : W16) : Kept d0 (poolOp c d p pop amount).1 := by
  unfold poolOp
  try dsimp only
  repeat' first
    | with_reducible assumption
    | with_reducible apply answerWatches_kept
    | with_reducible apply judgeAll_kept
    | with_reducible refine setPool_kept ?_ _ _

theorem poolOp_pair {d0 d d' : Dev} (h : Kept d0 d) {q : W16 × Nat} (c : Cfg) (p pop : Nat) (amount : W16) (e : poolOp c d p pop amount = (d', q)) : Kept d0 d' := by
  have := poolOp_kept h c p pop amount
  rwa [e] at this

theorem poolWrite_kept {d0 d : Dev} (h : Kept d0 d) (c : Cfg) (p : Nat) (v : W16) : Kept d0 (poolWrite c d p v) := by
  unfold poolWrite
  try dsimp only
  repeat' first
    | with_reducible assumption
    | with_reducible apply answerWatches_kept
    | with_reducible apply judgeAll_kept
    | with_reducible refine setPool_kept ?_ _ _

theorem newReq_kept {d0 d : Dev} (h : Kept d0 d)  : Kept d0 (newReq d).2 := by
  unfold newReq
  try dsimp only
  repeat' first
    | with_reducible assumption
    | (intro _ _ _)
    | split
    | refine misc_kept ?_ _ _ _ _ _ rfl

theorem newReq_pair {d0 d d' : Dev} (h : Kept d0 d) {q : W16}  (e : newReq d = (q, d')) : Kept d0 d' := by
  have := newReq_kept h 
  rwa [e] at this

theorem tallyExc_kept {d0 d : Dev} (h : Kept d0 d) (c : Cfg) (p : LPort) (r : RingNo) (code idx : Nat) : Kept d0 (tallyExc c d p r code idx) := by
  unfold tallyExc
  try dsimp only
  repeat' first
    | with_reducible assumption
    | with_reducible apply bumpTenant_kept
    | with_reducible refine modRun_kept ?_ _ _ _
    | with_reducible refine ite_kept ?_ ?_

theorem entryDone_kept {d0 d : Dev} (h : Kept d0 d) (c : Cfg) (p : LPort) (r : RingNo) (k v e : Nat) (binary : Bool) : Kept d0 (entryDone c d p r k v e binary) := by
  unfold entryDone
  try dsimp only
  repeat' first
    | with_reducible assumption
    | with_reducible apply tallyExc_kept
    | with_reducible refine modRun_kept ?_ _ _ _

theorem pegEntry_kept {d0 d : Dev} (h : Kept d0 d) (c : Cfg) (p : LPort) (r : RingNo) (x : Run) (k : Nat) : Kept d0 (pegEntry c d p r x k) := by
  unfold pegEntry
  try dsimp only
  repeat' first
    | with_reducible assumption
    | with_reducible apply entryDone_kept
    | refine newReq_pair ?_ (by with_reducible assumption)
    | with_reducible apply newReq_kept
    | refine poolOp_pair ?_ (by with_reducible assumption)
    | with_reducible apply poolOp_kept
    | with_reducible apply sendPeg_kept
    | with_reducible refine modP_kept ?_ _ ?_ ?_
    | exact fun _ => rfl
    | exact fun _ m => m
    | exact fun _ m => spWf_write _ _ m
    | with_reducible refine modRun_kept ?_ _ _ _
    | with_reducible refine ite_kept ?_ ?_
    | (intro _ _ _)
    | split

theorem pegFinish_kept {d0 d : Dev} (h : Kept d0 d) (p : LPort) (r : RingNo) : Kept d0 (pegFinish d p r) := by
  unfold pegFinish
  try dsimp only
  repeat' first
    | with_reducible assumption
    | with_reducible refine modRun_kept ?_ _ _ _

theorem sendWatch_kept {d0 d : Dev} (h : Kept d0 d) (c : Cfg) (p : LPort) (r : RingNo) (desc : Desc) (k : Nat) (id : W16) (pmsg : Nat) : Kept d0 (sendWatch c d p r desc k id pmsg) := by
  unfold sendWatch
  try dsimp only
  repeat' first
    | with_reducible assumption
    | with_reducible apply sendPeg_kept
    | with_reducible refine ite_kept ?_ ?_
    | (intro _ _ _)
    | split

theorem finishRuns_kept {d0 d : Dev} (h : Kept d0 d) (rs : List (LPort × RingNo)) (status : Byte) : Kept d0 (finishRuns d rs status) := by
  unfold finishRuns
  try dsimp only
  repeat' first
    | with_reducible assumption
    | with_reducible refine modRun_kept ?_ _ _ _
    | with_reducible refine each_kept ?_ _ ?_
    | (intro _ _ _)

theorem countTimeouts_kept {d0 d : Dev} (h : Kept d0 d) (c : Cfg) (t : Tenant) (n : Nat) : Kept d0 (countTimeouts c d t n) := by
  unfold countTimeouts
  try dsimp only
  repeat' first
    | with_reducible assumption
    | with_reducible apply bumpTenant_kept
    | with_reducible refine each_kept ?_ _ ?_
    | (intro _ _ _)

theorem modArrival_kept {d0 d : Dev} (h : Kept d0 d) (a : Arrival) (f : Arrival → Arrival) : Kept d0 (modArrival d a f) := by
  unfold modArrival
  try dsimp only
  repeat' first
    | with_reducible assumption
    | with_reducible refine ite_kept ?_ ?_
    | (intro _ _ _)
    | split
    | refine misc_kept ?_ _ _ _ _ _ rfl

theorem dropArrival_kept {d0 d : Dev} (h : Kept d0 d) (a : Arrival) : Kept d0 (dropArrival d a) := by
  unfold dropArrival
  try dsimp only
  repeat' first
    | with_reducible assumption
    | (intro _ _ _)
    | split
    | refine misc_kept ?_ _ _ _ _ _ rfl

theorem tryArrive_kept {d0 d : Dev} (h : Kept d0 d) (c : Cfg) (a : Arrival) : Kept d0 (tryArrive c d a) := by
  unfold tryArrive
  try dsimp only
  repeat' first
    | with_reducible assumption
    | with_reducible apply modArrival_kept
    | with_reducible apply sendPeg_kept
    | with_reducible refine ite_kept ?_ ?_

theorem tryArrivals_kept {d0 d : Dev} (h : Kept d0 d) (c : Cfg)  : Kept d0 (tryArrivals c d) := by
  unfold tryArrivals
  try dsimp only
  repeat' first
    | with_reducible assumption
    | with_reducible apply tryArrive_kept
    | with_reducible refine each_kept ?_ _ ?_
    | (intro _ _ _)

theorem endWith_kept {d0 d : Dev} (h : Kept d0 d) (p : LPort) (r : RingNo) (status : Byte) : Kept d0 (endWith d p r status) := modRun_kept h p r _

theorem noteLine_kept {d0 d : Dev} (h : Kept d0 d) (p : LPort) (r : RingNo) (line : Bool) (n : Nat) : Kept d0 (noteLine d p r line n) :=
  ite_kept (modRun_kept h p r _) h

theorem joinArrival_kept {d0 d : Dev} (h : Kept d0 d) (c : Cfg) (p : LPort) (r : RingNo) (x : Run) (line : Bool) (home peg : Nat) (a : Arrival) :
    Kept d0 (joinArrival c d p r x line home peg a) :=
  ite_kept (endWith_kept h p r _) (ite_kept (noteLine_kept h p r line _) (tryArrivals_kept (modArrival_kept (modRun_kept h p r _) a _) c))

theorem openArrival_kept {d0 d : Dev} (h : Kept d0 d) (c : Cfg) (p : LPort) (r : RingNo) (x : Run) (line : Bool) (home peg : Nat) :
    Kept d0 (openArrival c d p r x line home peg) := by
  unfold openArrival
  refine tryArrivals_kept ?_ c
  exact misc_kept (modRun_kept h p r _) _ _ _ _ _ rfl

theorem placeBarrier_kept {d0 d : Dev} (h : Kept d0 d) (c : Cfg) (p : LPort) (r : RingNo) (x : Run) : Kept d0 (placeBarrier c d p r x) := by
  unfold placeBarrier
  have hn := noteLine_kept h p r (lineRun c p x.desc) d.line.n
  dsimp only
  refine ite_kept (endWith_kept hn p r _) ?_
  split
  · exact endWith_kept hn p r _
  · split
    · exact joinArrival_kept hn c p r x _ _ _ _
    · exact openArrival_kept hn c p r x _ _ _

theorem placeHeld_kept {d0 d : Dev} (h : Kept d0 d) (c : Cfg)  : Kept d0 (placeHeld c d) := by
  unfold placeHeld
  try dsimp only
  repeat' first
    | with_reducible assumption
    | with_reducible apply placeBarrier_kept
    | with_reducible refine each_kept ?_ _ ?_
    | with_reducible refine ite_kept ?_ ?_
    | (intro _ _ _)
    | split

theorem sendCompleted_kept {d0 d : Dev} (h : Kept d0 d) (c : Cfg) : Kept d0 (sendCompleted c d) := by
  unfold sendCompleted
  refine each_kept h _ fun d e h => ?_
  obtain ⟨n, named, peg, k, body⟩ := e
  refine ite_kept h (sendPeg_kept ?_ _ _ _ _ _ _ _ _ _)
  refine misc_kept ?_ _ _ _ _ _ rfl
  exact h

theorem closeArrival_kept {d0 d : Dev} (h : Kept d0 d) (a : Arrival) : Kept d0 (closeArrival d a) := by
  unfold closeArrival
  refine ite_kept ?_ (dropArrival_kept h a)
  refine misc_kept ?_ _ _ _ _ _ rfl
  exact dropArrival_kept h a

theorem endArrival_kept {d0 d : Dev} (h : Kept d0 d) (c : Cfg) (a : Arrival) (status : Byte) : Kept d0 (endArrival c d a status) := by
  unfold endArrival
  exact placeHeld_kept (sendCompleted_kept (closeArrival_kept (ite_kept (countTimeouts_kept (finishRuns_kept h _ _) _ _ _) (finishRuns_kept h _ _)) a) c) c

theorem setPhase_kept {d0 d : Dev} (h : Kept d0 d) (peg : Nat) (t : Tenant) (ph : Option Phase) : Kept d0 (setPhase d peg t ph) := by
  unfold setPhase
  try dsimp only
  repeat' first
    | with_reducible assumption
    | (intro _ _ _)
    | split
    | refine misc_kept ?_ _ _ _ _ _ rfl

theorem engineMismatch_kept {d0 d : Dev} (h : Kept d0 d) (c : Cfg) (t : Tenant) (peg : Nat) (us : List Nat) : Kept d0 (engineMismatch c d t peg us) := by
  unfold engineMismatch
  try dsimp only
  repeat' first
    | with_reducible assumption
    | with_reducible apply sendReply_kept
    | with_reducible apply poolWrite_kept
    | with_reducible apply setPhase_kept
    | with_reducible refine each_kept ?_ _ ?_
    | (intro _ _ _)

theorem engineRelease_kept {d0 d : Dev} (h : Kept d0 d) (c : Cfg) (ph : Phase) : Kept d0 (engineRelease c d ph) := by
  unfold engineRelease
  try dsimp only
  repeat' first
    | with_reducible assumption
    | with_reducible apply poolWrite_kept
    | with_reducible apply sendReply_kept
    | with_reducible apply setPhase_kept
    | with_reducible refine each_kept ?_ _ ?_
    | (intro _ _ _)
    | with_reducible refine ite_kept ?_ ?_

theorem engineArrive_kept {d0 d : Dev} (h : Kept d0 d) (c : Cfg) (t : Tenant) (u peg members : Nat) (body : List Byte) : Kept d0 (engineArrive c d t u peg members body) := by
  unfold engineArrive
  try dsimp only
  repeat' first
    | with_reducible assumption
    | with_reducible apply sendReply_kept
    | with_reducible apply poolWrite_kept
    | with_reducible apply setPhase_kept
    | with_reducible apply engineMismatch_kept
    | with_reducible apply engineRelease_kept
    | with_reducible refine each_kept ?_ _ ?_
    | with_reducible refine ite_kept ?_ ?_
    | (intro _ _ _)
    | split

theorem endPegless_kept {d0 d : Dev} (h : Kept d0 d) (c : Cfg) : Kept d0 (endPegless c d) :=
  each_kept h _ fun _ a k => endArrival_kept k c a 7

theorem noteFallback_kept {d0 d : Dev} (h : Kept d0 d) (c : Cfg) (f : Nat) : Kept d0 (noteFallback c d f) := by
  unfold noteFallback
  refine ite_kept (misc_kept h _ _ _ _ _ rfl) (addCauseAll_kept (each_kept (misc_kept h _ _ _ _ _ rfl) _ fun _ t k => ?_) 7)
  exact ite_kept (bumpTenant_kept k c t 3) k

theorem enterFallback_kept {d0 d : Dev} (h : Kept d0 d) (c : Cfg) (f : Nat) : Kept d0 (enterFallback c d f) :=
  ite_kept h (tryArrivals_kept (sendCompleted_kept (endPegless_kept (noteFallback_kept h c f) c) c) c)

theorem pegHere_kept {d0 d : Dev} (h : Kept d0 d) (c : Cfg) (f : TrlFrame) : Kept d0 (pegHere c d f) := by
  unfold pegHere
  try dsimp only
  repeat' first
    | with_reducible assumption
    | with_reducible apply engineArrive_kept
    | with_reducible apply enterFallback_kept
    | refine poolOp_pair ?_ (by with_reducible assumption)
    | with_reducible apply poolOp_kept
    | with_reducible apply poolWrite_kept
    | with_reducible apply sendReply_kept
    | with_reducible apply setPhase_kept
    | with_reducible refine ite_kept ?_ ?_
    | (intro _ _ _)
    | split
    | refine misc_kept ?_ _ _ _ _ _ rfl

theorem beginHere_kept {d0 d : Dev} (h : Kept d0 d) (c : Cfg) (f : TrlFrame) : Kept d0 (beginHere c d f) := by
  unfold beginHere
  try dsimp only
  repeat' first
    | with_reducible assumption
    | with_reducible apply enterFallback_kept
    | with_reducible apply sendPeg_kept
    | with_reducible refine ite_kept ?_ ?_

theorem phaseEnd_kept {d0 d : Dev} (h : Kept d0 d) (c : Cfg) (t : Tenant) (home peg : Nat) (status : Byte) : Kept d0 (phaseEnd c d t home peg status) := by
  unfold phaseEnd
  try dsimp only
  repeat' first
    | with_reducible assumption
    | with_reducible apply sendCompleted_kept
    | with_reducible apply tryArrivals_kept
    | with_reducible apply endArrival_kept
    | with_reducible refine ite_kept ?_ ?_
    | (intro _ _ _)
    | split
    | refine misc_kept ?_ _ _ _ _ _ rfl

theorem replyHere_kept {d0 d : Dev} (h : Kept d0 d) (c : Cfg) (f : TrlFrame) : Kept d0 (replyHere c d f) := by
  unfold replyHere
  try dsimp only
  repeat' first
    | with_reducible assumption
    | with_reducible apply beginHere_kept
    | with_reducible apply endArrival_kept
    | with_reducible apply entryDone_kept
    | with_reducible apply pegFinish_kept
    | with_reducible apply phaseEnd_kept
    | with_reducible refine modHead_kept ?_ _ _ _
    | with_reducible refine ite_kept ?_ ?_
    | (intro _ _ _)
    | split

theorem selfMsg_kept {d0 d : Dev} (h : Kept d0 d) (c : Cfg) (f : TrlFrame) : Kept d0 (selfMsg c d f) := by
  unfold selfMsg
  try dsimp only
  repeat' first
    | with_reducible assumption
    | with_reducible apply pegHere_kept
    | with_reducible apply replyHere_kept
    | with_reducible refine ite_kept ?_ ?_

theorem runSelf_kept {d0 d : Dev} (h : Kept d0 d) (c : Cfg) (n : Nat) : Kept d0 (runSelf c n d) := by
  induction n generalizing d with
  | zero => exact h
  | succ n ih =>
    unfold runSelf
    try dsimp only
    repeat' first
      | with_reducible assumption
      | with_reducible apply ih
      | with_reducible apply selfMsg_kept
      | (intro _ _ _)
      | split
      | refine misc_kept ?_ _ _ _ _ _ rfl

theorem settle_kept {d0 d : Dev} (h : Kept d0 d) (c : Cfg)  : Kept d0 (settle c d) := by
  unfold settle
  try dsimp only
  repeat' first
    | with_reducible assumption
    | with_reducible apply runSelf_kept

theorem ptFrame_kept {d0 d : Dev} (h : Kept d0 d) (i : TPort) (f : TrlFrame) (act : Dev → Dev) (ha : ∀ d, Kept d0 d → Kept d0 (act d)) : Kept d0 (ptFrame d i f act) := by
  unfold ptFrame
  try dsimp only
  repeat' first
    | with_reducible assumption
    | with_reducible apply ha
    | with_reducible apply sendPt_kept
    | with_reducible refine ite_kept ?_ ?_

theorem pegFrame_kept {d0 d : Dev} (h : Kept d0 d) (c : Cfg) (i : TPort) (f : TrlFrame) : Kept d0 (pegFrame c d i f) := by
  unfold pegFrame
  try dsimp only
  repeat' first
    | with_reducible assumption
    | with_reducible apply bumpTrl_kept
    | with_reducible apply pegHere_kept
    | with_reducible apply settle_kept
    | with_reducible apply ptFrame_kept
    | with_reducible refine ite_kept ?_ ?_
    | (intro _ _ _)
    | (intro _ _)

theorem replyFrame_kept {d0 d : Dev} (h : Kept d0 d) (c : Cfg) (i : TPort) (f : TrlFrame) : Kept d0 (replyFrame c d i f) := by
  unfold replyFrame
  try dsimp only
  repeat' first
    | with_reducible assumption
    | with_reducible apply replyHere_kept
    | with_reducible apply settle_kept
    | with_reducible apply ptFrame_kept
    | (intro _ _ _)
    | (intro _ _)

theorem lemDiscard_kept {d0 d : Dev} (h : Kept d0 d) (p : LPort) : Kept d0 (lemDiscard d p) := by
  unfold lemDiscard
  try dsimp only
  repeat' first
    | with_reducible assumption
    | with_reducible apply bumpLem_kept

theorem trlDiscard_kept {d0 d : Dev} (h : Kept d0 d) (i : TPort) : Kept d0 (trlDiscard d i) := by
  unfold trlDiscard
  try dsimp only
  repeat' first
    | with_reducible assumption
    | with_reducible apply bumpTrl_kept

theorem modInst_kept {d0 d : Dev} (h : Kept d0 d) (t : Tenant) (coll : W16) (f : Inst → Inst) : Kept d0 (modInst d t coll f) := by
  unfold modInst
  try dsimp only
  repeat' first
    | with_reducible assumption
    | with_reducible refine ite_kept ?_ ?_
    | (intro _ _ _)
    | split
    | refine misc_kept ?_ _ _ _ _ _ rfl

theorem grantReq_kept {d0 d : Dev} (h : Kept d0 d) (t : Tenant) (q : StoreReq) : Kept d0 (grantReq d t q) := by
  unfold grantReq
  try dsimp only
  repeat' first
    | with_reducible assumption
    | with_reducible apply modInst_kept
    | with_reducible refine modRun_kept ?_ _ _ _
    | with_reducible refine modStore_kept ?_ ?_ ?_
    | exact fun _ => rfl
    | exact fun _ m => m
    | (intro _ _ _)
    | split

theorem askStore_kept {d0 d : Dev} (h : Kept d0 d) (c : Cfg) (t : Tenant) (q : StoreReq) : Kept d0 (askStore c d t q) := by
  unfold askStore
  try dsimp only
  repeat' first
    | with_reducible assumption
    | with_reducible apply grantReq_kept
    | with_reducible refine modStore_kept ?_ ?_ ?_
    | exact fun _ => rfl
    | exact fun _ m => m
    | with_reducible refine ite_kept ?_ ?_

theorem dropReq_kept {d0 d : Dev} (h : Kept d0 d) (t : Tenant) (q : StoreReq) : Kept d0 (dropReq d t q) := by
  unfold dropReq
  try dsimp only
  repeat' first
    | with_reducible assumption
    | with_reducible refine modStore_kept ?_ ?_ ?_
    | exact fun _ => rfl
    | exact fun _ m => m

theorem dropHoldReq_kept {d0 d : Dev} (h : Kept d0 d) (t : Tenant) (p : LPort) (r : RingNo) : Kept d0 (dropHoldReq d t p r) := by
  unfold dropHoldReq
  try dsimp only
  repeat' first
    | with_reducible assumption
    | with_reducible refine modStore_kept ?_ ?_ ?_
    | exact fun _ => rfl
    | exact fun _ m => m

theorem releaseHold_kept {d0 d : Dev} (h : Kept d0 d) (t : Tenant) (p : LPort) (r : RingNo) (x : Run) : Kept d0 (releaseHold d t p r x) := by
  unfold releaseHold
  try dsimp only
  repeat' first
    | with_reducible assumption
    | with_reducible apply dropHoldReq_kept
    | with_reducible refine modStore_kept ?_ ?_ ?_
    | exact fun _ => rfl
    | exact fun _ m => m
    | with_reducible refine ite_kept ?_ ?_

theorem releaseStaging_kept {d0 d : Dev} (h : Kept d0 d) (x : Inst) : Kept d0 (releaseStaging d x) := by
  unfold releaseStaging
  try dsimp only
  repeat' first
    | with_reducible assumption
    | with_reducible refine modStore_kept ?_ ?_ ?_
    | exact fun _ => rfl
    | exact fun _ m => m
    | with_reducible refine ite_kept ?_ ?_

theorem writeSpool_kept {d0 d : Dev} (h : Kept d0 d) (c : Cfg) (t : Tenant) (a : Nat) (bs : List Byte) : Kept d0 (writeSpool c d t a bs) := by
  unfold writeSpool
  try dsimp only
  repeat' first
    | with_reducible assumption
    | with_reducible refine modStore_kept ?_ ?_ ?_
    | exact fun _ => rfl
    | exact fun _ m => m
    | exact fun _ m => spWf_foldl _ _ _ m

theorem meetBad_kept {d0 d : Dev} (h : Kept d0 d) (ws : List Nat) : Kept d0 (meetBad d ws) := by
  unfold meetBad
  try dsimp only
  repeat' first
    | with_reducible assumption
    | with_reducible apply bumpHealth_kept
    | with_reducible refine modStore_kept ?_ ?_ ?_
    | exact fun _ m => m
    | with_reducible refine each_kept ?_ _ ?_
    | (intro _ _ _)

theorem clearSpool_kept {d0 d : Dev} (h : Kept d0 d) (c : Cfg) (t : Tenant) (a n : Nat) : Kept d0 (clearSpool c d t a n) := by
  unfold clearSpool
  refine modStore_kept h ?_ ?_
  · intro x hx
    generalize (List.range (ceilDiv n 65536)).map _ = l
    induction l generalizing x with
    | nil => exact hx
    | cons e l ih => exact ih _ (spWf_clear _ _ hx)
  · intro x hx
    generalize (List.range (ceilDiv n 65536)).map _ = l
    induction l generalizing x with
    | nil => exact hx
    | cons e l ih => exact ih _ hx

theorem writeYard_kept {d0 d : Dev} (h : Kept d0 d) (c : Cfg) (t : Tenant) (a : Nat) (bs : List Byte) : Kept d0 (writeYard c d t a bs) := by
  unfold writeYard
  try dsimp only
  repeat' first
    | with_reducible assumption
    | with_reducible refine modStore_kept ?_ ?_ ?_
    | exact fun _ => rfl
    | exact fun _ m => m
    | exact fun _ m => spWf_foldl _ _ _ m

theorem elemWrite_kept {d0 d : Dev} (h : Kept d0 d) (c : Cfg) (t : Tenant) (desc : Desc) (i : Nat) (a : Acc) (k : Nat) : Kept d0 (elemWrite c d t desc i a k) := by
  unfold elemWrite
  try dsimp only
  repeat' first
    | with_reducible assumption
    | with_reducible apply writeSpool_kept

theorem elemAdd_kept {d0 d : Dev} (h : Kept d0 d) (c : Cfg) (t : Tenant) (desc : Desc) (m i : Nat) (x : Acc) : Kept d0 (elemAdd c d t desc m i x) := by
  unfold elemAdd
  try dsimp only
  repeat' first
    | with_reducible assumption
    | with_reducible apply elemWrite_kept
    | with_reducible refine ite_kept ?_ ?_

theorem dropBlocks_kept {d0 d : Dev} (h : Kept d0 d) (t : Tenant) (a n : Nat) : Kept d0 (dropBlocks d t a n) := by
  unfold dropBlocks
  try dsimp only
  repeat' first
    | with_reducible assumption
    | with_reducible refine modStore_kept ?_ ?_ ?_
    | exact fun _ => rfl
    | exact fun _ m => m

theorem registerBlock_kept {d0 d : Dev} (h : Kept d0 d) (c : Cfg) (t : Tenant) (desc : Desc) : Kept d0 (registerBlock c d t desc) := by
  unfold registerBlock
  try dsimp only
  repeat' first
    | with_reducible assumption
    | with_reducible apply dropBlocks_kept
    | with_reducible refine modStore_kept ?_ ?_ ?_
    | exact fun _ => rfl
    | exact fun _ m => m
    | (intro _ _ _)
    | split

theorem dropBadBlocks_kept {d0 d : Dev} (h : Kept d0 d) (c : Cfg) (w : Nat) : Kept d0 (dropBadBlocks c d w) := by
  unfold dropBadBlocks
  try dsimp only
  repeat' first
    | with_reducible assumption
    | with_reducible refine modStore_kept ?_ ?_ ?_
    | exact fun _ => rfl
    | exact fun _ m => m

theorem setTx_kept {d0 d : Dev} (h : Kept d0 d) (t : Tenant) (coll : W16) (e : TxStream) : Kept d0 (setTx d t coll e) := by
  unfold setTx
  try dsimp only
  repeat' first
    | with_reducible assumption
    | with_reducible apply modInst_kept

theorem emitTransfer_kept {d0 d : Dev} (h : Kept d0 d) (g : Geo) (t : Tenant) (coll : W16) (wire home : Nat) (tr : Transfer) (s : Stm) : Kept d0 (emitTransfer d g t coll wire home tr s) := by
  unfold emitTransfer
  try dsimp only
  repeat' first
    | with_reducible assumption
    | with_reducible apply pushTrl_kept
    | with_reducible apply setTx_kept
    | with_reducible refine each_kept ?_ _ ?_
    | (intro _ _ _)
    | with_reducible refine ite_kept ?_ ?_
    | split

theorem emitStream_kept {d0 d : Dev} (h : Kept d0 d) (g : Geo) (t : Tenant) (coll : W16) (s home : Nat) (tr : Transfer) (st : Stm) : Kept d0 (emitStream d g t coll s home tr st) := by
  unfold emitStream
  try dsimp only
  repeat' first
    | with_reducible assumption
    | with_reducible apply emitTransfer_kept
    | with_reducible refine each_kept ?_ _ ?_
    | with_reducible refine ite_kept ?_ ?_
    | (intro _ _ _)

theorem pumpPrologues_kept {d0 d : Dev} (h : Kept d0 d) (t : Tenant) (coll : W16) : Kept d0 (pumpPrologues d t coll) := by
  unfold pumpPrologues
  try dsimp only
  repeat' first
    | with_reducible assumption
    | with_reducible apply emitTransfer_kept
    | with_reducible refine each_kept ?_ _ ?_
    | (intro _ _ _)
    | split

theorem pumpData_kept {d0 d : Dev} (h : Kept d0 d) (t : Tenant) (coll : W16) : Kept d0 (pumpData d t coll) := by
  unfold pumpData
  try dsimp only
  repeat' first
    | with_reducible assumption
    | with_reducible apply emitTransfer_kept
    | with_reducible apply emitStream_kept
    | with_reducible refine each_kept ?_ _ ?_
    | with_reducible refine ite_kept ?_ ?_
    | (intro _ _ _)
    | split

theorem pumpStaging_kept {d0 d : Dev} (h : Kept d0 d) (c : Cfg) (t : Tenant) (coll : W16) : Kept d0 (pumpStaging c d t coll) := by
  unfold pumpStaging
  try dsimp only
  repeat' first
    | with_reducible assumption
    | with_reducible apply modInst_kept
    | with_reducible apply askStore_kept
    | with_reducible refine ite_kept ?_ ?_
    | (intro _ _ _)
    | split

theorem pumpCommit_kept {d0 d : Dev} (h : Kept d0 d) (t : Tenant) (coll : W16) : Kept d0 (pumpCommit d t coll) := by
  unfold pumpCommit
  try dsimp only
  repeat' first
    | with_reducible assumption
    | with_reducible apply modInst_kept
    | with_reducible refine ite_kept ?_ ?_
    | (intro _ _ _)
    | split

theorem outPiece_kept {d0 d : Dev} (h : Kept d0 d) (p : LPort) (r : RingNo) (base w addr : Nat) (bs : List Byte) : Kept d0 (outPiece d p r base w addr bs) := by
  unfold outPiece
  try dsimp only
  repeat' first
    | with_reducible assumption
    | with_reducible apply pushTx_kept

theorem outWrite_kept {d0 d : Dev} (h : Kept d0 d) (p : LPort) (r : RingNo) (addr w : Nat) (bs : List Byte) : Kept d0 (outWrite d p r addr w bs) := by
  unfold outWrite
  try dsimp only
  repeat' first
    | with_reducible assumption
    | with_reducible apply outPiece_kept

theorem coreWrite_kept {d0 d : Dev} (h : Kept d0 d) (p : LPort) (r : RingNo) (above : List (Nat × Nat)) (addr w : Nat) (bs : List Byte) : Kept d0 (coreWrite d p r above addr w bs) := by
  unfold coreWrite
  try dsimp only
  repeat' first
    | with_reducible assumption
    | with_reducible apply outPiece_kept
    | with_reducible apply outWrite_kept
    | with_reducible refine each_kept ?_ _ ?_
    | (intro _ _ _)
    | with_reducible refine ite_kept ?_ ?_

theorem writeReduced_kept {d0 d : Dev} (h : Kept d0 d) (g : Geo) (p : LPort) (r : RingNo) (above : List (Nat × Nat)) (base n off : Nat) (accs : List Acc) : Kept d0 (writeReduced d g p r above base n off accs) := by
  unfold writeReduced
  try dsimp only
  repeat' first
    | with_reducible assumption
    | with_reducible apply coreWrite_kept
    | with_reducible refine ite_kept ?_ ?_

theorem writeDecision_kept {d0 d : Dev} (h : Kept d0 d) (g : Geo) (p : LPort) (r : RingNo) (y : Run) (bs : List Byte) : Kept d0 (writeDecision d g p r y bs) := by
  unfold writeDecision
  try dsimp only
  repeat' first
    | with_reducible assumption
    | with_reducible apply outWrite_kept
    | with_reducible refine each_kept ?_ _ ?_
    | (intro _ _ _)
    | with_reducible refine ite_kept ?_ ?_

theorem writeChunk_kept {d0 d : Dev} (h : Kept d0 d) (g : Geo) (x : Inst) (p : LPort) (r : RingNo) (y : Run) (wire : Nat) (s : Stm) : Kept d0 (writeChunk d g x p r y wire s) := by
  unfold writeChunk
  try dsimp only
  repeat' first
    | with_reducible assumption
    | with_reducible apply coreWrite_kept
    | with_reducible apply writeDecision_kept
    | with_reducible apply writeReduced_kept
    | with_reducible refine each_kept ?_ _ ?_
    | (intro _ _ _)
    | with_reducible refine ite_kept ?_ ?_
    | split

theorem writePairs_kept {d0 d : Dev} (h : Kept d0 d) (g : Geo) (x : Inst) (p : LPort) (r : RingNo) (y : Run) (sr : Nat) : Kept d0 (writePairs d g x p r y sr) := by
  unfold writePairs
  try dsimp only
  repeat' first
    | with_reducible assumption
    | with_reducible apply coreWrite_kept
    | with_reducible refine each_kept ?_ _ ?_
    | (intro _ _ _)
    | with_reducible refine ite_kept ?_ ?_
    | split

theorem pushSignal_kept {d0 d : Dev} (h : Kept d0 d) (c : Cfg) (p : LPort) (r : RingNo) (y : Run) (amount element step : Nat) : Kept d0 (pushSignal c d p r y amount element step) := by
  unfold pushSignal
  try dsimp only
  repeat' first
    | with_reducible assumption
    | with_reducible apply pushTx_kept
    | with_reducible refine ite_kept ?_ ?_
    | (intro _ _ _)
    | split

theorem noteHeadroom_kept {d0 d : Dev} (h : Kept d0 d) (c : Cfg) (x : Inst) (refused : List Nat) : Kept d0 (noteHeadroom c d x refused) := by
  unfold noteHeadroom
  try dsimp only
  repeat' first
    | with_reducible assumption
    | with_reducible apply bumpTenant_kept
    | with_reducible refine modRun_kept ?_ _ _ _
    | with_reducible refine each_kept ?_ _ ?_
    | (intro _ _ _)
    | split

theorem finishInst_kept {d0 d : Dev} (h : Kept d0 d) (x : Inst) (status : Byte) : Kept d0 (finishInst d x status) := by
  unfold finishInst
  try dsimp only
  repeat' first
    | with_reducible assumption
    | with_reducible refine modRun_kept ?_ _ _ _
    | with_reducible refine each_kept ?_ _ ?_
    | (intro _ _ _)

theorem countPro_kept {d0 d : Dev} (h : Kept d0 d) (t : Tenant) (coll : W16) (u : Nat) : Kept d0 (countPro d t coll u) := by
  unfold countPro
  try dsimp only
  repeat' first
    | with_reducible assumption
    | (intro _ _ _)
    | split
    | refine misc_kept ?_ _ _ _ _ _ rfl

theorem endStore_kept {d0 d : Dev} (h : Kept d0 d) (x : Inst) : Kept d0 (endStore d x) := by
  unfold endStore
  try dsimp only
  repeat' first
    | with_reducible assumption
    | with_reducible apply releaseStaging_kept
    | with_reducible refine modStore_kept ?_ ?_ ?_
    | exact fun _ m => m
    | with_reducible refine ite_kept ?_ ?_

theorem closeInst_kept {d0 d : Dev} (h : Kept d0 d) (t : Tenant) (coll : W16) : Kept d0 (closeInst d t coll) := by
  unfold closeInst
  try dsimp only
  repeat' first
    | with_reducible assumption
    | with_reducible apply endStore_kept
    | (intro _ _ _)
    | split
    | refine misc_kept ?_ _ _ _ _ _ rfl

theorem addChunk_kept {d0 d : Dev} (h : Kept d0 d) (c : Cfg) (g : Geo) (x : Inst) (wire : Nat) (s : Stm) : Kept d0 (addChunk c d g x wire s).1 := by
  unfold addChunk
  try dsimp only
  repeat' first
    | with_reducible assumption
    | exact draw_kept h
    | with_reducible apply meetBad_kept
    | with_reducible apply elemAdd_kept
    | with_reducible refine each_kept ?_ _ ?_
    | with_reducible refine ite_kept ?_ ?_
    | (intro _ _ _)
    | split

theorem addChunk_pair {d0 d d' : Dev} (h : Kept d0 d) {q : Bool} (c : Cfg) (g : Geo) (x : Inst) (wire : Nat) (s : Stm) (e : addChunk c d g x wire s = (d', q)) : Kept d0 d' := by
  have := addChunk_kept h c g x wire s
  rwa [e] at this

theorem addPart_kept {d0 d : Dev} (h : Kept d0 d) (c : Cfg) (g : Geo) (x : Inst) (wire : Nat) (s : Stm) (badK : List Nat) : Kept d0 (addPart c d g x wire s badK).1 := by
  unfold addPart
  split
  · split
    · exact addChunk_kept h c g x wire s
    · exact h
  · exact meetBad_kept h _

theorem addPart_pair {d0 d d' : Dev} (h : Kept d0 d) {q : Bool} (c : Cfg) (g : Geo) (x : Inst) (wire : Nat) (s : Stm) (badK : List Nat) (e : addPart c d g x wire s badK = (d', q)) : Kept d0 d' := by
  have := addPart_kept h c g x wire s badK
  rwa [e] at this

theorem noteFound_kept {d0 d : Dev} (h : Kept d0 d) (t : Tenant) (coll : W16) : Kept d0 (noteFound d t coll) := by
  unfold noteFound
  try dsimp only
  repeat' first
    | with_reducible assumption
    | with_reducible refine modRun_kept ?_ _ _ _
    | with_reducible refine each_kept ?_ _ ?_
    | (intro _ _ _)
    | with_reducible refine ite_kept ?_ ?_
    | split

theorem finishWriting_kept {d0 d : Dev} (h : Kept d0 d) (c : Cfg) (t : Tenant) (coll : W16) : Kept d0 (finishWriting c d t coll) := by
  unfold finishWriting
  try dsimp only
  repeat' first
    | with_reducible assumption
    | with_reducible apply finishInst_kept
    | with_reducible apply noteFound_kept
    | with_reducible apply pushSignal_kept
    | with_reducible refine modRun_kept ?_ _ _ _
    | with_reducible refine each_kept ?_ _ ?_
    | (intro _ _ _)
    | with_reducible refine ite_kept ?_ ?_
    | split

theorem writePart_kept {d0 d : Dev} (h : Kept d0 d) (c : Cfg) (g : Geo) (x : Inst) (wire : Nat) (s : Stm) (k : Nat) (e : LPort × RingNo) : Kept d0 (writePart c d g x wire s k e) := by
  unfold writePart
  try dsimp only
  repeat' first
    | with_reducible assumption
    | with_reducible apply writeChunk_kept
    | with_reducible apply writePairs_kept
    | with_reducible apply pushSignal_kept
    | with_reducible refine modRun_kept ?_ _ _ _
    | with_reducible refine ite_kept ?_ ?_
    | split

theorem failAdds_kept {d0 d : Dev} (h : Kept d0 d) (x : Inst) : Kept d0 (failAdds d x) := by
  unfold failAdds
  refine misc_kept ?_ _ _ _ _ _ rfl
  refine each_kept (finishInst_kept h x 0x22) _ ?_
  intro _ _ h
  exact modRun_kept h _ _ _

theorem writeStep_kept {d0 d : Dev} (h : Kept d0 d) (c : Cfg) (t : Tenant) (coll : W16) : Kept d0 (writeStep c d t coll).1 := by
  unfold writeStep
  try dsimp only
  repeat' first
    | with_reducible assumption
    | refine addPart_pair ?_ (by with_reducible assumption)
    | with_reducible apply addPart_kept
    | with_reducible apply failAdds_kept
    | with_reducible apply finishInst_kept
    | with_reducible apply finishWriting_kept
    | with_reducible apply modInst_kept
    | with_reducible apply noteHeadroom_kept
    | with_reducible apply writePart_kept
    | with_reducible refine each_kept ?_ _ ?_
    | (intro _ _ _)
    | with_reducible refine ite_kept ?_ ?_
    | split

theorem writeStep_pair {d0 d d' : Dev} (h : Kept d0 d) {q : Bool} (c : Cfg) (t : Tenant) (coll : W16) (e : writeStep c d t coll = (d', q)) : Kept d0 d' := by
  have := writeStep_kept h c t coll
  rwa [e] at this

theorem writeAll_kept {d0 d : Dev} (h : Kept d0 d) (c : Cfg) (t : Tenant) (coll : W16) (n : Nat) : Kept d0 (writeAll c t coll n d) := by
  induction n generalizing d with
  | zero => exact h
  | succ n ih =>
    unfold writeAll
    try dsimp only
    repeat' first
      | with_reducible assumption
      | with_reducible apply ih
      | with_reducible apply writeStep_kept
      | refine writeStep_pair ?_ (by with_reducible assumption)
      | with_reducible refine ite_kept ?_ ?_

theorem pumpOwnPrologue_kept {d0 d : Dev} (h : Kept d0 d) (t : Tenant) (coll : W16) : Kept d0 (pumpOwnPrologue d t coll) := by
  unfold pumpOwnPrologue
  try dsimp only
  repeat' first
    | with_reducible assumption
    | with_reducible apply modInst_kept

theorem pumpInst_kept {d0 d : Dev} (h : Kept d0 d) (c : Cfg) (t : Tenant) (coll : W16) : Kept d0 (pumpInst c d t coll) := by
  unfold pumpInst
  try dsimp only
  repeat' first
    | with_reducible assumption
    | with_reducible apply noteFound_kept
    | with_reducible apply pumpCommit_kept
    | with_reducible apply pumpData_kept
    | with_reducible apply pumpOwnPrologue_kept
    | with_reducible apply pumpPrologues_kept
    | with_reducible apply pumpStaging_kept
    | with_reducible apply writeAll_kept
    | with_reducible refine ite_kept ?_ ?_
    | (intro _ _ _)
    | split

theorem addState_kept {d0 d : Dev} (h : Kept d0 d) (t : Tenant) (coll num : W16) (r : Report) : Kept d0 (addState d t coll num r) := by
  unfold addState
  try dsimp only
  repeat' first
    | with_reducible assumption
    | with_reducible refine ite_kept ?_ ?_
    | (intro _ _ _)
    | refine misc_kept ?_ _ _ _ _ _ rfl

theorem openInst_kept {d0 d : Dev} (h : Kept d0 d) (c : Cfg) (t : Tenant) (coll : W16) (agree list : List Byte) (base : Nat) (byReceipt : Bool) : Kept d0 (openInst c d t coll agree list base byReceipt) := by
  unfold openInst
  try dsimp only
  repeat' first
    | with_reducible assumption
    | with_reducible apply addState_kept
    | with_reducible apply flood_kept
    | with_reducible refine ite_kept ?_ ?_
    | (intro _ _ _)
    | refine misc_kept ?_ _ _ _ _ _ rfl

theorem forcePrologue_kept {d0 d : Dev} (h : Kept d0 d) (t : Tenant) (coll : W16) : Kept d0 (forcePrologue d t coll) := by
  unfold forcePrologue
  try dsimp only
  repeat' first
    | with_reducible assumption
    | with_reducible apply modInst_kept
    | with_reducible apply pumpPrologues_kept

theorem endInst_kept {d0 d : Dev} (h : Kept d0 d) (t : Tenant) (coll : W16) (status : Byte) : Kept d0 (endInst d t coll status) := by
  unfold endInst
  try dsimp only
  repeat' first
    | with_reducible assumption
    | with_reducible apply closeInst_kept
    | with_reducible apply finishInst_kept
    | with_reducible apply forcePrologue_kept
    | (intro _ _ _)
    | split

theorem abortInst_kept {d0 d : Dev} (h : Kept d0 d) (t : Tenant) (coll : W16) (status : Byte) : Kept d0 (abortInst d t coll status) := by
  unfold abortInst
  try dsimp only
  repeat' first
    | with_reducible assumption
    | with_reducible apply flood_kept
    | with_reducible apply endInst_kept
    | (intro _ _ _)
    | split

theorem closeAborted_kept {d0 d : Dev} (h : Kept d0 d) (t : Tenant) (coll : W16) : Kept d0 (closeAborted d t coll) := by
  unfold closeAborted
  try dsimp only
  repeat' first
    | with_reducible assumption
    | with_reducible apply closeInst_kept
    | with_reducible refine ite_kept ?_ ?_
    | (intro _ _ _)
    | split

theorem openChecked_kept {d0 d : Dev} (h : Kept d0 d) (c : Cfg) (t : Tenant) (coll : W16) (agree list : List Byte) (base : Nat) (byReceipt : Bool) : Kept d0 (openChecked c d t coll agree list base byReceipt) := by
  unfold openChecked
  try dsimp only
  repeat' first
    | with_reducible assumption
    | with_reducible apply abortInst_kept
    | with_reducible apply openInst_kept
    | with_reducible apply pumpInst_kept
    | with_reducible refine ite_kept ?_ ?_
    | (intro _ _ _)
    | split

theorem joinInst_kept {d0 d : Dev} (h : Kept d0 d) (c : Cfg) (t : Tenant) (p : LPort) (r : RingNo) (y : Run) (x : Inst) : Kept d0 (joinInst c d t p r y x) := by
  unfold joinInst
  try dsimp only
  repeat' first
    | with_reducible assumption
    | with_reducible apply abortInst_kept
    | with_reducible apply closeAborted_kept
    | with_reducible apply modInst_kept
    | with_reducible apply pumpInst_kept
    | with_reducible refine modRun_kept ?_ _ _ _
    | with_reducible refine ite_kept ?_ ?_
    | (intro _ _ _)
    | split

theorem placeColl_kept {d0 d : Dev} (h : Kept d0 d) (c : Cfg) (p : LPort) (r : RingNo) (y : Run) : Kept d0 (placeColl c d p r y) := by
  unfold placeColl
  try dsimp only
  repeat' first
    | with_reducible assumption
    | with_reducible apply abortInst_kept
    | with_reducible apply joinInst_kept
    | with_reducible apply openInst_kept
    | with_reducible refine ite_kept ?_ ?_
    | (intro _ _ _)
    | split

theorem relayBy_kept {d0 d : Dev} (h : Kept d0 d) (g : Geo) (q : TPort) (t : Transfer) (f : TrlFrame) : Kept d0 (relayBy d g q t f) := by
  unfold relayBy
  try dsimp only
  repeat' first
    | with_reducible assumption
    | with_reducible apply pushTrl_kept
    | (intro _ _ _)
    | split

theorem takePrologue_kept {d0 d : Dev} (h : Kept d0 d) (c : Cfg) (t : Tenant) (coll : W16) (u : Nat) (bs : List Byte) : Kept d0 (takePrologue c d t coll u bs) := by
  unfold takePrologue
  try dsimp only
  repeat' first
    | with_reducible assumption
    | with_reducible apply modInst_kept
    | with_reducible apply pumpInst_kept
    | with_reducible apply abortInst_kept
    | with_reducible refine ite_kept ?_ ?_
    | (intro _ _ _)
    | split

theorem deliver_kept {d0 d : Dev} (h : Kept d0 d) (c : Cfg) (x : Inst) (q : TPort) (f : TrlFrame) : Kept d0 (deliver c d x q f) := by
  unfold deliver
  try dsimp only
  repeat' first
    | with_reducible assumption
    | with_reducible apply modInst_kept
    | with_reducible apply pumpInst_kept
    | with_reducible apply relayBy_kept
    | with_reducible apply takePrologue_kept
    | with_reducible apply trlDiscard_kept
    | with_reducible refine ite_kept ?_ ?_
    | (intro _ _ _)
    | split

theorem takeFrame_kept {d0 d : Dev} (h : Kept d0 d) (c : Cfg) (x : Inst) (q : TPort) (f : TrlFrame) : Kept d0 (takeFrame c d x q f) := by
  unfold takeFrame
  try dsimp only
  repeat' first
    | with_reducible assumption
    | with_reducible apply modInst_kept
    | with_reducible apply deliver_kept
    | with_reducible refine ite_kept ?_ ?_

theorem setRelay_kept {d0 d : Dev} (h : Kept d0 d) (t : Tenant) (coll : W16) (bs : List Byte) (src : Nat) : Kept d0 (setRelay d t coll bs src) := by
  unfold setRelay
  try dsimp only
  repeat' first
    | with_reducible assumption
    | with_reducible refine ite_kept ?_ ?_
    | (intro _ _ _)
    | split
    | refine misc_kept ?_ _ _ _ _ _ rfl

theorem countRelayed_kept {d0 d : Dev} (h : Kept d0 d) (g : Geo) (q : TPort) (f : TrlFrame) : Kept d0 (countRelayed d g q f) := by
  unfold countRelayed
  try dsimp only
  repeat' first
    | with_reducible assumption
    | with_reducible refine ite_kept ?_ ?_
    | (intro _ _ _)
    | refine misc_kept ?_ _ _ _ _ _ rfl

theorem relayFrame_kept {d0 d : Dev} (h : Kept d0 d) (q : TPort) (f : TrlFrame) : Kept d0 (relayFrame d q f) := by
  unfold relayFrame
  try dsimp only
  repeat' first
    | with_reducible assumption
    | with_reducible apply countRelayed_kept
    | with_reducible apply relayBy_kept
    | with_reducible apply trlDiscard_kept
    | with_reducible refine ite_kept ?_ ?_
    | (intro _ _ _)
    | split

theorem dropEarly_kept {d0 d : Dev} (h : Kept d0 d) (q : TPort) (f : TrlFrame) : Kept d0 (dropEarly d q f) := by
  unfold dropEarly
  try dsimp only
  repeat' first
    | with_reducible assumption
    | (intro _ _ _)
    | split
    | refine misc_kept ?_ _ _ _ _ _ rfl

theorem drainEarly_kept {d0 d : Dev} (h : Kept d0 d) (c : Cfg) (t : Tenant) (coll : W16) (n : Nat) : Kept d0 (drainEarly c t coll n d) := by
  induction n generalizing d with
  | zero => exact h
  | succ n ih =>
    unfold drainEarly
    try dsimp only
    repeat' first
      | with_reducible assumption
      | with_reducible apply ih
      | with_reducible apply takeFrame_kept
      | with_reducible refine ite_kept ?_ ?_
      | (intro _ _ _)
      | split
      | refine misc_kept ?_ _ _ _ _ _ rfl

theorem openFromEarly_kept {d0 d : Dev} (h : Kept d0 d) (c : Cfg) (t : Tenant) (coll : W16) : Kept d0 (openFromEarly c d t coll) := by
  unfold openFromEarly
  try dsimp only
  repeat' first
    | with_reducible assumption
    | with_reducible apply closeAborted_kept
    | with_reducible apply drainEarly_kept
    | with_reducible apply openChecked_kept
    | with_reducible apply pumpInst_kept
    | with_reducible refine ite_kept ?_ ?_
    | (intro _ _ _)
    | split

theorem prologueFrame_kept {d0 d : Dev} (h : Kept d0 d) (c : Cfg) (q : TPort) (f : TrlFrame) : Kept d0 (prologueFrame c d q f) := by
  unfold prologueFrame
  try dsimp only
  repeat' first
    | with_reducible assumption
    | with_reducible apply countPro_kept
    | with_reducible apply dropEarly_kept
    | with_reducible apply openFromEarly_kept
    | with_reducible apply relayFrame_kept
    | with_reducible apply setRelay_kept
    | with_reducible apply takeFrame_kept
    | with_reducible apply trlDiscard_kept
    | with_reducible refine each_kept ?_ _ ?_
    | (intro _ _ _)
    | with_reducible refine ite_kept ?_ ?_
    | split
    | refine misc_kept ?_ _ _ _ _ _ rfl

theorem chunkFrame_kept {d0 d : Dev} (h : Kept d0 d) (c : Cfg) (q : TPort) (f : TrlFrame) : Kept d0 (chunkFrame c d q f) := by
  unfold chunkFrame
  try dsimp only
  repeat' first
    | with_reducible assumption
    | with_reducible apply relayFrame_kept
    | with_reducible apply takeFrame_kept
    | with_reducible apply trlDiscard_kept
    | with_reducible refine ite_kept ?_ ?_
    | (intro _ _ _)
    | split
    | refine misc_kept ?_ _ _ _ _ _ rfl

theorem placeHeldColl_kept {d0 d : Dev} (h : Kept d0 d) (c : Cfg)  : Kept d0 (placeHeldColl c d) := by
  unfold placeHeldColl
  try dsimp only
  repeat' first
    | with_reducible assumption
    | with_reducible apply placeColl_kept
    | with_reducible refine each_kept ?_ _ ?_
    | with_reducible refine ite_kept ?_ ?_
    | (intro _ _ _)
    | split

theorem endDone_kept {d0 d : Dev} (h : Kept d0 d)  : Kept d0 (endDone d) := by
  unfold endDone
  try dsimp only
  repeat' first
    | with_reducible assumption
    | with_reducible apply closeInst_kept
    | with_reducible refine each_kept ?_ _ ?_
    | with_reducible refine ite_kept ?_ ?_
    | (intro _ _ _)

theorem unpark_kept {d0 d : Dev} (h : Kept d0 d) (c : Cfg) : Kept d0 (unpark c d) := by
  unfold unpark
  try dsimp only
  repeat' first
    | with_reducible assumption
    | with_reducible apply deliver_kept
    | with_reducible apply modInst_kept
    | with_reducible refine each_kept ?_ _ ?_
    | (intro _ _ _)
    | split

theorem settleColl_kept {d0 d : Dev} (h : Kept d0 d) (c : Cfg) : Kept d0 (settleColl c d) := by
  unfold settleColl
  try dsimp only
  repeat' first
    | with_reducible assumption
    | with_reducible apply endDone_kept
    | with_reducible apply openFromEarly_kept
    | with_reducible apply placeHeldColl_kept
    | with_reducible apply unpark_kept
    | with_reducible refine each_kept ?_ _ ?_
    | (intro _ _ _)

theorem wantRead_kept {d0 d : Dev} (h : Kept d0 d) (p : LPort) (w : ReadWant) : Kept d0 (wantRead d p w) := by
  unfold wantRead
  try dsimp only
  repeat' first
    | with_reducible assumption
    | with_reducible apply pushTx_kept

theorem dropReads_kept {d0 d : Dev} (h : Kept d0 d) (p : LPort) (r : RingNo) (f : ReadWhy → Bool) : Kept d0 (dropReads d p r f) := by
  unfold dropReads
  try dsimp only
  repeat' first
    | with_reducible assumption
    | with_reducible refine modP_kept ?_ _ ?_ ?_
    | exact fun _ => rfl
    | exact fun _ m => m

theorem readHeaderAgain_kept {d0 d : Dev} (h : Kept d0 d) (c : Cfg) (p : LPort) (r : RingNo) : Kept d0 (readHeaderAgain c d p r) := by
  unfold readHeaderAgain
  try dsimp only
  repeat' first
    | with_reducible assumption
    | with_reducible apply wantRead_kept
    | with_reducible refine modR_kept ?_ _ _ _
    | with_reducible refine ite_kept ?_ ?_

theorem readHeader_kept {d0 d : Dev} (h : Kept d0 d) (c : Cfg) (p : LPort) (r : RingNo) : Kept d0 (readHeader c d p r) := by
  unfold readHeader
  exact ite_kept h (readHeaderAgain_kept h c p r)

theorem readDeferred_kept {d0 d : Dev} (h : Kept d0 d) (c : Cfg) (p : LPort) : Kept d0 (readDeferred c d p) := by
  unfold readDeferred
  try dsimp only
  repeat' first
    | with_reducible assumption
    | with_reducible apply readHeader_kept
    | with_reducible refine each_kept ?_ _ ?_
    | (intro _ _ _)
    | with_reducible refine ite_kept ?_ ?_

theorem readSlots_kept {d0 d : Dev} (h : Kept d0 d) (p : LPort) (r : RingNo) (i : W16) (n : Nat) : Kept d0 (readSlots d p r i n) := by
  unfold readSlots
  try dsimp only
  repeat' first
    | with_reducible assumption
    | with_reducible apply wantRead_kept

theorem fetchRuns_kept {d0 d : Dev} (h : Kept d0 d) (p : LPort) (r : RingNo) (n : Nat) : Kept d0 (fetchRuns p r n d) := by
  induction n generalizing d with
  | zero => exact h
  | succ n ih =>
    unfold fetchRuns
    try dsimp only
    repeat' first
      | with_reducible assumption
      | with_reducible apply ih
      | with_reducible apply readSlots_kept
      | with_reducible refine modR_kept ?_ _ _ _
      | with_reducible refine ite_kept ?_ ?_

theorem fetchMore_kept {d0 d : Dev} (h : Kept d0 d) (p : LPort) (r : RingNo) : Kept d0 (fetchMore d p r) := by
  unfold fetchMore
  try dsimp only
  repeat' first
    | with_reducible assumption
    | with_reducible apply fetchRuns_kept

theorem readWaiting_kept {d0 d : Dev} (h : Kept d0 d) (p : LPort) (r : RingNo) : Kept d0 (readWaiting d p r) := by
  unfold readWaiting
  try dsimp only
  repeat' first
    | with_reducible assumption
    | with_reducible apply readSlots_kept
    | with_reducible refine modR_kept ?_ _ _ _
    | with_reducible refine ite_kept ?_ ?_

theorem discardFetched_kept {d0 d : Dev} (h : Kept d0 d) (p : LPort) (r : RingNo) : Kept d0 (discardFetched d p r) := by
  unfold discardFetched
  try dsimp only
  repeat' first
    | with_reducible assumption
    | with_reducible apply dropReads_kept
    | with_reducible refine modR_kept ?_ _ _ _

theorem writeConsumed_kept {d0 d : Dev} (h : Kept d0 d) (p : LPort) (r : RingNo) : Kept d0 (writeConsumed d p r) := by
  unfold writeConsumed
  try dsimp only
  repeat' first
    | with_reducible assumption
    | with_reducible apply pushTx_kept

theorem deferHeaders_kept {d0 d : Dev} (h : Kept d0 d) (c : Cfg) (p : LPort) (r : RingNo) : Kept d0 (deferHeaders c d p r) := by
  unfold deferHeaders
  try dsimp only
  repeat' first
    | with_reducible assumption
    | with_reducible refine modP_kept ?_ _ ?_ ?_
    | exact fun _ => rfl
    | exact fun _ m => m
    | with_reducible refine modR_kept ?_ _ _ _
    | with_reducible refine each_kept ?_ _ ?_
    | (intro _ _ _)
    | with_reducible refine ite_kept ?_ ?_
    | split

theorem admitHead_kept {d0 d : Dev} (h : Kept d0 d) (c : Cfg) (p : LPort) (r : RingNo) : Kept d0 (admitHead c d p r) := by
  unfold admitHead
  try dsimp only
  repeat' first
    | with_reducible assumption
    | with_reducible apply deferHeaders_kept
    | with_reducible apply fetchMore_kept
    | with_reducible refine modR_kept ?_ _ _ _
    | with_reducible refine ite_kept ?_ ?_
    | (intro _ _ _)
    | split
    | refine misc_kept ?_ _ _ _ _ _ rfl

theorem advanceHead_kept {d0 d : Dev} (h : Kept d0 d) (c : Cfg) (p : LPort) (r : RingNo) : Kept d0 (advanceHead c d p r) := by
  unfold advanceHead
  try dsimp only
  repeat' first
    | with_reducible assumption
    | with_reducible apply wantRead_kept
    | with_reducible apply admitHead_kept
    | with_reducible refine modHead_kept ?_ _ _ _
    | with_reducible refine ite_kept ?_ ?_
    | (intro _ _ _)
    | split
    | refine misc_kept ?_ _ _ _ _ _ rfl

theorem failHead_kept {d0 d : Dev} (h : Kept d0 d) (c : Cfg) (p : LPort) (r : RingNo) (status : Byte) : Kept d0 (failHead c d p r status) := by
  unfold failHead
  try dsimp only
  repeat' first
    | with_reducible assumption
    | with_reducible apply advanceHead_kept
    | with_reducible refine modHead_kept ?_ _ _ _

theorem sendWatches_kept {d0 d : Dev} (h : Kept d0 d) (c : Cfg) (p : LPort) (r : RingNo) (desc : Desc) : Kept d0 (sendWatches c d p r desc) := by
  unfold sendWatches
  try dsimp only
  repeat' first
    | with_reducible assumption
    | with_reducible apply newReq_kept
    | refine newReq_pair ?_ (by with_reducible assumption)
    | with_reducible apply sendWatch_kept
    | with_reducible refine modHead_kept ?_ _ _ _
    | with_reducible refine each_kept ?_ _ ?_
    | with_reducible refine ite_kept ?_ ?_
    | (intro _ _ _)

theorem judgeHead_kept {d0 d : Dev} (h : Kept d0 d) (c : Cfg) (p : LPort) (r : RingNo) : Kept d0 (judgeHead c d p r) := by
  unfold judgeHead
  try dsimp only
  repeat' first
    | with_reducible assumption
    | with_reducible apply judgeRing_kept
    | with_reducible apply advanceHead_kept
    | with_reducible apply sendWatches_kept
    | with_reducible refine modHead_kept ?_ _ _ _
    | with_reducible refine ite_kept ?_ ?_
    | (intro _ _ _)
    | split

theorem readCounts_kept {d0 d : Dev} (h : Kept d0 d) (p : LPort) (r : RingNo) (rg : Nat × Nat) : Kept d0 (readCounts d p r rg) := by
  unfold readCounts
  try dsimp only
  repeat' first
    | with_reducible assumption
    | with_reducible apply wantRead_kept
    | with_reducible refine modHead_kept ?_ _ _ _
    | with_reducible refine each_kept ?_ _ ?_
    | (intro _ _ _)

theorem afterList_kept {d0 d : Dev} (h : Kept d0 d) (c : Cfg) (p : LPort) (r : RingNo) : Kept d0 (afterList c d p r) := by
  unfold afterList
  try dsimp only
  repeat' first
    | with_reducible assumption
    | with_reducible apply judgeHead_kept
    | with_reducible apply readCounts_kept
    | with_reducible refine modHead_kept ?_ _ _ _
    | with_reducible refine ite_kept ?_ ?_
    | (intro _ _ _)
    | split

theorem readList_kept {d0 d : Dev} (h : Kept d0 d) (p : LPort) (r : RingNo) (desc : Desc) : Kept d0 (readList d p r desc) := by
  unfold readList
  try dsimp only
  repeat' first
    | with_reducible assumption
    | with_reducible apply wantRead_kept
    | with_reducible refine modHead_kept ?_ _ _ _
    | with_reducible refine each_kept ?_ _ ?_
    | (intro _ _ _)

theorem startHead_kept {d0 d : Dev} (h : Kept d0 d) (c : Cfg) (p : LPort) (r : RingNo) : Kept d0 (startHead c d p r) := by
  unfold startHead
  try dsimp only
  repeat' first
    | with_reducible assumption
    | with_reducible apply afterList_kept
    | with_reducible apply readList_kept
    | with_reducible refine modR_kept ?_ _ _ _
    | with_reducible refine ite_kept ?_ ?_
    | (intro _ _ _)
    | split

theorem takeSlots_kept {d0 d : Dev} (h : Kept d0 d) (p : LPort) (r : RingNo) (n : Nat) : Kept d0 (takeSlots p r n d) := by
  induction n generalizing d with
  | zero => exact h
  | succ n ih =>
    unfold takeSlots
    try dsimp only
    repeat' first
      | with_reducible assumption
      | with_reducible apply ih
      | with_reducible apply dropReads_kept
      | with_reducible refine modR_kept ?_ _ _ _
      | with_reducible refine ite_kept ?_ ?_
      | (intro _ _ _)
      | split

theorem adoptHeader_kept {d0 d : Dev} (h : Kept d0 d) (c : Cfg) (p : LPort) (r : RingNo) (h : RingHdr) : Kept d0 (adoptHeader c d p r h) := by
  unfold adoptHeader
  try dsimp only
  repeat' first
    | with_reducible assumption
    | with_reducible apply discardFetched_kept
    | with_reducible apply dropReads_kept
    | with_reducible apply fetchMore_kept
    | with_reducible apply judgeAll_kept
    | with_reducible apply writeConsumed_kept
    | with_reducible refine modR_kept ?_ _ _ _
    | with_reducible refine ite_kept ?_ ?_

theorem refuseHeader_kept {d0 d : Dev} (h : Kept d0 d) (p : LPort) (r : RingNo) : Kept d0 (refuseHeader d p r) := by
  unfold refuseHeader
  try dsimp only
  repeat' first
    | with_reducible assumption
    | with_reducible apply addCause_kept
    | with_reducible apply discardFetched_kept
    | with_reducible refine modR_kept ?_ _ _ _

theorem leaveInst_kept {d0 d : Dev} (h : Kept d0 d) (p : LPort) (r : RingNo) (x : Run) : Kept d0 (leaveInst d p r x) := by
  unfold leaveInst
  try dsimp only
  repeat' first
    | with_reducible assumption
    | with_reducible apply modInst_kept
    | with_reducible apply releaseStaging_kept
    | with_reducible refine each_kept ?_ _ ?_
    | (intro _ _ _)
    | refine misc_kept ?_ _ _ _ _ _ rfl

theorem settleHeader_kept {d0 d : Dev} (h : Kept d0 d) (c : Cfg) (p : LPort) (r : RingNo) (bs : List Byte) : Kept d0 (settleHeader c d p r bs) := by
  unfold settleHeader
  try dsimp only
  repeat' first
    | with_reducible assumption
    | with_reducible apply adoptHeader_kept
    | with_reducible apply refuseHeader_kept
    | with_reducible refine ite_kept ?_ ?_

theorem fenceAdopt_kept {d0 d : Dev} (h : Kept d0 d) (c : Cfg) (p : LPort) (r : RingNo) : Kept d0 (fenceAdopt c d p r) := by
  unfold fenceAdopt
  try dsimp only
  repeat' first
    | with_reducible assumption
    | with_reducible apply readHeaderAgain_kept
    | with_reducible apply settleHeader_kept
    | with_reducible refine modR_kept ?_ _ _ _
    | with_reducible refine ite_kept ?_ ?_
    | (intro _ _ _)
    | split

theorem paidStaging_kept {d0 d : Dev} (h : Kept d0 d) (x : Run) : Kept d0 (paidStaging d x) := by
  unfold paidStaging
  try dsimp only
  repeat' first
    | with_reducible assumption
    | with_reducible refine modStore_kept ?_ ?_ ?_
    | exact fun _ m => m

theorem afterRecord_kept {d0 d : Dev} (h : Kept d0 d) (c : Cfg) (p : LPort) (r : RingNo) (x : Run) : Kept d0 (afterRecord c d p r x) := by
  unfold afterRecord
  try dsimp only
  repeat' first
    | with_reducible assumption
    | with_reducible apply bumpLem_kept
    | with_reducible apply bumpRing_kept
    | with_reducible apply discardFetched_kept
    | with_reducible apply dropReads_kept
    | with_reducible apply fenceAdopt_kept
    | with_reducible apply fetchMore_kept
    | with_reducible apply judgeAll_kept
    | with_reducible apply leaveInst_kept
    | with_reducible apply paidStaging_kept
    | with_reducible apply readDeferred_kept
    | with_reducible apply releaseHold_kept
    | with_reducible apply startHead_kept
    | with_reducible apply writeConsumed_kept
    | with_reducible refine modR_kept ?_ _ _ _
    | with_reducible refine ite_kept ?_ ?_

theorem beginReads_kept {d0 d : Dev} (h : Kept d0 d) (c : Cfg) (p : LPort) (r : RingNo) : Kept d0 (beginReads c d p r) := by
  unfold beginReads
  try dsimp only
  repeat' first
    | with_reducible assumption
    | with_reducible apply wantRead_kept
    | with_reducible refine modRun_kept ?_ _ _ _
    | with_reducible refine each_kept ?_ _ ?_
    | with_reducible refine ite_kept ?_ ?_
    | (intro _ _ _)
    | split

theorem beginAllReads_kept {d0 d : Dev} (h : Kept d0 d) (c : Cfg)  : Kept d0 (beginAllReads c d) := by
  unfold beginAllReads
  try dsimp only
  repeat' first
    | with_reducible assumption
    | with_reducible apply beginReads_kept
    | with_reducible refine each_kept ?_ _ ?_
    | (intro _ _ _)

theorem failBulk_kept {d0 d : Dev} (h : Kept d0 d) (p : LPort) (r : RingNo) (status : Byte) (cls : Nat) : Kept d0 (failBulk d p r status cls) := by
  unfold failBulk
  try dsimp only
  repeat' first
    | with_reducible assumption
    | with_reducible apply dropReads_kept
    | with_reducible refine modRun_kept ?_ _ _ _
    | with_reducible refine ite_kept ?_ ?_
    | (intro _ _ _)
    | split
    | refine misc_kept ?_ _ _ _ _ _ rfl

theorem modRec_kept {d0 d : Dev} (h : Kept d0 d) (f : Rec → Rec) : Kept d0 (modRec d f) := by
  unfold modRec
  try dsimp only
  repeat' first
    | with_reducible assumption
    | (intro _ _ _)
    | split
    | refine misc_kept ?_ _ _ _ _ _ rfl

theorem noteFailed_kept {d0 d : Dev} (h : Kept d0 d) (us : List Nat) : Kept d0 (noteFailed d us) := by
  unfold noteFailed
  try dsimp only
  repeat' first
    | with_reducible assumption
    | with_reducible refine modS_kept ?_ ?_
    | exact fun _ => rfl

theorem endRun_kept {d0 d : Dev} (h : Kept d0 d) (e : LPort × RingNo) (status : Byte) : Kept d0 (endRun d e status) := by
  unfold endRun
  try dsimp only
  repeat' first
    | with_reducible assumption
    | with_reducible refine modRun_kept ?_ _ _ _

theorem rehome_kept {d0 d : Dev} (h : Kept d0 d) (c : Cfg) (waits : List (LPort × RingNo)) (watches : List (LPort × RingNo × Nat)) (us : List Nat) : Kept d0 (rehome c d waits watches us) := by
  unfold rehome
  try dsimp only
  repeat' first
    | with_reducible assumption
    | with_reducible apply sendPeg_kept
    | with_reducible apply judgeAll_kept
    | with_reducible apply sendWatch_kept
    | with_reducible apply modArrival_kept
    | with_reducible apply engineRelease_kept
    | with_reducible apply endRun_kept
    | with_reducible refine each_kept ?_ _ ?_
    | with_reducible refine ite_kept ?_ ?_
    | (intro _ _ _)
    | split
    | refine misc_kept ?_ _ _ _ _ _ rfl

theorem isolate_kept {d0 d : Dev} (h : Kept d0 d) (c : Cfg) : Kept d0 (isolate c d) := by
  unfold isolate
  try dsimp only
  repeat' first
    | with_reducible assumption
    | with_reducible apply assertFaultN_kept
    | with_reducible apply dropReads_kept
    | with_reducible apply endArrival_kept
    | with_reducible apply endInst_kept
    | with_reducible apply endRun_kept
    | with_reducible apply failHead_kept
    | with_reducible apply modRec_kept
    | with_reducible apply noteFailed_kept
    | with_reducible refine each_kept ?_ _ ?_
    | (intro _ _ _)
    | with_reducible refine ite_kept ?_ ?_
    | split

theorem purgeFrames_kept {d0 d : Dev} (h : Kept d0 d) (t : Tenant) (coll : W16) : Kept d0 (purgeFrames d t coll) := by
  unfold purgeFrames
  try dsimp only
  repeat' first
    | with_reducible assumption
    | with_reducible refine modT_kept ?_ _ ?_
    | with_reducible refine each_kept ?_ _ ?_
    | exact fun _ => rfl
    | (intro _ _ _)

theorem cutRun_kept {d0 d : Dev} (h : Kept d0 d) (e : LPort × RingNo) : Kept d0 (cutRun d e) := by
  unfold cutRun
  try dsimp only
  repeat' first
    | with_reducible assumption
    | with_reducible refine modP_kept ?_ _ ?_ ?_
    | exact fun _ => rfl
    | exact fun _ m => m

theorem faultEnd_kept {d0 d : Dev} (h : Kept d0 d) (e : LPort × RingNo) (status : Byte) : Kept d0 (faultEnd d e status) := by
  unfold faultEnd
  try dsimp only
  repeat' first
    | with_reducible assumption
    | with_reducible apply cutRun_kept
    | with_reducible refine modRun_kept ?_ _ _ _

theorem endExcluded_kept {d0 d : Dev} (h : Kept d0 d) (x : Inst) (pa : Party) : Kept d0 (endExcluded d x pa) := by
  unfold endExcluded
  try dsimp only
  repeat' first
    | with_reducible assumption
    | with_reducible apply faultEnd_kept
    | with_reducible refine each_kept ?_ _ ?_
    | (intro _ _ _)

theorem freeze_kept {d0 d : Dev} (h : Kept d0 d) (t : Tenant) (coll : W16) (round : Nat) : Kept d0 (freeze d t coll round) := by
  unfold freeze
  try dsimp only
  repeat' first
    | with_reducible assumption
    | with_reducible apply flood_kept
    | with_reducible apply modInst_kept
    | with_reducible apply pumpCommit_kept
    | with_reducible apply addState_kept
    | (intro _ _ _)
    | split

theorem replayKept_kept {d0 d : Dev} (h : Kept d0 d) (c : Cfg) (t : Tenant) (coll : W16) (l : List (Nat × TrlFrame)) (a b : List Nat) : Kept d0 (replayKept c t coll l a b d) := by
  induction l generalizing d a b with
  | nil => exact h
  | cons e l ih =>
    unfold replayKept
    try dsimp only
    repeat' first
      | with_reducible assumption
      | with_reducible apply ih
      | with_reducible apply deliver_kept
      | with_reducible refine ite_kept ?_ ?_
      | (intro _ _ _)
      | split

theorem loadRecipe_kept {d0 d : Dev} (h : Kept d0 d) (e : LPort × RingNo) : Kept d0 (loadRecipe d e) := by
  unfold loadRecipe
  try dsimp only
  repeat' first
    | with_reducible assumption
    | refine draw_pair ?_ (by with_reducible assumption)
    | with_reducible apply draw_kept
    | with_reducible refine modStore_kept ?_ ?_ ?_
    | exact fun _ m => m
    | with_reducible refine ite_kept ?_ ?_
    | (intro _ _ _)
    | split

theorem reform_kept {d0 d : Dev} (h : Kept d0 d) (c : Cfg) (t : Tenant) (coll : W16) : Kept d0 (reform c d t coll) := by
  unfold reform
  try dsimp only
  repeat' first
    | with_reducible assumption
    | with_reducible apply loadRecipe_kept
    | with_reducible apply modInst_kept
    | with_reducible apply pumpInst_kept
    | with_reducible apply purgeFrames_kept
    | with_reducible apply replayKept_kept
    | with_reducible refine each_kept ?_ _ ?_
    | (intro _ _ _)
    | split

theorem tryReform_kept {d0 d : Dev} (h : Kept d0 d) (c : Cfg) (t : Tenant) (coll : W16) : Kept d0 (tryReform c d t coll) := by
  unfold tryReform
  try dsimp only
  repeat' first
    | with_reducible assumption
    | with_reducible apply reform_kept
    | with_reducible refine ite_kept ?_ ?_
    | (intro _ _ _)
    | split

theorem takeAbort_kept {d0 d : Dev} (h : Kept d0 d) (c : Cfg) (t : Tenant) (coll num : W16) (status : Byte) (isMine : Inst → Bool) : Kept d0 (takeAbort c d t coll num status isMine) := by
  unfold takeAbort
  try dsimp only
  repeat' first
    | with_reducible assumption
    | with_reducible apply endInst_kept
    | with_reducible apply settleColl_kept
    | with_reducible refine ite_kept ?_ ?_
    | (intro _ _ _)
    | split
    | refine misc_kept ?_ _ _ _ _ _ rfl

theorem takeRole_kept {d0 d : Dev} (h : Kept d0 d) (c : Cfg) (t : Tenant) (coll num : W16) (round : Nat) : Kept d0 (takeRole c d t coll num round) := by
  unfold takeRole
  try dsimp only
  repeat' first
    | with_reducible assumption
    | (intro _ _ _)
    | split
    | refine misc_kept ?_ _ _ _ _ _ rfl

theorem takeVerdict_kept {d0 d : Dev} (h : Kept d0 d) (c : Cfg) (t : Tenant) (coll num : W16) (round outcome : Nat) (status : Byte) : Kept d0 (takeVerdict c d t coll num round outcome status) := by
  unfold takeVerdict
  try dsimp only
  repeat' first
    | with_reducible assumption
    | with_reducible apply addCauseTenant_kept
    | with_reducible apply bumpTenant_kept
    | with_reducible apply modInst_kept
    | with_reducible apply pumpInst_kept
    | with_reducible apply takeAbort_kept
    | with_reducible apply takeRole_kept
    | with_reducible apply tryReform_kept
    | with_reducible refine ite_kept ?_ ?_
    | (intro _ _ _)
    | split
    | refine misc_kept ?_ _ _ _ _ _ rfl

theorem decideVerdict_kept {d0 d : Dev} (h : Kept d0 d) (c : Cfg) (t : Tenant) (coll num : W16) (late : Bool) : Kept d0 (decideVerdict c d t coll num late) := by
  unfold decideVerdict
  try dsimp only
  repeat' first
    | with_reducible assumption
    | with_reducible apply flood_kept
    | with_reducible apply takeVerdict_kept
    | with_reducible refine ite_kept ?_ ?_

theorem decideAll_kept {d0 d : Dev} (h : Kept d0 d) (c : Cfg) : Kept d0 (decideAll c d) := by
  unfold decideAll
  try dsimp only
  repeat' first
    | with_reducible assumption
    | with_reducible apply decideVerdict_kept
    | with_reducible apply modRec_kept
    | with_reducible refine each_kept ?_ _ ?_
    | (intro _ _ _)
    | with_reducible refine ite_kept ?_ ?_

theorem takeState_kept {d0 d : Dev} (h : Kept d0 d) (c : Cfg) (t : Tenant) (coll num : W16) (r : Report) : Kept d0 (takeState c d t coll num r) := by
  unfold takeState
  try dsimp only
  repeat' first
    | with_reducible assumption
    | with_reducible apply addState_kept
    | with_reducible apply decideVerdict_kept
    | with_reducible apply freeze_kept
    | with_reducible apply tryReform_kept
    | with_reducible refine ite_kept ?_ ?_
    | (intro _ _ _)
    | split

theorem graftFault_kept {d0 d : Dev} (h : Kept d0 d) (hit : List (Tenant × W16)) (pa : Party) (extra : List Nat) : Kept d0 (graftFault d hit pa extra) := by
  unfold graftFault
  try dsimp only
  repeat' first
    | with_reducible assumption
    | with_reducible apply modInst_kept
    | with_reducible apply endExcluded_kept
    | with_reducible apply freeze_kept
    | with_reducible refine each_kept ?_ _ ?_
    | with_reducible refine ite_kept ?_ ?_
    | (intro _ _ _)
    | split

theorem drainRing_kept {d0 d : Dev} (h : Kept d0 d) (p : LPort) (r : RingNo) : Kept d0 (drainRing d p r) := by
  unfold drainRing
  try dsimp only
  repeat' first
    | with_reducible assumption
    | with_reducible apply discardFetched_kept
    | with_reducible apply dropReads_kept
    | with_reducible apply faultEnd_kept
    | with_reducible refine modR_kept ?_ _ _ _
    | with_reducible refine modRun_kept ?_ _ _ _

theorem drain_kept {d0 d : Dev} (h : Kept d0 d) (c : Cfg) (t : Tenant) : Kept d0 (drain c d t) := by
  unfold drain
  try dsimp only
  repeat' first
    | with_reducible assumption
    | with_reducible apply addCauseTenant_kept
    | with_reducible apply bumpTenant_kept
    | with_reducible apply closeInst_kept
    | with_reducible apply drainRing_kept
    | with_reducible apply modRec_kept
    | with_reducible apply purgeFrames_kept
    | with_reducible refine modStore_kept ?_ ?_ ?_
    | exact fun _ m => m
    | with_reducible refine each_kept ?_ _ ?_
    | (intro _ _ _)
    | refine misc_kept ?_ _ _ _ _ _ rfl

theorem startChange_kept {d0 d : Dev} (h : Kept d0 d) (c : Cfg) (t : Tenant) : Kept d0 (startChange c d t) := by
  unfold startChange
  try dsimp only
  repeat' first
    | with_reducible assumption
    | with_reducible apply modRec_kept
    | with_reducible refine modStore_kept ?_ ?_ ?_
    | exact fun _ => rfl
    | exact fun _ m => m
    | with_reducible refine ite_kept ?_ ?_
    | (intro _ _ _)
    | split
    | refine misc_kept ?_ _ _ _ _ _ rfl

theorem tryChange_kept {d0 d : Dev} (h : Kept d0 d) (c : Cfg) (late : Bool) : Kept d0 (tryChange c d late) := by
  unfold tryChange
  try dsimp only
  repeat' first
    | with_reducible assumption
    | with_reducible apply startChange_kept
    | with_reducible refine each_kept ?_ _ ?_
    | with_reducible refine ite_kept ?_ ?_
    | (intro _ _ _)

theorem endRestart_kept {d0 d : Dev} (h : Kept d0 d) (t : Tenant) : Kept d0 (endRestart d t) := by
  unfold endRestart
  try dsimp only
  repeat' first
    | with_reducible assumption
    | with_reducible apply modRec_kept

theorem tryEnd_kept {d0 d : Dev} (h : Kept d0 d) (late : Bool) : Kept d0 (tryEnd d late) := by
  unfold tryEnd
  try dsimp only
  repeat' first
    | with_reducible assumption
    | with_reducible apply endRestart_kept
    | with_reducible refine each_kept ?_ _ ?_
    | with_reducible refine ite_kept ?_ ?_
    | (intro _ _ _)

theorem restorePeg_kept {d0 d : Dev} (h : Kept d0 d) (pool : Sparse 16) (k : Nat) : Kept d0 (restorePeg d pool k) := by
  unfold restorePeg
  try dsimp only
  repeat' first
    | with_reducible assumption
    | with_reducible apply meetBad_kept
    | with_reducible refine setPool_kept ?_ _ _
    | with_reducible refine ite_kept ?_ ?_

theorem clearPool_kept {d0 d : Dev} (h : Kept d0 d) (lo hi : Nat) (bad : List Nat) :
    Kept d0 { d with pegs := { d.pegs with pool := spClear d.pegs.pool lo hi, bad := bad } } :=
  h.trans ⟨fun m => ⟨m.1, m.2.1, spWf_clear _ _ m.2.2.1, m.2.2.2⟩, ⟨fun _ => rfl, fun _ => rfl, rfl, rfl, rfl⟩⟩

theorem emptyPocket_kept {d0 d : Dev} (h : Kept d0 d) (p : LPort) : Kept d0 (modP d p fun x => { x with pocket := [] }) :=
  modP_kept h p (fun _ _ => rfl) fun _ => rfl

theorem finishChange_kept {d0 d : Dev} (h : Kept d0 d) (c : Cfg) (t : Tenant) : Kept d0 (finishChange c d t) := by
  unfold finishChange
  with_reducible
    dsimp only
    apply modRec_kept
    apply bumpTenant_kept
    apply each_kept
    · apply each_kept
      · exact clearPool_kept h _ _ _
      · intro d p hd
        exact emptyPocket_kept hd p
    · exact fun d k hd => restorePeg_kept hd _ k

theorem regroup_kept {d0 d : Dev} (h : Kept d0 d) (c : Cfg) : Kept d0 (regroup c d) := by
  unfold regroup
  try dsimp only
  repeat' first
    | with_reducible assumption
    | with_reducible refine modRun_kept ?_ _ _ _
    | with_reducible refine each_kept ?_ _ ?_
    | (intro _ _ _)

theorem acceptFault_kept {d0 d : Dev} (h : Kept d0 d) (c : Cfg) (cls unit port tenants : Nat) : Kept d0 (acceptFault c d cls unit port tenants) := by
  unfold acceptFault
  try dsimp only
  repeat' first
    | with_reducible assumption
    | with_reducible apply assertFaultN_kept
    | with_reducible apply bumpTenant_kept
    | with_reducible apply decideAll_kept
    | with_reducible apply drain_kept
    | with_reducible apply graftFault_kept
    | with_reducible apply isolate_kept
    | with_reducible apply modRec_kept
    | with_reducible apply noteFailed_kept
    | with_reducible apply regroup_kept
    | with_reducible apply rehome_kept
    | with_reducible apply tryChange_kept
    | with_reducible apply tryEnd_kept
    | with_reducible refine each_kept ?_ _ ?_
    | (intro _ _ _)
    | with_reducible refine ite_kept ?_ ?_

theorem raiseFault_kept {d0 d : Dev} (h : Kept d0 d) (c : Cfg) (cls unit port : Nat) : Kept d0 (raiseFault c d cls unit port) := by
  unfold raiseFault
  try dsimp only
  repeat' first
    | with_reducible assumption
    | with_reducible apply flood_kept
    | with_reducible apply assertFaultN_kept
    | with_reducible apply acceptFault_kept
    | with_reducible refine ite_kept ?_ ?_

theorem raiseOwn_kept {d0 d : Dev} (h : Kept d0 d) (c : Cfg) (cls port : Nat) : Kept d0 (raiseOwn c d cls port) := by
  unfold raiseOwn
  try dsimp only
  repeat' first
    | with_reducible assumption
    | with_reducible apply raiseFault_kept

theorem raiseDue_kept {d0 d : Dev} (h : Kept d0 d) (c : Cfg) (n : Nat) : Kept d0 (raiseDue c n d) := by
  induction n generalizing d with
  | zero => exact h
  | succ n ih =>
    unfold raiseDue
    try dsimp only
    repeat' first
      | with_reducible assumption
      | with_reducible apply ih
      | with_reducible apply modRec_kept
      | with_reducible apply raiseOwn_kept
      | (intro _ _ _)
      | split

theorem epilogue_kept {d0 d : Dev} (h : Kept d0 d) (c : Cfg)  : Kept d0 (epilogue c d) := by
  unfold epilogue
  try dsimp only
  repeat' first
    | with_reducible assumption
    | with_reducible apply settle_kept
    | with_reducible apply settleColl_kept
    | with_reducible apply startHead_kept
    | with_reducible apply beginAllReads_kept
    | with_reducible apply raiseDue_kept
    | with_reducible refine each_kept ?_ _ ?_
    | (intro _ _ _)

theorem takeHeader_kept {d0 d : Dev} (h : Kept d0 d) (c : Cfg) (p : LPort) (r : RingNo) (bs : List Byte) : Kept d0 (takeHeader c d p r bs) := by
  unfold takeHeader
  try dsimp only
  repeat' first
    | with_reducible assumption
    | with_reducible apply settleHeader_kept
    | with_reducible refine modR_kept ?_ _ _ _
    | with_reducible refine modRun_kept ?_ _ _ _
    | with_reducible refine ite_kept ?_ ?_

theorem takePending_kept {d0 d : Dev} (h : Kept d0 d) (c : Cfg) (p : LPort) (r : RingNo) : Kept d0 (takePending c d p r) := by
  unfold takePending
  split
  · exact epilogue_kept (takeHeader_kept h c p r _) c
  · exact h

theorem sowSend_kept {d0 d : Dev} (h : Kept d0 d) (i : TPort) (m : SowMsg) : Kept d0 (sowSend d i m) := by
  unfold sowSend
  try dsimp only
  repeat' first
    | with_reducible assumption
    | with_reducible apply sendControl_kept
    | with_reducible refine modT_kept ?_ _ ?_
    | exact fun _ => rfl
    | with_reducible refine ite_kept ?_ ?_

theorem sowFlood_kept {d0 d : Dev} (h : Kept d0 d) (miswired : Bool) (except : Option TPort) (m : SowMsg) : Kept d0 (sowFlood d miswired except m) := by
  unfold sowFlood
  try dsimp only
  repeat' first
    | with_reducible assumption
    | with_reducible apply sowSend_kept
    | with_reducible refine each_kept ?_ _ ?_
    | with_reducible refine ite_kept ?_ ?_
    | (intro _ _ _)

theorem stopCodes_kept {d0 d : Dev} (h : Kept d0 d) (ref : Option (List (BitVec 4))) : Kept d0 (stopCodes d ref).2 := by
  unfold stopCodes
  split
  · exact h
  · exact draw_kept h

theorem assertLines_kept {d0 d : Dev} (h : Kept d0 d) (c : Cfg)  : Kept d0 (assertLines c d) := by
  unfold assertLines
  try dsimp only
  repeat' first
    | with_reducible assumption
    | (intro _ _ _)
    | split
    | refine misc_kept ?_ _ _ _ _ _ rfl

theorem sendRoll_kept {d0 d : Dev} (h : Kept d0 d) (c : Cfg) (ax count : Nat) : Kept d0 (sendRoll c d ax count) := by
  unfold sendRoll
  try dsimp only
  repeat' first
    | with_reducible assumption
    | with_reducible apply sowSend_kept

theorem leaveArrivals_kept {d0 d : Dev} (h : Kept d0 d) (p : LPort) : Kept d0 (leaveArrivals d p) := by
  unfold leaveArrivals
  try dsimp only
  repeat' first
    | with_reducible assumption
    | (intro _ _ _)
    | refine misc_kept ?_ _ _ _ _ _ rfl

theorem nudgeNow_kept {d0 d : Dev} (h : Kept d0 d) (c : Cfg) (p : LPort) (r : RingNo) : Kept d0 (nudgeNow c d p r) := by
  unfold nudgeNow
  try dsimp only
  repeat' first
    | with_reducible assumption
    | with_reducible apply fetchMore_kept
    | with_reducible apply readHeaderAgain_kept
    | with_reducible apply readWaiting_kept
    | with_reducible refine modR_kept ?_ _ _ _
    | with_reducible refine ite_kept ?_ ?_

theorem nudgeRing_kept {d0 d : Dev} (h : Kept d0 d) (c : Cfg) (p : LPort) (r : RingNo) : Kept d0 (nudgeRing c d p r) := by
  unfold nudgeRing
  exact nudgeNow_kept (takePending_kept h c p r) c p r

theorem endRead_kept {d0 d : Dev} (h : Kept d0 d) (p : LPort) (tag : Nat) : Kept d0 (endRead d p tag) := by
  unfold endRead
  try dsimp only
  repeat' first
    | with_reducible assumption
    | with_reducible refine modP_kept ?_ _ ?_ ?_
    | exact fun _ => rfl
    | exact fun _ m => m

theorem takeRecipe_kept {d0 d : Dev} (h : Kept d0 d) (c : Cfg) (p : LPort) (r : RingNo) (bs : List Byte) : Kept d0 (takeRecipe c d p r bs) := by
  unfold takeRecipe
  try dsimp only
  repeat' first
    | with_reducible assumption
    | with_reducible apply failHead_kept
    | with_reducible refine modHead_kept ?_ _ _ _
    | with_reducible refine ite_kept ?_ ?_

theorem readGood_kept {d0 d : Dev} (h : Kept d0 d) (c : Cfg) (p : LPort) (w : ReadWhy) (bs : List Byte) : Kept d0 (readGood c d p w bs) := by
  unfold readGood
  try dsimp only
  repeat' first
    | with_reducible assumption
    | with_reducible apply afterList_kept
    | with_reducible apply judgeHead_kept
    | with_reducible apply takePending_kept
    | with_reducible apply takeRecipe_kept
    | with_reducible apply writeYard_kept
    | with_reducible refine modR_kept ?_ _ _ _
    | with_reducible refine modRun_kept ?_ _ _ _
    | with_reducible refine modHead_kept ?_ _ _ _
    | with_reducible refine ite_kept ?_ ?_
    | (intro _ _ _)
    | split

theorem slotUnread_kept {d0 d : Dev} (h : Kept d0 d) (p : LPort) (r : RingNo) (first : W16) : Kept d0 (slotUnread d p r first) := by
  unfold slotUnread
  try dsimp only
  repeat' first
    | with_reducible assumption
    | with_reducible apply dropReads_kept
    | with_reducible refine modR_kept ?_ _ _ _

theorem headUnread_kept {d0 d : Dev} (h : Kept d0 d) (c : Cfg) (p : LPort) (r : RingNo) (w : ReadWhy) : Kept d0 (headUnread c d p r w) := by
  unfold headUnread
  try dsimp only
  repeat' first
    | with_reducible assumption
    | with_reducible apply dropReads_kept
    | with_reducible apply failHead_kept
    | with_reducible apply judgeHead_kept
    | with_reducible refine modR_kept ?_ _ _ _
    | with_reducible refine modHead_kept ?_ _ _ _
    | with_reducible refine ite_kept ?_ ?_
    | (intro _ _ _)
    | split

theorem readBad_kept {d0 d : Dev} (h : Kept d0 d) (c : Cfg) (p : LPort) (w : ReadWhy) : Kept d0 (readBad c d p w) := by
  unfold readBad
  try dsimp only
  repeat' first
    | with_reducible assumption
    | with_reducible apply headUnread_kept
    | with_reducible apply slotUnread_kept
    | with_reducible refine modR_kept ?_ _ _ _
    | (intro _ _ _)
    | split

theorem countFailed_kept {d0 d : Dev} (h : Kept d0 d) (p : LPort) (w : ReadWant) (timeout : Bool) : Kept d0 (countFailed d p w timeout) := by
  unfold countFailed
  try dsimp only
  repeat' first
    | with_reducible assumption
    | with_reducible apply bumpLem_kept
    | with_reducible apply bumpRing_kept
    | with_reducible refine ite_kept ?_ ?_

theorem discardedEnds_kept {d0 d : Dev} (h : Kept d0 d) (p : LPort) (w : ReadWhy) : Kept d0 (discardedEnds d p w) := by
  unfold discardedEnds
  try dsimp only
  repeat' first
    | with_reducible assumption
    | with_reducible apply fetchMore_kept
    | with_reducible refine ite_kept ?_ ?_

theorem readFails_kept {d0 d : Dev} (h : Kept d0 d) (c : Cfg) (p : LPort) (o : ReadOut) (timeout : Bool) : Kept d0 (readFails c d p o timeout) := by
  unfold readFails
  try dsimp only
  repeat' first
    | with_reducible assumption
    | with_reducible apply countFailed_kept
    | with_reducible apply discardedEnds_kept
    | with_reducible apply endRead_kept
    | with_reducible apply failBulk_kept
    | with_reducible apply readBad_kept
    | with_reducible refine ite_kept ?_ ?_

theorem takeCpl_kept {d0 d : Dev} (h : Kept d0 d) (c : Cfg) (p : LPort) (f : LemFrame) : Kept d0 (takeCpl c d p f) := by
  unfold takeCpl
  try dsimp only
  repeat' first
    | with_reducible assumption
    | with_reducible apply discardedEnds_kept
    | with_reducible apply endRead_kept
    | with_reducible apply lemDiscard_kept
    | with_reducible apply readFails_kept
    | with_reducible apply readGood_kept
    | with_reducible refine modP_kept ?_ _ ?_ ?_
    | exact fun _ => rfl
    | exact fun _ m => m
    | with_reducible refine ite_kept ?_ ?_
    | (intro _ _ _)
    | split

theorem retryRead_kept {d0 d : Dev} (h : Kept d0 d) (c : Cfg) (p : LPort) (r : RingNo) (w : ReadWhy) : Kept d0 (retryRead c d p r w) := by
  unfold retryRead
  try dsimp only
  repeat' first
    | with_reducible assumption
    | with_reducible apply readCounts_kept
    | with_reducible apply readHeader_kept
    | with_reducible apply readList_kept
    | with_reducible apply readWaiting_kept
    | with_reducible apply wantRead_kept
    | with_reducible refine ite_kept ?_ ?_
    | (intro _ _ _)
    | split

theorem sendUnwatches_kept {d0 d : Dev} (h : Kept d0 d) (c : Cfg) (p : LPort) (r : RingNo) (desc : Desc) (h : Head) : Kept d0 (sendUnwatches c d p r desc h) := by
  unfold sendUnwatches
  try dsimp only
  repeat' first
    | with_reducible assumption
    | with_reducible apply sendWatch_kept
    | with_reducible refine each_kept ?_ _ ?_
    | with_reducible refine ite_kept ?_ ?_
    | (intro _ _ _)
    | split

theorem waitTimeout_kept {d0 d : Dev} (h : Kept d0 d) (c : Cfg) (p : LPort) (r : RingNo) : Kept d0 (waitTimeout c d p r) := by
  unfold waitTimeout
  try dsimp only
  repeat' first
    | with_reducible assumption
    | with_reducible apply bumpTenant_kept
    | with_reducible apply bumpHealth_kept
    | with_reducible apply failHead_kept
    | with_reducible apply sendUnwatches_kept
    | with_reducible refine ite_kept ?_ ?_
    | (intro _ _ _)
    | split

theorem admitWhen_kept {d0 d : Dev} (h : Kept d0 d) (c : Cfg) (p : LPort) (r : RingNo) (ok : Desc → Bool) (act : Dev → Run → Dev) (ha : ∀ d x, Kept d0 d → Kept d0 (act d x)) : Kept d0 (admitWhen c d p r ok act) := by
  unfold admitWhen
  try dsimp only
  repeat' first
    | with_reducible assumption
    | with_reducible apply ha
    | with_reducible apply admitHead_kept
    | with_reducible apply epilogue_kept
    | with_reducible refine ite_kept ?_ ?_
    | (intro _ _ _)
    | split

theorem finishRun_kept {d0 d : Dev} (h : Kept d0 d) (p : LPort) (r : RingNo) (aux : Nat) : Kept d0 (finishRun d p r aux) := by
  unfold finishRun
  try dsimp only
  repeat' first
    | with_reducible assumption
    | with_reducible refine modRun_kept ?_ _ _ _

theorem checkError_kept {d0 d : Dev} (h : Kept d0 d) (p : LPort) (r : RingNo) : Kept d0 (checkError d p r) := by
  unfold checkError
  try dsimp only
  repeat' first
    | with_reducible assumption
    | with_reducible refine modRun_kept ?_ _ _ _
    | (intro _ _ _)
    | split
    | refine misc_kept ?_ _ _ _ _ _ rfl

theorem runColl_kept {d0 d : Dev} (h : Kept d0 d) (c : Cfg) (p : LPort) (r : RingNo) (x : Run) : Kept d0 (runColl c d p r x) := by
  unfold runColl
  try dsimp only
  repeat' first
    | with_reducible assumption
    | with_reducible apply askStore_kept
    | with_reducible apply placeColl_kept
    | with_reducible refine modRun_kept ?_ _ _ _
    | (intro _ _ _)
    | split

theorem admitColl_kept {d0 d : Dev} (h : Kept d0 d) (c : Cfg) (p : LPort) (r : RingNo) (kind op : Nat) : Kept d0 (admitColl c d p r kind op) := by
  unfold admitColl
  try dsimp only
  repeat' first
    | with_reducible assumption
    | with_reducible apply admitWhen_kept
    | with_reducible apply runColl_kept
    | (intro _ _ _)

theorem copyYard_kept {d0 d : Dev} (h : Kept d0 d) (c : Cfg) (p : LPort) (r : RingNo) (desc : Desc) : Kept d0 (copyYard c d p r desc) := by
  unfold copyYard
  try dsimp only
  repeat' first
    | with_reducible assumption
    | with_reducible apply checkError_kept
    | with_reducible apply dropBlocks_kept
    | with_reducible apply meetBad_kept
    | with_reducible apply wantRead_kept
    | with_reducible apply writeYard_kept
    | with_reducible refine modRun_kept ?_ _ _ _
    | with_reducible refine each_kept ?_ _ ?_
    | (intro _ _ _)
    | with_reducible refine ite_kept ?_ ?_

theorem runYardLoad_kept {d0 d : Dev} (h : Kept d0 d) (c : Cfg) (p : LPort) (r : RingNo) (x : Run) : Kept d0 (runYardLoad c d p r x) := by
  unfold runYardLoad
  try dsimp only
  repeat' first
    | with_reducible assumption
    | with_reducible apply copyYard_kept
    | with_reducible apply endWith_kept
    | with_reducible refine ite_kept ?_ ?_

theorem clearWords_kept {d0 d : Dev} (h : Kept d0 d) (c : Cfg) (t : Tenant) (desc : Desc) (f : Nat → Bool) : Kept d0 (clearWords c d t desc f) := by
  unfold clearWords
  exact modStore_kept h (fun _ m => spWf_filter _ m) fun _ m => m

theorem runFlush_kept {d0 d : Dev} (h : Kept d0 d) (c : Cfg) (p : LPort) (r : RingNo) (x : Run) : Kept d0 (runFlush c d p r x) := by
  unfold runFlush
  try dsimp only
  repeat' first
    | with_reducible assumption
    | with_reducible apply checkError_kept
    | with_reducible apply clearSpool_kept
    | with_reducible apply clearWords_kept
    | refine draw_pair ?_ (by with_reducible assumption)
    | with_reducible apply draw_kept
    | with_reducible apply finishRun_kept
    | with_reducible apply meetBad_kept
    | with_reducible apply outPiece_kept
    | with_reducible apply outWrite_kept
    | with_reducible refine modRun_kept ?_ _ _ _
    | with_reducible refine each_kept ?_ _ ?_
    | (intro _ _ _)
    | with_reducible refine ite_kept ?_ ?_

theorem stepPegOp_kept {d0 d : Dev} (h : Kept d0 d) (c : Cfg) (p : LPort) (r : RingNo) (pop : Nat) : Kept d0 (stepPegOp c d p r pop) := by
  unfold stepPegOp
  try dsimp only
  repeat' first
    | with_reducible assumption
    | with_reducible apply pegEntry_kept
    | with_reducible apply pegFinish_kept
    | with_reducible refine ite_kept ?_ ?_
    | (intro _ _ _)
    | split

theorem pegRow_kept {d0 d : Dev} (h : Kept d0 d) (c : Cfg) (p : LPort) (r : RingNo) (pop : Nat) : Kept d0 (pegRow c d p r pop) := by
  unfold pegRow
  try dsimp only
  repeat' first
    | with_reducible assumption
    | with_reducible apply epilogue_kept
    | with_reducible apply admitWhen_kept
    | with_reducible apply stepPegOp_kept
    | with_reducible refine ite_kept ?_ ?_
    | (intro _ _ _)

theorem runBarrier_kept {d0 d : Dev} (h : Kept d0 d) (c : Cfg) (p : LPort) (r : RingNo) (x : Run) : Kept d0 (runBarrier c d p r x) := by
  unfold runBarrier
  try dsimp only
  repeat' first
    | with_reducible assumption
    | with_reducible apply endWith_kept
    | with_reducible apply noteLine_kept
    | with_reducible apply placeBarrier_kept
    | with_reducible refine modRun_kept ?_ _ _ _
    | with_reducible refine ite_kept ?_ ?_
    | (intro _ _ _)
    | split

theorem pumpTenant_kept {d0 d : Dev} (h : Kept d0 d) (c : Cfg) (t : Tenant) : Kept d0 (pumpTenant c d t) := by
  unfold pumpTenant
  try dsimp only
  repeat' first
    | with_reducible assumption
    | with_reducible apply pumpInst_kept
    | with_reducible refine each_kept ?_ _ ?_
    | (intro _ _ _)

theorem pressStage_kept {d0 d : Dev} (h : Kept d0 d) (c : Cfg) (t : Tenant) (coll : W16) : Kept d0 (pressStage c d t coll) := by
  unfold pressStage
  try dsimp only
  repeat' first
    | with_reducible assumption
    | with_reducible apply modInst_kept
    | with_reducible apply pumpInst_kept
    | with_reducible refine ite_kept ?_ ?_
    | (intro _ _ _)
    | split

theorem sieveStage_kept {d0 d : Dev} (h : Kept d0 d) (c : Cfg) (t : Tenant) (coll : W16) : Kept d0 (sieveStage c d t coll) := by
  unfold sieveStage
  try dsimp only
  repeat' first
    | with_reducible assumption
    | with_reducible apply modInst_kept
    | with_reducible apply pumpInst_kept
    | with_reducible refine ite_kept ?_ ?_
    | (intro _ _ _)
    | split

theorem contribTimeout_kept {d0 d : Dev} (h : Kept d0 d) (t : Tenant) (coll : W16) : Kept d0 (contribTimeout d t coll) := by
  unfold contribTimeout
  try dsimp only
  repeat' first
    | with_reducible assumption
    | with_reducible apply bumpHealth_kept
    | with_reducible apply endInst_kept
    | with_reducible apply abortInst_kept
    | with_reducible refine ite_kept ?_ ?_
    | (intro _ _ _)
    | split

theorem pegMsg_kept {d0 d : Dev} (h : Kept d0 d) (c : Cfg) (i : TPort) (f : TrlFrame) (pmsg : Nat) : Kept d0 (pegMsg c d i f pmsg) := by
  unfold pegMsg
  try dsimp only
  repeat' first
    | with_reducible assumption
    | with_reducible apply pegFrame_kept
    | with_reducible apply epilogue_kept
    | with_reducible refine ite_kept ?_ ?_

theorem replyMsg_kept {d0 d : Dev} (h : Kept d0 d) (c : Cfg) (i : TPort) (f : TrlFrame) (rmsg : Nat) : Kept d0 (replyMsg c d i f rmsg) := by
  unfold replyMsg
  try dsimp only
  repeat' first
    | with_reducible assumption
    | with_reducible apply replyFrame_kept
    | with_reducible apply epilogue_kept
    | with_reducible refine ite_kept ?_ ?_

theorem barrierAlone_kept {d0 d : Dev} (h : Kept d0 d) (c : Cfg) (p : LPort) (r : RingNo) (a : Option Arrival) : Kept d0 (barrierAlone c d p r a) := by
  unfold barrierAlone
  try dsimp only
  repeat' first
    | with_reducible assumption
    | with_reducible apply bumpTenant_kept
    | with_reducible apply closeArrival_kept
    | with_reducible apply finishRuns_kept
    | with_reducible apply modArrival_kept
    | with_reducible apply placeHeld_kept
    | with_reducible apply sendCompleted_kept
    | with_reducible refine ite_kept ?_ ?_
    | (intro _ _ _)
    | split

theorem withdrawArrival_kept {d0 d : Dev} (h : Kept d0 d) (c : Cfg) (a : Arrival) : Kept d0 (withdrawArrival c d a) := by
  unfold withdrawArrival
  try dsimp only
  repeat' first
    | with_reducible assumption
    | with_reducible apply sendPeg_kept
    | with_reducible apply newReq_kept
    | refine newReq_pair ?_ (by with_reducible assumption)
    | with_reducible apply modArrival_kept
    | with_reducible apply endArrival_kept
    | with_reducible refine ite_kept ?_ ?_

theorem barrierTimeout_kept {d0 d : Dev} (h : Kept d0 d) (c : Cfg) (p : LPort) (r : RingNo) : Kept d0 (barrierTimeout c d p r) := by
  unfold barrierTimeout
  try dsimp only
  repeat' first
    | with_reducible assumption
    | with_reducible apply bumpHealth_kept
    | with_reducible apply barrierAlone_kept
    | with_reducible apply withdrawArrival_kept
    | with_reducible refine ite_kept ?_ ?_
    | (intro _ _ _)
    | split

theorem completeLine_kept {d0 d : Dev} (h : Kept d0 d) (c : Cfg) : Kept d0 (completeLine c d) := by
  unfold completeLine
  try dsimp only
  repeat' first
    | with_reducible assumption
    | with_reducible apply dropArrival_kept
    | with_reducible apply finishRuns_kept
    | with_reducible apply placeHeld_kept
    | with_reducible refine ite_kept ?_ ?_
    | (intro _ _ _)
    | split
    | refine misc_kept ?_ _ _ _ _ _ rfl

theorem lineTimeout_kept {d0 d : Dev} (h : Kept d0 d) (c : Cfg) : Kept d0 (lineTimeout c d) := by
  unfold lineTimeout
  try dsimp only
  repeat' first
    | with_reducible assumption
    | with_reducible apply bumpHealth_kept
    | with_reducible apply enterFallback_kept
    | with_reducible apply sendPeg_kept
    | with_reducible refine each_kept ?_ _ ?_
    | (intro _ _ _)
    | with_reducible refine ite_kept ?_ ?_

theorem recNote_kept {d0 d : Dev} (h : Kept d0 d) (f : TrlFrame) : Kept d0 (recNote d f) := by
  unfold recNote
  try dsimp only
  repeat' first
    | with_reducible assumption
    | with_reducible apply modRec_kept

theorem recovRow_kept {d0 d : Dev} (h : Kept d0 d) (c : Cfg) (i : TPort) (f : TrlFrame) (rkind : Nat) (act : Dev → Dev) (ha : ∀ d, Kept d0 d → Kept d0 (act d)) : Kept d0 (recovRow c d i f rkind act) := by
  unfold recovRow
  try dsimp only
  repeat' first
    | with_reducible assumption
    | with_reducible apply ha
    | with_reducible apply floodOn_kept
    | with_reducible apply epilogue_kept
    | with_reducible apply recNote_kept
    | with_reducible refine ite_kept ?_ ?_

theorem drainComplete_kept {d0 d : Dev} (h : Kept d0 d) (c : Cfg)  : Kept d0 (drainComplete c d) := by
  unfold drainComplete
  try dsimp only
  repeat' first
    | with_reducible assumption
    | with_reducible apply flood_kept
    | with_reducible apply modRec_kept
    | with_reducible apply tryChange_kept
    | with_reducible refine ite_kept ?_ ?_

theorem changeDone_kept {d0 d : Dev} (h : Kept d0 d) (c : Cfg)  : Kept d0 (changeDone c d) := by
  unfold changeDone
  try dsimp only
  repeat' first
    | with_reducible assumption
    | with_reducible apply flood_kept
    | with_reducible apply tryEnd_kept
    | with_reducible apply finishChange_kept
    | with_reducible refine each_kept ?_ _ ?_
    | with_reducible refine ite_kept ?_ ?_
    | (intro _ _ _)

theorem victim_kept {d0 d : Dev} (h : Kept d0 d) {α : Type} (l : List α) : Kept d0 (victim d l).2 := draw_kept h

theorem victim_pair {d0 d d' : Dev} (h : Kept d0 d) {α : Type} {q : Option α} {l : List α} (e : victim d l = (q, d')) : Kept d0 d' := by
  have := victim_kept h l
  rwa [e] at this

theorem faultDue_kept {d0 d : Dev} (h : Kept d0 d) (cls port : Nat) : Kept d0 (faultDue d cls port) := by
  unfold faultDue
  try dsimp only
  repeat' first
    | with_reducible assumption
    | with_reducible apply modRec_kept

theorem hitRun_kept {d0 d : Dev} (h : Kept d0 d) (e : LPort × RingNo) : Kept d0 (hitRun d e) := by
  unfold hitRun
  try dsimp only
  repeat' first
    | with_reducible assumption
    | with_reducible refine modRun_kept ?_ _ _ _

theorem hitInst_kept {d0 d : Dev} (h : Kept d0 d) (x : Inst) : Kept d0 (hitInst d x) := by
  unfold hitInst
  try dsimp only
  repeat' first
    | with_reducible assumption
    | with_reducible apply hitRun_kept
    | with_reducible apply modInst_kept
    | with_reducible refine each_kept ?_ _ ?_
    | (intro _ _ _)

theorem spoolError_kept {d0 d : Dev} (h : Kept d0 d) (c : Cfg) (addr : Nat) : Kept d0 (spoolError c d addr) := by
  unfold spoolError
  try dsimp only
  repeat' first
    | with_reducible assumption
    | with_reducible apply faultDue_kept
    | with_reducible apply hitInst_kept
    | with_reducible apply hitRun_kept
    | with_reducible apply meetBad_kept
    | refine victim_pair ?_ (by with_reducible assumption)
    | with_reducible apply victim_kept
    | with_reducible refine modStore_kept ?_ ?_ ?_
    | exact fun _ m => m
    | with_reducible refine each_kept ?_ _ ?_
    | (intro _ _ _)
    | with_reducible refine ite_kept ?_ ?_

theorem oneOf_kept {d0 d : Dev} (h : Kept d0 d) {α : Type} (l : List α) : Kept d0 (oneOf d l).2 := by
  unfold oneOf
  try dsimp only
  repeat' first
    | with_reducible assumption
    | refine draw_pair ?_ (by with_reducible assumption)
    | with_reducible apply draw_kept

theorem oneOf_pair {d0 d d' : Dev} (h : Kept d0 d) {α : Type} {q : Option α} (l : List α) (e : oneOf d l = (q, d')) : Kept d0 d' := by
  have := oneOf_kept h l
  rwa [e] at this

theorem yardError_kept {d0 d : Dev} (h : Kept d0 d) (c : Cfg) (addr : Nat) : Kept d0 (yardError c d addr) := by
  unfold yardError
  try dsimp only
  repeat' first
    | with_reducible assumption
    | with_reducible apply bumpHealth_kept
    | with_reducible apply dropBadBlocks_kept
    | with_reducible apply faultDue_kept
    | with_reducible apply hitInst_kept
    | refine oneOf_pair ?_ (by with_reducible assumption)
    | with_reducible apply oneOf_kept
    | refine victim_pair ?_ (by with_reducible assumption)
    | with_reducible apply victim_kept
    | with_reducible refine each_kept ?_ _ ?_
    | (intro _ _ _)
    | with_reducible refine ite_kept ?_ ?_

theorem applyMark_kept {d0 d : Dev} (h : Kept d0 d) (c : Cfg) (p : LPort) (r : RingNo) (m : SigMark) : Kept d0 (applyMark c d p r m) := by
  unfold applyMark
  try dsimp only
  repeat' first
    | with_reducible assumption
    | refine poolOp_pair ?_ (by with_reducible assumption)
    | with_reducible apply poolOp_kept
    | with_reducible apply tallyExc_kept
    | with_reducible refine ite_kept ?_ ?_

theorem applyMarks_kept {d0 d : Dev} (h : Kept d0 d) (c : Cfg) (p : LPort) (n : Nat) : Kept d0 (applyMarks c p n d) := by
  induction n generalizing d with
  | zero => exact h
  | succ n ih =>
    unfold applyMarks
    try dsimp only
    repeat' first
      | with_reducible assumption
      | with_reducible apply ih
      | with_reducible apply applyMark_kept
      | with_reducible refine modP_kept ?_ _ ?_ ?_
      | exact fun _ => rfl
      | exact fun _ m => m
      | (intro _ _ _)
      | split

theorem countSent_kept {d0 d : Dev} (h : Kept d0 d) (i : TPort) (it : TrlItem) : Kept d0 (countSent d i it) := by
  unfold countSent
  try dsimp only
  repeat' first
    | with_reducible assumption
    | with_reducible apply modInst_kept
    | (intro _ _ _)
    | split

theorem leaveDown_kept {d0 d : Dev} (h : Kept d0 d) (c : Cfg) (p : LPort) (r : RingNo) : Kept d0 (leaveDown c d p r) := by
  unfold leaveDown
  try dsimp only
  repeat' first
    | with_reducible assumption
    | with_reducible apply dropHoldReq_kept
    | with_reducible apply leaveInst_kept
    | with_reducible apply paidStaging_kept
    | with_reducible apply releaseHold_kept
    | with_reducible refine ite_kept ?_ ?_
    | (intro _ _ _)
    | split

end Sys2Proof.Machine
end

