-- ==== Sys2Proof/Laws/Restart.lean ====
section
/-! SUPPORT. What flooding, drains, restarts and context changes leave, each said once. -/
namespace Sys2Proof.Machine
open Sys2Proof

/-- Giving slots changes the slots alone. -/
theorem giveSlots_keep (x : TrlPort) : ∃ l, giveSlots x = { x with slots := l } := ⟨_, rfl⟩

/-- What flooding on changes: each up port but the excepted one gets the frame at the end of its queue. -/
theorem floodOn_trl (d : Dev) (ex : Option TPort) (src : Nat) (pl : List Byte) :
    (∀ j : TPort, (floodOn d ex src pl).trl[j] = if trlUp d j = true ∧ ex ≠ some j then giveSlots { d.trl[j] with
      txq := d.trl[j].txq ++ [{ owner := .recovery, source := 7, frame := mkTrl 7 7 0 src (facing d.sow.dims (ownAddr d) j.val) pl }] } else d.trl[j]) ∧
    floodOn d ex src pl = { d with trl := (floodOn d ex src pl).trl } := by
  have hf : floodOn d ex src pl = each allTrl d fun e j => if (trlUp d j && ex != some j) = true then
      pushTrl e j .recovery 7 (mkTrl 7 7 0 src (facing d.sow.dims (ownAddr d) j.val) pl) else e := by
    unfold floodOn
    refine each_congr allTrl (fun e => (∀ j : TPort, trlUp e j = trlUp d j) ∧ e.sow = d.sow) ?_ ?_ d ⟨fun _ => rfl, rfl⟩
    · intro e x h
      refine ⟨fun j => ?_, ?_⟩
      · split
        · refine Eq.trans ?_ (h.1 j)
          unfold trlUp pushTrl
          by_cases hj : j = x
          · subst hj; rw [modT_at]; rfl
          · rw [modT_other _ _ hj]
        · exact h.1 _
      · split <;> exact h.2
    · intro e x h
      have h1 : trlUp e x = trlUp d x := h.1 x
      have h2 : ownAddr e = ownAddr d := by unfold ownAddr; rw [h.2]
      rw [h1, h2, h.2]
  unfold pushTrl at hf
  have h1 := each_modT allTrl allTrl_nodup d (fun j => trlUp d j && ex != some j) (fun j x => giveSlots { x with
      txq := x.txq ++ [{ owner := .recovery, source := 7, frame := mkTrl 7 7 0 src (facing d.sow.dims (ownAddr d) j.val) pl }] })
  have h2 := each_modT_rest allTrl d (fun j => trlUp d j && ex != some j) (fun j x => giveSlots { x with
      txq := x.txq ++ [{ owner := .recovery, source := 7, frame := mkTrl 7 7 0 src (facing d.sow.dims (ownAddr d) j.val) pl }] })
  rw [hf]
  refine ⟨fun j => ?_, by obtain ⟨v, hv⟩ := h2; rw [hv]⟩
  rw [h1 j]
  simp [mem_allTrl]

theorem vset_other {α : Type} (w : Vector α 4) {t u : Tenant} (h : u ≠ t) (a : α) : (w.set t a)[u] = w[u] := by
  simp only [Fin.getElem_fin, Vector.getElem_set]
  rw [if_neg (fun g => h (Fin.ext g.symm))]

theorem ringAt_modR (d : Dev) (p q : LPort) (r z : RingNo) (f : Ring → Ring) : ringAt (modR d p r f) q z = if q = p ∧ z = r then f (ringAt d q z) else ringAt d q z := by
  by_cases hq : q = p
  · subst hq
    by_cases hz : z = r
    · subst hz; rw [modR_at, if_pos ⟨rfl, rfl⟩]
    · rw [modR_ring _ _ _ hz, if_neg (fun h => hz h.2)]
  · rw [modR_port _ _ _ _ hq, if_neg (fun h => hq h.1)]

/-- A ring that has been drained (R629 steps 2 and 3). -/
def drainedRing (x : Ring) : Ring := { x with
  cur := x.cur.map fun y => { y with status := if y.metFault then y.status else 0x23, finished := true, waitReq := none, spoolPending := false }
  queue := [], head := none, slotData := [], waiting := false, refetches := 0, refetchPending := false
  st := if x.st = .running ∨ x.st = .fenced then .stalled else x.st
  fenceOpen := false, adopting := none, nudged := false, hdrData := none, retry := [], hdrDeferred := false }

theorem ringAt_discard (d : Dev) (p q : LPort) (r z : RingNo) : ringAt (discardFetched d p r) q z =
    if q = p ∧ z = r then { (ringAt d q z) with queue := [], head := none, slotData := [], waiting := false, refetches := 0, refetchPending := false, retry := (ringAt d q z).retry.filter isHeader }
    else ringAt d q z := by
  unfold discardFetched
  rw [ringAt_modR, ringAt_dropReads]

theorem ringAt_modRun (d : Dev) (p q : LPort) (r z : RingNo) (f : Run → Run) : ringAt (modRun d p r f) q z =
    if q = p ∧ z = r then { (ringAt d q z) with cur := (ringAt d q z).cur.map f } else ringAt d q z := ringAt_modR d p q r z _

theorem ringAt_faultEnd (d : Dev) (p q : LPort) (r z : RingNo) (st : Byte) : ringAt (faultEnd d (p, r) st) q z =
    if q = p ∧ z = r then { (ringAt d q z) with cur := (ringAt d q z).cur.map fun y => { y with status := if y.metFault then y.status else st, finished := true, waitReq := none } }
    else ringAt d q z := by
  unfold faultEnd
  rw [ringAt_modRun]
  have h : ringAt (cutRun d (p, r)) q z = ringAt d q z := ringAt_modP d p q z (fun x => { x with txq := cutOutputs r x.txq }) fun _ => rfl
  rw [h]

theorem drainRing_ring (d : Dev) (p q : LPort) (r z : RingNo) : ringAt (drainRing d p r) q z = if q = p ∧ z = r then drainedRing (ringAt d q z) else ringAt d q z := by
  unfold drainRing
  dsimp only
  rw [ringAt_modR, ringAt_modRun, ringAt_discard, ringAt_dropReads, ringAt_faultEnd]
  by_cases h : q = p ∧ z = r
  · simp only [if_pos h]
    unfold drainedRing
    simp only [Option.map_map]
    rfl
  · simp only [if_neg h]

theorem drainRing_keep (d : Dev) (p : LPort) (r : RingNo) : ∃ v, drainRing d p r = { d with lem := v } := ⟨_, rfl⟩

theorem rings_fold (p : LPort) (l : List RingNo) (hn : l.Nodup) (d : Dev) (q : LPort) (z : RingNo) :
    ringAt (each l d fun d r => drainRing d p r) q z = if q = p ∧ z ∈ l then drainedRing (ringAt d q z) else ringAt d q z := by
  induction l generalizing d with
  | nil => simp [each_nil]
  | cons r l ih =>
    rw [each_cons, ih (List.nodup_cons.1 hn).2, drainRing_ring]
    by_cases hq : q = p
    · by_cases hz : z = r
      · subst hz
        have : z ∉ l := (List.nodup_cons.1 hn).1
        simp [hq, this]
      · simp [hq, hz]
    · simp [hq]

theorem ports_fold (l : List LPort) (hn : l.Nodup) (d : Dev) (q : LPort) (z : RingNo) :
    ringAt (each l d fun d p => each allRings d fun d r => drainRing d p r) q z = if q ∈ l then drainedRing (ringAt d q z) else ringAt d q z := by
  induction l generalizing d with
  | nil => simp [each_nil]
  | cons p l ih =>
    rw [each_cons, ih (List.nodup_cons.1 hn).2, rings_fold _ _ allRings_nodup]
    by_cases hq : q = p
    · subst hq
      have : q ∉ l := (List.nodup_cons.1 hn).1
      simp [this, mem_allRings]
    · simp [hq]

theorem lemOnly_fold (l : List LPort) (d : Dev) : ∃ v, (each l d fun d p => each allRings d fun d r => drainRing d p r) = { d with lem := v } := by
  have h2 : ∀ (a b c : Dev), (∃ v, b = { a with lem := v }) → (∃ v, c = { b with lem := v }) → ∃ v, c = { a with lem := v } := by
    rintro a b c ⟨v, rfl⟩ ⟨w, rfl⟩; exact ⟨w, rfl⟩
  exact each_rel (fun d e : Dev => ∃ v, e = { d with lem := v }) (fun d => ⟨d.lem, rfl⟩) h2 l _
    (fun d p => each_rel (fun d e : Dev => ∃ v, e = { d with lem := v }) (fun d => ⟨d.lem, rfl⟩) h2 allRings _ (fun d r => drainRing_keep d p r) d) d

/-- Closing every instance of a tenant. -/
structure Closed (t : Tenant) (d e : Dev) : Prop where
  lem : e.lem = d.lem
  recov : e.recov = d.recov
  pegs : e.pegs = d.pegs
  spool : e.store.spool = d.store.spool
  held : ∀ u : Tenant, u ≠ t → e.store.held[u] = d.store.held[u]
  staged : ∀ u : Tenant, u ≠ t → e.store.staged[u] = d.store.staged[u]
  insts : ∀ x, x ∈ e.coll.insts → x ∈ d.coll.insts
  other : ∀ x, x.tenant ≠ t → x ∈ d.coll.insts → x ∈ e.coll.insts

theorem Closed.refl (t : Tenant) (d : Dev) : Closed t d d := ⟨rfl, rfl, rfl, rfl, fun _ _ => rfl, fun _ _ => rfl, fun _ h => h, fun _ _ h => h⟩
theorem Closed.trans {t : Tenant} {a b c : Dev} (h : Closed t a b) (g : Closed t b c) : Closed t a c :=
  ⟨g.lem.trans h.lem, g.recov.trans h.recov, g.pegs.trans h.pegs, g.spool.trans h.spool, fun u hu => (g.held u hu).trans (h.held u hu), fun u hu => (g.staged u hu).trans (h.staged u hu),
    fun x hx => h.insts x (g.insts x hx), fun x hx hm => g.other x hx (h.other x hx hm)⟩

/-- A change of the storage that keeps the Spool and the other tenants' reservations. -/
theorem Closed.ofStore {t : Tenant} {d : Dev} (s : Store) (spool : s.spool = d.store.spool) (held : ∀ u : Tenant, u ≠ t → s.held[u] = d.store.held[u])
    (staged : ∀ u : Tenant, u ≠ t → s.staged[u] = d.store.staged[u]) : Closed t d { d with store := s } :=
  { Closed.refl t d with spool, held, staged }

/-- Letting go of staging concerns one tenant's space alone. -/
theorem releaseStaging_only (d : Dev) (x : Inst) : Closed x.tenant d (releaseStaging d x) := by
  unfold releaseStaging
  dsimp only
  split
  · exact .ofStore _ rfl (fun _ _ => rfl) fun u hu => vset_other _ hu _
  · exact .ofStore _ rfl (fun _ _ => rfl) fun _ _ => rfl

theorem endStore_only (d : Dev) (x : Inst) : Closed x.tenant d (endStore d x) := by
  unfold endStore
  dsimp only
  have hset : ∀ (e : Dev) (n : Nat), Closed x.tenant e (modStore e fun s => { s with held := s.held.set x.tenant n }) := fun e n =>
    .ofStore _ rfl (fun u hu => vset_other _ hu _) fun _ _ => rfl
  have howe : ∀ (e : Dev) (f : List (Tenant × Nat × List Nat)), Closed x.tenant e (modStore e fun s => { s with owed := f }) := fun e f =>
    .ofStore _ rfl (fun _ _ => rfl) fun _ _ => rfl
  split
  · exact (releaseStaging_only d x).trans (hset _ _)
  · exact ((releaseStaging_only d { x with stageStripes := 0 }).trans (howe _ _)).trans (hset _ _)

theorem purge_only (d : Dev) (t : Tenant) (k : W16) : ∃ v, purgeFrames d t k = { d with trl := v } :=
  each_rel (fun d e : Dev => ∃ v, e = { d with trl := v }) (fun d => ⟨d.trl, rfl⟩) (fun a b c h g => by
    obtain ⟨v, rfl⟩ := h; obtain ⟨w, rfl⟩ := g; exact ⟨w, rfl⟩) allTrl _ (fun d i => ⟨_, rfl⟩) d

theorem closeOne (d : Dev) (t : Tenant) (k : W16) : Closed t d (closeInst (purgeFrames d t k) t k) ∧ ∀ x ∈ (closeInst (purgeFrames d t k) t k).coll.insts, ¬(x.tenant = t ∧ x.coll = k) := by
  obtain ⟨v, hv⟩ := purge_only d t k
  rw [hv]
  have hnone := closeInst_none { d with trl := v } t k
  constructor
  · unfold closeInst
    cases hi : instAt { d with trl := v } t k with
    | none => exact { Closed.refl t d with }
    | some x =>
      have hx := (instAt_key hi).1
      have hs := endStore_only { d with trl := v } x
      rw [hx] at hs
      dsimp only
      refine ⟨hs.lem, hs.recov, hs.pegs, hs.spool, hs.held, hs.staged, fun y hy => ?_, fun y hy hm => ?_⟩
      · exact hs.insts y (List.mem_of_mem_filter hy)
      · exact List.mem_filter.2 ⟨hs.other y hy hm, by simp [hy]⟩
  · intro x hx h
    unfold instAt at hnone
    have := List.find?_eq_none.1 hnone x hx
    simp [h] at this

theorem closeAll (t : Tenant) (l : List Inst) (d : Dev) :
    Closed t d (each l d fun d x => closeInst (purgeFrames d t x.coll) t x.coll) ∧
    ∀ x ∈ (each l d fun d x => closeInst (purgeFrames d t x.coll) t x.coll).coll.insts, x.tenant = t → ∀ y ∈ l, y.coll ≠ x.coll := by
  induction l generalizing d with
  | nil => exact ⟨Closed.refl t d, fun x _ _ y hy => by cases hy⟩
  | cons y l ih =>
    rw [each_cons]
    have h1 := closeOne d t y.coll
    have h2 := ih (closeInst (purgeFrames d t y.coll) t y.coll)
    refine ⟨h1.1.trans h2.1, ?_⟩
    intro x hx ht w hw
    rcases List.mem_cons.1 hw with h | h
    · subst h
      intro he
      exact h1.2 x (h2.1.insts x hx) ⟨ht, he.symm⟩
    · exact h2.2 x hx ht w h

theorem vset {α : Type} (w : Vector α 4) (t u : Tenant) (a : α) : (w.set t a)[u] = if u = t then a else w[u] := by
  by_cases h : u = t
  · subst h; simp
  · rw [if_neg h]
    simp only [Fin.getElem_fin, Vector.getElem_set]
    rw [if_neg (fun g => h (Fin.ext g.symm))]

theorem allTenants_nodup : allTenants.Nodup := by decide
theorem mem_allTenants (t : Tenant) : t ∈ allTenants := by revert t; decide

theorem flood_eq (d : Dev) (a b c e g : Nat) (body : List Byte) : ∃ v, flood d a b c e g body = { d with recov := { d.recov with serial := d.recov.serial + 1 }, trl := v } := by
  unfold flood
  dsimp only
  obtain ⟨v, h⟩ := floodOn_only { d with recov := { d.recov with serial := d.recov.serial + 1 } } none (ownAddr d) (recPayload a (d.recov.serial + 1).toNat b c e g body)
  have e2 : ownAddr { d with recov := { d.recov with serial := d.recov.serial + 1 } } = ownAddr d := rfl
  first
    | rw [h]
    | rw [e2, h]
  exact ⟨v, rfl⟩

theorem startChange_recov (c : Cfg) (d : Dev) (t : Tenant) : (startChange c d t).recov = { d.recov with restart := d.recov.restart.set t .changing } ∧ (startChange c d t).sow = d.sow := by
  unfold startChange
  dsimp only
  split <;> exact ⟨rfl, rfl⟩

theorem change_fold (c : Cfg) (late : Bool) (u : Tenant) (l : List Tenant) (hn : l.Nodup) (d : Dev) :
    (each l d fun d t => if d.recov.restart[t] = .drained ∧ (late ∨ (surviving d).all fun v => d.recov.drained.contains (t, v)) then startChange c d t else d).recov.restart[u] =
      if u ∈ l ∧ d.recov.restart[u] = .drained ∧ (late = true ∨ ∀ v ∈ surviving d, (u, v) ∈ d.recov.drained) then .changing else d.recov.restart[u] := by
  induction l generalizing d with
  | nil => simp [each_nil]
  | cons t l ih =>
    rw [each_cons, ih (List.nodup_cons.1 hn).2]
    have hcond : ((late = true ∨ ((surviving d).all fun v => d.recov.drained.contains (t, v)) = true)) ↔ (late = true ∨ ∀ v ∈ surviving d, (t, v) ∈ d.recov.drained) := by
      rw [List.all_eq_true]
      simp
    generalize hX : (if d.recov.restart[t] = .drained ∧ (late = true ∨ ((surviving d).all fun v => d.recov.drained.contains (t, v)) = true) then startChange c d t else d) = X
    have hr : X.recov.restart[u] = (if u = t ∧ d.recov.restart[t] = .drained ∧ (late = true ∨ ∀ v ∈ surviving d, (t, v) ∈ d.recov.drained) then .changing else d.recov.restart[u]) ∧
        surviving X = surviving d ∧ X.recov.drained = d.recov.drained := by
      rw [← hX]
      by_cases h : d.recov.restart[t] = .drained ∧ (late = true ∨ ∀ v ∈ surviving d, (t, v) ∈ d.recov.drained)
      · rw [if_pos ⟨h.1, hcond.2 h.2⟩]
        obtain ⟨s1, s2⟩ := startChange_recov c d t
        refine ⟨?_, ?_, ?_⟩
        · rw [s1]
          refine (vset _ t u _).trans ?_
          by_cases hu : u = t
          · rw [if_pos hu, if_pos ⟨hu, h⟩]
          · rw [if_neg hu, if_neg (fun g => hu g.1)]
        · unfold surviving ownAddr; rw [s1, s2]
        · rw [s1]
      · rw [if_neg (fun g => h ⟨g.1, hcond.1 g.2⟩), if_neg (fun g => h g.2)]
        exact ⟨rfl, rfl, rfl⟩
    rw [hr.1, hr.2.1, hr.2.2]
    by_cases hu : u = t
    · subst hu
      have hnl : u ∉ l := (List.nodup_cons.1 hn).1
      rw [if_neg (fun g => hnl g.1)]
      simp
    · simp [hu]

theorem end_fold (late : Bool) (u : Tenant) (l : List Tenant) (hn : l.Nodup) (d : Dev) :
    (each l d fun d t => if d.recov.restart[t] = .cleaning ∧ (late ∨ (surviving d).all fun v => d.recov.cleaned.contains (t, v)) then endRestart d t else d).recov.restart[u] =
      if u ∈ l ∧ d.recov.restart[u] = .cleaning ∧ (late = true ∨ ∀ v ∈ surviving d, (u, v) ∈ d.recov.cleaned) then .none else d.recov.restart[u] := by
  induction l generalizing d with
  | nil => simp [each_nil]
  | cons t l ih =>
    rw [each_cons, ih (List.nodup_cons.1 hn).2]
    have hcond : ((late = true ∨ ((surviving d).all fun v => d.recov.cleaned.contains (t, v)) = true)) ↔ (late = true ∨ ∀ v ∈ surviving d, (t, v) ∈ d.recov.cleaned) := by
      rw [List.all_eq_true]
      simp
    generalize hX : (if d.recov.restart[t] = .cleaning ∧ (late = true ∨ ((surviving d).all fun v => d.recov.cleaned.contains (t, v)) = true) then endRestart d t else d) = X
    have hr : X.recov.restart[u] = (if u = t ∧ d.recov.restart[t] = .cleaning ∧ (late = true ∨ ∀ v ∈ surviving d, (t, v) ∈ d.recov.cleaned) then .none else d.recov.restart[u]) ∧
        surviving X = surviving d ∧ (u ≠ t → ∀ v, (u, v) ∈ X.recov.cleaned ↔ (u, v) ∈ d.recov.cleaned) := by
      rw [← hX]
      by_cases h : d.recov.restart[t] = .cleaning ∧ (late = true ∨ ∀ v ∈ surviving d, (t, v) ∈ d.recov.cleaned)
      · rw [if_pos ⟨h.1, hcond.2 h.2⟩]
        refine ⟨?_, rfl, ?_⟩
        · refine (vset _ t u _).trans ?_
          by_cases hu : u = t
          · rw [if_pos hu, if_pos ⟨hu, h⟩]
          · rw [if_neg hu, if_neg (fun g => hu g.1)]
        · intro hu v
          show (u, v) ∈ d.recov.cleaned.filter (fun e => e.1 != t) ↔ _
          rw [List.mem_filter]
          simp [hu]
      · rw [if_neg (fun g => h ⟨g.1, hcond.1 g.2⟩), if_neg (fun g => h g.2)]
        exact ⟨rfl, rfl, fun _ _ => Iff.rfl⟩
    rw [hr.1, hr.2.1]
    by_cases hu : u = t
    · subst hu
      have hnl : u ∉ l := (List.nodup_cons.1 hn).1
      rw [if_neg (fun g => hnl g.1)]
      simp
    · simp [hu, hr.2.2 hu]

theorem foldl_set (a : RestartSt) (u : Tenant) (l : List Tenant) (w : Vector RestartSt 4) : (l.foldl (fun v (t : Tenant) => v.set t a) w)[u] = if u ∈ l then a else w[u] := by
  induction l generalizing w with
  | nil => simp
  | cons t l ih =>
    rw [List.foldl_cons, ih, vset]
    by_cases h : u ∈ l <;> by_cases g : u = t <;> simp [h, g]

/-- Meeting bad words changes only counts, causes and what is known to be bad. -/
theorem meetBad_keep (d : Dev) (ws : List Nat) : (meetBad d ws).recov = d.recov ∧ (meetBad d ws).pegs = d.pegs ∧ (meetBad d ws).sow = d.sow ∧ ∀ p : LPort, (meetBad d ws).lem[p].pocket = d.lem[p].pocket := by
  refine each_rel (fun d e : Dev => e.recov = d.recov ∧ e.pegs = d.pegs ∧ e.sow = d.sow ∧ ∀ p : LPort, e.lem[p].pocket = d.lem[p].pocket) (fun d => ⟨rfl, rfl, rfl, fun _ => rfl⟩)
    (fun a b c h g => ⟨g.1.trans h.1, g.2.1.trans h.2.1, g.2.2.1.trans h.2.2.1, fun p => (g.2.2.2 p).trans (h.2.2.2 p)⟩) ws _ (fun d w => ?_) d
  obtain ⟨m, hc⟩ := bumpHealthN_eq d 1 1
  exact ⟨(congrArg Dev.recov hc.1).trans rfl, (congrArg Dev.pegs hc.1).trans rfl, (congrArg Dev.sow hc.1).trans rfl, fun p => (congrArg LemPort.pocket (hc.2 p)).trans rfl⟩

theorem restorePeg_keep (d : Dev) (pool : Sparse 16) (k : Nat) : (restorePeg d pool k).recov = d.recov ∧ (restorePeg d pool k).sow = d.sow ∧ (∀ p : LPort, (restorePeg d pool k).lem[p].pocket = d.lem[p].pocket) ∧
    ∀ j, j ≠ k → poolPeg (restorePeg d pool k) j = poolPeg d j := by
  unfold restorePeg
  split
  · exact ⟨rfl, rfl, fun _ => rfl, fun j hj => spRead_write_other hj _ _⟩
  · have h := meetBad_keep d [savedAt k]
    exact ⟨h.1, h.2.2.1, h.2.2.2, fun j _ => by unfold poolPeg; rw [h.2.1]⟩

/-- Where the saved words are good, every kept peg reads as it was saved. -/
theorem restores (pool : Sparse 16) (l : List Nat) (d : Dev) :
    (each l d fun d k => restorePeg d pool k).recov = d.recov ∧ (each l d fun d k => restorePeg d pool k).sow = d.sow ∧ (∀ p : LPort, (each l d fun d k => restorePeg d pool k).lem[p].pocket = d.lem[p].pocket) ∧
    (∀ j, j ∉ l → poolPeg (each l d fun d k => restorePeg d pool k) j = poolPeg d j) ∧
    (spWf d.pegs.pool = true → (∀ j ∈ l, wordGood d (savedAt j) = true) → ∀ k ∈ l, poolPeg (each l d fun d k => restorePeg d pool k) k = spRead pool k) := by
  induction l generalizing d with
  | nil => exact ⟨rfl, rfl, fun _ => rfl, fun _ _ => rfl, fun _ _ k hk => by cases hk⟩
  | cons a l ih =>
    rw [each_cons]
    obtain ⟨h1, h2, h3, h4⟩ := restorePeg_keep d pool a
    obtain ⟨i1, i2, i3, i4, i5⟩ := ih (restorePeg d pool a)
    refine ⟨i1.trans h1, i2.trans h2, fun p => (i3 p).trans (h3 p), ?_, ?_⟩
    · intro j hj
      rw [List.mem_cons, not_or] at hj
      rw [i4 j hj.2, h4 j hj.1]
    · intro hw hg k hk
      have hga := hg a List.mem_cons_self
      have hset : restorePeg d pool a = setPool d a (spRead pool a) := by unfold restorePeg; rw [if_pos hga]
      rw [hset] at i4 i5 ⊢
      by_cases hkl : k ∈ l
      · exact i5 (spWf_write _ _ hw) (fun j hj => hg j (List.mem_cons_of_mem _ hj)) k hkl
      · rcases List.mem_cons.1 hk with h | h
        · subst h
          rw [i4 k hkl]
          exact spRead_write_self (lo := 0) _ hw
        · exact absurd h hkl

/-- What a context change leaves, field by field. -/
theorem finish_facts (c : Cfg) (d : Dev) (t : Tenant) :
    (finishChange c d t).recov.restart = d.recov.restart.set t .cleaning ∧ (finishChange c d t).recov.pgen = d.recov.pgen.set t (d.recov.pgen[t] + 1) ∧
    (finishChange c d t).recov.cleaned = d.recov.cleaned ++ [(t, ownAddr d)] ∧ (finishChange c d t).sow = d.sow ∧
    (∃ P : Dev, P.pegs.pool = spClear d.pegs.pool (sliceOf c t).1 ((sliceOf c t).1 + (sliceOf c t).2) ∧ P.store = d.store ∧
      ∀ k, poolPeg (finishChange c d t) k = poolPeg (each ((keptPegs c d t).filter (pegGood d)) P fun d' k => restorePeg d' d.pegs.pool k) k) ∧
    ∀ p : LPort, (finishChange c d t).lem[p].pocket = if p ∈ portsOf c t then [] else d.lem[p].pocket := by
  have key : ∀ (P : Dev), (∃ v, P = { d with pegs := { d.pegs with pool := spClear d.pegs.pool (sliceOf c t).1 ((sliceOf c t).1 + (sliceOf c t).2), bad := d.pegs.bad.filter fun k => !(inSlice c t k) }, lem := v }) →
      ∀ R, R = each ((keptPegs c d t).filter (pegGood d)) P (fun d' k => restorePeg d' d.pegs.pool k) → ∀ Z, Z = bumpTenant c R t 4 →
      Z.recov = d.recov ∧ Z.sow = d.sow ∧ Z.pegs = R.pegs ∧ ∀ p : LPort, Z.lem[p].pocket = P.lem[p].pocket := by
    rintro P ⟨v, hv⟩ R hR Z hZ
    obtain ⟨r1, r2, r3, _, _⟩ := restores d.pegs.pool ((keptPegs c d t).filter (pegGood d)) P
    rw [← hR] at r1 r2 r3
    obtain ⟨m, hc⟩ := bumpTenant_eq c R t 4
    rw [← hZ] at hc
    refine ⟨?_, ?_, (congrArg Dev.pegs hc.1).trans rfl, fun p => ((congrArg LemPort.pocket (hc.2 p)).trans rfl).trans (r3 p)⟩
    · refine (congrArg Dev.recov hc.1).trans (r1.trans ?_)
      rw [hv]
    · refine (congrArg Dev.sow hc.1).trans (r2.trans ?_)
      rw [hv]
  have hF : ∃ P R Z, P = each (portsOf c t) { d with pegs := { d.pegs with pool := spClear d.pegs.pool (sliceOf c t).1 ((sliceOf c t).1 + (sliceOf c t).2), bad := d.pegs.bad.filter fun k => !(inSlice c t k) } } (fun e p => modP e p fun x => { x with pocket := [] }) ∧
      R = each ((keptPegs c d t).filter (pegGood d)) P (fun d' k => restorePeg d' d.pegs.pool k) ∧ Z = bumpTenant c R t 4 ∧
      finishChange c d t = modRec Z fun x => { x with
        restart := x.restart.set t .cleaning, pgen := x.pgen.set t (x.pgen[t] + 1), cleaned := x.cleaned ++ [(t, ownAddr Z)],
        windows := x.windows.filter fun w => !inSlice c t w } := ⟨_, _, _, rfl, rfl, rfl, rfl⟩
  obtain ⟨P, R, Z, hP, hR, hZ, hE⟩ := hF
  have hports : ∀ p : LPort, P.lem[p] = if p ∈ portsOf c t then { d.lem[p] with pocket := [] } else d.lem[p] := by
    intro p
    subst hP
    have := each_modP (portsOf c t) (List.Nodup.filter _ (by decide)) { d with pegs := { d.pegs with pool := spClear d.pegs.pool (sliceOf c t).1 ((sliceOf c t).1 + (sliceOf c t).2), bad := d.pegs.bad.filter fun k => !(inSlice c t k) } } (fun _ => true) (fun _ x => { x with pocket := [] }) p
    simpa using this
  have hrest : ∃ v, P = { d with pegs := { d.pegs with pool := spClear d.pegs.pool (sliceOf c t).1 ((sliceOf c t).1 + (sliceOf c t).2), bad := d.pegs.bad.filter fun k => !(inSlice c t k) }, lem := v } := by
    subst hP
    have := each_modP_rest (portsOf c t) { d with pegs := { d.pegs with pool := spClear d.pegs.pool (sliceOf c t).1 ((sliceOf c t).1 + (sliceOf c t).2), bad := d.pegs.bad.filter fun k => !(inSlice c t k) } } (fun _ => true) (fun _ x => { x with pocket := [] })
    simpa using this
  obtain ⟨v, hv⟩ := hrest
  obtain ⟨k1, k2, k3, k4⟩ := key P ⟨v, hv⟩ R hR Z hZ
  rw [hE]
  refine ⟨?_, ?_, ?_, ?_, ?_, ?_⟩
  · show Z.recov.restart.set _ _ = _
    rw [k1]
  · show Z.recov.pgen.set _ _ = _
    rw [k1]
  · show Z.recov.cleaned ++ [(t, ownAddr Z)] = _
    rw [k1]; unfold ownAddr; rw [k2]
  · exact k2
  · refine ⟨P, by rw [hv], by rw [hv], fun k => ?_⟩
    show spRead Z.pegs.pool k = _
    rw [k3, hR]; rfl
  · intro p
    show Z.lem[p].pocket = _
    rw [k4, hports p]
    split <;> rfl

end Sys2Proof.Machine
end

