-- ==== Sys2Proof/Laws/Shape.lean ====
section
/-! SUPPORT. The shapes of the commands: which ones change the device part alone, and only on a unit that runs, and which ones are private instructions of the debug port. -/
namespace Sys2Proof.Machine
open Sys2Proof

/-- The public instructions of the test access port (R661, R662). -/
def publicRow : Instr → Bool
  | .tapReset .. | .extest .. | .samplePreload .. | .idcode .. | .clamp .. | .highz .. | .bypass .. => true
  | _ => false

/-- The rows that change the device part alone, on a unit that runs. -/
def deviceRow (c : Instr) : Bool :=
  !(supplyRow c) && !(publicRow c) && !(privateRow c) && (match c with
   | .levelPinMeasurement .. | .portStart .. | .statusPageWrite .. => false
   | _ => true)

/-- Such a row is a change of the device part behind the gate. -/
theorem exec_device (c : Instr) (s : State) (h : deviceRow c = true) : ∃ f, exec c s = onDev s f := by
  cases c
  case vddIoRise => nomatch h
  case railsRisingEnd => nomatch h
  case vddIoFall => nomatch h
  case brownOut => nomatch h
  case clockLoss => nomatch h
  case resetAssert => nomatch h
  case resetRelease => nomatch h
  case housekeepingLock =>
    show ∃ f, execHousekeepingLock s = onDev s f
    unfold execHousekeepingLock
    exact ⟨_, rfl⟩
  case housekeepingLockFail =>
    show ∃ f, execHousekeepingLockFail s = onDev s f
    unfold execHousekeepingLockFail
    exact ⟨_, rfl⟩
  case levelPinMeasurement => nomatch h
  case islandLoopsLocked a =>
    show ∃ f, execIslandLoopsLocked a s = onDev s f
    unfold execIslandLoopsLocked
    exact ⟨_, rfl⟩
  case memoryInitialised a b c =>
    show ∃ f, execMemoryInitialised a b c s = onDev s f
    unfold execMemoryInitialised
    exact ⟨_, rfl⟩
  case readyAssert =>
    show ∃ f, execReadyAssert s = onDev s f
    unfold execReadyAssert
    exact ⟨_, rfl⟩
  case portStart => nomatch h
  case lemiusLinkUp a b =>
    show ∃ f, execLemiusLinkUp a b s = onDev s f
    unfold execLemiusLinkUp
    exact ⟨_, rfl⟩
  case lemiusTrainingTimeout a =>
    show ∃ f, execLemiusTrainingTimeout a s = onDev s f
    unfold execLemiusTrainingTimeout
    exact ⟨_, rfl⟩
  case lemiusFrameReceive a b c =>
    show ∃ f, execLemiusFrameReceive a b c s = onDev s f
    unfold execLemiusFrameReceive
    exact ⟨_, rfl⟩
  case lemiusReplayTimer a =>
    show ∃ f, execLemiusReplayTimer a s = onDev s f
    unfold execLemiusReplayTimer
    exact ⟨_, rfl⟩
  case hello a b =>
    show ∃ f, execHello a b s = onDev s f
    unfold execHello
    exact ⟨_, rfl⟩
  case nudge a b =>
    show ∃ f, execNudge a b s = onDev s f
    unfold execNudge
    exact ⟨_, rfl⟩
  case leafLinkDownFrame a b =>
    show ∃ f, execLeafLinkDownFrame a b s = onDev s f
    unfold execLeafLinkDownFrame
    exact ⟨_, rfl⟩
  case lane0ElectricalIdle a =>
    show ∃ f, execLane0ElectricalIdle a s = onDev s f
    unfold execLane0ElectricalIdle
    exact ⟨_, rfl⟩
  case readCpl a b =>
    show ∃ f, execReadCpl a b s = onDev s f
    unfold execReadCpl
    exact ⟨_, rfl⟩
  case readTimeout a b =>
    show ∃ f, execReadTimeout a b s = onDev s f
    unfold execReadTimeout
    exact ⟨_, rfl⟩
  case tagRetireEnd a b =>
    show ∃ f, execTagRetireEnd a b s = onDev s f
    unfold execTagRetireEnd
    exact ⟨_, rfl⟩
  case headerRead a b =>
    show ∃ f, execHeaderRead a b s = onDev s f
    unfold execHeaderRead
    exact ⟨_, rfl⟩
  case descriptorFetch a b =>
    show ∃ f, execDescriptorFetch a b s = onDev s f
    unfold execDescriptorFetch
    exact ⟨_, rfl⟩
  case pollTimer a b =>
    show ∃ f, execPollTimer a b s = onDev s f
    unfold execPollTimer
    exact ⟨_, rfl⟩
  case refetchTimer a b =>
    show ∃ f, execRefetchTimer a b s = onDev s f
    unfold execRefetchTimer
    exact ⟨_, rfl⟩
  case readRetryTimer a b =>
    show ∃ f, execReadRetryTimer a b s = onDev s f
    unfold execReadRetryTimer
    exact ⟨_, rfl⟩
  case dependencySatisfied a b c =>
    show ∃ f, execDependencySatisfied a b c s = onDev s f
    unfold execDependencySatisfied
    exact ⟨_, rfl⟩
  case waitTimeoutExpiry a b =>
    show ∃ f, execWaitTimeoutExpiry a b s = onDev s f
    unfold execWaitTimeoutExpiry
    exact ⟨_, rfl⟩
  case nop a b =>
    show ∃ f, execNop a b s = onDev s f
    unfold execNop
    exact ⟨_, rfl⟩
  case broadcast a b =>
    show ∃ f, execBroadcast a b s = onDev s f
    unfold execBroadcast
    exact ⟨_, rfl⟩
  case reduceToOne a b =>
    show ∃ f, execReduceToOne a b s = onDev s f
    unfold execReduceToOne
    exact ⟨_, rfl⟩
  case allReduce a b =>
    show ∃ f, execAllReduce a b s = onDev s f
    unfold execAllReduce
    exact ⟨_, rfl⟩
  case reduceScatter a b =>
    show ∃ f, execReduceScatter a b s = onDev s f
    unfold execReduceScatter
    exact ⟨_, rfl⟩
  case allGather a b =>
    show ∃ f, execAllGather a b s = onDev s f
    unfold execAllGather
    exact ⟨_, rfl⟩
  case exchangeEqualSizes a b =>
    show ∃ f, execExchangeEqualSizes a b s = onDev s f
    unfold execExchangeEqualSizes
    exact ⟨_, rfl⟩
  case exchangeUnequalSizes a b =>
    show ∃ f, execExchangeUnequalSizes a b s = onDev s f
    unfold execExchangeUnequalSizes
    exact ⟨_, rfl⟩
  case yardLoad a b =>
    show ∃ f, execYardLoad a b s = onDev s f
    unfold execYardLoad
    exact ⟨_, rfl⟩
  case yardBlockRegister a b =>
    show ∃ f, execYardBlockRegister a b s = onDev s f
    unfold execYardBlockRegister
    exact ⟨_, rfl⟩
  case residentAccum a b =>
    show ∃ f, execResidentAccum a b s = onDev s f
    unfold execResidentAccum
    exact ⟨_, rfl⟩
  case residentFlush a b =>
    show ∃ f, execResidentFlush a b s = onDev s f
    unfold execResidentFlush
    exact ⟨_, rfl⟩
  case pegSet a b =>
    show ∃ f, execPegSet a b s = onDev s f
    unfold execPegSet
    exact ⟨_, rfl⟩
  case pegClear a b =>
    show ∃ f, execPegClear a b s = onDev s f
    unfold execPegClear
    exact ⟨_, rfl⟩
  case tallyAdd a b =>
    show ∃ f, execTallyAdd a b s = onDev s f
    unfold execTallyAdd
    exact ⟨_, rfl⟩
  case tallyTake a b =>
    show ∃ f, execTallyTake a b s = onDev s f
    unfold execTallyTake
    exact ⟨_, rfl⟩
  case barrier a b =>
    show ∃ f, execBarrier a b s = onDev s f
    unfold execBarrier
    exact ⟨_, rfl⟩
  case epochFence a b =>
    show ∃ f, execEpochFence a b s = onDev s f
    unfold execEpochFence
    exact ⟨_, rfl⟩
  case holdGrant a =>
    show ∃ f, execHoldGrant a s = onDev s f
    unfold execHoldGrant
    exact ⟨_, rfl⟩
  case inputReadDone a b =>
    show ∃ f, execInputReadDone a b s = onDev s f
    unfold execInputReadDone
    exact ⟨_, rfl⟩
  case prologueReceive a b =>
    show ∃ f, execPrologueReceive a b s = onDev s f
    unfold execPrologueReceive
    exact ⟨_, rfl⟩
  case trellisDataReceive a b =>
    show ∃ f, execTrellisDataReceive a b s = onDev s f
    unfold execTrellisDataReceive
    exact ⟨_, rfl⟩
  case trellisSignalReceive a b =>
    show ∃ f, execTrellisSignalReceive a b s = onDev s f
    unfold execTrellisSignalReceive
    exact ⟨_, rfl⟩
  case spoolWritesPerformed a b =>
    show ∃ f, execSpoolWritesPerformed a b s = onDev s f
    unfold execSpoolWritesPerformed
    exact ⟨_, rfl⟩
  case completionRecord a b =>
    show ∃ f, execCompletionRecord a b s = onDev s f
    unfold execCompletionRecord
    exact ⟨_, rfl⟩
  case contributionWaitExpiry a b =>
    show ∃ f, execContributionWaitExpiry a b s = onDev s f
    unfold execContributionWaitExpiry
    exact ⟨_, rfl⟩
  case pressStage a b =>
    show ∃ f, execPressStage a b s = onDev s f
    unfold execPressStage
    exact ⟨_, rfl⟩
  case sieveSelection a b =>
    show ∃ f, execSieveSelection a b s = onDev s f
    unfold execSieveSelection
    exact ⟨_, rfl⟩
  case trellisLinkUp a b c =>
    show ∃ f, execTrellisLinkUp a b c s = onDev s f
    unfold execTrellisLinkUp
    exact ⟨_, rfl⟩
  case trellisTrainingTimeout a =>
    show ∃ f, execTrellisTrainingTimeout a s = onDev s f
    unfold execTrellisTrainingTimeout
    exact ⟨_, rfl⟩
  case trellisPortSilent a =>
    show ∃ f, execTrellisPortSilent a s = onDev s f
    unfold execTrellisPortSilent
    exact ⟨_, rfl⟩
  case trellisFrameReceive a b c =>
    show ∃ f, execTrellisFrameReceive a b c s = onDev s f
    unfold execTrellisFrameReceive
    exact ⟨_, rfl⟩
  case trellisReplayTimer a =>
    show ∃ f, execTrellisReplayTimer a s = onDev s f
    unfold execTrellisReplayTimer
    exact ⟨_, rfl⟩
  case alignmentBlock a =>
    show ∃ f, execAlignmentBlock a s = onDev s f
    unfold execAlignmentBlock
    exact ⟨_, rfl⟩
  case trellisLaneLoss a =>
    show ∃ f, execTrellisLaneLoss a s = onDev s f
    unfold execTrellisLaneLoss
    exact ⟨_, rfl⟩
  case trellisLinkDownFrame a b =>
    show ∃ f, execTrellisLinkDownFrame a b s = onDev s f
    unfold execTrellisLinkDownFrame
    exact ⟨_, rfl⟩
  case sowHello a b =>
    show ∃ f, execSowHello a b s = onDev s f
    unfold execSowHello sowRow
    exact ⟨_, rfl⟩
  case reference a b =>
    show ∃ f, execReference a b s = onDev s f
    unfold execReference sowRow
    exact ⟨_, rfl⟩
  case seed a b =>
    show ∃ f, execSeed a b s = onDev s f
    unfold execSeed sowRow
    exact ⟨_, rfl⟩
  case close a b =>
    show ∃ f, execClose a b s = onDev s f
    unfold execClose sowRow
    exact ⟨_, rfl⟩
  case position a b =>
    show ∃ f, execPosition a b s = onDev s f
    unfold execPosition sowRow
    exact ⟨_, rfl⟩
  case rollcall a b =>
    show ∃ f, execRollcall a b s = onDev s f
    unfold execRollcall sowRow
    exact ⟨_, rfl⟩
  case formed a b =>
    show ∃ f, execFormed a b s = onDev s f
    unfold execFormed sowRow
    exact ⟨_, rfl⟩
  case stop a b =>
    show ∃ f, execStop a b s = onDev s f
    unfold execStop sowRow
    exact ⟨_, rfl⟩
  case sowOriginDeadline =>
    show ∃ f, execSowOriginDeadline s = onDev s f
    unfold execSowOriginDeadline
    exact ⟨_, rfl⟩
  case sowReferenceDeadline =>
    show ∃ f, execSowReferenceDeadline s = onDev s f
    unfold execSowReferenceDeadline
    exact ⟨_, rfl⟩
  case sowFormedDeadline =>
    show ∃ f, execSowFormedDeadline s = onDev s f
    unfold execSowFormedDeadline
    exact ⟨_, rfl⟩
  case pegOpReceive a b =>
    show ∃ f, execPegOpReceive a b s = onDev s f
    unfold execPegOpReceive
    exact ⟨_, rfl⟩
  case watch a b =>
    show ∃ f, execWatch a b s = onDev s f
    unfold execWatch
    exact ⟨_, rfl⟩
  case unwatch a b =>
    show ∃ f, execUnwatch a b s = onDev s f
    unfold execUnwatch
    exact ⟨_, rfl⟩
  case arrive a b =>
    show ∃ f, execArrive a b s = onDev s f
    unfold execArrive
    exact ⟨_, rfl⟩
  case withdraw a b =>
    show ∃ f, execWithdraw a b s = onDev s f
    unfold execWithdraw
    exact ⟨_, rfl⟩
  case fallback a b =>
    show ∃ f, execFallback a b s = onDev s f
    unfold execFallback
    exact ⟨_, rfl⟩
  case done a b =>
    show ∃ f, execDone a b s = onDev s f
    unfold execDone
    exact ⟨_, rfl⟩
  case met a b =>
    show ∃ f, execMet a b s = onDev s f
    unfold execMet
    exact ⟨_, rfl⟩
  case full a b =>
    show ∃ f, execFull a b s = onDev s f
    unfold execFull
    exact ⟨_, rfl⟩
  case watchResendTimer a b c =>
    show ∃ f, execWatchResendTimer a b c s = onDev s f
    unfold execWatchResendTimer
    exact ⟨_, rfl⟩
  case begin a b =>
    show ∃ f, execBegin a b s = onDev s f
    unfold execBegin
    exact ⟨_, rfl⟩
  case release a b =>
    show ∃ f, execRelease a b s = onDev s f
    unfold execRelease
    exact ⟨_, rfl⟩
  case mismatch a b =>
    show ∃ f, execMismatch a b s = onDev s f
    unfold execMismatch
    exact ⟨_, rfl⟩
  case withdrawn a b =>
    show ∃ f, execWithdrawn a b s = onDev s f
    unfold execWithdrawn
    exact ⟨_, rfl⟩
  case pegOpDoneTimeout a b =>
    show ∃ f, execPegOpDoneTimeout a b s = onDev s f
    unfold execPegOpDoneTimeout
    exact ⟨_, rfl⟩
  case barrierWatchdogExpiry a b =>
    show ∃ f, execBarrierWatchdogExpiry a b s = onDev s f
    unfold execBarrierWatchdogExpiry
    exact ⟨_, rfl⟩
  case withdrawReplyTimeout a b =>
    show ∃ f, execWithdrawReplyTimeout a b s = onDev s f
    unfold execWithdrawReplyTimeout
    exact ⟨_, rfl⟩
  case lineRelease =>
    show ∃ f, execLineRelease s = onDev s f
    unfold execLineRelease
    exact ⟨_, rfl⟩
  case lineReadHigh a =>
    show ∃ f, execLineReadHigh a s = onDev s f
    unfold execLineReadHigh
    exact ⟨_, rfl⟩
  case lineWatchdogExpiry =>
    show ∃ f, execLineWatchdogExpiry s = onDev s f
    unfold execLineWatchdogExpiry
    exact ⟨_, rfl⟩
  case crossingQueueStall a =>
    show ∃ f, execCrossingQueueStall a s = onDev s f
    unfold execCrossingQueueStall
    exact ⟨_, rfl⟩
  case checkBitError a =>
    show ∃ f, execCheckBitError a s = onDev s f
    unfold execCheckBitError
    exact ⟨_, rfl⟩
  case fault a b =>
    show ∃ f, execFault a b s = onDev s f
    unfold execFault
    exact ⟨_, rfl⟩
  case drainComplete =>
    show ∃ f, execDrainComplete s = onDev s f
    unfold execDrainComplete
    exact ⟨_, rfl⟩
  case drained a b =>
    show ∃ f, execDrained a b s = onDev s f
    unfold execDrained
    exact ⟨_, rfl⟩
  case contextChangeDone =>
    show ∃ f, execContextChangeDone s = onDev s f
    unfold execContextChangeDone
    exact ⟨_, rfl⟩
  case clean a b =>
    show ∃ f, execClean a b s = onDev s f
    unfold execClean
    exact ⟨_, rfl⟩
  case recoveryWaitExpiry =>
    show ∃ f, execRecoveryWaitExpiry s = onDev s f
    unfold execRecoveryWaitExpiry
    exact ⟨_, rfl⟩
  case state a b =>
    show ∃ f, execState a b s = onDev s f
    unfold execState
    exact ⟨_, rfl⟩
  case stateWaitExpiry a b =>
    show ∃ f, execStateWaitExpiry a b s = onDev s f
    unfold execStateWaitExpiry
    exact ⟨_, rfl⟩
  case verdict a b =>
    show ∃ f, execVerdict a b s = onDev s f
    unfold execVerdict
    exact ⟨_, rfl⟩
  case abort a b =>
    show ∃ f, execAbort a b s = onDev s f
    unfold execAbort
    exact ⟨_, rfl⟩
  case statusPeriodDue a =>
    show ∃ f, execStatusPeriodDue a s = onDev s f
    unfold execStatusPeriodDue
    exact ⟨_, rfl⟩
  case statusPageWrite => nomatch h
  case patrolScrub a b =>
    show ∃ f, execPatrolScrub a b s = onDev s f
    unfold execPatrolScrub
    exact ⟨_, rfl⟩
  case tjSample a =>
    show ∃ f, execTjSample a s = onDev s f
    unfold execTjSample
    exact ⟨_, rfl⟩
  case tapReset => nomatch h
  case extest => nomatch h
  case samplePreload => nomatch h
  case idcode => nomatch h
  case clamp => nomatch h
  case highz => nomatch h
  case bypass => nomatch h
  case dbgStatus => nomatch h
  case dbgAddr => nomatch h
  case dbgRead => nomatch h
  case dbgReadDone a b =>
    show ∃ f, execDbgReadDone a b s = onDev s f
    unfold execDbgReadDone
    exact ⟨_, rfl⟩
  case handSet => nomatch h
  case handClear => nomatch h
  case handTallyAdd => nomatch h
  case handTallyTake => nomatch h
  case handWriteValue => nomatch h
  case handEndBarrierPhase => nomatch h
  case dbgLoopEnter => nomatch h
  case dbgLoopLeave => nomatch h
  case railFallDuringRisingPhase => nomatch h
  case lemiusBackToDetect a =>
    show ∃ f, execLemiusBackToDetect a s = onDev s f
    unfold execLemiusBackToDetect
    exact ⟨_, rfl⟩
  case electricalIdleHoldEnd a =>
    show ∃ f, execElectricalIdleHoldEnd a s = onDev s f
    unfold execElectricalIdleHoldEnd
    exact ⟨_, rfl⟩
  case laneMarginingRequest a b =>
    show ∃ f, execLaneMarginingRequest a b s = onDev s f
    unfold execLaneMarginingRequest
    exact ⟨_, rfl⟩
  case loopbackFollowerEntry a b =>
    show ∃ f, execLoopbackFollowerEntry a b s = onDev s f
    unfold execLoopbackFollowerEntry
    exact ⟨_, rfl⟩
  case alignmentBlockReceive a b =>
    show ∃ f, execAlignmentBlockReceive a b s = onDev s f
    unfold execAlignmentBlockReceive
    exact ⟨_, rfl⟩
  case clearFirstComplete a b =>
    show ∃ f, execClearFirstComplete a b s = onDev s f
    unfold execClearFirstComplete
    exact ⟨_, rfl⟩
  case abortedInstanceWatchdogExpiry a b =>
    show ∃ f, execAbortedInstanceWatchdogExpiry a b s = onDev s f
    unfold execAbortedInstanceWatchdogExpiry
    exact ⟨_, rfl⟩

/-- A private instruction acts through the debug lock. -/
theorem exec_private (c : Instr) (s : State) (h : privateRow c = true) : ∃ ir dr act, exec c s = privateTap s ir dr act := by
  cases c
  case vddIoRise => nomatch h
  case railsRisingEnd => nomatch h
  case vddIoFall => nomatch h
  case brownOut => nomatch h
  case clockLoss => nomatch h
  case resetAssert => nomatch h
  case resetRelease => nomatch h
  case housekeepingLock => nomatch h
  case housekeepingLockFail => nomatch h
  case levelPinMeasurement => nomatch h
  case islandLoopsLocked => nomatch h
  case memoryInitialised => nomatch h
  case readyAssert => nomatch h
  case portStart => nomatch h
  case lemiusLinkUp => nomatch h
  case lemiusTrainingTimeout => nomatch h
  case lemiusFrameReceive => nomatch h
  case lemiusReplayTimer => nomatch h
  case hello => nomatch h
  case nudge => nomatch h
  case leafLinkDownFrame => nomatch h
  case lane0ElectricalIdle => nomatch h
  case readCpl => nomatch h
  case readTimeout => nomatch h
  case tagRetireEnd => nomatch h
  case headerRead => nomatch h
  case descriptorFetch => nomatch h
  case pollTimer => nomatch h
  case refetchTimer => nomatch h
  case readRetryTimer => nomatch h
  case dependencySatisfied => nomatch h
  case waitTimeoutExpiry => nomatch h
  case nop => nomatch h
  case broadcast => nomatch h
  case reduceToOne => nomatch h
  case allReduce => nomatch h
  case reduceScatter => nomatch h
  case allGather => nomatch h
  case exchangeEqualSizes => nomatch h
  case exchangeUnequalSizes => nomatch h
  case yardLoad => nomatch h
  case yardBlockRegister => nomatch h
  case residentAccum => nomatch h
  case residentFlush => nomatch h
  case pegSet => nomatch h
  case pegClear => nomatch h
  case tallyAdd => nomatch h
  case tallyTake => nomatch h
  case barrier => nomatch h
  case epochFence => nomatch h
  case holdGrant => nomatch h
  case inputReadDone => nomatch h
  case prologueReceive => nomatch h
  case trellisDataReceive => nomatch h
  case trellisSignalReceive => nomatch h
  case spoolWritesPerformed => nomatch h
  case completionRecord => nomatch h
  case contributionWaitExpiry => nomatch h
  case pressStage => nomatch h
  case sieveSelection => nomatch h
  case trellisLinkUp => nomatch h
  case trellisTrainingTimeout => nomatch h
  case trellisPortSilent => nomatch h
  case trellisFrameReceive => nomatch h
  case trellisReplayTimer => nomatch h
  case alignmentBlock => nomatch h
  case trellisLaneLoss => nomatch h
  case trellisLinkDownFrame => nomatch h
  case sowHello => nomatch h
  case reference => nomatch h
  case seed => nomatch h
  case close => nomatch h
  case position => nomatch h
  case rollcall => nomatch h
  case formed => nomatch h
  case stop => nomatch h
  case sowOriginDeadline => nomatch h
  case sowReferenceDeadline => nomatch h
  case sowFormedDeadline => nomatch h
  case pegOpReceive => nomatch h
  case watch => nomatch h
  case unwatch => nomatch h
  case arrive => nomatch h
  case withdraw => nomatch h
  case fallback => nomatch h
  case done => nomatch h
  case met => nomatch h
  case full => nomatch h
  case watchResendTimer => nomatch h
  case begin => nomatch h
  case release => nomatch h
  case mismatch => nomatch h
  case withdrawn => nomatch h
  case pegOpDoneTimeout => nomatch h
  case barrierWatchdogExpiry => nomatch h
  case withdrawReplyTimeout => nomatch h
  case lineRelease => nomatch h
  case lineReadHigh => nomatch h
  case lineWatchdogExpiry => nomatch h
  case crossingQueueStall => nomatch h
  case checkBitError => nomatch h
  case fault => nomatch h
  case drainComplete => nomatch h
  case drained => nomatch h
  case contextChangeDone => nomatch h
  case clean => nomatch h
  case recoveryWaitExpiry => nomatch h
  case state => nomatch h
  case stateWaitExpiry => nomatch h
  case verdict => nomatch h
  case abort => nomatch h
  case statusPeriodDue => nomatch h
  case statusPageWrite => nomatch h
  case patrolScrub => nomatch h
  case tjSample => nomatch h
  case tapReset => nomatch h
  case extest => nomatch h
  case samplePreload => nomatch h
  case idcode => nomatch h
  case clamp => nomatch h
  case highz => nomatch h
  case bypass => nomatch h
  case dbgStatus =>
    show ∃ ir dr act, execDbgStatus s = privateTap s ir dr act
    unfold execDbgStatus
    exact ⟨_, _, _, rfl⟩
  case dbgAddr a =>
    show ∃ ir dr act, execDbgAddr a s = privateTap s ir dr act
    unfold execDbgAddr
    exact ⟨_, _, _, rfl⟩
  case dbgRead a =>
    show ∃ ir dr act, execDbgRead a s = privateTap s ir dr act
    unfold execDbgRead
    exact ⟨_, _, _, rfl⟩
  case dbgReadDone => nomatch h
  case handSet a b =>
    show ∃ ir dr act, execHandSet a b s = privateTap s ir dr act
    unfold execHandSet
    exact ⟨_, _, _, rfl⟩
  case handClear a b =>
    show ∃ ir dr act, execHandClear a b s = privateTap s ir dr act
    unfold execHandClear
    exact ⟨_, _, _, rfl⟩
  case handTallyAdd a b c =>
    show ∃ ir dr act, execHandTallyAdd a b c s = privateTap s ir dr act
    unfold execHandTallyAdd
    exact ⟨_, _, _, rfl⟩
  case handTallyTake a b c =>
    show ∃ ir dr act, execHandTallyTake a b c s = privateTap s ir dr act
    unfold execHandTallyTake
    exact ⟨_, _, _, rfl⟩
  case handWriteValue a b c =>
    show ∃ ir dr act, execHandWriteValue a b c s = privateTap s ir dr act
    unfold execHandWriteValue
    exact ⟨_, _, _, rfl⟩
  case handEndBarrierPhase a b =>
    show ∃ ir dr act, execHandEndBarrierPhase a b s = privateTap s ir dr act
    unfold execHandEndBarrierPhase
    exact ⟨_, _, _, rfl⟩
  case dbgLoopEnter a =>
    show ∃ ir dr act, execDbgLoopEnter a s = privateTap s ir dr act
    unfold execDbgLoopEnter
    exact ⟨_, _, _, rfl⟩
  case dbgLoopLeave a =>
    show ∃ ir dr act, execDbgLoopLeave a s = privateTap s ir dr act
    unfold execDbgLoopLeave
    exact ⟨_, _, _, rfl⟩
  case railFallDuringRisingPhase => nomatch h
  case lemiusBackToDetect => nomatch h
  case electricalIdleHoldEnd => nomatch h
  case laneMarginingRequest => nomatch h
  case loopbackFollowerEntry => nomatch h
  case alignmentBlockReceive => nomatch h
  case clearFirstComplete => nomatch h
  case abortedInstanceWatchdogExpiry => nomatch h

end Sys2Proof.Machine
end

