-- ==== Sys2Proof/Laws/SoundOps.lean ====
section
/-! SUPPORT. One lemma for each shared operation that changes links, sowing or bring-up: it keeps the unit sound (canonical storage, and Darn's books within their window). -/
namespace Sys2Proof.Machine
open Sys2Proof

theorem modR_sound {d : Dev} (h : Sound d) (p : LPort) (r : RingNo) (f : Ring → Ring) : Sound (modR d p r f) := (modR_kept (Kept.refl d) p r f).sound h

theorem modRun_sound {d : Dev} (h : Sound d) (p : LPort) (r : RingNo) (f : Run → Run) : Sound (modRun d p r f) := modR_sound h p r _

theorem modStore_sound {d : Dev} (h : Sound d) {f : Store → Store} (h1 : ∀ x, spWf x.spool = true → spWf (f x).spool = true)
    (h2 : ∀ x, spWf x.yard = true → spWf (f x).yard = true) : Sound (modStore d f) := (modStore_kept (Kept.refl d) h1 h2).sound h

theorem victim_spair {d d' : Dev} (h : Sound d) {α : Type} {q : Option α} {l : List α} (e : victim d l = (q, d')) : Sound d' :=
  (victim_pair (Kept.refl d) e).sound h

theorem addCause_sound {d : Dev} (hS : Sound d) (p : LPort) (bit : Nat) : Sound (addCause d p bit) := (addCause_kept (Kept.refl d) p bit).sound hS

theorem addCauseAll_sound {d : Dev} (hS : Sound d) (bit : Nat) : Sound (addCauseAll d bit) := (addCauseAll_kept (Kept.refl d) bit).sound hS

theorem bumpLem_sound {d : Dev} (hS : Sound d) (p : LPort) (n : Fin 12) : Sound (bumpLem d p n) := (bumpLem_kept (Kept.refl d) p n).sound hS

theorem bumpTrl_sound {d : Dev} (hS : Sound d) (i : TPort) (n : Fin 7) : Sound (bumpTrl d i n) := (bumpTrl_kept (Kept.refl d) i n).sound hS

theorem bumpTenant_sound {d : Dev} (hS : Sound d) (c : Cfg) (t : Tenant) (n : Fin 10) : Sound (bumpTenant c d t n) := (bumpTenant_kept (Kept.refl d) c t n).sound hS

theorem bumpHealthN_sound {d : Dev} (hS : Sound d) (n : Fin 7) (k : Nat) : Sound (bumpHealthN d n k) := (bumpHealthN_kept (Kept.refl d) n k).sound hS

theorem bumpHealth_sound {d : Dev} (hS : Sound d) (n : Fin 7) : Sound (bumpHealth d n) := (bumpHealth_kept (Kept.refl d) n).sound hS

theorem bumpRing_sound {d : Dev} (hS : Sound d) (p : LPort) (r : RingNo) (failed : Bool) : Sound (bumpRing d p r failed) := (bumpRing_kept (Kept.refl d) p r failed).sound hS

theorem pushTx_sound {d : Dev} (hS : Sound d) (p : LPort) (items : List TxItem) : Sound (pushTx d p items) := (pushTx_kept (Kept.refl d) p items).sound hS

theorem sendPeg_sound {d : Dev} (hS : Sound d) (t : Tenant) (dest pmsg pcode peg operand reqId members : Nat) (body : List Byte) : Sound (sendPeg d t dest pmsg pcode peg operand reqId members body) := (sendPeg_kept (Kept.refl d) t dest pmsg pcode peg operand reqId members body).sound hS

theorem floodOn_sound {d : Dev} (hS : Sound d) (except : Option TPort) (src : Nat) (pl : List Byte) : Sound (floodOn d except src pl) := (floodOn_kept (Kept.refl d) except src pl).sound hS

theorem flood_sound {d : Dev} (hS : Sound d) (rkind tenant round coll inst : Nat) (body : List Byte) : Sound (flood d rkind tenant round coll inst body) := (flood_kept (Kept.refl d) rkind tenant round coll inst body).sound hS

theorem draw_sound {d : Dev} (hS : Sound d)  : Sound (draw d).2 := (draw_kept (Kept.refl d) ).sound hS

theorem draw_spair {d d' : Dev} (h : Sound d) {q : Nat}  (e : draw d = (q, d')) : Sound d' := by
  have := draw_sound h 
  rwa [e] at this

theorem assertFaultN_sound {d : Dev} (hS : Sound d)  : Sound (assertFaultN d) := (assertFaultN_kept (Kept.refl d) ).sound hS

theorem judgeRing_sound {d : Dev} (hS : Sound d) (c : Cfg) (p : LPort) (r : RingNo) : Sound (judgeRing c d p r) := (judgeRing_kept (Kept.refl d) c p r).sound hS

theorem poolOp_sound {d : Dev} (hS : Sound d) (c : Cfg) (p pop : Nat) (amount : W16) : Sound (poolOp c d p pop amount).1 := (poolOp_kept (Kept.refl d) c p pop amount).sound hS

theorem poolOp_spair {d d' : Dev} (h : Sound d) {q : W16 × Nat} (c : Cfg) (p pop : Nat) (amount : W16) (e : poolOp c d p pop amount = (d', q)) : Sound d' := by
  have := poolOp_sound h c p pop amount
  rwa [e] at this

theorem poolWrite_sound {d : Dev} (hS : Sound d) (c : Cfg) (p : Nat) (v : W16) : Sound (poolWrite c d p v) := (poolWrite_kept (Kept.refl d) c p v).sound hS

theorem newReq_sound {d : Dev} (hS : Sound d)  : Sound (newReq d).2 := (newReq_kept (Kept.refl d) ).sound hS

theorem newReq_spair {d d' : Dev} (h : Sound d) {q : W16}  (e : newReq d = (q, d')) : Sound d' := by
  have := newReq_sound h 
  rwa [e] at this

theorem tallyExc_sound {d : Dev} (hS : Sound d) (c : Cfg) (p : LPort) (r : RingNo) (code idx : Nat) : Sound (tallyExc c d p r code idx) := (tallyExc_kept (Kept.refl d) c p r code idx).sound hS

theorem pegEntry_sound {d : Dev} (hS : Sound d) (c : Cfg) (p : LPort) (r : RingNo) (x : Run) (k : Nat) : Sound (pegEntry c d p r x k) := (pegEntry_kept (Kept.refl d) c p r x k).sound hS

theorem pegFinish_sound {d : Dev} (hS : Sound d) (p : LPort) (r : RingNo) : Sound (pegFinish d p r) := (pegFinish_kept (Kept.refl d) p r).sound hS

theorem sendWatch_sound {d : Dev} (hS : Sound d) (c : Cfg) (p : LPort) (r : RingNo) (desc : Desc) (k : Nat) (id : W16) (pmsg : Nat) : Sound (sendWatch c d p r desc k id pmsg) := (sendWatch_kept (Kept.refl d) c p r desc k id pmsg).sound hS

theorem finishRuns_sound {d : Dev} (hS : Sound d) (rs : List (LPort × RingNo)) (status : Byte) : Sound (finishRuns d rs status) := (finishRuns_kept (Kept.refl d) rs status).sound hS

theorem modArrival_sound {d : Dev} (hS : Sound d) (a : Arrival) (f : Arrival → Arrival) : Sound (modArrival d a f) := (modArrival_kept (Kept.refl d) a f).sound hS

theorem dropArrival_sound {d : Dev} (hS : Sound d) (a : Arrival) : Sound (dropArrival d a) := (dropArrival_kept (Kept.refl d) a).sound hS

theorem tryArrivals_sound {d : Dev} (hS : Sound d) (c : Cfg) : Sound (tryArrivals c d) := (tryArrivals_kept (Kept.refl d) c).sound hS

theorem placeBarrier_sound {d : Dev} (hS : Sound d) (c : Cfg) (p : LPort) (r : RingNo) (x : Run) : Sound (placeBarrier c d p r x) := (placeBarrier_kept (Kept.refl d) c p r x).sound hS

theorem placeHeld_sound {d : Dev} (hS : Sound d) (c : Cfg) : Sound (placeHeld c d) := (placeHeld_kept (Kept.refl d) c).sound hS

theorem endArrival_sound {d : Dev} (hS : Sound d) (c : Cfg) (a : Arrival) (status : Byte) : Sound (endArrival c d a status) := (endArrival_kept (Kept.refl d) c a status).sound hS

theorem engineMismatch_sound {d : Dev} (hS : Sound d) (c : Cfg) (t : Tenant) (peg : Nat) (us : List Nat) : Sound (engineMismatch c d t peg us) := (engineMismatch_kept (Kept.refl d) c t peg us).sound hS

theorem enterFallback_sound {d : Dev} (hS : Sound d) (c : Cfg) (f : Nat) : Sound (enterFallback c d f) := (enterFallback_kept (Kept.refl d) c f).sound hS

theorem pegFrame_sound {d : Dev} (hS : Sound d) (c : Cfg) (i : TPort) (f : TrlFrame) : Sound (pegFrame c d i f) := (pegFrame_kept (Kept.refl d) c i f).sound hS

theorem replyFrame_sound {d : Dev} (hS : Sound d) (c : Cfg) (i : TPort) (f : TrlFrame) : Sound (replyFrame c d i f) := (replyFrame_kept (Kept.refl d) c i f).sound hS

theorem lemDiscard_sound {d : Dev} (hS : Sound d) (p : LPort) : Sound (lemDiscard d p) := (lemDiscard_kept (Kept.refl d) p).sound hS

theorem trlDiscard_sound {d : Dev} (hS : Sound d) (i : TPort) : Sound (trlDiscard d i) := (trlDiscard_kept (Kept.refl d) i).sound hS

theorem modInst_sound {d : Dev} (hS : Sound d) (t : Tenant) (coll : W16) (f : Inst → Inst) : Sound (modInst d t coll f) := (modInst_kept (Kept.refl d) t coll f).sound hS

theorem grantReq_sound {d : Dev} (hS : Sound d) (t : Tenant) (q : StoreReq) : Sound (grantReq d t q) := (grantReq_kept (Kept.refl d) t q).sound hS

theorem askStore_sound {d : Dev} (hS : Sound d) (c : Cfg) (t : Tenant) (q : StoreReq) : Sound (askStore c d t q) := (askStore_kept (Kept.refl d) c t q).sound hS

theorem dropReq_sound {d : Dev} (hS : Sound d) (t : Tenant) (q : StoreReq) : Sound (dropReq d t q) := (dropReq_kept (Kept.refl d) t q).sound hS

theorem releaseHold_sound {d : Dev} (hS : Sound d) (t : Tenant) (p : LPort) (r : RingNo) (x : Run) : Sound (releaseHold d t p r x) := (releaseHold_kept (Kept.refl d) t p r x).sound hS

theorem meetBad_sound {d : Dev} (hS : Sound d) (ws : List Nat) : Sound (meetBad d ws) := (meetBad_kept (Kept.refl d) ws).sound hS

theorem clearSpool_sound {d : Dev} (hS : Sound d) (c : Cfg) (t : Tenant) (a n : Nat) : Sound (clearSpool c d t a n) := (clearSpool_kept (Kept.refl d) c t a n).sound hS

theorem writeYard_sound {d : Dev} (hS : Sound d) (c : Cfg) (t : Tenant) (a : Nat) (bs : List Byte) : Sound (writeYard c d t a bs) := (writeYard_kept (Kept.refl d) c t a bs).sound hS

theorem dropBlocks_sound {d : Dev} (hS : Sound d) (t : Tenant) (a n : Nat) : Sound (dropBlocks d t a n) := (dropBlocks_kept (Kept.refl d) t a n).sound hS

theorem registerBlock_sound {d : Dev} (hS : Sound d) (c : Cfg) (t : Tenant) (desc : Desc) : Sound (registerBlock c d t desc) := (registerBlock_kept (Kept.refl d) c t desc).sound hS

theorem dropBadBlocks_sound {d : Dev} (hS : Sound d) (c : Cfg) (w : Nat) : Sound (dropBadBlocks c d w) := (dropBadBlocks_kept (Kept.refl d) c w).sound hS

theorem outWrite_sound {d : Dev} (hS : Sound d) (p : LPort) (r : RingNo) (addr w : Nat) (bs : List Byte) : Sound (outWrite d p r addr w bs) := (outWrite_kept (Kept.refl d) p r addr w bs).sound hS

theorem closeInst_sound {d : Dev} (hS : Sound d) (t : Tenant) (coll : W16) : Sound (closeInst d t coll) := (closeInst_kept (Kept.refl d) t coll).sound hS

theorem pumpInst_sound {d : Dev} (hS : Sound d) (c : Cfg) (t : Tenant) (coll : W16) : Sound (pumpInst c d t coll) := (pumpInst_kept (Kept.refl d) c t coll).sound hS

theorem forcePrologue_sound {d : Dev} (hS : Sound d) (t : Tenant) (coll : W16) : Sound (forcePrologue d t coll) := (forcePrologue_kept (Kept.refl d) t coll).sound hS

theorem endInst_sound {d : Dev} (hS : Sound d) (t : Tenant) (coll : W16) (status : Byte) : Sound (endInst d t coll status) := (endInst_kept (Kept.refl d) t coll status).sound hS

theorem abortInst_sound {d : Dev} (hS : Sound d) (t : Tenant) (coll : W16) (status : Byte) : Sound (abortInst d t coll status) := (abortInst_kept (Kept.refl d) t coll status).sound hS

theorem placeColl_sound {d : Dev} (hS : Sound d) (c : Cfg) (p : LPort) (r : RingNo) (y : Run) : Sound (placeColl c d p r y) := (placeColl_kept (Kept.refl d) c p r y).sound hS

theorem prologueFrame_sound {d : Dev} (hS : Sound d) (c : Cfg) (q : TPort) (f : TrlFrame) : Sound (prologueFrame c d q f) := (prologueFrame_kept (Kept.refl d) c q f).sound hS

theorem chunkFrame_sound {d : Dev} (hS : Sound d) (c : Cfg) (q : TPort) (f : TrlFrame) : Sound (chunkFrame c d q f) := (chunkFrame_kept (Kept.refl d) c q f).sound hS

theorem wantRead_sound {d : Dev} (hS : Sound d) (p : LPort) (w : ReadWant) : Sound (wantRead d p w) := (wantRead_kept (Kept.refl d) p w).sound hS

theorem dropReads_sound {d : Dev} (hS : Sound d) (p : LPort) (r : RingNo) (f : ReadWhy → Bool) : Sound (dropReads d p r f) := (dropReads_kept (Kept.refl d) p r f).sound hS

theorem readHeaderAgain_sound {d : Dev} (hS : Sound d) (c : Cfg) (p : LPort) (r : RingNo) : Sound (readHeaderAgain c d p r) := (readHeaderAgain_kept (Kept.refl d) c p r).sound hS

theorem readHeader_sound {d : Dev} (hS : Sound d) (c : Cfg) (p : LPort) (r : RingNo) : Sound (readHeader c d p r) := (readHeader_kept (Kept.refl d) c p r).sound hS

theorem fetchMore_sound {d : Dev} (hS : Sound d) (p : LPort) (r : RingNo) : Sound (fetchMore d p r) := (fetchMore_kept (Kept.refl d) p r).sound hS

theorem readWaiting_sound {d : Dev} (hS : Sound d) (p : LPort) (r : RingNo) : Sound (readWaiting d p r) := (readWaiting_kept (Kept.refl d) p r).sound hS

theorem admitHead_sound {d : Dev} (hS : Sound d) (c : Cfg) (p : LPort) (r : RingNo) : Sound (admitHead c d p r) := (admitHead_kept (Kept.refl d) c p r).sound hS

theorem advanceHead_sound {d : Dev} (hS : Sound d) (c : Cfg) (p : LPort) (r : RingNo) : Sound (advanceHead c d p r) := (advanceHead_kept (Kept.refl d) c p r).sound hS

theorem failHead_sound {d : Dev} (hS : Sound d) (c : Cfg) (p : LPort) (r : RingNo) (status : Byte) : Sound (failHead c d p r status) := (failHead_kept (Kept.refl d) c p r status).sound hS

theorem judgeHead_sound {d : Dev} (hS : Sound d) (c : Cfg) (p : LPort) (r : RingNo) : Sound (judgeHead c d p r) := (judgeHead_kept (Kept.refl d) c p r).sound hS

theorem afterList_sound {d : Dev} (hS : Sound d) (c : Cfg) (p : LPort) (r : RingNo) : Sound (afterList c d p r) := (afterList_kept (Kept.refl d) c p r).sound hS

theorem takeSlots_sound {d : Dev} (hS : Sound d) (p : LPort) (r : RingNo) (n : Nat) : Sound (takeSlots p r n d) := (takeSlots_kept (Kept.refl d) p r n).sound hS

theorem adoptHeader_sound {d : Dev} (hS : Sound d) (c : Cfg) (p : LPort) (r : RingNo) (h : RingHdr) : Sound (adoptHeader c d p r h) := (adoptHeader_kept (Kept.refl d) c p r h).sound hS

theorem refuseHeader_sound {d : Dev} (hS : Sound d) (p : LPort) (r : RingNo) : Sound (refuseHeader d p r) := (refuseHeader_kept (Kept.refl d) p r).sound hS

theorem leaveInst_sound {d : Dev} (hS : Sound d) (p : LPort) (r : RingNo) (x : Run) : Sound (leaveInst d p r x) := (leaveInst_kept (Kept.refl d) p r x).sound hS

theorem failBulk_sound {d : Dev} (hS : Sound d) (p : LPort) (r : RingNo) (status : Byte) (cls : Nat) : Sound (failBulk d p r status cls) := (failBulk_kept (Kept.refl d) p r status cls).sound hS

theorem modRec_sound {d : Dev} (hS : Sound d) (f : Rec → Rec) : Sound (modRec d f) := (modRec_kept (Kept.refl d) f).sound hS

theorem takeAbort_sound {d : Dev} (hS : Sound d) (c : Cfg) (t : Tenant) (coll num : W16) (status : Byte) (isMine : Inst → Bool) : Sound (takeAbort c d t coll num status isMine) := (takeAbort_kept (Kept.refl d) c t coll num status isMine).sound hS

theorem takeVerdict_sound {d : Dev} (hS : Sound d) (c : Cfg) (t : Tenant) (coll num : W16) (round outcome : Nat) (status : Byte) : Sound (takeVerdict c d t coll num round outcome status) := (takeVerdict_kept (Kept.refl d) c t coll num round outcome status).sound hS

theorem decideVerdict_sound {d : Dev} (hS : Sound d) (c : Cfg) (t : Tenant) (coll num : W16) (late : Bool) : Sound (decideVerdict c d t coll num late) := (decideVerdict_kept (Kept.refl d) c t coll num late).sound hS

theorem takeState_sound {d : Dev} (hS : Sound d) (c : Cfg) (t : Tenant) (coll num : W16) (r : Report) : Sound (takeState c d t coll num r) := (takeState_kept (Kept.refl d) c t coll num r).sound hS

theorem drain_sound {d : Dev} (hS : Sound d) (c : Cfg) (t : Tenant) : Sound (drain c d t) := (drain_kept (Kept.refl d) c t).sound hS

theorem tryChange_sound {d : Dev} (hS : Sound d) (c : Cfg) (late : Bool) : Sound (tryChange c d late) := (tryChange_kept (Kept.refl d) c late).sound hS

theorem tryEnd_sound {d : Dev} (hS : Sound d) (late : Bool) : Sound (tryEnd d late) := (tryEnd_kept (Kept.refl d) late).sound hS

theorem finishChange_sound {d : Dev} (hS : Sound d) (c : Cfg) (t : Tenant) : Sound (finishChange c d t) := (finishChange_kept (Kept.refl d) c t).sound hS

theorem acceptFault_sound {d : Dev} (hS : Sound d) (c : Cfg) (cls unit port tenants : Nat) : Sound (acceptFault c d cls unit port tenants) := (acceptFault_kept (Kept.refl d) c cls unit port tenants).sound hS

theorem raiseFault_sound {d : Dev} (hS : Sound d) (c : Cfg) (cls unit port : Nat) : Sound (raiseFault c d cls unit port) := (raiseFault_kept (Kept.refl d) c cls unit port).sound hS

theorem raiseOwn_sound {d : Dev} (hS : Sound d) (c : Cfg) (cls port : Nat) : Sound (raiseOwn c d cls port) := (raiseOwn_kept (Kept.refl d) c cls port).sound hS

theorem epilogue_sound {d : Dev} (hS : Sound d) (c : Cfg) : Sound (epilogue c d) := (epilogue_kept (Kept.refl d) c).sound hS

theorem sowSend_sound {d : Dev} (hS : Sound d) (i : TPort) (m : SowMsg) : Sound (sowSend d i m) := (sowSend_kept (Kept.refl d) i m).sound hS

theorem sowFlood_sound {d : Dev} (hS : Sound d) (miswired : Bool) (except : Option TPort) (m : SowMsg) : Sound (sowFlood d miswired except m) := (sowFlood_kept (Kept.refl d) miswired except m).sound hS

theorem stopCodes_sound {d : Dev} (hS : Sound d) (ref : Option (List (BitVec 4))) : Sound (stopCodes d ref).2 := (stopCodes_kept (Kept.refl d) ref).sound hS

theorem stopCodes_spair {d d' : Dev} (h : Sound d) {q : List (BitVec 4)} (ref : Option (List (BitVec 4))) (e : stopCodes d ref = (q, d')) : Sound d' := by
  have := stopCodes_sound h ref
  rwa [e] at this

theorem assertLines_sound {d : Dev} (hS : Sound d) (c : Cfg) : Sound (assertLines c d) := (assertLines_kept (Kept.refl d) c).sound hS

theorem sendRoll_sound {d : Dev} (hS : Sound d) (c : Cfg) (ax count : Nat) : Sound (sendRoll c d ax count) := (sendRoll_kept (Kept.refl d) c ax count).sound hS

theorem leaveArrivals_sound {d : Dev} (hS : Sound d) (p : LPort) : Sound (leaveArrivals d p) := (leaveArrivals_kept (Kept.refl d) p).sound hS

theorem nudgeRing_sound {d : Dev} (hS : Sound d) (c : Cfg) (p : LPort) (r : RingNo) : Sound (nudgeRing c d p r) := (nudgeRing_kept (Kept.refl d) c p r).sound hS

theorem endRead_sound {d : Dev} (hS : Sound d) (p : LPort) (tag : Nat) : Sound (endRead d p tag) := (endRead_kept (Kept.refl d) p tag).sound hS

theorem takeRecipe_sound {d : Dev} (hS : Sound d) (c : Cfg) (p : LPort) (r : RingNo) (bs : List Byte) : Sound (takeRecipe c d p r bs) := (takeRecipe_kept (Kept.refl d) c p r bs).sound hS

theorem readGood_sound {d : Dev} (hS : Sound d) (c : Cfg) (p : LPort) (w : ReadWhy) (bs : List Byte) : Sound (readGood c d p w bs) := (readGood_kept (Kept.refl d) c p w bs).sound hS

theorem slotUnread_sound {d : Dev} (hS : Sound d) (p : LPort) (r : RingNo) (first : W16) : Sound (slotUnread d p r first) := (slotUnread_kept (Kept.refl d) p r first).sound hS

theorem headUnread_sound {d : Dev} (hS : Sound d) (c : Cfg) (p : LPort) (r : RingNo) (w : ReadWhy) : Sound (headUnread c d p r w) := (headUnread_kept (Kept.refl d) c p r w).sound hS

theorem readBad_sound {d : Dev} (hS : Sound d) (c : Cfg) (p : LPort) (w : ReadWhy) : Sound (readBad c d p w) := (readBad_kept (Kept.refl d) c p w).sound hS

theorem countFailed_sound {d : Dev} (hS : Sound d) (p : LPort) (w : ReadWant) (timeout : Bool) : Sound (countFailed d p w timeout) := (countFailed_kept (Kept.refl d) p w timeout).sound hS

theorem readFails_sound {d : Dev} (hS : Sound d) (c : Cfg) (p : LPort) (o : ReadOut) (timeout : Bool) : Sound (readFails c d p o timeout) := (readFails_kept (Kept.refl d) c p o timeout).sound hS

theorem takeCpl_sound {d : Dev} (hS : Sound d) (c : Cfg) (p : LPort) (f : LemFrame) : Sound (takeCpl c d p f) := (takeCpl_kept (Kept.refl d) c p f).sound hS

theorem takeHeader_sound {d : Dev} (hS : Sound d) (c : Cfg) (p : LPort) (r : RingNo) (bs : List Byte) : Sound (takeHeader c d p r bs) := (takeHeader_kept (Kept.refl d) c p r bs).sound hS

theorem takePending_sound {d : Dev} (hS : Sound d) (c : Cfg) (p : LPort) (r : RingNo) : Sound (takePending c d p r) := (takePending_kept (Kept.refl d) c p r).sound hS

theorem retryRead_sound {d : Dev} (hS : Sound d) (c : Cfg) (p : LPort) (r : RingNo) (w : ReadWhy) : Sound (retryRead c d p r w) := (retryRead_kept (Kept.refl d) c p r w).sound hS

theorem sendUnwatches_sound {d : Dev} (hS : Sound d) (c : Cfg) (p : LPort) (r : RingNo) (desc : Desc) (h : Head) : Sound (sendUnwatches c d p r desc h) := (sendUnwatches_kept (Kept.refl d) c p r desc h).sound hS

theorem waitTimeout_sound {d : Dev} (hS : Sound d) (c : Cfg) (p : LPort) (r : RingNo) : Sound (waitTimeout c d p r) := (waitTimeout_kept (Kept.refl d) c p r).sound hS

theorem finishRun_sound {d : Dev} (hS : Sound d) (p : LPort) (r : RingNo) (aux : Nat) : Sound (finishRun d p r aux) := (finishRun_kept (Kept.refl d) p r aux).sound hS

theorem checkError_sound {d : Dev} (hS : Sound d) (p : LPort) (r : RingNo) : Sound (checkError d p r) := (checkError_kept (Kept.refl d) p r).sound hS

theorem runColl_sound {d : Dev} (hS : Sound d) (c : Cfg) (p : LPort) (r : RingNo) (x : Run) : Sound (runColl c d p r x) := (runColl_kept (Kept.refl d) c p r x).sound hS

theorem admitColl_sound {d : Dev} (hS : Sound d) (c : Cfg) (p : LPort) (r : RingNo) (kind op : Nat) : Sound (admitColl c d p r kind op) := (admitColl_kept (Kept.refl d) c p r kind op).sound hS

theorem runYardLoad_sound {d : Dev} (hS : Sound d) (c : Cfg) (p : LPort) (r : RingNo) (x : Run) : Sound (runYardLoad c d p r x) := (runYardLoad_kept (Kept.refl d) c p r x).sound hS

theorem clearWords_sound {d : Dev} (hS : Sound d) (c : Cfg) (t : Tenant) (desc : Desc) (f : Nat → Bool) : Sound (clearWords c d t desc f) := (clearWords_kept (Kept.refl d) c t desc f).sound hS

theorem runFlush_sound {d : Dev} (hS : Sound d) (c : Cfg) (p : LPort) (r : RingNo) (x : Run) : Sound (runFlush c d p r x) := (runFlush_kept (Kept.refl d) c p r x).sound hS

theorem stepPegOp_sound {d : Dev} (hS : Sound d) (c : Cfg) (p : LPort) (r : RingNo) (pop : Nat) : Sound (stepPegOp c d p r pop) := (stepPegOp_kept (Kept.refl d) c p r pop).sound hS

theorem pegRow_sound {d : Dev} (hS : Sound d) (c : Cfg) (p : LPort) (r : RingNo) (pop : Nat) : Sound (pegRow c d p r pop) := (pegRow_kept (Kept.refl d) c p r pop).sound hS

theorem runBarrier_sound {d : Dev} (hS : Sound d) (c : Cfg) (p : LPort) (r : RingNo) (x : Run) : Sound (runBarrier c d p r x) := (runBarrier_kept (Kept.refl d) c p r x).sound hS

theorem pumpTenant_sound {d : Dev} (hS : Sound d) (c : Cfg) (t : Tenant) : Sound (pumpTenant c d t) := (pumpTenant_kept (Kept.refl d) c t).sound hS

theorem pressStage_sound {d : Dev} (hS : Sound d) (c : Cfg) (t : Tenant) (coll : W16) : Sound (pressStage c d t coll) := (pressStage_kept (Kept.refl d) c t coll).sound hS

theorem sieveStage_sound {d : Dev} (hS : Sound d) (c : Cfg) (t : Tenant) (coll : W16) : Sound (sieveStage c d t coll) := (sieveStage_kept (Kept.refl d) c t coll).sound hS

theorem contribTimeout_sound {d : Dev} (hS : Sound d) (t : Tenant) (coll : W16) : Sound (contribTimeout d t coll) := (contribTimeout_kept (Kept.refl d) t coll).sound hS

theorem pegMsg_sound {d : Dev} (hS : Sound d) (c : Cfg) (i : TPort) (f : TrlFrame) (pmsg : Nat) : Sound (pegMsg c d i f pmsg) := (pegMsg_kept (Kept.refl d) c i f pmsg).sound hS

theorem replyMsg_sound {d : Dev} (hS : Sound d) (c : Cfg) (i : TPort) (f : TrlFrame) (rmsg : Nat) : Sound (replyMsg c d i f rmsg) := (replyMsg_kept (Kept.refl d) c i f rmsg).sound hS

theorem barrierAlone_sound {d : Dev} (hS : Sound d) (c : Cfg) (p : LPort) (r : RingNo) (a : Option Arrival) : Sound (barrierAlone c d p r a) := (barrierAlone_kept (Kept.refl d) c p r a).sound hS

theorem withdrawArrival_sound {d : Dev} (hS : Sound d) (c : Cfg) (a : Arrival) : Sound (withdrawArrival c d a) := (withdrawArrival_kept (Kept.refl d) c a).sound hS

theorem barrierTimeout_sound {d : Dev} (hS : Sound d) (c : Cfg) (p : LPort) (r : RingNo) : Sound (barrierTimeout c d p r) := (barrierTimeout_kept (Kept.refl d) c p r).sound hS

theorem completeLine_sound {d : Dev} (hS : Sound d) (c : Cfg) : Sound (completeLine c d) := (completeLine_kept (Kept.refl d) c).sound hS

theorem lineTimeout_sound {d : Dev} (hS : Sound d) (c : Cfg) : Sound (lineTimeout c d) := (lineTimeout_kept (Kept.refl d) c).sound hS

theorem recNote_sound {d : Dev} (hS : Sound d) (f : TrlFrame) : Sound (recNote d f) := (recNote_kept (Kept.refl d) f).sound hS

theorem drainComplete_sound {d : Dev} (hS : Sound d) (c : Cfg) : Sound (drainComplete c d) := (drainComplete_kept (Kept.refl d) c).sound hS

theorem changeDone_sound {d : Dev} (hS : Sound d) (c : Cfg) : Sound (changeDone c d) := (changeDone_kept (Kept.refl d) c).sound hS

theorem faultDue_sound {d : Dev} (hS : Sound d) (cls port : Nat) : Sound (faultDue d cls port) := (faultDue_kept (Kept.refl d) cls port).sound hS

theorem hitRun_sound {d : Dev} (hS : Sound d) (e : LPort × RingNo) : Sound (hitRun d e) := (hitRun_kept (Kept.refl d) e).sound hS

theorem hitInst_sound {d : Dev} (hS : Sound d) (x : Inst) : Sound (hitInst d x) := (hitInst_kept (Kept.refl d) x).sound hS

theorem spoolError_sound {d : Dev} (hS : Sound d) (c : Cfg) (addr : Nat) : Sound (spoolError c d addr) := (spoolError_kept (Kept.refl d) c addr).sound hS

theorem yardError_sound {d : Dev} (hS : Sound d) (c : Cfg) (addr : Nat) : Sound (yardError c d addr) := (yardError_kept (Kept.refl d) c addr).sound hS

theorem applyMark_sound {d : Dev} (hS : Sound d) (c : Cfg) (p : LPort) (r : RingNo) (m : SigMark) : Sound (applyMark c d p r m) := (applyMark_kept (Kept.refl d) c p r m).sound hS

theorem applyMarks_sound {d : Dev} (hS : Sound d) (c : Cfg) (p : LPort) (n : Nat) : Sound (applyMarks c p n d) := (applyMarks_kept (Kept.refl d) c p n).sound hS

theorem countSent_sound {d : Dev} (hS : Sound d) (i : TPort) (it : TrlItem) : Sound (countSent d i it) := (countSent_kept (Kept.refl d) i it).sound hS

theorem afterRecord_sound {d : Dev} (hS : Sound d) (c : Cfg) (p : LPort) (r : RingNo) (x : Run) : Sound (afterRecord c d p r x) := (afterRecord_kept (Kept.refl d) c p r x).sound hS

theorem settleHeader_sound {d : Dev} (hS : Sound d) (c : Cfg) (p : LPort) (r : RingNo) (bs : List Byte) : Sound (settleHeader c d p r bs) := (settleHeader_kept (Kept.refl d) c p r bs).sound hS

theorem fenceAdopt_sound {d : Dev} (hS : Sound d) (c : Cfg) (p : LPort) (r : RingNo) : Sound (fenceAdopt c d p r) := (fenceAdopt_kept (Kept.refl d) c p r).sound hS

theorem sendControl_sound {d : Dev} (hS : Sound d) (i : TPort) (f : TrlFrame) : Sound (sendControl d i f) := (sendControl_kept (Kept.refl d) i f).sound hS

theorem leaveDown_sound {d : Dev} (hS : Sound d) (c : Cfg) (p : LPort) (r : RingNo) : Sound (leaveDown c d p r) := (leaveDown_kept (Kept.refl d) c p r).sound hS

theorem lemCredits_sound {d : Dev} (h : Sound d) (p : LPort) (bs : List Byte) : Sound (lemCredits d p bs) := by
  unfold lemCredits
  try dsimp only
  repeat' first
    | with_reducible assumption
    | with_reducible refine modP_sound ?_ _ ?_ ?_
    | exact fun _ m => m

theorem lemReplay_sound {d d' : Dev} (h : Sound d) (p : LPort) {asked : Bool} (e : lemReplay d p asked = some d') : Sound d' := by
  unfold lemReplay at e
  split at e
  · cases e
    exact (bumpLem_kept (Kept.refl _) p 5).sound (modPAt_sound h p rfl (darnReplay_sound (h.links.1 p) ‹_›))
  · cases e

theorem setLemDarn_sound {d : Dev} (h : Sound d) (p : LPort) {dn : Darn LemTx} (hd : darnSound dn) : Sound (modP d p fun x => { x with darn := dn }) :=
  modPAt_sound h p rfl hd

theorem lemDarn_of {d : Dev} (h : Sound d) (p : LPort) : darnSound d.lem[p].darn := h.links.1 p

theorem lemBad_sound {d : Dev} (h : Sound d) (p : LPort) : Sound (lemBad d p) := by
  unfold lemBad
  exact modP_sound (bumpLem_sound h p 4) p (fun _ m => m) (fun _ m => wantNack_sound m)

theorem lemAccept_sound {d : Dev} (h : Sound d) (p : LPort) (bs : List Byte) : Sound (lemAccept d p bs) := by
  unfold lemAccept
  have e := modP_sound (bumpLem_sound h p 1) p (f := fun x => let v := Fin.ofNat 4 (byteAt bs 1); { x with credit := x.credit.set v (creditTake x.credit[v]) }) (fun _ m => m) (fun _ m => m)
  exact ite_sound e (lemDiscard_sound e p)

theorem lemAct_sound {d : Dev} (h : Sound d) (p : LPort) (bs : List Byte) (a : RxAct) : Sound (lemAct d p bs a) := by
  unfold lemAct
  split
  · exact lemAccept_sound h p bs
  · exact ite_sound h (lemDiscard_sound h p)
  · exact h

theorem lemAsked_sound {d : Dev} (h : Sound d) (p : LPort) (ask : Bool) : Sound (lemAsked d p ask).1 := by
  unfold lemAsked
  split
  · split
    · exact lemReplay_sound h p ‹_›
    · exact h
  · exact h

theorem lemUncount_sound {d : Dev} (h : Sound d) (p : LPort) (t : Tail) : Sound (lemUncount d p t) :=
  ite_sound (modP_sound h p (fun _ m => m) fun _ m => m) h

theorem lemGood_sound {d : Dev} (h : Sound d) (p : LPort) (bs : List Byte) : Sound (lemGood d p bs).1 := by
  unfold lemGood lemTold
  replace h := lemUncount_sound h p (parseTail bs)
  have ha := applyTail_sound (lemDarn_of h p) (parseTail bs)
  exact lemAsked_sound (lemAct_sound (setLemDarn_sound (lemCredits_sound (setLemDarn_sound h p ha) p bs) p (darnRx_sound ha true _)) p bs _) p _

theorem lemRx_sound {d : Dev} (h : Sound d) (p : LPort) (bs : List Byte) (fecFixed : Bool) : Sound (lemRx d p bs fecFixed).1 := by
  unfold lemRx
  split
  · exact h
  · split
    · exact lemBad_sound h p
    · exact lemGood_sound (ite_sound (bumpLem_sound h p 3) h) p bs

theorem trlCredit_sound {d : Dev} (h : Sound d) (i : TPort) (bs : List Byte) : Sound (trlCredit d i bs) := by
  unfold trlCredit
  try dsimp only
  repeat' first
    | with_reducible assumption
    | with_reducible refine modT_sound ?_ _ ?_
    | exact fun _ m => m

theorem trlReplay_sound {d d' : Dev} (h : Sound d) (i : TPort) {asked : Bool} (e : trlReplay d i asked = some d') : Sound d' := by
  unfold trlReplay at e
  split at e
  · cases e
    exact (bumpTrl_kept (Kept.refl _) i 5).sound (modTAt_sound h i (darnReplay_sound (h.links.2 i) ‹_›))
  · cases e

theorem setTrlDarn_sound {d : Dev} (h : Sound d) (i : TPort) {dn : Darn TrlFrame} (hd : darnSound dn) : Sound (modT d i fun x => { x with darn := dn }) :=
  modTAt_sound h i hd

theorem trlDarn_of {d : Dev} (h : Sound d) (i : TPort) : darnSound d.trl[i].darn := h.links.2 i

theorem trlBad_sound {d : Dev} (h : Sound d) (i : TPort) : Sound (trlBad d i) := by
  unfold trlBad
  exact modT_sound (bumpTrl_sound h i 4) i (fun _ m => wantNack_sound m)

theorem trlAccept_sound {d : Dev} (h : Sound d) (i : TPort) (bs : List Byte) : Sound (trlAccept d i bs) := by
  unfold trlAccept
  have e := modT_sound (bumpTrl_sound h i 1) i (f := fun x => let v := fin8 (byteAt bs 1 % 8); { x with credit := x.credit.set v (creditTake x.credit[v]) }) (fun _ m => m)
  exact ite_sound e (trlDiscard_sound e i)

theorem trlAct_sound {d : Dev} (h : Sound d) (i : TPort) (bs : List Byte) (a : RxAct) : Sound (trlAct d i bs a) := by
  unfold trlAct
  split
  · exact trlAccept_sound h i bs
  · exact ite_sound h (trlDiscard_sound h i)
  · exact h

theorem trlAsked_sound {d : Dev} (h : Sound d) (i : TPort) (ask : Bool) : Sound (trlAsked d i ask).1 := by
  unfold trlAsked
  split
  · split
    · exact trlReplay_sound h i ‹_›
    · exact h
  · exact h

theorem trlUncount_sound {d : Dev} (h : Sound d) (i : TPort) (t : Tail) : Sound (trlUncount d i t) :=
  ite_sound (modT_sound h i fun _ m => m) h

theorem trlGood_sound {d : Dev} (h : Sound d) (i : TPort) (bs : List Byte) : Sound (trlGood d i bs).1 := by
  unfold trlGood trlTold
  replace h := trlUncount_sound h i (parseTail bs)
  have ha := applyTail_sound (trlDarn_of h i) (parseTail bs)
  exact trlAsked_sound (trlAct_sound (setTrlDarn_sound (trlCredit_sound (setTrlDarn_sound h i ha) i bs) i (darnRx_sound ha true _)) i bs _) i _

theorem trlRx_sound {d : Dev} (h : Sound d) (i : TPort) (bs : List Byte) (fecFixed : Bool) : Sound (trlRx d i bs fecFixed).1 := by
  unfold trlRx
  split
  · exact h
  · split
    · exact trlBad_sound h i
    · exact trlGood_sound (ite_sound (bumpTrl_sound h i 3) h) i bs

theorem modSow_sound {d : Dev} (h : Sound d) (f : Sow → Sow) : Sound (modSow d f) := by
  unfold modSow
  try dsimp only
  repeat' first
    | with_reducible assumption
    | exact fun _ m => m
    | exact fun _ _ => darnSound_init
    | exact fun _ _ => rfl
    | (intro _ _ _)
    | split
    | refine misc_sound ?_ _ _ _ _ _ _ _ _ rfl

theorem setStop_sound {d : Dev} (h : Sound d) (s : Stop) (mask : W16) (pos : Option Pos) (port : Byte) (ref : Option (List (BitVec 4))) : Sound (setStop d s mask pos port ref) := by
  unfold setStop
  try dsimp only
  repeat' first
    | with_reducible assumption
    | with_reducible refine modP_sound ?_ _ ?_ ?_
    | with_reducible refine modS_sound ?_ _
    | with_reducible refine each_sound ?_ _ ?_
    | exact fun _ m => m
    | exact fun _ _ => darnSound_init
    | exact fun _ _ => rfl
    | with_reducible refine ite_sound ?_ ?_
    | (intro _ _ _)
    | refine misc_sound ?_ _ _ _ _ _ _ _ _ rfl

theorem earlyStop_sound {d : Dev} (h : Sound d) (s : Stop) (mask : W16) : Sound (earlyStop d s mask) := by
  unfold earlyStop
  try dsimp only
  repeat' first
    | with_reducible assumption
    | with_reducible apply setStop_sound
    | with_reducible refine modT_sound ?_ _ ?_
    | with_reducible refine each_sound ?_ _ ?_
    | exact fun _ m => m
    | exact fun _ _ => darnSound_init
    | exact fun _ _ => rfl
    | with_reducible refine ite_sound ?_ ?_
    | (intro _ _ _)

theorem detectStop_sound {d : Dev} (h : Sound d) (c : Cfg) (s : Stop) (mask : W16) (pos : Option Pos) (ref : Option (List (BitVec 4))) : Sound (detectStop c d s mask pos ref) := by
  unfold detectStop
  try dsimp only
  repeat' first
    | with_reducible assumption
    | with_reducible apply sowFlood_sound
    | with_reducible apply setStop_sound
    | with_reducible apply stopCodes_sound
    | refine stopCodes_spair ?_ (by with_reducible assumption)
    | exact fun _ m => m
    | exact fun _ _ => darnSound_init
    | exact fun _ _ => rfl
    | with_reducible refine ite_sound ?_ ?_

theorem sowStop_sound {d : Dev} (h : Sound d) (c : Cfg) (s : Stop) (mask : W16) : Sound (sowStop c d s mask) := by
  unfold sowStop
  try dsimp only
  repeat' first
    | with_reducible assumption
    | with_reducible apply detectStop_sound

theorem form_sound {d : Dev} (h : Sound d) (c : Cfg)  : Sound (form c d) := by
  unfold form
  try dsimp only
  repeat' first
    | with_reducible assumption
    | with_reducible apply modSow_sound
    | with_reducible apply assertLines_sound
    | with_reducible refine modT_sound ?_ _ ?_
    | with_reducible refine each_sound ?_ _ ?_
    | exact fun _ m => m
    | exact fun _ _ => darnSound_init
    | exact fun _ _ => rfl
    | with_reducible refine ite_sound ?_ ?_
    | (intro _ _ _)

theorem rollOn_sound {d : Dev} (h : Sound d) (c : Cfg) (ax r : Nat) : Sound (rollOn c d ax r) := by
  unfold rollOn
  try dsimp only
  repeat' first
    | with_reducible assumption
    | with_reducible apply modSow_sound
    | with_reducible apply sendRoll_sound
    | with_reducible refine each_sound ?_ _ ?_
    | exact fun _ m => m
    | exact fun _ _ => darnSound_init
    | exact fun _ _ => rfl
    | (intro _ _ _)

theorem finishRoll_sound {d : Dev} (h : Sound d) (c : Cfg) (count : Nat) : Sound (finishRoll c d count) := by
  unfold finishRoll
  try dsimp only
  repeat' first
    | with_reducible assumption
    | with_reducible apply sowFlood_sound
    | with_reducible apply sowStop_sound
    | with_reducible apply form_sound
    | exact fun _ m => m
    | exact fun _ _ => darnSound_init
    | exact fun _ _ => rfl
    | with_reducible refine ite_sound ?_ ?_

theorem advanceRoll_sound {d : Dev} (h : Sound d) (c : Cfg) (n : Nat) (a b : Nat) : Sound (advanceRoll c n d a b) := by
  induction n generalizing d a b with
  | zero => exact h
  | succ n ih =>
    unfold advanceRoll
    try dsimp only
    repeat' first
      | with_reducible assumption
      | with_reducible apply ih
      | with_reducible apply modSow_sound
      | with_reducible apply sendRoll_sound
      | with_reducible apply rollOn_sound
      | with_reducible apply finishRoll_sound
      | exact fun _ m => m
      | exact fun _ _ => darnSound_init
      | exact fun _ _ => rfl
      | with_reducible refine ite_sound ?_ ?_

theorem takeRoll_sound {d : Dev} (h : Sound d) (c : Cfg) (i : TPort) (f : TrlFrame) : Sound (takeRoll c d i f) := by
  unfold takeRoll
  try dsimp only
  repeat' first
    | with_reducible assumption
    | with_reducible apply modSow_sound
    | with_reducible apply sowStop_sound
    | with_reducible apply sendRoll_sound
    | with_reducible apply finishRoll_sound
    | with_reducible apply advanceRoll_sound
    | exact fun _ m => m
    | exact fun _ _ => darnSound_init
    | exact fun _ _ => rfl
    | with_reducible refine ite_sound ?_ ?_
    | (intro _ _ _)
    | split

theorem tryCheck_sound {d : Dev} (h : Sound d) (c : Cfg)  : Sound (tryCheck c d) := by
  unfold tryCheck
  try dsimp only
  repeat' first
    | with_reducible assumption
    | with_reducible apply modSow_sound
    | with_reducible apply advanceRoll_sound
    | exact fun _ m => m
    | exact fun _ _ => darnSound_init
    | exact fun _ _ => rfl
    | with_reducible refine ite_sound ?_ ?_

theorem checkPosition_sound {d : Dev} (h : Sound d) (c : Cfg) (i : TPort) (m : SowMsg) : Sound (checkPosition c d i m) := by
  unfold checkPosition
  try dsimp only
  repeat' first
    | with_reducible assumption
    | with_reducible apply modSow_sound
    | with_reducible apply sowStop_sound
    | with_reducible apply tryCheck_sound
    | exact fun _ m => m
    | exact fun _ _ => darnSound_init
    | exact fun _ _ => rfl
    | with_reducible refine ite_sound ?_ ?_

theorem takePosition_sound {d : Dev} (h : Sound d) (c : Cfg) (i : TPort) (f : TrlFrame) : Sound (takePosition c d i f) := by
  unfold takePosition
  try dsimp only
  repeat' first
    | with_reducible assumption
    | with_reducible apply modSow_sound
    | with_reducible apply checkPosition_sound
    | exact fun _ m => m
    | exact fun _ _ => darnSound_init
    | exact fun _ _ => rfl
    | with_reducible refine ite_sound ?_ ?_

theorem startPosition_sound {d : Dev} (h : Sound d) (c : Cfg)  : Sound (startPosition c d) := by
  unfold startPosition
  try dsimp only
  repeat' first
    | with_reducible assumption
    | with_reducible apply modSow_sound
    | with_reducible apply sowFlood_sound
    | with_reducible apply sowStop_sound
    | with_reducible apply tryCheck_sound
    | with_reducible apply checkPosition_sound
    | with_reducible refine each_sound ?_ _ ?_
    | exact fun _ m => m
    | exact fun _ _ => darnSound_init
    | exact fun _ _ => rfl
    | with_reducible refine ite_sound ?_ ?_
    | (intro _ _ _)

theorem nextLap_sound {d : Dev} (h : Sound d) (c : Cfg) (ser : BitVec 48) (n : Nat) (a : Nat) : Sound (nextLap c ser n d a) := by
  induction n generalizing d a with
  | zero => exact h
  | succ n ih =>
    unfold nextLap
    try dsimp only
    repeat' first
      | with_reducible assumption
      | with_reducible apply ih
      | with_reducible apply modSow_sound
      | with_reducible apply sowSend_sound
      | with_reducible apply sowStop_sound
      | with_reducible apply startPosition_sound
      | exact fun _ m => m
      | exact fun _ _ => darnSound_init
      | exact fun _ _ => rfl
      | with_reducible refine ite_sound ?_ ?_

theorem learnDim_sound {d : Dev} (h : Sound d) (c : Cfg) (ax n : Nat) : Sound (learnDim c d ax n) := by
  unfold learnDim
  try dsimp only
  repeat' first
    | with_reducible assumption
    | with_reducible apply modSow_sound
    | with_reducible apply sowStop_sound
    | exact fun _ m => m
    | exact fun _ _ => darnSound_init
    | exact fun _ _ => rfl
    | with_reducible refine ite_sound ?_ ?_

theorem takeSeed_sound {d : Dev} (h : Sound d) (c : Cfg) (ser : BitVec 48) (f : TrlFrame) : Sound (takeSeed c ser d f) := by
  unfold takeSeed
  try dsimp only
  repeat' first
    | with_reducible assumption
    | with_reducible apply modSow_sound
    | with_reducible apply sowSend_sound
    | with_reducible apply detectStop_sound
    | with_reducible apply sowStop_sound
    | with_reducible apply learnDim_sound
    | exact fun _ m => m
    | exact fun _ _ => darnSound_init
    | exact fun _ _ => rfl
    | with_reducible refine ite_sound ?_ ?_

theorem takeClose_sound {d : Dev} (h : Sound d) (c : Cfg) (ser : BitVec 48) (f : TrlFrame) : Sound (takeClose c ser d f) := by
  unfold takeClose
  try dsimp only
  repeat' first
    | with_reducible assumption
    | with_reducible apply sowSend_sound
    | with_reducible apply nextLap_sound
    | with_reducible apply learnDim_sound
    | exact fun _ m => m
    | exact fun _ _ => darnSound_init
    | exact fun _ _ => rfl
    | with_reducible refine ite_sound ?_ ?_

theorem takeSowHello_sound {d : Dev} (h : Sound d) (c : Cfg) (i : TPort) (f : TrlFrame) : Sound (takeSowHello c d i f) := by
  unfold takeSowHello
  try dsimp only
  repeat' first
    | with_reducible assumption
    | with_reducible apply sowStop_sound
    | with_reducible apply sendControl_sound
    | with_reducible refine each_sound ?_ _ ?_
    | (intro _ _ _)
    | with_reducible refine modT_sound ?_ _ ?_
    | exact fun _ m => m
    | exact fun _ _ => darnSound_init
    | exact fun _ _ => rfl
    | with_reducible refine ite_sound ?_ ?_

theorem takeReference_sound {d : Dev} (h : Sound d) (c : Cfg) (ser : BitVec 48) (i : TPort) (f : TrlFrame) : Sound (takeReference c ser d i f) := by
  unfold takeReference
  try dsimp only
  repeat' first
    | with_reducible assumption
    | with_reducible apply modSow_sound
    | with_reducible apply sowFlood_sound
    | with_reducible apply sowStop_sound
    | exact fun _ m => m
    | exact fun _ _ => darnSound_init
    | exact fun _ _ => rfl
    | with_reducible refine ite_sound ?_ ?_

theorem takeFormed_sound {d : Dev} (h : Sound d) (c : Cfg) (i : TPort) (f : TrlFrame) : Sound (takeFormed c d i f) := by
  unfold takeFormed
  try dsimp only
  repeat' first
    | with_reducible assumption
    | with_reducible apply sowFlood_sound
    | with_reducible apply form_sound
    | exact fun _ m => m
    | exact fun _ _ => darnSound_init
    | exact fun _ _ => rfl
    | with_reducible refine ite_sound ?_ ?_

theorem takeStop_sound {d : Dev} (h : Sound d) (c : Cfg) (i : TPort) (f : TrlFrame) : Sound (takeStop c d i f) := by
  unfold takeStop
  try dsimp only
  repeat' first
    | with_reducible assumption
    | with_reducible apply sowFlood_sound
    | with_reducible apply setStop_sound
    | exact fun _ m => m
    | exact fun _ _ => darnSound_init
    | exact fun _ _ => rfl
    | with_reducible refine ite_sound ?_ ?_
    | (intro _ _ _)
    | split

theorem sowAct_sound {d : Dev} (h : Sound d) (c : Cfg) (ser : BitVec 48) (i : TPort) (f : TrlFrame) : Sound (sowAct c ser d i f) := by
  unfold sowAct
  try dsimp only
  repeat' first
    | with_reducible assumption
    | with_reducible apply takeRoll_sound
    | with_reducible apply takePosition_sound
    | with_reducible apply takeSeed_sound
    | with_reducible apply takeClose_sound
    | with_reducible apply takeSowHello_sound
    | with_reducible apply takeReference_sound
    | with_reducible apply takeFormed_sound
    | with_reducible apply takeStop_sound
    | exact fun _ m => m
    | exact fun _ _ => darnSound_init
    | exact fun _ _ => rfl
    | with_reducible refine ite_sound ?_ ?_
    | (intro _ _ _)
    | split

theorem tryStep10_sound {d : Dev} (h : Sound d) (c : Cfg) (ser : BitVec 48)  : Sound (tryStep10 c ser d) := by
  unfold tryStep10
  try dsimp only
  repeat' first
    | with_reducible assumption
    | with_reducible apply modSow_sound
    | with_reducible apply sowFlood_sound
    | with_reducible apply sowStop_sound
    | with_reducible apply form_sound
    | with_reducible apply nextLap_sound
    | with_reducible apply sowAct_sound
    | with_reducible refine each_sound ?_ _ ?_
    | exact fun _ m => m
    | exact fun _ _ => darnSound_init
    | exact fun _ _ => rfl
    | with_reducible refine ite_sound ?_ ?_
    | (intro _ _ _)

theorem sowFrame_sound {d : Dev} (h : Sound d) (c : Cfg) (ser : BitVec 48) (i : TPort) (f : TrlFrame) (kind : Nat) : Sound (sowFrame c ser d i f kind) := by
  unfold sowFrame
  try dsimp only
  repeat' first
    | with_reducible assumption
    | with_reducible apply modSow_sound
    | with_reducible apply sowAct_sound
    | exact fun _ m => m
    | exact fun _ _ => darnSound_init
    | exact fun _ _ => rfl
    | with_reducible refine ite_sound ?_ ?_

theorem referenceDeadline_sound {d : Dev} (h : Sound d) (c : Cfg)  : Sound (referenceDeadline c d) := by
  unfold referenceDeadline
  try dsimp only
  repeat' first
    | with_reducible assumption
    | with_reducible apply detectStop_sound
    | with_reducible apply sowStop_sound
    | exact fun _ m => m
    | exact fun _ _ => darnSound_init
    | exact fun _ _ => rfl
    | with_reducible refine ite_sound ?_ ?_

theorem lemUp_sound {d : Dev} (h : Sound d) (p : LPort) (mode : Nat) : Sound (lemUp d p mode) := by
  unfold lemUp
  try dsimp only
  repeat' first
    | with_reducible assumption
    | with_reducible refine modP_sound ?_ _ ?_ ?_
    | exact fun _ m => m
    | exact fun _ _ => darnSound_init

theorem lemDown_sound {d : Dev} (h : Sound d) (c : Cfg) (p : LPort) : Sound (lemDown c d p) := by
  unfold lemDown
  try dsimp only
  repeat' first
    | with_reducible assumption
    | with_reducible apply bumpLem_sound
    | with_reducible apply tryArrivals_sound
    | with_reducible apply placeHeld_sound
    | with_reducible apply releaseHold_sound
    | with_reducible apply leaveDown_sound
    | with_reducible apply leaveInst_sound
    | (intro _ _ _)
    | with_reducible apply raiseOwn_sound
    | with_reducible apply leaveArrivals_sound
    | with_reducible refine modP_sound ?_ _ ?_ ?_
    | with_reducible refine modS_sound ?_ _
    | with_reducible refine each_sound ?_ _ ?_
    | exact fun _ m => m
    | exact fun _ _ => darnSound_init
    | exact fun _ _ => rfl
    | with_reducible refine ite_sound ?_ ?_

theorem trlLinkUp_sound {d : Dev} (h : Sound d) (i : TPort) (h v : List Byte) : Sound (trlLinkUp d i h v) := by
  unfold trlLinkUp
  try dsimp only
  repeat' first
    | with_reducible assumption
    | with_reducible refine modT_sound ?_ _ ?_
    | exact fun _ m => m
    | exact fun _ _ => darnSound_init

theorem trlDown_sound {d : Dev} (h : Sound d) (c : Cfg) (i : TPort) (reason : Byte) (lost : Bool) : Sound (trlDown c d i reason lost) := by
  unfold trlDown
  try dsimp only
  repeat' first
    | with_reducible assumption
    | with_reducible apply addCauseAll_sound
    | with_reducible apply bumpTrl_sound
    | with_reducible apply raiseFault_sound
    | with_reducible apply sowStop_sound
    | with_reducible refine modT_sound ?_ _ ?_
    | exact fun _ m => m
    | exact fun _ _ => darnSound_init
    | exact fun _ _ => rfl
    | with_reducible refine ite_sound ?_ ?_

theorem trlRetryDown_sound {d : Dev} (h : Sound d) (c : Cfg) (i : TPort) : Sound (trlRetryDown c d i) := by
  unfold trlRetryDown
  try dsimp only
  repeat' first
    | with_reducible assumption
    | with_reducible apply trlDown_sound
    | with_reducible refine modT_sound ?_ _ ?_
    | exact fun _ m => m
    | exact fun _ _ => darnSound_init
    | exact fun _ _ => rfl
    | with_reducible refine ite_sound ?_ ?_

theorem writePage_sound {d : Dev} (h : Sound d) (hk : Hk) (c : Cfg) (p : LPort) : Sound (writePage hk c d p).2 := by
  unfold writePage
  try dsimp only
  repeat' first
    | with_reducible assumption
    | with_reducible apply pushTx_sound
    | with_reducible apply draw_sound
    | refine draw_spair ?_ (by with_reducible assumption)
    | with_reducible refine modP_sound ?_ _ ?_ ?_
    | with_reducible refine modS_sound ?_ _
    | exact fun _ m => m

theorem writePage_spair {d d' : Dev} (h : Sound d) {q : Hk} (hk : Hk) (c : Cfg) (p : LPort) (e : writePage hk c d p = (q, d')) : Sound d' := by
  have := writePage_sound h hk c p
  rwa [e] at this

theorem freshDev_sound (d : Dev) (reason : Byte) : Sound (freshDev d reason) := by
  refine ⟨⟨rfl, rfl, rfl, fun p => ?_⟩, fun p => ?_, fun i => ?_⟩
  · simp [freshDev, Dev.reset, LemPort.reset, spWf, spWfFrom]
  · have : (freshDev d reason).lem[p].darn = Darn.init := by simp [freshDev, Dev.reset, LemPort.reset]
    rw [this]; exact darnSound_init
  · have : (freshDev d reason).trl[i].darn = Darn.init := by simp [freshDev, TrlPort.reset]
    rw [this]; exact darnSound_init

theorem haltDev_sound (d : Dev) : Sound (haltDev d) :=
  misc_sound (freshDev_sound d 2) _ _ _ _ _ _ _ _ rfl

theorem startTraining_sound {d : Dev} (h : Sound d) (c : Cfg)  : Sound (startTraining c d) := by
  unfold startTraining
  try dsimp only
  repeat' first
    | with_reducible assumption
    | with_reducible refine modP_sound ?_ _ ?_ ?_
    | with_reducible refine modT_sound ?_ _ ?_
    | with_reducible refine modS_sound ?_ _
    | with_reducible refine each_sound ?_ _ ?_
    | exact fun _ m => m
    | exact fun _ _ => darnSound_init
    | exact fun _ _ => rfl
    | with_reducible refine ite_sound ?_ ?_
    | (intro _ _ _)

theorem startPort_sound {d : Dev} (h : Sound d) (hk : Hk) (c : Cfg) (p : LPort) : Sound (startPort hk c d p).2 := by
  unfold startPort
  try dsimp only
  repeat' first
    | with_reducible assumption
    | with_reducible apply addCause_sound
    | with_reducible apply readHeader_sound
    | with_reducible apply writePage_sound
    | refine writePage_spair ?_ (by with_reducible assumption)
    | with_reducible refine modP_sound ?_ _ ?_ ?_
    | with_reducible refine modS_sound ?_ _
    | with_reducible refine each_sound ?_ _ ?_
    | exact fun _ m => m
    | exact fun _ _ => darnSound_init
    | exact fun _ _ => rfl
    | with_reducible refine ite_sound ?_ ?_
    | (intro _ _ _)

theorem startPort_spair {d d' : Dev} (h : Sound d) {q : Hk} (hk : Hk) (c : Cfg) (p : LPort) (e : startPort hk c d p = (q, d')) : Sound d' := by
  have := startPort_sound h hk c p
  rwa [e] at this

theorem backToDetect_sound {d : Dev} (h : Sound d) (p : LPort) : Sound (backToDetect d p) := by
  unfold backToDetect
  try dsimp only
  repeat' first
    | with_reducible assumption
    | with_reducible refine modP_sound ?_ _ ?_ ?_
    | exact fun _ m => m
    | exact fun _ _ => darnSound_init
    | exact fun _ _ => rfl
    | with_reducible refine ite_sound ?_ ?_

theorem takeHello_sound {d : Dev} (h : Sound d) (c : Cfg) (p : LPort) (m : HelloMsg) : Sound (takeHello c d p m) := by
  unfold takeHello
  try dsimp only
  repeat' first
    | with_reducible assumption
    | with_reducible apply pushTx_sound
    | with_reducible refine modP_sound ?_ _ ?_ ?_
    | exact fun _ m => m

theorem completeHello_sound {d : Dev} (h : Sound d) (c : Cfg) (p : LPort) (cores result : Nat) : Sound (completeHello c d p cores result) := by
  unfold completeHello
  try dsimp only
  repeat' first
    | with_reducible assumption
    | with_reducible apply tryArrivals_sound
    | with_reducible apply placeHeld_sound
    | with_reducible apply epilogue_sound
    | with_reducible refine modP_sound ?_ _ ?_ ?_
    | with_reducible refine modS_sound ?_ _
    | exact fun _ m => m
    | exact fun _ _ => darnSound_init
    | exact fun _ _ => rfl
    | with_reducible refine ite_sound ?_ ?_

theorem countHand_sound {d : Dev} (h : Sound d)  : Sound (countHand d) := by
  unfold countHand
  try dsimp only
  repeat' first
    | with_reducible assumption
    | exact fun _ m => m
    | exact fun _ _ => darnSound_init
    | exact fun _ _ => rfl
    | with_reducible refine ite_sound ?_ ?_
    | (intro _ _ _)
    | split
    | refine misc_sound ?_ _ _ _ _ _ _ _ _ rfl

theorem handPeg_sound {d : Dev} (h : Sound d) (c : Cfg) (hspace : BitVec 2) (hpeg : W16) (pop : Nat) (f : W16 → W16) : Sound (handPeg c d hspace hpeg pop f) := by
  unfold handPeg
  try dsimp only
  repeat' first
    | with_reducible assumption
    | with_reducible apply poolWrite_sound
    | with_reducible apply epilogue_sound
    | with_reducible apply countHand_sound
    | with_reducible refine modP_sound ?_ _ ?_ ?_
    | exact fun _ m => m
    | exact fun _ m => spWf_write _ _ m
    | exact fun _ _ => darnSound_init
    | exact fun _ _ => rfl
    | with_reducible refine ite_sound ?_ ?_

theorem darnSound_clearDue {α : Type} {dn : Darn α} (h : darnSound dn) : darnSound (clearDue dn) := darnSound_of_eq h rfl rfl rfl

theorem lemFirst_sound {x : LemPort} (h : darnSound x.darn) (room : darnRoom x.darn = true) (hr : x.darn.replay = []) (held : Nat → Bool) (p : LPort) (v : Fin 4) (it : TxItem) :
    darnSound (lemFirst held p x v it).1.darn ∧ (lemFirst held p x v it).1.pocket = x.pocket := by
  unfold lemFirst
  dsimp only
  split
  · exact ⟨h, rfl⟩
  · exact ⟨darnSend_sound (darnSound_clearDue h) room hr _, rfl⟩

/-- Where a frame is picked, Darn has room for it. -/
theorem room_of_pick {α : Type} {r : Bool} {o : Option α} {v : α} (e : (if r = true then o else none) = some v) : r = true := by
  cases r with
  | true => rfl
  | false => cases e

/-- A port that sends a frame for the first time has no replay under way, and Darn has room (R234, R235). -/
theorem nextLem_room {held : Nat → Bool} {x : LemPort} {v : Fin 4 × TxItem} (e : nextLem held x = some v) : darnRoom x.darn = true ∧ x.darn.replay = [] := by
  have h := room_of_pick e
  simp only [Bool.and_eq_true, List.isEmpty_iff] at h
  exact ⟨h.2, h.1⟩

theorem putLem_sound {d : Dev} (h : Sound d) (held : Nat → Bool) (p : LPort) (v : Fin 4) (it : TxItem)
    (hn : darnRoom d.lem[p].darn = true ∧ d.lem[p].darn.replay = []) : Sound (putLem held d p v it) := by
  have hf := lemFirst_sound (h.links.1 p) hn.1 hn.2 held p v it
  exact bumpLem_sound (modPAt_sound h p hf.2 hf.1) p 0

theorem tickLem_sound {d : Dev} (h : Sound d) (c : Cfg) (p : LPort) : Sound (tickLem c d p) := by
  unfold tickLem
  dsimp only
  split
  · exact h
  · have h1 : Sound (applyMarks c p d.lem[p].txq.length d) := applyMarks_sound h c p _
    revert h1
    generalize applyMarks c p d.lem[p].txq.length d = d1
    intro h1
    split
    · rename_i n f rest e
      exact modPAt_sound h1 p rfl (replayTail_sound (darnSound_clearDue (h1.links.1 p)) (by exact e))
    · rename_i e
      split
      · rename_i v it e2
        have h2 := putLem_sound h1 (heldStream c d1 p) p v it (nextLem_room e2)
        repeat' first
          | with_reducible assumption
          | with_reducible apply completeHello_sound
          | split
      · exact modP_sound h1 p (fun _ m => m) fun _ m => darnSound_clearDue m

theorem tickTrl_sound {d : Dev} (h : Sound d) (i : TPort) : Sound (tickTrl d i) := by
  unfold tickTrl
  dsimp only
  split
  · exact modT_sound (draw_sound h) i fun _ m => m
  · split
    · exact h
    · split
      · rename_i n f rest e
        exact modTAt_sound h i (replayTail_sound (darnSound_clearDue (h.links.2 i)) (by exact e))
      · rename_i e
        have hy : darnSound (freeSlots d i d.trl[i]).darn := h.links.2 i
        split
        · rename_i it n e2
          refine bumpTrl_sound (countSent_sound (modTAt_sound h i ?_) i it) i 0
          exact darnSend_sound (darnSound_clearDue hy) (room_of_pick e2) (by exact e) _
        · exact modTAt_sound h i (darnSound_clearDue hy)

theorem tickDev_sound {d : Dev} (h : Sound d) (c : Cfg)  : Sound (tickDev c d) := by
  unfold tickDev
  try dsimp only
  repeat' first
    | with_reducible assumption
    | with_reducible apply epilogue_sound
    | with_reducible apply tickLem_sound
    | with_reducible apply tickTrl_sound
    | with_reducible refine each_sound ?_ _ ?_
    | exact fun _ m => m
    | exact fun _ _ => darnSound_init
    | exact fun _ _ => rfl
    | (intro _ _ _)

end Sys2Proof.Machine
end

