-- ==== Sys2Proof/Laws/SoundRows.lean ====
section
/-! SUPPORT. One lemma for each command: it keeps the unit sound (canonical storage, and Darn's books within their window). -/
namespace Sys2Proof.Machine
open Sys2Proof

theorem onDev_sound {s t : State} {f : Dev → Dev} (e : onDev s f = .next t) (h : Sound s.dev) (hf : Sound s.dev → Sound (f s.dev)) : Sound t.dev := by
  unfold onDev at e
  split at e <;> cases e
  · exact hf h
  · exact h

theorem option_sound {o : Option Dev} {b : Dev} (ho : ∀ d, o = some d → Sound d) (hb : Sound b) :
    Sound (match o with | some d => d | none => b) := by
  cases o with
  | none => exact hb
  | some d => exact ho d rfl

theorem admitWhen_sound {d : Dev} (h : Sound d) (c : Cfg) (p : LPort) (r : RingNo) (ok : Desc → Bool) {act : Dev → Run → Dev}
    (ha : ∀ d x, Sound d → Sound (act d x)) : Sound (admitWhen c d p r ok act) := by
  unfold admitWhen
  split
  · split
    · dsimp only
      have ha2 := admitHead_sound h c p r
      revert ha2
      generalize admitHead c d p r = D
      intro ha2
      split
      · exact epilogue_sound (ha _ _ ha2) _
      · exact ha2
    · exact h
  · exact h

theorem recovRow_sound {d : Dev} (h : Sound d) (c : Cfg) (i : TPort) (f : TrlFrame) (rkind : Nat) {act : Dev → Dev} (ha : ∀ d, Sound d → Sound (act d)) :
    Sound (recovRow c d i f rkind act) := by
  unfold recovRow
  split
  · exact epilogue_sound (ha _ (floodOn_sound (recNote_sound h _) _ _ _)) _
  · exact h

theorem loadTap_dev (s : State) (ir : Byte) (dr : List Bool) (drive : PinDrive) : (loadTap s ir dr drive).dev = s.dev := by
  unfold loadTap; split <;> rfl

theorem asBypass_dev (s : State) (ir : Byte) : (asBypass s ir).dev = s.dev := loadTap_dev _ _ _ _

theorem privateTap_sound {s s' : State} {ir : Byte} {dr : State → List Bool} {act : Cfg → Dev → Dev} (e : privateTap s ir dr act = .next s') (h : Sound s.dev)
    (ha : Sound (act s.cfg s.dev)) : Sound s'.dev := by
  unfold privateTap at e
  split at e <;> cases e
  · exact ha
  · rw [asBypass_dev]; exact h

theorem ite_next {s t a : State} {p : Prop} [Decidable p] (e : (Host.Outcome.next (if p then a else s) : Host.Outcome State Fault Refusal) = .next t) (h : Sound s.dev) (ha : Sound a.dev) :
    Sound t.dev := by
  split at e <;> cases e
  · exact ha
  · exact h

theorem execVddIoRise_sound {s s' : State} (h : Sound s.dev) (e : execVddIoRise s = .next s') : Sound s'.dev := by
  unfold execVddIoRise at e
  cases e
  split
  · exact h
  · exact draw_sound (freshDev_sound _ _)

theorem execRailsRisingEnd_sound {s s' : State} (h : Sound s.dev) (e : execRailsRisingEnd s = .next s') : Sound s'.dev := by
  unfold execRailsRisingEnd at e
  cases e
  repeat' first
    | exact h
    | exact freshDev_sound _ _
    | exact haltDev_sound _
    | split

theorem execVddIoFall_sound {s s' : State} (h : Sound s.dev) (e : execVddIoFall s = .next s') : Sound s'.dev := by
  unfold execVddIoFall at e
  cases e
  repeat' first
    | exact h
    | exact freshDev_sound _ _
    | exact haltDev_sound _
    | split

theorem execBrownOut_sound (rail : Fin 9) (clockToo : Bool) {s s' : State} (h : Sound s.dev) (e : execBrownOut rail clockToo s = .next s') : Sound s'.dev := by
  unfold execBrownOut at e
  cases e
  repeat' first
    | exact h
    | exact freshDev_sound _ _
    | exact haltDev_sound _
    | split

theorem execClockLoss_sound (brownToo : Bool) {s s' : State} (h : Sound s.dev) (e : execClockLoss brownToo s = .next s') : Sound s'.dev := by
  unfold execClockLoss at e
  cases e
  repeat' first
    | exact h
    | exact freshDev_sound _ _
    | exact haltDev_sound _
    | split

theorem execResetAssert_sound (chain : Bool) {s s' : State} (h : Sound s.dev) (e : execResetAssert chain s = .next s') : Sound s'.dev := by
  unfold execResetAssert at e
  cases e
  repeat' first
    | exact h
    | exact freshDev_sound _ _
    | exact haltDev_sound _
    | split

theorem execResetRelease_sound (chain : Bool) {s s' : State} (h : Sound s.dev) (e : execResetRelease chain s = .next s') : Sound s'.dev := by
  unfold execResetRelease at e
  cases e
  repeat' first
    | exact h

theorem execHousekeepingLock_sound {s s' : State} (h : Sound s.dev) (e : execHousekeepingLock s = .next s') : Sound s'.dev := by
  unfold execHousekeepingLock at e
  refine onDev_sound e h fun h => ?_
  try dsimp only
  repeat' first
    | with_reducible assumption
    | with_reducible refine modS_sound ?_ _

theorem execHousekeepingLockFail_sound {s s' : State} (h : Sound s.dev) (e : execHousekeepingLockFail s = .next s') : Sound s'.dev := by
  unfold execHousekeepingLockFail at e
  refine onDev_sound e h fun h => ?_
  try dsimp only
  repeat' first
    | with_reducible assumption
    | with_reducible refine modS_sound ?_ _
    | exact fun _ m => m
    | exact fun _ _ => darnSound_init
    | with_reducible refine ite_sound ?_ ?_

theorem execLevelPinMeasurement_sound (volts : List PinVolts) (straps : BitVec 4) (rsvdG : W16) (blowTakes : Bool) {s s' : State} (h : Sound s.dev) (e : execLevelPinMeasurement volts straps rsvdG blowTakes s = .next s') : Sound s'.dev := by
  unfold execLevelPinMeasurement at e
  dsimp only at e
  generalize latchCfg volts straps rsvdG s.hk.fuseBlown blowTakes = c at e
  have hs : Sound (modSow s.dev fun _ => initialSow c) := modSow_sound h _
  generalize (modSow s.dev fun _ => initialSow c) = d at e hs
  have hx : Sound (match c.stop with | some st => earlyStop d st c.pinMask | none => d) := by
    split
    · exact earlyStop_sound hs _ _
    · exact hs
  have hy := startTraining_sound hx c
  generalize startTraining c (match c.stop with | some st => earlyStop d st c.pinMask | none => d) = D at e hy
  split at e
  · cases e; exact h
  · split at e <;> cases e
    · exact assertFaultN_sound hs
    · exact hy

theorem execIslandLoopsLocked_sound (fail : BitVec 20) {s s' : State} (h : Sound s.dev) (e : execIslandLoopsLocked fail s = .next s') : Sound s'.dev := by
  unfold execIslandLoopsLocked at e
  refine onDev_sound e h fun h => ?_
  try dsimp only
  repeat' first
    | with_reducible assumption
    | with_reducible apply earlyStop_sound
    | with_reducible apply startTraining_sound
    | with_reducible refine modS_sound ?_ _
    | exact fun _ m => m
    | exact fun _ _ => darnSound_init
    | with_reducible refine ite_sound ?_ ?_

theorem execMemoryInitialised_sound (sramFail spool0Fail spool1Fail : Bool) {s s' : State} (h : Sound s.dev) (e : execMemoryInitialised sramFail spool0Fail spool1Fail s = .next s') : Sound s'.dev := by
  unfold execMemoryInitialised at e
  refine onDev_sound e h fun h => ?_
  try dsimp only
  repeat' first
    | with_reducible assumption
    | with_reducible apply earlyStop_sound
    | with_reducible refine modS_sound ?_ _
    | exact fun _ m => m
    | exact fun _ _ => darnSound_init
    | with_reducible refine ite_sound ?_ ?_

theorem execReadyAssert_sound {s s' : State} (h : Sound s.dev) (e : execReadyAssert s = .next s') : Sound s'.dev := by
  unfold execReadyAssert at e
  refine onDev_sound e h fun h => ?_
  try dsimp only
  repeat' first
    | with_reducible assumption
    | with_reducible apply assertLines_sound
    | with_reducible refine modS_sound ?_ _
    | exact fun _ m => m
    | exact fun _ _ => darnSound_init
    | with_reducible refine ite_sound ?_ ?_

theorem execPortStart_sound (p : LPort) {s s' : State} (h : Sound s.dev) (e : execPortStart p s = .next s') : Sound s'.dev := by
  unfold execPortStart at e
  have hp := startPort_sound h s.hk s.cfg p
  revert e
  generalize startPort s.hk s.cfg s.dev p = r at hp
  intro e
  split at e <;> cases e
  · exact h
  · exact hp

theorem execLemiusLinkUp_sound (p : LPort) (found : Training) {s s' : State} (h : Sound s.dev) (e : execLemiusLinkUp p found s = .next s') : Sound s'.dev := by
  unfold execLemiusLinkUp at e
  refine onDev_sound e h fun h => ?_
  try dsimp only
  repeat' first
    | with_reducible assumption
    | with_reducible apply lemUp_sound
    | exact fun _ m => m
    | exact fun _ _ => darnSound_init
    | with_reducible refine ite_sound ?_ ?_
    | split

theorem execLemiusTrainingTimeout_sound (p : LPort) {s s' : State} (h : Sound s.dev) (e : execLemiusTrainingTimeout p s = .next s') : Sound s'.dev := by
  unfold execLemiusTrainingTimeout at e
  refine onDev_sound e h fun h => ?_
  try dsimp only
  repeat' first
    | with_reducible assumption
    | with_reducible apply backToDetect_sound

theorem execLemiusFrameReceive_sound (p : LPort) (bytes : List Byte) (fixes : FecFix) {s s' : State} (h : Sound s.dev) (e : execLemiusFrameReceive p bytes fixes s = .next s') : Sound s'.dev := by
  unfold execLemiusFrameReceive at e
  refine onDev_sound e h fun h => ?_
  try dsimp only
  repeat' first
    | with_reducible assumption
    | with_reducible apply epilogue_sound
    | with_reducible apply lemDown_sound
    | with_reducible apply lemRx_sound
    | exact fun _ m => m
    | exact fun _ _ => darnSound_init
    | with_reducible refine ite_sound ?_ ?_

theorem execLemiusReplayTimer_sound (p : LPort) {s s' : State} (h : Sound s.dev) (e : execLemiusReplayTimer p s = .next s') : Sound s'.dev := by
  unfold execLemiusReplayTimer at e
  refine onDev_sound e h fun h => ?_
  split
  · split
    · exact lemReplay_sound h p ‹_›
    · exact epilogue_sound (lemDown_sound h _ _) _
  · exact h

theorem execHello_sound (p : LPort) (f : LemFrame) {s s' : State} (h : Sound s.dev) (e : execHello p f s = .next s') : Sound s'.dev := by
  unfold execHello at e
  refine onDev_sound e h fun h => ?_
  try dsimp only
  repeat' first
    | with_reducible assumption
    | with_reducible apply lemDiscard_sound
    | with_reducible apply takeHello_sound
    | exact fun _ m => m
    | exact fun _ _ => darnSound_init
    | with_reducible refine ite_sound ?_ ?_

theorem execNudge_sound (p : LPort) (f : LemFrame) {s s' : State} (h : Sound s.dev) (e : execNudge p f s = .next s') : Sound s'.dev := by
  unfold execNudge at e
  refine onDev_sound e h fun h => ?_
  try dsimp only
  repeat' first
    | with_reducible assumption
    | with_reducible apply bumpLem_sound
    | with_reducible apply lemDiscard_sound
    | with_reducible apply nudgeRing_sound
    | exact fun _ m => m
    | exact fun _ _ => darnSound_init
    | with_reducible refine ite_sound ?_ ?_

theorem execLeafLinkDownFrame_sound (p : LPort) (f : LemFrame) {s s' : State} (h : Sound s.dev) (e : execLeafLinkDownFrame p f s = .next s') : Sound s'.dev := by
  unfold execLeafLinkDownFrame at e
  refine onDev_sound e h fun h => ?_
  try dsimp only
  repeat' first
    | with_reducible assumption
    | with_reducible apply epilogue_sound
    | with_reducible apply lemDown_sound
    | with_reducible refine modP_sound ?_ _ ?_ ?_
    | exact fun _ m => m
    | exact fun _ _ => darnSound_init
    | with_reducible refine ite_sound ?_ ?_

theorem execLane0ElectricalIdle_sound (p : LPort) {s s' : State} (h : Sound s.dev) (e : execLane0ElectricalIdle p s = .next s') : Sound s'.dev := by
  unfold execLane0ElectricalIdle at e
  refine onDev_sound e h fun h => ?_
  try dsimp only
  repeat' first
    | with_reducible assumption
    | with_reducible apply epilogue_sound
    | with_reducible apply lemDown_sound
    | exact fun _ m => m
    | exact fun _ _ => darnSound_init
    | with_reducible refine ite_sound ?_ ?_

theorem execReadCpl_sound (p : LPort) (f : LemFrame) {s s' : State} (h : Sound s.dev) (e : execReadCpl p f s = .next s') : Sound s'.dev := by
  unfold execReadCpl at e
  refine onDev_sound e h fun h => ?_
  try dsimp only
  repeat' first
    | with_reducible assumption
    | with_reducible apply epilogue_sound
    | with_reducible apply takeCpl_sound
    | exact fun _ m => m
    | exact fun _ _ => darnSound_init
    | with_reducible refine ite_sound ?_ ?_

theorem execReadTimeout_sound (p : LPort) (tag : BitVec 10) {s s' : State} (h : Sound s.dev) (e : execReadTimeout p tag s = .next s') : Sound s'.dev := by
  unfold execReadTimeout at e
  refine onDev_sound e h fun h => ?_
  try dsimp only
  repeat' first
    | with_reducible assumption
    | with_reducible apply epilogue_sound
    | with_reducible apply readFails_sound
    | with_reducible refine modP_sound ?_ _ ?_ ?_
    | exact fun _ m => m
    | exact fun _ _ => darnSound_init
    | with_reducible refine ite_sound ?_ ?_
    | split

theorem execTagRetireEnd_sound (p : LPort) (tag : BitVec 10) {s s' : State} (h : Sound s.dev) (e : execTagRetireEnd p tag s = .next s') : Sound s'.dev := by
  unfold execTagRetireEnd at e
  refine onDev_sound e h fun h => ?_
  try dsimp only
  repeat' first
    | with_reducible assumption
    | with_reducible refine modP_sound ?_ _ ?_ ?_
    | exact fun _ m => m

theorem execHeaderRead_sound (p : LPort) (r : RingNo) {s s' : State} (h : Sound s.dev) (e : execHeaderRead p r s = .next s') : Sound s'.dev := by
  unfold execHeaderRead at e
  exact onDev_sound e h fun h => takePending_sound h s.cfg p r

theorem execDescriptorFetch_sound (p : LPort) (r : RingNo) {s s' : State} (h : Sound s.dev) (e : execDescriptorFetch p r s = .next s') : Sound s'.dev := by
  unfold execDescriptorFetch at e
  refine onDev_sound e h fun h => ?_
  try dsimp only
  repeat' first
    | with_reducible assumption
    | with_reducible apply epilogue_sound
    | with_reducible apply fetchMore_sound
    | with_reducible apply takeSlots_sound
    | exact fun _ m => m
    | exact fun _ _ => darnSound_init
    | with_reducible refine ite_sound ?_ ?_

theorem execPollTimer_sound (p : LPort) (r : RingNo) {s s' : State} (h : Sound s.dev) (e : execPollTimer p r s = .next s') : Sound s'.dev := by
  unfold execPollTimer at e
  refine onDev_sound e h fun h => ?_
  try dsimp only
  repeat' first
    | with_reducible assumption
    | with_reducible apply readHeader_sound
    | with_reducible apply readWaiting_sound
    | exact fun _ m => m
    | exact fun _ _ => darnSound_init
    | with_reducible refine ite_sound ?_ ?_

theorem execRefetchTimer_sound (p : LPort) (r : RingNo) {s s' : State} (h : Sound s.dev) (e : execRefetchTimer p r s = .next s') : Sound s'.dev := by
  unfold execRefetchTimer at e
  refine onDev_sound e h fun h => ?_
  try dsimp only
  repeat' first
    | with_reducible assumption
    | with_reducible apply modR_sound
    | with_reducible apply readWaiting_sound
    | exact fun _ m => m
    | exact fun _ _ => darnSound_init
    | with_reducible refine ite_sound ?_ ?_

theorem execReadRetryTimer_sound (p : LPort) (r : RingNo) {s s' : State} (h : Sound s.dev) (e : execReadRetryTimer p r s = .next s') : Sound s'.dev := by
  unfold execReadRetryTimer at e
  refine onDev_sound e h fun h => ?_
  try dsimp only
  repeat' first
    | with_reducible assumption
    | with_reducible apply modR_sound
    | with_reducible apply retryRead_sound
    | with_reducible refine each_sound ?_ _ ?_
    | exact fun _ m => m
    | exact fun _ _ => darnSound_init
    | with_reducible refine ite_sound ?_ ?_
    | split
    | (intro _ _ _)

theorem execDependencySatisfied_sound (p : LPort) (r : RingNo) (k : Fin 4) {s s' : State} (h : Sound s.dev) (e : execDependencySatisfied p r k s = .next s') : Sound s'.dev := by
  unfold execDependencySatisfied at e
  refine onDev_sound e h fun h => ?_
  try dsimp only
  repeat' first
    | with_reducible assumption
    | with_reducible apply advanceHead_sound
    | with_reducible apply epilogue_sound
    | with_reducible apply judgeRing_sound
    | exact fun _ m => m
    | exact fun _ _ => darnSound_init
    | with_reducible refine ite_sound ?_ ?_
    | split

theorem execWaitTimeoutExpiry_sound (p : LPort) (r : RingNo) {s s' : State} (h : Sound s.dev) (e : execWaitTimeoutExpiry p r s = .next s') : Sound s'.dev := by
  unfold execWaitTimeoutExpiry at e
  refine onDev_sound e h fun h => ?_
  try dsimp only
  repeat' first
    | with_reducible assumption
    | with_reducible apply epilogue_sound
    | with_reducible apply judgeRing_sound
    | with_reducible apply waitTimeout_sound

theorem execNop_sound (p : LPort) (r : RingNo) {s s' : State} (h : Sound s.dev) (e : execNop p r s = .next s') : Sound s'.dev := by
  unfold execNop at e
  exact onDev_sound e h fun h => admitWhen_sound h _ _ _ _ fun _ _ h => finishRun_sound h _ _ _

theorem execBroadcast_sound (p : LPort) (r : RingNo) {s s' : State} (h : Sound s.dev) (e : execBroadcast p r s = .next s') : Sound s'.dev := by
  unfold execBroadcast at e
  refine onDev_sound e h fun h => ?_
  try dsimp only
  repeat' first
    | with_reducible assumption
    | with_reducible apply admitColl_sound

theorem execReduceToOne_sound (p : LPort) (r : RingNo) {s s' : State} (h : Sound s.dev) (e : execReduceToOne p r s = .next s') : Sound s'.dev := by
  unfold execReduceToOne at e
  refine onDev_sound e h fun h => ?_
  try dsimp only
  repeat' first
    | with_reducible assumption
    | with_reducible apply admitColl_sound

theorem execAllReduce_sound (p : LPort) (r : RingNo) {s s' : State} (h : Sound s.dev) (e : execAllReduce p r s = .next s') : Sound s'.dev := by
  unfold execAllReduce at e
  refine onDev_sound e h fun h => ?_
  try dsimp only
  repeat' first
    | with_reducible assumption
    | with_reducible apply admitColl_sound

theorem execReduceScatter_sound (p : LPort) (r : RingNo) {s s' : State} (h : Sound s.dev) (e : execReduceScatter p r s = .next s') : Sound s'.dev := by
  unfold execReduceScatter at e
  refine onDev_sound e h fun h => ?_
  try dsimp only
  repeat' first
    | with_reducible assumption
    | with_reducible apply admitColl_sound

theorem execAllGather_sound (p : LPort) (r : RingNo) {s s' : State} (h : Sound s.dev) (e : execAllGather p r s = .next s') : Sound s'.dev := by
  unfold execAllGather at e
  refine onDev_sound e h fun h => ?_
  try dsimp only
  repeat' first
    | with_reducible assumption
    | with_reducible apply admitColl_sound

theorem execExchangeEqualSizes_sound (p : LPort) (r : RingNo) {s s' : State} (h : Sound s.dev) (e : execExchangeEqualSizes p r s = .next s') : Sound s'.dev := by
  unfold execExchangeEqualSizes at e
  refine onDev_sound e h fun h => ?_
  try dsimp only
  repeat' first
    | with_reducible assumption
    | with_reducible apply admitColl_sound

theorem execExchangeUnequalSizes_sound (p : LPort) (r : RingNo) {s s' : State} (h : Sound s.dev) (e : execExchangeUnequalSizes p r s = .next s') : Sound s'.dev := by
  unfold execExchangeUnequalSizes at e
  refine onDev_sound e h fun h => ?_
  try dsimp only
  repeat' first
    | with_reducible assumption
    | with_reducible apply admitColl_sound

theorem execYardLoad_sound (p : LPort) (r : RingNo) {s s' : State} (h : Sound s.dev) (e : execYardLoad p r s = .next s') : Sound s'.dev := by
  unfold execYardLoad at e
  exact onDev_sound e h fun h => admitWhen_sound h _ _ _ _ fun _ _ h => runYardLoad_sound h _ _ _ _

theorem execYardBlockRegister_sound (p : LPort) (r : RingNo) {s s' : State} (h : Sound s.dev) (e : execYardBlockRegister p r s = .next s') : Sound s'.dev := by
  unfold execYardBlockRegister at e
  refine onDev_sound e h fun h => ?_
  try dsimp only
  repeat' first
    | with_reducible assumption
    | with_reducible apply finishRun_sound
    | with_reducible apply modRun_sound
    | with_reducible apply registerBlock_sound
    | exact fun _ m => m
    | exact fun _ _ => darnSound_init
    | with_reducible refine ite_sound ?_ ?_
    | split

theorem execResidentAccum_sound (p : LPort) (r : RingNo) {s s' : State} (h : Sound s.dev) (e : execResidentAccum p r s = .next s') : Sound s'.dev := by
  unfold execResidentAccum at e
  exact onDev_sound e h fun h => admitWhen_sound h _ _ _ _ fun _ _ h => runColl_sound h _ _ _ _

theorem execResidentFlush_sound (p : LPort) (r : RingNo) {s s' : State} (h : Sound s.dev) (e : execResidentFlush p r s = .next s') : Sound s'.dev := by
  unfold execResidentFlush at e
  exact onDev_sound e h fun h => admitWhen_sound h _ _ _ _ fun _ _ h => runFlush_sound h _ _ _ _

theorem execPegSet_sound (p : LPort) (r : RingNo) {s s' : State} (h : Sound s.dev) (e : execPegSet p r s = .next s') : Sound s'.dev := by
  unfold execPegSet at e
  refine onDev_sound e h fun h => ?_
  try dsimp only
  repeat' first
    | with_reducible assumption
    | with_reducible apply pegRow_sound

theorem execPegClear_sound (p : LPort) (r : RingNo) {s s' : State} (h : Sound s.dev) (e : execPegClear p r s = .next s') : Sound s'.dev := by
  unfold execPegClear at e
  refine onDev_sound e h fun h => ?_
  try dsimp only
  repeat' first
    | with_reducible assumption
    | with_reducible apply pegRow_sound

theorem execTallyAdd_sound (p : LPort) (r : RingNo) {s s' : State} (h : Sound s.dev) (e : execTallyAdd p r s = .next s') : Sound s'.dev := by
  unfold execTallyAdd at e
  refine onDev_sound e h fun h => ?_
  try dsimp only
  repeat' first
    | with_reducible assumption
    | with_reducible apply pegRow_sound

theorem execTallyTake_sound (p : LPort) (r : RingNo) {s s' : State} (h : Sound s.dev) (e : execTallyTake p r s = .next s') : Sound s'.dev := by
  unfold execTallyTake at e
  refine onDev_sound e h fun h => ?_
  try dsimp only
  repeat' first
    | with_reducible assumption
    | with_reducible apply pegRow_sound

theorem execBarrier_sound (p : LPort) (r : RingNo) {s s' : State} (h : Sound s.dev) (e : execBarrier p r s = .next s') : Sound s'.dev := by
  unfold execBarrier at e
  exact onDev_sound e h fun h => admitWhen_sound h _ _ _ _ fun _ _ h => runBarrier_sound h _ _ _ _

theorem execEpochFence_sound (p : LPort) (r : RingNo) {s s' : State} (h : Sound s.dev) (e : execEpochFence p r s = .next s') : Sound s'.dev := by
  unfold execEpochFence at e
  exact onDev_sound e h fun h => admitWhen_sound h _ _ _ _ fun _ _ h => readHeader_sound (modR_sound h _ _ _) _ _ _

theorem execHoldGrant_sound (t : Tenant) {s s' : State} (h : Sound s.dev) (e : execHoldGrant t s = .next s') : Sound s'.dev := by
  unfold execHoldGrant at e
  refine onDev_sound e h fun h => ?_
  try dsimp only
  repeat' first
    | with_reducible assumption
    | with_reducible apply dropReq_sound
    | with_reducible apply epilogue_sound
    | with_reducible apply grantReq_sound
    | with_reducible apply pumpTenant_sound
    | exact fun _ m => m
    | exact fun _ _ => darnSound_init
    | with_reducible refine ite_sound ?_ ?_
    | split

theorem execInputReadDone_sound (p : LPort) (r : RingNo) {s s' : State} (h : Sound s.dev) (e : execInputReadDone p r s = .next s') : Sound s'.dev := by
  unfold execInputReadDone at e
  refine onDev_sound e h fun h => ?_
  try dsimp only
  repeat' first
    | with_reducible assumption
    | with_reducible apply epilogue_sound
    | with_reducible apply modRun_sound
    | with_reducible apply pumpInst_sound
    | exact fun _ m => m
    | exact fun _ _ => darnSound_init
    | with_reducible refine ite_sound ?_ ?_
    | split

theorem execPrologueReceive_sound (i : TPort) (f : TrlFrame) {s s' : State} (h : Sound s.dev) (e : execPrologueReceive i f s = .next s') : Sound s'.dev := by
  unfold execPrologueReceive at e
  refine onDev_sound e h fun h => ?_
  try dsimp only
  repeat' first
    | with_reducible assumption
    | with_reducible apply epilogue_sound
    | with_reducible apply prologueFrame_sound
    | exact fun _ m => m
    | exact fun _ _ => darnSound_init
    | with_reducible refine ite_sound ?_ ?_

theorem execTrellisDataReceive_sound (i : TPort) (f : TrlFrame) {s s' : State} (h : Sound s.dev) (e : execTrellisDataReceive i f s = .next s') : Sound s'.dev := by
  unfold execTrellisDataReceive at e
  refine onDev_sound e h fun h => ?_
  try dsimp only
  repeat' first
    | with_reducible assumption
    | with_reducible apply chunkFrame_sound
    | with_reducible apply epilogue_sound
    | exact fun _ m => m
    | exact fun _ _ => darnSound_init
    | with_reducible refine ite_sound ?_ ?_

theorem execTrellisSignalReceive_sound (i : TPort) (f : TrlFrame) {s s' : State} (h : Sound s.dev) (e : execTrellisSignalReceive i f s = .next s') : Sound s'.dev := by
  unfold execTrellisSignalReceive at e
  refine onDev_sound e h fun h => ?_
  try dsimp only
  repeat' first
    | with_reducible assumption
    | with_reducible apply chunkFrame_sound
    | with_reducible apply epilogue_sound
    | exact fun _ m => m
    | exact fun _ _ => darnSound_init
    | with_reducible refine ite_sound ?_ ?_

theorem execSpoolWritesPerformed_sound (p : LPort) (r : RingNo) {s s' : State} (h : Sound s.dev) (e : execSpoolWritesPerformed p r s = .next s') : Sound s'.dev := by
  unfold execSpoolWritesPerformed at e
  refine onDev_sound e h fun h => ?_
  try dsimp only
  repeat' first
    | with_reducible assumption
    | with_reducible apply modRun_sound
    | exact fun _ m => m
    | exact fun _ _ => darnSound_init
    | with_reducible refine ite_sound ?_ ?_
    | split

/-- Where a record leaves, its port has no replay under way, and Darn has room (R234, R235). -/
theorem sendRecord_sound {d : Dev} (h : Sound d) (c : Cfg) (p : LPort) (r : RingNo) (hl : recordLeaves c d p r = true) : Sound (sendRecord c d p r) := by
  unfold sendRecord
  split
  · exact h
  · rename_i x hx
    refine afterRecord_sound (putLem_sound (pushTx_sound (draw_sound h) p _) _ p 2 _ ?_) c p r x
    unfold recordLeaves at hl
    rw [hx] at hl
    simp only [Bool.and_eq_true, beq_iff_eq] at hl
    have hn := nextLem_room hl.2
    have e : ∀ it, (pushTx (draw d).2 p [it]).lem[p].darn = (pushTx d p [it]).lem[p].darn := fun _ => rfl
    rw [e]
    exact hn

theorem execCompletionRecord_sound (p : LPort) (r : RingNo) {s s' : State} (h : Sound s.dev) (e : execCompletionRecord p r s = .next s') : Sound s'.dev := by
  unfold execCompletionRecord at e
  refine onDev_sound e h fun h => ?_
  split
  · exact epilogue_sound (sendRecord_sound h _ _ _ ‹_›) _
  · exact h

theorem execContributionWaitExpiry_sound (t : Tenant) (coll : W16) {s s' : State} (h : Sound s.dev) (e : execContributionWaitExpiry t coll s = .next s') : Sound s'.dev := by
  unfold execContributionWaitExpiry at e
  refine onDev_sound e h fun h => ?_
  try dsimp only
  repeat' first
    | with_reducible assumption
    | with_reducible apply contribTimeout_sound
    | with_reducible apply epilogue_sound

theorem execPressStage_sound (t : Tenant) (coll : W16) {s s' : State} (h : Sound s.dev) (e : execPressStage t coll s = .next s') : Sound s'.dev := by
  unfold execPressStage at e
  refine onDev_sound e h fun h => ?_
  try dsimp only
  repeat' first
    | with_reducible assumption
    | with_reducible apply epilogue_sound
    | with_reducible apply pressStage_sound

theorem execSieveSelection_sound (t : Tenant) (coll : W16) {s s' : State} (h : Sound s.dev) (e : execSieveSelection t coll s = .next s') : Sound s'.dev := by
  unfold execSieveSelection at e
  refine onDev_sound e h fun h => ?_
  try dsimp only
  repeat' first
    | with_reducible assumption
    | with_reducible apply epilogue_sound
    | with_reducible apply sieveStage_sound

theorem execTrellisLinkUp_sound (i : TPort) (hMargin vMargin : List Byte) {s s' : State} (h : Sound s.dev) (e : execTrellisLinkUp i hMargin vMargin s = .next s') : Sound s'.dev := by
  unfold execTrellisLinkUp at e
  refine onDev_sound e h fun h => ?_
  try dsimp only
  repeat' first
    | with_reducible assumption
    | with_reducible apply trlLinkUp_sound
    | with_reducible apply tryStep10_sound
    | exact fun _ m => m
    | exact fun _ _ => darnSound_init
    | with_reducible refine ite_sound ?_ ?_

theorem execTrellisTrainingTimeout_sound (i : TPort) {s s' : State} (h : Sound s.dev) (e : execTrellisTrainingTimeout i s = .next s') : Sound s'.dev := by
  unfold execTrellisTrainingTimeout at e
  refine onDev_sound e h fun h => ?_
  try dsimp only
  repeat' first
    | with_reducible assumption
    | with_reducible refine modT_sound ?_ _ ?_
    | exact fun _ m => m
    | exact fun _ _ => darnSound_init
    | with_reducible refine ite_sound ?_ ?_

theorem execTrellisPortSilent_sound (i : TPort) {s s' : State} (h : Sound s.dev) (e : execTrellisPortSilent i s = .next s') : Sound s'.dev := by
  unfold execTrellisPortSilent at e
  refine onDev_sound e h fun h => ?_
  try dsimp only
  repeat' first
    | with_reducible assumption
    | with_reducible apply tryStep10_sound
    | with_reducible refine modT_sound ?_ _ ?_
    | exact fun _ m => m
    | exact fun _ _ => darnSound_init
    | with_reducible refine ite_sound ?_ ?_

theorem execTrellisFrameReceive_sound (i : TPort) (bytes : List Byte) (fixes : FecFix) {s s' : State} (h : Sound s.dev) (e : execTrellisFrameReceive i bytes fixes s = .next s') : Sound s'.dev := by
  unfold execTrellisFrameReceive at e
  refine onDev_sound e h fun h => ?_
  try dsimp only
  repeat' first
    | with_reducible assumption
    | with_reducible apply epilogue_sound
    | with_reducible apply trlRetryDown_sound
    | with_reducible apply trlRx_sound
    | exact fun _ m => m
    | exact fun _ _ => darnSound_init
    | with_reducible refine ite_sound ?_ ?_

theorem execTrellisReplayTimer_sound (i : TPort) {s s' : State} (h : Sound s.dev) (e : execTrellisReplayTimer i s = .next s') : Sound s'.dev := by
  unfold execTrellisReplayTimer at e
  refine onDev_sound e h fun h => ?_
  split
  · split
    · exact trlReplay_sound h i ‹_›
    · exact epilogue_sound (trlRetryDown_sound h _ _) _
  · exact h

theorem execAlignmentBlock_sound (i : TPort) {s s' : State} (h : Sound s.dev) (e : execAlignmentBlock i s = .next s') : Sound s'.dev := by
  unfold execAlignmentBlock at e
  refine onDev_sound e h fun h => ?_
  try dsimp only
  repeat' first
    | with_reducible assumption
    | with_reducible refine modT_sound ?_ _ ?_
    | exact fun _ m => m
    | exact fun _ _ => darnSound_init
    | with_reducible refine ite_sound ?_ ?_

theorem execTrellisLaneLoss_sound (i : TPort) {s s' : State} (h : Sound s.dev) (e : execTrellisLaneLoss i s = .next s') : Sound s'.dev := by
  unfold execTrellisLaneLoss at e
  refine onDev_sound e h fun h => ?_
  try dsimp only
  repeat' first
    | with_reducible assumption
    | with_reducible apply epilogue_sound
    | with_reducible apply trlDown_sound
    | exact fun _ m => m
    | exact fun _ _ => darnSound_init
    | with_reducible refine ite_sound ?_ ?_

theorem execTrellisLinkDownFrame_sound (i : TPort) (f : TrlFrame) {s s' : State} (h : Sound s.dev) (e : execTrellisLinkDownFrame i f s = .next s') : Sound s'.dev := by
  unfold execTrellisLinkDownFrame at e
  refine onDev_sound e h fun h => ?_
  try dsimp only
  repeat' first
    | with_reducible assumption
    | with_reducible apply epilogue_sound
    | with_reducible apply trlDown_sound
    | exact fun _ m => m
    | exact fun _ _ => darnSound_init
    | with_reducible refine ite_sound ?_ ?_

theorem execSowHello_sound (i : TPort) (f : TrlFrame) {s s' : State} (h : Sound s.dev) (e : execSowHello i f s = .next s') : Sound s'.dev := by
  unfold execSowHello at e
  unfold sowRow at e
  refine onDev_sound e h fun h => ite_sound (sowFrame_sound h _ _ _ _ _) h

theorem execReference_sound (i : TPort) (f : TrlFrame) {s s' : State} (h : Sound s.dev) (e : execReference i f s = .next s') : Sound s'.dev := by
  unfold execReference at e
  unfold sowRow at e
  refine onDev_sound e h fun h => ite_sound (sowFrame_sound h _ _ _ _ _) h

theorem execSeed_sound (i : TPort) (f : TrlFrame) {s s' : State} (h : Sound s.dev) (e : execSeed i f s = .next s') : Sound s'.dev := by
  unfold execSeed at e
  unfold sowRow at e
  refine onDev_sound e h fun h => ite_sound (sowFrame_sound h _ _ _ _ _) h

theorem execClose_sound (i : TPort) (f : TrlFrame) {s s' : State} (h : Sound s.dev) (e : execClose i f s = .next s') : Sound s'.dev := by
  unfold execClose at e
  unfold sowRow at e
  refine onDev_sound e h fun h => ite_sound (sowFrame_sound h _ _ _ _ _) h

theorem execPosition_sound (i : TPort) (f : TrlFrame) {s s' : State} (h : Sound s.dev) (e : execPosition i f s = .next s') : Sound s'.dev := by
  unfold execPosition at e
  unfold sowRow at e
  refine onDev_sound e h fun h => ite_sound (sowFrame_sound h _ _ _ _ _) h

theorem execRollcall_sound (i : TPort) (f : TrlFrame) {s s' : State} (h : Sound s.dev) (e : execRollcall i f s = .next s') : Sound s'.dev := by
  unfold execRollcall at e
  unfold sowRow at e
  refine onDev_sound e h fun h => ite_sound (sowFrame_sound h _ _ _ _ _) h

theorem execFormed_sound (i : TPort) (f : TrlFrame) {s s' : State} (h : Sound s.dev) (e : execFormed i f s = .next s') : Sound s'.dev := by
  unfold execFormed at e
  unfold sowRow at e
  refine onDev_sound e h fun h => ite_sound (sowFrame_sound h _ _ _ _ _) h

theorem execStop_sound (i : TPort) (f : TrlFrame) {s s' : State} (h : Sound s.dev) (e : execStop i f s = .next s') : Sound s'.dev := by
  unfold execStop at e
  unfold sowRow at e
  refine onDev_sound e h fun h => ite_sound (sowFrame_sound h _ _ _ _ _) h

theorem execSowOriginDeadline_sound {s s' : State} (h : Sound s.dev) (e : execSowOriginDeadline s = .next s') : Sound s'.dev := by
  unfold execSowOriginDeadline at e
  refine onDev_sound e h fun h => ?_
  try dsimp only
  repeat' first
    | with_reducible assumption
    | with_reducible apply sowStop_sound
    | exact fun _ m => m
    | exact fun _ _ => darnSound_init
    | with_reducible refine ite_sound ?_ ?_

theorem execSowReferenceDeadline_sound {s s' : State} (h : Sound s.dev) (e : execSowReferenceDeadline s = .next s') : Sound s'.dev := by
  unfold execSowReferenceDeadline at e
  refine onDev_sound e h fun h => ?_
  try dsimp only
  repeat' first
    | with_reducible assumption
    | with_reducible apply referenceDeadline_sound

theorem execSowFormedDeadline_sound {s s' : State} (h : Sound s.dev) (e : execSowFormedDeadline s = .next s') : Sound s'.dev := by
  unfold execSowFormedDeadline at e
  refine onDev_sound e h fun h => ?_
  try dsimp only
  repeat' first
    | with_reducible assumption
    | with_reducible apply sowStop_sound
    | exact fun _ m => m
    | exact fun _ _ => darnSound_init
    | with_reducible refine ite_sound ?_ ?_

theorem execPegOpReceive_sound (i : TPort) (f : TrlFrame) {s s' : State} (h : Sound s.dev) (e : execPegOpReceive i f s = .next s') : Sound s'.dev := by
  unfold execPegOpReceive at e
  refine onDev_sound e h fun h => ?_
  try dsimp only
  repeat' first
    | with_reducible assumption
    | with_reducible apply pegMsg_sound

theorem execWatch_sound (i : TPort) (f : TrlFrame) {s s' : State} (h : Sound s.dev) (e : execWatch i f s = .next s') : Sound s'.dev := by
  unfold execWatch at e
  refine onDev_sound e h fun h => ?_
  try dsimp only
  repeat' first
    | with_reducible assumption
    | with_reducible apply pegMsg_sound

theorem execUnwatch_sound (i : TPort) (f : TrlFrame) {s s' : State} (h : Sound s.dev) (e : execUnwatch i f s = .next s') : Sound s'.dev := by
  unfold execUnwatch at e
  refine onDev_sound e h fun h => ?_
  try dsimp only
  repeat' first
    | with_reducible assumption
    | with_reducible apply pegMsg_sound

theorem execArrive_sound (i : TPort) (f : TrlFrame) {s s' : State} (h : Sound s.dev) (e : execArrive i f s = .next s') : Sound s'.dev := by
  unfold execArrive at e
  refine onDev_sound e h fun h => ?_
  try dsimp only
  repeat' first
    | with_reducible assumption
    | with_reducible apply pegMsg_sound

theorem execWithdraw_sound (i : TPort) (f : TrlFrame) {s s' : State} (h : Sound s.dev) (e : execWithdraw i f s = .next s') : Sound s'.dev := by
  unfold execWithdraw at e
  refine onDev_sound e h fun h => ?_
  try dsimp only
  repeat' first
    | with_reducible assumption
    | with_reducible apply pegMsg_sound

theorem execFallback_sound (i : TPort) (f : TrlFrame) {s s' : State} (h : Sound s.dev) (e : execFallback i f s = .next s') : Sound s'.dev := by
  unfold execFallback at e
  refine onDev_sound e h fun h => ?_
  try dsimp only
  repeat' first
    | with_reducible assumption
    | with_reducible apply pegMsg_sound

theorem execDone_sound (i : TPort) (f : TrlFrame) {s s' : State} (h : Sound s.dev) (e : execDone i f s = .next s') : Sound s'.dev := by
  unfold execDone at e
  refine onDev_sound e h fun h => ?_
  try dsimp only
  repeat' first
    | with_reducible assumption
    | with_reducible apply replyMsg_sound

theorem execMet_sound (i : TPort) (f : TrlFrame) {s s' : State} (h : Sound s.dev) (e : execMet i f s = .next s') : Sound s'.dev := by
  unfold execMet at e
  refine onDev_sound e h fun h => ?_
  try dsimp only
  repeat' first
    | with_reducible assumption
    | with_reducible apply replyMsg_sound

theorem execFull_sound (i : TPort) (f : TrlFrame) {s s' : State} (h : Sound s.dev) (e : execFull i f s = .next s') : Sound s'.dev := by
  unfold execFull at e
  refine onDev_sound e h fun h => ?_
  try dsimp only
  repeat' first
    | with_reducible assumption
    | with_reducible apply replyMsg_sound

theorem execWatchResendTimer_sound (p : LPort) (r : RingNo) (k : Fin 4) {s s' : State} (h : Sound s.dev) (e : execWatchResendTimer p r k s = .next s') : Sound s'.dev := by
  unfold execWatchResendTimer at e
  refine onDev_sound e h fun h => ?_
  try dsimp only
  repeat' first
    | with_reducible assumption
    | with_reducible apply epilogue_sound
    | with_reducible apply sendWatch_sound
    | exact modR_sound h _ _ _
    | exact fun _ m => m
    | exact fun _ _ => darnSound_init
    | with_reducible refine ite_sound ?_ ?_
    | split

theorem execBegin_sound (i : TPort) (f : TrlFrame) {s s' : State} (h : Sound s.dev) (e : execBegin i f s = .next s') : Sound s'.dev := by
  unfold execBegin at e
  refine onDev_sound e h fun h => ?_
  try dsimp only
  repeat' first
    | with_reducible assumption
    | with_reducible apply replyMsg_sound

theorem execRelease_sound (i : TPort) (f : TrlFrame) {s s' : State} (h : Sound s.dev) (e : execRelease i f s = .next s') : Sound s'.dev := by
  unfold execRelease at e
  refine onDev_sound e h fun h => ?_
  try dsimp only
  repeat' first
    | with_reducible assumption
    | with_reducible apply replyMsg_sound

theorem execMismatch_sound (i : TPort) (f : TrlFrame) {s s' : State} (h : Sound s.dev) (e : execMismatch i f s = .next s') : Sound s'.dev := by
  unfold execMismatch at e
  refine onDev_sound e h fun h => ?_
  try dsimp only
  repeat' first
    | with_reducible assumption
    | with_reducible apply replyMsg_sound

theorem execWithdrawn_sound (i : TPort) (f : TrlFrame) {s s' : State} (h : Sound s.dev) (e : execWithdrawn i f s = .next s') : Sound s'.dev := by
  unfold execWithdrawn at e
  refine onDev_sound e h fun h => ?_
  try dsimp only
  repeat' first
    | with_reducible assumption
    | with_reducible apply replyMsg_sound

theorem execPegOpDoneTimeout_sound (p : LPort) (r : RingNo) {s s' : State} (h : Sound s.dev) (e : execPegOpDoneTimeout p r s = .next s') : Sound s'.dev := by
  unfold execPegOpDoneTimeout at e
  refine onDev_sound e h fun h => ?_
  try dsimp only
  repeat' first
    | with_reducible assumption
    | with_reducible apply bumpHealth_sound
    | with_reducible apply bumpTenant_sound
    | with_reducible apply epilogue_sound
    | with_reducible apply modRun_sound
    | exact fun _ m => m
    | exact fun _ _ => darnSound_init
    | with_reducible refine ite_sound ?_ ?_
    | split

theorem execBarrierWatchdogExpiry_sound (p : LPort) (r : RingNo) {s s' : State} (h : Sound s.dev) (e : execBarrierWatchdogExpiry p r s = .next s') : Sound s'.dev := by
  unfold execBarrierWatchdogExpiry at e
  refine onDev_sound e h fun h => ?_
  try dsimp only
  repeat' first
    | with_reducible assumption
    | with_reducible apply barrierTimeout_sound
    | with_reducible apply epilogue_sound

theorem execWithdrawReplyTimeout_sound (p : LPort) (r : RingNo) {s s' : State} (h : Sound s.dev) (e : execWithdrawReplyTimeout p r s = .next s') : Sound s'.dev := by
  unfold execWithdrawReplyTimeout at e
  refine onDev_sound e h fun h => ?_
  try dsimp only
  repeat' first
    | with_reducible assumption
    | with_reducible apply bumpHealth_sound
    | with_reducible apply endArrival_sound
    | with_reducible apply epilogue_sound
    | exact fun _ m => m
    | exact fun _ _ => darnSound_init
    | with_reducible refine ite_sound ?_ ?_
    | split

theorem execLineRelease_sound {s s' : State} (h : Sound s.dev) (e : execLineRelease s = .next s') : Sound s'.dev := by
  unfold execLineRelease at e
  refine onDev_sound e h fun h => ?_
  split
  · exact misc_sound h _ _ _ _ _ _ _ _ rfl
  · exact h

theorem execLineReadHigh_sound (line : Fin 2) {s s' : State} (h : Sound s.dev) (e : execLineReadHigh line s = .next s') : Sound s'.dev := by
  unfold execLineReadHigh at e
  refine onDev_sound e h fun h => ?_
  try dsimp only
  repeat' first
    | with_reducible assumption
    | with_reducible apply completeLine_sound
    | with_reducible apply epilogue_sound
    | exact fun _ m => m
    | exact fun _ _ => darnSound_init
    | with_reducible refine ite_sound ?_ ?_

theorem execLineWatchdogExpiry_sound {s s' : State} (h : Sound s.dev) (e : execLineWatchdogExpiry s = .next s') : Sound s'.dev := by
  unfold execLineWatchdogExpiry at e
  refine onDev_sound e h fun h => ?_
  try dsimp only
  repeat' first
    | with_reducible assumption
    | with_reducible apply epilogue_sound
    | with_reducible apply lineTimeout_sound

theorem execCrossingQueueStall_sound (island : Island) {s s' : State} (h : Sound s.dev) (e : execCrossingQueueStall island s = .next s') : Sound s'.dev := by
  unfold execCrossingQueueStall at e
  refine onDev_sound e h fun h => ?_
  try dsimp only
  repeat' first
    | with_reducible assumption
    | with_reducible apply bumpHealth_sound
    | with_reducible apply epilogue_sound
    | with_reducible apply haltDev_sound
    | with_reducible apply lemDown_sound
    | exact fun _ m => m
    | exact fun _ _ => darnSound_init
    | with_reducible refine ite_sound ?_ ?_
    | split

theorem execCheckBitError_sound (site : ErrSite) {s s' : State} (h : Sound s.dev) (e : execCheckBitError site s = .next s') : Sound s'.dev := by
  unfold execCheckBitError at e
  refine onDev_sound e h fun h => epilogue_sound ?_ _
  have hv : ∀ (l : List (LPort × RingNo)), Sound (each (victim s.dev l).1.toList (bumpHealth (victim s.dev l).2 4) hitRun) := by
    intro l
    have hd : Sound (victim s.dev l).2 := by
      cases he : victim s.dev l with
      | mk v d => exact victim_spair h he
    exact each_sound (bumpHealth_sound hd _) _ fun _ _ h => hitRun_sound h _
  split
  · exact ite_sound (spoolError_sound h _ _) h
  · exact ite_sound (yardError_sound h _ _) h
  · exact faultDue_sound (hv _) _ _
  · refine faultDue_sound ?_ _ _
    unfold modPegs
    exact misc_sound (bumpHealth_sound h 4) _ _ _ _ _ _ _ _ rfl
  · refine faultDue_sound ?_ _ _
    generalize ((runningThat s.dev fun _ _ => true).map Sum.inl ++ (s.dev.coll.insts.filter fun x => x.runs.isEmpty).map Sum.inr) = l
    have hd : Sound (victim s.dev l).2 := by
      cases he : victim s.dev l with
      | mk v d => exact victim_spair h he
    refine each_sound (bumpHealth_sound hd _) _ fun _ e h => ?_
    cases e with
    | inl e => exact hitRun_sound h e
    | inr x => exact hitInst_sound h x
  · exact bumpHealth_sound h 0
  · exact bumpHealth_sound h 2
  · exact bumpHealth_sound h 6

theorem execFault_sound (i : TPort) (f : TrlFrame) {s s' : State} (h : Sound s.dev) (e : execFault i f s = .next s') : Sound s'.dev := by
  unfold execFault at e
  exact onDev_sound e h fun h => recovRow_sound h _ _ _ _ fun _ h => acceptFault_sound h _ _ _ _ _

theorem execDrainComplete_sound {s s' : State} (h : Sound s.dev) (e : execDrainComplete s = .next s') : Sound s'.dev := by
  unfold execDrainComplete at e
  refine onDev_sound e h fun h => ?_
  try dsimp only
  repeat' first
    | with_reducible assumption
    | with_reducible apply drainComplete_sound
    | with_reducible apply epilogue_sound

theorem execDrained_sound (i : TPort) (f : TrlFrame) {s s' : State} (h : Sound s.dev) (e : execDrained i f s = .next s') : Sound s'.dev := by
  unfold execDrained at e
  exact onDev_sound e h fun h => recovRow_sound h _ _ _ _ fun _ h => tryChange_sound (modRec_sound h _) _ _

theorem execContextChangeDone_sound {s s' : State} (h : Sound s.dev) (e : execContextChangeDone s = .next s') : Sound s'.dev := by
  unfold execContextChangeDone at e
  refine onDev_sound e h fun h => ?_
  try dsimp only
  repeat' first
    | with_reducible assumption
    | with_reducible apply changeDone_sound
    | with_reducible apply epilogue_sound

theorem execClean_sound (i : TPort) (f : TrlFrame) {s s' : State} (h : Sound s.dev) (e : execClean i f s = .next s') : Sound s'.dev := by
  unfold execClean at e
  exact onDev_sound e h fun h => recovRow_sound h _ _ _ _ fun _ h => tryEnd_sound (modRec_sound h _) _

theorem execRecoveryWaitExpiry_sound {s s' : State} (h : Sound s.dev) (e : execRecoveryWaitExpiry s = .next s') : Sound s'.dev := by
  unfold execRecoveryWaitExpiry at e
  refine onDev_sound e h fun h => ?_
  try dsimp only
  repeat' first
    | with_reducible assumption
    | with_reducible apply bumpHealth_sound
    | with_reducible apply epilogue_sound
    | with_reducible apply tryChange_sound
    | with_reducible apply tryEnd_sound
    | exact fun _ m => m
    | exact fun _ _ => darnSound_init
    | with_reducible refine ite_sound ?_ ?_

theorem execState_sound (i : TPort) (f : TrlFrame) {s s' : State} (h : Sound s.dev) (e : execState i f s = .next s') : Sound s'.dev := by
  unfold execState at e
  exact onDev_sound e h fun h => recovRow_sound h _ _ _ _ fun _ h => takeState_sound h _ _ _ _ _

theorem execStateWaitExpiry_sound (t : Tenant) (coll : W16) {s s' : State} (h : Sound s.dev) (e : execStateWaitExpiry t coll s = .next s') : Sound s'.dev := by
  unfold execStateWaitExpiry at e
  refine onDev_sound e h fun h => ?_
  try dsimp only
  repeat' first
    | with_reducible assumption
    | with_reducible apply bumpHealth_sound
    | with_reducible apply decideVerdict_sound
    | with_reducible apply epilogue_sound
    | with_reducible refine each_sound ?_ _ ?_
    | exact fun _ m => m
    | exact fun _ _ => darnSound_init
    | with_reducible refine ite_sound ?_ ?_
    | split
    | (intro _ _ _)

theorem execVerdict_sound (i : TPort) (f : TrlFrame) {s s' : State} (h : Sound s.dev) (e : execVerdict i f s = .next s') : Sound s'.dev := by
  unfold execVerdict at e
  exact onDev_sound e h fun h => recovRow_sound h _ _ _ _ fun _ h => takeVerdict_sound h _ _ _ _ _ _ _

theorem execAbort_sound (i : TPort) (f : TrlFrame) {s s' : State} (h : Sound s.dev) (e : execAbort i f s = .next s') : Sound s'.dev := by
  unfold execAbort at e
  exact onDev_sound e h fun h => recovRow_sound h _ _ _ _ fun _ h => takeAbort_sound h _ _ _ _ _ _

theorem execStatusPeriodDue_sound (p : LPort) {s s' : State} (h : Sound s.dev) (e : execStatusPeriodDue p s = .next s') : Sound s'.dev := by
  unfold execStatusPeriodDue at e
  refine onDev_sound e h fun h => ?_
  try dsimp only
  repeat' first
    | with_reducible assumption
    | with_reducible apply addCause_sound
    | exact fun _ m => m
    | exact fun _ _ => darnSound_init
    | with_reducible refine ite_sound ?_ ?_

theorem execStatusPageWrite_sound (p : LPort) {s s' : State} (h : Sound s.dev) (e : execStatusPageWrite p s = .next s') : Sound s'.dev := by
  unfold execStatusPageWrite at e
  cases e
  split
  · exact writePage_sound h _ _ _
  · exact h

theorem execPatrolScrub_sound (corrected : Nat) (badWords : List Nat) {s s' : State} (h : Sound s.dev) (e : execPatrolScrub corrected badWords s = .next s') : Sound s'.dev := by
  unfold execPatrolScrub at e
  refine onDev_sound e h fun h => ?_
  try dsimp only
  repeat' first
    | with_reducible assumption
    | with_reducible apply bumpHealthN_sound
    | with_reducible apply meetBad_sound
    | with_reducible refine modStore_sound ?_ ?_ ?_
    | exact fun _ m => m
    | exact fun _ _ => darnSound_init
    | with_reducible refine ite_sound ?_ ?_

theorem execTjSample_sound (tj : W16) {s s' : State} (h : Sound s.dev) (e : execTjSample tj s = .next s') : Sound s'.dev := by
  unfold execTjSample at e
  refine onDev_sound e h fun h => ?_
  try dsimp only
  repeat' first
    | with_reducible assumption
    | with_reducible refine modS_sound ?_ _

theorem execTapReset_sound {s s' : State} (h : Sound s.dev) (e : execTapReset s = .next s') : Sound s'.dev := by
  unfold execTapReset at e
  cases e
  rw [loadTap_dev]; exact h

theorem execExtest_sound (drive : BitVec 39) {s s' : State} (h : Sound s.dev) (e : execExtest drive s = .next s') : Sound s'.dev := by
  unfold execExtest at e
  cases e
  split
  · exact misc_sound h _ _ _ _ _ _ _ _ rfl
  · rw [asBypass_dev]; exact h

theorem execSamplePreload_sound (sample drive : BitVec 39) {s s' : State} (h : Sound s.dev) (e : execSamplePreload sample drive s = .next s') : Sound s'.dev := by
  unfold execSamplePreload at e
  cases e
  split
  · show Sound (loadTap s 1 (capturePins s sample) .none).dev
    rw [loadTap_dev]; exact h
  · exact h

theorem execIdcode_sound {s s' : State} (h : Sound s.dev) (e : execIdcode s = .next s') : Sound s'.dev := by
  unfold execIdcode at e
  cases e
  rw [loadTap_dev]; exact h

theorem execClamp_sound {s s' : State} (h : Sound s.dev) (e : execClamp s = .next s') : Sound s'.dev := by
  unfold execClamp at e
  cases e
  split <;> (first | rw [loadTap_dev] | rw [asBypass_dev]) <;> exact h

theorem execHighz_sound {s s' : State} (h : Sound s.dev) (e : execHighz s = .next s') : Sound s'.dev := by
  unfold execHighz at e
  cases e
  split <;> (first | rw [loadTap_dev] | rw [asBypass_dev]) <;> exact h

theorem execBypass_sound {s s' : State} (h : Sound s.dev) (e : execBypass s = .next s') : Sound s'.dev := by
  unfold execBypass at e
  cases e
  rw [asBypass_dev]; exact h

theorem execDbgStatus_sound {s s' : State} (h : Sound s.dev) (e : execDbgStatus s = .next s') : Sound s'.dev := by
  unfold execDbgStatus at e
  refine privateTap_sound e h ?_
  exact h

theorem execDbgAddr_sound (addr : W64) {s s' : State} (h : Sound s.dev) (e : execDbgAddr addr s = .next s') : Sound s'.dev := by
  unfold execDbgAddr at e
  refine privateTap_sound e h ?_
  exact misc_sound h _ _ _ _ _ _ _ _ rfl

theorem execDbgRead_sound (update : Bool) {s s' : State} (h : Sound s.dev) (e : execDbgRead update s = .next s') : Sound s'.dev := by
  unfold execDbgRead at e
  refine privateTap_sound e h ?_
  dsimp only
  split
  · exact h
  · exact misc_sound h _ _ _ _ _ _ _ _ rfl

theorem execDbgReadDone_sound (corrected uncorrectable : Bool) {s s' : State} (h : Sound s.dev) (e : execDbgReadDone corrected uncorrectable s = .next s') : Sound s'.dev := by
  unfold execDbgReadDone at e
  refine onDev_sound e h fun h => ?_
  split
  · exact misc_sound h _ _ _ _ _ _ _ _ rfl
  · exact h

theorem execHandSet_sound (hspace : BitVec 2) (hpeg : W16) {s s' : State} (h : Sound s.dev) (e : execHandSet hspace hpeg s = .next s') : Sound s'.dev := by
  unfold execHandSet at e
  refine privateTap_sound e h ?_
  exact handPeg_sound h _ _ _ _ _

theorem execHandClear_sound (hspace : BitVec 2) (hpeg : W16) {s s' : State} (h : Sound s.dev) (e : execHandClear hspace hpeg s = .next s') : Sound s'.dev := by
  unfold execHandClear at e
  refine privateTap_sound e h ?_
  exact handPeg_sound h _ _ _ _ _

theorem execHandTallyAdd_sound (hspace : BitVec 2) (hpeg hvalue : W16) {s s' : State} (h : Sound s.dev) (e : execHandTallyAdd hspace hpeg hvalue s = .next s') : Sound s'.dev := by
  unfold execHandTallyAdd at e
  refine privateTap_sound e h ?_
  exact handPeg_sound h _ _ _ _ _

theorem execHandTallyTake_sound (hspace : BitVec 2) (hpeg hvalue : W16) {s s' : State} (h : Sound s.dev) (e : execHandTallyTake hspace hpeg hvalue s = .next s') : Sound s'.dev := by
  unfold execHandTallyTake at e
  refine privateTap_sound e h ?_
  exact handPeg_sound h _ _ _ _ _

theorem execHandWriteValue_sound (hspace : BitVec 2) (hpeg hvalue : W16) {s s' : State} (h : Sound s.dev) (e : execHandWriteValue hspace hpeg hvalue s = .next s') : Sound s'.dev := by
  unfold execHandWriteValue at e
  refine privateTap_sound e h ?_
  exact handPeg_sound h _ _ _ _ _

theorem execHandEndBarrierPhase_sound (hspace : BitVec 2) (hpeg : W16) {s s' : State} (h : Sound s.dev) (e : execHandEndBarrierPhase hspace hpeg s = .next s') : Sound s'.dev := by
  unfold execHandEndBarrierPhase at e
  refine privateTap_sound e h ?_
  split
  · exact epilogue_sound (countHand_sound (engineMismatch_sound h _ _ _ _)) _
  · exact h

theorem execDbgLoopEnter_sound (lport : BitVec 3) {s s' : State} (h : Sound s.dev) (e : execDbgLoopEnter lport s = .next s') : Sound s'.dev := by
  unfold execDbgLoopEnter at e
  refine privateTap_sound e h ?_
  exact ite_sound (modT_sound h _ fun _ m => m) h

theorem execDbgLoopLeave_sound (lport : BitVec 3) {s s' : State} (h : Sound s.dev) (e : execDbgLoopLeave lport s = .next s') : Sound s'.dev := by
  unfold execDbgLoopLeave at e
  refine privateTap_sound e h ?_
  have hm : Sound (modT s.dev (fin6 lport.toNat) fun x => { x with st := .silent, loopLeader := false }) := modT_sound h _ fun _ m => m
  revert hm
  generalize (modT s.dev (fin6 lport.toNat) fun x => { x with st := .silent, loopLeader := false }) = D
  intro hm
  have ht := tryStep10_sound hm s.cfg s.hk.dieSerial
  revert ht
  generalize tryStep10 s.cfg s.hk.dieSerial D = E
  intro ht
  exact ite_sound ht h

theorem execRailFallDuringRisingPhase_sound (rail : Fin 9) {s s' : State} (h : Sound s.dev) (e : execRailFallDuringRisingPhase rail s = .next s') : Sound s'.dev := by
  unfold execRailFallDuringRisingPhase at e
  cases e
  repeat' first
    | exact h
    | exact freshDev_sound _ _
    | exact haltDev_sound _
    | split

theorem execLemiusBackToDetect_sound (p : LPort) {s s' : State} (h : Sound s.dev) (e : execLemiusBackToDetect p s = .next s') : Sound s'.dev := by
  unfold execLemiusBackToDetect at e
  refine onDev_sound e h fun h => ?_
  try dsimp only
  repeat' first
    | with_reducible assumption
    | with_reducible apply backToDetect_sound

theorem execElectricalIdleHoldEnd_sound (p : LPort) {s s' : State} (h : Sound s.dev) (e : execElectricalIdleHoldEnd p s = .next s') : Sound s'.dev := by
  unfold execElectricalIdleHoldEnd at e
  refine onDev_sound e h fun h => ?_
  try dsimp only
  repeat' first
    | with_reducible assumption
    | with_reducible refine modP_sound ?_ _ ?_ ?_
    | exact fun _ m => m
    | exact fun _ _ => darnSound_init
    | with_reducible refine ite_sound ?_ ?_

theorem execLaneMarginingRequest_sound (p : LPort) (m : MarginRequest) {s s' : State} (h : Sound s.dev) (e : execLaneMarginingRequest p m s = .next s') : Sound s'.dev := by
  unfold execLaneMarginingRequest at e
  refine onDev_sound e h fun h => ?_
  try dsimp only
  repeat' first
    | with_reducible assumption
    | with_reducible apply draw_sound
    | with_reducible refine modP_sound ?_ _ ?_ ?_
    | exact fun _ m => m
    | exact fun _ _ => darnSound_init
    | with_reducible refine ite_sound ?_ ?_

theorem execLoopbackFollowerEntry_sound (trellis : Bool) (port : Fin 8) {s s' : State} (h : Sound s.dev) (e : execLoopbackFollowerEntry trellis port s = .next s') : Sound s'.dev := by
  unfold execLoopbackFollowerEntry at e
  refine onDev_sound e h fun h => ?_
  try dsimp only
  repeat' first
    | with_reducible assumption
    | with_reducible refine modP_sound ?_ _ ?_ ?_
    | with_reducible refine modT_sound ?_ _ ?_
    | exact fun _ m => m
    | exact fun _ _ => darnSound_init
    | with_reducible refine ite_sound ?_ ?_

theorem execAlignmentBlockReceive_sound (i : TPort) (bytes : List Byte) {s s' : State} (h : Sound s.dev) (e : execAlignmentBlockReceive i bytes s = .next s') : Sound s'.dev := by
  unfold execAlignmentBlockReceive at e
  refine onDev_sound e h fun h => ?_
  try dsimp only
  repeat' first
    | with_reducible assumption
    | with_reducible refine modT_sound ?_ _ ?_
    | exact fun _ m => m
    | exact fun _ _ => darnSound_init
    | with_reducible refine ite_sound ?_ ?_
    | split

theorem execClearFirstComplete_sound (p : LPort) (r : RingNo) {s s' : State} (h : Sound s.dev) (e : execClearFirstComplete p r s = .next s') : Sound s'.dev := by
  unfold execClearFirstComplete at e
  refine onDev_sound e h fun h => ?_
  try dsimp only
  repeat' first
    | with_reducible assumption
    | with_reducible apply clearSpool_sound
    | with_reducible apply epilogue_sound
    | with_reducible apply modRun_sound
    | with_reducible apply pumpInst_sound
    | exact fun _ m => m
    | exact fun _ _ => darnSound_init
    | with_reducible refine ite_sound ?_ ?_
    | split

theorem execAbortedInstanceWatchdogExpiry_sound (t : Tenant) (coll : W16) {s s' : State} (h : Sound s.dev) (e : execAbortedInstanceWatchdogExpiry t coll s = .next s') : Sound s'.dev := by
  unfold execAbortedInstanceWatchdogExpiry at e
  refine onDev_sound e h fun h => ?_
  try dsimp only
  repeat' first
    | with_reducible assumption
    | with_reducible apply bumpHealth_sound
    | with_reducible apply closeInst_sound
    | with_reducible apply epilogue_sound
    | with_reducible apply forcePrologue_sound
    | exact fun _ m => m
    | exact fun _ _ => darnSound_init
    | with_reducible refine ite_sound ?_ ?_
    | split

end Sys2Proof.Machine
end

