-- ==== Sys2Proof/Tests/Slice0.lean ====
section
/-! SUPPORT. Tests of the model against the spec's worked values, the refusals of ill-formed commands, and for every statement with hypotheses the states that meet them. -/
namespace Sys2Proof.Tests
open Sys2Proof Sys2Proof.Machine

-- One theorem after another: each of many kernel evaluations at once would hold a thread of its own.
set_option Elab.async false

/-! ## Small states -/

/-- A latched configuration: the straps, and the codes named, every other code 0. -/
def conf (straps : BitVec 4) (l : List (Fin 12 × BitVec 4)) : Cfg :=
  { Cfg.reset with latched := true, straps := straps, codes := l.foldl (fun v e => v.set e.1 e.2) (Vector.replicate 12 0) }

/-- A unit out of reset with a configuration and a device state. -/
def mk (c : Cfg) (d : Dev) : State := { State.reset with cfg := c, dev := d }

/-- ORIGIN; every port in use, and all of tenant 0; no line owner. -/
def c0 : Cfg := conf 1 [(3, 15), (4, 15), (9, 15), (10, 15)]

/-- Status changed, everything else as after a reset. -/
def st (f : Stat → Stat) : Dev := modS Dev.reset f

/-- Leaf port 0 changed. -/
def lp (f : LemPort → LemPort) : Dev := modP Dev.reset 0 f

/-- Trellis port 0 changed. -/
def tp (f : TrlPort → TrlPort) : Dev := modT Dev.reset 0 f

/-- A leaf port that is up, started, with its hello done and a window at 0. -/
def upPort (x : LemPort) : LemPort :=
  { x with phase := .up, helloSeen := true, helloDone := true, present := true, started := true, accepted := 16, helloResult := 0
           hello := { windowBase := 0, windowSize := 1048576, ringTable := 4096, statusPage := 8192, leafTag := 7 } }

/-- A Trellis port that is up. -/
def upTrl (x : TrlPort) : TrlPort := { x with st := .up, linkUp := true }

/-- Unit 0 of a formed chain of two along X, both its X ports up, its leaf port 0 up. -/
def two : Dev :=
  modP (modT (modT { Dev.reset with sow := { Sow.reset with step10 := true, posKnown := true, dims := ⟨2, 1, 1⟩, formed := true } } 0 upTrl) 1 upTrl) 0 upPort

/-- A frame that the FEC leaves as it is. -/
def noFix : FecFix := Vector.replicate 3 none

/-- A descriptor: 128 zero bytes with the bytes named. -/
def desc (l : List (Nat × Byte)) : List Byte := l.foldl (fun bs e => bs.set e.1 e.2) (zeros 128)

/-- A Lemius frame's content. -/
def lf (kind : Byte) (vc : BitVec 2) (pl : List Byte) : LemFrame :=
  { kind := kind, vc := vc, stream := 0, last := false, status := 0, addr := 0, payload := pl }

/-- A Trellis frame's content from unit 1. -/
def tf (kind : Byte) (vc : BitVec 3) (dest : BitVec 6) (pl : List Byte) : TrlFrame :=
  { kind := kind, vc := vc, tenant := 0, endChunk := false, src := 1, coll := 0, chunk := 0, frame := 0, dest := dest, payload := pl }

/-- A running ring's header: 8 slots at 0, completions at 4096, the consumed word at 12288. -/
def hdr8 : RingHdr :=
  { epoch := 5, startIndex := 0xFFFE, ringLog2 := 3, pollCode := 1, pegClass := false, ringBase := 0, cplBase := 16384, consumedAddr := 12288, windowBase := 0 }

/-- A running ring. -/
def ring8 : Ring := { Ring.reset with st := .running, hdr := hdr8 }

/-- A head that has nothing to wait for. -/
def head0 (stage : HeadStage) : Head :=
  { stage := stage, list := none, counts := [], countsLeft := 0, readFailed := false, met := [true, true, true, true], status := 0,
    warnings := 0, recipe := [], recipeTries := 0, watchIds := [none, none, none, none], watchFull := [false, false, false, false] }

/-- An admitted descriptor of index 6. -/
def run0 (bs : List Byte) : Run := { newRun Dev.reset (head0 .ready) ⟨6, bs⟩ 0 [] with index := 6 }

/-- The chain of two, ring 0 of port 0 changed. -/
def twoR (f : Ring → Ring) : Dev := modR two 0 0 fun _ => f ring8

/-- The chain of two with a ready head of these bytes. -/
def twoH (bs : List Byte) : Dev := twoR fun x => { x with head := some (head0 .ready), queue := [⟨6, bs⟩] }

/-- The chain of two with a running descriptor of these bytes. -/
def twoC (bs : List Byte) : Dev := twoR fun x => { x with cur := some (run0 bs) }

/-! ## Ill-formed commands are refused -/

theorem test_wf_refuses_sizes :
    Instr.wf (.levelPinMeasurement [] 0 0 false) = false ∧ Instr.wf (.lemiusFrameReceive 0 (zeros 255) noFix) = false ∧
    Instr.wf (.trellisFrameReceive 0 (zeros 257) noFix) = false ∧ Instr.wf (.alignmentBlockReceive 0 []) = false ∧
    Instr.wf (.trellisLinkUp 0 (zeros 15) (zeros 16)) = false ∧ Instr.wf (.trellisLinkUp 0 (zeros 16) (zeros 17)) = false ∧
    Instr.wf (.hello 0 (lf 5 3 (zeros 225))) = false ∧ Instr.wf (.sowHello 0 (tf 5 0 0 (zeros 225))) = false := by decide +kernel

theorem test_wf_refuses_kinds :
    Instr.wf (.hello 0 (lf 4 3 (zeros 48))) = false ∧ Instr.wf (.nudge 0 (lf 5 3 [0, 0])) = false ∧ Instr.wf (.leafLinkDownFrame 0 (lf 4 3 [1])) = false ∧
    Instr.wf (.readCpl 0 (lf 3 0 [])) = false ∧ Instr.wf (.prologueReceive 0 (tf 1 1 0 [])) = false ∧
    Instr.wf (.trellisDataReceive 0 { tf 1 1 0 [] with chunk := 0xFFFFFFFF }) = false ∧ Instr.wf (.trellisSignalReceive 0 (tf 1 1 0 [])) = false ∧
    Instr.wf (.trellisLinkDownFrame 0 (tf 5 0 0 [])) = false ∧ Instr.wf (.seed 0 (tf 6 0 0 [])) = false ∧ Instr.wf (.arrive 0 (tf 4 5 0 [])) = false ∧
    Instr.wf (.release 0 (tf 3 6 0 [])) = false ∧ Instr.wf (.verdict 0 (tf 6 7 0 [])) = false := by decide

theorem test_wf_accepts : Instr.wf (.nudge 0 (lf 4 3 [0, 0])) = true ∧ Instr.wf (.trellisFrameReceive 5 (zeros 256) noFix) = true ∧
    Instr.wf (.trellisLinkUp 0 (zeros 16) (zeros 16)) = true ∧ Instr.wf .idcode = true := by decide +kernel

/-! ## No word spells a command -/

theorem test_no_word_spells_a_command (n w : Nat) : decodeTableWord n w = none := rfl

theorem test_fetch_word_changes_nothing (s : State) (n w : Nat) : s.withFetchWord n w = s := rfl

/-! ## Worked values of the spec -/

/-- The check value of CRC-32C over the ASCII digits 1 to 9, whose parameters R225 gives. -/
theorem test_crc32c : crc32c [0x31, 0x32, 0x33, 0x34, 0x35, 0x36, 0x37, 0x38, 0x39] = 0xE3069283 := by decide +kernel

/-- R313's worked ring across the wrap: index FFFEh has slot 6 and phase 0, 0000h slot 0 and phase 1, 0008h slot 0 and phase 0. -/
theorem test_ring_across_the_wrap :
    slotOf hdr8 0xFFFE = 6 ∧ expectedPhase hdr8 0xFFFE = 0 ∧ slotOf hdr8 0 = 0 ∧ expectedPhase hdr8 0 = 1 ∧ slotOf hdr8 8 = 0 ∧ expectedPhase hdr8 8 = 0 := by decide

/-- R544's table: a slice of 16,384 pegs from 49,152 and a window at 63,488. -/
theorem test_peg_window_wraps_in_its_slice :
    let c := conf 0 [(5, 10)]
    physPeg c 3 63488 0 = some 63488 ∧ physPeg c 3 63488 2047 = some 65535 ∧ physPeg c 3 63488 2048 = some 49152 ∧ physPeg c 3 63488 3000 = some 50104 ∧
    physPeg c 2 63488 0 = none := by decide +kernel

/-- R192, R193: in a torus of 4 by 3 by 2 the unit at (3, 2, 1) has address 23; its X+ port faces (0, 2, 1) and its Y+ port (3, 0, 1). -/
theorem test_addresses : addrOf ⟨4, 3, 2⟩ ⟨3, 2, 1⟩ = 23 ∧ posOf ⟨4, 3, 2⟩ 23 = ⟨3, 2, 1⟩ ∧ facing ⟨4, 3, 2⟩ 23 0 = 20 ∧ facing ⟨4, 3, 2⟩ 23 2 = 15 ∧ facing ⟨4, 3, 2⟩ 23 4 = 11 := by decide +kernel

/-- R122, R123: 499 ohms, 500 ohms, 299,999 ohms and an open pin. -/
theorem test_level_pins :
    levelCode ⟨49900, 4990, 1996⟩ = 0 ∧ levelCode ⟨50000, 5000, 2000⟩ = 1 ∧ levelCode ⟨1800000, 1800000, 1199996⟩ = 14 ∧ levelCode ⟨1800000, 1800000, 1200000⟩ = 15 ∧
    levelCode ⟨1800000, 1800000, 1200001⟩ = 15 := by decide +kernel

/-- R232: after A = FFFh the next number is 000h; 800h to FFFh are duplicates, 001h to 7FFh ahead. -/
theorem test_darn_numbers :
    let t (n : BitVec 12) : Tail := { seq := n, seqd := true, ack := 0, ackValid := false, nack := false, reservedOk := true }
    let dn : Darn LemTx := Darn.init
    (darnRx dn true (t 0)).1 = .accept ∧ (darnRx dn true (t 0xFFF)).1 = .duplicate ∧ (darnRx dn true (t 0x800)).1 = .duplicate ∧
    (darnRx dn true (t 1)).1 = .ahead ∧ (darnRx dn true (t 0x7FF)).1 = .ahead := by decide +kernel

/-- R542: a tally at FFF0h plus 20h saturates with TALLY_OVERFLOW; a tally of 3 less 5 is 0 with TALLY_UNDERFLOW. -/
theorem test_tallies : pegApply 3 0xFFF0 0x20 = (0xFFFF, 2) ∧ pegApply 4 3 5 = (0, 3) ∧ pegApply 4 5 3 = (2, 0) := by decide

/-- R661: the identification code of each ordering code. -/
theorem test_idcode : ∃ t, exec .idcode State.reset = .next t ∧ t.hk.tapDr.length = 32 ∧ t.hk.tapDr.take 4 = [true, true, false, true] := ⟨_, rfl, by decide +kernel⟩

/-- A halt after a reset leaves no unit that runs (R178). -/
theorem test_brown_out_halts : ∃ t, exec (.brownOut 0 false) State.reset = .next t ∧ alive t = false ∧ t.dev.stat.faultN = true ∧ t.hk.brownOut = true := ⟨_, rfl, by decide +kernel⟩

/-! ## Worked cases of arithmetic, decisions and placement -/

/-- R447, R440: 256 and three 1s in BF16, in the order of chunk 0 and of chunk 1: 256 and 260. -/
theorem test_native_order_matters :
    let a := nativeAdd .bf16 0
    a (a (a 0x4380 0x3F80) 0x3F80) 0x3F80 = 0x4380 ∧ a (a (a 0x3F80 0x3F80) 0x3F80) 0x4380 = 0x4382 := by decide +kernel

/-- R450, R453: the exact sum of the same addends, in two orders, has byte 12h 60h and byte 13h 20h, and rounds to 260. -/
theorem test_exact_order_does_not :
    let ar : Arith := { fmt := .bf16, exact := true, red := 1, round := 0 }
    let l (b : Nat) := accOf ar 0 b
    let s := accAdd ar (accAdd ar (accAdd ar (l 0x4380) (l 0x3F80)) (l 0x3F80)) (l 0x3F80)
    s = accAdd ar (accAdd ar (l 0x3F80) (l 0x3F80)) (accAdd ar (l 0x3F80) (l 0x4380)) ∧
    byteAt (accBytes ar s) 0x12 = 0x60 ∧ byteAt (accBytes ar s) 0x13 = 0x20 ∧ (accBytes ar s).length = 40 ∧ accOut ar .bf16 0 s = 0x4382 := by decide +kernel

/-- R455's winners among the members 2, 5, 7, 130 and 260 in binary16. -/
theorem test_winners :
    let win (red : Nat) (l : List Nat) : Nat × Nat :=
      let ar : Arith := { fmt := .binary16, exact := false, red := red, round := 0 }
      match ((List.zip [2, 5, 7, 130, 260] l).map fun e => accOf ar e.1 e.2) with
      | a :: rest => let w := rest.foldl (accAdd ar) a; (accOut ar .binary16 0 w, accIdx w)
      | [] => (0, 0)
    win 2 [0x8000, 0x7E00, 0, 0x4200, 0x4200] = (0x4200, 130) ∧ win 3 [0x8000, 0x7E00, 0, 0x4200, 0x4200] = (0x8000, 2) ∧
    win 2 [0x7E00, 0x7E01, 0xFE00, 0x7E00, 0x7E00] = (0x7E00, 2) ∧ win 3 [0x7C00, 0x3C00, 0x7E00, 0xFC00, 0x7C00] = (0xFC00, 130) ∧
    win 2 [0, 0, 0x8000, 0x8000, 0] = (0, 2) ∧ win 3 [0, 0, 0x8000, 0x8000, 0] = (0x8000, 7) := by decide +kernel

/-- R487: a column of three weights 1.0 over (2^24, 1, 1) ends at 2^24, and over the reverse at 2^24 + 2. -/
theorem test_press_row_order :
    let v (b : Nat) := decodeVal .bf16 b
    let w := [v 0x3F80, v 0x3F80, v 0x3F80]
    roundTo (pressColumn (.fin false 0 0) [v 0x4B80, v 0x3F80, v 0x3F80] w) .binary32 0 = 0x4B800000 ∧
    roundTo (pressColumn (.fin false 0 0) [v 0x3F80, v 0x3F80, v 0x4B80] w) .binary32 0 = 0x4B800001 := by decide +kernel

/-- R491, R492: one Sieve input and its selections; the bytes of the top-3. -/
theorem test_sieve_selections :
    let v := [0x40400000, 0x7FC00000, 0x40A00000, 0x40A00000, 0xFF800000, 0].map (decodeVal .binary32)
    let sel (op k thr : Nat) := (sieveSelect op k (decodeVal .binary32 thr) v).map (·.2)
    sel 1 0 0 = [2] ∧ sel 2 0 0 = [4] ∧ sel 3 3 0 = [2, 3, 0] ∧ sel 4 3 0 = [4, 5, 0] ∧ sel 3 8 0 = [2, 3, 0, 5, 4, 1, 0xFFFFFFFF, 0xFFFFFFFF] ∧
    sel 5 0 0x40A00000 = [0xFFFFFFFF] ∧ sel 5 0 0x40900000 = [2] ∧
    (let b := sieveBytes .bf16 0 (sieveSelect 3 3 .nan v)
     b.length = 20 ∧ b.take 6 = [0xA0, 0x40, 0xA0, 0x40, 0x40, 0x40] ∧ b.drop 8 = [2, 0, 0, 0, 3, 0, 0, 0, 0, 0, 0, 0]) := by decide +kernel

/-- R512: two stripes of the region on two port slots; R68, R69: the addresses of a tenant whose ports are 6 and 7. -/
theorem test_places :
    let c := conf 0 [(3, 15), (4, 11), (10, 15)]
    portsOf c 1 = [6, 7] ∧ spoolPhys c 1 (13 * 2 ^ 29) = 0xE20000000 ∧ stripePlace 0xE2000 = (0, 4, 14, 904) ∧ stripePlace 0xE25B8 = (1, 24, 8, 905) ∧
    yardPhys c 1 0 = 152 * 2 ^ 20 ∧ sliceOf (conf 0 [(5, 2)]) 1 = (49152, 16384) := by decide +kernel

/-- R122's unit of a sixteen-unit system: 150 kilohms, 1.50 and 1.00 kilohms, and 15.0 kilohms. -/
theorem test_fitted_pins :
    levelCode ⟨1800000, 1500000, 600000⟩ = 14 ∧ levelCode ⟨150000, 15000, 6000⟩ = 2 ∧ levelCode ⟨100000, 10000, 4000⟩ = 1 ∧ levelCode ⟨1500000, 150000, 60000⟩ = 8 := by decide +kernel

/-- R418, R417: three cores with capacity four: each output has 36 bytes, core 1's input 24. -/
theorem test_hem_sizes :
    let d := desc [(0, 2), (0x28, 1), (0x29, 1), (0x2A, 1), (0x30, 7), (0x32, 7), (0x68, 4)]
    let counts := [3, 5, 1, 6, 2, 4, 0, 4, 4].flatMap fun n => toLe n 4
    outBytes d 3 0 false = 36 ∧ inBytes d 3 counts 1 false = 24 ∧ hemKept d 6 = 4 ∧ hemKept d 3 = 3 := by decide +kernel

/-- R365 to R450: an element of 0.75 of an exact binary32 region has byte 12h 18h. -/
theorem test_long_word : byteAt (accBytes { fmt := .binary32, exact := true, red := 1, round := 0 } (accOf { fmt := .binary32, exact := true, red := 1, round := 0 } 0 0x3F400000)) 0x12 = 0x18 := by decide +kernel

/-! ## States that meet the statements' hypotheses: the step, the supplies and bring-up -/

theorem witness_AnEmptyQueueTicks :
    State.reset.pending = [] ∧ alive State.reset = true ∧
    (let s : State := { State.reset with hk := { Hk.reset with inReset := true } }; s.pending = [] ∧ alive s = false) := by decide +kernel

/-- A command leaves the configuration, begins a reset, or latches it; the fuse that is blown, and the one that blows. -/
theorem witness_ConfigurationAndFuseAreHeld :
    (∃ t, exec .idcode (mk c0 two) = .next t ∧ t.cfg = c0) ∧
    (∃ t, exec (.resetAssert false) (mk c0 two) = .next t ∧ t.cfg = Cfg.reset ∧ t.hk.inReset = true) ∧
    (∃ t, exec (.levelPinMeasurement [] 0 0 true) (mk Cfg.reset (st fun x => { x with hkLocked := true })) = .next t ∧
      t.cfg.latched = true ∧ State.reset.hk.fuseBlown = false ∧ t.hk.fuseBlown = true) ∧
    (∃ t, exec .idcode { State.reset with hk := { Hk.reset with fuseBlown := true } } = .next t ∧ t.hk.fuseBlown = true) :=
  by refine ⟨⟨_, rfl, ?_⟩, ⟨_, rfl, ?_⟩, ⟨_, rfl, ?_⟩, _, rfl, ?_⟩ <;> decide +kernel

theorem witness_AUnitThatDoesNotRunKeepsItsState :
    alive (mk c0 (st fun x => { x with halted := true })) = false ∧ supplyRow (.statusPageWrite 0) = false ∧
    ∃ t, exec (.statusPageWrite 0) (mk c0 (st fun x => { x with halted := true })) = .next t := ⟨by decide +kernel, rfl, _, rfl⟩

/-- A unit in its rails-rising phase, with these pins. -/
def rising (resetPin chainPin : Bool) : State :=
  { State.reset with hk := { Hk.reset with rails := 0, railsRising := true, inReset := true, causeRising := true, resetPin := resetPin, chainPin := chainPin } }

theorem witness_SupplyRowsGiveTheRailsRisingPhase :
    (let s : State := { State.reset with hk := { Hk.reset with vddIo := false } }; s.hk.vddIo = false) ∧
    (let s := rising false false; s.hk.vddIo = true ∧ s.hk.railsRising = true ∧ s.hk.resetPin = false ∧ s.hk.chainPin = false) ∧
    (let s := rising true false; s.hk.vddIo = true ∧ s.hk.railsRising = true ∧ (s.hk.resetPin = true ∨ s.hk.chainPin = true)) ∧
    (let s := rising false true; s.hk.vddIo = true ∧ s.hk.railsRising = true ∧ (s.hk.resetPin = true ∨ s.hk.chainPin = true)) ∧
    State.reset.hk.vddIo = true := by decide

theorem witness_HaltsSetTheirFlags :
    (let s := mk c0 two; s.hk.vddIo = true ∧ s.hk.railsRising = false ∧ s.hk.inReset = false ∧ s.dev.stat.halted = false) ∧
    (let s : State := { State.reset with hk := { Hk.reset with inReset := true } }; s.hk.vddIo = true ∧ s.hk.railsRising = false ∧ (s.hk.inReset = true ∨ s.dev.stat.halted = true)) ∧
    (let s := mk c0 (st fun x => { x with halted := true }); s.hk.vddIo = true ∧ s.hk.railsRising = false ∧ (s.hk.inReset = true ∨ s.dev.stat.halted = true)) := by decide +kernel

theorem witness_ResetFromFirstAssertionToLastRelease :
    (State.reset.hk.vddIo = true ∧ State.reset.hk.inReset = false) ∧
    (let s : State := { State.reset with hk := { Hk.reset with inReset := true, resetPin := true } };
      s.hk.vddIo = true ∧ s.hk.inReset = true ∧ s.hk.railsRising = false ∧ s.hk.chainPin = false ∧ s.hk.resetPin = true) ∧
    (let s : State := { State.reset with hk := { Hk.reset with inReset := true, chainPin := true } };
      s.hk.vddIo = true ∧ s.hk.inReset = true ∧ s.hk.railsRising = false ∧ s.hk.resetPin = false ∧ s.hk.chainPin = true) := by decide

theorem witness_TrainingStartsOnThePortsInUse :
    let d := st fun x => { x with loopsLocked := true }
    c0.latched = true ∧ d.stat.loopsLocked = true ∧ d.stat.trainStarted = false := by decide +kernel

theorem witness_BringUpStepsAndTheirStops :
    (alive State.reset = true ∧ State.reset.dev.stat.hkLocked = false) ∧
    (let s := mk Cfg.reset (st fun x => { x with hkLocked := true });
      alive s = true ∧ s.dev.stat.hkLocked = true ∧ s.dev.stat.loopsLocked = false ∧ s.dev.stat.stop = none ∧ (0x80001#20 &&& 0x7FFFF ≠ 0)) ∧
    (let s := mk Cfg.reset (st fun x => { x with hkLocked := true, loopsLocked := true });
      alive s = true ∧ s.dev.stat.loopsLocked = true ∧ s.dev.stat.pllFail = 0 ∧ s.dev.stat.memReady = false ∧ s.dev.stat.bringupMask = 0 ∧ s.dev.stat.stop = none ∧
      (false || false || true) = true) := by decide +kernel

theorem witness_TheMeasurementLatchesTheConfiguration :
    let s := mk Cfg.reset (st fun x => { x with hkLocked := true })
    alive s = true ∧ s.dev.stat.hkLocked = true ∧ s.cfg.latched = false ∧ (0x8000 : W16) ≠ 0 ∧ s.dev.stat.stop = none := by decide +kernel

theorem witness_ResistanceBandsGiveTheLevelPinCodes : 0 < 4 := by decide

theorem witness_ReadyAndThePortsStart :
    (let s := mk c0 { two with stat := { Stat.reset with trainStarted := true, memReady := true } };
      alive s = true ∧ s.cfg.latched = true ∧ s.dev.stat.trainStarted = true ∧ s.dev.stat.memReady = true ∧ s.dev.sow.formed = true ∧ s.dev.stat.stop = none ∧
      s.dev.stat.ready = false ∧ s.cfg.codes[2].toNat = 0) ∧
    (conf 1 [(2, 1)]).codes[2].toNat ≠ 0 ∧
    (let s := mk c0 { two with stat := { Stat.reset with ready := true, startQueue := [0] } };
      alive s = true ∧ s.dev.stat.ready = true ∧ portPresent s.dev 0 = true ∧ s.dev.stat.startQueue.head? = some 0 ∧ (1 : LPort) ≠ 0) := by decide +kernel

/-! ## Leaf ports -/

/-- What a Configuration found: this selection, and which lanes hold. -/
def found (sel : Option (W16 × Byte)) (fast : Bool) (order e64 e32 : Byte) : Training :=
  { selected := sel, offers64 := fast, inOrder := order, equal64 := e64, equal32 := e32 }

/-- Each row of R218, a partner whose lanes fit none, and one that selects nothing or another version. -/
theorem witness_training_rows :
    let lem : Option (W16 × Byte) := some (0x4C45, 1)
    trainedRow (found lem true 0xFF 0xFF 0xFF) = some 0 ∧ trainedRow (found lem false 0xFF 0xFF 0xFF) = some 1 ∧ trainedRow (found lem true 0x0F 0xFF 0x0F) = some 2 ∧
    trainedRow (found lem true 0x07 0xFF 0xFF) = none ∧ trainedRow (found none true 0xFF 0xFF 0xFF) = none ∧ trainedRow (found (some (0x4C45, 2)) true 0xFF 0xFF 0xFF) = none := by decide

theorem witness_PortsTrainAndFollow :
    (let s := mk c0 (lp fun x => { x with phase := .training }); alive s = true ∧ s.dev.lem[0].phase = .training) ∧
    (let s := mk c0 (lp fun x => { x with phase := .loopback }); alive s = true ∧ s.dev.lem[0].phase = .loopback) ∧
    (let s := mk c0 (lp fun x => { x with phase := .idleHold }); alive s = true ∧ s.dev.lem[0].phase = .idleHold) ∧
    (let s := mk c0 (lp fun x => { x with phase := .up }); alive s = true ∧ s.dev.lem[0].phase = .up) ∧
    (let s := mk c0 (tp fun x => { x with st := .training }); alive s = true ∧ s.dev.trl[0].st = .training ∧ s.dev.trl[0].linkUp = false) := by decide +kernel

/-- Tails at the ends of each range of R232, A being FFFh. -/
theorem witness_DarnComparesEachNumberWithTheLast :
    let t (n : BitVec 12) (q : Bool) : Tail := { seq := n, seqd := q, ack := 0, ackValid := false, nack := false, reservedOk := true }
    let dn : Darn LemTx := Darn.init
    (t 0 false).seqd = false ∧ ((t 0 true).seqd = true ∧ (t 0 true).seq = dn.last + 1) ∧
    (0 ≤ 2047 ∧ (t 0xFFF true).seq = dn.last - BitVec.ofNat 12 0) ∧ (2047 ≤ 2047 ∧ (t 0x800 true).seq = dn.last - BitVec.ofNat 12 2047) ∧
    (2 ≤ 2 ∧ (t 1 true).seq = dn.last + BitVec.ofNat 12 2) ∧ (2048 ≤ 2048 ∧ (t 0x7FF true).seq = dn.last + BitVec.ofNat 12 2048) := by decide

/-- Two held frames: the acknowledgement of the first, one of neither; the retry counts below 8. -/
theorem witness_HeldFramesAreReleasedInOrder :
    let f := tf 5 0 0 (zeros 24)
    let dn (r : Nat) : Darn TrlFrame := { Darn.init with next := 1, held := [(0xFFF, f), (0, f)], retries := r }
    (dn 0).held = [] ++ (0xFFF, f) :: [(0, f)] ∧ (∀ e ∈ ([] : List (BitVec 12 × TrlFrame)), e.1 ≠ 0xFFF) ∧
    (dn 0).held = [(0xFFF, f)] ++ (0, f) :: [] ∧ (∀ e ∈ [(0xFFF#12, f)], e.1 ≠ 0) ∧
    (dn 0).asked = false ∧ (∀ e ∈ (dn 0).held, e.1 ≠ 5) ∧ (dn 0).retries < 7 ∧ (dn 6).retries < 7 ∧ (dn 7).retries = 7 := by decide +kernel

/-- A HELLO's bytes with number 000h, an IDLE's with a NACK for the frame before the one held, and bytes whose CRC fails. -/
def helloBytes : List Byte := withTail ([5, 3, 48, 0] ++ zeros 12 ++ [1, 16, 0, 0, 64, 128, 2, 8]) (some 0) 0xFFF false
def nackBytes : List Byte := withTail (zeros 16) none 0xFFF true

theorem witness_FramesReachALeafPort :
    let s := mk c0 (lp fun x => { upPort x with credit := x.credit.map fun k => { k with adv := 2 } })
    let h := mk c0 (lp fun x => { upPort x with darn := { Darn.init with next := 1, held := [(0, .helloAck 16 0)] } })
    let h7 := mk c0 (lp fun x => { upPort x with darn := { Darn.init with next := 1, retries := 7, held := [(0, .helloAck 16 0)] } })
    (alive s = true ∧ s.dev.lem[0].phase = .up ∧ crcOk [] = false) ∧
    (fecApply helloBytes noFix = helloBytes ∧ fecApply nackBytes noFix = nackBytes ∧ fecApply [] noFix = [] ∧ fecFixed noFix = false) ∧
    (crcOk helloBytes = true ∧ crcOk nackBytes = true) ∧
    ((parseTail helloBytes).seqd = true ∧ (parseTail helloBytes).seq = (applyTail s.dev.lem[0].darn (parseTail helloBytes)).1.last + 1 ∧
      (applyTail s.dev.lem[0].darn (parseTail helloBytes)).2 = false ∧ lemFieldsOk helloBytes = true ∧ hadCredit s.dev.lem[0].credit[Fin.ofNat 4 (byteAt helloBytes 1)] = true) ∧
    (hadCredit h.dev.lem[0].credit[Fin.ofNat 4 (byteAt helloBytes 1)] = false ∧ alive h = true) ∧
    ((parseTail nackBytes).seqd = false ∧ lemFieldsOk nackBytes = true ∧ (applyTail h.dev.lem[0].darn (parseTail nackBytes)).2 = true ∧
      (applyTail h.dev.lem[0].darn (parseTail nackBytes)).1.retries < 7 ∧ h.dev.lem[0].darn.asked = false) ∧
    (h.dev.lem[0].phase = .up ∧ timerRuns h.dev.lem[0].darn = true ∧ h.dev.lem[0].darn.retries < 7) ∧
    (alive h7 = true ∧ h7.dev.lem[0].phase = .up ∧ timerRuns h7.dev.lem[0].darn = true ∧ h7.dev.lem[0].darn.retries = 7) :=
  ⟨by decide +kernel, ⟨rfl, rfl, rfl, rfl⟩, ⟨withTail_crcOk _ _ _ _, withTail_crcOk _ _ _ _⟩, by decide +kernel⟩

/-- A first HELLO, one with a reserved byte set, and a second one. -/
theorem witness_AHelloIsAnswered :
    let s := mk c0 (lp fun x => { x with phase := .up })
    let s2 := mk c0 (lp upPort)
    (alive s = true ∧ s.dev.lem[0].phase = .up ∧ isLeafFrame (lf 5 3 (zeros 48)) 5 0x30 = true ∧ s.dev.lem[0].helloSeen = false ∧ allZero (zeros 48) 2 2 = true) ∧
    (isLeafFrame (lf 5 3 ((zeros 48).set 3 1)) 5 0x30 = true ∧ allZero ((zeros 48).set 3 1) 2 2 = false) ∧
    (alive s2 = true ∧ s2.dev.lem[0].phase = .up ∧ s2.dev.lem[0].helloSeen = true) := by decide +kernel

/-- The last ring and the one beyond it; a port not started; a ring that is off, fetches, waits, and waits with its read outstanding. -/
theorem witness_NudgesMakeARingFetch :
    let wait : Dev := twoR fun x => { x with waiting := true }
    let out : Dev := pushTx wait 0 [{ vc := 0, stream := 0, body := .read { why := .slots 0 0 1, vc := 0, addr := 0, size := 128 } }]
    let n := lf 4 3 [0, 0]
    (alive (mk c0 two) = true ∧ two.lem[0].phase = .up ∧ isLeafFrame n 4 2 = true ∧ two.lem[0].helloDone = true ∧ two.lem[0].present = true ∧ two.lem[0].started = true ∧
      byteAt n.payload 0 = (0 : LPort).val ∧ byteAt n.payload 1 ≤ 7) ∧
    (byteAt (lf 4 3 [0, 7]).payload 1 ≤ 7 ∧ 7 < byteAt (lf 4 3 [0, 8]).payload 1 ∧ byteAt (lf 4 3 [1, 0]).payload 0 ≠ (0 : LPort).val) ∧
    ((lp fun x => { upPort x with started := false }).lem[0].started = false ∧ (lp fun x => { x with phase := .up }).lem[0].helloDone = false) ∧
    ((ringAt wait 0 0).st = .running ∧ (ringAt wait 0 0).waiting = true ∧ readsOut wait 0 0 isSlots = false) ∧
    ((ringAt out 0 0).st = .running ∧ (ringAt out 0 0).waiting = true ∧ readsOut out 0 0 isSlots = true) ∧
    ((ringAt (twoR id) 0 0).st = .running ∧ (ringAt (twoR id) 0 0).waiting = false) ∧
    ((ringAt two 0 0).st = .off ∧ (ringAt two 0 0).hdrData = none ∧ headerBusy c0 (bumpLem two 0 10) 0 0 = false ∧ two.recov.restart[tenantOf c0 0] = .none) ∧
    (ringAt (modR two 0 0 fun x => { x with hdrData := some [] }) 0 0).hdrData = some [] ∧
    (let y := ringAt (modR two 0 0 fun x => { x with st := .fenced, adopting := some [] }) 0 0; y.st ≠ .running ∧ y.hdrData = none ∧ y.adopting ≠ none) := by decide +kernel

theorem witness_ALeafLinkGoesDown :
    alive (mk c0 two) = true ∧ two.lem[0].phase = .up ∧ isLeafFrame (lf 7 3 [2]) 7 1 = true ∧ (1 : LPort) ≠ 0 := by decide +kernel

/-- An outstanding read of a header, and one of two slots, with the completions that each expects. -/
theorem witness_ReadCompletionsAreMatched :
    let w : ReadWant := { why := .header 0, vc := 0, addr := 4096, size := 64 }
    let o : ReadOut := { tag := 3, want := w, got := [], discard := false }
    let o2 : ReadOut := { tag := 3, want := { why := .slots 0 0 2, vc := 0, addr := 0, size := 256 }, got := [], discard := false }
    let o3 : ReadOut := { tag := 1023, want := { why := .input 0 0 0, vc := 1, addr := 0, size := 256 }, got := [], discard := true }
    let s := mk c0 (modP two 0 fun x => { x with reads := [o] })
    let s2 := mk c0 (modP two 0 fun x => { x with reads := [o2] })
    let s3 := mk c0 (modP two 0 fun x => { x with reads := [o3] })
    let f (n : Nat) (last : Bool) (a : W64) : LemFrame := { lf 2 0 (zeros n) with last := last, addr := a }
    let fnd (s : State) (f : LemFrame) := s.dev.lem[0].reads.find? fun o => o.tag == f.addr.toNat % 4096
    (alive s = true ∧ s.dev.lem[0].phase = .up ∧ (f 64 true 3).kind = 2 ∧ fnd s (f 64 true 4) = none) ∧
    (fnd s (f 63 true 3) = some o ∧ cplFits o (f 63 true 3) = false) ∧
    (fnd s2 (f 224 false 3) = some o2 ∧ cplFits o2 (f 224 false 3) = true ∧ (f 224 false 3).status = 0 ∧ (f 224 false 3).last = false) ∧
    (fnd s (f 64 true 3) = some o ∧ cplFits o (f 64 true 3) = true ∧ (f 64 true 3).status = 0 ∧ (f 64 true 3).last = true ∧ o.discard = false ∧ o.want.why = .header 0 ∧
      (ringAt s.dev 0 0).hdrData = none ∧ (ringAt (modR s.dev 0 0 fun x => { x with hdrData := some [] }) 0 0).hdrData = some []) ∧
    (let o4 : ReadOut := { o2 with got := zeros 224 };
      let s4 := mk c0 (modP two 0 fun x => { x with reads := [o4] })
      let g : LemFrame := f 32 true (BitVec.ofNat 64 (224 * 65536 + 3))
      fnd s4 g = some o4 ∧ cplFits o4 g = true ∧ g.status = 0 ∧ g.last = true ∧ o4.discard = false ∧ o4.want.why = .slots 0 0 2) ∧
    ((s3.dev.lem[0].reads.find? fun o => o.tag == (1023 : BitVec 10).toNat) = some o3 ∧ o3.discard = true ∧ o3.want.vc = 1) ∧
    ((s.dev.lem[0].reads.find? fun o => o.tag == (3 : BitVec 10).toNat) = some o ∧ o.discard = false ∧ o.want.vc = 0) := by decide +kernel

/-! ## Trellis ports and sowing -/

theorem witness_TrellisPortsTrainAndAlign :
    let train := mk c0 (modS (tp fun x => { x with st := .training }) fun x => { x with trainStarted := true })
    let up (n : Nat) := mk c0 (tp fun x => { upTrl x with sinceAlign := n })
    (alive train = true ∧ train.dev.stat.trainStarted = true ∧ train.dev.trl[0].st = .training ∧ train.dev.trl[0].linkUp = false ∧ train.dev.trl[0].loopLeader = false ∧
      train.dev.trl[0].loopFollower = false ∧ train.dev.stat.stop = none) ∧
    (alive (up 20) = true ∧ (up 20).dev.trl[0].linkUp = true ∧ 20 ≤ (up 20).dev.trl[0].sinceAlign) := by decide +kernel

/-- The clause on bytes that are no alignment block. -/
theorem witness_no_alignment_block : ∀ n, ([] : List Byte) ≠ alignBytes n := by
  intro n h
  have := congrArg List.length h
  simp [alignBytes] at this

/-- A PEG frame's bytes with number 000h from a partner that has acknowledged nothing new. -/
def pegBytes : List Byte := withTail (trlBody (tf 3 5 0 (zeros 36)) 5 1) (some 0) 0xFFF false

theorem witness_FramesReachATrellisPort :
    let s := mk c0 (tp upTrl)
    let h (n : Nat) := mk c0 (tp fun x => { upTrl x with darn := { Darn.init with next := 1, retries := n, held := [(0, tf 3 5 0 (zeros 36))] } })
    (alive s = true ∧ s.dev.trl[0].linkUp = true ∧ crcOk [] = false ∧ fecApply [] noFix = []) ∧ (fecApply pegBytes noFix = pegBytes ∧ crcOk pegBytes = true) ∧
    ((parseTail pegBytes).seqd = true ∧ (parseTail pegBytes).seq = (applyTail s.dev.trl[0].darn (parseTail pegBytes)).1.last + 1 ∧ (applyTail s.dev.trl[0].darn (parseTail pegBytes)).2 = false) ∧
    (timerRuns (h 6).dev.trl[0].darn = true ∧ (h 6).dev.trl[0].darn.retries < 7 ∧ timerRuns (h 7).dev.trl[0].darn = true ∧ (h 7).dev.trl[0].darn.retries = 7) :=
  ⟨by decide +kernel, ⟨rfl, withTail_crcOk _ _ _ _⟩, by decide +kernel⟩

theorem witness_ATrellisLinkGoesDown :
    let s (b : Bool) := mk c0 { two with sow := { two.sow with formed := b } }
    let f := tf 6 0 0 [2]
    (alive (s true) = true ∧ (s true).dev.trl[0].linkUp = true ∧ f.kind = 6 ∧ trlContentOk f = true) ∧
    ((s false).dev.sow.formed = false ∧ (s false).dev.stat.stop = none) ∧ (s true).dev.sow.formed = true ∧ (1 : TPort) ≠ 0 := by decide +kernel

/-- A sowing frame from unit 1's serial 9. -/
def sow (kind port axis stop : Nat) (pos : List Nat) (dims : Dims) (codes : List (BitVec 4)) (roll : Nat) : TrlFrame :=
  { tf 5 0 0 (sowPayload { kind := kind, port := port, coded := false, axis := axis, stop := stop, pos := pos, dims := dims, codes := codes, roll := roll, serial := 9, mask := 0 }) with src := 0 }

/-- A unit of an uncoded chain past its step 10, which may be the ORIGIN unit. -/
def sowing (straps : BitVec 4) (f : Sow → Sow) : State :=
  mk (conf straps [(1, 15), (2, 15), (9, 15)]) { tp upTrl with sow := f { Sow.reset with step10 := true } }

theorem witness_SowingFramesFormTheTorus :
    let s := sowing 0 id
    let codes := uniformCodes s.cfg
    let other : List (BitVec 4) := [0, 0, 0, 0, 0]
    let D : Dims := ⟨0, 0, 0⟩
    let m (k p a z : Nat) (pos : List Nat) (c : List (BitVec 4)) := sow k p a z pos D c 0
    let fits (f : TrlFrame) : Bool := f.kind == 5 && trlContentOk f && trlCodesOk f
    (alive s = true ∧ s.dev.trl[0].linkUp = true ∧ s.dev.stat.stop = none ∧ s.dev.sow.step10 = true ∧ s.dev.sow.formed = false ∧ s.dev.trl[0].st ≠ .miswired ∧ s.dev.trl[0].hello = none) ∧
    (fits (m 1 1 0 0 [0, 0, 0] codes) = true ∧ (parseSow (m 1 1 0 0 [0, 0, 0] codes).payload).kind = 1 ∧ (parseSow (m 1 1 0 0 [0, 0, 0] codes).payload).port = facingPort 0) ∧
    (fits (m 1 5 0 0 [0, 0, 0] codes) = true ∧ (parseSow (m 1 5 0 0 [0, 0, 0] codes).payload).port ≠ facingPort 0) ∧
    (fits (m 2 1 0 0 [0, 0, 0] codes) = true ∧ (parseSow (m 2 1 0 0 [0, 0, 0] codes).payload).kind = 2 ∧ isOrigin s.cfg = false ∧ s.dev.sow.refHeld = false ∧
      (parseSow (m 2 1 0 0 [0, 0, 0] codes).payload).codes = codes) ∧
    (fits (m 2 1 0 0 [0, 0, 0] other) = true ∧ mismatchMask s.cfg (parseSow (m 2 1 0 0 [0, 0, 0] other).payload).codes ≠ 0) ∧
    (let s2 := sowing 0 fun x => { x with refHeld := true, refSerial := 8 }; s2.dev.sow.refHeld = true ∧ (parseSow (m 2 1 0 0 [0, 0, 0] codes).payload).serial ≠ s2.dev.sow.refSerial) ∧
    (fits (m 3 1 2 0 [0, 0, 3] codes) = true ∧ (let w := parseSow (m 3 1 2 0 [0, 0, 3] codes).payload; w.kind = 3 ∧ w.serial ≠ s.hk.dieSerial ∧ w.pos.getD w.axis 0 < 4) ∧
      s.dev.sow.seeded = false ∧ isCoded s.cfg = false) ∧
    (fits (m 3 1 0 0 [4, 0, 0] codes) = true ∧ (let w := parseSow (m 3 1 0 0 [4, 0, 0] codes).payload; w.kind = 3 ∧ w.serial ≠ s.hk.dieSerial ∧ w.pos.getD w.axis 0 = 4)) ∧
    (fits (m 4 1 0 0 [0, 0, 0] codes) = true ∧ (parseSow (m 4 1 0 0 [0, 0, 0] codes).payload).kind = 4 ∧ code s.cfg 2 = 15) ∧
    (fits (m 5 1 0 0 [0, 0, 0] codes) = true ∧ (parseSow (m 5 1 0 0 [0, 0, 0] codes).payload).kind = 5 ∧ s.dev.sow.posSent = false) ∧
    (let s3 := sowing 0 fun x => { x with posSent := true, dims := ⟨2, 1, 1⟩ }; s3.dev.sow.posSent = true ∧ (parseSow (m 5 1 0 0 [0, 0, 0] codes).payload).dims ≠ s3.dev.sow.dims) ∧
    (let s4 := sowing 0 fun x => { x with rollReady := [(0, 0xFFFF)] }
     (parseSow (m 6 1 0 0 [0, 0, 0] codes).payload).kind = 6 ∧ fits (m 6 1 0 0 [0, 0, 0] codes) = true ∧
      (s4.dev.sow.posKnown && s4.dev.sow.checkPassed && coordOf s4.dev.sow.pos 0 == 0) = false ∧ s4.dev.sow.rollReady.lookup 0 = some 0xFFFF) ∧
    (fits (m 7 1 0 0 [0, 0, 0] codes) = true ∧ (parseSow (m 7 1 0 0 [0, 0, 0] codes).payload).kind = 7 ∧
      dimOf (sowing 0 fun x => { x with dims := ⟨2, 1, 1⟩ }).dev.sow.dims ((2 : TPort).val / 2) = 1) ∧
    (fits (m 8 1 0 7 [0, 0, 0] codes) = true ∧ (parseSow (m 8 1 0 7 [0, 0, 0] codes).payload).kind = 8 ∧ stopOfNat (parseSow (m 8 1 0 7 [0, 0, 0] codes).payload).stop = some .sowNoOrigin) ∧
    (fits (m 8 1 0 1 [0, 0, 0] codes) = true ∧ stopOfNat (parseSow (m 8 1 0 1 [0, 0, 0] codes).payload).stop = some .cfgChainMismatch) := by decide +kernel

theorem witness_SowingWaitsForStep10AndEndsAtItsDeadlines :
    let early := sowing 0 fun x => { x with step10 := false }
    let f (k : Nat) := sow k 1 0 (if k = 8 then 1 else 0) [0, 0, 0] ⟨0, 0, 0⟩ [0, 0, 0, 0, 0] 0
    (alive early = true ∧ early.dev.trl[0].linkUp = true ∧ early.dev.stat.stop = none ∧ early.dev.sow.step10 = false) ∧
    (∀ k ∈ [1, 2, 3, 4, 5, 6, 7, 8], (f k).kind = 5 ∧ trlContentOk (f k) = true ∧ trlCodesOk (f k) = true ∧ byteAt (f k).payload 0 = k) ∧
    (let s := sowing 1 id; alive s = true ∧ s.dev.sow.step10 = true ∧ s.dev.sow.formed = false ∧ s.dev.stat.stop = none ∧ isOrigin s.cfg = true) ∧
    (let s := sowing 0 fun x => { x with refHeld := true }; alive s = true ∧ s.dev.sow.step10 = true ∧ isOrigin s.cfg = false ∧ s.dev.sow.refHeld = true) ∧
    (let s := sowing 0 id; isOrigin s.cfg = false ∧ s.dev.sow.refHeld = false ∧ ((hellos s.dev).any fun m => m.codes != uniformCodes s.cfg) = false) ∧
    (let s : State := { sowing 0 id with dev := modT (sowing 0 id).dev 0 fun x => { x with hello := some (f 1) } }
     alive s = true ∧ s.dev.sow.refHeld = false ∧ ((hellos s.dev).any fun m => m.codes != uniformCodes s.cfg) = true) := by decide +kernel

/-! ## What a port sends -/

theorem witness_ALeafPortSendsOneFrame :
    let g : LemTx := .write 2 0 0 [1, 2]
    let it : TxItem := { vc := 2, stream := 0, body := .frame g }
    let idle := lp upPort
    let busy := lp fun x => { upPort x with txq := [it], credit := x.credit.map fun k => { k with lim := 2 } }
    let rep := lp fun x => { upPort x with darn := { (Darn.init : Darn LemTx) with next := 1, held := [(0, g)], replay := [(0, g)] } }
    let full := lp fun x => { upPort x with darn := { (Darn.init : Darn LemTx) with held := List.replicate 1024 (0, g) } }
    Dev.reset.lem[0].phase ≠ .up ∧ (idle.lem[0].phase = .up ∧ idle.lem[0].txq = [] ∧ idle.lem[0].darn.replay = [] ∧ pickLem (heldStream c0 idle 0) idle.lem[0] = none) ∧
    (rep.lem[0].txq = [] ∧ rep.lem[0].darn.replay = (0, g) :: []) ∧ (full.lem[0].darn.replay = [] ∧ 1024 ≤ full.lem[0].darn.held.length) ∧
    (busy.lem[0].phase = .up ∧ busy.lem[0].darn.replay = [] ∧ busy.lem[0].darn.held.length < 1024 ∧ pickLem (heldStream c0 busy 0) busy.lem[0] = some (2, it) ∧ it.body = .frame g) := by decide +kernel

/-- No item of that queue is a chunk signal, and that WRITE is no HELLO_ACK. -/
theorem witness_no_signal_queued :
    (∀ it ∈ [({ vc := 2, stream := 0, body := .frame (.write 2 0 0 [1, 2]) } : TxItem)], ∀ m, it.body ≠ .signal m) ∧
    (∀ a b, (.write 2 0 0 [1, 2] : LemTx) ≠ .helloAck a b) := by simp

theorem witness_ATrellisPortSendsOneFrame :
    let f := tf 3 5 0 (zeros 36)
    let idle := tp fun x => { upTrl x with sinceAlign := 19 }
    let rep := tp fun x => { upTrl x with darn := { (Darn.init : Darn TrlFrame) with next := 1, held := [(0, f)], replay := [(0, f)] } }
    (Dev.reset.trl[0].loopLeader = false ∧ Dev.reset.trl[0].linkUp = false) ∧ 20 ≤ (tp fun x => { upTrl x with sinceAlign := 20 }).trl[0].sinceAlign ∧
    (idle.trl[0].loopLeader = false ∧ idle.trl[0].linkUp = true ∧ idle.trl[0].sinceAlign < 20 ∧ idle.trl[0].darn.replay = [] ∧ idle.trl[0].txq = []) ∧
    (rep.trl[0].linkUp = true ∧ rep.trl[0].sinceAlign < 20 ∧ rep.trl[0].darn.replay = (0, f) :: []) := by decide +kernel

/-! ## Work rings -/

/-- 64 bytes of a header of 8 slots, epoch 5, in the port's window; and of one that is not aligned. -/
def hdrBytes (base : Byte) : List Byte := [5, 0, 0, 0, 0xFE, 0xFF, 0x13, 0] ++ [base, 0, 0, 0, 0, 0, 0, 0] ++ [0, 0x40, 0, 0, 0, 0, 0, 0] ++ [0, 0x30, 0, 0, 0, 0, 0, 0] ++ zeros 32

theorem witness_HeadersAreAdopted :
    let s (z : RingSt) (b : Byte) := mk c0 (modR two 0 0 fun _ => { ring8 with st := z, hdrData := some (hdrBytes b) })
    (alive (s .running 0) = true ∧ (ringAt (s .running 0).dev 0 0).hdrData = some (hdrBytes 0) ∧ (ringAt (s .running 0).dev 0 0).st = .running) ∧
    ((ringAt (s .off 0).dev 0 0).st = .off ∧ (ringAt (s .off 0).dev 0 0).fenceOpen = false ∧ hdrValid (s .off 0).dev.lem[0].hello (parseHdr (hdrBytes 0)) = true ∧ (parseHdr (hdrBytes 0)).ringLog2 ≠ 0) ∧
    (hdrValid (s .off 8).dev.lem[0].hello (parseHdr (hdrBytes 8)) = false ∧ (s .off 8).dev.lem[0].started = true) ∧
    ((ringAt (s .fenced 0).dev 0 0).st = .fenced ∧ (parseHdr (hdrBytes 0)).epoch = (ringAt (s .fenced 0).dev 0 0).hdr.epoch ∧ (ringAt (s .fenced 0).dev 0 0).adopting = none) ∧
    (let d := modR two 0 0 fun _ => { ring8 with st := .fenced, hdr := { hdr8 with epoch := 4 }, hdrData := some (hdrBytes 0), fenceOpen := true }
     (ringAt d 0 0).st = .fenced ∧ (ringAt d 0 0).adopting = none ∧ (parseHdr (hdrBytes 0)).epoch ≠ (ringAt d 0 0).hdr.epoch ∧ (ringAt d 0 0).fenceOpen = true) := by decide +kernel

/-- A slot of epoch 5 with this phase bit. -/
def slotBytes (phase : Byte) : List Byte := desc [(4, 5), (0x7F, phase)]

theorem witness_SlotsAreTakenInIndexOrder :
    let s (w : Bool) (ph : Byte) := mk c0 (twoR fun x => { x with intake := 0xFFFE, nextFetch := 0xFFFE, waiting := w, slotData := [(0xFFFE, slotBytes ph)] })
    (alive (s false 0) = true ∧ (ringAt (s false 0).dev 0 0).slotData = [((ringAt (s false 0).dev 0 0).intake, slotBytes 0)] ∧
      slotNew (ringAt (s false 0).dev 0 0).hdr (ringAt (s false 0).dev 0 0).intake (slotBytes 0) = true ∧ (ringAt (s false 0).dev 0 0).waiting = false) ∧
    ((ringAt (s true 0).dev 0 0).waiting = true ∧ (ringAt (s true 0).dev 0 0).nextFetch = (ringAt (s true 0).dev 0 0).intake) ∧
    slotNew (ringAt (s false 1).dev 0 0).hdr (ringAt (s false 1).dev 0 0).intake (slotBytes 1) = false ∧
    (hdr8.ringLog2 ≤ 15 ∧ (7 : W16).toNat < 2 ^ hdr8.ringLog2 ∧ (1 ≤ 1 ∧ 32767 ≤ 32767)) := by decide +kernel

theorem witness_RingTimersRead :
    let s (f : Ring → Ring) := mk c0 (twoR f)
    let at_ (x : State) := ringAt x.dev 0 0
    let p0 := s fun x => { x with hdr := { hdr8 with pollCode := 0 } }
    let w := s fun x => { x with waiting := true, refetches := 1, retry := [.slots 0 0 1] }
    let fe := s fun x => { x with st := .fenced }
    let h := s fun x => { x with st := .off, retry := [.header 0] }
    (alive p0 = true ∧ (at_ p0).hdr.pollCode = 0) ∧
    (alive w = true ∧ (at_ w).hdr.pollCode ≠ 0 ∧ (at_ w).st = .running ∧ (at_ w).waiting = true ∧ readsOut w.dev 0 0 isSlots = false ∧ 0 < (at_ w).refetches ∧ (at_ w).retry = [.slots 0 0 1]) ∧
    ((at_ fe).hdr.pollCode ≠ 0 ∧ (at_ fe).st = .fenced ∧ (at_ fe).adopting = none) ∧
    ((at_ (s fun x => { x with waiting := true, retry := [.slots 0 0 1] })).retry = [.slots 0 0 1] ∧ readsOut (s fun x => { x with waiting := true, retry := [.slots 0 0 1] }).dev 0 0 isSlots = false) ∧
    ((at_ h).retry = [.header 0] ∧ headerOpen h.cfg h.dev 0 0 = true ∧ readsOut h.dev 0 0 isHeader = false ∧ (at_ h).hdrData = none ∧ headerBusy h.cfg h.dev 0 0 = false) := by decide +kernel

/-- A waiting head with all its dependencies met, of a NOP and of a COLLECTIVE with a recipe, and one with a Trellis-pool dependency that does not hold. -/
theorem witness_DependenciesHoldBackTheHead :
    let s (bs : List Byte) (m : Bool) := mk c0 (twoR fun x => { x with head := some { head0 .waiting with met := [m, true, true, true] }, queue := [⟨6, bs⟩] })
    let n := desc []
    let c := desc [(0, 1), (0x37, 1)]
    let u := desc [(8, 2)]
    (alive (s n true) = true ∧ (let e := judgeRing c0 (s n true).dev 0 0
      (ringAt e 0 0).head = some { head0 .waiting with met := [true, true, true, true] } ∧ (ringAt e 0 0).queue = ⟨6, n⟩ :: [] ∧ isColl (dKind n) = false)) ∧
    (let e := judgeRing c0 (s c true).dev 0 0; (ringAt e 0 0).head = some (head0 .waiting) ∧ (ringAt e 0 0).queue = ⟨6, c⟩ :: [] ∧ isColl (dKind c) = true ∧ dRecipeOps c ≠ 0) ∧
    ((head0 .waiting).met.all id = true ∧ (head0 .waiting).met.getD (3 : Fin 4).val false = true ∧ (head0 .waiting).stage = .waiting ∧ (head0 .waiting).status = 0) ∧
    (let e := judgeRing c0 (s u false).dev 0 0
     (ringAt e 0 0).head = some { head0 .waiting with met := [false, true, true, true] } ∧ (ringAt e 0 0).queue = ⟨6, u⟩ :: [] ∧ ({ head0 .waiting with met := [false, true, true, true] } : Head).met.all id = false) := by decide +kernel

/-! ## Descriptors -/

/-- For each kind a ready head, on a unit with the room that a hold needs and on one whose quota is used up. -/
theorem witness_CollectivesAreAdmitted :
    let s (k op : Byte) := mk c0 (twoH (desc [(0, k), (0x28, op)]))
    (∀ k op : Byte, alive (s k op) = true ∧ (ringAt (s k op).dev 0 0).head = some (head0 .ready) ∧ (ringAt (s k op).dev 0 0).queue = ⟨6, desc [(0, k), (0x28, op)]⟩ :: []) ∧
    (([(0, 0), (1, 0), (1, 1), (1, 2), (1, 3), (1, 4), (2, 0), (2, 1), (4, 1)] : List (Byte × Byte)).all fun e =>
      dKind (desc [(0, e.1), (0x28, e.2)]) == e.1.toNat && dOp (desc [(0, e.1), (0x28, e.2)]) == e.2.toNat) = true ∧
    ((head0 .ready).stage = .ready ∧ (head0 .ready).status = 0) :=
  ⟨fun _ _ => ⟨rfl, rfl, rfl⟩, by decide +kernel, by decide⟩

/-- An AllReduce of one element over X, one core of this port, of a group of two units. -/
def allReduce : List Byte := desc [(0, 1), (0x28, 0x12), (0x2C, 4), (0x30, 1), (0x32, 1), (0x38, 1)]

/-- The chain of two that runs it, in an open instance with both prologues. -/
def twoX (f : Inst → Inst) : Dev :=
  { twoC allReduce with coll := { Coll.reset with insts := [f { newInst c0 two 0 0 (agreeOf allReduce) [] 0 false with covered := 1, masks := [(0, 1), (1, 1)], runs := [(0, 0)] }] } }

theorem witness_CollectivesJoinTheirInstance :
    let y := run0 allReduce
    (∃ x, instAt (twoX id) 0 0 = some x ∧ x.covered &&& mineMask 0 y.desc ≠ 0) ∧
    (∃ x, instAt (twoX fun x => { x with covered := 0 }) 0 0 = some x ∧ x.covered &&& mineMask 0 y.desc = 0 ∧ x.aborted = none) ∧
    (∃ x, instAt (twoX fun x => { x with covered := 0, aborted := some 0x26 }) 0 0 = some x ∧ x.covered &&& mineMask 0 y.desc = 0 ∧ x.aborted = some 0x26) ∧
    instAt two 0 0 = none ∧ ∀ e ∈ two.coll.states, ¬(e.1 = 0 ∧ e.2.1 = 0) :=
  by refine ⟨⟨_, rfl, ?_⟩, ⟨_, rfl, ?_⟩, ⟨_, rfl, ?_⟩, ?_⟩ <;> decide +kernel

/-- The first entry of a PEG_OP on a Pocket peg, on a pool peg of this unit and on one of unit 1, the last entry used, and one on an isolated unit. -/
theorem witness_PegEntriesApply :
    let e (b : Byte) (h : Byte) := desc [(0, 6), (0x28, b), (0x29, h), (0x2C, 1)]
    let s (b h : Byte) := mk c0 (twoC (e b h))
    (∀ x ∈ [(1, Instr.pegSet 0 0), (2, .pegClear 0 0), (3, .tallyAdd 0 0), (4, .tallyTake 0 0)], x ∈ [(1, Instr.pegSet 0 0), (2, .pegClear 0 0), (3, .tallyAdd 0 0), (4, .tallyTake 0 0)]) ∧
    (alive (s 0 0) = true ∧ (ringAt (s 0 0).dev 0 0).cur = some (run0 (e 0 0)) ∧ dKind (run0 (e 0 0)).desc = 6 ∧ (run0 (e 0 0)).waitReq = none ∧ (run0 (e 0 0)).finished = false ∧ 4 ≤ skipNone (e 0 0) 4 0) ∧
    (∀ k ∈ ([1, 2, 3, 4] : List Byte), skipNone (e (k + 16) 64) 4 0 < 4 ∧ ePop (dEntry (e (k + 16) 64) 0) = k.toNat ∧ eSpace (dEntry (e (k + 16) 64) 0) = 1) ∧
    (∀ k ∈ ([1, 2, 3, 4] : List Byte), skipNone (e k 64) 4 0 < 4 ∧ ePop (dEntry (e k 64) 0) = k.toNat ∧ eSpace (dEntry (e k 64) 0) ≠ 1 ∧ eHere (dEntry (e k 64) 0) = true) ∧
    physPeg c0 (tenantOf c0 0) (ringAt (s 1 64).dev 0 0).hdr.windowBase 0 = some 0 ∧ 0 ∉ (s 1 64).dev.pegs.bad ∧
    (let d := { (s 3 64).dev with pegs := { Pegs.reset with bad := [0] } }; ownAddr (s 3 64).dev = ownAddr d ∧ 0 ∈ d.pegs.bad ∧ 3 ≤ 3 ∧ (2 : Nat) ≤ 2) ∧
    (eHere (dEntry (e 1 1) 0) = false ∧ liveHome (s 1 1).dev (eHome (dEntry (e 1 1) 0)) ≠ ownAddr (s 1 1).dev ∧ (s 1 1).dev.recov.isolated = false) ∧
    (let d := { (s 1 1).dev with recov := { Rec.reset with isolated := true } }; liveHome d (eHome (dEntry (e 1 1) 0)) = 1 ∧ 1 ≠ ownAddr d ∧ d.recov.isolated = true) ∧
    4 ≤ skipNone (desc [(0, 6), (0x40, 1)]) 4 4 := by decide +kernel

/-- A YARD_LOAD of one row of 64 weights, from the leaf and from the Spool; one brought in; and a RESIDENT_FLUSH of one element. -/
theorem witness_YardLoadsRegisterAndFlushesWrite :
    let l (src : Byte) := desc [(0, 3), (0x28, 1), (0x29, src), (0x2C, 1), (0x2E, 64)]
    let f := desc [(0, 5), (0x38, 1)]
    (entriesLeft c0 (twoH (l 0)) 0 0 0 (l 0) = 1024 ∧ entriesLeft (conf 1 [(3, 0), (4, 0), (10, 15)]) (twoH (l 0)) 0 0 0 (l 0) = 0) ∧
    (alive (mk c0 (twoH (l 0))) = true ∧ (ringAt (twoH (l 0)) 0 0).head = some (head0 .ready) ∧ (ringAt (twoH (l 0)) 0 0).queue = ⟨6, l 0⟩ :: [] ∧ dKind (l 0) = 3 ∧ bitOf (byteAt (l 0) 0x29) 0 = false) ∧
    (dKind (l 1) = 3 ∧ bitOf (byteAt (l 1) 0x29) 0 = true ∧ ∀ w ∈ spoolWords c0 0 (leNat (l 1) 0x38 8) (loadBytes (l 1)), wordGood (twoH (l 1)) w = true) ∧
    (let x := { run0 (l 0) with yardStage := 1 }
     let d := twoR fun r => { r with cur := some x }
     (ringAt d 0 0).cur = some x ∧ dKind x.desc = 3 ∧ x.yardStage = 1 ∧ x.readsLeft = 0 ∧ x.finished = false ∧ (portsOf c0 0).find? (fun g => decide ((([] : List Block).filter fun b => b.port == g).length < 128)) = some 0) ∧
    (alive (mk c0 (twoH f)) = true ∧ (ringAt (twoH f) 0 0).head = some (head0 .ready) ∧ (ringAt (twoH f) 0 0).queue = ⟨6, f⟩ :: [] ∧ dKind f = 5 ∧ flushBad c0 (twoH f) (tenantOf c0 0) f = []) := by decide +kernel

/-- Tenant 0 owns the line: a group of every participant, and a group of one core of each port. -/
theorem witness_BarriersAndFencesAreAdmitted :
    let c := conf 1 [(3, 15), (4, 15), (9, 0), (10, 15)]
    let b (line cores : Byte) := desc [(0, 7), (0x28, line), (0x30, 1), (0x32, cores), (0x33, cores)]
    let s (bs : List Byte) := mk c (twoH bs)
    let g (cores : Byte) := groupOf (b 1 cores) [] (ownAddr two)
    let parts := presentMask c two &&& tenantMask c (ownAddr two) (ownAddr two) 0
    (alive (s (b 1 1)) = true ∧ (ringAt (s (b 1 1)).dev 0 0).head = some (head0 .ready) ∧ (ringAt (s (b 1 1)).dev 0 0).queue = ⟨6, b 1 1⟩ :: [] ∧ dKind (b 1 1) = 7) ∧
    (dUseLine (b 1 1) = true ∧ c.codes[9].toNat = (0 : Tenant).val ∧ localMembers c two 0 (g 1) ≠ parts) ∧
    (dUseLine (b 1 255) = true ∧ localMembers c two 0 (g 255) = parts) ∧ dUseLine (b 0 1) = false ∧ dKind (desc [(0, 8)]) = 8 := by decide +kernel

theorem witness_RecordsAreSent :
    let x := { run0 (desc []) with finished := true }
    let s (f : Run → Run) := mk c0 (twoR fun r => { r with cur := some (f x) })
    let busy := pushTx (s id).dev 0 [{ vc := 1, stream := 0, body := .frame (.write 1 0 0 [1]) }]
    (alive (s id) = true ∧ (ringAt (s id).dev 0 0).cur = some x ∧ x.finished = true ∧ outputsSent (s id).dev 0 0 = true ∧ x.clearing = false ∧ dFence x.desc = false ∧ dRefetch x.desc = false) ∧
    (s id).dev.lem[0].phase = .up ∧ outputsSent busy 0 0 = false ∧ (dFence (desc [(1, 2)]) = true ∧ { x with spoolPending := true }.spoolPending = true ∧ x.spoolPending = false) := by decide +kernel

/-- A record that the arbiter chooses, with credit on its channel, and one that it does not choose without. -/
theorem witness_a_record_is_chosen :
    let x (n : Nat) : LemPort := { upPort LemPort.reset with credit := Vector.replicate 4 { Credit.none with lim := n } }
    ∀ bs : List Byte,
      let it : TxItem := { vc := 2, stream := 0, body := .frame (.write 2 0 16384 bs) }
      nextLem (fun _ => false) { x 1 with txq := (x 1).txq ++ [it] } = some (2, it) ∧ nextLem (fun _ => false) { x 0 with txq := (x 0).txq ++ [it] } = none :=
  fun bs => by
    constructor <;> dsimp only [nextLem, pickLem, pickIn, readyAt, itemReady, streamHead] <;>
    simp +decide [upPort, LemPort.reset, vcOrder, creditLeft, isRead, itemReads, List.range, List.range.loop]

/-! ## Open instances -/

/-- A hold of the whole quota and one stripe more, a staging of the whole quota, and nothing. -/
theorem witness_SpaceInputsAndClears :
    let w (l : List StoreReq) := mk c0 { two with store := { Store.reset with wait := Store.reset.wait.set 0 l } }
    let s (f : Run → Run) := mk c0 (twoR fun r => { r with cur := some (f (run0 (desc [(0, 4)]))) })
    (alive (w [.hold 0 0 65536]) = true ∧ (w [.hold 0 0 65536]).dev.store.wait[0].find? reqIsHold = some (.hold 0 0 65536) ∧ 0 + 65536 ≤ holdQuota c0 0) ∧
    (holdQuota c0 0 < 0 + reqStripes (.hold 0 0 65537) ∧ (w [.hold 0 0 65537, .staging 0 63488]).dev.store.wait[0].find? reqIsHold = some (.hold 0 0 65537) ∧
      (w [.hold 0 0 65537, .staging 0 63488]).dev.store.wait[0].find? (fun w => !reqIsHold w) = some (.staging 0 63488) ∧ 0 + 63488 ≤ stagingQuota c0 0) ∧
    (w []).dev.store.wait[0] = [] ∧
    (let x := { run0 (desc [(0, 4)]) with prepared := true }; (ringAt (s fun x => { x with prepared := true }).dev 0 0).cur = some x ∧ x.prepared = true ∧ x.readDone = false ∧ x.readsLeft = 0 ∧ x.finished = false) ∧
    (let x := { run0 (desc [(0, 4)]) with clearing := true }; (ringAt (s fun x => { x with clearing := true }).dev 0 0).cur = some x ∧ x.clearing = true) := by decide +kernel

/-- Frames of the chain's AllReduce from unit 1, on port 1 and channel 2: of chunk 1, its SIGNAL, a prologue, one that is not the next, and a result frame of chunk 0 that waits for the staging. -/
theorem witness_InstancesTakeFrames :
    let d := twoX id
    let f (n : W16) (ch : W32) : TrlFrame := { tf 1 2 0 (zeros 4) with chunk := ch, frame := n, endChunk := true }
    let sig : TrlFrame := { tf 2 2 0 (signalPayload true false false 0 1) with chunk := 1 }
    let ok (f : TrlFrame) : Bool := trlContentOk f && trlCodesOk f
    (alive (mk c0 d) = true ∧ trlUp d 1 = true ∧ d.sow.formed = true ∧ ok (f 0 0) = true ∧ ok sig = true ∧ ok (f 0 0xFFFFFFFF) = true ∧ (f 0 0).kind = 1 ∧ sig.kind = 2) ∧
    ({ d with recov := { Rec.reset with restart := Rec.reset.restart.set 0 .drained } }.recov.restart[0] ≠ .none ∧ d.recov.restart[0] = .none) ∧
    (instAt two 0 0 = none ∧ { f 0 0xFFFFFFFF with endChunk := false }.endChunk = false ∧ ok { f 0 0xFFFFFFFF with endChunk := false } = true) ∧
    (instAt d 0 0).isSome = true ∧
    (∀ x ∈ instAt d 0 0, isParty d x 1 = true) ∧
    (∀ x ∈ instAt d 0 0, x.num = frameNum { d with coll := { d.coll with proCount := [((0, 0, 1), 1)] } } (f 0 0) ∧ x.num = frameNum d (f 0 0xFFFFFFFF) ∧ x.aborted = none ∧ x.frozen = false ∧ x.skip.getD 5 0 = 0 ∧
      (let g := geoOf d x
       let fits (f : TrlFrame) (tr : Transfer) : Bool := entryVc g 1 tr == f.vc.toNat && isNextOf x 1 f tr
       let waits (f : TrlFrame) : Bool := !x.stageOk && ((entering g f.chunk.toNat 1 1).find? (fits f)).all isDist &&
         (entering g f.chunk.toNat 1 1).any fun tr => entryVc g 1 tr == f.vc.toNat && isDist tr && endsAt g.dims tr == some g.own
       ((entering g 1 1 1).find? (fits (f 0 1))).isSome = true ∧ ((entering g 1 1 1).find? (fits sig)).isSome = true ∧ ((entering g 1 1 1).find? (fits (f 1 1))) = none ∧
       waits (f 0 1) = false ∧ waits sig = false ∧ waits (f 1 1) = false ∧ waits (f 0 0) = true) ∧
      (let g := proGeo d x
       ((entering g 0xFFFFFFFF 1 1).find? fun tr => entryVc g 1 tr == 2 && isNextOf x 1 (f 0 0xFFFFFFFF) tr).isSome = true)) := by decide +kernel

/-- A unit alone that decides over one element of 1.0, with a stage of the Press, with a Sieve, or with both. -/
def deciding (press sieve : Byte) (f : Inst → Inst) (dir : List Block) : Dev :=
  let bs := desc [(0, 1), (0x28, 0x12), (0x2A, 32 * press), (0x2B, sieve), (0x30, 1), (0x32, 1), (0x38, 1)]
  let d := { twoC bs with sow := { two.sow with dims := ⟨1, 1, 1⟩ }, store := { Store.reset with dir := dir } }
  let d := modRun d 0 0 fun y => { y with holdOk := true, joined := true, prepared := true, readDone := true, inputs := [(0, [0, 0, 128, 63])] }
  { d with coll := { Coll.reset with insts := [f { newInst c0 d 0 0 (agreeOf bs) [] 0 false with covered := 1, masks := [(0, 1)], runs := [(0, 0)] }] } }

theorem witness_ThePressAndTheSieveDecide :
    let b : Block := { tenant := 0, port := 0, addr := 0, k := 1, n := 64, wFmt := 0, fn := 0, lo := 0, hi := 0 }
    let decides (d : Dev) : Bool := (instAt d 0 0).any fun x => (reducedVals d (geoOf d x) x).isSome
    (alive (mk c0 (deciding 1 1 id [b])) = true ∧ decides (deciding 1 1 id [b]) = true ∧ (findBlock (deciding 1 1 id [b]) 0 0) = some b ∧
      (instAt (deciding 1 1 id [b]) 0 0).any (fun x => dPress (instDesc x) && !x.pressDone && dYardAddr (instDesc x) == 0) = true) ∧
    (decides (deciding 1 0 id []) = true ∧ findBlock (deciding 1 0 id []) 0 0 = none ∧ (instAt (deciding 1 0 id []) 0 0).any (fun x => dPress (instDesc x) && !x.pressDone && dSieve (instDesc x) == 0) = true) ∧
    (decides (deciding 0 5 id []) = true ∧ (instAt (deciding 0 5 id []) 0 0).any (fun x => dSieve (instDesc x) == 5 && !dPress (instDesc x)) = true) ∧
    (decides (deciding 1 1 (fun x => { x with pressDone := true }) []) = true) := by decide +kernel

theorem witness_WaitsEndInstances :
    let reading := modRun (twoX id) 0 0 fun y => { y with prepared := true }
    (alive (mk c0 (twoX id)) = true ∧ (instAt (twoX id) 0 0).any (fun x => x.aborted.isNone && inContribWait (twoX id) x && x.runs.contains (0, 0)) = true ∧
      (ringAt (twoX id) 0 0).cur.any (fun y => !y.finished) = true) ∧
    (instAt reading 0 0).any (fun x => !inContribWait reading x) = true ∧
    (instAt (twoX fun x => { x with aborted := some 0x26 }) 0 0).any (fun x => x.aborted.isSome) = true ∧
    (instAt (twoX fun x => { x with goesOn := true }) 0 0).any (fun x => x.goesOn && x.aborted.isNone) = true := by decide +kernel

/-! ## Pegs, barriers and the line -/

/-- A PEG message on peg 0 of tenant 0: its kind, code, amount, request 7, members, and bytes 0Ah to 23h. -/
def peg (m k : Nat) (amount members : Nat) (body : List Byte) (dest : BitVec 6) : TrlFrame := tf 3 5 dest (pegPayload m k 0 amount 7 members 0 body)

/-- Bytes 0Ah to 23h of an ARRIVE for a group of units 0 and 1. -/
def arriveBody : List Byte := zeros 14 ++ [3] ++ zeros 7 ++ [255, 255, 255, 255]

/-- Tenant 0 owns the line, and the last peg before this slice wraps is among its pegs. -/
def cLine : Cfg := conf 1 [(3, 15), (4, 15), (9, 0), (10, 15)]

/-- An open phase to which these units have reported. -/
def phase (us : List (Nat × Nat)) : Phase := { peg := 0, sense := 1, tenant := 0, body := slice (peg 4 0 0 1 arriveBody 0).payload 10 26, map := 3, reported := us }

theorem witness_PegMessagesAndPhases :
    let s := mk c0 two
    let okAt (c : Cfg) (f : TrlFrame) : Bool := f.kind == 3 && trlContentOk f && trlCodesOk f && f.dest.toNat == ownAddr two && pegAccepted c two f
    let ok := okAt c0
    let all6 : TrlFrame := peg 6 0 0 0 (zeros 22 ++ [255, 255, 255, 255]) 0
    let w : Watch := { peg := 0, cond := 0, operand := 0, tenant := 0, unit := 1, reqId := 7, pgen := 0 }
    let ph (us : List (Nat × Nat)) : Dev := { two with pegs := { Pegs.reset with phases := [phase us] } }
    (alive s = true ∧ trlUp two 0 = true ∧ two.sow.formed = true) ∧
    (ok (peg 1 1 0 0 [] 0) = true ∧ ok (peg 1 4 65535 0 [] 0) = true ∧ ok (peg 2 1 0 0 [] 0) = true ∧ ok (peg 2 0 0 0 [] 0) = true ∧ ok (peg 3 0 0 0 [] 0) = true ∧
      ok (peg 4 0 0 128 arriveBody 0) = true ∧ ok (peg 5 0 0 0 [] 0) = true ∧ okAt cLine all6 = true ∧ ok all6 = false) ∧
    (0 ∉ two.pegs.bad ∧ 0 ∈ { two with pegs := { Pegs.reset with bad := [0] } }.pegs.bad) ∧
    (∀ m ∈ [1, 2, 3, 4, 5, 6], byteAt (peg m (if m = 1 then 1 else 0) 0 0 [] 0).payload 0 = m) ∧
    ((peg 1 1 0 0 [] 1).dest.toNat ≠ ownAddr two ∧ pegAccepted c0 { two with recov := { Rec.reset with pgen := Rec.reset.pgen.set 0 255 } } (peg 1 1 0 0 [] 0) = false) ∧
    (condHolds 1 (poolPeg two 0) 0 = true ∧ condHolds 0 (poolPeg two 0) 0 = false ∧ ([] : List Watch).length < 256 * ((sliceOf c0 0).2 / 4096)) ∧
    256 * ((sliceOf c0 0).2 / 4096) ≤ ((List.replicate 4096 w).filter fun w => w.tenant == 0).length ∧
    (two.pegs.phases = [] ∧ (mapUnits 3).contains 1 = true) ∧
    ((ph [(0, 1)]).pegs.phases.find? (fun x => decide (x.peg = 0) && decide (x.tenant = 0)) = some (phase [(0, 1)]) ∧ (phase [(0, 1)]).body = slice (peg 4 0 0 1 arriveBody 0).payload 10 26 ∧
      ((phase [(0, 1)]).reported.any fun e => e.1 == 1) = false) ∧
    ((ph [(1, 1)]).pegs.phases.find? (fun x => decide (x.peg = 0) && decide (x.tenant = 0) && x.reported.any (fun e => e.1 == 1)) = some (phase [(1, 1)]) ∧ ((phase [(1, 1)]).reported.any fun e => e.1 == 1) = true) ∧
    (phase []).body ≠ slice (peg 4 0 0 1 [] 0).payload 10 26 ∧
    ((∃ u ∈ mapUnits (phase [(0, 1)]).map, u ∉ two.recov.view.lost ∧ u = 1) ∧ ∀ m, (1, m) ∉ (phase [(0, 1)]).reported) ∧
    (∀ u ∈ mapUnits (phase [(0, 1), (1, 0)]).map, u = 0 ∨ u = 1) := by
  have nobody (m : Nat) : (1, m) ∉ (phase [(0, 1)]).reported := fun h => by simp [phase] at h
  and_intros
  all_goals first
    | exact nobody
    | decide +kernel

/-- An arrival of ring 0 at unit 1. -/
def arrival (f : Arrival → Arrival) : Arrival :=
  f { tenant := 0, agree := [], list := [], home := 1, peg := 0, line := none, runs := [(0, 0)], covered := 1, members := 1, arrived := true, withdrawId := none, body := [] }

/-- The chain of two with a BARRIER that runs in these arrivals. -/
def barred (l : List Arrival) : Dev := { twoC (desc [(0, 7)]) with pegs := { Pegs.reset with arrivals := l } }

theorem witness_PegRepliesAreActedOn :
    let rep (m : Nat) (d : BitVec 6) : TrlFrame := tf 4 6 d (replyPayload m 0 0 0 (if m ≤ 3 ∨ m = 6 then 7 else 0) (if m = 4 then zeros 2 ++ slice (peg 4 0 0 1 arriveBody 0).payload 10 26 else []))
    let ok (f : TrlFrame) : Bool := f.kind == 4 && trlContentOk f && trlCodesOk f
    let e := desc [(0, 6), (0x28, 1), (0x29, 1)]
    let dn := twoR fun r => { r with cur := some { run0 e with waitReq := some 7 } }
    let wt := twoR fun r => { r with head := some { head0 .waiting with met := [false, true, true, true], watchIds := [some 7, none, none, none] } }
    let bar := barred [arrival id]
    (alive (mk c0 two) = true ∧ trlUp two 0 = true ∧ two.sow.formed = true ∧ (rep 1 1).dest.toNat ≠ ownAddr two ∧ (rep 1 0).dest.toNat = ownAddr two) ∧
    (∀ m ∈ [1, 2, 3, 4, 5, 6, 7], ok (rep m 0) = true ∧ byteAt (rep m 0).payload 0 = m) ∧
    byteAt (rep 4 0).payload 9 = (homePgen two 0).toNat ∧ byteAt (rep 4 0).payload 9 ≠ (homePgen { two with recov := { Rec.reset with pgen := Rec.reset.pgen.set 0 255 } } 0).toNat ∧
    (doneOwner dn 7 = some (0, 0) ∧ (ringAt dn 0 0).cur = some { run0 e with waitReq := some 7 }) ∧ watchOwner wt 7 = some (0, 0, 0) ∧
    leNat (slice (rep 4 0).payload 10 26) 0x16 4 = 0xFFFFFFFF ∧
    ((bar.pegs.ignored.any fun e => e.1 == (1 : BitVec 6).toNat && e.2.1 == 0) = false ∧ ownsLine c0 0 = false ∧ arrivalAt bar 0 1 0 = some (arrival id) ∧ (ringAt bar 0 0).cur.any (fun y => !y.finished) = true) ∧
    (ownsLine cLine 0 = true ∧ ([((1 : Nat), (0 : Nat), (2 : Nat))].find? fun e => e.1 == (1 : BitVec 6).toNat && e.2.1 == 0) = some (1, 0, 2)) ∧
    (let d := barred [arrival fun a => { a with withdrawId := some 7 }]; d.pegs.arrivals.find? (fun a => a.withdrawId == some 7) = some (arrival fun a => { a with withdrawId := some 7 })) := by decide +kernel

theorem witness_PegAndBarrierWaitsEnd :
    let u := desc [(8, 2), (14, 1)]
    let h : Head := { head0 .waiting with met := [false, true, true, true], watchIds := [some 7, none, none, none], watchFull := [true, false, false, false] }
    let w := twoR fun r => { r with head := some h, queue := [⟨6, u⟩] }
    let p : Run := { run0 (desc [(0, 6)]) with waitReq := some 7 }
    (alive (mk c0 w) = true ∧ (ringAt w 0 0).head = some h ∧ (ringAt w 0 0).queue = ⟨6, u⟩ :: [] ∧ h.watchIds.getD (0 : Fin 4).val none = some 7 ∧ h.stage = .waiting ∧ h.status = 0 ∧
      h.met.getD (0 : Fin 4).val true = false ∧ h.watchFull.getD (0 : Fin 4).val false = true ∧ depRemote w u 0 = true ∧ physPeg c0 (tenantOf c0 0) (ringAt w 0 0).hdr.windowBase (leNat (dDep u 0) 2 2 % 4096) = some 0) ∧
    (let d := twoR fun r => { r with cur := some p }; (ringAt d 0 0).cur = some p ∧ p.waitReq.isSome = true ∧ p.finished = false) ∧
    (let d := barred []; (ringAt d 0 0).cur = some (run0 (desc [(0, 7)])) ∧ dKind (desc [(0, 7)]) = 7 ∧ arrivalOf d 0 0 = none ∧ lineRun c0 0 (desc [(0, 7)]) = false ∧ (d.line.f ≤ d.line.n + 1)) ∧
    (let a := arrival fun a => { a with arrived := false, runs := [(0, 0), (0, 1)] }
     arrivalOf (barred [a]) 0 0 = some a ∧ a.line = none ∧ a.arrived = false ∧ a.runs.filter (· != (0, 0)) ≠ []) ∧
    (let a := arrival id; arrivalOf (barred [a]) 0 0 = some a ∧ a.line = none ∧ a.arrived = true ∧ a.withdrawId = none ∧ hasRoute (barred [a]) a.home = true) ∧
    (let a := arrival fun a => { a with withdrawId := some 7 }; arrivalOf (barred [a]) 0 0 = some a ∧ a.withdrawId.isSome = true) := by decide +kernel

theorem witness_TheLineCompletesBarriers :
    let c := conf 1 [(3, 15), (4, 15), (9, 3), (10, 0)]
    let s (n : Nat) (rel fb : Bool) := mk c { barred [arrival fun a => { a with line := some n }] with line := { Line.reset with ready := true, n := n, released := rel, fallback := fb } }
    (alive (s 0 false false) = true ∧ (s 0 false false).dev.line.ready = true ∧ c.codes[9].toNat ≤ 3 ∧ (s 0 false false).dev.line.fallback = false ∧
      (s 0 false false).dev.line.released = false ∧ lineCovered c (s 0 false false).dev = true) ∧
    ((s 0 true false).dev.line.released = true ∧ (s 0 false true).dev.line.fallback = true ∧ (s 0 false true).dev.line.f ≤ 0 ∧ (Line.reset.f = 0) ∧ 3 < c0.codes[9].toNat) ∧
    ((s 0 true false).dev.line.n % 2 = (0 : Fin 2).val ∧ (s 1 true false).dev.line.n % 2 = (1 : Fin 2).val ∧ (s 1 true false).dev.line.n % 2 ≠ (0 : Fin 2).val) ∧
    (lineArrival (s 1 true false).dev).isSome = true ∧ lineCovered (conf 1 [(3, 0), (9, 3), (10, 15)]) two = false := by decide +kernel

/-! ## Faults and recovery -/

/-- The six RECOVERY messages of unit 1, with serial 1. -/
def recMsg (k : Nat) : TrlFrame :=
  tf 7 7 0 (recPayload k 1 0 (if k = 2 ∨ k = 3 then 1 else 0) 0 0 (match k with
    | 1 => [1, 1, 0, 0] | 2 => stateBody true (List.replicate 24 0) | 3 => [1, 0] | 4 => [0x24] | 5 => [1, 1] ++ zeros 6 ++ [0, 0] | _ => [1]))

theorem witness_RecoveryMessagesAreFloodedOnce :
    (alive (mk c0 two) = true ∧ trlUp two 0 = true ∧ two.sow.formed = true) ∧
    (∀ k ∈ [1, 2, 3, 4, 5, 6], (recMsg k).kind = 7 ∧ trlContentOk (recMsg k) = true ∧ trlCodesOk (recMsg k) = true ∧ byteAt (recMsg k).payload 0 = k ∧ recSeen two (recMsg k) = false) ∧
    recSeen { two with recov := { Rec.reset with seen := [(1, 1)] } } (recMsg 1) = true := by decide +kernel

theorem witness_ADrainEndsATenantsWork :
    (0 : LPort) ∈ portsOf c0 0 ∧ (0 : LPort) ∉ portsOf c0 1 ∧ (ringAt (twoC allReduce) 0 0).cur = some (run0 allReduce) ∧ (run0 allReduce).finished = false ∧
    { run0 allReduce with finished := true }.finished = true ∧ (1 : Tenant) ≠ 0 ∧
    (∀ x ∈ (twoC allReduce).coll.insts, x.tenant = 0 → ∀ e ∈ x.ghosts, e.2.holdOk = false) := by decide +kernel

/-- A tenant in each state of its restart; a peg outside its slice, one inside, and one kept. -/
theorem witness_RestartsGoOnStepByStep :
    let c := conf 1 [(3, 15), (4, 15), (5, 4), (8, 4), (9, 15), (10, 15)]
    let s (z : RestartSt) := mk c { two with recov := { Rec.reset with restart := Rec.reset.restart.set 0 z } }
    (alive (s .draining) = true ∧ (s .draining).dev.recov.restart[0] = .draining ∧ drainedHere c (s .draining).dev 0 = true) ∧
    ((s .changing).dev.recov.restart[0] = .changing ∧ (s .none).dev.recov.restart[0] ≠ .changing) ∧
    ((s .drained).dev.recov.restart[0] = .drained ∧ (s .cleaning).dev.recov.restart[0] = .cleaning) ∧
    (∀ u : Tenant, ¬((s .none).dev.recov.restart[u] = .draining) ∧ (s .none).dev.recov.restart[u] ≠ .changing ∧ (s .none).dev.recov.restart[u] ≠ .drained ∧ (s .none).dev.recov.restart[u] ≠ .cleaning) ∧
    (∀ u ∈ surviving two, ((0 : Tenant), u) ∈ [((0 : Tenant), 0), (0, 1)]) ∧
    (inSlice c 0 0 = true ∧ inSlice c 0 32767 = true ∧ inSlice c 0 32768 = false ∧ keptPegs c two 0 = [] ∧ 4095 ∉ two.pegs.bad ∧ 4095 ∈ { two with pegs := { Pegs.reset with bad := [4095] } }.pegs.bad) := by decide +kernel

/-- A kept window names kept pegs, whose saved words read well while nothing is poisoned. -/
theorem witness_kept_pegs :
    (let d := { two with recov := { Rec.reset with windows := [0] } }
     ((d.recov.windows.flatMap fun w => (List.range 4096).filterMap fun v => physPeg c0 0 w v).contains 4095) = true) ∧ ∀ k, wordGood two (savedAt k) = true :=
  ⟨by decide +kernel, fun _ => rfl⟩

theorem witness_VerdictsAndAborts :
    let fr := twoX fun x => { x with frozen := true, round := 1 }
    let due (l : List (Tenant × W16 × W16 × Report)) := { twoX fun x => { x with frozen := true, round := 1, reformDue := true } with coll :=
      { (twoX fun x => { x with frozen := true, round := 1, reformDue := true }).coll with states := l } }
    let rep : Report := { unit := 1, round := 1, committed := false, sent := List.replicate 24 0 }
    (0 ≤ verdictOf fr 0 0 0 ∧ verdictOf fr 0 0 0 < 1 ∧ highestRound fr 0 0 0 ≤ 1 ∧ 0 < highestRound (due [(0, 0, 0, rep)]) 0 0 0) ∧ (instAt fr 0 0).any (fun x => x.num == 0 && x.frozen && x.round == 1 && x.aborted.isNone && x.runs.contains (0, 0)) = true ∧
    ((0 : W16) ≠ 1 ∧ (1 - 0 : W16).toNat < 32768 ∧ 32768 ≤ (0 - 1 : W16).toNat) ∧ (instAt (twoX fun x => { x with num := 1 }) 0 0).any (fun x => x.num == 1) = true ∧
    (instAt (due []) 0 0).any (fun x => x.reformDue && !neighbourStates (due []) x) = true ∧
    (instAt (due [(0, 0, 0, rep)]) 0 0).any (fun x => x.reformDue && neighbourStates (due [(0, 0, 0, rep)]) x && x.kept.isEmpty) = true ∧
    (alive (mk c0 (due [(0, 0, 0, rep)])) = true ∧ stateKeys (due [(0, 0, 0, rep)]) = [(0, 0, 0)]) := by decide +kernel

/-! ## Status pages, errors, and the test access port -/

theorem witness_PagesScrubsAndSamples :
    let c := conf 1 [(7, 1), (10, 15)]
    let due := modP two 0 fun x => { x with causes := 1 }
    (alive (mk c two) = true ∧ c.codes[7].toNat ≠ 0 ∧ stopped two = false ∧ two.lem[0].started = true) ∧
    (c0.codes[7].toNat = 0 ∧ stopped (st fun x => { x with stop := some .sowShape }) = true ∧ two.lem[1].started = false) ∧
    (mayPage two 0 = false ∧ mayPage due 0 = true ∧ due.lem[0].hello.statusPage % 4096 = 0 ∧ (1 : LPort) ≠ 0) ∧
    (two.stat.memReady = false ∧ (st fun x => { x with memReady := true }).stat.memReady = true) := by decide +kernel

/-- A saved peg's word during a context change: it lies in the work area, below 2^36. -/
theorem witness_saved_word (c : Cfg) (d : Dev) (t : Tenant) (k : Nat) (h : d.recov.restart[t] = .changing) (hk : k ∈ keptPegs c d t) :
    savedAt k < 2 ^ 36 ∧ savedPegWord c d (savedAt k / 32 * 32) = true := by
  have e : savedAt k / 32 * 32 = savedAt k := by unfold savedAt; omega
  refine ⟨by unfold savedAt; omega, ?_⟩
  rw [e]
  refine List.any_eq_true.mpr ⟨t, by clear h hk; revert t; decide, ?_⟩
  rw [Bool.and_eq_true]
  exact ⟨by simp [h], List.any_eq_true.mpr ⟨k, hk, by simp⟩⟩

theorem witness_StallsAndErrorsThisUnitFinds :
    let fl := twoC (desc [(0, 5), (0x38, 1)])
    let a := spoolPhys c0 0 0
    (alive (mk c0 two) = true ∧ two.lem[0].phase = .up ∧ two.lem[1].phase ≠ .up) ∧ (∀ p, Island.peg ≠ .leaf p) ∧
    (2 ^ 36 ≤ 2 ^ 36 ∧ 192 * 1048576 ≤ 192 * 1048576 ∧ 192 * 1048576 - 1 < 192 * 1048576) ∧
    (a < 2 ^ 36 ∧ savedPegWord c0 fl (a / 32 * 32) = false ∧ ¬(8192 * 1048576 ≤ a ∧ regionRuns c0 fl (a / 32 * 32) = []) ∧ 8192 * 1048576 ≤ a ∧ regionRuns c0 two (a / 32 * 32) = [] ∧ (0, 0) ∈ regionRuns c0 fl (a / 32 * 32) ∧ (ringAt fl 0 0).cur = some (run0 (desc [(0, 5), (0x38, 1)]))) := by decide +kernel

theorem witness_PublicTapInstructions :
    (State.reset.hk.vddIo = true ∧ ¬(State.reset.hk.resetPin = true ∨ State.reset.hk.chainPin = true ∨ State.reset.hk.railsRising = true)) ∧
    (let s := { State.reset with hk := { Hk.reset with resetPin := true, inReset := true } }; s.hk.vddIo = true ∧ (s.hk.resetPin = true ∨ s.hk.chainPin = true ∨ s.hk.railsRising = true)) ∧
    { Hk.reset with vddIo := false }.vddIo = false := by decide

theorem witness_PrivateInstructions :
    let c : Cfg := { conf 6 [(2, 1)] with debugOpen := true }
    let d (f : Dbg → Dbg) : Dev := { Dev.reset with dbg := f Dbg.reset }
    let s (f : Dbg → Dbg) := mk c (d f)
    (privateRow .dbgStatus = true ∧ debugOpen State.reset = false) ∧ (debugOpen (s id) = true ∧ ownAddr (d id) < 64) ∧
    ((s id).dev.dbg.busy = false ∧ (s fun x => { x with busy := true }).dev.dbg.busy = true) ∧
    ((0 : W64).toNat / 2 ^ 56 = 0 ∧ 9 < (0x0A00000000000000 : W64).toNat / 2 ^ 56 ∧ (0x030000000000FFFF : W64).toNat / 2 ^ 56 = 3 ∧ (0x030000000000FFFF : W64).toNat % 2 ^ 56 < 65536 ∧
      65536 ≤ (0x0300000000010000 : W64).toNat % 2 ^ 56) ∧
    ((6143 : W16).toNat < 6144 ∧ 6144 ≤ (6144 : W16).toNat) ∧
    ({ two with pegs := { Pegs.reset with phases := [phase []] } }.pegs.phases.find? fun y => y.peg == (0 : W16).toNat) = some (phase []) ∧
    (two.pegs.phases.find? fun y => y.peg == (0 : W16).toNat) = none ∧
    ((5 : BitVec 3).toNat < 6 ∧ 6 ≤ (6 : BitVec 3).toNat ∧ mayLoop (st fun x => { x with trainStarted := true }) 5 = true ∧ 0 ∈ { Pegs.reset with bad := [0] }.bad ∧ 0 ∉ Pegs.reset.bad ∧ mayLoop Dev.reset 5 = false ∧
      (modT Dev.reset 5 fun x => { x with loopLeader := true }).trl[5].loopLeader = true ∧ Dev.reset.trl[5].loopLeader = false) := by decide +kernel

/-! ## Addresses, frames, and what every step keeps -/

theorem witness_AddressesAreDenseAndPortsFaceTheirAxisRing :
    (3 < (⟨4, 4, 4⟩ : Dims).nx ∧ 63 < 4 * 4 * 4 ∧ 0 < 1 * 1 * 1 ∧ 2 < 3) ∧ (1 : BitVec 4).getLsbD 0 = true ∧
    (latchCfg (List.replicate 12 ⟨0, 0, 0⟩) 1 0 false false).stop = none ∧ code (conf 1 []) 2 = 0 ∧ ({ Dev.reset with sow := initialSow (conf 1 []) } : Dev).sow = initialSow (conf 1 []) := by decide +kernel

theorem witness_TrellisFramesReadBack :
    let f := tf 1 1 0 (zeros 224)
    f.payload.length ≤ 224 ∧ 7 < 8 ∧ 255 < 256 ∧ trlContentOk f = true ∧ (some (0xFFF : BitVec 12)).isSome = true ∧ f.kind ≠ 0 ∧ (16 + (zeros 223).length ≤ 239 ∧ 239 < 0xF0) := by decide +kernel

theorem witness_SoundIsKeptByEveryStep : (∃ t, step State.reset = .next t) ∧ Sound State.reset.dev ∧ debugLock State.reset :=
  by refine ⟨⟨_, rfl⟩, ⟨⟨?_, ?_, ?_, ?_⟩, ?_, ?_⟩, ?_⟩ <;> decide +kernel

end Sys2Proof.Tests
end

section
/-! The bands of resistance and the code of a level pin (R122, R123). -/
namespace Sys2Proof.Machine
open Sys2Proof

/-- R123's table read from its top: with `n` bounds already passed, the first of the remaining bounds above the resistance ends the search. -/
def bandLadder (uv ua : Nat) : Nat → List Nat → Nat
  | n, [] => n
  | n, b :: bs => if uv < b * ua then n else bandLadder uv ua (n + 1) bs

/-- Sorted bounds: the first one above the resistance has all the others above it after it, so counting the bounds reached and reading the table in order agree. -/
theorem add_length_filter_reached_eq_bandLadder (uv ua : Nat) (bs : List Nat) (sorted : bs.Pairwise (· ≤ ·)) (n : Nat) :
    n + (bs.filter fun b => decide (b * ua ≤ uv)).length = bandLadder uv ua n bs := by
  induction bs generalizing n with
  | nil => rfl
  | cons b bs ih =>
    obtain ⟨hb, hbs⟩ := List.pairwise_cons.mp sorted
    by_cases below : uv < b * ua
    · have none_reached : ∀ c ∈ b :: bs, uv < c * ua :=
        List.forall_mem_cons.mpr ⟨below, fun c hc => below.trans_le (Nat.mul_le_mul_right ua (hb c hc))⟩
      have empty : (b :: bs).filter (fun c => decide (c * ua ≤ uv)) = [] :=
        List.filter_eq_nil_iff.mpr fun c hc => by simpa using none_reached c hc
      simp [bandLadder, below, empty]
    · rw [List.filter_cons_of_pos (by simpa using below), List.length_cons, bandLadder, if_neg below, ← ih hbs]
      omega

theorem bandBounds_sorted : bandBounds.Pairwise (· ≤ ·) := by decide

theorem bandCode_eq_bandLadder (uv ua : Nat) : bandCode uv ua = bandLadder uv ua 0 bandBounds :=
  (Nat.zero_add _).symm.trans (add_length_filter_reached_eq_bandLadder uv ua bandBounds bandBounds_sorted 0)

/-- Fifteen bounds, so a code fits the four bits of a level pin. -/
theorem bandCode_lt (uv ua : Nat) : bandCode uv ua < 16 :=
  Nat.lt_succ_of_le (List.length_filter_le _ bandBounds)

theorem usable_iff (uv : Nat) : usable uv = true ↔ 50000 ≤ uv ∧ uv ≤ 1200000 := by
  simp [usable]

/-- R122 without the cut to four bits, which takes nothing away. -/
theorem levelCode_toNat (v : PinVolts) : (levelCode v).toNat =
    if v.at100 < 50000 then 0
    else if usable v.at100 then bandCode v.at100 100
    else if usable v.at10 then bandCode v.at10 10
    else if usable v.at4 then bandCode v.at4 4
    else 15 := by
  rw [levelCode, BitVec.toNat_ofNat]
  apply Nat.mod_eq_of_lt
  have h100 := bandCode_lt v.at100 100
  have h10 := bandCode_lt v.at10 10
  have h4 := bandCode_lt v.at4 4
  split_ifs <;> omega

/-- Settles O13: R122 picks the voltage and its current, and R123's sorted bounds are read as the ladder of bands. -/
theorem resistanceBandsGiveTheLevelPinCodes : Obligations.ResistanceBandsGiveTheLevelPinCodes := by
  unfold Obligations.ResistanceBandsGiveTheLevelPinCodes
  constructor
  · intro v
    rw [levelCode_toNat]
    by_cases low : v.at100 < 50000
    · simp only [if_pos low]
    · have usable100 : usable v.at100 = true ↔ v.at100 ≤ 1200000 :=
        (usable_iff v.at100).trans (and_iff_right (Nat.not_lt.mp low))
      simp only [if_neg low, usable100, usable_iff]
  · intro uv ua _
    rw [bandCode_eq_bandLadder]
    rfl

end Sys2Proof.Machine
end

section
/-! One reset of the unit: what its first assertion discards, and which release ends it (R170, R172, R183, R293). -/
namespace Sys2Proof.Machine
open Sys2Proof

/-! ## What a reset leaves of the unit -/

@[simp] theorem freshDev_stat (d : Dev) (reason : Byte) : (freshDev d reason).stat = Stat.reset := rfl
@[simp] theorem freshDev_free (d : Dev) (reason : Byte) : (freshDev d reason).free = d.free := rfl

/-- A Trellis port after a reset or a halt is a fresh one, but for the LINK_DOWN that an up link has sent (R293). -/
theorem freshDev_trl_getElem (d : Dev) (reason : Byte) (i : TPort) :
    (freshDev d reason).trl[i] = { TrlPort.reset with
      lastLinkDown := if d.trl[i].linkUp then reason else 0
      parting := if d.trl[i].linkUp && reason != 0 then linkDownBytes (ownAddr d) d.trl[i] reason else [] } := by
  simp [freshDev]

theorem freshDev_discarded (d : Dev) (reason : Byte) : Discarded (freshDev d reason) :=
  ⟨rfl, fun i => by rw [freshDev_trl_getElem]⟩

theorem freshDev_lastLinkDown (d : Dev) (reason : Byte) (i : TPort) :
    (freshDev d reason).trl[i].lastLinkDown = if d.trl[i].linkUp then reason else 0 := by
  rw [freshDev_trl_getElem]

/-- Reason 0 stands for no LINK_DOWN; with any other the neighbour of an up link gets the frame's bytes. -/
theorem freshDev_parting (d : Dev) {reason : Byte} (told : reason ≠ 0) (i : TPort) :
    (freshDev d reason).trl[i].parting = if d.trl[i].linkUp then linkDownBytes (ownAddr d) d.trl[i] reason else [] := by
  rw [freshDev_trl_getElem, bne_iff_ne.mpr told, Bool.and_true]

/-! ## The assertions of a reset -/

/-- The reset inputs once one of them has asserted in a powered unit: that input is noted for the cause. -/
def assertPin (chain : Bool) (hk : Hk) : Hk :=
  { hk with resetPin := hk.resetPin || !chain, chainPin := hk.chainPin || chain, inReset := true, causeChain := hk.causeChain || chain }

theorem exec_resetAssert_first (chain : Bool) (s : State) (powered : s.hk.vddIo = true) (running : s.hk.inReset = false) :
    exec (.resetAssert chain) s = .next { s with hk := assertPin chain s.hk, cfg := Cfg.reset, dev := freshDev s.dev 1 } := by
  change execResetAssert chain s = _
  simp [execResetAssert, assertPin, powered, running]

theorem exec_resetAssert_further (chain : Bool) (s : State) (powered : s.hk.vddIo = true) (inReset : s.hk.inReset = true) :
    exec (.resetAssert chain) s = .next { s with hk := assertPin chain s.hk } := by
  change execResetAssert chain s = _
  simp [execResetAssert, assertPin, powered, inReset]

/-! ## The releases of a reset -/

/-- The reset input that a release of `chain` leaves as it is. -/
def otherPin (chain : Bool) (hk : Hk) : Bool := if chain then hk.resetPin else hk.chainPin

/-- With the other input released and the rails-rising phase over, the release of an input is reset release. -/
theorem exec_resetRelease_last (chain : Bool) (s : State) (powered : s.hk.vddIo = true) (inReset : s.hk.inReset = true)
    (risen : s.hk.railsRising = false) (other : otherPin chain s.hk = false) :
    exec (.resetRelease chain) s = .next { s with hk := releaseReset { s.hk with resetPin := false, chainPin := false } } := by
  change execResetRelease chain s = _
  cases chain with
  | false =>
    have chainFree : s.hk.chainPin = false := other
    simp [execResetRelease, powered, inReset, risen, chainFree]
  | true =>
    have resetFree : s.hk.resetPin = false := other
    simp [execResetRelease, powered, inReset, risen, resetFree]

/-- With the other input still asserted, the release of an input is that input's alone. -/
theorem exec_resetRelease_part (chain : Bool) (s : State) (other : otherPin chain s.hk = true) :
    exec (.resetRelease chain) s = .next { s with hk := { s.hk with resetPin := s.hk.resetPin && chain, chainPin := s.hk.chainPin && !chain } } := by
  change execResetRelease chain s = _
  cases chain with
  | false =>
    have chainHeld : s.hk.chainPin = true := other
    simp [execResetRelease, chainHeld]
  | true =>
    have resetHeld : s.hk.resetPin = true := other
    simp [execResetRelease, resetHeld]

/-- Settles O9: the first assertion discards the unit, further ones only note their input, and a release ends the reset exactly where the other input is released and the rails have risen. -/
theorem resetFromFirstAssertionToLastRelease : Obligations.ResetFromFirstAssertionToLastRelease := by
  unfold Obligations.ResetFromFirstAssertionToLastRelease
  refine ⟨?first, ?further, ?lastReset, ?lastChain, ?partReset, ?partChain⟩
  case first =>
    intro s chain powered running
    exact ⟨freshDev s.dev 1, exec_resetAssert_first chain s powered running, freshDev_discarded s.dev 1,
      freshDev_stat s.dev 1, freshDev_free s.dev 1, fun i => ⟨freshDev_lastLinkDown s.dev 1 i, freshDev_parting s.dev (by decide) i⟩⟩
  case further =>
    intro s chain powered inReset
    simp only [exec_resetAssert_further chain s powered inReset, assertPin, inReset]
  case lastReset =>
    intro s powered inReset risen chainFree
    simp only [exec_resetRelease_last false s powered inReset risen chainFree, releaseReset, chainFree]
  case lastChain =>
    intro s powered inReset risen resetFree
    simp only [exec_resetRelease_last true s powered inReset risen resetFree, releaseReset, resetFree]
  case partReset =>
    intro s chainHeld
    rw [exec_resetRelease_part false s chainHeld, Bool.and_false, Bool.not_false, Bool.and_true]
  case partChain =>
    intro s resetHeld
    rw [exec_resetRelease_part true s resetHeld, Bool.not_true, Bool.and_false, Bool.and_true]

end Sys2Proof.Machine
end

section
/-! Unit addresses, the positions they stand for, and the axis rings (R132, R192, R193). -/
namespace Sys2Proof.Machine
open Sys2Proof

/-! ## The positions of a torus -/

/-- A position of the torus: each coordinate below its axis's dimension. -/
def InTorus (d : Dims) (p : Pos) : Prop := ∀ ax, coordOf p ax < dimOf d ax

theorem inTorus_iff (d : Dims) (p : Pos) : InTorus d p ↔ p.x < d.nx ∧ p.y < d.ny ∧ p.z < d.nz := by
  constructor
  · intro inside
    exact ⟨inside 0, inside 1, inside 2⟩
  · rintro ⟨hx, hy, hz⟩ ax
    match ax with
    | 0 => exact hx
    | 1 => exact hy
    | _ + 2 => exact hz

@[simp] theorem coordOf_setCoord_same (p : Pos) (ax v : Nat) : coordOf (setCoord p ax v) ax = v := by
  match ax with
  | 0 | 1 | _ + 2 => rfl

@[simp] theorem setCoord_setCoord_same (p : Pos) (ax v w : Nat) : setCoord (setCoord p ax v) ax w = setCoord p ax w := by
  match ax with
  | 0 | 1 | _ + 2 => rfl

@[simp] theorem setCoord_coordOf (p : Pos) (ax : Nat) : setCoord p ax (coordOf p ax) = p := by
  match ax with
  | 0 | 1 | _ + 2 => rfl

theorem InTorus.setCoord {d : Dims} {p : Pos} (inside : InTorus d p) {ax v : Nat} (below : v < dimOf d ax) :
    InTorus d (setCoord p ax v) := by
  obtain ⟨hx, hy, hz⟩ := (inTorus_iff d p).mp inside
  rw [inTorus_iff]
  match ax with
  | 0 => exact ⟨below, hy, hz⟩
  | 1 => exact ⟨hx, below, hz⟩
  | _ + 2 => exact ⟨hx, hy, below⟩

/-! ## Addresses and positions, one for one (R192) -/

/-- An address is the number whose digits, in the mixed radix of the dimensions, are the coordinates. -/
theorem addrOf_eq_digits (d : Dims) (p : Pos) : addrOf d p = p.x + d.nx * (p.y + d.ny * p.z) := by
  rw [addrOf]
  ring

theorem posOf_eq_digits (d : Dims) (a : Nat) (hx : 0 < d.nx) (hy : 0 < d.ny) :
    posOf d a = ⟨a % d.nx, a / d.nx % d.ny, a / d.nx / d.ny⟩ := by
  rw [posOf, max_eq_left hx, max_eq_left hy, Nat.div_div_eq_div_mul]

theorem addrOf_lt {d : Dims} {p : Pos} (inside : InTorus d p) : addrOf d p < d.nx * d.ny * d.nz := by
  obtain ⟨hx, hy, hz⟩ := (inTorus_iff d p).mp inside
  rw [addrOf_eq_digits, Nat.mul_assoc]
  exact Nat.add_mul_lt_mul_of_lt_of_lt hx (Nat.add_mul_lt_mul_of_lt_of_lt hy hz)

theorem posOf_addrOf {d : Dims} {p : Pos} (inside : InTorus d p) : posOf d (addrOf d p) = p := by
  obtain ⟨hx, hy, hz⟩ := (inTorus_iff d p).mp inside
  have x0 : 0 < d.nx := Nat.zero_lt_of_lt hx
  have y0 : 0 < d.ny := Nat.zero_lt_of_lt hy
  have lowDigit : addrOf d p % d.nx = p.x := by
    rw [addrOf_eq_digits, Nat.add_mul_mod_self_left, Nat.mod_eq_of_lt hx]
  have highDigits : addrOf d p / d.nx = p.y + d.ny * p.z := by
    rw [addrOf_eq_digits, Nat.add_mul_div_left _ _ x0, Nat.div_eq_of_lt hx, Nat.zero_add]
  rw [posOf_eq_digits d _ x0 y0, lowDigit, highDigits, Nat.add_mul_mod_self_left, Nat.mod_eq_of_lt hy,
    Nat.add_mul_div_left _ _ y0, Nat.div_eq_of_lt hy, Nat.zero_add]

/-- A torus with a unit in it has no dimension of 0. -/
theorem dims_pos_of_lt {d : Dims} {a : Nat} (unit : a < d.nx * d.ny * d.nz) : 0 < d.nx ∧ 0 < d.ny := by
  have some_unit : d.nx * d.ny * d.nz ≠ 0 := Nat.ne_zero_of_lt unit
  simp only [ne_eq, mul_eq_zero, not_or] at some_unit
  obtain ⟨⟨hx, hy⟩, _⟩ := some_unit
  exact ⟨Nat.pos_of_ne_zero hx, Nat.pos_of_ne_zero hy⟩

theorem posOf_inTorus {d : Dims} {a : Nat} (unit : a < d.nx * d.ny * d.nz) : InTorus d (posOf d a) := by
  obtain ⟨x0, y0⟩ := dims_pos_of_lt unit
  rw [inTorus_iff, posOf_eq_digits d a x0 y0]
  refine ⟨Nat.mod_lt _ x0, Nat.mod_lt _ y0, ?_⟩
  rw [Nat.div_div_eq_div_mul]
  exact Nat.div_lt_of_lt_mul unit

theorem addrOf_posOf {d : Dims} {a : Nat} (unit : a < d.nx * d.ny * d.nz) : addrOf d (posOf d a) = a := by
  obtain ⟨x0, y0⟩ := dims_pos_of_lt unit
  rw [addrOf_eq_digits, posOf_eq_digits d a x0 y0]
  simp only [Nat.mod_add_div]

@[simp] theorem addrOf_origin (d : Dims) : addrOf d ⟨0, 0, 0⟩ = 0 := rfl

/-! ## The unit that a port faces (R193) -/

/-- One step back from the next unit of an axis ring is the unit itself. -/
theorem ring_back_of_next {k n : Nat} (hk : k < n) : ((k + 1) % n + n - 1) % n = k := by
  rcases Nat.lt_or_ge (k + 1) n with inner | last
  · rw [Nat.mod_eq_of_lt inner, show k + 1 + n - 1 = k + n by omega, Nat.add_mod_right, Nat.mod_eq_of_lt hk]
  · have wrap : k + 1 = n := by omega
    rw [wrap, Nat.mod_self, Nat.zero_add, Nat.mod_eq_of_lt (by omega)]
    omega

theorem posOf_facing_plus {d : Dims} {a : Nat} (unit : a < d.nx * d.ny * d.nz) (ax : Nat) :
    posOf d (facing d a (2 * ax)) = setCoord (posOf d a) ax ((coordOf (posOf d a) ax + 1) % dimOf d ax) := by
  have inside := posOf_inTorus unit
  have n0 : 0 < dimOf d ax := Nat.zero_lt_of_lt (inside ax)
  rw [← posOf_addrOf (inside.setCoord (Nat.mod_lt (coordOf (posOf d a) ax + 1) n0))]
  simp [facing, Nat.max_eq_left n0]

theorem posOf_facing_minus {d : Dims} {a : Nat} (unit : a < d.nx * d.ny * d.nz) (ax : Nat) :
    posOf d (facing d a (2 * ax + 1)) = setCoord (posOf d a) ax ((coordOf (posOf d a) ax + dimOf d ax - 1) % dimOf d ax) := by
  have inside := posOf_inTorus unit
  have n0 : 0 < dimOf d ax := Nat.zero_lt_of_lt (inside ax)
  have axis : (2 * ax + 1) / 2 = ax := by omega
  rw [← posOf_addrOf (inside.setCoord (Nat.mod_lt (coordOf (posOf d a) ax + dimOf d ax - 1) n0))]
  simp [facing, axis, Nat.max_eq_left n0]

theorem facing_lt {d : Dims} {a : Nat} (unit : a < d.nx * d.ny * d.nz) (q : Nat) : facing d a q < d.nx * d.ny * d.nz := by
  have inside := posOf_inTorus unit
  have n0 : 0 < dimOf d (q / 2) := Nat.zero_lt_of_lt (inside (q / 2))
  apply addrOf_lt
  apply inside.setCoord
  rw [Nat.max_eq_left n0]
  split_ifs <;> exact Nat.mod_lt _ n0

theorem facingPort_plus (ax : Nat) : facingPort (2 * ax) = 2 * ax + 1 := by
  simp [facingPort]

/-- The link of an A+ port leads back by the A- port at its other end. -/
theorem facing_facingPort_plus {d : Dims} {a : Nat} (unit : a < d.nx * d.ny * d.nz) (ax : Nat) :
    facing d (facing d a (2 * ax)) (facingPort (2 * ax)) = a := by
  have next_unit := facing_lt unit (2 * ax)
  have same_pos : posOf d (facing d (facing d a (2 * ax)) (2 * ax + 1)) = posOf d a := by
    rw [posOf_facing_minus next_unit, posOf_facing_plus unit, coordOf_setCoord_same, setCoord_setCoord_same,
      ring_back_of_next (posOf_inTorus unit ax), setCoord_coordOf]
  rw [facingPort_plus, ← addrOf_posOf (facing_lt next_unit (2 * ax + 1)), same_pos, addrOf_posOf unit]

/-! ## The position a unit takes from its pins (R132) -/

/-- Under LVL_DIMS code 0, and on an ORIGIN unit, a coded position other than (0, 0, 0) is a contradiction. -/
theorem codedPos_eq_origin_of_no_conflict {c : Cfg} (coded : isCoded c = true) (agree : conflictMask c = 0)
    (bound : code c 2 = 0 ∨ isOrigin c = true) : codedPos c = ⟨0, 0, 0⟩ := by
  by_contra elsewhere
  by_cases one : code c 2 = 0
  · simp [conflictMask, coded, one, elsewhere] at agree
  · have origin : isOrigin c = true := bound.resolve_left one
    simp [conflictMask, coded, one, elsewhere, origin] at agree

theorem isOrigin_latchCfg (volts : List PinVolts) (straps : BitVec 4) (rsvdG : W16) (blown takes : Bool) :
    isOrigin (latchCfg volts straps rsvdG blown takes) = straps.getLsbD 0 := by
  simp only [latchCfg, isOrigin]
  split_ifs <;> rfl

/-- A configuration that step 3 does not stop holds no contradiction. -/
theorem conflictMask_latchCfg {volts : List PinVolts} {straps : BitVec 4} {rsvdG : W16} {blown takes : Bool}
    (goes : (latchCfg volts straps rsvdG blown takes).stop = none) :
    conflictMask (latchCfg volts straps rsvdG blown takes) = 0 := by
  simp only [latchCfg] at goes ⊢
  split_ifs at goes ⊢ with reserved conflict
  exact not_not.mp conflict

theorem initialSow_pos_of_origin {c : Cfg} (origin : isOrigin c = true) (agree : conflictMask c = 0) :
    (initialSow c).pos = ⟨0, 0, 0⟩ := by
  by_cases coded : isCoded c = true
  · simp [initialSow, codedPos_eq_origin_of_no_conflict coded agree (.inr origin)]
  · simp [initialSow, coded]

theorem initialSow_formed (c : Cfg) : (initialSow c).formed = (code c 2 == 0) := rfl

theorem initialSow_pos_of_one_unit {c : Cfg} (one : code c 2 = 0) : (initialSow c).pos = ⟨0, 0, 0⟩ := by
  simp [initialSow, one]

/-- Settles O58: coordinates are the digits of the address in the mixed radix of the dimensions, and a step along an axis ring changes one digit. -/
theorem addressesAreDenseAndPortsFaceTheirAxisRing : Obligations.AddressesAreDenseAndPortsFaceTheirAxisRing := by
  unfold Obligations.AddressesAreDenseAndPortsFaceTheirAxisRing
  refine ⟨fun _ _ => rfl, ?ofPosition, ?ofAddress, ?origin, ?oneUnit, ?faces⟩
  case ofPosition =>
    intro d p hx hy hz
    have inside := (inTorus_iff d p).mpr ⟨hx, hy, hz⟩
    exact ⟨addrOf_lt inside, posOf_addrOf inside⟩
  case ofAddress =>
    intro d a unit
    obtain ⟨hx, hy, hz⟩ := (inTorus_iff d (posOf d a)).mp (posOf_inTorus unit)
    exact ⟨hx, hy, hz, addrOf_posOf unit⟩
  case origin =>
    intro volts straps rsvdG blown takes d strap goes
    have origin := (isOrigin_latchCfg volts straps rsvdG blown takes).trans strap
    rw [initialSow_pos_of_origin origin (conflictMask_latchCfg goes), addrOf_origin]
  case oneUnit =>
    intro c d one sown
    have formed : d.sow.formed = true := by rw [sown, initialSow_formed, one, beq_self_eq_true]
    refine ⟨formed, ?_⟩
    rw [ownAddr, if_pos formed, sown, initialSow_pos_of_one_unit one, addrOf_origin]
  case faces =>
    intro d a ax unit _
    exact ⟨posOf_facing_plus unit ax, posOf_facing_minus unit ax, facing_facingPort_plus unit ax⟩

end Sys2Proof.Machine
end

section
/-! Slots of a work ring: the laps of an index, and the intake of fetched slots (R311 to R315). -/
namespace Sys2Proof.Machine
open Sys2Proof

/-! ## An index and its laps (R311, R312) -/

/-- Two laps of every ring size divide the 16-bit index, so its wrap loses whole pairs of laps. -/
theorem toNat_add_lap_mod_two_laps {k : Nat} (small : k ≤ 15) (i : W16) :
    (i + BitVec.ofNat 16 (2 ^ k)).toNat % (2 ^ k * 2) = (i.toNat + 2 ^ k) % (2 ^ k * 2) := by
  have two_laps : 2 ^ k * 2 ∣ 2 ^ 16 := Nat.pow_dvd_pow 2 (Nat.succ_le_succ small)
  have lap_fits : 2 ^ k < 2 ^ 16 := Nat.pow_lt_pow_right Nat.one_lt_two (Nat.lt_succ_of_le small)
  rw [BitVec.toNat_add, BitVec.toNat_ofNat, Nat.mod_eq_of_lt lap_fits, Nat.mod_mod_of_dvd _ two_laps]

theorem slotOf_lt (h : RingHdr) (i : W16) : slotOf h i < 2 ^ h.ringLog2 := Nat.mod_lt _ (Nat.two_pow_pos _)

theorem slotOf_add_lap {h : RingHdr} (small : h.ringLog2 ≤ 15) (i : W16) :
    slotOf h (i + BitVec.ofNat 16 (2 ^ h.ringLog2)) = slotOf h i := by
  simp only [slotOf]
  rw [← Nat.mod_mul_right_mod _ _ 2, toNat_add_lap_mod_two_laps small, Nat.mod_mul_right_mod, Nat.add_mod_right]

theorem expectedPhase_add_lap {h : RingHdr} (small : h.ringLog2 ≤ 15) (i : W16) :
    expectedPhase h (i + BitVec.ofNat 16 (2 ^ h.ringLog2)) = 1 - expectedPhase h i := by
  have next_lap : (i + BitVec.ofNat 16 (2 ^ h.ringLog2)).toNat / 2 ^ h.ringLog2 % 2 = (i.toNat / 2 ^ h.ringLog2 + 1) % 2 := by
    rw [← Nat.mod_mul_right_div_self, toNat_add_lap_mod_two_laps small, Nat.mod_mul_right_div_self,
      Nat.add_div_right _ (Nat.two_pow_pos _)]
  simp only [expectedPhase, next_lap]
  omega

theorem expectedPhase_first_lap {h : RingHdr} {i : W16} (first : i.toNat < 2 ^ h.ringLog2) : expectedPhase h i = 1 := by
  rw [expectedPhase, Nat.div_eq_of_lt first]

theorem indexBefore_iff (a b : W16) : indexBefore a b = true ↔ 1 ≤ (b - a).toNat ∧ (b - a).toNat ≤ 32767 := by
  simp [indexBefore]

theorem indexBefore_self (i : W16) : indexBefore i i = false := by
  simp [indexBefore]

theorem indexBefore_add {k : Nat} (pos : 1 ≤ k) (half : k ≤ 32767) (i : W16) :
    indexBefore i (i + BitVec.ofNat 16 k) = true := by
  have ahead : (i + BitVec.ofNat 16 k - i).toNat = k := by
    rw [BitVec.add_comm, BitVec.add_sub_cancel, BitVec.toNat_ofNat]
    omega
  rw [indexBefore_iff, ahead]
  exact ⟨pos, half⟩

theorem not_indexBefore_add {k : Nat} (pos : 1 ≤ k) (half : k ≤ 32767) (i : W16) :
    indexBefore (i + BitVec.ofNat 16 k) i = false := by
  have behind : (i - (i + BitVec.ofNat 16 k)).toNat = 65536 - k := by
    rw [BitVec.toNat_sub, BitVec.toNat_add, BitVec.toNat_ofNat]
    omega
  rw [Bool.eq_false_iff, ne_eq, indexBefore_iff, behind]
  omega

/-! ## New slots (R313) -/

theorem slotNew_iff (h : RingHdr) (i : W16) (bs : List Byte) :
    slotNew h i bs = true ↔ byteAt bs 0x7F % 2 = expectedPhase h i ∧ leNat bs 4 4 = h.epoch.toNat := by
  simp [slotNew]

theorem byteAt_zeros (n off : Nat) : byteAt (zeros n) off = 0 := by
  rw [byteAt, zeros, List.getD_eq_getElem?_getD, List.getElem?_getD_replicate_default_eq]
  rfl

/-- Phase 0 is not the phase of a first lap, whatever the ring's epoch. -/
theorem slotNew_zeros_first_lap {h : RingHdr} {i : W16} (first : i.toNat < 2 ^ h.ringLog2) (n : Nat) : slotNew h i (zeros n) = false := by
  rw [Bool.eq_false_iff, ne_eq, slotNew_iff, byteAt_zeros, expectedPhase_first_lap first]
  simp

/-! ## The intake of fetched slots (R315) -/

/-- A ring once it has taken the slot at its intake index, which is new; it no longer waits there. -/
def takeNew (bs : List Byte) (x : Ring) : Ring :=
  { x with
    slotData := x.slotData.filter fun e => e.1 != x.intake
    queue := x.queue ++ [{ index := x.intake, bytes := bs }]
    nextFetch := if x.waiting && x.nextFetch == x.intake then x.nextFetch + 1 else x.nextFetch
    refetches := if x.waiting && x.nextFetch == x.intake then 0 else x.refetches
    refetchPending := if x.waiting && x.nextFetch == x.intake then false else x.refetchPending
    waiting := x.waiting && x.nextFetch != x.intake
    intake := x.intake + 1 }

/-- A ring once the slot at its intake index has been found not new: it waits there. -/
def waitAtIntake (x : Ring) : Ring :=
  { x with
    slotData := [], waiting := true, nextFetch := x.intake
    refetches := if x.refetchPending then 4 else x.refetches, refetchPending := false
    retry := x.retry.filter fun w => !isSlots w }

section
variable {d : Dev} {p : LPort} {r : RingNo} {bs : List Byte}

theorem takeSlots_of_none_fetched (n : Nat) (none_fetched : (ringAt d p r).slotData = []) : takeSlots p r n d = d := by
  cases n with
  | zero => rfl
  | succ n => simp [takeSlots, none_fetched]

theorem takeSlots_succ_of_new (n : Nat) (fetched : (ringAt d p r).slotData.lookup (ringAt d p r).intake = some bs)
    (new : slotNew (ringAt d p r).hdr (ringAt d p r).intake bs = true) :
    takeSlots p r (n + 1) d = takeSlots p r n (modR d p r (takeNew bs)) := by
  simp only [takeSlots, fetched, new]
  rfl

theorem takeSlots_succ_of_not_new (n : Nat) (fetched : (ringAt d p r).slotData.lookup (ringAt d p r).intake = some bs)
    (old : slotNew (ringAt d p r).hdr (ringAt d p r).intake bs = false) :
    takeSlots p r (n + 1) d = modR (dropReads d p r isSlots) p r waitAtIntake := by
  simp only [takeSlots, fetched, old]
  rfl

/-- Where the slot at the intake index is the only one fetched, the intake ends behind it. -/
theorem takeSlots_one_new (n : Nat) (one : (ringAt d p r).slotData = [((ringAt d p r).intake, bs)])
    (new : slotNew (ringAt d p r).hdr (ringAt d p r).intake bs = true) :
    takeSlots p r (n + 1) d = modR d p r (takeNew bs) := by
  rw [takeSlots_succ_of_new n (by simp [one]) new]
  apply takeSlots_of_none_fetched
  simp [takeNew, one]

theorem takeSlots_one_new_of_not_waiting (n : Nat) (one : (ringAt d p r).slotData = [((ringAt d p r).intake, bs)])
    (new : slotNew (ringAt d p r).hdr (ringAt d p r).intake bs = true) (going : (ringAt d p r).waiting = false) :
    takeSlots p r (n + 1) d = modR d p r fun x => { x with
      slotData := [], queue := x.queue ++ [{ index := x.intake, bytes := bs }], intake := x.intake + 1 } := by
  rw [takeSlots_one_new n one new]
  exact modR_congr (by simp [takeNew, one, going])

theorem takeSlots_one_new_of_waiting (n : Nat) (one : (ringAt d p r).slotData = [((ringAt d p r).intake, bs)])
    (new : slotNew (ringAt d p r).hdr (ringAt d p r).intake bs = true) (waits : (ringAt d p r).waiting = true)
    (here : (ringAt d p r).nextFetch = (ringAt d p r).intake) :
    takeSlots p r (n + 1) d = modR d p r fun x => { x with
      slotData := [], queue := x.queue ++ [{ index := x.intake, bytes := bs }], intake := x.intake + 1
      nextFetch := x.intake + 1, waiting := false, refetches := 0, refetchPending := false } := by
  rw [takeSlots_one_new n one new]
  exact modR_congr (by simp [takeNew, one, waits, here])

end

theorem exec_descriptorFetch_of_fetched {s : State} {p : LPort} {r : RingNo} (running : alive s = true)
    (fetched : (ringAt s.dev p r).slotData ≠ []) :
    exec (.descriptorFetch p r) s = .next { s with dev := epilogue s.cfg (fetchMore (takeSlots p r 9 s.dev) p r) } := by
  change execDescriptorFetch p r s = _
  rw [execDescriptorFetch, onDev_alive running]
  simp [fetched]

/-- Settles O32: the intake of one fetched slot is one step of `takeSlots`, and an index's slot and phase depend on it modulo two laps, which the 16-bit wrap keeps. -/
theorem slotsAreTakenInIndexOrder : Obligations.SlotsAreTakenInIndexOrder := by
  unfold Obligations.SlotsAreTakenInIndexOrder
  constructor
  · intro s p r bs running one
    rw [exec_descriptorFetch_of_fetched running (by simp [one])]
    refine ⟨?going, ?waits, ?notNew⟩
    case going =>
      intro new going
      rw [takeSlots_one_new_of_not_waiting 8 one new going]
    case waits =>
      intro new waits here
      rw [takeSlots_one_new_of_waiting 8 one new waits here]
    case notNew =>
      intro old
      rw [takeSlots_succ_of_not_new 8 (by simp [one]) old]
      rfl
  · intro h i bs small
    exact ⟨slotOf_lt h i, rfl, rfl, slotOf_add_lap small i, expectedPhase_add_lap small i, slotNew_iff h i bs,
      fun first => slotNew_zeros_first_lap first 128,
      fun k pos half => ⟨indexBefore_add pos half i, not_indexBefore_add pos half i⟩, indexBefore_self i⟩

end Sys2Proof.Machine
end

section
/-! The four peg operations and the readings of a peg (R542). -/
namespace Sys2Proof.Machine
open Sys2Proof

/-! ## Set and clear -/

@[simp] theorem pegApply_set (v a : W16) : pegApply 1 v a = (0x0001, 0) := rfl

@[simp] theorem pegApply_clear (v a : W16) : pegApply 2 v a = (0x0000, 0) := rfl

/-! ## Tally add -/

theorem pegApply_add_of_fits {v a : W16} (fits : v.toNat + a.toNat ≤ 0xFFFF) : pegApply 3 v a = (v + a, 0) := if_pos fits

theorem pegApply_add_of_overflow {v a : W16} (exceeds : 0xFFFF < v.toNat + a.toNat) : pegApply 3 v a = (0xFFFF, 2) :=
  if_neg (Nat.not_le.mpr exceeds)

theorem pegApply_add_value (v a : W16) : (pegApply 3 v a).1.toNat = min (v.toNat + a.toNat) 0xFFFF := by
  rcases le_or_gt (v.toNat + a.toNat) 0xFFFF with fits | exceeds
  · rw [pegApply_add_of_fits fits, Nat.min_eq_left fits]
    exact BitVec.toNat_add_of_lt (Nat.lt_succ_of_le fits)
  · rw [pegApply_add_of_overflow exceeds, Nat.min_eq_right exceeds.le]
    rfl

theorem pegApply_add_exception (v a : W16) : (pegApply 3 v a).2 = if 0xFFFF < v.toNat + a.toNat then 2 else 0 := by
  rcases le_or_gt (v.toNat + a.toNat) 0xFFFF with fits | exceeds
  · rw [pegApply_add_of_fits fits, if_neg (Nat.not_lt.mpr fits)]
  · rw [pegApply_add_of_overflow exceeds, if_pos exceeds]

@[simp] theorem pegApply_add_zero (v : W16) : pegApply 3 v 0 = (v, 0) := by
  have fits : v.toNat + (0 : W16).toNat ≤ 0xFFFF := Nat.le_of_lt_succ v.isLt
  rw [pegApply_add_of_fits fits, add_zero]

/-! ## Tally take -/

theorem pegApply_take_of_covered {v a : W16} (covered : a.toNat ≤ v.toNat) : pegApply 4 v a = (v - a, 0) := if_pos covered

theorem pegApply_take_of_underflow {v a : W16} (under : v.toNat < a.toNat) : pegApply 4 v a = (0, 3) :=
  if_neg (Nat.not_le.mpr under)

/-- The difference is the natural numbers' own, which is already cut at 0. -/
theorem pegApply_take_value (v a : W16) : (pegApply 4 v a).1.toNat = v.toNat - a.toNat := by
  rcases le_or_gt a.toNat v.toNat with covered | under
  · rw [pegApply_take_of_covered covered]
    exact BitVec.toNat_sub_of_le covered
  · rw [pegApply_take_of_underflow under, Nat.sub_eq_zero_of_le under.le]
    rfl

theorem pegApply_take_exception (v a : W16) : (pegApply 4 v a).2 = if v.toNat < a.toNat then 3 else 0 := by
  rcases le_or_gt a.toNat v.toNat with covered | under
  · rw [pegApply_take_of_covered covered, if_neg (Nat.not_lt.mpr covered)]
  · rw [pegApply_take_of_underflow under, if_pos under]

@[simp] theorem pegApply_take_zero (v : W16) : pegApply 4 v 0 = (v, 0) := by
  have covered : (0 : W16).toNat ≤ v.toNat := Nat.zero_le _
  rw [pegApply_take_of_covered covered, sub_zero]

/-! ## Reads set, reads clear -/

theorem condHolds_set_iff (v operand : W16) : condHolds 0 v operand = true ↔ v ≠ 0 := bne_iff_ne

theorem condHolds_clear_iff (v operand : W16) : condHolds 1 v operand = true ↔ v = 0 := beq_iff_eq

/-- Settles O57: a tally operation stays within 16 bits or ends at its limit, and only the second raises its exception. -/
theorem pegOperationsActAsTabled : Obligations.PegOperationsActAsTabled := by
  unfold Obligations.PegOperationsActAsTabled
  intro v a
  exact ⟨pegApply_set v a, pegApply_clear v a,
    pegApply_add_value v a, pegApply_add_exception v a,
    (pegApply_take_value v a).trans (Nat.max_zero _).symm, pegApply_take_exception v a,
    pegApply_add_zero v, pegApply_take_zero v,
    condHolds_set_iff v a, condHolds_clear_iff v a⟩

end Sys2Proof.Machine
end

section
/-! The public instructions of the test access port: what their data registers capture, and when they take the pins (R108, R661, R662, R663). -/
namespace Sys2Proof.Machine
open Sys2Proof

/-! ## Numbers from their bits -/

theorem ofBits_eq_sum {n : Nat} (bits : Fin n → Bool) : Nat.ofBits bits = ∑ i, (bits i).toNat * 2 ^ i.val := by
  induction n with
  | zero => rfl
  | succ n ih =>
    rw [Nat.ofBits_succ, ih, Fin.sum_univ_succ, Finset.mul_sum, Fin.val_zero, pow_zero, mul_one, add_comm]
    exact congrArg _ (Finset.sum_congr rfl fun i _ => by rw [Fin.val_succ, pow_succ', mul_left_comm]; rfl)

theorem ofBits_append {m n : Nat} (low : Fin m → Bool) (high : Fin n → Bool) :
    Nat.ofBits (Fin.append low high) = Nat.ofBits low + 2 ^ m * Nat.ofBits high := by
  simp only [ofBits_eq_sum, Fin.sum_univ_add, Fin.append_left, Fin.append_right, Fin.val_castAdd, Fin.val_natAdd, Finset.mul_sum,
    pow_add, mul_left_comm]

theorem ofBits_vecCons {n : Nat} (bit : Bool) (bits : Fin n → Bool) :
    Nat.ofBits (Matrix.vecCons bit bits) = 2 * Nat.ofBits bits + bit.toNat := Nat.ofBits_succ _

theorem b2n_eq_toNat (bit : Bool) : b2n bit = bit.toNat := by cases bit <;> rfl

theorem sum_map_filter_eq_sum_map_toNat_mul {α : Type} (keep : α → Bool) (weight : α → Nat) (xs : List α) :
    ((xs.filter keep).map weight).sum = (xs.map fun x => (keep x).toNat * weight x).sum := by
  induction xs with
  | nil => rfl
  | cons x xs ih => cases kept : keep x <;> simp [kept, ih]

/-! ## The cells of the boundary register (R663) -/

theorem sum_portCells_eq_ofBits (on : LPort → Bool) :
    ((allLem.filter on).map fun p => 2 ^ (10 + p.val)).sum = 2 ^ 10 * Nat.ofBits on := by
  have ports : allLem = List.finRange 8 := by decide
  rw [sum_map_filter_eq_sum_map_toNat_mul, ports, ← Fin.sum_univ_def, ofBits_eq_sum, Finset.mul_sum]
  exact Finset.sum_congr rfl fun p _ => by rw [pow_add, mul_left_comm]

/-- R663's table from cell 0 to the last one that is not an input: PORTACT stands at cells 10 to 17, and an input cell at 0. -/
def ownCell (s : State) : Fin 19 → Bool :=
  Fin.append (Fin.append
    ![false, false, s.hk.railsRising, false, s.dev.line.assertA, false, s.dev.line.assertB, false, s.dev.stat.faultN, s.dev.stat.ready]
    fun p : LPort => s.dev.lem[p].portact) ![true]

theorem ownCell_portact (s : State) (p : LPort) : ownCell s ((p.natAdd 10).castAdd 1) = s.dev.lem[p].portact := by
  rw [ownCell, Fin.append_left, Fin.append_right]

/-- No two cells have one weight, so the sum of the weights of the cells at 1 has exactly these bits. -/
theorem ownCells_eq_ofBits (s : State) : ownCells s = BitVec.ofNat 39 (Nat.ofBits (ownCell s)) := by
  refine congrArg (BitVec.ofNat 39) ?_
  rw [sum_portCells_eq_ofBits, ownCell, ofBits_append, ofBits_append]
  simp only [b2n_eq_toNat, ofBits_vecCons, Nat.ofBits_zero, Bool.toNat_false, Bool.toNat_true]
  ring

theorem getLsbD_ownCells (s : State) (i : Fin 19) : (ownCells s).getLsbD i = ownCell s i := by
  have inside : (i : Nat) < 39 := by omega
  rw [ownCells_eq_ofBits, BitVec.getLsbD_ofNat, Nat.testBit_ofBits_lt _ _ i.isLt]
  simp [inside]

theorem getLsbD_ownCells_of_ge (s : State) {i : Nat} (beyond : 19 ≤ i) : (ownCells s).getLsbD i = false := by
  rw [ownCells_eq_ofBits, BitVec.getLsbD_ofNat, Nat.testBit_ofBits_ge _ _ beyond, Bool.and_false]

/-- The input cells of R663's table by their numbers. -/
def inputCellNumbers : List Nat := [0, 1, 3, 5, 7] ++ (List.range 20).map (· + 19)

theorem getLsbD_inputCells_of_mem : ∀ i ∈ inputCellNumbers, inputCells.getLsbD i = true := by decide

/-- A unit sets no input cell itself. -/
theorem getLsbD_ownCells_of_mem_inputs (s : State) {i : Nat} (input : i ∈ inputCellNumbers) : (ownCells s).getLsbD i = false := by
  rcases List.mem_append.mp input with first | last
  · fin_cases first
    · exact getLsbD_ownCells s 0
    · exact getLsbD_ownCells s 1
    · exact getLsbD_ownCells s 3
    · exact getLsbD_ownCells s 5
    · exact getLsbD_ownCells s 7
  · obtain ⟨k, -, rfl⟩ := List.mem_map.mp last
    exact getLsbD_ownCells_of_ge s (Nat.le_add_left 19 k)

/-! ## What the boundary register captures (R663) -/

theorem getElem?_shiftBits {w i : Nat} (v : BitVec w) (inside : i < w) : (shiftBits v)[i]? = some (v.getLsbD i) := by
  simp [shiftBits, inside]

@[simp] theorem length_capturePins (s : State) (levels : BitVec 39) : (capturePins s levels).length = 39 := by
  simp [capturePins, shiftBits]

theorem getElem?_capturePins_own (s : State) (levels : BitVec 39) (i : Fin 19) (own : inputCells.getLsbD i = false) :
    (capturePins s levels)[(i : Nat)]? = some (ownCell s i) := by
  rw [capturePins, getElem?_shiftBits _ (by omega), BitVec.getLsbD_or, BitVec.getLsbD_and, own, getLsbD_ownCells,
    Bool.and_false, Bool.or_false]

theorem getElem?_capturePins_input (s : State) (levels : BitVec 39) {i : Nat} (input : i ∈ inputCellNumbers) :
    (capturePins s levels)[i]? = some (levels.getLsbD i) := by
  have isInput := getLsbD_inputCells_of_mem i input
  rw [capturePins, getElem?_shiftBits _ (BitVec.lt_of_getLsbD isInput), BitVec.getLsbD_or, BitVec.getLsbD_and, isInput,
    getLsbD_ownCells_of_mem_inputs s input, Bool.false_or, Bool.and_true]

theorem getElem?_capturePins_portact (s : State) (levels : BitVec 39) (p : LPort) :
    (capturePins s levels)[10 + p.val]? = some s.dev.lem[p].portact := by
  have own : ∀ p : LPort, inputCells.getLsbD (10 + p.val) = false := by decide
  rw [← ownCell_portact]
  exact getElem?_capturePins_own s levels ((p.natAdd 10).castAdd 1) (own p)

/-! ## An instruction is loaded (R105, R108, R178) -/

/-- The unit once the instruction `ir` is loaded: `dr` is what its data register captured, `drive` what it does to the pins. -/
def tapHolding (s : State) (ir : Byte) (dr : List Bool) (drive : PinDrive) : State :=
  { s with hk := { s.hk with tapIr := ir, tapDr := dr, pinDrive := drive } }

theorem loadTap_of_powered {s : State} (powered : s.hk.vddIo = true) (ir : Byte) (dr : List Bool) (drive : PinDrive) :
    loadTap s ir dr drive = tapHolding s ir dr drive := if_pos powered

theorem loadTap_of_unpowered {s : State} (unpowered : s.hk.vddIo = false) (ir : Byte) (dr : List Bool) (drive : PinDrive) :
    loadTap s ir dr drive = s := if_neg (by simp [unpowered])

theorem asBypass_of_powered {s : State} (powered : s.hk.vddIo = true) (ir : Byte) :
    asBypass s ir = tapHolding s ir [false] .none := loadTap_of_powered powered ir [false] .none

theorem asBypass_of_unpowered {s : State} (unpowered : s.hk.vddIo = false) (ir : Byte) : asBypass s ir = s :=
  loadTap_of_unpowered unpowered ir [false] .none

theorem pinsFree_iff {s : State} (powered : s.hk.vddIo = true) :
    pinsFree s = true ↔ s.hk.resetPin = true ∨ s.hk.chainPin = true ∨ s.hk.railsRising = true := by
  simp [pinsFree, powered, or_assoc]

theorem pinsFree_of_unpowered {s : State} (unpowered : s.hk.vddIo = false) : pinsFree s = false := by simp [pinsFree, unpowered]

/-! ## The public instructions in a powered unit (R108, R660 to R662) -/

section
variable {s : State} (powered : s.hk.vddIo = true)
include powered

theorem exec_tapReset_of_powered : exec .tapReset s = .next (tapHolding s 2 [] .none) :=
  congrArg _ (loadTap_of_powered powered ..)

theorem exec_bypass_of_powered : exec .bypass s = .next (tapHolding s 0xFF [false] .none) :=
  congrArg _ (asBypass_of_powered powered _)

theorem exec_idcode_of_powered : exec .idcode s = .next (tapHolding s 2 (shiftBits (idcodeOf s.hk)) .none) :=
  congrArg _ (loadTap_of_powered powered ..)

theorem exec_samplePreload_of_powered (sample drive : BitVec 39) : exec (.samplePreload sample drive) s = .next { s with
    hk := { s.hk with tapIr := 1, tapDr := capturePins s sample, pinDrive := .none, boundary := drive } } := by
  change execSamplePreload sample drive s = _
  rw [execSamplePreload, if_pos powered, loadTap_of_powered powered]
  rfl

theorem exec_clamp_of_pinsFree (free : pinsFree s = true) : exec .clamp s = .next (tapHolding s 3 [false] .clamp) := by
  change execClamp s = _
  rw [execClamp, if_pos free, loadTap_of_powered powered]

theorem exec_highz_of_pinsFree (free : pinsFree s = true) : exec .highz s = .next (tapHolding s 4 [false] .highz) := by
  change execHighz s = _
  rw [execHighz, if_pos free, loadTap_of_powered powered]

theorem exec_extest_of_pinsFree (free : pinsFree s = true) (drive : BitVec 39) : exec (.extest drive) s = .next { s with
    hk := { s.hk with tapIr := 0, tapDr := capturePins s (Config.pinsSeen s.dev.free), pinDrive := .extest, boundary := drive }
    dev := { s.dev with free := s.dev.free + 1 } } := by
  change execExtest drive s = _
  rw [execExtest, if_pos free]
  simp only [draw, loadTap_of_powered powered]
  rfl

end

/-! ## The boundary instructions at any other moment: BYPASS (R108) -/

section
variable {s : State} (notFree : pinsFree s = false)
include notFree

theorem exec_clamp_of_not_pinsFree : exec .clamp s = .next (asBypass s 3) := congrArg _ (if_neg (by simp [notFree]))

theorem exec_highz_of_not_pinsFree : exec .highz s = .next (asBypass s 4) := congrArg _ (if_neg (by simp [notFree]))

theorem exec_extest_of_not_pinsFree (drive : BitVec 39) : exec (.extest drive) s = .next (asBypass s 0) :=
  congrArg _ (if_neg (by simp [notFree]))

end

/-! ## Without VDD_IO (R105, R178) -/

section
variable {s : State} (unpowered : s.hk.vddIo = false)
include unpowered

theorem exec_tapReset_of_unpowered : exec .tapReset s = .next s := congrArg _ (loadTap_of_unpowered unpowered ..)

theorem exec_bypass_of_unpowered : exec .bypass s = .next s := congrArg _ (asBypass_of_unpowered unpowered _)

theorem exec_idcode_of_unpowered : exec .idcode s = .next s := congrArg _ (loadTap_of_unpowered unpowered ..)

theorem exec_samplePreload_of_unpowered (sample drive : BitVec 39) : exec (.samplePreload sample drive) s = .next s :=
  congrArg _ (if_neg (by simp [unpowered]))

theorem exec_clamp_of_unpowered : exec .clamp s = .next s := by
  rw [exec_clamp_of_not_pinsFree (pinsFree_of_unpowered unpowered), asBypass_of_unpowered unpowered]

theorem exec_highz_of_unpowered : exec .highz s = .next s := by
  rw [exec_highz_of_not_pinsFree (pinsFree_of_unpowered unpowered), asBypass_of_unpowered unpowered]

theorem exec_extest_of_unpowered (drive : BitVec 39) : exec (.extest drive) s = .next s := by
  rw [exec_extest_of_not_pinsFree (pinsFree_of_unpowered unpowered), asBypass_of_unpowered unpowered]

end

/-- Settles O55: a captured cell is the unit's own or an input, never both, so that its own cells stand whatever the levels are; an instruction that finds the pins not free is loaded as BYPASS. -/
theorem publicTapInstructions : Obligations.PublicTapInstructions := by
  unfold Obligations.PublicTapInstructions
  intro s held free cells
  have captured (levels : BitVec 39) : cells (capturePins s levels) :=
    have own := getElem?_capturePins_own s levels
    ⟨length_capturePins s levels, own 2 rfl, own 4 rfl, own 6 rfl, own 8 rfl, own 9 rfl, own 18 rfl,
      getElem?_capturePins_portact s levels⟩
  refine ⟨fun powered => ⟨exec_tapReset_of_powered powered, exec_bypass_of_powered powered, exec_idcode_of_powered powered,
    ?sample, ?inReset, ?elsewhere⟩, ?unpowered⟩
  case sample =>
    intro sample drive
    exact ⟨capturePins s sample, exec_samplePreload_of_powered powered sample drive, captured sample,
      fun i input => getElem?_capturePins_input s sample input⟩
  case inReset =>
    intro inReset
    have pins : pinsFree s = true := (pinsFree_iff powered).mpr inReset
    exact ⟨exec_clamp_of_pinsFree powered pins, exec_highz_of_pinsFree powered pins,
      fun drive => ⟨_, captured _, exec_extest_of_pinsFree powered pins drive⟩⟩
  case elsewhere =>
    intro elsewhere
    have pins : pinsFree s = false := Bool.eq_false_iff.mpr (mt (pinsFree_iff powered).mp elsewhere)
    have bypassed (ir : Byte) : (.next (asBypass s ir) : Host.Outcome State Fault Refusal) = .next (held ir [false] .none) :=
      congrArg _ (asBypass_of_powered powered ir)
    exact ⟨(exec_clamp_of_not_pinsFree pins).trans (bypassed 3), (exec_highz_of_not_pinsFree pins).trans (bypassed 4),
      fun drive => (exec_extest_of_not_pinsFree pins drive).trans (bypassed 0)⟩
  case unpowered =>
    rintro unpowered c (fixed | ⟨sample, drive, rfl⟩ | ⟨drive, rfl⟩)
    · fin_cases fixed
      · exact exec_tapReset_of_unpowered unpowered
      · exact exec_bypass_of_unpowered unpowered
      · exact exec_idcode_of_unpowered unpowered
      · exact exec_clamp_of_unpowered unpowered
      · exact exec_highz_of_unpowered unpowered
    · exact exec_samplePreload_of_unpowered unpowered sample drive
    · exact exec_extest_of_unpowered unpowered drive

end Sys2Proof.Machine
end

section
/-! A frame that this unit builds, read back byte for byte (R224, R225, R275, R276). -/
namespace Sys2Proof.Machine
open Sys2Proof

/-! ## Fields are read byte by byte -/

/-- A field depends on its own bytes alone. -/
theorem leNat_congr {a b : List Byte} : ∀ {n off : Nat}, (∀ k, off ≤ k → k < off + n → a.getD k 0 = b.getD k 0) → leNat a off n = leNat b off n
  | 0, _, _ => rfl
  | n + 1, off, same => by
    have first := same off (Nat.le_refl _) (by omega)
    have others : leNat a (off + 1) n = leNat b (off + 1) n := leNat_congr fun k low high => same k (by omega) (by omega)
    unfold leNat
    rw [first, others]

/-- Padding is not seen by a reader that takes a missing byte for zero. -/
theorem getD_padTo {n : Nat} {bs : List Byte} (fits : bs.length ≤ n) (k : Nat) : (padTo n bs).getD k 0 = bs.getD k 0 := by
  have whole : padTo n bs = bs ++ zeros (n - bs.length) := List.take_of_length_le (by simp [zeros]; omega)
  rw [whole]
  by_cases inside : k < bs.length
  · exact List.getD_append _ _ _ _ inside
  · have outside : bs.length ≤ k := Nat.le_of_not_lt inside
    have zero : (zeros (n - bs.length)).getD (k - bs.length) 0 = 0 := BitVec.eq_of_toNat_eq (byteAt_zeros _ _)
    rw [List.getD_append_right _ _ _ _ outside, zero, List.getD_eq_default bs 0 outside]

/-! ## The parts of a built frame -/

/-- The first word of the tail (R224). -/
def tailSeq (seq : Option (BitVec 12)) : Nat :=
  match seq with
  | some q => q.toNat + 4096
  | none => 0

/-- A frame is 240 bytes of header and payload, the three words of its tail, its CRC and six FEC bytes. -/
theorem withTail_parts (hp : List Byte) (seq : Option (BitVec 12)) (ack : BitVec 12) (nack : Bool) :
    ∃ rest : List Byte, rest.length = 10 ∧ withTail hp seq ack nack =
      padTo 0xF0 hp ++ (toLe (tailSeq seq) 2 ++ (toLe (ack.toNat + 4096 + b2n nack * 8192) 2 ++ (toLe 0 2 ++ rest))) := by
  refine ⟨_, ?ten, by simp only [withTail, List.append_assoc]; rfl⟩
  simp [toLe_length]

theorem withTail_length (hp : List Byte) (seq : Option (BitVec 12)) (ack : BitVec 12) (nack : Bool) : (withTail hp seq ack nack).length = 256 := by
  obtain ⟨rest, ten, parts⟩ := withTail_parts hp seq ack nack
  simp [parts, padTo_length, toLe_length, ten]

/-- Header and payload stand in a frame as they were given, with zeros behind. -/
theorem withTail_getD {hp : List Byte} (fits : hp.length ≤ 0xF0) (seq : Option (BitVec 12)) (ack : BitVec 12) (nack : Bool) {k : Nat} (low : k < 0xF0) :
    (withTail hp seq ack nack).getD k 0 = hp.getD k 0 := by
  obtain ⟨rest, -, parts⟩ := withTail_parts hp seq ack nack
  rw [parts, List.getD_append _ _ _ _ (by rw [padTo_length]; exact low), getD_padTo fits]

/-! ## The tail -/

/-- The three words of the tail read as they were written. -/
theorem withTail_words (hp : List Byte) (seq : Option (BitVec 12)) (ack : BitVec 12) (nack : Bool) :
    leNat (withTail hp seq ack nack) 0xF0 2 = tailSeq seq ∧ leNat (withTail hp seq ack nack) 0xF2 2 = ack.toNat + 4096 + b2n nack * 8192 ∧
    leNat (withTail hp seq ack nack) 0xF4 2 = 0 := by
  obtain ⟨rest, -, parts⟩ := withTail_parts hp seq ack nack
  have small : tailSeq seq < 65536 := by
    cases seq with
    | none => decide
    | some q => have := q.isLt; simp only [tailSeq]; omega
  have ackSmall : ack.toNat + 4096 + b2n nack * 8192 < 65536 := by
    have := ack.isLt
    cases nack <;> simp [b2n] <;> omega
  have skip : ∀ (v off : Nat) (l : List Byte), leNat (toLe v 2 ++ l) (off + 2) 2 = leNat l off 2 := fun v off l => by
    rw [leNat_append_right _ _ _ _ (by rw [toLe_length]; omega), toLe_length, Nat.add_sub_cancel]
  have past : ∀ (k : Nat) (l : List Byte), leNat (padTo 0xF0 hp ++ l) (0xF0 + k) 2 = leNat l k 2 := fun k l => by
    rw [leNat_append_right _ _ _ _ (by rw [padTo_length]; omega), padTo_length, Nat.add_sub_cancel_left]
  rw [parts]
  refine ⟨?_, ?_, ?_⟩
  · rw [past 0, leNat_toLe, Nat.mod_eq_of_lt (by omega)]
  · rw [past 2, skip _ 0, leNat_toLe, Nat.mod_eq_of_lt (by omega)]
  · rw [past 4, skip _ 2, skip _ 0, leNat_toLe, Nat.zero_mod]

/-- The number, the acknowledgement and the NACK read back, with no reserved bit at 1. -/
theorem parseTail_withTail (hp : List Byte) (seq : Option (BitVec 12)) (ack : BitVec 12) (nack : Bool) :
    parseTail (withTail hp seq ack nack) = { seq := seq.getD 0, seqd := seq.isSome, ack := ack, ackValid := true, nack := nack, reservedOk := true } := by
  obtain ⟨first, second, third⟩ := withTail_words hp seq ack nack
  have ackLt := ack.isLt
  have ackBack : BitVec.ofNat 12 (ack.toNat + 4096 + b2n nack * 8192) = ack := by
    apply BitVec.eq_of_toNat_eq
    rw [BitVec.toNat_ofNat]
    cases nack <;> simp [b2n] <;> omega
  have ackValid : bitOf (ack.toNat + 4096 + b2n nack * 8192) 12 = true := by
    cases nack <;> simp [b2n, bitOf] <;> omega
  have nackBack : bitOf (ack.toNat + 4096 + b2n nack * 8192) 13 = nack := by
    cases nack <;> simp [b2n, bitOf] <;> omega
  have ackRest : (ack.toNat + 4096 + b2n nack * 8192) / 2 ^ 14 = 0 := by
    cases nack <;> simp [b2n] <;> omega
  simp only [parseTail, first, second, third, ackBack, ackValid, nackBack, ackRest]
  cases seq with
  | none => simp [tailSeq, bitOf]
  | some q =>
    have qLt := q.isLt
    have qBack : BitVec.ofNat 12 (q.toNat + 4096) = q := by
      apply BitVec.eq_of_toNat_eq
      rw [BitVec.toNat_ofNat]
      omega
    have sequenced : bitOf (q.toNat + 4096) 12 = true := by
      simp [bitOf]; omega
    have rest : (q.toNat + 4096) / 2 ^ 13 = 0 := by omega
    simp only [tailSeq, qBack, sequenced, rest, Option.getD_some, Option.isSome_some, Bool.true_or, decide_true, Bool.and_true]

/-! ## The content of a Trellis frame -/

/-- The 16 header bytes of a Trellis frame one by one (R276). -/
def trlHeader (f : TrlFrame) (sel credit : Nat) : List Byte :=
  [f.kind, BitVec.ofNat 8 (f.vc.toNat + 8 * f.tenant.val + 32 * b2n f.endChunk), BitVec.ofNat 8 f.payload.length,
   BitVec.ofNat 8 sel, BitVec.ofNat 8 credit, BitVec.ofNat 8 f.src.toNat,
   BitVec.ofNat 8 f.coll.toNat, BitVec.ofNat 8 (f.coll.toNat / 256),
   BitVec.ofNat 8 f.chunk.toNat, BitVec.ofNat 8 (f.chunk.toNat / 256), BitVec.ofNat 8 (f.chunk.toNat / 256 / 256), BitVec.ofNat 8 (f.chunk.toNat / 256 / 256 / 256),
   BitVec.ofNat 8 f.frame.toNat, BitVec.ofNat 8 (f.frame.toNat / 256), BitVec.ofNat 8 f.dest.toNat, 0]

theorem trlBody_eq (f : TrlFrame) (sel credit : Nat) : trlBody f sel credit = trlHeader f sel credit ++ f.payload := rfl

theorem trlBody_length (f : TrlFrame) (sel credit : Nat) : (trlBody f sel credit).length = 16 + f.payload.length := by
  rw [trlBody_eq, List.length_append]; rfl

section
variable {f : TrlFrame} (fits : f.payload.length ≤ 224) (sel credit : Nat) (seq : Option (BitVec 12)) (ack : BitVec 12) (nack : Bool)
include fits

/-- A header byte of the built frame. -/
theorem builtTrl_header {k : Nat} (low : k < 16) :
    (withTail (trlBody f sel credit) seq ack nack).getD k 0 = (trlHeader f sel credit).getD k 0 := by
  rw [withTail_getD (by rw [trlBody_length]; omega) _ _ _ (by omega), trlBody_eq, List.getD_append _ _ _ _ low]

/-- A header field of the built frame. -/
theorem builtTrl_field {off n : Nat} (low : off + n ≤ 16) :
    leNat (withTail (trlBody f sel credit) seq ack nack) off n = leNat (trlHeader f sel credit) off n :=
  leNat_congr fun _ _ high => builtTrl_header fits sel credit seq ack nack (by omega)

/-- The payload of the built frame. -/
theorem builtTrl_payload : slice (withTail (trlBody f sel credit) seq ack nack) 0x10 f.payload.length = f.payload := by
  obtain ⟨rest, -, parts⟩ := withTail_parts (trlBody f sel credit) seq ack nack
  have whole : padTo 0xF0 (trlBody f sel credit) = trlHeader f sel credit ++ (f.payload ++ zeros (224 - f.payload.length)) := by
    rw [padTo, List.take_of_length_le (by simp [zeros, trlBody_length]; omega), trlBody_length, trlBody_eq, List.append_assoc,
      show 0xF0 - (16 + f.payload.length) = 224 - f.payload.length by omega]
  rw [slice, parts, whole, List.append_assoc, List.drop_left' (by rfl), List.append_assoc, List.take_left' (by rfl)]

/-- The bytes behind the payload are zero. -/
theorem builtTrl_padding {k : Nat} (low : 16 + f.payload.length ≤ k) (high : k < 0xF0) :
    byteAt (withTail (trlBody f sel credit) seq ack nack) k = 0 := by
  have missing : (trlBody f sel credit).getD k 0 = 0 := List.getD_eq_default _ _ (by rw [trlBody_length]; exact low)
  rw [byteAt, withTail_getD (by rw [trlBody_length]; omega) _ _ _ high, missing]
  rfl

/-- Channel, tenant and END_CHUNK share byte 1. -/
theorem builtTrl_flags : byteAt (withTail (trlBody f sel credit) seq ack nack) 1 = f.vc.toNat + 8 * f.tenant.val + 32 * b2n f.endChunk := by
  have vcLt := f.vc.isLt
  have tenantLt := f.tenant.isLt
  have flagLe : b2n f.endChunk ≤ 1 := by cases f.endChunk <;> decide
  rw [byteAt, builtTrl_header fits sel credit seq ack nack (by decide)]
  simp only [trlHeader, List.getD_cons_succ, List.getD_cons_zero, BitVec.toNat_ofNat]
  omega

theorem builtTrl_size : byteAt (withTail (trlBody f sel credit) seq ack nack) 2 = f.payload.length := by
  rw [byteAt, builtTrl_header fits sel credit seq ack nack (by decide)]
  simp only [trlHeader, List.getD_cons_succ, List.getD_cons_zero, BitVec.toNat_ofNat]
  omega

/-- Every field of a frame that this unit builds reads back. -/
theorem parseTrl_withTail : parseTrl (withTail (trlBody f sel credit) seq ack nack) = f := by
  have byte : ∀ {k}, k < 16 → _ := fun {k} low => builtTrl_header (k := k) fits sel credit seq ack nack low
  have field : ∀ {off n}, off + n ≤ 16 → _ := fun {off n} low => builtTrl_field (off := off) (n := n) fits sel credit seq ack nack low
  have vcLt := f.vc.isLt
  have tenantLt := f.tenant.isLt
  have flagLe : b2n f.endChunk ≤ 1 := by cases f.endChunk <;> decide
  have srcLt := f.src.isLt
  have collLt := f.coll.isLt
  have chunkLt := f.chunk.isLt
  have frameLt := f.frame.isLt
  have destLt := f.dest.isLt
  have kind : (withTail (trlBody f sel credit) seq ack nack).getD 0 0 = f.kind := byte (by decide)
  have vc : BitVec.ofNat 3 (f.vc.toNat + 8 * f.tenant.val + 32 * b2n f.endChunk) = f.vc := by
    apply BitVec.eq_of_toNat_eq; rw [BitVec.toNat_ofNat]; omega
  have tenant : Fin.ofNat 4 ((f.vc.toNat + 8 * f.tenant.val + 32 * b2n f.endChunk) / 8) = f.tenant := by
    apply Fin.ext; simp only [Fin.ofNat]; omega
  have endChunk : bitOf (f.vc.toNat + 8 * f.tenant.val + 32 * b2n f.endChunk) 5 = f.endChunk := by
    cases f.endChunk <;> simp [bitOf, b2n] <;> omega
  have src : BitVec.ofNat 6 (byteAt (withTail (trlBody f sel credit) seq ack nack) 5) = f.src := by
    apply BitVec.eq_of_toNat_eq; rw [byteAt, byte (by decide)]; simp [trlHeader]; omega
  have coll : BitVec.ofNat 16 (leNat (withTail (trlBody f sel credit) seq ack nack) 6 2) = f.coll := by
    apply BitVec.eq_of_toNat_eq; rw [field (by decide)]; simp [leNat, trlHeader]; omega
  have chunk : BitVec.ofNat 32 (leNat (withTail (trlBody f sel credit) seq ack nack) 8 4) = f.chunk := by
    apply BitVec.eq_of_toNat_eq; rw [field (by decide)]; simp [leNat, trlHeader]; omega
  have frame : BitVec.ofNat 16 (leNat (withTail (trlBody f sel credit) seq ack nack) 12 2) = f.frame := by
    apply BitVec.eq_of_toNat_eq; rw [field (by decide)]; simp [leNat, trlHeader]; omega
  have dest : BitVec.ofNat 6 (byteAt (withTail (trlBody f sel credit) seq ack nack) 14) = f.dest := by
    apply BitVec.eq_of_toNat_eq; rw [byteAt, byte (by decide)]; simp [trlHeader]; omega
  unfold parseTrl
  simp only [builtTrl_flags fits, builtTrl_size fits, kind, vc, tenant, endChunk, src, coll, chunk, frame, dest, Nat.min_eq_left fits, builtTrl_payload fits]

/-- The credit return of a frame: its channel and its value. -/
theorem builtTrl_credit (selLt : sel < 8) (creditLt : credit < 256) :
    byteAt (withTail (trlBody f sel credit) seq ack nack) 3 = sel ∧ byteAt (withTail (trlBody f sel credit) seq ack nack) 4 = credit := by
  constructor
  all_goals
    rw [byteAt, builtTrl_header fits sel credit seq ack nack (by decide)]
    simp only [trlHeader, List.getD_cons_succ, List.getD_cons_zero, BitVec.toNat_ofNat]
    omega

/-- What is built of a sequenced frame whose content agrees with its kind passes the checks of R302. -/
theorem trlFieldsOk_withTail (selLt : sel < 8) (creditLt : credit < 256) (content : trlContentOk f = true) (sequenced : seq.isSome = true) (kind : f.kind ≠ 0) :
    trlFieldsOk (withTail (trlBody f sel credit) seq ack nack) = true := by
  have byte : ∀ {k}, k < 16 → _ := fun {k} low => builtTrl_header (k := k) fits sel credit seq ack nack low
  have vcLt := f.vc.isLt
  have tenantLt := f.tenant.isLt
  have flagLe : b2n f.endChunk ≤ 1 := by cases f.endChunk <;> decide
  have srcLt := f.src.isLt
  have destLt := f.dest.isLt
  have kindByte : byteAt (withTail (trlBody f sel credit) seq ack nack) 0 = f.kind.toNat := congrArg BitVec.toNat (byte (by decide))
  have kindNat : f.kind.toNat ≠ 0 := fun zero => kind (BitVec.eq_of_toNat_eq zero)
  have src : byteAt (withTail (trlBody f sel credit) seq ack nack) 5 < 64 := by
    rw [byteAt, byte (by decide)]; simp [trlHeader]; omega
  have dest : byteAt (withTail (trlBody f sel credit) seq ack nack) 14 < 64 := by
    rw [byteAt, byte (by decide)]; simp [trlHeader]; omega
  have last : byteAt (withTail (trlBody f sel credit) seq ack nack) 15 = 0 := by
    rw [byteAt, byte (by decide)]; rfl
  obtain ⟨selByte, -⟩ := builtTrl_credit fits sel credit seq ack nack selLt creditLt
  unfold trlFieldsOk
  rw [parseTail_withTail, parseTrl_withTail fits, builtTrl_flags fits, builtTrl_size fits, kindByte, selByte, last, if_neg kindNat, content, sequenced]
  simp [src, dest, selLt, fits, kindNat]
  omega
end

/-- Settles O59: header and payload stand in the first 240 bytes as they were given, the tail's words behind them, and each field is read from its own bytes alone, so that nothing depends on the FEC bytes. -/
theorem trellisFramesReadBack : Obligations.TrellisFramesReadBack := by
  unfold Obligations.TrellisFramesReadBack
  intro f sel credit seq ack nack fits selLt creditLt
  obtain ⟨selBack, creditBack⟩ := builtTrl_credit fits sel credit seq ack nack selLt creditLt
  exact ⟨withTail_length _ _ _ _, parseTrl_withTail fits _ _ _ _ _, selBack, creditBack, withTail_crcOk _ _ _ _, parseTail_withTail _ _ _ _,
    fun _ low high => builtTrl_padding fits _ _ _ _ _ low high, trlFieldsOk_withTail fits _ _ _ _ _ selLt creditLt⟩

end Sys2Proof.Machine
end

section
/-! What a command can do at all: to the queue, to the configuration, to the fuse block, and to a unit that does not run (R99, R119, R151, R170). -/
namespace Sys2Proof.Machine
open Sys2Proof

/-! ## The kinds of rows -/

/-- A row is one of the supplies and reset inputs, of the test access port, a change of the device part alone, or one of three that reach further. -/
theorem row_kinds (c : Instr) : supplyRow c = true ∨ publicRow c = true ∨ privateRow c = true ∨ deviceRow c = true ∨
    (∃ volts straps rsvdG blow, c = .levelPinMeasurement volts straps rsvdG blow) ∨ (∃ p, c = .portStart p) ∨ ∃ p, c = .statusPageWrite p := by
  cases supply : supplyRow c
  case true => exact .inl rfl
  cases tap : publicRow c
  case true => exact .inr (.inl rfl)
  cases debug : privateRow c
  case true => exact .inr (.inr (.inl rfl))
  simp only [deviceRow, supply, tap, debug]
  split <;> simp

/-- The fuse block of the VDD_IO domain: serial number, ordering code and debug-lock fuse. -/
structure FusesKept (a b : Hk) : Prop where
  serial : b.dieSerial = a.dieSerial
  code : b.codeX = a.codeX
  fuse : b.fuseBlown = a.fuseBlown

theorem FusesKept.refl (a : Hk) : FusesKept a a := ⟨rfl, rfl, rfl⟩

theorem FusesKept.ite {a x y : Hk} {p : Prop} [Decidable p] (hx : FusesKept a x) (hy : FusesKept a y) : FusesKept a (if p then x else y) := by
  split
  · exact hx
  · exact hy

/-- The configuration stays, or a reset that has begun loses it; the fuse block stays. -/
structure CfgKept (s t : State) : Prop where
  queue : t.pending = s.pending
  cfg : t.cfg = s.cfg ∨ (t.cfg = Cfg.reset ∧ t.hk.inReset = true)
  fuses : FusesKept s.hk t.hk

theorem CfgKept.refl (s : State) : CfgKept s s := ⟨rfl, .inl rfl, .refl _⟩

theorem CfgKept.of_hk {s : State} {hk : Hk} (fuses : FusesKept s.hk hk) (d : Dev) : CfgKept s { s with hk := hk, dev := d } := ⟨rfl, .inl rfl, fuses⟩

theorem CfgKept.ite {s x y : State} {p : Prop} [Decidable p] (hx : CfgKept s x) (hy : CfgKept s y) : CfgKept s (if p then x else y) := by
  split
  · exact hx
  · exact hy

theorem releaseReset_fuses {a b : Hk} (h : FusesKept a b) : FusesKept a (releaseReset b) := ⟨h.serial, h.code, h.fuse⟩

/-! ## The rows one kind at a time -/

/-- The supplies and the reset inputs lose the configuration only in the reset that they begin. -/
theorem exec_supply (c : Instr) (s : State) (row : supplyRow c = true) : ∃ t, exec c s = .next t ∧ CfgKept s t := by
  cases c with
  | vddIoRise =>
    refine ⟨_, rfl, .ite (.refl s) ?_⟩
    exact ⟨rfl, .inr ⟨rfl, rfl⟩, ⟨rfl, rfl, rfl⟩⟩
  | railsRisingEnd =>
    refine ⟨_, rfl, .ite (.refl s) ⟨rfl, .inl rfl, .ite ?_ (releaseReset_fuses ?_)⟩⟩
    · exact ⟨rfl, rfl, rfl⟩
    · exact ⟨rfl, rfl, rfl⟩
  | vddIoFall =>
    refine ⟨_, rfl, .ite (.refl s) ?_⟩
    exact ⟨rfl, .inr ⟨rfl, rfl⟩, ⟨rfl, rfl, rfl⟩⟩
  | brownOut rail both =>
    refine ⟨_, rfl, .ite (.refl s) (.ite ?_ ?_)⟩
    · exact ⟨rfl, .inl rfl, ⟨rfl, rfl, rfl⟩⟩
    · exact ⟨rfl, .inl rfl, ⟨rfl, rfl, rfl⟩⟩
  | clockLoss both =>
    refine ⟨_, rfl, .ite (.refl s) (.ite ?_ ?_)⟩
    · exact ⟨rfl, .inl rfl, ⟨rfl, rfl, rfl⟩⟩
    · exact ⟨rfl, .inl rfl, ⟨rfl, rfl, rfl⟩⟩
  | resetAssert chain =>
    refine ⟨_, rfl, .ite ?_ (.ite ?_ ?_)⟩
    · exact ⟨rfl, .inl rfl, ⟨rfl, rfl, rfl⟩⟩
    · exact ⟨rfl, .inl rfl, ⟨rfl, rfl, rfl⟩⟩
    · exact ⟨rfl, .inr ⟨rfl, rfl⟩, ⟨rfl, rfl, rfl⟩⟩
  | resetRelease chain =>
    refine ⟨_, rfl, ⟨rfl, .inl rfl, .ite (releaseReset_fuses ?_) ?_⟩⟩
    · exact ⟨rfl, rfl, rfl⟩
    · exact ⟨rfl, rfl, rfl⟩
  | railFallDuringRisingPhase rail =>
    refine ⟨_, rfl, .ite (.refl s) ?_⟩
    exact ⟨rfl, .inl rfl, ⟨rfl, rfl, rfl⟩⟩
  | _ => nomatch row

/-- What a row of the test access port may change of a unit: what the port holds, and the draw counter. -/
structure TapOnly (s t : State) : Prop where
  queue : t.pending = s.pending
  cfg : t.cfg = s.cfg
  fuses : FusesKept s.hk t.hk
  dev : t.dev = { s.dev with free := t.dev.free }

theorem TapOnly.refl (s : State) : TapOnly s s := ⟨rfl, rfl, .refl _, rfl⟩

theorem TapOnly.of_hk {s : State} {hk : Hk} (fuses : FusesKept s.hk hk) : TapOnly s { s with hk := hk } := ⟨rfl, rfl, fuses, rfl⟩

theorem TapOnly.ite {s x y : State} {p : Prop} [Decidable p] (hx : TapOnly s x) (hy : TapOnly s y) : TapOnly s (if p then x else y) := by
  split
  · exact hx
  · exact hy

theorem loadTap_only (s : State) (ir : Byte) (dr : List Bool) (drive : PinDrive) : TapOnly s (loadTap s ir dr drive) :=
  .ite (.of_hk ⟨rfl, rfl, rfl⟩) (.refl s)

/-- What follows a loaded instruction in the same row: the boundary register. -/
theorem TapOnly.boundary {s t : State} (h : TapOnly s t) (drive : BitVec 39) : TapOnly s { t with hk := { t.hk with boundary := drive } } :=
  ⟨h.queue, h.cfg, ⟨h.fuses.serial, h.fuses.code, h.fuses.fuse⟩, h.dev⟩

/-- A draw for it. -/
theorem TapOnly.drawn {s t : State} (h : TapOnly s t) : TapOnly s { t with dev := (draw s.dev).2 } := ⟨h.queue, h.cfg, h.fuses, rfl⟩

/-- The public instructions. -/
theorem exec_public (c : Instr) (s : State) (row : publicRow c = true) : ∃ t, exec c s = .next t ∧ TapOnly s t := by
  cases c with
  | tapReset => exact ⟨_, rfl, loadTap_only s _ _ _⟩
  | extest drive => exact ⟨_, rfl, .ite ((loadTap_only s _ _ _).boundary drive).drawn (loadTap_only s _ _ _)⟩
  | samplePreload sample drive => exact ⟨_, rfl, .ite ((loadTap_only s _ _ _).boundary drive) (.refl s)⟩
  | idcode => exact ⟨_, rfl, loadTap_only s _ _ _⟩
  | clamp => exact ⟨_, rfl, .ite (loadTap_only s _ _ _) (loadTap_only s _ _ _)⟩
  | highz => exact ⟨_, rfl, .ite (loadTap_only s _ _ _) (loadTap_only s _ _ _)⟩
  | bypass => exact ⟨_, rfl, loadTap_only s _ _ _⟩
  | _ => nomatch row

/-- The debug instructions change the device part, where debug is open. -/
theorem exec_private_kept (c : Instr) (s : State) (row : privateRow c = true) :
    ∃ t, exec c s = .next t ∧ CfgKept s t ∧ (debugOpen s = false → TapOnly s t) := by
  obtain ⟨ir, dr, act, acts⟩ := exec_private c s row
  have loaded := loadTap_only s ir (dr s) .none
  have bypassed : TapOnly s (asBypass s ir) := loadTap_only s _ _ _
  refine ⟨_, acts, .ite ⟨loaded.queue, .inl loaded.cfg, loaded.fuses⟩ ⟨bypassed.queue, .inl bypassed.cfg, bypassed.fuses⟩, fun closed => ?_⟩
  rw [if_neg (by rw [closed]; decide)]
  exact bypassed

/-- The first page after a reset clears the halt flags; the fuse block stays. -/
theorem writePage_fuses (hk : Hk) (c : Cfg) (d : Dev) (p : LPort) : FusesKept hk (writePage hk c d p).1 :=
  .ite ⟨rfl, rfl, rfl⟩ (.refl hk)

theorem startPort_fuses (hk : Hk) (c : Cfg) (d : Dev) (p : LPort) : FusesKept hk (startPort hk c d p).1 := by
  simp only [startPort]
  exact writePage_fuses hk c _ p

theorem exec_portStart_kept (p : LPort) (s : State) : ∃ t, exec (.portStart p) s = .next t ∧ CfgKept s t ∧ (alive s = false → t = s) := by
  refine ⟨_, rfl, .ite (.refl s) (.of_hk (startPort_fuses s.hk s.cfg s.dev p) _), fun dead => ?_⟩
  simp [dead]

theorem exec_statusPageWrite_kept (p : LPort) (s : State) : ∃ t, exec (.statusPageWrite p) s = .next t ∧ CfgKept s t ∧ (alive s = false → t = s) := by
  refine ⟨_, rfl, .ite (.of_hk (writePage_fuses s.hk s.cfg s.dev p) _) (.refl s), fun dead => ?_⟩
  simp [dead]

theorem exec_device_kept (c : Instr) (s : State) (row : deviceRow c = true) : ∃ t, exec c s = .next t ∧ CfgKept s t ∧ (alive s = false → t = s) := by
  obtain ⟨f, acts⟩ := exec_device c s row
  refine ⟨_, acts, .ite (.of_hk (.refl _) _) (.refl s), fun dead => ?_⟩
  simp [dead]

/-- The measurement of R173 step 2 latches the configuration once, and blows the fuse where DBG_LOCK_N reads 0 (R151). -/
structure Latches (volts : List PinVolts) (straps : BitVec 4) (rsvdG : W16) (blow : Bool) (s t : State) : Prop where
  queue : t.pending = s.pending
  unlatched : s.cfg.latched = false
  cfg : t.cfg = latchCfg volts straps rsvdG s.hk.fuseBlown blow
  hk : t.hk = { s.hk with fuseBlown := s.hk.fuseBlown || (!straps.getLsbD 2 && blow) }

theorem exec_levelPinMeasurement_latches (volts : List PinVolts) (straps : BitVec 4) (rsvdG : W16) (blow : Bool) (s : State) :
    ∃ t, exec (.levelPinMeasurement volts straps rsvdG blow) s = .next t ∧ (t = s ∨ (alive s = true ∧ Latches volts straps rsvdG blow s t)) := by
  by_cases due : (alive s && s.dev.stat.hkLocked && !s.cfg.latched) = true
  · obtain ⟨⟨running, -⟩, unlatched⟩ : (alive s = true ∧ s.dev.stat.hkLocked = true) ∧ s.cfg.latched = false := by simpa using due
    change ∃ t, execLevelPinMeasurement volts straps rsvdG blow s = .next t ∧ _
    unfold execLevelPinMeasurement
    rw [due, Bool.not_true, if_neg (by decide)]
    dsimp only
    generalize latched : latchCfg volts straps rsvdG s.hk.fuseBlown blow = c
    generalize startTraining c _ = e
    split
    · exact ⟨_, rfl, .inr ⟨running, rfl, unlatched, latched.symm, rfl⟩⟩
    · exact ⟨_, rfl, .inr ⟨running, rfl, unlatched, latched.symm, rfl⟩⟩
  · refine ⟨s, ?_, .inl rfl⟩
    change execLevelPinMeasurement volts straps rsvdG blow s = _
    unfold execLevelPinMeasurement
    rw [Bool.eq_false_of_not_eq_true due, Bool.not_false, if_pos rfl]

/-- What any command answers: a next state that keeps the queue, keeps or loses the configuration, or latches it. -/
theorem exec_answers (c : Instr) (s : State) : ∃ t, exec c s = .next t ∧
    (CfgKept s t ∨ ∃ volts straps rsvdG blow, c = .levelPinMeasurement volts straps rsvdG blow ∧ Latches volts straps rsvdG blow s t) := by
  obtain supply | tap | debug | device | ⟨volts, straps, rsvdG, blow, rfl⟩ | ⟨p, rfl⟩ | ⟨p, rfl⟩ := row_kinds c
  · obtain ⟨t, answer, kept⟩ := exec_supply c s supply
    exact ⟨t, answer, .inl kept⟩
  · obtain ⟨t, answer, only⟩ := exec_public c s tap
    exact ⟨t, answer, .inl ⟨only.queue, .inl only.cfg, only.fuses⟩⟩
  · obtain ⟨t, answer, kept, -⟩ := exec_private_kept c s debug
    exact ⟨t, answer, .inl kept⟩
  · obtain ⟨t, answer, kept, -⟩ := exec_device_kept c s device
    exact ⟨t, answer, .inl kept⟩
  · obtain ⟨t, answer, rfl | ⟨-, latches⟩⟩ := exec_levelPinMeasurement_latches volts straps rsvdG blow s
    · exact ⟨_, answer, .inl (.refl _)⟩
    · exact ⟨t, answer, .inr ⟨_, _, _, _, rfl, latches⟩⟩
  · obtain ⟨t, answer, kept, -⟩ := exec_portStart_kept p s
    exact ⟨t, answer, .inl kept⟩
  · obtain ⟨t, answer, kept, -⟩ := exec_statusPageWrite_kept p s
    exact ⟨t, answer, .inl kept⟩

/-- The same read backwards from the answer. -/
theorem exec_inv {c : Instr} {s t : State} (answer : exec c s = .next t) :
    CfgKept s t ∨ ∃ volts straps rsvdG blow, c = .levelPinMeasurement volts straps rsvdG blow ∧ Latches volts straps rsvdG blow s t := by
  obtain ⟨u, other, cases⟩ := exec_answers c s
  obtain rfl : u = t := by simpa [answer] using other.symm
  exact cases

/-! ## What a latched configuration decides of the debug lock -/

@[simp] theorem latchCfg_latched (volts : List PinVolts) (straps : BitVec 4) (rsvdG : W16) (blown takes : Bool) :
    (latchCfg volts straps rsvdG blown takes).latched = true := by
  simp only [latchCfg]; split_ifs <;> rfl

@[simp] theorem latchCfg_straps (volts : List PinVolts) (straps : BitVec 4) (rsvdG : W16) (blown takes : Bool) :
    (latchCfg volts straps rsvdG blown takes).straps = straps := by
  simp only [latchCfg]; split_ifs <;> rfl

theorem latchCfg_debugOpen (volts : List PinVolts) (straps : BitVec 4) (rsvdG : W16) (blown takes : Bool) :
    (latchCfg volts straps rsvdG blown takes).debugOpen = (straps.getLsbD 1 && straps.getLsbD 2 && !blown) := by
  simp only [latchCfg]; split_ifs <;> rfl

/-! ## The statements about every command -/

/-- Settles O3: each kind of row answers a next state with the queue as it was. -/
theorem everyCommandIsAnswered : Obligations.EveryCommandIsAnswered := by
  unfold Obligations.EveryCommandIsAnswered
  intro c s
  obtain ⟨t, answer, kept | ⟨_, _, _, _, -, latches⟩⟩ := exec_answers c s
  · exact ⟨t, answer, kept.queue⟩
  · exact ⟨t, answer, latches.queue⟩

/-- Settles O4: only the measurement writes the configuration and the fuse, and it does so on an unlatched unit alone. -/
theorem configurationAndFuseAreHeld : Obligations.ConfigurationAndFuseAreHeld := by
  unfold Obligations.ConfigurationAndFuseAreHeld
  constructor
  · intro c s t answer
    obtain kept | ⟨volts, straps, rsvdG, blow, rfl, latches⟩ := exec_inv answer
    · exact kept.cfg.imp_right .inl
    · exact .inr (.inr ⟨latches.unlatched, by rw [latches.cfg, latchCfg_latched], volts, straps, rsvdG, blow, rfl, latches.cfg⟩)
  · intro c s t answer
    obtain kept | ⟨volts, straps, rsvdG, blow, rfl, latches⟩ := exec_inv answer
    · obtain ⟨serial, code, fuse⟩ := kept.fuses
      exact ⟨serial, code, fun blown => fuse.trans blown, fun intact blown => by rw [fuse, intact] at blown; cases blown⟩
    · rw [latches.hk]
      refine ⟨rfl, rfl, fun blown => by simp [blown], fun intact blown => ?_⟩
      obtain ⟨low, rfl⟩ : straps.getLsbD 2 = false ∧ blow = true := by simpa [intact] using blown
      exact ⟨volts, straps, rsvdG, rfl, low⟩

/-- Settles O5: each row but those of the supplies asks whether the unit runs, or is of the test access port. -/
theorem aUnitThatDoesNotRunKeepsItsState : Obligations.AUnitThatDoesNotRunKeepsItsState := by
  unfold Obligations.AUnitThatDoesNotRunKeepsItsState
  intro c s t dead noSupply answer
  have same {u : State} (other : exec c s = .next u) : u = t := by simpa [answer] using other.symm
  have of_tap {u : State} (other : exec c s = .next u) (only : TapOnly s u) : t.cfg = s.cfg ∧ t.dev = { s.dev with free := t.dev.free } := by
    obtain rfl := same other
    exact ⟨only.cfg, only.dev⟩
  obtain supply | tap | debug | device | ⟨volts, straps, rsvdG, blow, rfl⟩ | ⟨p, rfl⟩ | ⟨p, rfl⟩ := row_kinds c
  · rw [noSupply] at supply; cases supply
  · obtain ⟨u, other, only⟩ := exec_public c s tap
    exact of_tap other only
  · obtain ⟨u, other, -, only⟩ := exec_private_kept c s debug
    exact of_tap other (only (by simp [debugOpen, dead]))
  · obtain ⟨u, other, -, stays⟩ := exec_device_kept c s device
    exact of_tap other (stays dead ▸ .refl s)
  · obtain ⟨u, other, stays | ⟨running, -⟩⟩ := exec_levelPinMeasurement_latches volts straps rsvdG blow s
    · exact of_tap other (stays ▸ .refl s)
    · rw [dead] at running; cases running
  · obtain ⟨u, other, -, stays⟩ := exec_portStart_kept p s
    exact of_tap other (stays dead ▸ .refl s)
  · obtain ⟨u, other, -, stays⟩ := exec_statusPageWrite_kept p s
    exact of_tap other (stays dead ▸ .refl s)

/-! ## The step -/

theorem riseRails_eq (s : State) : riseRails s = if s.hk.vddIo = true ∧ s.hk.rails ≠ 0x1FF then
    { s with hk := { s.hk with rails := s.hk.rails ||| Config.railsInRange s.dev.free }, dev := { s.dev with free := s.dev.free + 1 } } else s := by
  simp [riseRails, draw]

/-- Settles O1: the queue's front is matched first. -/
theorem stepRunsTheFrontCommand : Obligations.StepRunsTheFrontCommand := by
  unfold Obligations.StepRunsTheFrontCommand
  intro c rest s
  rfl

/-- Settles O2: the rails rise first, which does not decide whether the unit runs. -/
theorem anEmptyQueueTicks : Obligations.AnEmptyQueueTicks := by
  unfold Obligations.AnEmptyQueueTicks
  intro s empty
  have ticks : step s = .next (tick s) := by simp [step, empty]
  have gate : alive (riseRails s) = alive s := by rw [riseRails_eq]; split_ifs <;> rfl
  have cfg : (riseRails s).cfg = s.cfg := by rw [riseRails_eq]; split_ifs <;> rfl
  rw [ticks, ← riseRails_eq]
  constructor
  · intro running
    simp only [tick, gate, running, if_true, tickDev, cfg]
  · intro dead
    simp [tick, gate, dead]

theorem riseRails_sound {s : State} (h : Sound s.dev) : Sound (riseRails s).dev := by
  rw [riseRails_eq]
  split_ifs
  · exact draw_sound h
  · exact h

theorem tick_sound {s : State} (h : Sound s.dev) : Sound (tick s).dev := by
  have rails := riseRails_sound h
  unfold tick
  generalize riseRails s = r at rails
  by_cases running : alive r = true
  · simp only [running, if_true]
    exact tickDev_sound rails _
  · simp only [running]
    exact rails

theorem tick_kept (s : State) : CfgKept s (tick s) := by
  have rails : CfgKept s (riseRails s) := by
    rw [riseRails_eq]
    refine .ite ?_ (.refl s)
    exact ⟨rfl, .inl rfl, ⟨rfl, rfl, rfl⟩⟩
  unfold tick
  dsimp only
  split
  · exact ⟨rails.queue, rails.cfg, rails.fuses⟩
  · exact rails

/-- Every command keeps storage canonical and Darn's books in order. -/
theorem exec_sound {c : Instr} {s t : State} (h : Sound s.dev) (e : exec c s = .next t) : Sound t.dev := by
  match c, e with
  | .vddIoRise, e => exact execVddIoRise_sound h e
  | .railsRisingEnd, e => exact execRailsRisingEnd_sound h e
  | .vddIoFall, e => exact execVddIoFall_sound h e
  | .brownOut rail clockToo, e => exact execBrownOut_sound rail clockToo h e
  | .clockLoss brownToo, e => exact execClockLoss_sound brownToo h e
  | .resetAssert chain, e => exact execResetAssert_sound chain h e
  | .resetRelease chain, e => exact execResetRelease_sound chain h e
  | .housekeepingLock, e => exact execHousekeepingLock_sound h e
  | .housekeepingLockFail, e => exact execHousekeepingLockFail_sound h e
  | .levelPinMeasurement volts straps rsvdG blowTakes, e => exact execLevelPinMeasurement_sound volts straps rsvdG blowTakes h e
  | .islandLoopsLocked fail, e => exact execIslandLoopsLocked_sound fail h e
  | .memoryInitialised sramFail spool0Fail spool1Fail, e => exact execMemoryInitialised_sound sramFail spool0Fail spool1Fail h e
  | .readyAssert, e => exact execReadyAssert_sound h e
  | .portStart p, e => exact execPortStart_sound p h e
  | .lemiusLinkUp p found, e => exact execLemiusLinkUp_sound p found h e
  | .lemiusTrainingTimeout p, e => exact execLemiusTrainingTimeout_sound p h e
  | .lemiusFrameReceive p bytes fixes, e => exact execLemiusFrameReceive_sound p bytes fixes h e
  | .lemiusReplayTimer p, e => exact execLemiusReplayTimer_sound p h e
  | .hello p f, e => exact execHello_sound p f h e
  | .nudge p f, e => exact execNudge_sound p f h e
  | .leafLinkDownFrame p f, e => exact execLeafLinkDownFrame_sound p f h e
  | .lane0ElectricalIdle p, e => exact execLane0ElectricalIdle_sound p h e
  | .readCpl p f, e => exact execReadCpl_sound p f h e
  | .readTimeout p tag, e => exact execReadTimeout_sound p tag h e
  | .tagRetireEnd p tag, e => exact execTagRetireEnd_sound p tag h e
  | .headerRead p r, e => exact execHeaderRead_sound p r h e
  | .descriptorFetch p r, e => exact execDescriptorFetch_sound p r h e
  | .pollTimer p r, e => exact execPollTimer_sound p r h e
  | .refetchTimer p r, e => exact execRefetchTimer_sound p r h e
  | .readRetryTimer p r, e => exact execReadRetryTimer_sound p r h e
  | .dependencySatisfied p r k, e => exact execDependencySatisfied_sound p r k h e
  | .waitTimeoutExpiry p r, e => exact execWaitTimeoutExpiry_sound p r h e
  | .nop p r, e => exact execNop_sound p r h e
  | .broadcast p r, e => exact execBroadcast_sound p r h e
  | .reduceToOne p r, e => exact execReduceToOne_sound p r h e
  | .allReduce p r, e => exact execAllReduce_sound p r h e
  | .reduceScatter p r, e => exact execReduceScatter_sound p r h e
  | .allGather p r, e => exact execAllGather_sound p r h e
  | .exchangeEqualSizes p r, e => exact execExchangeEqualSizes_sound p r h e
  | .exchangeUnequalSizes p r, e => exact execExchangeUnequalSizes_sound p r h e
  | .yardLoad p r, e => exact execYardLoad_sound p r h e
  | .yardBlockRegister p r, e => exact execYardBlockRegister_sound p r h e
  | .residentAccum p r, e => exact execResidentAccum_sound p r h e
  | .residentFlush p r, e => exact execResidentFlush_sound p r h e
  | .pegSet p r, e => exact execPegSet_sound p r h e
  | .pegClear p r, e => exact execPegClear_sound p r h e
  | .tallyAdd p r, e => exact execTallyAdd_sound p r h e
  | .tallyTake p r, e => exact execTallyTake_sound p r h e
  | .barrier p r, e => exact execBarrier_sound p r h e
  | .epochFence p r, e => exact execEpochFence_sound p r h e
  | .holdGrant t, e => exact execHoldGrant_sound t h e
  | .inputReadDone p r, e => exact execInputReadDone_sound p r h e
  | .prologueReceive q f, e => exact execPrologueReceive_sound q f h e
  | .trellisDataReceive q f, e => exact execTrellisDataReceive_sound q f h e
  | .trellisSignalReceive q f, e => exact execTrellisSignalReceive_sound q f h e
  | .spoolWritesPerformed p r, e => exact execSpoolWritesPerformed_sound p r h e
  | .completionRecord p r, e => exact execCompletionRecord_sound p r h e
  | .contributionWaitExpiry t coll, e => exact execContributionWaitExpiry_sound t coll h e
  | .pressStage t coll, e => exact execPressStage_sound t coll h e
  | .sieveSelection t coll, e => exact execSieveSelection_sound t coll h e
  | .trellisLinkUp q hMargin vMargin, e => exact execTrellisLinkUp_sound q hMargin vMargin h e
  | .trellisTrainingTimeout q, e => exact execTrellisTrainingTimeout_sound q h e
  | .trellisPortSilent q, e => exact execTrellisPortSilent_sound q h e
  | .trellisFrameReceive q bytes fixes, e => exact execTrellisFrameReceive_sound q bytes fixes h e
  | .trellisReplayTimer q, e => exact execTrellisReplayTimer_sound q h e
  | .alignmentBlock q, e => exact execAlignmentBlock_sound q h e
  | .trellisLaneLoss q, e => exact execTrellisLaneLoss_sound q h e
  | .trellisLinkDownFrame q f, e => exact execTrellisLinkDownFrame_sound q f h e
  | .sowHello q f, e => exact execSowHello_sound q f h e
  | .reference q f, e => exact execReference_sound q f h e
  | .seed q f, e => exact execSeed_sound q f h e
  | .close q f, e => exact execClose_sound q f h e
  | .position q f, e => exact execPosition_sound q f h e
  | .rollcall q f, e => exact execRollcall_sound q f h e
  | .formed q f, e => exact execFormed_sound q f h e
  | .stop q f, e => exact execStop_sound q f h e
  | .sowOriginDeadline, e => exact execSowOriginDeadline_sound h e
  | .sowReferenceDeadline, e => exact execSowReferenceDeadline_sound h e
  | .sowFormedDeadline, e => exact execSowFormedDeadline_sound h e
  | .pegOpReceive q f, e => exact execPegOpReceive_sound q f h e
  | .watch q f, e => exact execWatch_sound q f h e
  | .unwatch q f, e => exact execUnwatch_sound q f h e
  | .arrive q f, e => exact execArrive_sound q f h e
  | .withdraw q f, e => exact execWithdraw_sound q f h e
  | .fallback q f, e => exact execFallback_sound q f h e
  | .done q f, e => exact execDone_sound q f h e
  | .met q f, e => exact execMet_sound q f h e
  | .full q f, e => exact execFull_sound q f h e
  | .watchResendTimer p r k, e => exact execWatchResendTimer_sound p r k h e
  | .begin q f, e => exact execBegin_sound q f h e
  | .release q f, e => exact execRelease_sound q f h e
  | .mismatch q f, e => exact execMismatch_sound q f h e
  | .withdrawn q f, e => exact execWithdrawn_sound q f h e
  | .pegOpDoneTimeout p r, e => exact execPegOpDoneTimeout_sound p r h e
  | .barrierWatchdogExpiry p r, e => exact execBarrierWatchdogExpiry_sound p r h e
  | .withdrawReplyTimeout p r, e => exact execWithdrawReplyTimeout_sound p r h e
  | .lineRelease, e => exact execLineRelease_sound h e
  | .lineReadHigh line, e => exact execLineReadHigh_sound line h e
  | .lineWatchdogExpiry, e => exact execLineWatchdogExpiry_sound h e
  | .crossingQueueStall island, e => exact execCrossingQueueStall_sound island h e
  | .checkBitError site, e => exact execCheckBitError_sound site h e
  | .fault q f, e => exact execFault_sound q f h e
  | .drainComplete, e => exact execDrainComplete_sound h e
  | .drained q f, e => exact execDrained_sound q f h e
  | .contextChangeDone, e => exact execContextChangeDone_sound h e
  | .clean q f, e => exact execClean_sound q f h e
  | .recoveryWaitExpiry, e => exact execRecoveryWaitExpiry_sound h e
  | .state q f, e => exact execState_sound q f h e
  | .stateWaitExpiry t coll, e => exact execStateWaitExpiry_sound t coll h e
  | .verdict q f, e => exact execVerdict_sound q f h e
  | .abort q f, e => exact execAbort_sound q f h e
  | .statusPeriodDue p, e => exact execStatusPeriodDue_sound p h e
  | .statusPageWrite p, e => exact execStatusPageWrite_sound p h e
  | .patrolScrub corrected badWords, e => exact execPatrolScrub_sound corrected badWords h e
  | .tjSample tj, e => exact execTjSample_sound tj h e
  | .tapReset, e => exact execTapReset_sound h e
  | .extest drive, e => exact execExtest_sound drive h e
  | .samplePreload sample drive, e => exact execSamplePreload_sound sample drive h e
  | .idcode, e => exact execIdcode_sound h e
  | .clamp, e => exact execClamp_sound h e
  | .highz, e => exact execHighz_sound h e
  | .bypass, e => exact execBypass_sound h e
  | .dbgStatus, e => exact execDbgStatus_sound h e
  | .dbgAddr addr, e => exact execDbgAddr_sound addr h e
  | .dbgRead update, e => exact execDbgRead_sound update h e
  | .dbgReadDone corrected uncorrectable, e => exact execDbgReadDone_sound corrected uncorrectable h e
  | .handSet hspace hpeg, e => exact execHandSet_sound hspace hpeg h e
  | .handClear hspace hpeg, e => exact execHandClear_sound hspace hpeg h e
  | .handTallyAdd hspace hpeg hvalue, e => exact execHandTallyAdd_sound hspace hpeg hvalue h e
  | .handTallyTake hspace hpeg hvalue, e => exact execHandTallyTake_sound hspace hpeg hvalue h e
  | .handWriteValue hspace hpeg hvalue, e => exact execHandWriteValue_sound hspace hpeg hvalue h e
  | .handEndBarrierPhase hspace hpeg, e => exact execHandEndBarrierPhase_sound hspace hpeg h e
  | .dbgLoopEnter lport, e => exact execDbgLoopEnter_sound lport h e
  | .dbgLoopLeave lport, e => exact execDbgLoopLeave_sound lport h e
  | .railFallDuringRisingPhase rail, e => exact execRailFallDuringRisingPhase_sound rail h e
  | .lemiusBackToDetect p, e => exact execLemiusBackToDetect_sound p h e
  | .electricalIdleHoldEnd p, e => exact execElectricalIdleHoldEnd_sound p h e
  | .laneMarginingRequest p m, e => exact execLaneMarginingRequest_sound p m h e
  | .loopbackFollowerEntry trellis port, e => exact execLoopbackFollowerEntry_sound trellis port h e
  | .alignmentBlockReceive q bytes, e => exact execAlignmentBlockReceive_sound q bytes h e
  | .clearFirstComplete p r, e => exact execClearFirstComplete_sound p r h e
  | .abortedInstanceWatchdogExpiry t coll, e => exact execAbortedInstanceWatchdogExpiry_sound t coll h e

theorem debugLock_of_kept {s t : State} (kept : CfgKept s t) (lock : debugLock s) : debugLock t := by
  unfold debugLock
  rw [kept.fuses.fuse]
  obtain same | ⟨lost, -⟩ := kept.cfg
  · rw [same]; exact lock
  · rw [lost]
    intro opened
    cases opened

/-- Debug opens only under an intact fuse, and the measurement that opens it blows none. -/
theorem debugLock_of_latches {volts : List PinVolts} {straps : BitVec 4} {rsvdG : W16} {blow : Bool} {s t : State} (latches : Latches volts straps rsvdG blow s t) : debugLock t := by
  unfold debugLock
  rw [latches.cfg, latches.hk, latchCfg_debugOpen, latchCfg_latched, latchCfg_straps]
  intro opened
  obtain ⟨⟨enabled, unlocked⟩, intact⟩ : (straps.getLsbD 1 = true ∧ straps.getLsbD 2 = true) ∧ s.hk.fuseBlown = false := by simpa using opened
  exact ⟨rfl, enabled, unlocked, by simp [intact, unlocked]⟩

/-- Settles O60: a step is a command or a tick; storage and links by the laws of their operations, the debug lock by what a command does to configuration and fuse. -/
theorem soundIsKeptByEveryStep : Obligations.SoundIsKeptByEveryStep := by
  unfold Obligations.SoundIsKeptByEveryStep
  intro s t stepped h lock
  unfold step at stepped
  split at stepped
  · cases stepped
    exact ⟨tick_sound h, debugLock_of_kept (tick_kept s) lock⟩
  next i rest queue =>
    refine ⟨exec_sound (s := { s with pending := rest }) h stepped, ?_⟩
    obtain kept | ⟨_, _, _, _, -, latches⟩ := exec_inv stepped
    · exact debugLock_of_kept kept lock
    · exact debugLock_of_latches latches

end Sys2Proof.Machine
end

section
/-! The supplies, the steps of bring-up and what the measurement latches (R119 to R151, R165 to R185). -/
namespace Sys2Proof.Machine
open Sys2Proof

/-! ## The state after a reset -/

theorem devReset_sound : Sound Dev.reset :=
  ⟨⟨rfl, rfl, rfl, fun p => by simp [Dev.reset, LemPort.reset, spWf, spWfFrom]⟩,
    fun p => by simpa [Dev.reset, LemPort.reset] using darnSound_init, fun i => by simpa [Dev.reset, TrlPort.reset] using darnSound_init⟩

theorem devReset_lem (p : LPort) : Dev.reset.lem[p] = LemPort.reset := by simp [Dev.reset]

theorem devReset_trl (i : TPort) : Dev.reset.trl[i] = TrlPort.reset := by simp [Dev.reset]

theorem devReset_ring (p : LPort) (r : RingNo) : ringAt Dev.reset p r = Ring.reset := by
  rw [ringAt, devReset_lem]
  simp [LemPort.reset]

/-- Settles O6: a reset state is written out field by field. -/
theorem resetState : Obligations.ResetState := by
  unfold Obligations.ResetState
  refine ⟨rfl, rfl, rfl, fun _ => rfl, fun _ => rfl, fun _ => rfl, rfl, ?pocket, ?rings, ?lem, ?trl, ?lemCtr, ?trlCtr, ?health, ?tenant,
    rfl, rfl, rfl, rfl, rfl, rfl, rfl, rfl, devReset_sound, ?lock⟩
  case pocket => intro p k; rw [State.reset, devReset_lem]; rfl
  case rings => intro p r; rw [State.reset, devReset_ring]; rfl
  case lem => intro p; rw [State.reset, devReset_lem]; exact ⟨rfl, rfl, rfl, rfl, rfl⟩
  case trl => intro i; rw [State.reset, devReset_trl]; exact ⟨rfl, rfl, rfl, rfl⟩
  case lemCtr => intro p n; rw [State.reset, devReset_lem]; simp [LemPort.reset]
  case trlCtr => intro i n; rw [State.reset, devReset_trl]; simp [TrlPort.reset]
  case health => intro n; simp [State.reset, Dev.reset, Stat.reset]
  case tenant => intro t n; simp [State.reset, Dev.reset, Stat.reset]
  case lock => intro opened; cases opened

/-! ## The supplies -/

/-- A rail that falls leaves the other rails as they were. -/
theorem getLsbD_railFall (rails : BitVec 9) (rail k : Fin 9) :
    (rails &&& ~~~(BitVec.ofNat 9 (2 ^ rail.val))).getLsbD k.val = (rails.getLsbD k.val && k != rail) := by
  have bit : (BitVec.ofNat 9 (2 ^ rail.val)).getLsbD k.val = decide (rail = k) := by
    revert rail k
    decide
  rw [BitVec.getLsbD_and, BitVec.getLsbD_not, bit]
  by_cases same : rail = k
  · simp [same]
  · simp [same, Ne.symm same, k.isLt]

/-- Settles O7: each supply row is one change of the VDD_IO domain, with a discarded unit where VDD_IO comes or goes. -/
theorem supplyRowsGiveTheRailsRisingPhase : Obligations.SupplyRowsGiveTheRailsRisingPhase := by
  unfold Obligations.SupplyRowsGiveTheRailsRisingPhase
  refine ⟨?rise, ?released, ?held, ?fall, ?rail⟩
  case rise =>
    intro s unpowered
    obtain ⟨parts, ports⟩ := freshDev_discarded s.dev 0
    refine ⟨(draw (freshDev s.dev 0)).2, ?_, ⟨congrArg (fun d => (draw d).2) parts, ports⟩, rfl⟩
    change execVddIoRise s = _
    simp [execVddIoRise, unpowered]
  case released =>
    intro s powered rising reset chain
    change execRailsRisingEnd s = _
    simp [execRailsRisingEnd, powered, rising, reset, chain, releaseReset]
  case held =>
    intro s powered rising pins
    change execRailsRisingEnd s = _
    simp [execRailsRisingEnd, powered, rising, pins]
  case fall =>
    intro s powered
    refine ⟨freshDev s.dev 0, ?_, freshDev_discarded s.dev 0, rfl⟩
    change execVddIoFall s = _
    simp [execVddIoFall, powered]
  case rail =>
    intro s rail powered rising
    refine ⟨_, ?_, getLsbD_railFall s.hk.rails rail⟩
    change execRailFallDuringRisingPhase rail s = _
    simp [execRailFallDuringRisingPhase, powered, rising]

/-! ## Halts -/

theorem haltDev_discarded (d : Dev) : Discarded (haltDev d) := by
  obtain ⟨rest, ports⟩ := freshDev_discarded d 2
  exact ⟨rfl, ports⟩

/-- What a halt leaves of the unit (R178, R293). -/
theorem haltDev_facts (d : Dev) : Discarded (haltDev d) ∧ (haltDev d).stat = { Stat.reset with halted := true, faultN := true } ∧ (haltDev d).free = d.free ∧
    ∀ i : TPort, (haltDev d).trl[i].lastLinkDown = (if d.trl[i].linkUp then 2 else 0) ∧
      (haltDev d).trl[i].parting = (if d.trl[i].linkUp then linkDownBytes (ownAddr d) d.trl[i] 2 else []) :=
  ⟨haltDev_discarded d, rfl, rfl, fun i => ⟨freshDev_lastLinkDown d 2 i, freshDev_parting d (by decide) i⟩⟩

/-- Settles O8: out of reset both rows halt the unit; in reset or in a halt only the flag of a brown-out is set. -/
theorem haltsSetTheirFlags : Obligations.HaltsSetTheirFlags := by
  unfold Obligations.HaltsSetTheirFlags
  refine ⟨?brown, ?brownIdle, ?clock, ?clockIdle⟩
  case brown =>
    intro s rail both powered risen running going
    refine ⟨s.hk.rails &&& ~~~(BitVec.ofNat 9 (2 ^ rail.val)), haltDev s.dev, ?_, haltDev_facts s.dev⟩
    change execBrownOut rail both s = _
    simp only [execBrownOut, powered, risen, running, going]
    rfl
  case brownIdle =>
    intro s rail both powered risen idle
    refine ⟨_, ?_, getLsbD_railFall s.hk.rails rail⟩
    change execBrownOut rail both s = _
    simp [execBrownOut, powered, risen, idle]
  case clock =>
    intro s both powered risen running going
    refine ⟨haltDev s.dev, ?_, haltDev_facts s.dev⟩
    change execClockLoss both s = _
    simp only [execClockLoss, powered, risen, running, going]
    rfl
  case clockIdle =>
    intro s both powered risen idle
    change execClockLoss both s = _
    simp [execClockLoss, powered, risen, idle]

/-! ## The start of training -/

/-- The leaf ports that train are those in use whose loop has locked; of the rest only the note that training has started changes. -/
theorem trainLem_lem (c : Cfg) (d : Dev) (p : LPort) : (trainLem c d).lem[p] =
    if p.val < portsInUse c.codes[10].toNat ∧ d.stat.pllFail.getLsbD p.val = false then { d.lem[p] with phase := .training } else d.lem[p] := by
  have fold := each_modP allLem allLem_nodup (modS d fun x => { x with trainStarted := true }) (fun p => inUse c p && !d.stat.pllFail.getLsbD p.val)
    (fun _ x => { x with phase := .training }) p
  have due : (p ∈ allLem ∧ (inUse c p && !d.stat.pllFail.getLsbD p.val) = true) ↔
      (p.val < portsInUse c.codes[10].toNat ∧ d.stat.pllFail.getLsbD p.val = false) := by
    rw [Bool.and_eq_true, inUse, decide_eq_true_eq, Bool.not_eq_true']
    exact and_iff_right (mem_allLem p)
  rw [trainLem, fold]
  simp only [due]
  rfl

theorem trainLem_rest (c : Cfg) (d : Dev) : ∃ v, trainLem c d = { d with stat := { d.stat with trainStarted := true }, lem := v } := by
  obtain ⟨v, fold⟩ := each_modP_rest allLem (modS d fun x => { x with trainStarted := true }) (fun p => inUse c p && !d.stat.pllFail.getLsbD p.val)
    (fun _ x => { x with phase := .training })
  exact ⟨v, fold⟩

/-- Settles O10: one fold over the leaf ports, and one over the Trellis ports of a unit in no stop. -/
theorem trainingStartsOnThePortsInUse : Obligations.TrainingStartsOnThePortsInUse := by
  unfold Obligations.TrainingStartsOnThePortsInUse
  intro c d latched locked first
  rw [startTraining_eq c d latched locked first]
  obtain ⟨v, lemOnly⟩ := trainLem_rest c d
  have lem := trainLem_lem c d
  by_cases inStop : stopped d = true
  · have stop : d.stat.stop ≠ none := by simpa [stopped, Option.isSome_iff_ne_none] using inStop
    rw [if_pos inStop]
    refine ⟨by rw [lemOnly], lem, fun i => ?_, by rw [lemOnly]⟩
    rw [lemOnly, if_neg fun both => stop both.1]
  · have stop : d.stat.stop = none := by simpa [stopped] using inStop
    rw [if_neg inStop]
    obtain ⟨w, trlOnly⟩ := each_modT_rest allTrl (trainLem c d) (trains c) (fun _ x => { x with st := .training })
    have trl := each_modT allTrl allTrl_nodup (trainLem c d) (trains c) (fun _ x => { x with st := .training })
    refine ⟨by rw [trlOnly, lemOnly], fun p => ?_, fun i => ?_, by rw [trlOnly, lemOnly]⟩
    · rw [trlOnly, ← lem p]
    · rw [trl i, lemOnly]
      simp [mem_allTrl, stop]

/-- Of a start of training the status part shows only that it has been; a stopped unit's Trellis stays as it is. -/
theorem startTraining_shape (c : Cfg) (d : Dev) :
    ∃ b v w, startTraining c d = { d with stat := { d.stat with trainStarted := b }, lem := v, trl := w } ∧ (stopped d = true → w = d.trl) := by
  by_cases due : c.latched = true ∧ d.stat.loopsLocked = true ∧ d.stat.trainStarted = false
  · obtain ⟨latched, locked, first⟩ := due
    obtain ⟨v, lemOnly⟩ := trainLem_rest c d
    rw [startTraining_eq c d latched locked first]
    by_cases inStop : stopped d = true
    · exact ⟨true, v, d.trl, by rw [if_pos inStop, lemOnly], fun _ => rfl⟩
    · obtain ⟨w, trlOnly⟩ := each_modT_rest allTrl (trainLem c d) (trains c) (fun _ x => { x with st := .training })
      exact ⟨true, v, w, by rw [if_neg inStop, trlOnly, lemOnly], fun stop => absurd stop inStop⟩
  · exact ⟨d.stat.trainStarted, d.lem, d.trl, startTraining_not c d due, fun _ => rfl⟩

/-! ## The stops of bring-up -/

theorem setStop_line (d : Dev) (s : Stop) (m : W16) (a : Option Pos) (b : Byte) (r : Option (List (BitVec 4))) (going : d.stat.stop = none) :
    (setStop d s m a b r).line = Line.reset := by
  unfold setStop stopped
  rw [going]
  refine each_field allLem _ (·.line) (fun d x => ?_) _
  split <;> rfl

/-- An early stop lets both washing lines go (R125). -/
theorem earlyStop_line (d : Dev) (s : Stop) (m : W16) (going : d.stat.stop = none) : (earlyStop d s m).line = Line.reset := by
  unfold earlyStop stopped
  rw [going]
  exact (each_field allTrl (fun d i => modT d i idleTrl) (·.line) (fun _ _ => rfl) _).trans (setStop_line d s m none 0xFF none going)

/-- Settles O11: the rows of steps 1, 4 and 5, with the early stop where a check fails. -/
theorem bringUpStepsAndTheirStops : Obligations.BringUpStepsAndTheirStops := by
  unfold Obligations.BringUpStepsAndTheirStops
  intro s running
  refine ⟨?lock, ?lockFail, ?loops, ?loopsFail, ?memory⟩
  case lock =>
    change execHousekeepingLock s = _
    exact onDev_alive running _
  case lockFail =>
    intro unlocked
    refine ⟨{ s with dev := modS s.dev fun x => { x with hkFailed := true, faultN := true } }, ?_, ?_, rfl⟩
    · change execHousekeepingLockFail s = _
      rw [execHousekeepingLockFail, onDev_alive running, unlocked]
      rfl
    · simp [alive, modS]
  case loops =>
    intro hk loops
    change execIslandLoopsLocked 0 s = _
    rw [execIslandLoopsLocked, onDev_alive running, hk, loops]
    rfl
  case loopsFail =>
    intro hk loops going fail failed
    let d : Dev := modS s.dev fun x => { x with loopsLocked := true, pllFail := fail &&& 0x7FFFF, bringupMask := x.bringupMask ||| 1 }
    have stat := earlyStop_stat d .bringupPll 0 going
    obtain ⟨b, v, w, shape, trl⟩ := startTraining_shape s.cfg (earlyStop d .bringupPll 0)
    have answer : exec (.islandLoopsLocked fail) s = .next { s with dev := startTraining s.cfg (earlyStop d .bringupPll 0) } := by
      change execIslandLoopsLocked fail s = _
      rw [execIslandLoopsLocked, onDev_alive running, hk, loops]
      simp only [failed, if_false, Bool.not_true, Bool.or_self, Bool.false_eq_true]
      rfl
    refine ⟨_, answer, ?_⟩
    rw [shape, trl (by rw [stopped, stat]; rfl)]
    simp only [stat, earlyStop_line d _ _ going]
    refine ⟨trivial, rfl, trivial, rfl, rfl, rfl, fun i => ?_⟩
    exact congrArg TrlPort.linkUp (earlyStop_trl d .bringupPll 0 going i)
  case memory =>
    intro loops pll first none
    constructor
    · change execMemoryInitialised false false false s = _
      rw [execMemoryInitialised, onDev_alive running, loops, pll, first, none]
      rfl
    · intro going sram spool0 spool1 failed
      let mask : BitVec 4 := BitVec.ofNat 4 (2 * b2n sram + 4 * b2n spool0 + 8 * b2n spool1)
      let d : Dev := modS s.dev fun x => { x with bringupMask := mask }
      let z : Stop := if sram then .bringupSram else .bringupSpool
      have some : mask ≠ 0 := by
        revert failed
        revert sram spool0 spool1
        decide
      have answer : exec (.memoryInitialised sram spool0 spool1) s = .next { s with dev := earlyStop d z 0 } := by
        change execMemoryInitialised sram spool0 spool1 s = _
        rw [execMemoryInitialised, onDev_alive running, loops, pll, first, none]
        exact congrArg (fun e => Host.Outcome.next { s with dev := e }) (if_neg some)
      refine ⟨_, answer, ?_⟩
      simp only [earlyStop_stat d z 0 going, earlyStop_line d z 0 going]
      exact ⟨first, trivial, rfl, rfl, rfl, rfl⟩

/-! ## What the measurement latches -/

theorem latchCfg_codes (volts : List PinVolts) (straps : BitVec 4) (rsvdG : W16) (blown takes : Bool) (i : Fin 12) :
    (latchCfg volts straps rsvdG blown takes).codes[i] = levelCode (volts.getD i.val ⟨0, 0, 0⟩) := by
  simp only [latchCfg]; split_ifs <;> simp

theorem latchCfg_rsvdG (volts : List PinVolts) (straps : BitVec 4) (rsvdG : W16) (blown takes : Bool) :
    (latchCfg volts straps rsvdG blown takes).rsvdG = rsvdG := by
  simp only [latchCfg]; split_ifs <;> rfl

theorem latchCfg_fuseFail (volts : List PinVolts) (straps : BitVec 4) (rsvdG : W16) (blown takes : Bool) :
    (latchCfg volts straps rsvdG blown takes).fuseFail = (!straps.getLsbD 2 && !blown && !takes) := by
  simp only [latchCfg]; split_ifs <;> rfl

/-- Reserved codes come before contradictions, and the pins of the stage that stops are marked (R126, R132). -/
theorem stages_of_fresh (c : Cfg) (mask : c.pinMask = 0) (stop : c.stop = none) :
    let e := if reservedMask c ≠ 0 then { c with pinMask := reservedMask c, stop := some .cfgReserved }
      else if conflictMask c ≠ 0 then { c with pinMask := conflictMask c, stop := some .cfgConflict } else c
    e.stop = (if reservedMask e ≠ 0 then some .cfgReserved else if conflictMask e ≠ 0 then some .cfgConflict else none) ∧
    e.pinMask = (if reservedMask e ≠ 0 then reservedMask e else conflictMask e) := by
  have read : ∀ (m : W16) (z : Option Stop), reservedMask { c with pinMask := m, stop := z } = reservedMask c ∧
      conflictMask { c with pinMask := m, stop := z } = conflictMask c := fun _ _ => ⟨rfl, rfl⟩
  by_cases reserved : reservedMask c ≠ 0
  · simp only [if_pos reserved, read, and_self]
  · by_cases conflict : conflictMask c ≠ 0
    · simp only [if_neg reserved, if_pos conflict, read, and_self]
    · simp only [if_neg reserved, if_neg conflict, stop, true_and]
      rw [mask, not_not.1 conflict]

theorem latchCfg_stages (volts : List PinVolts) (straps : BitVec 4) (rsvdG : W16) (blown takes : Bool) :
    let c := latchCfg volts straps rsvdG blown takes
    c.stop = (if reservedMask c ≠ 0 then some .cfgReserved else if conflictMask c ≠ 0 then some .cfgConflict else none) ∧
    c.pinMask = (if reservedMask c ≠ 0 then reservedMask c else conflictMask c) :=
  stages_of_fresh _ rfl rfl

/-- The unit after the early checks: stopped where a stage found a stop (R125, R126). -/
def afterChecks (c : Cfg) (d : Dev) : Dev :=
  match c.stop with
  | some st => earlyStop d st c.pinMask
  | none => d

theorem afterChecks_stat (c : Cfg) (d : Dev) (going : d.stat.stop = none) :
    (afterChecks c d).stat.stop = c.stop ∧ (c.stop ≠ none → (afterChecks c d).stat.faultN = true) := by
  unfold afterChecks
  cases c.stop with
  | none => exact ⟨going, fun some => absurd rfl some⟩
  | some z => rw [earlyStop_stat d z c.pinMask going]; exact ⟨rfl, fun _ => rfl⟩

/-- The measurement's answer: one configuration, and a unit that does nothing where a ball of RSVD_G reads 1 (R99). -/
theorem exec_levelPinMeasurement_eq {s : State} (volts : List PinVolts) (straps : BitVec 4) (rsvdG : W16) (blow : Bool)
    (running : alive s = true) (locked : s.dev.stat.hkLocked = true) (unlatched : s.cfg.latched = false) :
    exec (.levelPinMeasurement volts straps rsvdG blow) s =
      let c := latchCfg volts straps rsvdG s.hk.fuseBlown blow
      let d := modSow s.dev fun _ => initialSow c
      .next { s with
        hk := { s.hk with fuseBlown := s.hk.fuseBlown || (!straps.getLsbD 2 && blow) }, cfg := c
        dev := if rsvdG ≠ 0 then assertFaultN d else startTraining c (afterChecks c d) } := by
  change execLevelPinMeasurement volts straps rsvdG blow s = _
  unfold execLevelPinMeasurement
  rw [running, locked, unlatched, Bool.not_false, Bool.and_self, Bool.and_self, Bool.not_true, if_neg (by decide)]
  dsimp only
  unfold afterChecks
  generalize latchCfg volts straps rsvdG s.hk.fuseBlown blow = c
  generalize startTraining c _ = e
  by_cases ball : rsvdG = 0
  · rw [if_neg (not_not.2 ball), if_neg (not_not.2 ball)]
  · rw [if_pos ball, if_pos ball]

/-- A ball of RSVD_G that reads 1 leaves a unit that does nothing (R99). -/
theorem alive_of_ball {s : State} (latched : s.cfg.latched = true) (ball : s.cfg.rsvdG ≠ 0) : alive s = false := by
  have quiet : (s.cfg.rsvdG == 0) = false := beq_false_of_ne ball
  rw [alive, latched, quiet, Bool.not_true, Bool.or_self, Bool.and_false]

/-- Settles O12: what is latched, and the stop of the first stage that finds one. -/
theorem theMeasurementLatchesTheConfiguration : Obligations.TheMeasurementLatchesTheConfiguration := by
  unfold Obligations.TheMeasurementLatchesTheConfiguration
  intro s volts straps rsvdG blow running locked unlatched
  have latched := latchCfg_latched volts straps rsvdG s.hk.fuseBlown blow
  have strapped := latchCfg_straps volts straps rsvdG s.hk.fuseBlown blow
  have balls := latchCfg_rsvdG volts straps rsvdG s.hk.fuseBlown blow
  have codes := latchCfg_codes volts straps rsvdG s.hk.fuseBlown blow
  have debug := latchCfg_debugOpen volts straps rsvdG s.hk.fuseBlown blow
  have fuse := latchCfg_fuseFail volts straps rsvdG s.hk.fuseBlown blow
  obtain ⟨stage, pins⟩ := latchCfg_stages volts straps rsvdG s.hk.fuseBlown blow
  have answer := exec_levelPinMeasurement_eq volts straps rsvdG blow running locked unlatched
  generalize latchCfg volts straps rsvdG s.hk.fuseBlown blow = c at latched strapped balls codes debug fuse stage pins answer
  refine ⟨_, answer, latched, strapped, balls, codes, rfl, ?debug, ?fuse, ?ball, ?stop⟩
  case debug => simp [debug, and_assoc]
  case fuse => simp [fuse, and_assoc]
  case ball =>
    intro ball
    constructor
    · exact alive_of_ball latched (balls ▸ ball)
    · dsimp only
      rw [if_pos ball]
      rfl
  case stop =>
    intro noBall going
    have sown : (modSow s.dev fun _ => initialSow c).stat.stop = none := going
    obtain ⟨stop, fault⟩ := afterChecks_stat c _ sown
    dsimp only
    generalize afterChecks c _ = found at stop fault
    obtain ⟨b, v, w, shape, -⟩ := startTraining_shape c found
    rw [if_neg (not_not.2 noBall), shape]
    exact ⟨stop.trans stage, pins, fun entered => fault (stop ▸ entered)⟩

/-! ## What the codes mean -/

/-- The bits of a mask of pins 1, 8 and 9. -/
theorem getLsbD_pins (a b c : Bool) (k : Fin 16) :
    (BitVec.ofNat 16 (2 * b2n a + 256 * b2n b + 512 * b2n c)).getLsbD k.val = ((k == 1 && a) || (k == 8 && b) || (k == 9 && c)) := by
  revert a b c k
  decide

/-- Settles O14: a pin's bit is its own, and the remaining clauses are arithmetic of the codes. -/
theorem levelPinCodesMean : Obligations.LevelPinCodesMean := by
  unfold Obligations.LevelPinCodesMean
  refine ⟨?reserved, ?position, ?tenant⟩
  case reserved =>
    intro c k
    rw [reservedMask, getLsbD_pins]
    simp only [code, Bool.decide_and]
    rfl
  case position =>
    intro c
    refine ⟨?_, Nat.mod_lt _ (by decide), rfl⟩
    change code c 0 % 4 + 4 * (code c 0 / 4) = code c 0
    omega
  case tenant =>
    intro c p
    have small : ∀ n, (3 - n) % 4 = 3 - n := fun n => Nat.mod_eq_of_lt (by omega)
    have port : p.val < 8 := p.isLt
    simp only [tenantOf, tenantOfCode, code, Fin.ofNat, small]
    by_cases low : p.val < 4
    · have place : p.val % 4 = p.val := Nat.mod_eq_of_lt low
      simp only [low, if_true, place]
      split <;> rfl
    · have place : p.val % 4 = p.val - 4 := by omega
      have above : ¬p.val < 2 := by omega
      have pair : p.val - 4 < 2 ↔ p.val < 6 := by omega
      simp only [low, above, if_false, place, pair]
      split <;> rfl

end Sys2Proof.Machine
end

section
/-! The leaf link: training, Darn on either side, and what the bytes of a frame do (R216 to R235, R251 to R254). -/
namespace Sys2Proof.Machine
open Sys2Proof

/-! ## Training -/

/-- A leaf port in training, where training comes to a row. -/
theorem execLemiusLinkUp_row {s : State} (running : alive s = true) {p : LPort} (training : s.dev.lem[p].phase = .training) {found : Training} {m : Nat}
    (row : trainedRow found = some m) : exec (.lemiusLinkUp p found) s = .next { s with dev := lemUp s.dev p m } := by
  change execLemiusLinkUp p found s = _
  rw [execLemiusLinkUp, onDev_alive running, if_pos training, row]

/-- Training that comes to no row brings no link up. -/
theorem execLemiusLinkUp_none {s : State} (running : alive s = true) (p : LPort) {found : Training} (none : trainedRow found = Option.none) :
    exec (.lemiusLinkUp p found) s = .next s := by
  change execLemiusLinkUp p found s = _
  rw [execLemiusLinkUp, onDev_alive running, none, ite_self]

theorem backToDetect_of {d : Dev} {p : LPort} (trains : d.lem[p].phase = .training ∨ d.lem[p].phase = .loopback) :
    backToDetect d p = modP d p fun x => { x with phase := .training } := if_pos trains

/-- A Trellis port in training follows into loopback (R269). -/
theorem execLoopbackFollowerEntry_trl {s : State} (running : alive s = true) (port : Fin 8) (trellis : port.val < 6) {i : TPort} (named : fin6 port.val = i)
    (training : s.dev.trl[i].st = .training) (down : s.dev.trl[i].linkUp = false) :
    exec (.loopbackFollowerEntry true port) s = .next { s with dev := modT s.dev i fun x => { x with loopFollower := true } } := by
  subst named
  change execLoopbackFollowerEntry true port s = _
  rw [execLoopbackFollowerEntry, onDev_alive running, if_pos rfl, if_pos ⟨trellis, training, by rw [down]; rfl⟩]

/-- Settles O16: each row of a leaf port in training is one change of that port, where its guard holds. -/
theorem portsTrainAndFollow : Obligations.PortsTrainAndFollow := by
  unfold Obligations.PortsTrainAndFollow
  intro s p running
  refine ⟨fun found => ?up, fun trains => ⟨?timeout, ?detect⟩, fun held => ?hold, fun m up => ?margin, fun training => ?leafLoop, fun i training down => ?trlLoop⟩
  case up =>
    intro row
    have rowOf : trainedRow found = row := rfl
    refine ⟨fun none => execLemiusLinkUp_none running p (rowOf.trans none), fun mode some training => ?_⟩
    · have credits : lemCreditInit = Vector.ofFn fun v : Fin 4 =>
          { lim := if v = 3 then 2 else 0, sent := 0, ret := 0, adv := if v = 3 then 2 else 0, recv := 0, freed := 0, freedSent := 0 } := by decide
      rw [execLemiusLinkUp_row running training (rowOf.trans some)]
      simp only [lemUp, credits]
      rfl
  case timeout =>
    change execLemiusTrainingTimeout p s = _
    rw [execLemiusTrainingTimeout, onDev_alive running, backToDetect_of trains]
  case detect =>
    change execLemiusBackToDetect p s = _
    rw [execLemiusBackToDetect, onDev_alive running, backToDetect_of trains]
  case hold =>
    change execElectricalIdleHoldEnd p s = _
    rw [execElectricalIdleHoldEnd, onDev_alive running, if_pos held]
  case margin =>
    change execLaneMarginingRequest p m s = _
    rw [execLaneMarginingRequest, onDev_alive running, if_pos up]
    rfl
  case leafLoop =>
    change execLoopbackFollowerEntry false p s = _
    rw [execLoopbackFollowerEntry, onDev_alive running, if_neg (by decide), if_pos training]
  case trlLoop =>
    have small : i.val % 8 = i.val := Nat.mod_eq_of_lt (by omega)
    exact execLoopbackFollowerEntry_trl running (fin8 i.val) (by simp [fin8, small])
      (Fin.ext (by simp [fin6, fin8, small])) training down

/-! ## Darn's numbers -/

/-- How far a number lies ahead of the last accepted one. -/
theorem ahead_toNat (last : BitVec 12) (k : Nat) : (last + BitVec.ofNat 12 k - last).toNat = k % 4096 := by
  rw [BitVec.add_comm, BitVec.add_sub_cancel, BitVec.toNat_ofNat]

/-- How far a number lies ahead of the last accepted one where it lies behind it. -/
theorem behind_toNat (last : BitVec 12) (k : Nat) (near : k ≤ 2047) : (last - BitVec.ofNat 12 k - last).toNat = if k = 0 then 0 else 4096 - k := by
  have small : (BitVec.ofNat 12 k).toNat = k := by rw [BitVec.toNat_ofNat]; omega
  generalize BitVec.ofNat 12 k = w at small
  split <;> bv_omega

/-- Settles O17: the cases of the distance from the last accepted number, modulo 4,096. -/
theorem darnComparesEachNumberWithTheLast : Obligations.DarnComparesEachNumberWithTheLast := by
  unfold Obligations.DarnComparesEachNumberWithTheLast
  intro dn t nacked
  have sequenced : t.seqd = true → darnRx dn true t =
      if (t.seq - dn.last).toNat = 1 then (.accept, { dn with last := t.seq, ackDue := true, nackOut := false, nackDue := false })
      else if 2 ≤ (t.seq - dn.last).toNat ∧ (t.seq - dn.last).toNat ≤ 2048 then (.ahead, wantNack dn) else (.duplicate, { dn with ackDue := true }) :=
    fun seqd => by rw [darnRx, seqd]; rfl
  refine ⟨rfl, fun idle => by rw [darnRx, idle]; rfl, fun seqd next => ?accept, fun k near seqd number => ?duplicate, fun k low high seqd number => ?ahead⟩
  case accept =>
    have one : (t.seq - dn.last).toNat = 1 := by rw [next]; exact ahead_toNat dn.last 1
    rw [sequenced seqd, if_pos one]
  case duplicate =>
    have far := behind_toNat dn.last k near
    rw [← number] at far
    rw [sequenced seqd, if_neg (by split at far <;> omega), if_neg (by split at far <;> omega)]
  case ahead =>
    have far := ahead_toNat dn.last k
    rw [← number] at far
    rw [sequenced seqd, if_neg (by omega), if_pos (by omega)]
    rfl

/-! ## What is held -/

theorem ackHits_iff {α : Type} (held : List (BitVec 12 × α)) (ack : BitVec 12) : ackHits held ack = true ↔ ∃ e ∈ held, e.1 = ack := by
  simp [ackHits]

/-- What stays behind the first frame of the acknowledged number. -/
theorem afterAck_split {α : Type} (ack : BitVec 12) (g : α) (post : List (BitVec 12 × α)) :
    ∀ pre : List (BitVec 12 × α), (∀ e ∈ pre, e.1 ≠ ack) → afterAck ack (pre ++ (ack, g) :: post) = post
  | [], _ => if_pos rfl
  | e :: es, other => by
    have head : e.1 ≠ ack := other e List.mem_cons_self
    rw [List.cons_append, afterAck, if_neg head]
    exact afterAck_split ack g post es fun x mem => other x (List.mem_cons_of_mem e mem)

/-- Settles O18: the acknowledgement splits what is held at its number. -/
theorem heldFramesAreReleasedInOrder : Obligations.HeldFramesAreReleasedInOrder := by
  unfold Obligations.HeldFramesAreReleasedInOrder
  intro dn f ack
  refine ⟨rfl, rfl, rfl, rfl, fun pre g post held other => ?acknowledged, fun other => ?unknown, fun nack => ⟨fun below => ?again, fun limit => ?limit⟩, ?room⟩
  case acknowledged =>
    have hits : ackHits dn.held ack = true := (ackHits_iff dn.held ack).2 ⟨(ack, g), by rw [held]; simp, rfl⟩
    have rest : afterAck ack dn.held = post := by rw [held]; exact afterAck_split ack g post pre other
    rw [darnAck, if_pos hits, rest]
    refine ⟨rfl, rfl, rfl, rfl, rfl, fun e => ?_⟩
    cases asked : dn.asked <;> simp
  case unknown =>
    have misses : ¬ackHits dn.held ack = true := fun hits => by
      obtain ⟨e, mem, number⟩ := (ackHits_iff dn.held ack).1 hits
      exact other e mem number
    rw [darnAck, if_neg misses]
  case again => rw [darnReplay, if_neg (by omega)]
  case limit => rw [darnReplay, if_pos (by omega)]
  case room => rw [darnRoom, decide_eq_true_eq]

/-! ## The bytes of a frame on a leaf port

Each thing that a received frame does to a leaf port is a function of that port, and the row is their composition. -/

/-- A port with one more in its counter `n`. -/
def counted (n : Fin 12) (x : LemPort) : LemPort :=
  { x with
    ctr := x.ctr.set n (satInc64 x.ctr[n] 1)
    sat := if wouldSaturate x.ctr[n] 1 then setSat x.sat n.val else x.sat
    causes := if wouldSaturate x.ctr[n] 1 ∧ x.sat.getLsbD n.val = false ∧ x.started then x.causes ||| BitVec.ofNat 16 (2 ^ 8) else x.causes }

theorem bumpLem_counted (d : Dev) (p : LPort) (n : Fin 12) : bumpLem d p n = modP d p (counted n) := bumpLem_eq d p n

/-- The port after the replay that an acknowledgement withdraws is uncounted (R254). -/
def uncounted (t : Tail) (x : LemPort) : LemPort := if withdraws x.darn t then { x with ctr := x.ctr.set 5 (x.ctr[5] - 1) } else x

theorem lemUncount_eq (d : Dev) (p : LPort) (t : Tail) : lemUncount d p t = modP d p (uncounted t) := by
  unfold lemUncount
  by_cases w : withdraws d.lem[p].darn t = true
  · rw [if_pos w]
    exact modP_congr (if_pos w).symm
  · rw [if_neg w]
    exact (modP_self (if_neg w)).symm

/-- The credit returns of a frame on the port (R228). -/
def creditsTold (bs : List Byte) (x : LemPort) : LemPort :=
  { x with credit := x.credit.mapFinIdx fun k cr _ => { cr with ret := bs.getD (0x0C + k) 0 } }

/-- The buffer of an accepted frame, taken and freed. -/
def creditTaken (v : Fin 4) (x : LemPort) : LemPort := { x with credit := x.credit.set v (creditTake x.credit[v]) }

/-- The port after a frame that is accepted (R78, R228). -/
def acceptedOn (bs : List Byte) (x : LemPort) : LemPort :=
  let y := creditTaken (Fin.ofNat 4 (byteAt bs 1)) (counted 1 x)
  if lemAllowed x bs then y else counted 2 y

theorem lemAccept_eq (d : Dev) (p : LPort) (bs : List Byte) : lemAccept d p bs = modP d p (acceptedOn bs) := by
  unfold lemAccept lemDiscard
  dsimp only
  rw [bumpLem_counted, bumpLem_counted, modP_modP, modP_modP]
  by_cases allowed : lemAllowed d.lem[p] bs = true
  · rw [if_pos allowed]
    exact modP_congr (if_pos allowed).symm
  · rw [if_neg allowed]
    exact modP_congr (if_neg allowed).symm

/-- An accepted frame without a request for a replay: everything that it does is done to its port. -/
theorem lemGood_accept {d : Dev} {p : LPort} {bs : List Byte}
    (accepts : (darnRx (applyTail d.lem[p].darn (parseTail bs)).1 true (parseTail bs)).1 = .accept)
    (asksNone : (applyTail d.lem[p].darn (parseTail bs)).2 = false) :
    lemGood d p bs = (modP d p fun x => acceptedOn bs { creditsTold bs { uncounted (parseTail bs) x with darn := (applyTail x.darn (parseTail bs)).1 } with
      darn := (darnRx (applyTail x.darn (parseTail bs)).1 true (parseTail bs)).2 }, false) := by
  have darn : (lemUncount d p (parseTail bs)).lem[p].darn = d.lem[p].darn := by
    rw [lemUncount_eq, modP_at, uncounted]
    split <;> rfl
  unfold lemGood
  dsimp only
  rw [darn, accepts, asksNone, lemAsked, if_neg (by decide), lemUncount_eq]
  refine Prod.ext ?_ rfl
  dsimp only
  rw [lemAct, lemAccept_eq, lemTold, lemCredits, modP_modP, modP_modP, modP_modP, modP_modP]
  exact modP_congr rfl

/-- What a port becomes, as it stood. -/
theorem modP_const (d : Dev) (p : LPort) (f : LemPort → LemPort) : modP d p f = modP d p fun _ => f d.lem[p] := modP_congr rfl

/-- The port after the FEC's count (R225). -/
def fecCounted (fixed : Bool) (x : LemPort) : LemPort := if fixed then counted 3 x else x

theorem fecCounted_eq (d : Dev) (p : LPort) (fixed : Bool) : (if fixed then bumpLem d p 3 else d) = modP d p (fecCounted fixed) := by
  cases fixed
  · exact (modP_self rfl).symm
  · exact bumpLem_counted d p 3

theorem fecCounted_darn (fixed : Bool) (x : LemPort) : (fecCounted fixed x).darn = x.darn := by cases fixed <;> rfl

/-- A frame's bytes on a port that is up: what Darn makes of them, and the link down at the retry limit. -/
theorem execLemiusFrameReceive_up {s : State} (running : alive s = true) {p : LPort} (up : s.dev.lem[p].phase = .up) (raw : List Byte) (fixes : FecFix) :
    exec (.lemiusFrameReceive p raw fixes) s =
      let r := lemGood (modP s.dev p (fecCounted (fecFixed fixes))) p (fecApply raw fixes)
      .next { s with dev := if crcOk (fecApply raw fixes) = true then (if r.2 then epilogue s.cfg (lemDown s.cfg r.1 p) else r.1) else lemBad s.dev p } := by
  change execLemiusFrameReceive p raw fixes s = _
  rw [execLemiusFrameReceive, onDev_alive running]
  dsimp only
  rw [lemRx, if_neg (not_not.2 up), fecCounted_eq]
  by_cases good : crcOk (fecApply raw fixes) = true
  · simp only [good, Bool.not_true, Bool.false_eq_true, if_false, if_true]
  · simp only [good, Bool.not_false, Bool.false_eq_true, if_false, if_true]

/-- What the FEC's count and a withdrawn replay leave of a port. -/
theorem uncounted_facts (fixed : Bool) (t : Tail) (x : LemPort) :
    let w := uncounted t (fecCounted fixed x)
    w.darn = x.darn ∧ w.credit = x.credit ∧ w.ctr[1] = x.ctr[1] ∧ w.ctr[2] = x.ctr[2] ∧ w.ctr[3] = (if fixed then satInc64 x.ctr[3] 1 else x.ctr[3]) ∧
    w.ctr[4] = x.ctr[4] ∧ w.ctr[5] = (if withdraws x.darn t then x.ctr[5] - 1 else x.ctr[5]) ∧
    w.txq = x.txq ∧ w.reads = x.reads ∧ w.rings = x.rings ∧ w.pocket = x.pocket ∧ w.phase = x.phase ∧ w.hello = x.hello := by
  unfold uncounted
  rw [fecCounted_darn]
  cases fixed <;> cases withdraws x.darn t <;> simp [fecCounted, counted]

/-- What an accepted frame leaves of a port: one buffer taken, one acceptance counted, and a discard where the link does not allow the frame. -/
theorem acceptedOn_facts (bs : List Byte) (x : LemPort) :
    let y := acceptedOn bs x
    let v : Fin 4 := Fin.ofNat 4 (byteAt bs 1)
    y.darn = x.darn ∧ y.credit = x.credit.set v (creditTake x.credit[v]) ∧
    y.ctr[1] = satInc64 x.ctr[1] 1 ∧ y.ctr[3] = x.ctr[3] ∧ y.ctr[4] = x.ctr[4] ∧ y.ctr[5] = x.ctr[5] ∧
    y.ctr[2] = (if lemAllowed x bs then x.ctr[2] else satInc64 x.ctr[2] 1) ∧
    y.txq = x.txq ∧ y.reads = x.reads ∧ y.rings = x.rings ∧ y.pocket = x.pocket ∧ y.phase = x.phase ∧ y.hello = x.hello := by
  unfold acceptedOn creditTaken counted
  cases lemAllowed x bs <;> simp

/-- The credits after a frame's returns are noted and its own buffer is taken. -/
theorem credit_told_taken (bs : List Byte) (k : Vector Credit 4) (n : Nat) (v : Fin 4) :
    ((k.mapFinIdx fun i cr _ => { cr with ret := bs.getD (0x0C + i) 0 }).set (Fin.ofNat 4 n)
      (creditTake (k.mapFinIdx fun i cr _ => { cr with ret := bs.getD (0x0C + i) 0 })[Fin.ofNat 4 n]))[v] =
      (let cr := { k[v] with ret := bs.getD (0x0C + v.val) 0 }
       if v.val = n % 4 then { cr with recv := cr.recv + 1, freed := cr.freed + 1 } else cr) := by
  by_cases own : v.val = n % 4
  · have named : Fin.ofNat 4 n = v := Fin.ext own.symm
    subst named
    simp [creditTake]
  · have other : n % 4 ≠ v.val := fun same => own same.symm
    simp [own, other]

/-- Whether a frame is allowed does not depend on what it tells of acknowledgements and credits. -/
theorem lemAllowed_told (bs : List Byte) (w : LemPort) (dn e : Darn LemTx) :
    lemAllowed { creditsTold bs { w with darn := dn } with darn := e } bs = (lemFieldsOk bs && hadCredit w.credit[Fin.ofNat 4 (byteAt bs 1)]) := by
  simp [lemAllowed, creditsTold, hadCredit]

theorem darnReplay_below {α : Type} {dn : Darn α} (asked : Bool) (below : dn.retries < 7) :
    darnReplay asked dn = some { dn with retries := dn.retries + 1, replay := dn.held, asked := asked } := if_neg (by omega)

theorem darnReplay_limit {α : Type} {dn : Darn α} (asked : Bool) (limit : dn.retries = 7) : darnReplay asked dn = none := if_pos (by omega)

/-- A replay below the limit: of everything held, and counted (R234, R383). -/
theorem lemReplay_below {d : Dev} {p : LPort} (asked : Bool) (below : d.lem[p].darn.retries < 7) :
    lemReplay d p asked = some (bumpLem (modP d p fun x => { x with
      darn := { x.darn with retries := x.darn.retries + 1, replay := x.darn.held, asked := asked } }) p 5) := by
  rw [lemReplay, darnReplay_below asked below]
  exact congrArg (fun d => some (bumpLem d p 5)) (modP_congr rfl)

theorem lemReplay_limit {d : Dev} {p : LPort} (asked : Bool) (limit : d.lem[p].darn.retries = 7) : lemReplay d p asked = none := by
  rw [lemReplay, darnReplay_limit asked limit]

/-- Settles O19: the row composed for each kind of frame, and the timer's two ends. -/
theorem framesReachALeafPort : Obligations.FramesReachALeafPort := by
  unfold Obligations.FramesReachALeafPort
  intro s p raw fixes running up bytes t x undone dn
  let fed : Dev := modP s.dev p (fecCounted (fecFixed fixes))
  have darn : fed.lem[p].darn = x.darn := by rw [modP_at, fecCounted_darn]
  have row : exec (.lemiusFrameReceive p raw fixes) s =
      .next { s with dev := if crcOk bytes = true then (if (lemGood fed p bytes).2 then epilogue s.cfg (lemDown s.cfg (lemGood fed p bytes).1 p) else (lemGood fed p bytes).1) else lemBad s.dev p } :=
    execLemiusFrameReceive_up running up raw fixes
  refine ⟨fun bad => ?bad, fun good seqd next asksNone => ?accept, fun good idle fields asks below clean kept => ?asks, fun runs below => ?timer, fun runs limit => ?limit⟩
  case bad =>
    rw [row, bad, if_neg (by decide)]
    rfl
  case accept =>
    have rx : darnRx dn true t = (.accept, { dn with last := t.seq, ackDue := true, nackOut := false, nackDue := false }) :=
      (darnComparesEachNumberWithTheLast dn t).2.2.1 seqd next
    have told := lemGood_accept (d := fed) (p := p) (bs := bytes)
      (by rw [darn]; exact congrArg Prod.fst rx) (by rw [darn]; exact asksNone)
    rw [row, good, if_pos rfl, told, if_neg Bool.false_ne_true, modP_modP, modP_const]
    refine ⟨_, rfl, ?_⟩
    obtain ⟨darn0, credit0, c1, c2, c3, c4, c5, txq0, reads0, rings0, pocket0, phase0, hello0⟩ := uncounted_facts (fecFixed fixes) t x
    rw [fecCounted_darn]
    change let y := acceptedOn bytes { creditsTold bytes { uncounted t (fecCounted (fecFixed fixes) x) with darn := dn } with darn := (darnRx dn true t).2 }; _
    generalize uncounted t (fecCounted (fecFixed fixes) x) = w at *
    obtain ⟨darn1, credit1, a1, a3, a4, a5, a2, txq1, reads1, rings1, pocket1, phase1, hello1⟩ :=
      acceptedOn_facts bytes { creditsTold bytes { w with darn := dn } with darn := (darnRx dn true t).2 }
    intro y
    refine ⟨darn1.trans (congrArg Prod.snd rx), fun v => ?_, a1.trans (congrArg (satInc64 · 1) c1), a3.trans c3, a4.trans c4, a5.trans c5, ?_, ?_,
      txq1.trans txq0, reads1.trans reads0, rings1.trans rings0, pocket1.trans pocket0, phase1.trans phase0, hello1.trans hello0⟩
    · have credit : y.credit[v] = _ := congrArg (fun k : Vector Credit 4 => k[v]) credit1
      rw [show x.credit = w.credit from credit0.symm]
      exact credit.trans (credit_told_taken bytes w.credit (byteAt bytes 1) v)
    · intro fields had
      have allowed : lemAllowed { creditsTold bytes { w with darn := dn } with darn := (darnRx dn true t).2 } bytes = true := by
        rw [lemAllowed_told, fields, show w.credit = x.credit from credit0, had, Bool.and_self]
      exact (a2.trans (if_pos allowed)).trans c2
    · intro refused
      have allowed : ¬lemAllowed { creditsTold bytes { w with darn := dn } with darn := (darnRx dn true t).2 } bytes = true := by
        rw [lemAllowed_told, show w.credit = x.credit from credit0, Bool.and_eq_true]
        rintro ⟨fields, had⟩
        rcases refused with none | none
        · exact absurd (fields.symm.trans none) (by decide)
        · exact absurd (had.symm.trans none) (by decide)
      exact (a2.trans (if_neg allowed)).trans (congrArg (satInc64 · 1) c2)
  case asks =>
    have same : fed = s.dev := modP_self (by rw [clean]; rfl)
    have stays : lemUncount s.dev p t = s.dev := if_neg (by rw [show withdraws s.dev.lem[p].darn t = false from kept]; decide)
    have rx : darnRx dn true t = (.idle, dn) := (darnComparesEachNumberWithTheLast dn t).2.1 idle
    have told : lemGood s.dev p bytes = lemAsked (modP (lemTold s.dev p bytes dn) p fun x => { x with darn := dn }) p true := by
      change lemAsked (lemAct (modP (lemTold (lemUncount s.dev p t) p bytes (applyTail (lemUncount s.dev p t).lem[p].darn t).1) p
        fun x => { x with darn := (darnRx (applyTail (lemUncount s.dev p t).lem[p].darn t).1 true t).2 }) p bytes
        (darnRx (applyTail (lemUncount s.dev p t).lem[p].darn t).1 true t).1) p (applyTail (lemUncount s.dev p t).lem[p].darn t).2 = _
      rw [stays]
      change lemAsked (lemAct (modP (lemTold s.dev p bytes dn) p fun x => { x with darn := (darnRx dn true t).2 }) p bytes (darnRx dn true t).1) p
        (applyTail x.darn t).2 = _
      rw [rx, asks, lemAct, fields, if_pos rfl]
    have replay := lemReplay_below (d := modP (lemTold s.dev p bytes dn) p fun x => { x with darn := dn }) (p := p) true (by rw [modP_at]; exact below)
    rw [row, same, good, if_pos rfl, told, lemAsked, if_pos rfl, replay]
    dsimp only
    rw [if_neg Bool.false_ne_true, lemTold, lemCredits, modP_modP, modP_modP, modP_modP, modP_modP]
  case timer =>
    change execLemiusReplayTimer p s = _
    rw [execLemiusReplayTimer, onDev_alive running, if_pos ⟨up, runs⟩, lemReplay_below false below]
  case limit =>
    change execLemiusReplayTimer p s = _
    rw [execLemiusReplayTimer, onDev_alive running, if_pos ⟨up, runs⟩, lemReplay_limit false limit]

end Sys2Proof.Machine
end

section
/-! What the frames of a leaf do to its port: the hello, nudges and read completions (R236 to R243, R249, R316). -/
namespace Sys2Proof.Machine
open Sys2Proof

/-! ## The hello -/

/-- The result of a HELLO, in the order in which it is decided (R181, R237, R703). -/
theorem helloResultOf_eq (x : LemPort) (m : HelloMsg) :
    helloResultOf x m = if helloValid m = false then 1 else match x.outOfUse with
      | some q => q
      | none => if x.fixedCount = none ∨ x.fixedCount = some m.cores then 0 else 2 := by
  unfold helloResultOf
  cases helloValid m with
  | false => rfl
  | true =>
    cases x.outOfUse with
    | some q => rfl
    | none => cases x.fixedCount <;> simp

/-- Whether a HELLO puts its port out of use: the first result that is not 00h does, and it stays. -/
theorem outOfUse_eq (o : Option Byte) (r : Byte) :
    (match o with
      | some q => some q
      | none => if r = 0 then none else some r) = if o = none ∧ r ≠ 0 then some r else o := by
  cases o with
  | some q => simp
  | none => by_cases zero : r = 0 <;> simp [zero]

/-- Settles O20: the row's two branches, and what taking a HELLO writes. -/
theorem aHelloIsAnswered : Obligations.AHelloIsAnswered := by
  unfold Obligations.AHelloIsAnswered
  intro s p f running up isHello x m r
  have row : exec (.hello p f) s =
      .next { s with dev := if x.helloSeen || !allZero f.payload 2 2 then lemDiscard s.dev p else takeHello s.cfg s.dev p m } := by
    change execHello p f s = _
    rw [execHello, onDev_alive running, up, isHello]
    rfl
  have result : helloResultOf x m = r := helloResultOf_eq x m
  refine ⟨fun further => ?_, fun first reserved => ?_⟩
  · rw [row, if_pos]
    · rfl
    · rcases further with seen | reserved
      · rw [show x.helloSeen = true from seen]; rfl
      · rw [reserved, Bool.not_false, Bool.or_true]
  · rw [row, show x.helloSeen = false from first, reserved, if_neg (by decide), takeHello, result, pushTx, modP_modP]
    refine congrArg (fun d => Host.Outcome.next { s with dev := d }) (modP_congr ?_)
    exact congrArg (fun o : Option Byte => { x with
      helloSeen := true, outOfUse := o, hello := if helloValid m then m.info else x.hello, reported := m.cores
      credit := if helloValid m then x.credit.mapFinIdx fun k cr _ => { cr with lim := m.adv.getD k 0 } else x.credit
      txq := x.txq ++ [({ vc := 3, stream := 8, body := .frame (.helloAck (if r = 0 then min m.cores (coreCap (code s.cfg 10)) else 0) r.toNat) } : TxItem)] })
      (outOfUse_eq x.outOfUse r)

/-! ## Nudges -/

/-- A count on a port leaves what is waiting and outstanding there. -/
theorem readsOut_bumpLem (d : Dev) (p : LPort) (n : Fin 12) (r : RingNo) (f : ReadWhy → Bool) : readsOut (bumpLem d p n) p r f = readsOut d p r f := by
  rw [bumpLem_counted, readsOut, modP_at]
  rfl

theorem ringAt_bumpLem (d : Dev) (p : LPort) (n : Fin 12) (q : LPort) (r : RingNo) : ringAt (bumpLem d p n) q r = ringAt d q r := by
  rw [bumpLem_counted]
  exact ringAt_modP d p q r _ fun _ => rfl

/-- A change of a ring leaves what is waiting and outstanding on its port. -/
theorem readsOut_modR (d : Dev) (p : LPort) (r : RingNo) (g : Ring → Ring) (q : RingNo) (f : ReadWhy → Bool) :
    readsOut (modR d p r g) p q f = readsOut d p q f := by
  rw [readsOut, modR_modP, modP_at]
  rfl

theorem headerAddr_bumpLem (d : Dev) (p : LPort) (n : Fin 12) (r : RingNo) : headerAddr (bumpLem d p n) p r = headerAddr d p r := by
  rw [bumpLem_counted, headerAddr, modP_at]
  rfl

/-- A read of one slot goes into the port's queue. -/
theorem readSlots_eq (d : Dev) (p : LPort) (r : RingNo) (i : W16) (n : Nat) :
    readSlots d p r i n = pushTx d p [{ vc := 0, stream := r.val, body := .read { why := .slots r i n, vc := 0, addr :=
      (ringAt d p r).hdr.ringBase + 128 * (i.toNat % 2 ^ (ringAt d p r).hdr.ringLog2), size := 128 * n } }] := rfl

/-- The nudge of a ring that waits, with no read of its slot out (R316). -/
theorem nudgeNow_reads {c : Cfg} {d : Dev} {p : LPort} {r : RingNo} (run : (ringAt d p r).st = .running) (waits : (ringAt d p r).waiting = true)
    (out : readsOut d p r isSlots = false) :
    nudgeNow c d p r = readSlots (modR d p r fun x => { x with refetchPending := true, refetches := 0, retry := x.retry.filter fun w => !isSlots w }) p r
      (ringAt d p r).nextFetch 1 := by
  unfold nudgeNow
  simp only [run, waits, out, if_true, Bool.false_eq_true, if_false]
  rw [readWaiting, readsOut_modR, out, if_neg Bool.false_ne_true, modR_modR, modR_at]

/-- Settles O21: the row's guards, then the ring's state. -/
theorem nudgesMakeARingFetch : Obligations.NudgesMakeARingFetch := by
  unfold Obligations.NudgesMakeARingFetch
  intro s p f running up isNudge d r y
  have row : exec (.nudge p f) s = .next { s with dev :=
      if !(s.dev.lem[p].helloDone && s.dev.lem[p].present) || byteAt f.payload 0 != p.val || decide (7 < byteAt f.payload 1) then lemDiscard s.dev p
      else if !s.dev.lem[p].started then s.dev else nudgeRing s.cfg d p r } := by
    change execNudge p f s = _
    rw [execNudge, onDev_alive running]
    dsimp only
    rw [up, isNudge]
    rfl
  refine ⟨fun refused => ?refused, fun helloDone present named ring => ⟨fun before => ?before, fun started bs kept => ?kept, fun started unread => ?judged⟩⟩
  case refused =>
    rw [row, if_pos]
    · rfl
    · rcases refused with no | no | no | no
      · rw [no, Bool.false_and, Bool.not_false, Bool.true_or, Bool.true_or]
      · rw [no, Bool.and_false, Bool.not_false, Bool.true_or, Bool.true_or]
      · rw [bne_iff_ne.2 no, Bool.or_true, Bool.true_or]
      · rw [decide_eq_true no, Bool.or_true]
  all_goals
    have honoured : (!(s.dev.lem[p].helloDone && s.dev.lem[p].present) || byteAt f.payload 0 != p.val || decide (7 < byteAt f.payload 1)) = false := by
      rw [helloDone, present, named, bne_self_eq_false, decide_eq_false (by omega)]
      rfl
    rw [honoured, if_neg Bool.false_ne_true] at row
  case before =>
    rw [row, before, Bool.not_false, if_pos rfl]
  all_goals
    rw [started, Bool.not_true, if_neg Bool.false_ne_true, nudgeRing] at row
    have ringOf : ringAt d p r = y := ringAt_bumpLem s.dev p 10 p r
    have outOf : readsOut d p r isSlots = readsOut s.dev p r isSlots := readsOut_bumpLem s.dev p 10 r isSlots
  case kept =>
    rw [row, takePending_some (by rw [ringOf]; exact kept)]
  case judged =>
    rw [takePending_none (by rw [ringOf]; exact unread)] at row
    refine ⟨fun run waits out => ?out, fun run waits out => ?reads, fun run goes => ?goes, fun stays adopts => ?adopts, fun stays adopts free busy => ?header⟩
    case out =>
      rw [row, nudgeNow]
      simp only [ringOf, outOf, run, waits, out, if_true]
    case reads =>
      rw [row, nudgeNow_reads (by rw [ringOf]; exact run) (by rw [ringOf]; exact waits) (outOf.trans out), readSlots_eq, modR_at, ringOf]
    case goes =>
      rw [row, nudgeNow]
      simp only [ringOf, run, goes, if_true, Bool.false_eq_true, if_false]
    case adopts =>
      rw [row, nudgeNow]
      simp only [ringOf, stays, Option.isSome_iff_ne_none.2 adopts, if_true, if_false]
    case header =>
      have opens : headerOpen s.cfg d p r = true := by
        have recov : d.recov = s.dev.recov := (congrArg Dev.recov (bumpLem_counted s.dev p 10)).trans rfl
        have idle : ((ringAt d p r).st != .stalled || d.recov.restart[tenantOf s.cfg p] == .none) = true := by
          rw [ringOf]
          by_cases stall : y.st = .stalled
          · rw [Bool.or_eq_true, beq_iff_eq]
            exact .inr (by rw [recov]; exact free stall)
          · rw [bne_iff_ne.2 stall, Bool.true_or]
        rw [headerOpen, idle, ringOf, bne_iff_ne.2 stays, Option.isNone_iff_eq_none.2 adopts]
        rfl
      rw [row, nudgeNow]
      simp only [ringOf, stays, adopts, Option.isSome_none, if_false, opens, if_true, Bool.false_eq_true]
      rw [readHeaderAgain, busy, if_neg Bool.false_ne_true, wantRead, headerAddr_bumpLem]
      rfl

/-! ## Read completions -/

/-- A timeout of a header's read: counted for the port and the ring, its tag retired, and the header to be read again (R243, R319). -/
theorem readFails_header {c : Cfg} {d : Dev} {p : LPort} {o : ReadOut} {r : RingNo} (keep : o.discard = false) (vc : o.want.vc = 0)
    (why : o.want.why = .header r) : ∃ f, readFails c d p o true = modP d p f ∧ (f d.lem[p]).ctr[7] = satInc64 d.lem[p].ctr[7] 1 ∧
      (f d.lem[p]).retired = d.lem[p].retired ∧ (f d.lem[p]).reads = (d.lem[p].reads.filter fun q => q.tag != o.tag) ∧
      (f d.lem[p]).rings[r].retry = ((ringAt d p r).retry.filter fun w => !isHeader w) ++ [.header r] := by
  have shape : readFails c d p o true = modR (bumpRing (bumpLem (endRead d p o.tag) p 7) p r true) p r fun x => { x with
      retry := (x.retry.filter fun w => !isHeader w) ++ [.header r] } := by
    rw [readFails, keep, if_neg Bool.false_ne_true, if_pos vc, countFailed, if_pos vc, why, readBad]
    rfl
  obtain ⟨m, k, ring⟩ := bumpRing_eq (bumpLem (endRead d p o.tag) p 7) p r true
  rw [shape, ring, bumpLem_counted, endRead, modR_modP, modP_modP, modP_modP, modP_modP]
  refine ⟨_, rfl, ?_, ?_, ?_, ?_⟩ <;> simp [counted, ringAt]

/-- Settles O23: the row's branches, and what each end of a read does to its port. -/
theorem readCompletionsAreMatched : Obligations.ReadCompletionsAreMatched := by
  unfold Obligations.ReadCompletionsAreMatched
  intro s p f running up kind find ended
  have row : exec (.readCpl p f) s = .next { s with dev := epilogue s.cfg (takeCpl s.cfg s.dev p f) } := by
    change execReadCpl p f s = _
    rw [execReadCpl, onDev_alive running, if_pos ⟨up, kind⟩]
  have fits : ∀ o, find = some o → cplFits o f = true → f.status = 0 → takeCpl s.cfg s.dev p f =
      if f.last then (if o.discard then discardedEnds (ended o.tag) p o.want.why else readGood s.cfg (ended o.tag) p o.want.why (o.got ++ f.payload))
      else modP s.dev p fun x => { x with reads := x.reads.map fun q => if q.tag = o.tag then { q with got := o.got ++ f.payload } else q } := by
    intro o found fit status
    rw [takeCpl, show (s.dev.lem[p].reads.find? fun o => o.tag == f.addr.toNat % 4096) = some o from found]
    dsimp only
    rw [fit, Bool.not_true, if_neg Bool.false_ne_true, if_neg (not_not.2 status)]
    rfl
  have timeout : ∀ (tag : BitVec 10) (o : ReadOut), (s.dev.lem[p].reads.find? fun o => o.tag == tag.toNat) = some o →
      exec (.readTimeout p tag) s =
        .next { s with dev := epilogue s.cfg (readFails s.cfg (modP s.dev p fun x => { x with retired := x.retired ++ [tag.toNat] }) p o true) } := by
    intro tag o found
    change execReadTimeout p tag s = _
    rw [execReadTimeout, onDev_alive running, found]
  refine ⟨fun none => ?unknown, fun o found misfit => ?misfit, fun o found fit status more => ?more, fun o r found fit status last keep why => ?header,
    fun o r i n found fit status last keep why => ?slots, fun tag o found drop vc => ?dropped, fun tag o r found keep vc why => ?failed, fun tag => ?retired⟩
  case unknown =>
    rw [row, takeCpl, show (s.dev.lem[p].reads.find? fun o => o.tag == f.addr.toNat % 4096) = Option.none from none]
    rfl
  case misfit =>
    rw [row, takeCpl, show (s.dev.lem[p].reads.find? fun o => o.tag == f.addr.toNat % 4096) = some o from found]
    dsimp only
    rw [misfit, Bool.not_false, if_pos rfl]
    rfl
  case more => rw [row, fits o found fit status, more, if_neg Bool.false_ne_true]
  case header =>
    rw [fits o found fit status, last, if_pos rfl, keep, if_neg Bool.false_ne_true, why, readGood] at row
    have ringOf : ringAt (ended o.tag) p r = ringAt s.dev p r := ringAt_modP s.dev p p r _ fun _ => rfl
    refine ⟨fun none => ?_, fun bs kept => ?_⟩
    · rw [row, takePending_none (by rw [ringOf]; exact none)]
    · rw [row, takePending_some (by rw [ringOf]; exact kept)]
  case slots =>
    rw [row, fits o found fit status, last, if_pos rfl, keep, if_neg Bool.false_ne_true, why]
    rfl
  case dropped =>
    rw [timeout tag o found, readFails, drop, if_pos rfl, countFailed, if_neg (by rw [vc]; decide), endRead, modP_modP]
    rfl
  case failed =>
    obtain ⟨g, answer, fails, retired, reads, retry⟩ :=
      readFails_header (c := s.cfg) (d := modP s.dev p fun x => { x with retired := x.retired ++ [tag.toNat] }) (p := p) keep vc why
    rw [modP_modP] at answer
    rw [modP_at] at fails retired reads retry
    refine ⟨_, (timeout tag o found).trans (by rw [answer]), ?_⟩
    obtain ⟨port, others, rest⟩ := modP_only (d := s.dev) (p := p) (f := fun x => g { x with retired := x.retired ++ [tag.toNat] }) rfl
    refine ⟨?_, ?_, ?_, ?_, rest, others⟩
    · rw [port, fails]
    · rw [port, retired]
    · rw [port, reads]
    · rw [ringAt_port, retry, ringAt_port]
      rfl
  case retired =>
    change execTagRetireEnd p tag s = _
    rw [execTagRetireEnd, onDev_alive running]

end Sys2Proof.Machine
end

section
/-! The Trellis link: training and alignment, what the bytes of a frame do, and how a link goes down (R196, R270 to R274, R283, R284, R293). -/
namespace Sys2Proof.Machine
open Sys2Proof

/-! ## Alignment blocks -/

/-- A byte of an alignment block. -/
theorem byteAt_alignBytes (n : W16) (k : Nat) (inside : k < 256) : byteAt (alignBytes n) k =
    (if k / 16 < 12 then BitVec.ofNat 8 (0x3C + 16 * (k % 16)) else if k / 16 = 12 then BitVec.ofNat 8 n.toNat
      else if k / 16 = 13 then BitVec.ofNat 8 (n.toNat / 256) else 0).toNat := by
  simp [byteAt, alignBytes, List.getD_eq_getElem?_getD, List.getElem?_map, List.getElem?_range inside]

/-- The count that a block carries is read back from it. -/
theorem count_alignBytes (n : W16) : BitVec.ofNat 16 (byteAt (alignBytes n) 192 + 256 * byteAt (alignBytes n) 208) = n := by
  have low : byteAt (alignBytes n) 192 = n.toNat % 256 := (byteAt_alignBytes n 192 (by decide)).trans (BitVec.toNat_ofNat _ _)
  have high : byteAt (alignBytes n) 208 = n.toNat / 256 % 256 := (byteAt_alignBytes n 208 (by decide)).trans (BitVec.toNat_ofNat _ _)
  have bound : n.toNat < 65536 := n.isLt
  apply BitVec.eq_of_toNat_eq
  rw [low, high, BitVec.toNat_ofNat]
  omega

/-! ## Training -/

/-- Step 10 waits until it is due. -/
theorem tryStep10_not {c : Cfg} {ser : BitVec 48} {d : Dev} (early : step10Due c d = false) : tryStep10 c ser d = d := by
  rw [tryStep10, early, Bool.not_false, if_pos rfl]

/-- Settles O24: each row of a Trellis port is one change of that port; where a port trains or falls silent, step 10 is tried. -/
theorem trellisPortsTrainAndAlign : Obligations.TrellisPortsTrainAndAlign := by
  unfold Obligations.TrellisPortsTrainAndAlign
  intro s i running
  refine ⟨fun h v started training down leads follows going => ?up, fun training down => ?timeout, fun started training down leads => ?silent,
    fun up due => ?align, fun n up => ?aligned, fun bytes up other => ?misaligned⟩
  case up =>
    refine ⟨trlLinkUp s.dev i h v, ?_, tryStep10_not, rfl⟩
    change execTrellisLinkUp i h v s = _
    rw [execTrellisLinkUp, onDev_alive running]
    dsimp only
    rw [started, training, down, leads, follows, stopped, going]
    rfl
  case timeout =>
    change execTrellisTrainingTimeout i s = _
    rw [execTrellisTrainingTimeout, onDev_alive running, if_pos ⟨training, by rw [down]; rfl⟩]
  case silent =>
    change execTrellisPortSilent i s = _
    rw [execTrellisPortSilent, onDev_alive running]
    dsimp only
    rw [started, training, down, leads]
    rfl
  case align =>
    change execAlignmentBlock i s = _
    rw [execAlignmentBlock, onDev_alive running, if_pos]
    rw [alignDue, up, decide_eq_true due]
    rfl
  case aligned =>
    change execAlignmentBlockReceive i (alignBytes n) s = _
    rw [execAlignmentBlockReceive, onDev_alive running]
    dsimp only
    rw [if_pos up, count_alignBytes]
    simp only [if_true]
  case misaligned =>
    change execAlignmentBlockReceive i bytes s = _
    rw [execAlignmentBlockReceive, onDev_alive running]
    dsimp only
    rw [if_pos up]
    simp only [other, if_false]

/-! ## The bytes of a frame on a Trellis port

Counting on a Trellis port may mark a page cause of the leaf ports, so what a frame does is said of the port, up to those causes. -/

/-- One Trellis port has become `y`; of the rest only page causes of leaf ports may differ. -/
def Became (d : Dev) (i : TPort) (y : TrlPort) (e : Dev) : Prop := CausesOnly (modT d i fun _ => y) e

theorem Became.start (d : Dev) (i : TPort) : Became d i d.trl[i] d := by
  have same : modT d i (fun _ => d.trl[i]) = d := by
    have e : d.trl.set i d.trl[i] = d.trl := by simp
    unfold modT
    rw [e]
  unfold Became
  rw [same]
  exact CausesOnly.refl d

theorem Became.port {d e : Dev} {i : TPort} {y : TrlPort} (b : Became d i y e) : e.trl[i] = y := by
  have trl : e.trl = (modT d i fun _ => y).trl := (congrArg Dev.trl b.1).trans rfl
  rw [trl]
  exact modT_at d i _

/-- What the change of one Trellis port leaves as it was. -/
theorem Became.quiet {d e : Dev} {i : TPort} {y : TrlPort} (b : Became d i y e) : e = { d with lem := e.lem, trl := e.trl } ∧
    (∀ j : TPort, j ≠ i → e.trl[j] = d.trl[j]) ∧ ∀ p : LPort, { e.lem[p] with causes := 0 } = { d.lem[p] with causes := 0 } := by
  have trl : e.trl = (modT d i fun _ => y).trl := (congrArg Dev.trl b.1).trans rfl
  refine ⟨?_, fun j other => ?_, b.2⟩
  · exact b.1.trans (by rw [trl]; rfl)
  · rw [trl]
    exact modT_other d _ other

theorem CausesOnly.modT {d e : Dev} (b : CausesOnly d e) (i : TPort) (f : TrlPort → TrlPort) : CausesOnly (modT d i f) (modT e i f) := by
  have trl : e.trl = d.trl := (congrArg Dev.trl b.1).trans rfl
  refine ⟨?_, b.2⟩
  have only := b.1
  unfold Machine.modT
  dsimp only
  rw [trl]
  exact congrArg (fun x : Dev => { x with trl := d.trl.set i (f d.trl[i]) }) only

/-- A change of the port. -/
theorem Became.change {d e : Dev} {i : TPort} {y : TrlPort} (b : Became d i y e) (f : TrlPort → TrlPort) : Became d i (f y) (modT e i f) := by
  have next := CausesOnly.modT b i f
  rw [modT_modT] at next
  exact next

/-- A count on the port. -/
theorem Became.count {d e : Dev} {i : TPort} {y : TrlPort} (b : Became d i y e) (n : Fin 7) :
    ∃ a, Became d i { y with ctr := y.ctr.set n (satInc64 y.ctr[n] 1), sat := a } (bumpTrl e i n) := by
  obtain ⟨a, only⟩ := bumpTrl_eq e i n
  exact ⟨a, (b.change fun x => { x with ctr := x.ctr.set n (satInc64 x.ctr[n] 1), sat := a }).trans only⟩

/-- The fields of a Trellis port that counting leaves. -/
structure CountOnly (x y : TrlPort) : Prop where
  darn : y.darn = x.darn
  credit : y.credit = x.credit
  txq : y.txq = x.txq
  st : y.st = x.st
  linkUp : y.linkUp = x.linkUp

/-- Uncounting a withdrawn replay. -/
theorem Became.uncount {d e : Dev} {i : TPort} {y : TrlPort} (b : Became d i y e) (t : Tail) :
    ∃ z, Became d i z (trlUncount e i t) ∧ CountOnly y z ∧ z.ctr[1] = y.ctr[1] ∧ z.ctr[5] = if withdraws y.darn t then y.ctr[5] - 1 else y.ctr[5] := by
  unfold trlUncount
  rw [b.port]
  by_cases w : withdraws y.darn t = true
  · rw [if_pos w]
    exact ⟨_, b.change _, ⟨rfl, rfl, rfl, rfl, rfl⟩, by simp, by simp [w]⟩
  · rw [if_neg w, if_neg w]
    exact ⟨y, b, ⟨rfl, rfl, rfl, rfl, rfl⟩, rfl, rfl⟩

/-- A frame that is accepted: counted, its buffer taken, and a discard where the link does not allow it (R78, R283, R302). -/
theorem Became.accept {d e : Dev} {i : TPort} {y : TrlPort} (b : Became d i y e) (bs : List Byte) :
    ∃ z, Became d i z (trlAccept e i bs) ∧ z.darn = y.darn ∧ z.txq = y.txq ∧ z.st = y.st ∧ z.linkUp = y.linkUp ∧
      z.credit = y.credit.set (fin8 (byteAt bs 1 % 8)) (creditTake y.credit[fin8 (byteAt bs 1 % 8)]) ∧ z.ctr[1] = satInc64 y.ctr[1] 1 ∧ z.ctr[5] = y.ctr[5] := by
  obtain ⟨a, counted⟩ := b.count 1
  have taken := counted.change fun x => { x with credit := x.credit.set (fin8 (byteAt bs 1 % 8)) (creditTake x.credit[fin8 (byteAt bs 1 % 8)]) }
  unfold trlAccept trlDiscard
  by_cases allowed : trlAllowed e.trl[i] bs = true
  · rw [if_pos allowed]
    exact ⟨_, taken, rfl, rfl, rfl, rfl, rfl, by simp, by simp⟩
  · rw [if_neg allowed]
    obtain ⟨a', discarded⟩ := taken.count 2
    exact ⟨_, discarded, rfl, rfl, rfl, rfl, rfl, by simp, by simp⟩

/-- A change of the credits of one channel, named by a number. -/
theorem getElem_set_fin8 (k : Vector Credit 8) (n : Nat) (f : Credit → Credit) (v : Fin 8) :
    (k.set (fin8 n) (f k[fin8 n]))[v] = if v.val = n % 8 then f k[v] else k[v] := by
  by_cases own : v.val = n % 8
  · have named : fin8 n = v := Fin.ext own.symm
    subst named
    simp [own]
  · have other : (fin8 n).val ≠ v.val := fun same => own same.symm
    simp [own, other]

/-- What a port becomes of a frame with a valid CRC, up to Darn's verdict: the FEC's count, the withdrawn replay, and what the frame tells (R225, R254, R283). -/
theorem Became.told (d : Dev) (i : TPort) (fixed : Bool) (bs : List Byte) (dn e : Darn TrlFrame) :
    ∃ z, Became d i z (modT (trlTold (trlUncount (if fixed then bumpTrl d i 3 else d) i (parseTail bs)) i bs dn) i fun x => { x with darn := e }) ∧
      (trlUncount (if fixed then bumpTrl d i 3 else d) i (parseTail bs)).trl[i].darn = d.trl[i].darn ∧
      z.darn = e ∧ z.txq = d.trl[i].txq ∧ z.st = d.trl[i].st ∧ z.linkUp = d.trl[i].linkUp ∧ z.ctr[1] = d.trl[i].ctr[1] ∧
      z.ctr[5] = (if withdraws d.trl[i].darn (parseTail bs) then d.trl[i].ctr[5] - 1 else d.trl[i].ctr[5]) ∧
      z.credit = d.trl[i].credit.set (fin8 (byteAt bs 3)) { d.trl[i].credit[fin8 (byteAt bs 3)] with ret := bs.getD 4 0 } := by
  have fec : ∃ y, Became d i y (if fixed then bumpTrl d i 3 else d) ∧ CountOnly d.trl[i] y ∧ y.ctr[1] = d.trl[i].ctr[1] ∧ y.ctr[5] = d.trl[i].ctr[5] := by
    cases fixed with
    | false => exact ⟨_, Became.start d i, ⟨rfl, rfl, rfl, rfl, rfl⟩, rfl, rfl⟩
    | true =>
      obtain ⟨a, counted⟩ := (Became.start d i).count 3
      exact ⟨_, counted, ⟨rfl, rfl, rfl, rfl, rfl⟩, by simp, by simp⟩
  obtain ⟨y, became, only, one, five⟩ := fec
  obtain ⟨z, uncounted, kept, one', five'⟩ := became.uncount (parseTail bs)
  rw [only.darn, five] at five'
  have told := ((uncounted.change fun x => { x with darn := dn }).change fun x =>
    { x with credit := x.credit.set (fin8 (byteAt bs 3)) { x.credit[fin8 (byteAt bs 3)] with ret := bs.getD 4 0 } }).change fun x => { x with darn := e }
  refine ⟨_, told, ?_, rfl, kept.txq.trans only.txq, kept.st.trans only.st, kept.linkUp.trans only.linkUp, one'.trans one, five', ?_⟩
  · rw [uncounted.port]
    exact kept.darn.trans only.darn
  · have credit : z.credit = d.trl[i].credit := kept.credit.trans only.credit
    dsimp only
    rw [credit]

/-- A frame's bytes on a port that is up, with a valid CRC: the frame that is accepted and asks for no replay. -/
theorem trlRx_accept {d : Dev} {i : TPort} {bs : List Byte} {dn e : Darn TrlFrame} {fixed : Bool} (up : d.trl[i].linkUp = true) (good : crcOk bs = true)
    (applied : applyTail d.trl[i].darn (parseTail bs) = (dn, false)) (rx : darnRx dn true (parseTail bs) = (.accept, e)) :
    trlRx d i bs fixed = (trlAccept (modT (trlTold (trlUncount (if fixed then bumpTrl d i 3 else d) i (parseTail bs)) i bs dn) i fun x => { x with darn := e }) i bs, false) := by
  obtain ⟨-, -, darn, -⟩ := Became.told d i fixed bs dn e
  rw [trlRx, up, good, Bool.not_true, if_neg Bool.false_ne_true, if_neg Bool.false_ne_true, trlGood]
  rw [darn, applied]
  rw [rx]
  rfl

theorem trlReplay_below {d : Dev} {i : TPort} (asked : Bool) (below : d.trl[i].darn.retries < 7) :
    trlReplay d i asked = some (bumpTrl (modT d i fun x => { x with
      darn := { x.darn with retries := x.darn.retries + 1, replay := x.darn.held, asked := asked } }) i 5) := by
  rw [trlReplay, darnReplay_below asked below]
  exact congrArg (fun d => some (bumpTrl d i 5)) (modT_congr rfl)

theorem trlReplay_limit {d : Dev} {i : TPort} (asked : Bool) (limit : d.trl[i].darn.retries = 7) : trlReplay d i asked = none := by
  rw [trlReplay, darnReplay_limit asked limit]

/-- Settles O25: the row's steps in turn, each up to page causes. -/
theorem framesReachATrellisPort : Obligations.FramesReachATrellisPort := by
  unfold Obligations.FramesReachATrellisPort
  intro s i raw fixes running up bytes t x undone dn quiet
  have row : ∀ D, trlRx s.dev i bytes (fecFixed fixes) = (D, false) → exec (.trellisFrameReceive i raw fixes) s = .next { s with dev := D } := by
    intro D rx
    change execTrellisFrameReceive i raw fixes s = _
    rw [execTrellisFrameReceive, onDev_alive running]
    dsimp only
    rw [show trlRx s.dev i (fecApply raw fixes) (fecFixed fixes) = (D, false) from rx, if_neg Bool.false_ne_true]
  refine ⟨fun bad => ?bad, fun good seqd next asksNone => ?accept, fun runs below => ?timer, fun runs limit => ?limit⟩
  case bad =>
    obtain ⟨a, counted⟩ := (Became.start s.dev i).count 4
    have became := counted.change fun x => { x with darn := wantNack x.darn }
    have rx : trlRx s.dev i bytes (fecFixed fixes) = (trlBad s.dev i, false) := by
      rw [trlRx, up, bad, Bool.not_true, if_neg Bool.false_ne_true, Bool.not_false, if_pos rfl]
    refine ⟨trlBad s.dev i, row _ rx, became.quiet, ?_⟩
    rw [show (trlBad s.dev i).trl[i] = _ from became.port]
    exact ⟨rfl, by simp [x], rfl, rfl⟩
  case accept =>
    have rx : darnRx dn true t = (.accept, { dn with last := t.seq, ackDue := true, nackOut := false, nackDue := false }) := by
      rw [darnRx, seqd, next, show dn.last + 1 - dn.last = 1 by bv_omega]
      rfl
    have applied : applyTail x.darn t = (dn, false) := Prod.ext rfl asksNone
    obtain ⟨y, told, -, darn, txq, st, linkUp, one, five, credit⟩ := Became.told s.dev i (fecFixed fixes) bytes dn { dn with last := t.seq, ackDue := true, nackOut := false, nackDue := false }
    obtain ⟨z, accepted, darn', txq', st', linkUp', credit', one', five'⟩ := told.accept bytes
    refine ⟨_, row _ (trlRx_accept up good applied rx), accepted.quiet, ?_⟩
    rw [accepted.port]
    refine ⟨darn'.trans darn, one'.trans (congrArg (satInc64 · 1) one), five'.trans five, fun v => ?_, txq'.trans txq, st'.trans st, linkUp'.trans (linkUp.trans up)⟩
    have returned := getElem_set_fin8 x.credit (byteAt bytes 3) (fun k => { k with ret := bytes.getD 4 0 }) v
    have taken := getElem_set_fin8 y.credit (byteAt bytes 1 % 8) creditTake v
    rw [credit', taken, Nat.mod_mod, credit, returned]
    rfl
  case timer =>
    obtain ⟨a, counted⟩ := ((Became.start s.dev i).change fun x => { x with
      darn := { x.darn with retries := x.darn.retries + 1, replay := x.darn.held, asked := false } }).count 5
    refine ⟨_, ?_, counted.quiet, ?_⟩
    · change execTrellisReplayTimer i s = _
      rw [execTrellisReplayTimer, onDev_alive running, if_pos ⟨up, runs⟩, trlReplay_below false below]
    · rw [counted.port]
      exact ⟨rfl, by simp [x]⟩
  case limit =>
    change execTrellisReplayTimer i s = _
    rw [execTrellisReplayTimer, onDev_alive running, if_pos ⟨up, runs⟩, trlReplay_limit false limit]

/-! ## Sowing stops -/

/-- Frames of sowing change what the Trellis ports have queued, and nothing else. -/
theorem sowSend_trl (d : Dev) (i : TPort) (m : SowMsg) : sowSend d i m = { d with trl := (sowSend d i m).trl } := by
  unfold sowSend sendControl
  split
  · rfl
  · split <;> rfl

theorem sowFlood_trl (d : Dev) (miswired : Bool) (but : Option TPort) (m : SowMsg) :
    sowFlood d miswired but m = { d with trl := (sowFlood d miswired but m).trl } := by
  refine each_rel (fun a b => b = { a with trl := b.trl }) (fun _ => rfl) (fun a b c ab bc => ?_) _ _ (fun d i => ?_) d
  · rw [ab] at bc
    exact bc
  · split
    · rfl
    · exact sowSend_trl d i m

/-- A stop leaves the side of every leaf port: it may mark page causes alone. -/
theorem setStop_lem (d : Dev) (s : Stop) (m : W16) (a : Option Pos) (b : Byte) (r : Option (List (BitVec 4))) (p : LPort) :
    lemSide (setStop d s m a b r).lem[p] = lemSide d.lem[p] := by
  unfold setStop
  split
  · rfl
  · refine each_field allLem _ (fun d => lemSide d.lem[p]) (fun d q => ?_) _
    split
    · by_cases same : p = q
      · subst same
        rw [modP_at]
        rfl
      · rw [modP_other d _ same]
    · rfl

/-- A stop by detection: the stop, and the STOP that tells the chain (R203). -/
theorem detectStop_shape (c : Cfg) {d : Dev} (s : Stop) (mask : W16) (pos : Option Pos) (ref : Option (List (BitVec 4))) (going : d.stat.stop = none) :
    ∃ m k, detectStop c d s mask pos ref = sowFlood { setStop d s mask pos 0xFF ref with free := k } true none m := by
  have running : ¬stopped d = true := by rw [stopped, going]; decide
  unfold detectStop
  rw [if_neg running]
  cases ref with
  | none => exact ⟨_, _, rfl⟩
  | some l => exact ⟨_, (setStop d s mask pos 0xFF (some l)).free, rfl⟩

/-- What a stop by detection writes, and what it leaves of the links and of sowing (R125, R202, R203). -/
theorem detectStop_facts (c : Cfg) {d : Dev} (s : Stop) (mask : W16) (pos : Option Pos) (ref : Option (List (BitVec 4))) (going : d.stat.stop = none) :
    let e := detectStop c d s mask pos ref
    e.stat = { d.stat with stop := some s, stopMask := mask, stopPos := pos, stopPort := 0xFF, stopRef := ref, faultN := true } ∧
    e.sow = d.sow ∧ e.line = Line.reset ∧ (∀ p : LPort, lemSide e.lem[p] = lemSide d.lem[p]) ∧ ∀ i : TPort, trlSide e.trl[i] = trlSide d.trl[i] := by
  obtain ⟨m, k, shape⟩ := detectStop_shape c s mask pos ref going
  have stat := setStop_stat d s mask pos 0xFF ref going
  have line := setStop_line d s mask pos 0xFF ref going
  have lem := setStop_lem d s mask pos 0xFF ref
  obtain ⟨x, v, n, rest⟩ := setStop_rest d s mask pos 0xFF ref
  rw [shape]
  generalize setStop d s mask pos 0xFF ref = D at stat line lem rest
  have flood := sowFlood_trl { D with free := k } true none m
  have side := (sowFlood_kept (Kept.refl { D with free := k }) true none m).side.trl
  generalize sowFlood { D with free := k } true none m = E at flood side
  refine ⟨?_, ?_, ?_, fun p => ?_, fun i => ?_⟩
  · rw [flood]; exact stat
  · rw [flood, rest]
  · rw [flood]; exact line
  · rw [flood]; exact lem p
  · rw [side i, rest]

/-! ## A link goes down -/

theorem trlSide_linkUp {x y : TrlPort} (same : trlSide x = trlSide y) : x.linkUp = y.linkUp := congrArg (fun z => z.linkUp) same
theorem trlSide_downReason {x y : TrlPort} (same : trlSide x = trlSide y) : x.downReason = y.downReason := congrArg (fun z => z.downReason) same
theorem trlSide_st {x y : TrlPort} (same : trlSide x = trlSide y) : x.st = y.st := congrArg (fun z => z.st) same
theorem trlSide_darn {x y : TrlPort} (same : trlSide x = trlSide y) : x.darn = y.darn := congrArg (fun z => z.darn) same

/-- What a Trellis link down leaves of the unit (R202, R293, R617). -/
structure LinkGone (c : Cfg) (d : Dev) (i : TPort) (reason : Byte) (e : Dev) : Prop where
  port : trlSide e.trl[i] = trlSide (trlPortDown reason d.trl[i])
  others : ∀ j : TPort, j ≠ i → trlSide e.trl[j] = trlSide d.trl[j]
  lem : ∀ p : LPort, lemSide e.lem[p] = lemSide d.lem[p]
  ready : e.stat.ready = d.stat.ready
  enters : d.sow.formed = false → d.stat.stop = none → e.stat.stop = some .sowTopology
  keeps : d.sow.formed = true ∨ d.stat.stop ≠ none → e.stat.stop = d.stat.stop

/-- What follows a link down keeps what it left. -/
theorem LinkGone.kept {c : Cfg} {d : Dev} {i : TPort} {reason : Byte} {e f : Dev} (gone : LinkGone c d i reason e) (kept : Kept e f) : LinkGone c d i reason f where
  port := (kept.side.trl i).trans gone.port
  others := fun j other => (kept.side.trl j).trans (gone.others j other)
  lem := fun p => (kept.side.lem p).trans (gone.lem p)
  ready := (statSide_ready kept.side.stat).trans gone.ready
  enters := fun unformed going => (statSide_stop kept.side.stat).trans (gone.enters unformed going)
  keeps := fun stays => (statSide_stop kept.side.stat).trans (gone.keeps stays)

theorem trlDown_gone (c : Cfg) {d : Dev} {i : TPort} (reason : Byte) (lost : Bool) (up : d.trl[i].linkUp = true) : LinkGone c d i reason (trlDown c d i reason lost) := by
  have counted : Kept (modT d i (trlPortDown reason)) (addCauseAll (bumpTrl (modT d i (trlPortDown reason)) i 6) 9) :=
    addCauseAll_kept (bumpTrl_kept (Kept.refl _) i 6) 9
  have stat : (addCauseAll (bumpTrl (modT d i (trlPortDown reason)) i 6) 9).stat = d.stat := by
    obtain ⟨a, only⟩ := bumpTrl_eq (modT d i (trlPortDown reason)) i 6
    rw [(addCauseAll_only _ 9).stat, only.stat]
    rfl
  unfold trlDown
  rw [if_neg (by rw [up]; decide)]
  dsimp only
  generalize addCauseAll (bumpTrl (modT d i (trlPortDown reason)) i 6) 9 = D at counted stat
  have port : trlSide D.trl[i] = trlSide (trlPortDown reason d.trl[i]) := (counted.side.trl i).trans (by rw [modT_at])
  have others : ∀ j : TPort, j ≠ i → trlSide D.trl[j] = trlSide d.trl[j] := fun j other => (counted.side.trl j).trans (by rw [modT_other d _ other])
  have lem : ∀ p : LPort, lemSide D.lem[p] = lemSide d.lem[p] := counted.side.lem
  have sow : D.sow = d.sow := counted.side.sow
  by_cases inStop : stopped D = true
  · have stop : d.stat.stop ≠ none := by rw [← stat]; simpa [stopped, Option.isSome_iff_ne_none] using inStop
    rw [if_pos inStop]
    exact ⟨port, others, lem, by rw [stat], fun _ going => absurd going stop, fun _ => by rw [stat]⟩
  · have going : D.stat.stop = none := by simpa [stopped] using inStop
    have still : d.stat.stop = none := by rw [← stat]; exact going
    rw [if_neg inStop]
    by_cases formed : D.sow.formed = true
    · have raised : ∀ cls unit n, LinkGone c d i reason (raiseFault c D cls unit n) := fun cls unit n =>
        LinkGone.kept ⟨port, others, lem, by rw [stat], fun unformed => absurd (sow ▸ formed) (by rw [unformed]; decide), fun _ => by rw [stat]⟩
          (raiseFault_kept (Kept.refl D) c cls unit n)
      rw [if_neg (by rw [formed]; decide)]
      cases lost
      · exact raised 7 _ _
      · exact raised 6 _ _
    · obtain ⟨entered, -, -, lem', trl'⟩ := detectStop_facts c .sowTopology 0 (knownPos D) D.sow.refCodes going
      rw [if_pos (by simpa using formed)]
      change LinkGone c d i reason (detectStop c D .sowTopology 0 (knownPos D) D.sow.refCodes)
      generalize detectStop c D .sowTopology 0 (knownPos D) D.sow.refCodes = E at entered lem' trl'
      refine ⟨(trl' i).trans port, fun j other => (trl' j).trans (others j other), fun p => (lem' p).trans (lem p), ?_, fun _ _ => ?_, fun stays => ?_⟩
      · rw [entered, stat]
      · rw [entered]
      · rcases stays with formed' | stop
        · exact absurd (sow ▸ formed') formed
        · exact absurd still stop

/-- Settles O26: the link's own part, then a stop or a fault, which keep what every command but the link's keeps. -/
theorem aTrellisLinkGoesDown : Obligations.ATrellisLinkGoesDown := by
  unfold Obligations.ATrellisLinkGoesDown
  intro s i f running up down
  have went : ∀ (reason : Byte) (lost : Bool), down { s with dev := epilogue s.cfg (trlDown s.cfg s.dev i reason lost) } reason := by
    intro reason lost
    obtain ⟨port, others, lem, ready, enters, keeps⟩ := (trlDown_gone s.cfg reason lost up).kept (epilogue_kept (Kept.refl _) s.cfg)
    generalize epilogue s.cfg (trlDown s.cfg s.dev i reason lost) = e at port others lem ready enters keeps ⊢
    exact ⟨trlSide_linkUp port, trlSide_downReason port, trlSide_st port, trlSide_darn port, rfl, ready, lem, others, enters, keeps⟩
  refine ⟨⟨_, ?_, went 1 false⟩, fun kind content => ⟨_, ?_, went 3 (byteAt f.payload 0 == 1 || byteAt f.payload 0 == 2)⟩⟩
  · change execTrellisLaneLoss i s = _
    rw [execTrellisLaneLoss, onDev_alive running, if_pos up]
  · change execTrellisLinkDownFrame i f s = _
    have told : (s.dev.trl[i].linkUp && f.kind == 6 && trlContentOk f) = true := by
      rw [up, content, kind, Bool.true_and, Bool.and_true, beq_self_eq_true]
    rw [execTrellisLinkDownFrame, onDev_alive running, if_pos told]

end Sys2Proof.Machine
end

section
/-! Sowing: its eight frames, the wait for step 10, and the deadlines (R196 to R205). -/
namespace Sys2Proof.Machine
open Sys2Proof

/-! ## What a sowing frame reaches -/

/-- What a sowing frame of kind `k` does to a unit past step 10 that is in no stop and not formed, on a port that is not miswired. -/
def sowTaken (c : Cfg) (ser : BitVec 48) (d : Dev) (i : TPort) (f : TrlFrame) : Nat → Dev
  | 1 => takeSowHello c d i f
  | 2 => takeReference c ser d i f
  | 3 => takeSeed c ser d f
  | 4 => takeClose c ser d f
  | 5 => takePosition c d i f
  | 6 => takeRoll c d i f
  | 7 => takeFormed c d i f
  | 8 => takeStop c d i f
  | _ => d

/-- A frame that came on an up link with the content of its kind. -/
structure SowArrives (s : State) (i : TPort) (f : TrlFrame) : Prop where
  running : alive s = true
  up : s.dev.trl[i].linkUp = true
  kind : f.kind = 5
  content : trlContentOk f = true
  codes : trlCodesOk f = true
  going : s.dev.stat.stop = none

theorem sowRow_eq {s : State} {i : TPort} {f : TrlFrame} (arrives : SowArrives s i f) {k : Nat} (named : byteAt f.payload 0 = k) :
    sowRow s i f k =
      .next { s with dev := if s.dev.sow.step10 then sowAct s.cfg s.hk.dieSerial s.dev i f else modSow s.dev fun x => { x with held := x.held ++ [(i.val, f)] } } := by
  obtain ⟨running, up, kind, content, codes, going⟩ := arrives
  rw [sowRow, onDev_alive running, if_pos (by rw [content, codes]; rfl), sowFrame, if_neg]
  rw [up, kind, named, stopped, going]
  simp

/-- After step 10 the frame is processed by its kind (R200). -/
theorem sowRow_taken {s : State} {i : TPort} {f : TrlFrame} (arrives : SowArrives s i f) (step10 : s.dev.sow.step10 = true) (unformed : s.dev.sow.formed = false)
    (wired : s.dev.trl[i].st ≠ .miswired) {k : Nat} (named : byteAt f.payload 0 = k) :
    sowRow s i f k = .next { s with dev := sowTaken s.cfg s.hk.dieSerial s.dev i f k } := by
  have act : sowAct s.cfg s.hk.dieSerial s.dev i f = sowTaken s.cfg s.hk.dieSerial s.dev i f k := by
    have carries : ¬(stopped s.dev || (s.dev.trl[i].st == .miswired && byteAt f.payload 0 != 8)) = true := by
      rw [stopped, arrives.going, beq_false_of_ne wired, Option.isSome_none, Bool.false_and, Bool.or_self]
      exact Bool.false_ne_true
    rw [sowAct, if_neg carries, unformed, Bool.false_and, if_neg Bool.false_ne_true, ← named]
    rfl
  rw [sowRow_eq arrives named, step10, if_pos rfl, act]

/-! ## Codes -/

theorem mismatchMask_same (c : Cfg) : mismatchMask c (uniformCodes c) = 0 := by
  simp [mismatchMask, uniformPins, uniformCodes]

/-! ## Stops by detection, seen from the unit -/

/-- What a sowing stop leaves of a unit in none. -/
theorem sowStop_facts (c : Cfg) {d : Dev} (z : Stop) (mask : W16) (going : d.stat.stop = none) :
    let e := sowStop c d z mask
    e.stat.stop = some z ∧ e.stat.stopMask = mask ∧ e.stat.stopRef = d.sow.refCodes ∧ e.stat.faultN = true ∧ e.sow = d.sow ∧
    ∀ i : TPort, trlSide e.trl[i] = trlSide d.trl[i] := by
  obtain ⟨stat, sow, -, -, trl⟩ := detectStop_facts c z mask (knownPos d) d.sow.refCodes going
  have stat : (sowStop c d z mask).stat = _ := stat
  dsimp only
  rw [stat]
  exact ⟨rfl, rfl, rfl, rfl, sow, trl⟩

/-! ## Formation -/

/-- FORMED: the unit is formed, its lines are asserted, and the ports of axes of dimension 1 are powered down (R200, R564). -/
theorem form_facts (c : Cfg) (d : Dev) :
    (form c d).sow = { d.sow with formed := true } ∧
    (form c d).line = { d.line with assertA := decide (code c 9 ≤ 3), assertB := decide (code c 9 ≤ 3), n := 0, ready := true, released := false } ∧
    ∀ j : TPort, dimOf d.sow.dims (j.val / 2) = 1 → (form c d).trl[j].st = .unused ∧ (form c d).trl[j].linkUp = false := by
  let e : Dev := modSow d fun x => { x with formed := true }
  let down : TrlPort → TrlPort := fun x => { x with st := .unused, linkUp := false, txq := [], wire := [], lanes := [] }
  have same : form c d = assertLines c (each allTrl e fun d i => if decide (dimOf e.sow.dims (i.val / 2) = 1) then modT d i down else d) := by
    refine congrArg (assertLines c) (each_congr allTrl (fun d => d.sow = e.sow) (fun d i kept => ?_) (fun d i kept => ?_) e rfl)
    · split <;> exact kept
    · rw [kept]
      simp only [decide_eq_true_eq]
      rfl
  obtain ⟨v, only⟩ := each_modT_rest allTrl e (fun i => decide (dimOf e.sow.dims (i.val / 2) = 1)) (fun _ => down)
  have trl := each_modT allTrl allTrl_nodup e (fun i => decide (dimOf e.sow.dims (i.val / 2) = 1)) (fun _ => down)
  rw [same]
  generalize (each allTrl e fun d i => if decide (dimOf e.sow.dims (i.val / 2) = 1) then modT d i down else d) = D at only trl
  refine ⟨?_, ?_, fun j one => ?_⟩
  · rw [only]; rfl
  · rw [only]; rfl
  · have port : (assertLines c D).trl[j] = down e.trl[j] := (trl j).trans (if_pos ⟨mem_allTrl j, decide_eq_true one⟩)
    rw [port]
    exact ⟨rfl, rfl⟩

/-- A SEED that teaches a unit its position, and goes on with the coordinate plus 1 (R200). -/
theorem takeSeed_fresh {c : Cfg} {ser : BitVec 48} {d : Dev} {f : TrlFrame} (other : (parseSow f.payload).serial ≠ ser)
    (below : (parseSow f.payload).pos.getD (parseSow f.payload).axis 0 < 4) (fresh : d.sow.seeded = false) (origin : isOrigin c = false) (coded : isCoded c = false) :
    let m := parseSow f.payload
    let p : Pos := ⟨m.pos.getD 0 0, m.pos.getD 1 0, m.pos.getD 2 0⟩
    ∃ e, takeSeed c ser d f = sowSend e (fin6 (2 * m.axis)) { m with
        coded := false, dims := e.sow.dims, pos := posBytes (setCoord p m.axis (m.pos.getD m.axis 0 + 1)) } ∧
      e.sow.pos = p ∧ e.sow.posKnown = true ∧ e.sow.seeded = true ∧ e = { d with sow := e.sow } := by
  intro m p
  let teach (dm : Dims) (b : Nat) : Dims := if b < m.axis ∧ dimOf dm b = 0 then setDim dm b (dimOf m.dims b) else dm
  refine ⟨modSow d fun x => { x with seeded := true, posKnown := true, pos := p, dims := teach (teach x.dims 0) 1 }, ?_, rfl, rfl, rfl, rfl⟩
  rw [takeSeed]
  dsimp only
  rw [if_neg other, if_neg (Nat.ne_of_lt below), fresh, origin, Bool.or_self, if_neg Bool.false_ne_true, if_neg]
  · rw [coded]
  · rw [coded]
    exact fun both => Bool.false_ne_true both.1

/-- Settles O27: each kind's handler, with the stops that it may enter. -/
theorem sowingFramesFormTheTorus : Obligations.SowingFramesFormTheTorus := by
  unfold Obligations.SowingFramesFormTheTorus
  intro s i f running up kind content codes going step10 unformed wired m c d
  have arrives : SowArrives s i f := ⟨running, up, kind, content, codes, going⟩
  have row : ∀ k, byteAt f.payload 0 = k → sowRow s i f k = .next { s with dev := sowTaken c s.hk.dieSerial d i f k } :=
    fun k named => sowRow_taken arrives step10 unformed wired named
  refine ⟨fun named first => ⟨fun faces => ?hello, fun other => ?miswired⟩, fun named origin fresh => ⟨fun same => ?reference, fun differs => ?mismatch⟩,
    fun named held origin other => ?multi, fun named other below fresh origin coded => ?seed, fun named other four => ?seedEnd,
    fun named other discovers => ?close, fun named early => ?positionKept, fun named sent differs => ?position, fun r named passes ready => ?roll,
    fun named => ?formed, fun z named stop => ?stop⟩
  case hello =>
    refine (row 1 named).trans ?_
    rw [sowTaken, takeSowHello, show d.trl[i].hello = none from first, Option.isSome_none, if_neg Bool.false_ne_true]
    dsimp only
    rw [show ((parseSow f.payload).port == facingPort i.val) = true from beq_iff_eq.2 faces, if_pos rfl, if_pos rfl]
  case miswired =>
    obtain ⟨stop, -, -, fault, -, trl⟩ := sowStop_facts c (d := modT d i fun x => { x with hello := some f, st := .miswired, sowWait := [] }) .sowTopology 0 going
    refine ⟨_, row 1 named, ?_⟩
    have taken : sowTaken c s.hk.dieSerial d i f 1 = sowStop c (modT d i fun x => { x with hello := some f, st := .miswired, sowWait := [] }) .sowTopology 0 := by
      rw [sowTaken, takeSowHello, show d.trl[i].hello = none from first, Option.isSome_none, if_neg Bool.false_ne_true]
      dsimp only
      rw [show ((parseSow f.payload).port == facingPort i.val) = false from beq_eq_false_iff_ne.2 other, if_neg Bool.false_ne_true, if_neg Bool.false_ne_true]
    dsimp only
    rw [taken]
    refine ⟨?_, stop, fault⟩
    have port := trlSide_st (trl i)
    rw [modT_at] at port
    exact port
  case reference =>
    refine (row 2 named).trans ?_
    have agrees : ¬mismatchMask c (parseSow f.payload).codes ≠ 0 := by
      rw [show (parseSow f.payload).codes = uniformCodes c from same, mismatchMask_same]
      exact not_not.2 rfl
    rw [sowTaken, takeReference, origin, if_neg Bool.false_ne_true, show d.sow.refHeld = false from fresh, if_neg Bool.false_ne_true, if_neg agrees]
    rfl
  case mismatch =>
    let asked : Dev := modSow d fun x => { x with refHeld := true, refSerial := m.serial, refCodes := some m.codes }
    let told : SowMsg := { m with coded := isCoded c, dims := d.sow.dims }
    have flood := sowFlood_trl asked false (some i) told
    have going' : (sowFlood asked false (some i) told).stat.stop = none := by rw [flood]; exact going
    obtain ⟨stop, mask, ref, fault, -⟩ := sowStop_facts c .cfgChainMismatch (mismatchMask c m.codes) going'
    refine ⟨_, row 2 named, ?_⟩
    have taken : sowTaken c s.hk.dieSerial d i f 2 = sowStop c (sowFlood asked false (some i) told) .cfgChainMismatch (mismatchMask c m.codes) := by
      rw [sowTaken, takeReference, origin, if_neg Bool.false_ne_true, show d.sow.refHeld = false from fresh, if_neg Bool.false_ne_true, if_pos differs]
      rfl
    dsimp only
    rw [taken]
    exact ⟨stop, mask, ref.trans (by rw [flood]; rfl), fault⟩
  case multi =>
    have taken : sowTaken c s.hk.dieSerial d i f 2 = sowStop c d .sowMultiOrigin (BitVec.ofNat 16 (4096 * b2n (isOrigin c))) := by
      rw [sowTaken, takeReference, if_neg (by rw [origin]; exact Bool.false_ne_true), if_pos held, if_neg other]
    obtain ⟨stop, -⟩ := sowStop_facts c .sowMultiOrigin (BitVec.ofNat 16 (4096 * b2n (isOrigin c))) going
    refine ⟨_, row 2 named, ?_⟩
    dsimp only
    rw [taken]
    exact stop
  case seed =>
    obtain ⟨e, taken, pos, known, seeded, rest⟩ := takeSeed_fresh (c := c) (d := d) other below fresh origin coded
    refine ⟨e, (row 3 named).trans ?_, pos, known, seeded, rest⟩
    rw [sowTaken, taken]
  case seedEnd =>
    obtain ⟨stop, mask, -⟩ := sowStop_facts c .sowShape 4 going
    have taken : sowTaken c s.hk.dieSerial d i f 3 = sowStop c d .sowShape 4 := by
      rw [sowTaken, takeSeed]
      dsimp only
      rw [if_neg (show ¬(parseSow f.payload).serial = s.hk.dieSerial from other), if_pos (show (parseSow f.payload).pos.getD (parseSow f.payload).axis 0 = 4 from four)]
    refine ⟨_, row 3 named, ?_⟩
    dsimp only
    rw [taken]
    exact ⟨stop, mask⟩
  case close =>
    refine (row 4 named).trans ?_
    have learns : learnDim c d m.axis (dimOf m.dims m.axis) = modSow d fun x => { x with dims := setDim x.dims m.axis (dimOf m.dims m.axis) } := by
      rw [learnDim, discovers]
      rfl
    have still : stopped (modSow d fun x => { x with dims := setDim x.dims m.axis (dimOf m.dims m.axis) }) = false := by
      rw [stopped]
      exact congrArg Option.isSome going
    rw [sowTaken, takeClose]
    dsimp only
    rw [if_neg (show ¬(parseSow f.payload).serial = s.hk.dieSerial from other)]
    change Host.Outcome.next { s with dev := if stopped (learnDim c d m.axis (dimOf m.dims m.axis)) = true then _ else _ } = _
    rw [learns, still, if_neg Bool.false_ne_true]
    rfl
  case positionKept =>
    refine (row 5 named).trans ?_
    rw [sowTaken, takePosition, show d.sow.posSent = false from early, if_neg Bool.false_ne_true]
  case position =>
    obtain ⟨stop, mask, -⟩ := sowStop_facts c .sowShape 0 going
    have taken : sowTaken c s.hk.dieSerial d i f 5 = sowStop c d .sowShape 0 := by
      rw [sowTaken, takePosition, show d.sow.posSent = true from sent, if_pos rfl, checkPosition, if_pos differs]
    refine ⟨_, row 5 named, ?_⟩
    dsimp only
    rw [taken]
    exact ⟨stop, mask⟩
  case roll =>
    refine (row 6 named).trans ?_
    rw [sowTaken, takeRoll]
    dsimp only
    rw [show (d.sow.posKnown && d.sow.checkPassed && coordOf d.sow.pos (parseSow f.payload).axis == 0) = false from passes, if_neg Bool.false_ne_true,
      show d.sow.rollReady.lookup (parseSow f.payload).axis = some r from ready]
    rfl
  case formed =>
    let told : SowMsg := { m with coded := isCoded c, dims := d.sow.dims }
    have flood := sowFlood_trl d false (some i) told
    have taken : sowTaken c s.hk.dieSerial d i f 7 = form c (sowFlood d false (some i) told) := by
      rw [sowTaken, takeFormed, show d.sow.formed = false from unformed, if_neg Bool.false_ne_true]
    obtain ⟨sow, line, trl⟩ := form_facts c (sowFlood d false (some i) told)
    refine ⟨_, row 7 named, ?_⟩
    dsimp only
    rw [taken]
    refine ⟨sow.trans (by rw [flood]), line.trans (by rw [flood]; rfl), fun j one => trl j (by rw [flood]; exact one)⟩
  case stop =>
    let mask : W16 := if z = .cfgChainMismatch then mismatchMask c m.codes else 0
    let pos : Option Pos := if m.pos = [255, 255, 255] then none else some ⟨m.pos.getD 0 0, m.pos.getD 1 0, m.pos.getD 2 0⟩
    let told : SowMsg := { m with coded := isCoded c, dims := (setStop d z mask pos (BitVec.ofNat 8 m.port) (some m.codes)).sow.dims }
    have taken : sowTaken c s.hk.dieSerial d i f 8 = sowFlood (setStop d z mask pos (BitVec.ofNat 8 m.port) (some m.codes)) true (some i) told := by
      rw [sowTaken, takeStop]
      dsimp only
      rw [show stopOfNat (parseSow f.payload).stop = some z from stop]
    have stat := setStop_stat d z mask pos (BitVec.ofNat 8 m.port) (some m.codes) going
    have line := setStop_line d z mask pos (BitVec.ofNat 8 m.port) (some m.codes) going
    obtain ⟨x, v, n, rest⟩ := setStop_rest d z mask pos (BitVec.ofNat 8 m.port) (some m.codes)
    have sow : (setStop d z mask pos (BitVec.ofNat 8 m.port) (some m.codes)).sow = d.sow := by rw [rest]
    have flood := sowFlood_trl (setStop d z mask pos (BitVec.ofNat 8 m.port) (some m.codes)) true (some i) told
    refine ⟨_, row 8 named, ?_⟩
    dsimp only
    rw [taken, flood]
    dsimp only
    rw [stat, line, sow]
    exact ⟨rfl, rfl, rfl, rfl, rfl, rfl, rfl, rfl⟩

/-! ## Step 10 and the deadlines -/

/-- Settles O28: a frame before step 10 is held; each deadline is a stop by detection. -/
theorem sowingWaitsForStep10AndEndsAtItsDeadlines : Obligations.SowingWaitsForStep10AndEndsAtItsDeadlines := by
  unfold Obligations.SowingWaitsForStep10AndEndsAtItsDeadlines
  refine ⟨fun s i f running up kind content codes going early c row => ?held, fun s running step10 unformed going => ⟨fun origin => ?origin, fun other held => ?formed, fun other none => ?reference⟩⟩
  case held =>
    have arrives : SowArrives s i f := ⟨running, up, kind, content, codes, going⟩
    have kept : ∀ k, byteAt f.payload 0 = k → sowRow s i f k = .next { s with dev := { s.dev with sow := { s.dev.sow with held := s.dev.sow.held ++ [(i.val, f)] } } } := by
      intro k named
      rw [sowRow_eq arrives named, early, if_neg Bool.false_ne_true]
      rfl
    rcases row with ⟨rfl, named⟩ | ⟨rfl, named⟩ | ⟨rfl, named⟩ | ⟨rfl, named⟩ | ⟨rfl, named⟩ | ⟨rfl, named⟩ | ⟨rfl, named⟩ | ⟨rfl, named⟩ <;> exact kept _ named
  case origin =>
    obtain ⟨stop, mask, -, fault, sow, -⟩ := sowStop_facts s.cfg .sowIncomplete 0 going
    refine ⟨{ s with dev := sowStop s.cfg s.dev .sowIncomplete 0 }, ?_, stop, fault, mask, sow⟩
    change execSowOriginDeadline s = _
    rw [execSowOriginDeadline, onDev_alive running, origin, step10, unformed]
    rfl
  case formed =>
    obtain ⟨stop, mask, -, fault, sow, -⟩ := sowStop_facts s.cfg .sowIncomplete 0 going
    refine ⟨{ s with dev := sowStop s.cfg s.dev .sowIncomplete 0 }, ?_, stop, fault, mask, sow⟩
    change execSowFormedDeadline s = _
    rw [execSowFormedDeadline, onDev_alive running, other, held, unformed]
    rfl
  case reference =>
    have due : (!s.dev.sow.step10 || isOrigin s.cfg || s.dev.sow.refHeld || s.dev.sow.formed) = false := by rw [step10, other, none, unformed]; rfl
    refine ⟨{ s with dev := referenceDeadline s.cfg s.dev }, ?_, ?_⟩
    · change execSowReferenceDeadline s = _
      rw [execSowReferenceDeadline, onDev_alive running]
    · dsimp only
      rw [referenceDeadline, due, if_neg Bool.false_ne_true]
      by_cases mismatch : ((hellos s.dev).any fun m => m.codes != uniformCodes s.cfg) = true
      · obtain ⟨stat, sow, -⟩ := detectStop_facts s.cfg .cfgChainMismatch (mismatchMask s.cfg (compareCodes s.cfg s.dev)) (knownPos s.dev) (some (compareCodes s.cfg s.dev)) going
        rw [if_pos mismatch, if_pos mismatch]
        dsimp only
        rw [stat]
        exact ⟨rfl, sow, rfl, rfl, rfl⟩
      · obtain ⟨stop, mask, -, fault, sow, -⟩ := sowStop_facts s.cfg .sowNoOrigin 0 going
        rw [if_neg mismatch, if_neg mismatch]
        exact ⟨fault, sow, stop, mask⟩

end Sys2Proof.Machine
end

section
/-! What a port sends in its turn (R227 to R235, R272, R276, R283 to R287, R298, R709). -/
namespace Sys2Proof.Machine
open Sys2Proof

/-! ## Leaf ports -/

/-- Where no chunk signal is queued, none is next in a stream, and none is applied. -/
theorem applyMarks_none (c : Cfg) (d : Dev) (p : LPort) (n : Nat) (frames : ∀ it ∈ d.lem[p].txq, ∀ m, it.body ≠ .signal m) : applyMarks c p n d = d := by
  cases n with
  | zero => rfl
  | succ n =>
    unfold applyMarks
    dsimp only
    split
    · rfl
    · next it m found =>
      obtain ⟨s, -, next⟩ := List.exists_of_findSome?_eq_some found
      split at next
      · cases next
      · split at next
        · next item head =>
          have body := frames item (List.mem_of_find?_eq_some head)
          split at next
          · next mark signal => exact absurd signal (body mark)
          · cases next
        · cases next

/-- In its turn a port that is up and has no chunk signal queued goes on as it stands: what it replays, or what is next. -/
theorem tickLem_replay {c : Cfg} {d : Dev} {p : LPort} (up : d.lem[p].phase = .up) (frames : ∀ it ∈ d.lem[p].txq, ∀ m, it.body ≠ .signal m)
    {n : BitVec 12} {f : LemTx} {rest : List (BitVec 12 × LemTx)} (replay : d.lem[p].darn.replay = (n, f) :: rest) :
    tickLem c d p = modP d p fun x => { lemOut x (some n) (lemBody p f (lemReturns x)) with darn := { clearDue x.darn with replay := rest, asked := false } } := by
  unfold tickLem
  rw [if_neg (not_not.2 up), applyMarks_none c d p _ frames]
  dsimp only
  rw [replay]
  rfl

theorem tickLem_idle {c : Cfg} {d : Dev} {p : LPort} (up : d.lem[p].phase = .up) (frames : ∀ it ∈ d.lem[p].txq, ∀ m, it.body ≠ .signal m)
    (none : d.lem[p].darn.replay = []) (nothing : nextLem (heldStream c d p) d.lem[p] = Option.none) :
    tickLem c d p = modP d p fun x => lemOut x Option.none (zeros 12 ++ (lemReturns x).map (BitVec.ofNat 8)) := by
  unfold tickLem
  rw [if_neg (not_not.2 up), applyMarks_none c d p _ frames]
  dsimp only
  rw [none, nothing]

theorem tickLem_first {c : Cfg} {d : Dev} {p : LPort} (up : d.lem[p].phase = .up) (frames : ∀ it ∈ d.lem[p].txq, ∀ m, it.body ≠ .signal m)
    {v : Fin 4} {it : TxItem} {g : LemTx} (none : d.lem[p].darn.replay = []) (next : nextLem (heldStream c d p) d.lem[p] = some (v, it))
    (frame : it.body = .frame g) (noAck : ∀ a b, g ≠ .helloAck a b) : tickLem c d p = putLem (heldStream c d p) d p v it := by
  unfold tickLem
  rw [if_neg (not_not.2 up), applyMarks_none c d p _ frames]
  dsimp only
  rw [none, next]
  dsimp only
  rw [frame]
  cases g with
  | helloAck a b => exact absurd rfl (noAck a b)
  | _ => rfl

/-- A frame that is not a HELLO_ACK is sent for the first time. -/
theorem lemFirst_frame {held : Nat → Bool} {p : LPort} {x : LemPort} {v : Fin 4} {it : TxItem} {g : LemTx} (frame : it.body = .frame g) :
    (lemFirst held p x v it).1 = { lemOut x (some x.darn.next) (lemBody p g (lemReturns x)) with
      darn := darnSend (clearDue x.darn) g
      txq := x.txq.erase it
      reads := x.reads ++ []
      credit := (lemOut x none []).credit.set v (creditSpend (lemOut x none []).credit[v])
      turn := if it.stream < 8 then x.turn.set v (fin8 (it.stream + 1)) else x.turn
      sinceVc1 := if v.val ≠ 1 ∧ vc1Waits held x = true then x.sinceVc1 + 1 else 0 } := by
  unfold lemFirst
  rw [frame]
  rfl

/-- Settles O29: the three things that a port may send, in their order. -/
theorem aLeafPortSendsOneFrame : Obligations.ALeafPortSendsOneFrame := by
  unfold Obligations.ALeafPortSendsOneFrame
  intro c d p
  refine ⟨fun down => if_pos down, fun up frames => ?_⟩
  intro x returns held out
  refine ⟨fun n f rest replay => ?replay, fun none waits => ?idle, fun v it g none room picks frame noAck => ?first⟩
  case replay =>
    rw [tickLem_replay up frames replay]
    exact modP_congr rfl
  case idle =>
    have nothing : nextLem held x = Option.none := by
      unfold nextLem
      rcases waits with full | nothing
      · rw [darnRoom, decide_eq_false (by omega), Bool.and_false, if_neg Bool.false_ne_true]
      · rw [nothing, ite_self]
    rw [tickLem_idle up frames none nothing]
    exact modP_congr rfl
  case first =>
    have next : nextLem held x = some (v, it) := by
      rw [nextLem, none, darnRoom, decide_eq_true room, List.isEmpty_nil, Bool.and_self, if_pos rfl, picks]
    rw [tickLem_first up frames none next frame noAck, putLem, modP_const, lemFirst_frame frame, List.append_nil]
    rfl

/-! ## Trellis ports -/

/-- A port that no loopback holds, whose link is up and owes no alignment block, sends. -/
structure Sends (d : Dev) (i : TPort) : Prop where
  leads : d.trl[i].loopLeader = false
  up : d.trl[i].linkUp = true
  early : d.trl[i].sinceAlign < 20

theorem Sends.goes {d : Dev} {i : TPort} (sends : Sends d i) : ¬(!d.trl[i].linkUp || alignDue d.trl[i]) = true := by
  have early := sends.early
  rw [alignDue, sends.up, decide_eq_false (by omega)]
  decide

theorem tickTrl_replay {d : Dev} {i : TPort} (sends : Sends d i) {n : BitVec 12} {f : TrlFrame} {rest : List (BitVec 12 × TrlFrame)}
    (replay : d.trl[i].darn.replay = (n, f) :: rest) :
    tickTrl d i = modT d i fun x => { trlOut x (some n) (trlBody f) with darn := { clearDue x.darn with replay := rest, asked := false } } := by
  unfold tickTrl
  dsimp only
  rw [sends.leads, if_neg Bool.false_ne_true, if_neg sends.goes, replay]
  rfl

theorem tickTrl_idle {d : Dev} {i : TPort} (sends : Sends d i) (none : d.trl[i].darn.replay = []) (picks : pickTrl d (freeSlots d i d.trl[i]) = Option.none) :
    tickTrl d i = modT d i fun x => trlOut (freeSlots d i x) Option.none (trlIdle (ownAddr d)) := by
  unfold tickTrl
  dsimp only
  rw [sends.leads, if_neg Bool.false_ne_true, if_neg sends.goes, none]
  dsimp only
  rw [picks, ite_self]
  exact modT_congr rfl

/-- Settles O30: a replay first, and IDLE where nothing waits. -/
theorem aTrellisPortSendsOneFrame : Obligations.ATrellisPortSendsOneFrame := by
  unfold Obligations.ATrellisPortSendsOneFrame
  intro d i leads
  refine ⟨fun quiet => ?quiet, fun up early => ?_⟩
  case quiet =>
    have stays : (!d.trl[i].linkUp || alignDue d.trl[i]) = true := by
      rw [alignDue]
      rcases quiet with down | due
      · rw [down, Bool.not_false, Bool.true_or]
      · rw [decide_eq_true due, Bool.and_true, Bool.not_or_self]
    unfold tickTrl
    dsimp only
    rw [leads, if_neg Bool.false_ne_true, if_pos stays]
  intro x v out
  have sends : Sends d i := ⟨leads, up, early⟩
  refine ⟨fun n f rest replay => ?replay, fun none empty => ?idle⟩
  case replay =>
    rw [tickTrl_replay sends replay]
    exact modT_congr rfl
  case idle =>
    have slots : freeSlots d i x = { x with slots := x.slots.filter fun e => moreOn d i e.2.1 e.2.2 } := by
      simp [freeSlots, giveSlots, empty]
    have picks : pickTrl d (freeSlots d i x) = Option.none := by
      rw [slots]
      simp [pickTrl, empty]
    rw [tickTrl_idle sends none picks]
    refine modT_congr ?_
    rw [show freeSlots d i d.trl[i] = _ from slots]
    rfl

end Sys2Proof.Machine
end

section
/-! Work rings: headers, timers, and the head's dependencies (R308 to R323, R333, R337). -/
namespace Sys2Proof.Machine
open Sys2Proof

/-! ## What stays of a port when its rings change -/

theorem hello_modR (d : Dev) (p : LPort) (r : RingNo) (f : Ring → Ring) (q : LPort) : (modR d p r f).lem[q].hello = d.lem[q].hello := by
  rw [modR_modP]
  by_cases same : q = p
  · subst same; rw [modP_at]
  · rw [modP_other d _ same]

theorem started_modR (d : Dev) (p : LPort) (r : RingNo) (f : Ring → Ring) (q : LPort) : (modR d p r f).lem[q].started = d.lem[q].started := by
  rw [modR_modP]
  by_cases same : q = p
  · subst same; rw [modP_at]
  · rw [modP_other d _ same]

/-- Only one leaf port differs. -/
def PortOnly (p : LPort) (d e : Dev) : Prop := ∃ f, e = modP d p f

theorem PortOnly.refl (p : LPort) (d : Dev) : PortOnly p d d := ⟨id, (modP_self rfl).symm⟩

theorem PortOnly.trans {p : LPort} {a b c : Dev} (ab : PortOnly p a b) (bc : PortOnly p b c) : PortOnly p a c := by
  obtain ⟨f, rfl⟩ := ab
  obtain ⟨g, rfl⟩ := bc
  exact ⟨_, modP_modP a p f g⟩

theorem PortOnly.modP (d : Dev) (p : LPort) (f : LemPort → LemPort) : PortOnly p d (modP d p f) := ⟨f, rfl⟩
theorem PortOnly.modR (d : Dev) (p : LPort) (r : RingNo) (f : Ring → Ring) : PortOnly p d (modR d p r f) := ⟨_, modR_modP d p r f⟩

theorem PortOnly.pushTx (d : Dev) (p : LPort) (items : List TxItem) : PortOnly p d (pushTx d p items) := PortOnly.modP d p _

theorem PortOnly.rest {p : LPort} {d e : Dev} (only : PortOnly p d e) : e = { d with lem := e.lem } ∧ ∀ q : LPort, q ≠ p → e.lem[q] = d.lem[q] := by
  obtain ⟨f, rfl⟩ := only
  exact ⟨rfl, fun q other => modP_other d f other⟩

/-! ## Headers -/

theorem execHeaderRead_kept {s : State} {p : LPort} {r : RingNo} {bs : List Byte} (running : alive s = true) (kept : (ringAt s.dev p r).hdrData = some bs) :
    exec (.headerRead p r) s = .next { s with dev := epilogue s.cfg (takeHeader s.cfg s.dev p r bs) } := by
  change execHeaderRead p r s = _
  rw [execHeaderRead, onDev_alive running, takePending_some kept]

/-- The ring once a header has been judged, before what follows from the verdict. -/
def judged (hello : Hello) (h : RingHdr) (x : Ring) : Ring := { x with hdrData := none, hdrInvalid := !(hdrValid hello h) }

/-- Whether a ring takes a header that it has judged: an off ring any, a fenced or stalled one that of another epoch, a stalled one after its restart (R310, R333, R628). -/
def takesHeader (c : Cfg) (d : Dev) (p : LPort) (h : RingHdr) (x : Ring) : Bool :=
  match x.st with
  | .off => true
  | .running => false
  | .fenced => h.epoch != x.hdr.epoch
  | .stalled => h.epoch != x.hdr.epoch && d.recov.restart[tenantOf c p] == .none

/-- A ring that does not run and is not adopting a header already judges the one that it has read. -/
theorem takeHeader_judges {c : Cfg} {d : Dev} {p : LPort} {r : RingNo} (bs : List Byte) (rests : (ringAt d p r).st ≠ .running) (free : (ringAt d p r).adopting = none) :
    takeHeader c d p r bs =
      let e := modR d p r (judged d.lem[p].hello (parseHdr bs))
      if !(takesHeader c d p (parseHdr bs) (ringAt d p r)) then e
      else if (ringAt d p r).fenceOpen then modRun (modR e p r fun x => { x with fenceOpen := false, adopting := some bs }) p r fun y => { y with finished := true }
      else settleHeader c e p r bs := by
  have busy : ¬((ringAt d p r).st = .running ∨ (ringAt d p r).adopting.isSome = true) := by
    rw [free]
    exact fun either => either.elim rests Bool.false_ne_true
  unfold takeHeader
  dsimp only
  rw [if_neg busy, modR_modR, hello_modR]
  rfl

/-- What a ring becomes when it adopts a header (R310). -/
def adopted (h : RingHdr) (x : Ring) : Ring :=
  { x with
    hdr := h, hdrInvalid := false, hdrDeferred := false, st := if h.ringLog2 = 0 then .off else .running
    nextFetch := h.startIndex, intake := h.startIndex, recorded := h.startIndex
    queue := [], head := none, slotData := [], waiting := false, refetches := 0, refetchPending := false, retry := [] }

/-- A ring with slots adopts a header: its state, then the consumed word, then the first fetch (R310, R356). -/
theorem adoptHeader_shape (c : Cfg) (d : Dev) (p : LPort) (r : RingNo) (h : RingHdr) (slots : h.ringLog2 ≠ 0) :
    ∃ E pre, adoptHeader c d p r h = judgeAll c (fetchMore E p r) ∧ ringAt E p r = adopted h (ringAt d p r) ∧ PortOnly p d E ∧
      E.lem[p].txq = pre ++ writeItems 2 r.val h.consumedAddr (consumedWord h.startIndex h.epoch) := by
  let e : Dev := modR (dropReads (discardFetched d p r) p r isHeader) p r fun x => { x with
    hdr := h, hdrInvalid := false, hdrDeferred := false, retry := [], nextFetch := h.startIndex, intake := h.startIndex, recorded := h.startIndex,
    st := if h.ringLog2 = 0 then .off else .running }
  have ring : ringAt e p r = adopted h (ringAt d p r) := by
    rw [modR_at, ringAt_dropReads, discardFetched, modR_at, ringAt_dropReads]
    rfl
  refine ⟨writeConsumed e p r, e.lem[p].txq, ?_, ?_, ?_, ?_⟩
  · unfold adoptHeader
    dsimp only
    rw [if_pos (.inl slots)]
  · rw [writeConsumed, ringAt_pushTx]
    exact ring
  · have fetched : PortOnly p d (discardFetched d p r) := (PortOnly.modP d p _).trans (PortOnly.modR _ p r _)
    have changed : PortOnly p (discardFetched d p r) e := (PortOnly.modP _ p _).trans (PortOnly.modR _ p r _)
    exact (fetched.trans changed).trans (PortOnly.pushTx e p _)
  · rw [writeConsumed, ring, pushTx, modP_at]
    rfl

theorem ringAt_causes (d : Dev) (p : LPort) (k : BitVec 16) (q : LPort) (r : RingNo) :
    ringAt (modP d p fun x => { x with causes := x.causes ||| k }) q r = ringAt d q r :=
  ringAt_modP d p q r (fun x => { x with causes := x.causes ||| k }) fun _ => rfl

/-- An invalid header leaves its ring off and marked, with its page cause (R310, R654). -/
theorem refuseHeader_facts (d : Dev) (p : LPort) (r : RingNo) (started : d.lem[p].started = true) :
    let e := refuseHeader d p r
    (ringAt e p r).st = .off ∧ (ringAt e p r).hdrInvalid = true ∧ (ringAt e p r).queue = [] ∧ e.lem[p].causes = d.lem[p].causes ||| 8 := by
  let e : Dev := modR (discardFetched d p r) p r fun x => { x with st := .off, hdrInvalid := true }
  have fetched : (discardFetched d p r).lem[p].started = d.lem[p].started ∧ (discardFetched d p r).lem[p].causes = d.lem[p].causes := by
    rw [discardFetched, modR_modP, modP_at, dropReads, modP_at]
    exact ⟨rfl, rfl⟩
  have begun : e.lem[p].started = true := (started_modR _ p r _ p).trans (fetched.1.trans started)
  have shape : refuseHeader d p r = modP e p fun x => { x with causes := x.causes ||| BitVec.ofNat 16 (2 ^ 3) } := by
    rw [refuseHeader, addCause, if_pos begun]
  have ring : ringAt (refuseHeader d p r) p r = { (ringAt (discardFetched d p r) p r) with st := .off, hdrInvalid := true } := by
    rw [shape]
    exact (ringAt_causes e p _ p r).trans (modR_at _ p r _)
  have causes : e.lem[p].causes = d.lem[p].causes := by
    exact (congrArg LemPort.causes (modP_at _ p _)).trans fetched.2
  dsimp only
  rw [ring]
  refine ⟨rfl, rfl, ?_, ?_⟩
  · rw [discardFetched, modR_at]
  · rw [shape, modP_at, causes]
    rfl

/-- Settles O31: the ring's state decides what becomes of the header. -/
theorem headersAreAdopted : Obligations.HeadersAreAdopted := by
  unfold Obligations.HeadersAreAdopted
  intro s p r bs running kept x h
  have row := execHeaderRead_kept running kept
  have verdict : ∀ z, x.st = z → takesHeader s.cfg s.dev p h x = takesHeader s.cfg s.dev p h { x with st := z } := fun z st => by rw [← st]
  refine ⟨fun runs => ?running, fun off free shut valid slots => ?adopts, fun off free shut invalid started => ?refuses, fun fenced free other opened => ?ends, fun fenced free same => ?stays⟩
  case running =>
    rw [row, takeHeader, if_pos (.inl runs)]
  case adopts =>
    have judges : takeHeader s.cfg s.dev p r bs = settleHeader s.cfg (modR s.dev p r (judged s.dev.lem[p].hello h)) p r bs := by
      rw [takeHeader_judges bs (by rw [show (ringAt s.dev p r).st = .off from off]; decide) free]
      dsimp only
      rw [show takesHeader s.cfg s.dev p (parseHdr bs) (ringAt s.dev p r) = true from verdict .off off, show (ringAt s.dev p r).fenceOpen = false from shut]
      rfl
    obtain ⟨E, pre, adopts, ring, only, txq⟩ := adoptHeader_shape s.cfg (modR s.dev p r (judged s.dev.lem[p].hello h)) p r h slots
    obtain ⟨rest, others⟩ := ((PortOnly.modR s.dev p r _).trans only).rest
    refine ⟨E, pre, ?_, ?_, txq, rest, others⟩
    · rw [row, judges, settleHeader, hello_modR, if_pos valid, adopts]
    · rw [ring, modR_at, adopted, if_neg slots]
      rfl
  case refuses =>
    have judges : takeHeader s.cfg s.dev p r bs = settleHeader s.cfg (modR s.dev p r (judged s.dev.lem[p].hello h)) p r bs := by
      rw [takeHeader_judges bs (by rw [show (ringAt s.dev p r).st = .off from off]; decide) free]
      dsimp only
      rw [show takesHeader s.cfg s.dev p (parseHdr bs) (ringAt s.dev p r) = true from verdict .off off, show (ringAt s.dev p r).fenceOpen = false from shut]
      rfl
    obtain ⟨st, mark, queue, causes⟩ := refuseHeader_facts (modR s.dev p r (judged s.dev.lem[p].hello h)) p r ((started_modR ..).trans started)
    refine ⟨refuseHeader (modR s.dev p r (judged s.dev.lem[p].hello h)) p r, ?_, st, mark, queue, causes.trans (by rw [modR_modP, modP_at])⟩
    rw [row, judges, settleHeader, hello_modR, if_neg (by rw [invalid]; exact Bool.false_ne_true)]
  case ends =>
    have goes : takesHeader s.cfg s.dev p (parseHdr bs) (ringAt s.dev p r) = true := (verdict .fenced fenced).trans (bne_iff_ne.2 other)
    rw [row, takeHeader_judges bs (by rw [show (ringAt s.dev p r).st = .fenced from fenced]; decide) free]
    dsimp only
    rw [goes, show (ringAt s.dev p r).fenceOpen = true from opened, Bool.not_true, if_neg Bool.false_ne_true, if_pos rfl, modR_modR]
    rfl
  case stays =>
    have goes : takesHeader s.cfg s.dev p (parseHdr bs) (ringAt s.dev p r) = false := (verdict .fenced fenced).trans (bne_eq_false_iff_eq.2 same)
    rw [row, takeHeader_judges bs (by rw [show (ringAt s.dev p r).st = .fenced from fenced]; decide) free]
    dsimp only
    rw [goes, Bool.not_false, if_pos rfl]
    rfl

/-! ## Timers -/

/-- The read of one slot of a ring, as its port queues it. -/
def slotRead (r : RingNo) (x : Ring) : TxItem :=
  { vc := 0, stream := r.val, body := .read { why := .slots r x.nextFetch 1, vc := 0, addr := x.hdr.ringBase + 128 * slotOf x.hdr x.nextFetch, size := 128 } }

/-- The read of the slot at which a ring waits. -/
theorem readWaiting_eq {d : Dev} {p : LPort} {r : RingNo} (none : readsOut d p r isSlots = false) :
    readWaiting d p r = pushTx (modR d p r fun x => { x with retry := x.retry.filter fun w => !isSlots w }) p [slotRead r (ringAt d p r)] := by
  rw [readWaiting, none, if_neg Bool.false_ne_true, readSlots_eq, modR_at]
  rfl

/-- The read of a header, where nothing stands against it. -/
theorem readHeader_eq {c : Cfg} {d : Dev} {p : LPort} {r : RingNo} (none : readsOut d p r isHeader = false) (unread : (ringAt d p r).hdrData = Option.none)
    (busy : headerBusy c d p r = false) :
    readHeader c d p r = pushTx (modR d p r fun x => { x with hdrDeferred := false, retry := x.retry.filter fun w => !isHeader w }) p
      [{ vc := 0, stream := r.val, body := .read { why := .header r, vc := 0, addr := d.lem[p].hello.ringTable + 64 * r.val, size := 64 } }] := by
  rw [readHeader, none, unread, Bool.false_or, Option.isSome_none, if_neg Bool.false_ne_true, readHeaderAgain, busy, if_neg Bool.false_ne_true]
  rfl

/-- One structure that was left unread, none of the head's: its retry reads it as the ring stands. -/
theorem execReadRetryTimer_one {s : State} {p : LPort} {r : RingNo} {w : ReadWhy} (running : alive s = true) (retry : (ringAt s.dev p r).retry = [w])
    (own : isHeadRead w = false) : exec (.readRetryTimer p r) s = .next { s with dev := retryRead s.cfg s.dev p r w } := by
  have kept : modR s.dev p r (fun x => { x with retry := x.retry.filter fun w => !isHeadRead w }) = s.dev := by
    refine modR_self ?_
    rw [retry, List.filter_cons_of_pos (by rw [own]; rfl), List.filter_nil, ← retry]
  change execReadRetryTimer p r s = _
  rw [execReadRetryTimer, onDev_alive running]
  dsimp only
  rw [kept, retry]
  rfl

/-- Settles O33: each timer's row, with its guards met. -/
theorem ringTimersRead : Obligations.RingTimersRead := by
  unfold Obligations.RingTimersRead
  intro s p r running x slot
  have poll : exec (.pollTimer p r) s = .next { s with
      dev := if x.hdr.pollCode = 0 ∨ x.st = .off then s.dev
        else if x.st = .running then (if x.waiting then readWaiting s.dev p r else s.dev)
        else if headerOpen s.cfg s.dev p r then readHeader s.cfg s.dev p r else s.dev } := by
    change execPollTimer p r s = _
    rw [execPollTimer, onDev_alive running]
  refine ⟨fun code => ?mute, fun code runs waits none => ?polls, fun code fenced free => ?fence, fun runs waits left none => ?refetch,
    fun retry opened none unread busy => ?header, fun i n retry runs waits none => ?slots⟩
  case mute => rw [poll, if_pos (.inl code)]
  case polls =>
    have shown : ¬(x.hdr.pollCode = 0 ∨ x.st = .off) := fun either => either.elim code fun off => by rw [runs] at off; cases off
    rw [poll, if_neg shown, if_pos runs, if_pos waits, readWaiting_eq none]
    rfl
  case fence =>
    have shown : ¬(x.hdr.pollCode = 0 ∨ x.st = .off) := fun either => either.elim code fun off => by rw [fenced] at off; cases off
    have opens : headerOpen s.cfg s.dev p r = true := by
      rw [headerOpen, show (ringAt s.dev p r).st = .fenced from fenced, show (ringAt s.dev p r).adopting = Option.none from free]
      rfl
    rw [poll, if_neg shown, if_neg (by rw [fenced]; decide), if_pos opens]
  case refetch =>
    change execRefetchTimer p r s = _
    have due : x.st = .running ∧ x.waiting = true ∧ 0 < x.refetches ∧ (!readsOut s.dev p r isSlots) = true := ⟨runs, waits, left, by rw [none]; rfl⟩
    rw [execRefetchTimer, onDev_alive running]
    dsimp only
    rw [if_pos due, readWaiting_eq (by rw [readsOut_modR]; exact none), modR_modR, modR_at]
    rfl
  case header =>
    have row := execReadRetryTimer_one running retry rfl
    have same : modR s.dev p r (fun x => { x with hdrDeferred := false, retry := x.retry.filter fun w => !isHeader w }) =
        modR s.dev p r fun x => { x with retry := [], hdrDeferred := false } := modR_congr (by rw [show (ringAt s.dev p r).retry = [.header r] from retry]; rfl)
    rw [row, retryRead, if_pos opened, readHeader_eq none unread busy, same]
  case slots =>
    have row := execReadRetryTimer_one running retry rfl
    have same : modR s.dev p r (fun x => { x with retry := x.retry.filter fun w => !isSlots w }) = modR s.dev p r fun x => { x with retry := [] } :=
      modR_congr (by rw [show (ringAt s.dev p r).retry = [.slots r i n] from retry]; rfl)
    rw [row, retryRead, if_pos ⟨runs, waits⟩, readWaiting_eq none, same]
    rfl

/-! ## Dependencies -/

/-- The head that waits goes on once its last dependency is satisfied. -/
theorem execDependencySatisfied_met {s : State} {p : LPort} {r : RingNo} {k : Fin 4} {h : Head} (running : alive s = true)
    (head : (ringAt (judgeRing s.cfg s.dev p r) p r).head = some h) (waits : h.stage = .waiting) (met : h.met.getD k.val false = true) :
    exec (.dependencySatisfied p r k) s = .next { s with dev := epilogue s.cfg (advanceHead s.cfg (judgeRing s.cfg s.dev p r) p r) } := by
  change execDependencySatisfied p r k s = _
  rw [execDependencySatisfied, onDev_alive running]
  dsimp only
  rw [head]
  dsimp only
  rw [if_pos ⟨waits, met⟩]

/-- A WATCH or UNWATCH goes out as one message, or not at all. -/
theorem sendWatch_only (c : Cfg) (d : Dev) (p : LPort) (r : RingNo) (desc : Desc) (k : Nat) (id : W16) (pmsg : Nat) : MsgOnly d (sendWatch c d p r desc k id pmsg) := by
  unfold sendWatch
  dsimp only
  split
  · exact sendPeg_only ..
  · exact MsgOnly.refl d

/-- Sending an UNWATCH for each watch changes messages alone. -/
theorem sendUnwatches_only (c : Cfg) (d : Dev) (p : LPort) (r : RingNo) (desc : Desc) (h : Head) : MsgOnly d (sendUnwatches c d p r desc h) := by
  refine each_msgs _ _ (fun d k => ?_) d
  split
  · split
    · exact MsgOnly.refl d
    · exact sendWatch_only ..
  · exact MsgOnly.refl d

/-- What the end of a wait counts, and what it leaves of the rings (R323, R385, R387). -/
theorem countWait_facts (c : Cfg) (d : Dev) (t : Tenant) :
    let e := bumpHealth (bumpTenant c d t 5) 5
    (∀ p r, ringAt e p r = ringAt d p r) ∧ e.stat.health[5] = satInc64 d.stat.health[5] 1 ∧ e.stat.tctr[t][5] = satInc64 d.stat.tctr[t][5] 1 := by
  obtain ⟨m, tenant⟩ := bumpTenant_eq c d t 5
  obtain ⟨n, health⟩ := bumpHealthN_eq (bumpTenant c d t 5) 5 1
  refine ⟨fun p r => (health.ring p r).trans (tenant.ring p r), ?_, ?_⟩
  · calc (bumpHealth (bumpTenant c d t 5) 5).stat.health[5]
        = satInc64 (bumpTenant c d t 5).stat.health[5] 1 := by rw [show bumpHealth (bumpTenant c d t 5) 5 = bumpHealthN (bumpTenant c d t 5) 5 1 from rfl, health.stat]; exact Vector.getElem_set_self ..
      _ = satInc64 d.stat.health[5] 1 := by rw [tenant.stat]; rfl
  · calc (bumpHealth (bumpTenant c d t 5) 5).stat.tctr[t][5]
        = (bumpTenant c d t 5).stat.tctr[t][5] := by rw [show bumpHealth (bumpTenant c d t 5) 5 = bumpHealthN (bumpTenant c d t 5) 5 1 from rfl, health.stat]; rfl
      _ = satInc64 d.stat.tctr[t][5] 1 := by rw [tenant.stat]; simp [modS]

/-- A waiting head is admitted with the status that ends its wait, and so finished (R323). -/
theorem failHead_shape (c : Cfg) (d : Dev) (p : LPort) (r : RingNo) (h : Head) (q : Slot) (rest : List Slot) (status : Byte) (head : (ringAt d p r).head = some h)
    (queue : (ringAt d p r).queue = q :: rest) (bad : status ≠ 0) (local_ : status ≠ 0x20) :
    let D := failHead c d p r status
    ∃ x, (ringAt D p r).cur = some x ∧ (ringAt D p r).head = none ∧ x.status = status ∧ x.finished = true ∧ x.desc = q.bytes ∧ x.index = q.index ∧ D.stat = d.stat := by
  let f : Head → Head := fun h => { h with stage := .waiting, status := status }
  have head' : (ringAt (modHead d p r f) p r).head = some (f h) := by rw [modHead, modR_at, head]; rfl
  have queue' : (ringAt (modHead d p r f) p r).queue = q :: rest := by rw [modHead, modR_at, queue]
  have admits : failHead c d p r status = admitHead c (modHead d p r f) p r := by
    rw [show failHead c d p r status = advanceHead c (modHead d p r f) p r from rfl, advanceHead, head', queue']
    dsimp only
    rw [if_neg (fun waits => waits rfl), if_pos bad, if_neg local_]
  obtain ⟨keep, v, n, b, l, _, _, _, ring, shape⟩ := admitHead_shape c (modHead d p r f) p r (f h) q rest head' queue'
  have now : ringAt (failHead c d p r status) p r = v[r] := by
    rw [admits, shape, ringAt]
    exact congrArg (fun y : LemPort => y.rings[r]) (modP_at (modHead d p r f) p fun x => { x with txq := x.txq.filter keep ++ l, rings := v })
  dsimp only
  rw [now, ring]
  refine ⟨_, rfl, rfl, rfl, bne_iff_ne.2 bad, rfl, rfl, ?_⟩
  rw [admits, shape]
  rfl

/-- Settles O34. -/
theorem dependenciesHoldBackTheHead : Obligations.DependenciesHoldBackTheHead := by
  unfold Obligations.DependenciesHoldBackTheHead
  intro s p r running e h q rest head queue waits sound
  have expiry : exec (.waitTimeoutExpiry p r) s = .next { s with dev := epilogue s.cfg (waitTimeout s.cfg e p r) } := by
    change execWaitTimeoutExpiry p r s = _
    rw [execWaitTimeoutExpiry, onDev_alive running]
  refine ⟨fun k all met plain => ?ready, fun k all met coll ops => ?recipe, fun all => ?prevails, fun missing => ?ends⟩
  case ready =>
    rw [execDependencySatisfied_met running head waits met, advanceHead, show (ringAt (judgeRing s.cfg s.dev p r) p r).head = some h from head,
      show (ringAt (judgeRing s.cfg s.dev p r) p r).queue = q :: rest from queue]
    dsimp only
    have direct : ¬((isColl (dKind q.bytes) && dRecipeOps q.bytes != 0) = true) := fun both =>
      plain.elim (fun none => by rw [none] at both; exact Bool.false_ne_true both) fun none => by rw [none, Bool.and_comm] at both; exact Bool.false_ne_true both
    rw [if_neg (not_not_intro waits), if_neg (not_not_intro sound), if_pos all, if_neg direct]
  case recipe =>
    rw [execDependencySatisfied_met running head waits met, advanceHead, show (ringAt (judgeRing s.cfg s.dev p r) p r).head = some h from head,
      show (ringAt (judgeRing s.cfg s.dev p r) p r).queue = q :: rest from queue]
    dsimp only
    have reads : (isColl (dKind q.bytes) && dRecipeOps q.bytes != 0) = true := by rw [coll, Bool.true_and]; exact bne_iff_ne.2 ops
    rw [if_neg (not_not_intro waits), if_neg (not_not_intro sound), if_pos all, if_pos reads]
    rfl
  case prevails =>
    rw [expiry, waitTimeout, head, queue]
    dsimp only
    rw [if_pos (.inr (.inr all))]
  case ends =>
    obtain ⟨v, w, sent⟩ := sendUnwatches_only s.cfg e p r q.bytes h
    obtain ⟨rings, health, tenant⟩ := countWait_facts s.cfg (sendUnwatches s.cfg e p r q.bytes h) (tenantOf s.cfg p)
    have kept : ringAt (sendUnwatches s.cfg e p r q.bytes h) p r = ringAt e p r := by rw [sent]; rfl
    obtain ⟨x, cur, free, status, finished, desc, index, stat⟩ := failHead_shape s.cfg _ p r h q rest 0x10
      ((congrArg Ring.head ((rings p r).trans kept)).trans head) ((congrArg Ring.queue ((rings p r).trans kept)).trans queue) (by decide) (by decide)
    refine ⟨_, x, ?_, cur, free, status, finished, desc, index, ?_, ?_⟩
    · rw [expiry, waitTimeout, head, queue]
      dsimp only
      rw [if_neg (by rintro (waiting | failed | all); exacts [waiting waits, failed sound, Bool.false_ne_true (missing.symm.trans all)])]
    · rw [stat, health, sent]
    · rw [stat, tenant, sent]

end Sys2Proof.Machine
end

section
/-! Work rings: the admission of a descriptor, and what each kind begins with (R321, R333, R359, R396, R483, R517, R525, R557). -/
namespace Sys2Proof.Machine
open Sys2Proof

/-! ## The head leaves the prefetch queue -/

/-- What members are counted from: the torus, the surviving view and the ports' hellos. -/
structure SameMembers (d e : Dev) : Prop where
  sow : e.sow = d.sow
  recov : e.recov = d.recov
  line : e.line = d.line
  present : ∀ q : LPort, e.lem[q].present = d.lem[q].present
  phase : ∀ q : LPort, e.lem[q].phase = d.lem[q].phase
  accepted : ∀ q : LPort, e.lem[q].accepted = d.lem[q].accepted
  fixedCount : ∀ q : LPort, e.lem[q].fixedCount = d.lem[q].fixedCount
  outOfUse : ∀ q : LPort, e.lem[q].outOfUse = d.lem[q].outOfUse

section
variable {d e : Dev} (same : SameMembers d e)
include same

theorem SameMembers.ownAddr : ownAddr e = ownAddr d := by rw [Machine.ownAddr, same.sow, Machine.ownAddr]

theorem SameMembers.ownGroup (desc : Desc) (list : List Byte) : ownGroup e desc list = ownGroup d desc list := by
  rw [Machine.ownGroup, same.ownAddr, Machine.ownGroup]

theorem SameMembers.presentMask (c : Cfg) : presentMask c e = presentMask c d := by
  have cores : coresOn c e = coresOn c d := funext fun q => by rw [coresOn, portPresent, same.present, same.phase, same.accepted]; rfl
  rw [Machine.presentMask, cores]
  rfl

theorem SameMembers.lostLeafMask : lostLeafMask e = lostLeafMask d := by
  refine congrArg (fun g => allLem.foldl g 0) (funext fun m => funext fun q => ?_)
  rw [portPresent, same.present, same.phase, same.accepted, same.fixedCount, same.outOfUse]
  rfl

theorem SameMembers.localMembers (c : Cfg) (t : Tenant) (g : Group) : localMembers c e t g = localMembers c d t g := by
  rw [Machine.localMembers, same.ownAddr, same.presentMask, same.sow, Machine.localMembers]

theorem SameMembers.namedCount (c : Cfg) (t : Tenant) (g : Group) : namedCount c e t g = namedCount c d t g := by
  simp only [Machine.namedCount, liveNamed, namedOn, viewOf, same.sow, same.recov, same.ownAddr, same.lostLeafMask]

end

/-- A change of one port's queues and rings leaves the members as they are. -/
theorem SameMembers.queues (d : Dev) (p : LPort) (tx : List TxItem → List TxItem) (v : Vector Ring 8) (k : Coll) :
    SameMembers d { modP d p (fun x => { x with txq := tx x.txq, rings := v }) with coll := k } := by
  have each_ : ∀ {α : Type} (g : LemPort → α), (∀ x : LemPort, g { x with txq := tx x.txq, rings := v } = g x) → ∀ q : LPort,
      g (modP d p fun x => { x with txq := tx x.txq, rings := v }).lem[q] = g d.lem[q] := fun g free q => by
    by_cases at_ : q = p
    · subst at_; rw [modP_at, free]
    · rw [modP_other d _ at_]
  exact ⟨rfl, rfl, rfl, each_ LemPort.present fun _ => rfl, each_ LemPort.phase fun _ => rfl, each_ LemPort.accepted fun _ => rfl,
    each_ LemPort.fixedCount fun _ => rfl, each_ LemPort.outOfUse fun _ => rfl⟩

/-- A change of a ring leaves the members as they are. -/
theorem SameMembers.modR {d e : Dev} (same : SameMembers d e) (p : LPort) (r : RingNo) (f : Ring → Ring) : SameMembers d (modR e p r f) := by
  have each_ : ∀ {α : Type} (g : LemPort → α), (∀ (x : LemPort) v, g { x with rings := v } = g x) → ∀ q : LPort, g (Machine.modR e p r f).lem[q] = g e.lem[q] := fun g free q => by
    rw [modR_modP]
    by_cases at_ : q = p
    · subst at_; rw [modP_at, free]
    · rw [modP_other e _ at_]
  exact ⟨same.sow, same.recov, same.line, fun q => (each_ LemPort.present (fun _ _ => rfl) q).trans (same.present q), fun q => (each_ LemPort.phase (fun _ _ => rfl) q).trans (same.phase q),
    fun q => (each_ LemPort.accepted (fun _ _ => rfl) q).trans (same.accepted q), fun q => (each_ LemPort.fixedCount (fun _ _ => rfl) q).trans (same.fixedCount q),
    fun q => (each_ LemPort.outOfUse (fun _ _ => rfl) q).trans (same.outOfUse q)⟩

theorem SameMembers.modRun {d e : Dev} (same : SameMembers d e) (p : LPort) (r : RingNo) (f : Run → Run) : SameMembers d (modRun e p r f) := same.modR p r _

/-- Where the head of a ring is ready, its first descriptor is admitted (R321): what the unit is after it. -/
structure Admitted (c : Cfg) (d : Dev) (p : LPort) (r : RingNo) (h : Head) (q : Slot) (rest : List Slot) (E : Dev) : Prop where
  cur : (ringAt E p r).cur = some (admittedRun c d p h q)
  head : (ringAt E p r).head = none
  queue : (ringAt E p r).queue = rest
  coll : E.coll = { d.coll with admitted := d.coll.admitted + 1 }
  others : E = { d with lem := E.lem, coll := E.coll }
  curs : ∀ (p' : LPort) (z : RingNo), p' ≠ p ∨ z ≠ r → (ringAt E p' z).cur = (ringAt d p' z).cur
  members : SameMembers d E
  stays : ∀ it ∈ d.lem[p].txq, itemReads isHeader it = false → it ∈ E.lem[p].txq
  comes : ∀ it ∈ E.lem[p].txq, it ∈ d.lem[p].txq ∨ itemReads isSlots it = true

theorem admitHead_admitted {c : Cfg} {d : Dev} {p : LPort} {r : RingNo} {h : Head} {q : Slot} {rest : List Slot} (head : (ringAt d p r).head = some h)
    (queue : (ringAt d p r).queue = q :: rest) : Admitted c d p r h q rest (admitHead c d p r) := by
  obtain ⟨keep, v, n, b, l, slots, headers, rings, ring, shape⟩ := admitHead_shape c d p r h q rest head queue
  have port : (admitHead c d p r).lem[p] = { d.lem[p] with txq := d.lem[p].txq.filter keep ++ l, rings := v } := by
    rw [shape]
    exact modP_at d p fun x => { x with txq := x.txq.filter keep ++ l, rings := v }
  have now : ringAt (admitHead c d p r) p r = v[r] := by rw [ringAt, port]
  constructor
  case cur => rw [now, ring]
  case head => rw [now, ring]
  case queue => rw [now, ring]
  case coll => rw [shape]
  case others => rw [shape]; rfl
  case curs =>
    intro p' z other
    by_cases at_ : p' = p
    · subst at_
      obtain ⟨deferred, same⟩ := rings z (other.resolve_left fun off => off rfl)
      have now : ringAt (admitHead c d p' r) p' z = v[z] := by rw [ringAt, port]
      rw [now, same]
    · have kept : (admitHead c d p r).lem[p'] = d.lem[p'] := by
        rw [shape]
        exact modP_other d (fun x => { x with txq := x.txq.filter keep ++ l, rings := v }) at_
      rw [ringAt, kept]
      rfl
  case members =>
    rw [shape]
    exact SameMembers.queues d p (fun tx => tx.filter keep ++ l) v _
  case stays =>
    intro it among other
    rw [port]
    refine List.mem_append_left l (List.mem_filter.2 ⟨among, ?_⟩)
    by_contra dropped
    exact Bool.false_ne_true (other.symm.trans (headers it (Bool.not_eq_true _ ▸ dropped)))
  case comes =>
    intro it among
    rw [port] at among
    exact (List.mem_append.1 among).imp (fun kept => (List.mem_filter.1 kept).1) (slots it)

/-- A ready head whose descriptor passes the test runs what its kind does. -/
theorem admitWhen_ready {c : Cfg} {d : Dev} {p : LPort} {r : RingNo} {h : Head} {q : Slot} {rest : List Slot} {ok : Desc → Bool} (act : Dev → Run → Dev)
    (head : (ringAt d p r).head = some h) (queue : (ringAt d p r).queue = q :: rest) (ready : h.stage = .ready) (sound : h.status = 0) (passes : ok q.bytes = true) :
    admitWhen c d p r ok act = epilogue c (act (admitHead c d p r) (admittedRun c d p h q)) := by
  rw [admitWhen, head, queue]
  dsimp only
  rw [if_pos ⟨ready, sound, passes⟩, (admitHead_admitted head queue).cur]

/-- The same, for a row that admits one kind of descriptor. -/
theorem admitWhen_kind {c : Cfg} {d : Dev} {p : LPort} {r : RingNo} {h : Head} {q : Slot} {rest : List Slot} {k : Nat} (act : Dev → Run → Dev)
    (head : (ringAt d p r).head = some h) (queue : (ringAt d p r).queue = q :: rest) (ready : h.stage = .ready) (sound : h.status = 0) (kind : dKind q.bytes = k) :
    admitWhen c d p r (fun q => dKind q == k) act = epilogue c (act (admitHead c d p r) (admittedRun c d p h q)) :=
  admitWhen_ready act head queue ready sound (beq_iff_eq.2 kind)

/-- After the admission, a change of the run alone. -/
theorem Admitted.modRun {c : Cfg} {d : Dev} {p : LPort} {r : RingNo} {h : Head} {q : Slot} {rest : List Slot} {E : Dev} (after : Admitted c d p r h q rest E) (f : Run → Run) :
    (ringAt (modRun E p r f) p r).cur = some (f (admittedRun c d p h q)) ∧ (ringAt (modRun E p r f) p r).head = none ∧ (ringAt (modRun E p r f) p r).queue = rest := by
  refine ⟨by rw [cur_modRun, after.cur]; rfl, ?_, ?_⟩
  · rw [Machine.modRun, modR_at]; exact after.head
  · rw [Machine.modRun, modR_at]; exact after.queue

/-! ## NOP and collectives -/

/-- A request for hold space is granted at once where no earlier one waits and it fits, and else waits (R526). -/
theorem askStore_hold (c : Cfg) (d : Dev) (t : Tenant) (p : LPort) (r : RingNo) (n : Nat) :
    let now := (∀ w ∈ d.store.wait[t], reqIsHold w = false) ∧ d.store.held[t] + n ≤ holdQuota c t
    ∃ b st, askStore c d t (.hold p r n) = modRun { d with store := st } p r (fun x => { x with holdOk := b || x.holdOk }) ∧
      (now → b = true ∧ st = { d.store with held := d.store.held.set t (d.store.held[t] + n) }) ∧
      (¬now → b = false ∧ st = { d.store with wait := d.store.wait.set t (d.store.wait[t] ++ [.hold p r n]) }) := by
  intro now
  by_cases free : now
  · obtain ⟨first, fits⟩ := free
    have none : (d.store.wait[t]).all (fun w => reqIsHold w != reqIsHold (.hold p r n)) = true := List.all_eq_true.2 fun w among => by rw [first w among]; rfl
    have room : reqFits c d t (.hold p r n) = true := decide_eq_true fits
    refine ⟨true, _, ?_, fun _ => ⟨rfl, rfl⟩, fun waits => (waits ⟨first, fits⟩).elim⟩
    rw [askStore, none, room, Bool.and_self, if_pos rfl]
    rfl
  · refine ⟨false, _, ?_, fun granted => (free granted).elim, fun _ => ⟨rfl, rfl⟩⟩
    have same : ∀ D : Dev, modRun D p r (fun x => { x with holdOk := false || x.holdOk }) = D := fun D => modR_self (by
      cases cur : (ringAt D p r).cur <;> exact congrArg (fun z => { (ringAt D p r) with cur := z }) cur.symm)
    rw [same]
    refine if_neg fun granted => free ?_
    obtain ⟨none, room⟩ := Bool.and_eq_true_iff.1 granted
    refine ⟨fun w among => ?_, of_decide_eq_true room⟩
    have other := List.all_eq_true.1 none w among
    rcases holds : reqIsHold w with _ | _
    · rfl
    · rw [holds] at other; cases other

/-- The state in which an admitted collective descriptor is placed: its hold is asked for, its `aux` named, its clear begun. -/
def collAsked (c : Cfg) (d : Dev) (p : LPort) (r : RingNo) (x : Run) : Dev :=
  modRun (askStore c d (tenantOf c p) (.hold p r x.holdStripes)) p r fun y => { y with
    aux := y.named.length, clearing := dKind x.desc == 4 && dClear x.desc && receivesHere (askStore c d (tenantOf c p) (.hold p r x.holdStripes)) x.desc }

theorem runColl_asked {c : Cfg} {d : Dev} {p : LPort} {r : RingNo} {x y : Run} (cur : (ringAt (collAsked c d p r x) p r).cur = some y) :
    runColl c d p r x = placeColl c (collAsked c d p r x) p r y := by
  rw [runColl, show (ringAt (modRun (askStore c d (tenantOf c p) (.hold p r x.holdStripes)) p r _) p r).cur = some y from cur]
  rfl

/-- Settles O35: the head is admitted, and its hold is asked for. -/
theorem collectivesAreAdmitted : Obligations.CollectivesAreAdmitted := by
  unfold Obligations.CollectivesAreAdmitted
  intro s p r h q rest running head queue ready sound t n store now admitted collective
  have after := admitHead_admitted (c := s.cfg) head queue
  obtain ⟨E, shape⟩ : ∃ E, E = admitHead s.cfg s.dev p r := ⟨_, rfl⟩
  rw [← shape] at after
  have storeE : E.store = store := by rw [after.others]
  have trlE : E.trl = s.dev.trl := by rw [after.others]
  have pegsE : E.pegs = s.dev.pegs := by rw [after.others]
  have unfinished : (admittedRun s.cfg s.dev p h q).finished = false := bne_eq_false_iff_eq.2 sound
  have asked : isColl (dKind q.bytes) = true → ∃ y, (ringAt (collAsked s.cfg E p r (admittedRun s.cfg s.dev p h q)) p r).cur = some y ∧
      collective (collAsked s.cfg E p r (admittedRun s.cfg s.dev p h q)) y := by
    intro coll
    have named : (admittedRun s.cfg s.dev p h q).named = namedMembers s.cfg s.dev t (groupOf q.bytes (h.list.getD []) (ownAddr s.dev)) := by
      change (if (isColl (dKind q.bytes) && h.status == 0) = true then _ else _) = _
      rw [coll, sound]
      rfl
    have clears : ∀ D : Dev, ownAddr D = ownAddr s.dev → ((dKind q.bytes == 4 && dClear q.bytes && receivesHere D q.bytes) = true ↔
        dKind q.bytes = 4 ∧ dClear q.bytes = true ∧ (dOp q.bytes ≠ 1 ∨ dRoot q.bytes / 128 = ownAddr s.dev)) := by
      intro D own
      rw [receivesHere, own, Bool.and_eq_true, Bool.and_eq_true, Bool.or_eq_true, bne_iff_ne, beq_iff_eq, beq_iff_eq, and_assoc]
      rfl
    obtain ⟨b, st, asks, grants, queues⟩ := askStore_hold s.cfg E t p r n
    rw [storeE] at grants queues
    have own : ownAddr (askStore s.cfg E t (.hold p r n)) = ownAddr s.dev := by
      rw [asks]
      exact after.members.ownAddr
    have cur : (ringAt (askStore s.cfg E t (.hold p r n)) p r).cur = some { (admittedRun s.cfg s.dev p h q) with holdOk := b || false } := by
      rw [asks, cur_modRun]
      exact congrArg (Option.map _) after.cur
    have others : askStore s.cfg E t (.hold p r n) = { s.dev with lem := (askStore s.cfg E t (.hold p r n)).lem, coll := E.coll, store := st } := by
      rw [asks, after.others]
      rfl
    have head' : (ringAt (askStore s.cfg E t (.hold p r n)) p r).head = Option.none ∧ (ringAt (askStore s.cfg E t (.hold p r n)) p r).queue = rest := by
      rw [asks, Machine.modRun, modR_at]
      exact ⟨after.head, after.queue⟩
    obtain ⟨D, shapeD⟩ : ∃ D, D = askStore s.cfg E t (.hold p r n) := ⟨_, rfl⟩
    rw [← shapeD] at own cur others head'
    have row : collAsked s.cfg E p r (admittedRun s.cfg s.dev p h q) = modRun D p r fun y => { y with
        aux := y.named.length, clearing := dKind q.bytes == 4 && dClear q.bytes && receivesHere D q.bytes } := by rw [shapeD]; rfl
    refine ⟨{ (admittedRun s.cfg s.dev p h q) with holdOk := b || false, aux := (admittedRun s.cfg s.dev p h q).named.length, clearing := dKind q.bytes == 4 && dClear q.bytes && receivesHere D q.bytes }, ?_, ?_⟩
    · rw [row, cur_modRun, cur]
      rfl
    · have facts : (ringAt (modRun D p r fun y => { y with aux := y.named.length, clearing := dKind q.bytes == 4 && dClear q.bytes && receivesHere D q.bytes }) p r).head = Option.none ∧
          (ringAt (modRun D p r fun y => { y with aux := y.named.length, clearing := dKind q.bytes == 4 && dClear q.bytes && receivesHere D q.bytes }) p r).queue = rest := by
        rw [Machine.modRun, modR_at]
        exact head'
      rw [row]
      refine ⟨⟨?_, facts.1, facts.2, rfl, rfl, sound, rfl, rfl, ?_, ?_, ?_⟩, unfinished, rfl, rfl, rfl, named, fun free => ⟨?_, ?_⟩, fun waits => ⟨?_, ?_⟩, clears D own⟩
      · rw [cur_modRun, cur]; rfl
      · rw [others]; exact after.coll
      · rw [others]; rfl
      · rw [others]; rfl
      · rw [(grants free).1]; rfl
      · rw [others]; exact (grants free).2
      · rw [(queues waits).1]; rfl
      · rw [others]; exact (queues waits).2
  refine ⟨fun kind => ?nop, fun e among kind op => ?colls, fun kind => ?resident⟩
  case nop =>
    have row : exec (.nop p r) s = .next { s with dev := epilogue s.cfg (finishRun E p r 0) } := by
      change execNop p r s = _
      rw [execNop, onDev_alive running, admitWhen_kind _ head queue ready sound kind, shape]
    obtain ⟨cur, gone, left⟩ := after.modRun fun x => { x with finished := true, aux := 0 }
    exact ⟨_, _, row, ⟨cur, gone, left, rfl, rfl, sound, rfl, rfl, after.coll, trlE, pegsE⟩, rfl, rfl, storeE⟩
  case colls =>
    have coll : isColl (dKind q.bytes) = true := by
      rw [kind]
      fin_cases among <;> rfl
    obtain ⟨y, cur, facts⟩ := asked coll
    refine ⟨_, y, ?_, facts⟩
    have admits : onDev s (fun d => admitColl s.cfg d p r e.2.1 e.2.2) = .next { s with
        dev := epilogue s.cfg (placeColl s.cfg (collAsked s.cfg E p r (admittedRun s.cfg s.dev p h q)) p r y) } := by
      rw [onDev_alive running, admitColl, admitWhen_ready _ head queue ready sound (Bool.and_eq_true_iff.2 ⟨beq_iff_eq.2 kind, beq_iff_eq.2 op⟩), ← shape, runColl_asked cur]
    rw [← admits]
    fin_cases among <;> rfl
  case resident =>
    obtain ⟨y, cur, facts⟩ := asked (by rw [kind]; rfl)
    refine ⟨_, y, ?_, facts⟩
    change execResidentAccum p r s = _
    rw [execResidentAccum, onDev_alive running, admitWhen_kind _ head queue ready sound kind, ← shape, runColl_asked cur]

/-! ## YARD_LOAD and RESIDENT_FLUSH -/

theorem txq_modR (d : Dev) (p : LPort) (r : RingNo) (f : Ring → Ring) (q : LPort) : (modR d p r f).lem[q].txq = d.lem[q].txq := by
  rw [modR_modP]
  by_cases same : q = p
  · subst same; rw [modP_at]
  · rw [modP_other d _ same]

/-- The entries that a YARD_LOAD leaves are the same once it is admitted: its own ring is not counted (R483). -/
theorem Admitted.entriesLeft {c : Cfg} {d : Dev} {p : LPort} {r : RingNo} {h : Head} {q : Slot} {rest : List Slot} {E : Dev} (after : Admitted c d p r h q rest E) (t : Tenant) (desc : Desc) :
    entriesLeft c E t p r desc = entriesLeft c d t p r desc := by
  have store : E.store = d.store := by rw [after.others]
  have loads : ∀ p' : LPort, (fun k : RingNo => (p' != p || k != r) && (ringAt E p' k).cur.any fun y => dKind y.desc == 3 && y.yardStage == 1 && !y.finished) =
      fun k => (p' != p || k != r) && (ringAt d p' k).cur.any fun y => dKind y.desc == 3 && y.yardStage == 1 && !y.finished := fun p' => funext fun k => by
    by_cases other : p' ≠ p ∨ k ≠ r
    · rw [after.curs p' k other]
    · obtain ⟨here, this⟩ := not_or.1 other
      rw [not_not.1 here, not_not.1 this, bne_self_eq_false, bne_self_eq_false]
      rfl
  unfold Machine.entriesLeft
  dsimp only
  rw [show (dropBlocks E t (leNat desc 0x30 4) (loadBytes desc)).store = (dropBlocks d t (leNat desc 0x30 4) (loadBytes desc)).store by rw [dropBlocks, modStore, store]; rfl]
  simp only [loads]

/-- Reading pieces into the yard queues reads: no ring, and nothing of the storage, changes. -/
theorem wantPieces_keeps (p : LPort) (r : RingNo) (ps : List (Nat × Nat × Nat)) (why : Nat → ReadWhy) (d : Dev) :
    let D := each ps d fun d e => wantRead d p { why := why e.1, vc := 1, addr := e.2.1, size := e.2.2 }
    ringAt D p r = ringAt d p r ∧ D.store = d.store := by
  refine each_rel (fun a b => ringAt b p r = ringAt a p r ∧ b.store = a.store) (fun _ => ⟨rfl, rfl⟩) (fun _ _ _ ab bc => ⟨bc.1.trans ab.1, bc.2.trans ab.2⟩) ps _ (fun a e => ?_) d
  exact ⟨ringAt_wantRead .., rfl⟩

theorem execYardLoad_admits {s : State} {p : LPort} {r : RingNo} {h : Head} {q : Slot} {rest : List Slot} (running : alive s = true) (head : (ringAt s.dev p r).head = some h)
    (queue : (ringAt s.dev p r).queue = q :: rest) (ready : h.stage = .ready) (sound : h.status = 0) (kind : dKind q.bytes = 3) :
    exec (.yardLoad p r) s = .next { s with dev := epilogue s.cfg (runYardLoad s.cfg (admitHead s.cfg s.dev p r) p r (admittedRun s.cfg s.dev p h q)) } := by
  change execYardLoad p r s = _
  rw [execYardLoad, onDev_alive running, admitWhen_kind _ head queue ready sound kind]

/-- The directory once the blocks that a range overlaps are gone. -/
theorem dropBlocks_dir (d : Dev) (t : Tenant) (a n : Nat) (b : Block) :
    b ∈ (dropBlocks d t a n).store.dir ↔ b ∈ d.store.dir ∧ ¬(b.tenant = t ∧ overlaps b.addr (b.k * b.n * codeBytes b.wFmt) a n = true) := by
  rw [dropBlocks, modStore, List.mem_filter, Bool.not_eq_true', Bool.and_eq_false_iff, beq_eq_false_iff_ne, not_and_or, Bool.not_eq_true]
  rfl

theorem ringAt_recov (d : Dev) (k : Rec) (p : LPort) (r : RingNo) : ringAt { d with recov := k } p r = ringAt d p r := rfl

theorem checkError_ring (d : Dev) (p : LPort) (r : RingNo) :
    ringAt (checkError d p r) p r = { (ringAt d p r) with cur := (ringAt d p r).cur.map fun x => { x with status := 0x22, finished := true, metFault := true } } := by
  rw [checkError]
  exact (ringAt_recov _ _ p r).trans (modR_at d p r _)

/-- Meeting bad words counts them and marks them poisoned: rings and directory stay. -/
theorem meetBad_rings (d : Dev) (ws : List Nat) : (∀ p r, ringAt (meetBad d ws) p r = ringAt d p r) ∧ (meetBad d ws).store.dir = d.store.dir := by
  refine each_rel (fun a b => (∀ p r, ringAt b p r = ringAt a p r) ∧ b.store.dir = a.store.dir) (fun _ => ⟨fun _ _ => rfl, rfl⟩)
    (fun _ _ _ ab bc => ⟨fun p r => (bc.1 p r).trans (ab.1 p r), bc.2.trans ab.2⟩) ws _ (fun a w => ?_) d
  obtain ⟨m, only⟩ := bumpHealthN_eq a 1 1
  exact ⟨fun p r => (only.ring p r : ringAt (bumpHealthN a 1 1) p r = _), (congrArg (fun e : Dev => e.store.dir) only.1 : (bumpHealthN a 1 1).store.dir = _)⟩

theorem spoolBytes_store (c : Cfg) {d e : Dev} (same : e.store = d.store) (t : Tenant) (a n : Nat) : spoolBytes c e t a n = spoolBytes c d t a n := by
  rw [spoolBytes, same, spoolBytes]

/-- What is written to the yard does not depend on the directory. -/
theorem writeYard_dropped (c : Cfg) {d e : Dev} (same : e.store = d.store) (t u : Tenant) (a n b : Nat) (bs : List Byte) :
    (writeYard c (dropBlocks e t a n) u b bs).store.yard = (writeYard c d u b bs).store.yard := by
  rw [writeYard, modStore, dropBlocks, modStore, same, writeYard, modStore]

/-- The source of a YARD_LOAD is brought in: from the leaf by reads, from good Spool words at once (R483). -/
theorem copyYard_facts (c : Cfg) (E : Dev) (p : LPort) (r : RingNo) (desc : Desc) (x : Run) (cur : (ringAt E p r).cur = some x) :
    let D := copyYard c E p r desc
    let t := tenantOf c p
    let a := leNat desc 0x30 4
    let src := leNat desc 0x38 8
    let n := loadBytes desc
    (bitOf (byteAt desc 0x29) 0 = false → (ringAt D p r) = { (ringAt E p r) with cur := some { x with yardStage := 1, readsLeft := (readPieces src n).length } } ∧ D.store = (dropBlocks E t a n).store) ∧
    (bitOf (byteAt desc 0x29) 0 = true → (∀ w ∈ spoolWords c t src n, wordGood E w = true) →
      (ringAt D p r) = { (ringAt E p r) with cur := some { x with yardStage := 1 } } ∧ D.store = (writeYard c (dropBlocks E t a n) t a (spoolBytes c E t src n)).store) ∧
    (∃ y, (ringAt D p r) = { (ringAt E p r) with cur := some y } ∧ y.desc = x.desc ∧ D.store.dir = (dropBlocks E t a n).store.dir) := by
  intro D t a src n
  let F := modRun (dropBlocks E t a n) p r fun y => { y with yardStage := 1 }
  let bad := (spoolWords c t src n).filter fun w => !wordGood F w
  let asked := modRun F p r fun y => { y with readsLeft := (readPieces src n).length }
  let why : Nat → ReadWhy := fun k => .yardSrc r k
  have shape : D = if bitOf (byteAt desc 0x29) 0 then (if bad.isEmpty then writeYard c F t a (spoolBytes c F t src n) else checkError (meetBad F bad) p r)
      else each (readPieces src n) asked fun d e => wantRead d p { why := why e.1, vc := 1, addr := e.2.1, size := e.2.2 } := rfl
  have ringF : ringAt F p r = { (ringAt E p r) with cur := some { x with yardStage := 1 } } := by
    rw [show F = modRun (dropBlocks E t a n) p r _ from rfl, modRun, modR_at, show ringAt (dropBlocks E t a n) p r = ringAt E p r from rfl, cur]
    rfl
  have reads : bitOf (byteAt desc 0x29) 0 = false → (ringAt D p r) = { (ringAt E p r) with cur := some { x with yardStage := 1, readsLeft := (readPieces src n).length } } ∧
      D.store = (dropBlocks E t a n).store := fun leaf => by
    obtain ⟨ring, store⟩ := wantPieces_keeps p r (readPieces src n) why asked
    rw [shape, leaf, if_neg Bool.false_ne_true]
    refine ⟨ring.trans ?_, store⟩
    rw [show asked = modRun F p r _ from rfl, modRun, modR_at, ringF]
    rfl
  have copies : bitOf (byteAt desc 0x29) 0 = true → (∀ w ∈ spoolWords c t src n, wordGood E w = true) →
      (ringAt D p r) = { (ringAt E p r) with cur := some { x with yardStage := 1 } } ∧ D.store = (writeYard c (dropBlocks E t a n) t a (spoolBytes c E t src n)).store := fun spool good => by
    have none : bad = [] := List.filter_eq_nil_iff.2 fun w among => by
      rw [show wordGood F w = wordGood E w from rfl, good w among]
      exact Bool.false_ne_true
    rw [shape, spool, if_pos rfl, none]
    exact ⟨ringF, rfl⟩
  refine ⟨reads, copies, ?_⟩
  cases source : bitOf (byteAt desc 0x29) 0
  case false => exact ⟨_, (reads source).1, rfl, congrArg Store.dir (reads source).2⟩
  case true =>
    rw [shape, source, if_pos rfl]
    by_cases none : bad.isEmpty = true
    · rw [if_pos none]
      exact ⟨_, ringF, rfl, rfl⟩
    · rw [if_neg none]
      obtain ⟨rings, dir⟩ := meetBad_rings F bad
      refine ⟨{ x with yardStage := 1, status := 0x22, finished := true, metFault := true }, ?_, rfl, dir⟩
      rw [checkError_ring, rings, ringF]
      rfl

theorem clearSpool_ring (c : Cfg) (d : Dev) (t : Tenant) (a n : Nat) (p : LPort) (r : RingNo) : ringAt (clearSpool c d t a n) p r = ringAt d p r := rfl

/-- What a clear makes of the storage depends on the storage alone. -/
theorem clearSpool_store (c : Cfg) {d e : Dev} (same : e.store = d.store) (t : Tenant) (a n : Nat) : (clearSpool c e t a n).store = (clearSpool c d t a n).store := by
  rw [clearSpool, modStore, same, clearSpool, modStore]

/-- A flush of good words (R366, R515 to R517). -/
theorem runFlush_good {c : Cfg} {d : Dev} {p : LPort} {r : RingNo} {x : Run} {desc : Desc} (named : x.desc = desc) (good : flushBad c d (tenantOf c p) desc = []) :
    runFlush c d p r x =
      let out := leNat desc 0x40 8
      let e := outWrite d p r out (codeBytes (dOut desc)) ((List.range (dCount desc)).flatMap (flushElem c d (tenantOf c p) desc))
      finishRun (if dClear desc then modRun (clearSpool c e (tenantOf c p) (dSpoolAddr desc) (regionBytes desc)) p r fun y => { y with spoolPending := true } else e) p r (dCount desc) := by
  subst named
  rw [runFlush]
  dsimp only
  rw [good, List.isEmpty_nil, if_pos rfl]

/-- Settles O38. -/
theorem yardLoadsRegisterAndFlushesWrite : Obligations.YardLoadsRegisterAndFlushesWrite := by
  unfold Obligations.YardLoadsRegisterAndFlushesWrite
  constructor
  · intro s p r running t
    refine ⟨fun h q rest head queue ready sound kind full => ?full, fun h q rest head queue ready sound kind free => ?loads, fun x cur kind stage all unfinished => ?registers⟩
    case full =>
      have after := admitHead_admitted (c := s.cfg) head queue
      have row := execYardLoad_admits running head queue ready sound kind
      obtain ⟨cur, gone, left⟩ := after.modRun fun y => { y with status := 4, finished := true }
      rw [runYardLoad, show (admittedRun s.cfg s.dev p h q).desc = q.bytes from rfl, after.entriesLeft, if_pos full] at row
      exact ⟨_, _, row, cur, gone, left, rfl, rfl, rfl, by rw [after.others]; rfl⟩
    case loads =>
      have after := admitHead_admitted (c := s.cfg) head queue
      have row := execYardLoad_admits running head queue ready sound kind
      rw [runYardLoad, show (admittedRun s.cfg s.dev p h q).desc = q.bytes from rfl, after.entriesLeft, if_neg free] at row
      obtain ⟨reads, copies, y, ring, desc, dir⟩ := copyYard_facts s.cfg (admitHead s.cfg s.dev p r) p r q.bytes _ after.cur
      have store : (admitHead s.cfg s.dev p r).store = s.dev.store := by rw [after.others]
      have now : ∀ y', ringAt (copyYard s.cfg (admitHead s.cfg s.dev p r) p r q.bytes) p r = { (ringAt (admitHead s.cfg s.dev p r) p r) with cur := some y' } → y = y' := fun y' other =>
        Option.some.inj (congrArg Ring.cur (ring.symm.trans other))
      refine ⟨_, y, row, by rw [ring], by rw [ring]; exact after.head, by rw [ring]; exact after.queue, desc, fun b => ?_, fun leaf => ?_, fun spool words => ?_⟩
      · rw [dir, dropBlocks_dir, store]
      · obtain ⟨ring', store'⟩ := reads leaf
        rw [now _ ring']
        exact ⟨rfl, bne_eq_false_iff_eq.2 sound, rfl, by rw [store', dropBlocks, modStore, store]⟩
      · obtain ⟨ring', store'⟩ := copies spool fun w among => by rw [wordGood, store]; exact words w among
        rw [now _ ring']
        refine ⟨rfl, bne_eq_false_iff_eq.2 sound, rfl, ?_⟩
        rw [store', spoolBytes_store s.cfg store]
        exact writeYard_dropped s.cfg store ..
    case registers =>
      have due : dKind x.desc = 3 ∧ x.yardStage = 1 ∧ x.readsLeft = 0 ∧ (!x.finished) = true := ⟨kind, stage, all, by rw [unfinished]; rfl⟩
      have row : exec (.yardBlockRegister p r) s = .next { s with dev := (finishRun (modRun (registerBlock s.cfg s.dev t x.desc) p r fun y => { y with yardStage := 2 }) p r (loadBytes x.desc)) } := by
        change execYardBlockRegister p r s = _
        rw [execYardBlockRegister, onDev_alive running, cur]
        dsimp only
        rw [if_pos due]
      have registered : ∃ dir, registerBlock s.cfg s.dev t x.desc = { s.dev with store := { s.dev.store with dir := dir } } ∧
          ∀ l, l = s.dev.store.dir.filter (fun b => !(b.tenant == t && overlaps b.addr (blockBytes b) (leNat x.desc 0x30 4) (loadBytes x.desc))) →
            ∀ g, (portsOf s.cfg t).find? (fun g => decide ((l.filter fun b => b.port == g).length < 128)) = some g → dir = l ++ [blockOf t g x.desc] := by
        rw [registerBlock]
        cases entry : freeEntry s.cfg (dropBlocks s.dev t (leNat x.desc 0x30 4) (loadBytes x.desc)) t with
        | some g =>
          refine ⟨_, rfl, fun l kept g' found => ?_⟩
          subst kept
          rw [Option.some.inj (entry.symm.trans found)]
          rfl
        | none =>
          refine ⟨_, rfl, fun l kept g' found => ?_⟩
          subst kept
          cases entry.symm.trans found
      obtain ⟨dir, shape, entry⟩ := registered
      refine ⟨_, row, ?_, ?_, ?_⟩
      · rw [finishRun, cur_modRun, cur_modRun, shape]
        rw [show (ringAt { s.dev with store := { s.dev.store with dir := dir } } p r).cur = some x from cur]
        rfl
      · rw [shape]; rfl
      · rw [shape]
        exact entry
  · intro s p r h q rest running head queue ready sound kind good t
    have after := admitHead_admitted (c := s.cfg) head queue
    obtain ⟨E, shape⟩ : ∃ E, E = admitHead s.cfg s.dev p r := ⟨_, rfl⟩
    rw [← shape] at after
    have store : E.store = s.dev.store := by rw [after.others]
    have row : exec (.residentFlush p r) s = .next { s with dev := epilogue s.cfg (runFlush s.cfg E p r (admittedRun s.cfg s.dev p h q)) } := by
      change execResidentFlush p r s = _
      rw [execResidentFlush, onDev_alive running, admitWhen_kind _ head queue ready sound kind, shape]
    have goodE : flushBad s.cfg E t q.bytes = [] := by rw [flushBad, store]; exact good
    have elems : flushElem s.cfg E t q.bytes = flushElem s.cfg s.dev t q.bytes := funext fun i => by
      simp only [flushElem, elemRead, spoolBytes, store]
    rw [runFlush_good (x := admittedRun s.cfg s.dev p h q) (desc := q.bytes) rfl goodE] at row
    let items := outItems r (leNat q.bytes 0x40 8) (codeBytes (dOut q.bytes)) (leNat q.bytes 0x40 8) ((List.range (dCount q.bytes)).flatMap (flushElem s.cfg s.dev t q.bytes))
    let e := pushTx E p items
    have written : outWrite E p r (leNat q.bytes 0x40 8) (codeBytes (dOut q.bytes)) ((List.range (dCount q.bytes)).flatMap (flushElem s.cfg E t q.bytes)) = e := by rw [elems]; rfl
    dsimp only at row
    rw [written] at row
    have ring : ringAt e p r = ringAt E p r := ringAt_pushTx ..
    have sent : e.lem[p].txq = E.lem[p].txq ++ items := congrArg LemPort.txq (modP_at E p fun x => { x with txq := x.txq ++ items })
    have txq : ∀ f, (modRun e p r f).lem[p].txq = E.lem[p].txq ++ items := fun f => (txq_modR ..).trans sent
    cases clear : dClear q.bytes
    case false =>
      rw [clear, if_neg Bool.false_ne_true] at row
      refine ⟨_, { (admittedRun s.cfg s.dev p h q) with finished := true, aux := dCount q.bytes }, E.lem[p].txq, row, ?_, ?_, ?_, rfl, rfl, sound, rfl, rfl, txq _, after.stays, after.comes, store⟩
      · rw [finishRun, cur_modRun, ring, after.cur]; rfl
      · rw [finishRun, modRun, modR_at, ring]; exact after.head
      · rw [finishRun, modRun, modR_at, ring]; exact after.queue
    case true =>
      have clearedRing : ringAt (clearSpool s.cfg e (tenantOf s.cfg p) (dSpoolAddr q.bytes) (regionBytes q.bytes)) p r = ringAt E p r := (clearSpool_ring ..).trans ring
      rw [clear, if_pos rfl] at row
      refine ⟨_, { (admittedRun s.cfg s.dev p h q) with spoolPending := true, finished := true, aux := dCount q.bytes }, E.lem[p].txq, row, ?_, ?_, ?_, rfl, rfl, sound, rfl, rfl, ?_, after.stays, after.comes, ?_⟩
      · rw [finishRun, cur_modRun, cur_modRun, clearedRing, after.cur]; rfl
      · rw [finishRun, modRun, modR_at, modRun, modR_at, clearedRing]; exact after.head
      · rw [finishRun, modRun, modR_at, modRun, modR_at, clearedRing]; exact after.queue
      · rw [finishRun, modRun, txq_modR, modRun, txq_modR]
        exact sent
      · rw [if_pos rfl]
        exact clearSpool_store s.cfg (d := s.dev) (e := e) store t (dSpoolAddr q.bytes) (regionBytes q.bytes)

/-! ## BARRIER and EPOCH_FENCE -/

/-- Settles O39. -/
theorem barriersAndFencesAreAdmitted : Obligations.BarriersAndFencesAreAdmitted := by
  unfold Obligations.BarriersAndFencesAreAdmitted
  intro s p r h q rest running head queue ready sound t admitted
  have after := admitHead_admitted (c := s.cfg) head queue
  obtain ⟨E, shape⟩ : ∃ E, E = admitHead s.cfg s.dev p r := ⟨_, rfl⟩
  rw [← shape] at after
  have unfinished : (admittedRun s.cfg s.dev p h q).finished = false := bne_eq_false_iff_eq.2 sound
  have others : E.trl = s.dev.trl ∧ E.pegs = s.dev.pegs ∧ E.store = s.dev.store := by
    rw [after.others]
    exact ⟨rfl, rfl, rfl⟩
  refine ⟨?barrier, fun kind => ?fence⟩
  case barrier =>
    intro kind g line parts
    let named := namedCount s.cfg s.dev t g
    let F := modRun E p r fun y => { y with aux := named }
    have row : exec (.barrier p r) s = .next { s with dev := epilogue s.cfg (runBarrier s.cfg E p r (admittedRun s.cfg s.dev p h q)) } := by
      change execBarrier p r s = _
      rw [execBarrier, onDev_alive running, admitWhen_kind _ head queue ready sound kind, shape]
    obtain ⟨cur, gone, left⟩ := after.modRun fun y => { y with aux := named }
    have participants : lineGroupOk s.cfg F t q.bytes (h.list.getD []) = (localMembers s.cfg s.dev t g == parts) := by
      have members := after.members.modRun p r fun y => { y with aux := named }
      rw [lineGroupOk, members.ownAddr, members.ownGroup, members.localMembers, members.presentMask]
      rfl
    have onLine : lineRun s.cfg p q.bytes = true ↔ line := by
      rw [lineRun, Bool.and_eq_true, ownsLine, beq_iff_eq]
      rfl
    have runs : runBarrier s.cfg E p r (admittedRun s.cfg s.dev p h q) =
        if (lineRun s.cfg p q.bytes && !(localMembers s.cfg s.dev t g == parts)) = true then endWith (noteLine F p r true s.dev.line.n) p r 9
        else placeBarrier s.cfg F p r { (admittedRun s.cfg s.dev p h q) with aux := named } := by
      have count : namedCount s.cfg E t (ownGroup E q.bytes (h.list.getD [])) = named := by rw [after.members.ownGroup, after.members.namedCount]; rfl
      rw [← participants, ← after.members.line, runBarrier]
      rw [show (admittedRun s.cfg s.dev p h q).desc = q.bytes from rfl, show (admittedRun s.cfg s.dev p h q).list = h.list.getD [] from rfl, count, cur]
      rfl
    have keeps : admitted F { (admittedRun s.cfg s.dev p h q) with aux := named } := ⟨cur, gone, left, rfl, rfl, others⟩
    refine ⟨fun on differs => ?_, fun off => ?_⟩
    · have ends : (lineRun s.cfg p q.bytes && !(localMembers s.cfg s.dev t g == parts)) = true := by
        rw [onLine.2 on, beq_false_of_ne differs]
        rfl
      rw [runs, if_pos ends] at row
      obtain ⟨cur', gone', left'⟩ := after.modRun fun y => { y with aux := named, lineBar := some s.dev.line.n, status := 9, finished := true }
      have shape' : endWith (noteLine F p r true s.dev.line.n) p r 9 = modRun E p r fun y => { y with aux := named, lineBar := some s.dev.line.n, status := 9, finished := true } := by
        rw [endWith, noteLine, if_pos rfl, show F = modRun E p r _ from rfl, modRun, modRun, modRun, modR_modR, modR_modR]
        exact modR_congr (by simp only [Option.map_map]; rfl)
      rw [shape'] at row
      exact ⟨_, _, row, ⟨cur', gone', left', rfl, rfl, others⟩, rfl, rfl, rfl, rfl⟩
    · have placed : ¬((lineRun s.cfg p q.bytes && !(localMembers s.cfg s.dev t g == parts)) = true) := fun both => by
        obtain ⟨on, differs⟩ := Bool.and_eq_true_iff.1 both
        rcases off with off | equal
        · exact off (onLine.1 on)
        · rw [equal, beq_self_eq_true] at differs
          cases differs
      rw [runs, if_neg placed] at row
      exact ⟨F, _, row, keeps, unfinished, sound, rfl⟩
  case fence =>
    have row : exec (.epochFence p r) s = .next { s with dev := epilogue s.cfg (readHeader s.cfg (modR E p r fun x => { x with st := .fenced, fenceOpen := true }) p r) } := by
      change execEpochFence p r s = _
      rw [execEpochFence, onDev_alive running, admitWhen_kind _ head queue ready sound kind, shape]
    refine ⟨_, _, row, ⟨?_, ?_, ?_, rfl, rfl, others⟩, unfinished, ?_, ?_⟩
    · rw [modR_at]; exact after.cur
    · rw [modR_at]; exact after.head
    · rw [modR_at]; exact after.queue
    · rw [modR_at]
    · rw [modR_at]

end Sys2Proof.Machine
end

section
/-! Work rings: the record of a descriptor leaves (R327 to R330, R372, R384, R527 to R529). -/
namespace Sys2Proof.Machine
open Sys2Proof

/-! ## What a record takes with it -/

/-- Only storage and instances differ, and each open one has the runs of one before. -/
def BooksOnly (d e : Dev) : Prop := (∃ st l, e = { d with store := st, coll := { d.coll with insts := l } }) ∧ ∀ y ∈ e.coll.insts, ∃ z ∈ d.coll.insts, y.runs = z.runs

theorem BooksOnly.refl (d : Dev) : BooksOnly d d := ⟨⟨d.store, d.coll.insts, rfl⟩, fun y among => ⟨y, among, rfl⟩⟩

theorem BooksOnly.trans {a b c : Dev} (ab : BooksOnly a b) (bc : BooksOnly b c) : BooksOnly a c := by
  obtain ⟨⟨st, l, rfl⟩, back⟩ := ab
  obtain ⟨⟨st', l', rfl⟩, back'⟩ := bc
  refine ⟨⟨st', l', rfl⟩, fun y among => ?_⟩
  obtain ⟨z, amongZ, runs⟩ := back' y among
  obtain ⟨w, amongW, runs'⟩ := back z amongZ
  exact ⟨w, amongW, runs.trans runs'⟩

theorem modInst_books (d : Dev) (t : Tenant) (k : W16) (f : Inst → Inst) (keeps : ∀ y, (f y).runs = y.runs) : BooksOnly d (modInst d t k f) := by
  refine ⟨⟨d.store, _, rfl⟩, fun y among => ?_⟩
  obtain ⟨z, amongZ, rfl⟩ := List.mem_map.1 among
  refine ⟨z, amongZ, ?_⟩
  split
  · exact keeps z
  · rfl

theorem releaseStaging_books (d : Dev) (x : Inst) : BooksOnly d (releaseStaging d x) := by
  unfold releaseStaging
  dsimp only
  split
  · exact ⟨⟨_, d.coll.insts, rfl⟩, fun y among => ⟨y, among, rfl⟩⟩
  · exact ⟨⟨_, d.coll.insts, rfl⟩, fun y among => ⟨y, among, rfl⟩⟩

/-- A descriptor that leaves runs in none of them any more; but for instances and storage nothing changes. -/
theorem leaveInst_facts (d : Dev) (p : LPort) (r : RingNo) (x : Run) :
    (∃ st l, leaveInst d p r x = { d with store := st, coll := { d.coll with insts := l } }) ∧ ∀ b ∈ (leaveInst d p r x).coll.insts, (p, r) ∉ b.runs := by
  obtain ⟨⟨st, l, shape⟩, back⟩ := each_rel BooksOnly BooksOnly.refl (fun _ _ _ => BooksOnly.trans)
    (d.coll.insts.filter fun y => y.runs.contains (p, r) && lastRecorded (leaveOne p r x y))
    (fun d y => modInst (releaseStaging d y) y.tenant y.coll fun z => { z with stageStripes := 0 })
    (fun d y => (releaseStaging_books d y).trans (modInst_books _ _ _ _ fun _ => rfl))
    { d with coll := { d.coll with insts := d.coll.insts.map (leaveOne p r x) } }
  refine ⟨⟨st, l, shape⟩, fun b among runs => ?_⟩
  obtain ⟨z, amongZ, same⟩ := back b among
  obtain ⟨w, -, rfl⟩ := List.mem_map.1 amongZ
  rw [same, leaveOne] at runs
  split at runs
  · exact absurd (List.mem_filter.1 runs).2 (by rw [bne_self_eq_false]; exact Bool.false_ne_true)
  · next out => exact out (List.contains_iff_mem.2 runs)

theorem releaseHold_store (d : Dev) (t : Tenant) (p : LPort) (r : RingNo) (x : Run) : ∃ st, releaseHold d t p r x = { d with store := st } := by
  unfold releaseHold dropHoldReq
  dsimp only
  split
  · exact ⟨_, rfl⟩
  · exact ⟨_, rfl⟩

/-- The state once a record has left, before a re-fetch, a fence's adoption and the next descriptor (R327 to R329, R384, R527). -/
def recordLeft (c : Cfg) (d : Dev) (p : LPort) (r : RingNo) (x : Run) : Dev :=
  let d := modR d p r fun y => { y with recorded := x.index + 1, cur := none }
  let d := bumpLem (bumpRing (writeConsumed d p r) p r false) p 11
  let d := dropReads (releaseHold d (tenantOf c p) p r x) p r isBulk
  leaveInst (paidStaging d x) p r { x with holdOk := false }

/-- Behind a descriptor that says so, the slots are fetched again (R327). -/
def recordRefetch (d : Dev) (p : LPort) (r : RingNo) (x : Run) : Dev :=
  if dRefetch x.desc && (ringAt d p r).st == .running then modR (discardFetched d p r) p r fun y => { y with nextFetch := x.index + 1, intake := x.index + 1 } else d

theorem afterRecord_eq (c : Cfg) (d : Dev) (p : LPort) (r : RingNo) (x : Run) :
    afterRecord c d p r x = startHead c (fetchMore (readDeferred c (judgeAll c (fenceAdopt c (recordRefetch (recordLeft c d p r x) p r x) p r)) p) p r) p r := rfl

/-- The port and the instances once a record has left. -/
theorem recordLeft_facts (c : Cfg) (d : Dev) (p : LPort) (r : RingNo) (x : Run) :
    let D := recordLeft c d p r x
    let y := d.lem[p]
    let z := D.lem[p]
    z.rings[r] = { y.rings[r] with recorded := x.index + 1, cur := none, recs := satInc64 y.rings[r].recs 1 } ∧ z.ctr = y.ctr.set 11 (satInc64 y.ctr[11] 1) ∧
    z.darn = y.darn ∧ z.credit = y.credit ∧
    z.txq = (y.txq ++ writeItems 2 r.val y.rings[r].hdr.consumedAddr (consumedWord (x.index + 1) y.rings[r].hdr.epoch)).filter (fun it => !(itemReads (fun w => whyRing w == r && isBulk w) it)) ∧
    (∀ b ∈ D.coll.insts, (p, r) ∉ b.runs) ∧ D.trl = d.trl ∧ D.pegs = d.pegs := by
  intro D y z
  let d1 := modR d p r fun y => { y with recorded := x.index + 1, cur := none }
  let items := writeItems 2 r.val y.rings[r].hdr.consumedAddr (consumedWord (x.index + 1) y.rings[r].hdr.epoch)
  have ring1 : ringAt d1 p r = { y.rings[r] with recorded := x.index + 1, cur := none } := modR_at ..
  have port1 : d1.lem[p] = { y with rings := y.rings.set r { y.rings[r] with recorded := x.index + 1, cur := none } } := (congrArg (fun e : Dev => e.lem[p]) (modR_modP ..)).trans (modP_at ..)
  have consumed : writeConsumed d1 p r = pushTx d1 p items := by rw [writeConsumed, ring1]
  obtain ⟨m, k, bump⟩ := bumpRing_eq (pushTx d1 p items) p r false
  obtain ⟨e, counts⟩ : ∃ e, e = bumpLem (bumpRing (pushTx d1 p items) p r false) p 11 := ⟨_, rfl⟩
  have kept : e.trl = d.trl ∧ e.pegs = d.pegs := by
    rw [counts, bumpLem_counted, bump]
    exact ⟨rfl, rfl⟩
  have port : e.lem[p] = counted 11 { d1.lem[p] with
      txq := d1.lem[p].txq ++ items, ringSat := m, causes := k, rings := d1.lem[p].rings.set r { (ringAt d1 p r) with recs := satInc64 (ringAt d1 p r).recs 1 } } := by
    rw [counts, bumpLem_counted, modP_at, bump, modP_at, pushTx, modP_at]
    rfl
  obtain ⟨st, release⟩ := releaseHold_store e (tenantOf c p) p r x
  let f := dropReads (releaseHold e (tenantOf c p) p r x) p r isBulk
  obtain ⟨⟨st', l, leave⟩, out⟩ := leaveInst_facts (paidStaging f x) p r { x with holdOk := false }
  have gone : D = leaveInst (paidStaging f x) p r { x with holdOk := false } := by
    rw [show D = recordLeft c d p r x from rfl, recordLeft]
    rw [show writeConsumed (modR d p r fun y => { y with recorded := x.index + 1, cur := none }) p r = _ from consumed, ← counts]
  have shape : D = { f with store := st', coll := { f.coll with insts := l } } := gone.trans leave
  have left : z = { e.lem[p] with
      txq := e.lem[p].txq.filter fun it => !(itemReads (fun w => whyRing w == r && isBulk w) it)
      reads := e.lem[p].reads.map fun o => if whyRing o.want.why == r && isBulk o.want.why then { o with discard := true } else o } := by
    rw [show z = D.lem[p] from rfl, shape]
    change f.lem[p] = _
    rw [show f = dropReads (releaseHold e (tenantOf c p) p r x) p r isBulk from rfl, dropReads, modP_at, release]
  refine ⟨?_, ?_, ?_, ?_, ?_, ?_, ?_, ?_⟩
  · rw [left, port, counted, port1, ring1]
    exact Vector.getElem_set_self ..
  · rw [left, port, counted, port1]
    rfl
  · rw [left, port, counted, port1]
  · rw [left, port, counted, port1]
  · rw [left, port, counted, port1]
  · rw [gone]
    exact out
  · rw [shape]
    change (releaseHold e (tenantOf c p) p r x).trl = _
    rw [release]
    exact kept.1
  · rw [shape]
    change (releaseHold e (tenantOf c p) p r x).pegs = _
    rw [release]
    exact kept.2

/-- What a re-fetch leaves of its port. -/
theorem recordRefetch_facts (d : Dev) (p : LPort) (r : RingNo) (x : Run) :
    let D := recordRefetch d p r x
    (ringAt D p r).cur = (ringAt d p r).cur ∧ (ringAt D p r).recorded = (ringAt d p r).recorded ∧ (ringAt D p r).recs = (ringAt d p r).recs ∧
    D.lem[p].ctr = d.lem[p].ctr ∧ D.lem[p].darn = d.lem[p].darn ∧ D.lem[p].credit = d.lem[p].credit ∧ (dRefetch x.desc = false → D.lem[p].txq = d.lem[p].txq) ∧
    D.coll = d.coll ∧ D.trl = d.trl ∧ D.pegs = d.pegs := by
  dsimp only
  rw [recordRefetch]
  split
  · next again =>
    refine ⟨?_, ?_, ?_, ?_, ?_, ?_, fun plain => ?_, rfl, rfl, rfl⟩
    · rw [modR_at, ringAt_discard, if_pos ⟨rfl, rfl⟩]
    · rw [modR_at, ringAt_discard, if_pos ⟨rfl, rfl⟩]
    · rw [modR_at, ringAt_discard, if_pos ⟨rfl, rfl⟩]
    · rw [modR_modP, modP_at, discardFetched, modR_modP, modP_at, dropReads, modP_at]
    · rw [modR_modP, modP_at, discardFetched, modR_modP, modP_at, dropReads, modP_at]
    · rw [modR_modP, modP_at, discardFetched, modR_modP, modP_at, dropReads, modP_at]
    · rw [plain] at again
      cases again
  · exact ⟨rfl, rfl, rfl, rfl, rfl, rfl, fun _ => rfl, rfl, rfl, rfl⟩

/-- The record's WRITE goes as the first transmission that the port makes. -/
theorem recordPut_facts (held : Nat → Bool) (d : Dev) (p : LPort) (it : TxItem) (f : LemTx) (frame : it.body = .frame f) :
    let D := putLem held (pushTx (draw d).2 p [it]) p 2 it
    let y := d.lem[p]
    let z := D.lem[p]
    z.rings = y.rings ∧ z.ctr = y.ctr.set 0 (satInc64 y.ctr[0] 1) ∧ z.darn = darnSend (clearDue y.darn) f ∧ z.credit[2].sent = y.credit[2].sent + 1 ∧
    z.txq = (y.txq ++ [it]).erase it ∧ D.trl = d.trl ∧ D.pegs = d.pegs := by
  intro D y z
  have shape : D = modP (modP (pushTx (draw d).2 p [it]) p fun x => (lemFirst held p x 2 it).1) p (counted 0) := bumpLem_counted ..
  have port : z = counted 0 (lemFirst held p { y with txq := y.txq ++ [it] } 2 it).1 := by
    rw [show z = D.lem[p] from rfl, shape, modP_at, modP_at, pushTx, modP_at]
    rfl
  rw [port, lemFirst_frame frame, shape]
  refine ⟨rfl, rfl, rfl, ?_, rfl, rfl, rfl⟩
  simp [counted, lemOut, creditSpend]

/-- Settles O40. -/
theorem recordsAreSent : Obligations.RecordsAreSent := by
  unfold Obligations.RecordsAreSent
  intro s p r x running cur finished h bs f it chosen
  have row : exec (.completionRecord p r) s = .next { s with dev := if recordLeaves s.cfg s.dev p r then epilogue s.cfg (sendRecord s.cfg s.dev p r) else s.dev } := by
    change execCompletionRecord p r s = _
    rw [execCompletionRecord, onDev_alive running]
  have item : recordItem s.dev p r x = it := rfl
  have next : nextLem (heldStream s.cfg s.dev p) (pushTx s.dev p [it]).lem[p] = some (2, it) ↔ chosen := by
    rw [pushTx, modP_at]
  have leaves : recordLeaves s.cfg s.dev p r = true ↔ outputsSent s.dev p r = true ∧ x.clearing = false ∧ (dFence x.desc && x.spoolPending) = false ∧ s.dev.lem[p].phase = .up ∧ chosen := by
    rw [recordLeaves, cur]
    dsimp only
    rw [item, recordDue, cur]
    dsimp only
    rw [finished, Bool.true_and, Bool.and_eq_true, Bool.and_eq_true, Bool.and_eq_true, Bool.and_eq_true, Bool.not_eq_true', Bool.not_eq_true', beq_iff_eq, beq_iff_eq, next, and_assoc, and_assoc, and_assoc]
  refine ⟨fun waits => ?waits, fun still => ?performed, fun sent still written up goes => ?leaves⟩
  case waits =>
    have stays : recordLeaves s.cfg s.dev p r = false := Bool.eq_false_iff.2 fun all => by
      obtain ⟨sent, still, written, up, goes⟩ := leaves.1 all
      rcases waits with unsent | clearing | ⟨fence, pending⟩ | down | other
      · rw [unsent] at sent; cases sent
      · rw [clearing] at still; cases still
      · rw [fence, pending] at written; cases written
      · exact down up
      · exact other goes
    rw [row, stays, if_neg Bool.false_ne_true]
  case performed =>
    change execSpoolWritesPerformed p r s = _
    rw [execSpoolWritesPerformed, onDev_alive running, cur]
    dsimp only
    rw [if_pos ⟨finished, by rw [still]; rfl⟩]
    have same : (modRun s.dev p r fun x => { x with spoolPending := false }) = modR s.dev p r fun y => { y with cur := some { x with spoolPending := false } } := modR_congr (by rw [cur]; rfl)
    rw [same]
  case leaves =>
    let d0 := putLem (heldStream s.cfg s.dev p) (pushTx (draw s.dev).2 p [it]) p 2 it
    have goes' : recordLeaves s.cfg s.dev p r = true := leaves.2 ⟨sent, still, written.elim (fun plain => by rw [plain]; rfl) (fun done => by rw [done, Bool.and_false]), up, goes⟩
    have sends : sendRecord s.cfg s.dev p r = afterRecord s.cfg d0 p r x := by
      rw [sendRecord, cur]
      rfl
    obtain ⟨rings0, ctr0, darn0, credit0, txq0, trl0, pegs0⟩ := recordPut_facts (heldStream s.cfg s.dev p) s.dev p it f rfl
    obtain ⟨ring1, ctr1, darn1, credit1, txq1, out, trl1, pegs1⟩ := recordLeft_facts s.cfg d0 p r x
    obtain ⟨cur2, recorded2, recs2, ctr2, darn2, credit2, txq2, coll2, trl2, pegs2⟩ := recordRefetch_facts (recordLeft s.cfg d0 p r x) p r x
    have ring : ringAt (recordLeft s.cfg d0 p r x) p r = { (ringAt s.dev p r) with recorded := x.index + 1, cur := none, recs := satInc64 (ringAt s.dev p r).recs 1 } := by
      refine Eq.trans ring1 ?_
      rw [show d0.lem[p].rings = s.dev.lem[p].rings from rings0]
      rfl
    refine ⟨recordRefetch (recordLeft s.cfg d0 p r x) p r x, ?_, cur2.trans (by rw [ring]), recorded2.trans (by rw [ring]), recs2.trans (by rw [ring]), ?_, ?_, ?_, ?_, ?_, fun plain => ?_, ?_, ?_, ?_⟩
    · rw [row, goes', if_pos rfl, sends, afterRecord_eq]
    · rw [ctr2, ctr1, show d0.lem[p].ctr = _ from ctr0]
      exact (Vector.getElem_set_self ..).trans (congrArg (satInc64 · 1) (Vector.getElem_set_ne _ _ (by decide)))
    · rw [ctr2, ctr1, show d0.lem[p].ctr = _ from ctr0]
      exact (Vector.getElem_set_ne _ _ (by decide)).trans (Vector.getElem_set_self ..)
    · rw [darn2, darn1, show d0.lem[p].darn = _ from darn0]
      rfl
    · rw [darn2, darn1, show d0.lem[p].darn = _ from darn0]
      rfl
    · rw [credit2, credit1]
      exact credit0
    · rw [txq2 plain, txq1, show d0.lem[p].txq = _ from txq0, show d0.lem[p].rings = _ from rings0]
      rfl
    · rw [coll2]
      exact out
    · rw [trl2, trl1]
      exact trl0
    · rw [pegs2, pegs1]
      exact pegs0

end Sys2Proof.Machine
end

section
/-! The entries of a PEG_OP (R542 to R548, R583, R622). -/
namespace Sys2Proof.Machine
open Sys2Proof

/-- The row of an operation, on a ring whose PEG_OP is at an entry of that operation, or past its last. -/
theorem pegRow_runs {s : State} {p : LPort} {r : RingNo} {x : Run} {pop : Nat} (c : Instr) (running : alive s = true)
    (among : (pop, c) ∈ [(1, Instr.pegSet p r), (2, .pegClear p r), (3, .tallyAdd p r), (4, .tallyTake p r)])
    (cur : (ringAt s.dev p r).cur = some x) (kind : dKind x.desc = 6) (free : x.waitReq = none) (unfinished : x.finished = false) (at_ : nextPop x.desc x.entry pop = true) :
    exec c s = .next { s with dev := epilogue s.cfg (pegFinish (if skipNone x.desc 4 x.entry < 4 then pegEntry s.cfg s.dev p r x (skipNone x.desc 4 x.entry) else s.dev) p r) } := by
  have row : exec c s = onDev s fun d => pegRow s.cfg d p r pop := by
    simp only [List.mem_cons, Prod.mk.injEq, List.not_mem_nil, or_false] at among
    rcases among with ⟨rfl, rfl⟩ | ⟨rfl, rfl⟩ | ⟨rfl, rfl⟩ | ⟨rfl, rfl⟩ <;> rfl
  have due : dKind x.desc = 6 ∧ x.waitReq.isNone = true ∧ (!x.finished) = true ∧ nextPop x.desc x.entry pop = true := ⟨kind, by rw [free]; rfl, by rw [unfinished]; rfl, at_⟩
  rw [row, onDev_alive running, pegRow, cur, Option.isSome_some, if_pos rfl, stepPegOp, cur]
  dsimp only
  rw [if_pos due]

/-- A descriptor that the end of an entry leaves ended stays as it is. -/
theorem pegFinish_ended {d : Dev} {p : LPort} {r : RingNo} {y : Run} (cur : (ringAt d p r).cur = some y) (ended : y.finished = true) :
    (ringAt (pegFinish d p r) p r).cur = some y := by
  rw [(pegFinish_keep d p r y cur).1]
  split
  · exact congrArg some (by cases y; cases ended; rfl)
  · rfl

/-- One that waits for a DONE is left alone. -/
theorem pegFinish_waits {d : Dev} {p : LPort} {r : RingNo} {y : Run} {id : W16} (cur : (ringAt d p r).cur = some y) (waits : y.waitReq = some id) : pegFinish d p r = d := by
  rw [pegFinish, modRun]
  refine modR_self ?_
  rw [cur, Option.map_some, waits, Option.isNone_some, Bool.false_and, if_neg Bool.false_ne_true, ← cur]

/-- An entry of this unit that has been applied: the record's fields, and the end of the descriptor after the last entry. -/
theorem entryFinish_facts (c : Cfg) (d : Dev) (p : LPort) (r : RingNo) (k v e : Nat) (b : Bool) (x : Run) (cur : (ringAt d p r).cur = some x) (unfinished : x.finished = false) :
    let D := pegFinish (entryDone c d p r k v e b) p r
    ∃ y, (ringAt D p r).cur = some y ∧ y.entry = k + 1 ∧ y.finished = decide (4 ≤ skipNone x.desc 4 (k + 1)) ∧ y.status = x.status ∧ y.aux = (if b then min v 1 else v) ∧
      (e = 0 → y.exception = x.exception ∧ y.excAt = x.excAt) ∧ D.pegs = d.pegs ∧ ∀ q : LPort, D.lem[q].pocket = d.lem[q].pocket := by
  intro D
  obtain ⟨y, cur', entry, free, finished, status, desc, aux, exception, pegs, pocket⟩ := entryDone_keep c d p r k v e b x cur
  obtain ⟨cur'', pegs', pocket'⟩ := pegFinish_keep (entryDone c d p r k v e b) p r y cur'
  rw [free, Option.isNone_none, Bool.true_and, desc, entry] at cur''
  have stays : D.pegs = d.pegs ∧ ∀ q : LPort, D.lem[q].pocket = d.lem[q].pocket := ⟨pegs'.trans pegs, fun q => (pocket' q).trans (pocket q)⟩
  by_cases last : decide (4 ≤ skipNone x.desc 4 (k + 1)) = true
  · rw [if_pos last] at cur''
    exact ⟨_, cur'', rfl, last.symm, status, aux, exception, stays⟩
  · rw [if_neg last] at cur''
    exact ⟨y, cur'', entry, (finished.trans unfinished).trans (Bool.eq_false_iff.2 last).symm, status, aux, exception, stays⟩

/-- Settles O37: where the entry's peg lies decides what becomes of it. -/
theorem pegEntriesApply : Obligations.PegEntriesApply := by
  unfold Obligations.PegEntriesApply
  intro s p r x pop c running among cur kind free unfinished k e last amount home
  have row := fun at_ => pegRow_runs c running among cur kind free unfinished at_
  have binary : (pop == 1 || pop == 2) = decide (pop ≤ 2) := by
    simp only [List.mem_cons, Prod.mk.injEq, List.not_mem_nil, or_false] at among
    rcases among with ⟨rfl, -⟩ | ⟨rfl, -⟩ | ⟨rfl, -⟩ | ⟨rfl, -⟩ <;> rfl
  have auxOf : ∀ v : Nat, (if (pop == 1 || pop == 2) = true then min v 1 else v) = if pop ≤ 2 then min v 1 else v := fun v => by
    rw [binary]
    by_cases small : pop ≤ 2
    · rw [if_pos (decide_eq_true small), if_pos small]
    · rw [if_neg (by rw [decide_eq_true_eq]; exact small), if_neg small]
  have atEntry : ePop e = pop → nextPop x.desc x.entry pop = true := fun op => by
    rw [nextPop, show ePop (dEntry x.desc (skipNone x.desc 4 x.entry)) = pop from op, beq_self_eq_true, Bool.or_true]
  refine ⟨fun done => ?done, fun more op pocket => ?pocket, fun more op pool peg named => ?pool⟩
  case done =>
    have all : decide (4 ≤ skipNone x.desc 4 x.entry) = true := decide_eq_true done
    have row := row (by rw [nextPop, all, Bool.true_or])
    rw [if_neg (Nat.not_lt.2 done)] at row
    refine ⟨_, row, ?_⟩
    rw [(pegFinish_keep s.dev p r x cur).1, free, all]
    rfl
  case pocket =>
    intro key v
    have row := row (atEntry op)
    rw [if_pos more, pegEntry] at row
    dsimp only at row
    rw [show ePop (dEntry x.desc (skipNone x.desc 4 x.entry)) = pop from op, if_pos (show eSpace (dEntry x.desc (skipNone x.desc 4 x.entry)) = 1 from pocket)] at row
    have cur' : (ringAt (modP s.dev p fun y => { y with pocket := spWrite y.pocket key v }) p r).cur = some x := by
      rw [ringAt_modP s.dev p p r (fun y => { y with pocket := spWrite y.pocket key v }) fun _ => rfl]
      exact cur
    obtain ⟨y, now, entry, finished, status, aux, exception, pegs, pockets⟩ := entryFinish_facts s.cfg _ p r k v.toNat (pegApply pop (spRead s.dev.lem[p].pocket key) amount).2 (pop == 1 || pop == 2) x cur' unfinished
    refine ⟨_, y, row, now, entry, finished, status, aux.trans (auxOf _), (pockets p).trans ?_, pegs, exception⟩
    rw [modP_at]
  case pool =>
    have row := row (atEntry op)
    rw [if_pos more, pegEntry] at row
    dsimp only at row
    rw [show ePop (dEntry x.desc (skipNone x.desc 4 x.entry)) = pop from op, if_neg (show ¬eSpace (dEntry x.desc (skipNone x.desc 4 x.entry)) = 1 from pool),
      show physPeg s.cfg (tenantOf s.cfg p) (ringAt s.dev p r).hdr.windowBase (ePeg (dEntry x.desc (skipNone x.desc 4 x.entry)) % 4096) = some peg from named] at row
    dsimp only at row
    refine ⟨fun own bad tally => ?bad, fun own good => ?own, fun away joined => ?away, fun away alone => ?isolated⟩
    case bad =>
      have fails : pegFails s.dev peg pop = true := by
        rw [pegFails, pegGood, List.contains_iff_mem.2 bad, bne_iff_ne.2 (by omega : pop ≠ 1), bne_iff_ne.2 (by omega : pop ≠ 2)]
        rfl
      rw [if_pos (show home = ownAddr s.dev from own), if_pos fails] at row
      exact ⟨_, row, pegFinish_ended (by rw [cur_modRun, cur]; rfl) rfl, rfl⟩
    case own =>
      have reads : ¬pegFails s.dev peg pop = true := by
        rw [pegFails, pegGood, Bool.and_eq_true, Bool.and_eq_true, bne_iff_ne, bne_iff_ne, Bool.not_not, List.contains_iff_mem]
        rintro ⟨⟨bad, other⟩, other'⟩
        rcases good with sound | small
        · exact sound bad
        · simp only [List.mem_cons, Prod.mk.injEq, List.not_mem_nil, or_false] at among
          omega
      obtain ⟨curs, written, value⟩ := poolOp_keep s.cfg s.dev peg pop amount
      rcases applied : poolOp s.cfg s.dev peg pop amount with ⟨E, w, ex⟩
      rw [applied] at curs written value
      obtain ⟨rfl, rfl⟩ := Prod.mk.inj value
      rw [if_pos (show home = ownAddr s.dev from own), if_neg reads, show poolOp s.cfg s.dev peg pop (BitVec.ofNat 16 (eAmount (dEntry x.desc (skipNone x.desc 4 x.entry)))) = _ from applied] at row
      obtain ⟨y, now, entry, finished, status, aux, exception, pegs, pockets⟩ :=
        entryFinish_facts s.cfg E p r k (pegApply pop (poolPeg s.dev peg) amount).1.toNat (pegApply pop (poolPeg s.dev peg) amount).2 (pop == 1 || pop == 2) x ((curs p r).trans cur) unfinished
      exact ⟨_, y, row, now, entry, finished, status, aux.trans (auxOf _), (congrArg Pegs.pool pegs).trans written⟩
    case away =>
      rw [if_neg (show ¬home = ownAddr s.dev from away), if_neg (by rw [joined]; exact Bool.false_ne_true)] at row
      let D := modRun { s.dev with pegs := { s.dev.pegs with nextReq := s.dev.pegs.nextReq + 1 } } p r fun y => { y with waitReq := some s.dev.pegs.nextReq }
      have now : (ringAt D p r).cur = some { x with waitReq := some s.dev.pegs.nextReq } := by
        rw [cur_modRun]
        exact congrArg (Option.map _) cur
      obtain ⟨v, w, sent⟩ := sendPeg_only D (tenantOf s.cfg p) home 1 pop peg amount.toNat s.dev.pegs.nextReq.toNat 0 []
      have now' : (ringAt (sendPeg D (tenantOf s.cfg p) home 1 pop peg amount.toNat s.dev.pegs.nextReq.toNat 0 []) p r).cur = some { x with waitReq := some s.dev.pegs.nextReq } := by
        rw [sent]
        exact now
      exact ⟨D, row.trans (congrArg (fun e => Host.Outcome.next { s with dev := epilogue s.cfg e }) (pegFinish_waits now' rfl)), now, rfl, rfl⟩
    case isolated =>
      rw [if_neg (show ¬home = ownAddr s.dev from away), if_pos alone] at row
      exact ⟨_, row, pegFinish_ended (by rw [cur_modRun, cur]; rfl) rfl, rfl⟩

end Sys2Proof.Machine
end

section
/-! Peg messages, their replies, and the waits on them (R548, R551, R558 to R567). -/
namespace Sys2Proof.Machine
open Sys2Proof

/-! ## Replies -/

/-- The rows of the seven replies. -/
def replyRows (i : TPort) (f : TrlFrame) : List (Nat × Instr) := [(1, .done i f), (2, .met i f), (3, .full i f), (4, .begin i f), (5, .release i f), (6, .withdrawn i f), (7, .mismatch i f)]

/-- A reply of the row's kind goes on towards its unit, or is acted on here. -/
theorem replyRow_frame {s : State} {i : TPort} {f : TrlFrame} {n : Nat} {c : Instr} (among : (n, c) ∈ replyRows i f) (running : alive s = true) (takes : trlFrameIn s.dev i f 4 = true)
    (code : byteAt f.payload 0 = n) : exec c s = .next { s with dev := epilogue s.cfg (replyFrame s.cfg s.dev i f) } := by
  have row : exec c s = onDev s fun d => replyMsg s.cfg d i f n := by
    simp only [replyRows, List.mem_cons, Prod.mk.injEq, List.not_mem_nil, or_false] at among
    rcases among with ⟨rfl, rfl⟩ | ⟨rfl, rfl⟩ | ⟨rfl, rfl⟩ | ⟨rfl, rfl⟩ | ⟨rfl, rfl⟩ | ⟨rfl, rfl⟩ | ⟨rfl, rfl⟩ <;> rfl
  rw [row, onDev_alive running, replyMsg, takes, code, beq_self_eq_true, Bool.and_self, if_pos rfl]

/-- A reply to this unit is acted on. -/
theorem replyRow_here {s : State} {i : TPort} {f : TrlFrame} {n : Nat} {c : Instr} (among : (n, c) ∈ replyRows i f) (running : alive s = true) (takes : trlFrameIn s.dev i f 4 = true)
    (code : byteAt f.payload 0 = n) (here : f.dest.toNat = ownAddr s.dev) : exec c s = .next { s with dev := epilogue s.cfg (settle s.cfg (replyHere s.cfg s.dev f)) } := by
  rw [replyRow_frame among running takes code, replyFrame, ptFrame, if_pos here]

/-! An equation for each reply, in what it names. -/

section
variable {c : Cfg} {d : Dev} {f : TrlFrame}

theorem replyHere_done {p : LPort} {r : RingNo} {x : Run} (code : byteAt f.payload 0 = 1) (owner : doneOwner d (BitVec.ofNat 16 (leNat f.payload 6 2)) = some (p, r))
    (cur : (ringAt d p r).cur = some x) :
    replyHere c d f = pegFinish (entryDone c d p r (skipNone x.desc 4 x.entry) (leNat f.payload 4 2) (byteAt f.payload 1)
      (ePop (dEntry x.desc (skipNone x.desc 4 x.entry)) == 1 || ePop (dEntry x.desc (skipNone x.desc 4 x.entry)) == 2)) p r := by
  unfold replyHere
  simp only [code, owner, cur]

theorem replyHere_met {p : LPort} {r : RingNo} {k : Nat} (code : byteAt f.payload 0 = 2) (owner : watchOwner d (BitVec.ofNat 16 (leNat f.payload 6 2)) = some (p, r, k)) :
    replyHere c d f = modHead d p r fun h => { h with met := h.met.set k true } := by
  unfold replyHere
  simp only [code, owner]

theorem replyHere_full {p : LPort} {r : RingNo} {k : Nat} (code : byteAt f.payload 0 = 3) (owner : watchOwner d (BitVec.ofNat 16 (leNat f.payload 6 2)) = some (p, r, k)) :
    replyHere c d f = modHead d p r fun h => { h with watchFull := h.watchFull.set k true } := by
  unfold replyHere
  simp only [code, owner]

theorem replyHere_full_unknown (code : byteAt f.payload 0 = 3) (owner : watchOwner d (BitVec.ofNat 16 (leNat f.payload 6 2)) = none) : replyHere c d f = d := by
  unfold replyHere
  simp only [code, owner]

theorem replyHere_begin (code : byteAt f.payload 0 = 4) : replyHere c d f = if byteAt f.payload 9 = (homePgen d f.tenant).toNat then beginHere c d f else d := by
  unfold replyHere
  simp only [code]

theorem replyHere_release (code : byteAt f.payload 0 = 5) : replyHere c d f = phaseEnd c d f.tenant f.src.toNat (leNat f.payload 2 2) 0 := by
  unfold replyHere
  simp only [code]

theorem replyHere_withdrawn {a : Arrival} (code : byteAt f.payload 0 = 6) (found : d.pegs.arrivals.find? (fun a => a.withdrawId == some (BitVec.ofNat 16 (leNat f.payload 6 2))) = some a) :
    replyHere c d f = endArrival c d a 0x27 := by
  unfold replyHere
  simp only [code, found]

theorem replyHere_mismatch (code : byteAt f.payload 0 = 7) : replyHere c d f = phaseEnd c d f.tenant f.src.toNat (leNat f.payload 2 2) 9 := by
  unfold replyHere
  simp only [code]

/-- A BEGIN: line fallback where it names a line barrier, and an ARRIVE of none for a group without members here (R559, R566). -/
theorem beginHere_eq : beginHere c d f =
    let n := leNat (slice f.payload 10 26) 0x16 4
    let D := if n ≠ 0xFFFFFFFF ∧ d.line.fallback = false ∧ ownsLine c f.tenant = true then enterFallback c d n else d
    let g := groupOfBody (slice f.payload 10 26) f.src.toNat
    if g.kind ≤ 1 ∧ localMembers c D f.tenant { g with base := ownAddr D } = 0 then sendPeg D f.tenant f.src.toNat 4 0 (leNat f.payload 2 2) 0 0 0 (slice f.payload 10 26) else D := by
  unfold beginHere
  dsimp only
  simp only [beq_iff_eq, Bool.not_eq_eq_eq_not, Bool.not_true]

end

/-- Where the line had completed no barrier of the pair, the end of a phase ends its arrival. -/
theorem phaseEnd_ends {c : Cfg} {d : Dev} {t : Tenant} {home peg : Nat} {a : Arrival} (status : Byte)
    (own : (d.pegs.ignored.any fun e => e.1 == home && e.2.1 == peg) = false ∨ ownsLine c t = false) (at_ : arrivalAt d t home peg = some a) :
    phaseEnd c d t home peg status = endArrival c d a status := by
  have none : (if ownsLine c t = true then d.pegs.ignored.find? fun e => e.1 == home && e.2.1 == peg else none) = Option.none := by
    rcases own with out | other
    · rw [List.find?_eq_none.2 fun e among => by rw [Bool.not_eq_true]; exact List.any_eq_false.1 out e among |> Bool.eq_false_iff.2, ite_self]
    · rw [other, if_neg Bool.false_ne_true]
  rw [phaseEnd, none]
  dsimp only
  rw [at_]

/-- The end of a phase that the line had completed is ignored, once. -/
theorem phaseEnd_ignored {c : Cfg} {d : Dev} {t : Tenant} {home peg : Nat} {e : Nat × Nat × Nat × List Byte} (status : Byte) (owns : ownsLine c t = true)
    (found : (d.pegs.ignored.find? fun e => e.1 == home && e.2.1 == peg) = some e) :
    phaseEnd c d t home peg status = tryArrivals c (sendCompleted c { d with pegs := { d.pegs with ignored := d.pegs.ignored.erase e } }) := by
  rw [phaseEnd, owns, if_pos rfl, found]

/-- Settles O46: what each reply does at the unit it is for. -/
theorem pegRepliesAreActedOn : Obligations.PegRepliesAreActedOn := by
  unfold Obligations.PegRepliesAreActedOn
  intro s i f running up formed kind content codes pl t peg id goes ended
  have takes : trlFrameIn s.dev i f 4 = true := trlIn s.dev i f 4 up formed kind (by decide) content codes
  refine ⟨fun e among code away => ?_, fun here => ?_⟩
  · rw [replyRow_frame (n := e.1) (c := e.2) among running takes code, replyFrame, ptFrame, if_neg away]
  have acts : ∀ {n : Nat} {c : Instr}, (n, c) ∈ replyRows i f → byteAt pl 0 = n → ∀ {D : Dev}, replyHere s.cfg s.dev f = D → exec c s = goes D := fun among code D is => by
    rw [replyRow_here among running takes code here, is]
  have ends : ∀ {c : Instr} {a : Arrival} {st : Byte}, exec c s = goes (endArrival s.cfg s.dev a st) → ended c a st := fun {c a st} row => by
    obtain ⟨D, shape, -, curs, arrivals⟩ := endArrival_ended s.cfg s.dev a st
    exact ⟨D, by rw [row, shape], curs, arrivals⟩
  refine ⟨fun code p r x owner cur => ?done, fun code p r k owner => ?met, fun code => ⟨fun p r k owner => ?full, fun none => ?fullNone⟩, fun code old => ?old, fun code current => ?begin,
    fun a free at_ => ⟨fun code => ?release, fun code => ?mismatch⟩, fun e owns found => ⟨fun code => ?ignored, fun code => ?ignored'⟩, fun a code found => ?withdrawn⟩
  case done =>
    intro k
    let pop := ePop (dEntry x.desc k)
    let binary := pop == 1 || pop == 2
    let E := entryDone s.cfg s.dev p r k (leNat pl 4 2) (byteAt pl 1) binary
    have act : replyHere s.cfg s.dev f = pegFinish E p r := replyHere_done code owner cur
    obtain ⟨y, cur', entry, free, finished, status, desc, aux, -, -, -⟩ := entryDone_keep s.cfg s.dev p r k (leNat pl 4 2) (byteAt pl 1) binary x cur
    have now := (pegFinish_keep E p r y cur').1
    rw [free, Option.isNone_none, Bool.true_and, desc, entry] at now
    have auxIs : (if binary = true then min (leNat pl 4 2) 1 else leNat pl 4 2) = if pop = 1 ∨ pop = 2 then min (leNat pl 4 2) 1 else leNat pl 4 2 :=
      if_congr (by rw [Bool.or_eq_true, beq_iff_eq, beq_iff_eq]) rfl rfl
    by_cases last : decide (4 ≤ skipNone x.desc 4 (k + 1)) = true
    · rw [if_pos last] at now
      exact ⟨_, _, acts (by simp [replyRows]) code act, now, rfl, rfl, status, aux.trans auxIs, fun _ => last.symm⟩
    · rw [if_neg last] at now
      exact ⟨_, y, acts (by simp [replyRows]) code act, now, entry, free, status, aux.trans auxIs, fun unfinished => (finished.trans unfinished).trans (Bool.eq_false_iff.2 last).symm⟩
  case met => exact acts (by simp [replyRows]) code (replyHere_met code owner)
  case full => exact acts (by simp [replyRows]) code (replyHere_full code owner)
  case fullNone => exact acts (by simp [replyRows]) code (replyHere_full_unknown code none)
  case old => exact acts (by simp [replyRows]) code ((replyHere_begin code).trans (if_neg old))
  case begin =>
    intro g n D
    rw [acts (by simp [replyRows]) code ((replyHere_begin code).trans ((if_pos current).trans beginHere_eq))]
    exact apply_ite goes _ _ _
  case release => exact ends (acts (by simp [replyRows]) code ((replyHere_release code).trans (phaseEnd_ends 0 free at_)))
  case mismatch => exact ends (acts (by simp [replyRows]) code ((replyHere_mismatch code).trans (phaseEnd_ends 9 free at_)))
  case ignored => exact acts (by simp [replyRows]) code ((replyHere_release code).trans (phaseEnd_ignored 0 owns found))
  case ignored' => exact acts (by simp [replyRows]) code ((replyHere_mismatch code).trans (phaseEnd_ignored 9 owns found))
  case withdrawn => exact ends (acts (by simp [replyRows]) code (replyHere_withdrawn code found))

end Sys2Proof.Machine
end

section
/-! The waits on pegs and barriers end, and the washing line (R548, R551, R560, R562 to R567). -/
namespace Sys2Proof.Machine
open Sys2Proof

/-! ## Waits -/

/-- A count of the unit's health: the counter, and causes of the pages. -/
theorem bumpHealth_facts (d : Dev) (n : Fin 7) :
    (∀ p r, ringAt (bumpHealth d n) p r = ringAt d p r) ∧ (bumpHealth d n).stat.health[n] = satInc64 d.stat.health[n] 1 ∧ (bumpHealth d n).stat.tctr = d.stat.tctr ∧
    ∃ st v, bumpHealth d n = { d with stat := st, lem := v } := by
  obtain ⟨m, only⟩ := bumpHealthN_eq d n 1
  refine ⟨fun p r => only.ring p r, ?_, (congrArg Stat.tctr only.stat).trans rfl, ⟨_, _, only.1⟩⟩
  rw [show (bumpHealth d n).stat = _ from only.stat]
  exact Vector.getElem_set_self ..

/-- A count of a tenant. -/
theorem bumpTenant_facts (c : Cfg) (d : Dev) (t : Tenant) (n : Fin 10) :
    (∀ p r, ringAt (bumpTenant c d t n) p r = ringAt d p r) ∧ (bumpTenant c d t n).stat.health = d.stat.health ∧ (bumpTenant c d t n).stat.tctr[t][n] = satInc64 d.stat.tctr[t][n] 1 ∧
    ∃ st v, bumpTenant c d t n = { d with stat := st, lem := v } := by
  obtain ⟨m, only⟩ := bumpTenant_eq c d t n
  refine ⟨fun p r => only.ring p r, (congrArg Stat.health only.stat).trans rfl, ?_, ⟨_, _, only.1⟩⟩
  rw [only.stat]
  simp [modS]

/-- One descriptor that has not ended ends with a status. -/
theorem finishRuns_one {d : Dev} {p : LPort} {r : RingNo} {x : Run} (status : Byte) (cur : (ringAt d p r).cur = some x) (unfinished : x.finished = false) :
    (ringAt (finishRuns d [(p, r)] status) p r).cur = some { x with status := status, finished := true } := by
  change (ringAt (modRun d p r _) p r).cur = _
  rw [cur_modRun, cur, Option.map_some, unfinished, if_neg Bool.false_ne_true]

/-- A barrier's wait ends before its unit has reported: what the descriptor and the counters become (R560, R385). -/
theorem aloneCounted_facts (c : Cfg) (d : Dev) (p : LPort) (r : RingNo) (x : Run) (cur : (ringAt d p r).cur = some x) (unfinished : x.finished = false) :
    let D := bumpTenant c (finishRuns (bumpHealth d 5) [(p, r)] 0x27) (tenantOf c p) 6
    (ringAt D p r).cur = some { x with status := 0x27, finished := true } ∧ D.stat.health[5] = satInc64 d.stat.health[5] 1 ∧
    D.stat.tctr[tenantOf c p][6] = satInc64 d.stat.tctr[tenantOf c p][6] 1 ∧ D.pegs = d.pegs := by
  obtain ⟨rings, health, tctr, st, v, counted⟩ := bumpHealth_facts d 5
  obtain ⟨w, ends⟩ := finishRuns_only (bumpHealth d 5) [(p, r)] 0x27
  obtain ⟨rings', health', tctr', st', v', counted'⟩ := bumpTenant_facts c (finishRuns (bumpHealth d 5) [(p, r)] 0x27) (tenantOf c p) 6
  refine ⟨?_, ?_, ?_, ?_⟩
  · rw [rings', finishRuns_one 0x27 (by rw [rings]; exact cur) unfinished]
  · rw [health', ends]
    exact health
  · refine tctr'.trans ?_
    rw [ends]
    exact congrArg (fun z : Vector (Vector W64 10) 4 => satInc64 z[tenantOf c p][6] 1) tctr
  · rw [counted', ends, counted]

/-- Where others of its arrival remain, a barrier that times out alone leaves it, and its members are covered no more (R560). -/
theorem barrierAlone_leaves {c : Cfg} {d : Dev} {p : LPort} {r : RingNo} {a : Arrival} (more : a.runs.filter (· != (p, r)) ≠ []) :
    let D := bumpTenant c (finishRuns d [(p, r)] 0x27) (tenantOf c p) 6
    barrierAlone c d p r (some a) = modArrival D a fun b => { b with runs := a.runs.filter (· != (p, r)), covered := coveredBy D (a.runs.filter (· != (p, r))) } := by
  rw [barrierAlone]
  exact if_neg (by rw [List.isEmpty_iff]; exact more)

/-- A reported arrival withdraws from its home, once (R560). -/
theorem withdrawArrival_asks {c : Cfg} {d : Dev} {a : Arrival} (first : a.withdrawId = none) (route : hasRoute d a.home = true) :
    withdrawArrival c d a = sendPeg (modArrival { d with pegs := { d.pegs with nextReq := d.pegs.nextReq + 1 } } a fun b => { b with withdrawId := some d.pegs.nextReq })
      a.tenant a.home 5 0 a.peg 0 d.pegs.nextReq.toNat 0 [] := by
  rw [withdrawArrival, first, Option.isSome_none, if_neg Bool.false_ne_true, if_pos route]
  rfl

/-- A barrier that waits on no arrival, and whose wait ends (R560). -/
theorem barrierTimeout_alone {c : Cfg} {d : Dev} {p : LPort} {r : RingNo} {x : Run} (cur : (ringAt d p r).cur = some x) (kind : dKind x.desc = 7) (unfinished : x.finished = false)
    (out : arrivalOf d p r = none) (waits : pegBarrier c d p x none = true) : barrierTimeout c d p r = barrierAlone c (bumpHealth d 5) p r none := by
  have due : ¬(dKind x.desc ≠ 7 ∨ x.finished = true ∨ (!(pegBarrier c d p x none)) = true) := by
    rw [kind, unfinished, waits]
    decide
  rw [barrierTimeout, cur]
  dsimp only
  rw [out, if_neg due]

/-- A barrier of an arrival whose wait ends. -/
theorem barrierTimeout_joined {c : Cfg} {d : Dev} {p : LPort} {r : RingNo} {x : Run} {a : Arrival} (cur : (ringAt d p r).cur = some x) (kind : dKind x.desc = 7)
    (unfinished : x.finished = false) (of_ : arrivalOf d p r = some a) (waits : pegBarrier c d p x (some a) = true) :
    barrierTimeout c d p r = if a.arrived then withdrawArrival c (bumpHealth d 5) a else barrierAlone c (bumpHealth d 5) p r (some a) := by
  have due : ¬(dKind x.desc ≠ 7 ∨ x.finished = true ∨ (!(pegBarrier c d p x (some a))) = true) := by
    rw [kind, unfinished, waits]
    decide
  rw [barrierTimeout, cur]
  dsimp only
  rw [of_, if_neg due]

/-- Settles O47: each wait's end on the state that it meets. -/
theorem pegAndBarrierWaitsEnd : Obligations.PegAndBarrierWaitsEnd := by
  unfold Obligations.PegAndBarrierWaitsEnd
  intro s p r running t
  have expiry : exec (.barrierWatchdogExpiry p r) s = .next { s with dev := epilogue s.cfg (barrierTimeout s.cfg s.dev p r) } := by
    change execBarrierWatchdogExpiry p r s = _
    rw [execBarrierWatchdogExpiry, onDev_alive running]
  refine ⟨?resend, fun x cur waits unfinished => ?done, fun x cur kind unfinished => ⟨fun alone peg => ?alone, fun a of_ noLine early more => ?leaves, fun a of_ noLine arrived first route => ?withdraws⟩, fun a of_ asked => ?unanswered⟩
  case resend =>
    intro k h q rest id peg head queue watch waiting sound unmet full remote named e
    change execWatchResendTimer p r k s = _
    have due : h.stage = .waiting ∧ h.status = 0 ∧ (!(h.met.getD k.val true)) = true ∧ h.watchFull.getD k.val false = true ∧ depRemote s.dev q.bytes k.val = true :=
      ⟨waiting, sound, by rw [unmet]; rfl, full, remote⟩
    rw [execWatchResendTimer, onDev_alive running, head, queue]
    dsimp only
    rw [watch]
    dsimp only
    rw [if_pos due, sendWatch]
    rw [show (ringAt (modHead s.dev p r fun h => { h with watchFull := h.watchFull.set k.val false }) p r).hdr = (ringAt s.dev p r).hdr by rw [modHead, modR_at], named]
    rfl
  case done =>
    let D := modRun s.dev p r fun x => { x with status := 0x10, finished := true, waitReq := none }
    have row : exec (.pegOpDoneTimeout p r) s = .next { s with dev := epilogue s.cfg (bumpHealth (bumpTenant s.cfg D t 5) 5) } := by
      change execPegOpDoneTimeout p r s = _
      rw [execPegOpDoneTimeout, onDev_alive running, cur]
      dsimp only
      rw [if_pos ⟨waits, by rw [unfinished]; rfl⟩]
    obtain ⟨rings, health, tenant⟩ := countWait_facts s.cfg D t
    obtain ⟨-, -, -, st, v, counted⟩ := bumpTenant_facts s.cfg D t 5
    obtain ⟨-, -, -, st', v', counted'⟩ := bumpHealth_facts (bumpTenant s.cfg D t 5) 5
    refine ⟨_, row, ?_, health, tenant, by rw [counted', counted]; rfl⟩
    rw [rings, cur_modRun, cur]
    rfl
  case alone =>
    have waits : pegBarrier s.cfg s.dev p x none = true := by
      rcases peg with pool | ⟨fallback, below⟩
      · rw [pegBarrier, pool]
        rfl
      · rw [pegBarrier, fallback, decide_eq_true below, Bool.and_self, Bool.or_true]
    exact ⟨_, expiry.trans (by rw [barrierTimeout_alone cur kind unfinished alone waits]; rfl), aloneCounted_facts s.cfg s.dev p r x cur unfinished⟩
  case leaves =>
    have waits : pegBarrier s.cfg s.dev p x (some a) = true := by rw [pegBarrier, noLine]
    have row := expiry
    rw [barrierTimeout_joined cur kind unfinished of_ waits, early, if_neg Bool.false_ne_true, barrierAlone_leaves more] at row
    obtain ⟨cur', health, tenant, pegs⟩ := aloneCounted_facts s.cfg s.dev p r x cur unfinished
    obtain ⟨D, counted⟩ : ∃ D, D = bumpTenant s.cfg (finishRuns (bumpHealth s.dev 5) [(p, r)] 0x27) (tenantOf s.cfg p) 6 := ⟨_, rfl⟩
    rw [← counted] at row cur' health tenant pegs
    refine ⟨_, row, cur', health, tenant, ?_⟩
    rw [modArrival, pegs]
    rfl
  case withdraws =>
    have waits : pegBarrier s.cfg s.dev p x (some a) = true := by rw [pegBarrier, noLine]
    have row := expiry
    obtain ⟨rings, health, tctr, st, v, counted⟩ := bumpHealth_facts s.dev 5
    obtain ⟨E, counts⟩ : ∃ E, E = bumpHealth s.dev 5 := ⟨_, rfl⟩
    rw [← counts] at rings health counted
    have next : E.pegs = s.dev.pegs := by rw [counted]
    rw [barrierTimeout_joined cur kind unfinished of_ waits, if_pos arrived, ← counts, withdrawArrival_asks first (by rw [counted]; exact route), next] at row
    exact ⟨_, row, health, rfl, (congrArg Ring.cur (rings p r)).trans cur, rfl⟩
  case unanswered =>
    obtain ⟨rings, health, tctr, st, v, counted⟩ := bumpHealth_facts s.dev 5
    obtain ⟨D, shape, health', curs, arrivals⟩ := endArrival_ended s.cfg (bumpHealth s.dev 5) a 0x27
    refine ⟨D, ?_, ?_, fun q z y among at_ unfinished => ?_, fun b => ?_⟩
    · change execWithdrawReplyTimeout p r s = _
      rw [execWithdrawReplyTimeout, onDev_alive running, of_]
      dsimp only
      rw [if_pos asked, shape]
    · rw [health']
      exact health
    · obtain ⟨w, cur', finished, status, -⟩ := curs q z y among (by rw [rings]; exact at_) unfinished
      exact ⟨w, cur', finished, status⟩
    · rw [arrivals, counted]

/-! ## The washing line -/

/-- The line belongs to a tenant where its owner's code names one (R144). -/
theorem anyOwns (c : Cfg) : allTenants.any (ownsLine c) = decide (c.codes[9].toNat ≤ 3) := by
  have each_ : ∀ t : Tenant, ownsLine c t = decide (c.codes[9].toNat = t.val) := fun t => rfl
  rw [Bool.eq_iff_iff, List.any_eq_true, decide_eq_true_eq]
  constructor
  · rintro ⟨t, -, owns⟩
    rw [each_, decide_eq_true_eq] at owns
    omega
  · intro few
    exact ⟨⟨c.codes[9].toNat, by omega⟩, mem_allTenants _, by rw [each_]; exact decide_eq_true rfl⟩

/-- Barrier n runs on the line. -/
theorem onLine_iff (l : Line) : onLine l = true ↔ l.fallback = false ∨ l.n < l.f := by
  rw [onLine, Bool.or_eq_true, Bool.not_eq_true', decide_eq_true_eq]

theorem driveLine_eq (l : Line) (n : Nat) (v : Bool) :
    driveLine l n v = { l with assertA := if n % 2 = 0 then v else l.assertA, assertB := if n % 2 = 0 then l.assertB else v } := by
  unfold driveLine
  by_cases even : n % 2 = 0
  · rw [if_pos even, if_pos even, if_pos even]
  · rw [if_neg even, if_neg even, if_neg even]

/-- The line of the barrier before n is asserted again, unless line fallback drives neither (R564, R567). -/
theorem assertedAgain_eq (l : Line) : (if 1 ≤ l.n ∧ l.fallback = false then driveLine l (l.n - 1) true else l) = { l with
    assertA := if 1 ≤ l.n ∧ l.fallback = false ∧ l.n % 2 = 1 then true else l.assertA
    assertB := if 1 ≤ l.n ∧ l.fallback = false ∧ l.n % 2 = 0 then true else l.assertB } := by
  by_cases again : 1 ≤ l.n ∧ l.fallback = false
  · obtain ⟨past, no⟩ := again
    rw [if_pos ⟨past, no⟩, driveLine_eq]
    rcases Nat.mod_two_eq_zero_or_one l.n with even | odd
    · rw [if_neg (by omega), if_neg (by omega), if_neg (by omega), if_pos ⟨past, no, even⟩]
    · rw [if_pos (by omega), if_pos (by omega), if_pos ⟨past, no, odd⟩, if_neg (by omega)]
  · rw [if_neg again, if_neg (fun h => again ⟨h.1, h.2.1⟩), if_neg (fun h => again ⟨h.1, h.2.1⟩)]

/-- The line once barrier n is complete (R564). -/
def lineAdvanced (d : Dev) (kept : List (Nat × Nat × Nat × Nat × List Byte)) : Dev :=
  let l := if 1 ≤ d.line.n ∧ d.line.fallback = false then driveLine d.line (d.line.n - 1) true else d.line
  { d with line := { l with n := d.line.n + 1, released := false, completed := d.line.completed ++ kept } }

theorem lineAdvanced_facts (d : Dev) (kept : List (Nat × Nat × Nat × Nat × List Byte)) :
    let l := d.line
    let m := (lineAdvanced d kept).line
    m.n = l.n + 1 ∧ m.released = false ∧ m.fallback = l.fallback ∧ m.assertA = (if 1 ≤ l.n ∧ l.fallback = false ∧ l.n % 2 = 1 then true else l.assertA) ∧
      m.assertB = (if 1 ≤ l.n ∧ l.fallback = false ∧ l.n % 2 = 0 then true else l.assertB) := by
  have line := assertedAgain_eq d.line
  exact ⟨rfl, rfl, (congrArg Line.fallback line :), (congrArg Line.assertA line :), (congrArg Line.assertB line :)⟩

/-- What the completion of barrier n leaves, before held barriers are placed again (R564). -/
theorem completeLine_facts (c : Cfg) (d : Dev) :
    let l := d.line
    ∃ D, completeLine c d = placeHeld c D ∧ D.line.n = l.n + 1 ∧ D.line.released = false ∧ D.line.fallback = l.fallback ∧
      D.line.assertA = (if 1 ≤ l.n ∧ l.fallback = false ∧ l.n % 2 = 1 then true else l.assertA) ∧ D.line.assertB = (if 1 ≤ l.n ∧ l.fallback = false ∧ l.n % 2 = 0 then true else l.assertB) ∧
      ∀ a, lineArrival d = some a → (∀ (p : LPort) (r : RingNo) (y : Run), (p, r) ∈ a.runs → (ringAt d p r).cur = some y → y.finished = false →
          ∃ z, (ringAt D p r).cur = some z ∧ z.finished = true ∧ z.status = 0 ∧ z.index = y.index) ∧
        ∀ b, b ∈ D.pegs.arrivals ↔ b ∈ d.pegs.arrivals ∧ ¬(b.tenant = a.tenant ∧ b.home = a.home ∧ b.peg = a.peg ∧ b.line = a.line) := by
  intro l
  cases at_ : lineArrival d with
  | none =>
    have shape : ∃ kept, completeLine c d = placeHeld c (lineAdvanced d kept) := ⟨_, by rw [completeLine, at_]; rfl⟩
    obtain ⟨kept, shape⟩ := shape
    obtain ⟨n, released, fallback, a, b⟩ := lineAdvanced_facts d kept
    exact ⟨_, shape, n, released, fallback, a, b, fun a found => by cases found⟩
  | some a =>
    obtain ⟨v, ends⟩ := finishRuns_only d a.runs 0
    have line : (dropArrival (finishRuns d a.runs 0) a).line = l := by rw [ends]; rfl
    have shape : ∃ kept, completeLine c d = placeHeld c (lineAdvanced (dropArrival (finishRuns d a.runs 0) a) kept) := by
      rw [completeLine, at_]
      dsimp only
      rw [show d.line.n = (dropArrival (finishRuns d a.runs 0) a).line.n by rw [line]]
      exact ⟨_, rfl⟩
    obtain ⟨kept, shape⟩ := shape
    obtain ⟨n, released, fallback, aLine, bLine⟩ := lineAdvanced_facts (dropArrival (finishRuns d a.runs 0) a) kept
    rw [line] at n fallback aLine bLine
    refine ⟨_, shape, n, released, fallback, aLine, bLine, fun b found => ?_⟩
    cases found
    refine ⟨fun p r y among cur unfinished => finishRuns_cur a.runs 0 d p r y cur (.inl ⟨among, unfinished⟩), fun b => ?_⟩
    refine (dropArrival_mem (finishRuns d a.runs 0) a b).trans ?_
    rw [ends]

/-- Settles O48. -/
theorem theLineCompletesBarriers : Obligations.TheLineCompletesBarriers := by
  unfold Obligations.TheLineCompletesBarriers
  intro s running ready l owner
  have release : exec .lineRelease s = .next { s with dev := if s.dev.line.ready && (allTenants.any (ownsLine s.cfg)) && onLine s.dev.line && !s.dev.line.released && lineCovered s.cfg s.dev then
      { s.dev with line := { driveLine s.dev.line s.dev.line.n false with released := true } } else s.dev } := by
    change execLineRelease s = _
    rw [execLineRelease, onDev_alive running]
  have high : ∀ w : Fin 2, exec (.lineReadHigh w) s = .next { s with
      dev := if s.dev.line.ready && s.dev.line.released && onLine s.dev.line && s.dev.line.n % 2 == w.val then epilogue s.cfg (completeLine s.cfg s.dev) else s.dev } := fun w => by
    change execLineReadHigh w s = _
    rw [execLineReadHigh, onDev_alive running]
  refine ⟨fun owned below free covered => ?releases, fun waits => ?holds, fun w released below reads => ?completes, fun w waits => ?ignores, fun released no => ?watchdog⟩
  case releases =>
    rw [release, if_pos (by rw [ready, anyOwns, decide_eq_true owned, (onLine_iff _).2 below, show s.dev.line.released = false from free, covered]; rfl), driveLine_eq]
  case holds =>
    rw [release, if_neg]
    rw [ready, anyOwns, Bool.true_and, Bool.and_eq_true, Bool.and_eq_true, Bool.and_eq_true, decide_eq_true_eq, onLine_iff, Bool.not_eq_true']
    rintro ⟨⟨⟨owned, below⟩, free⟩, covered⟩
    rcases waits with released | ⟨fallback, above⟩ | none | short
    · exact Bool.false_ne_true (free.symm.trans released)
    · exact below.elim (fun no => Bool.false_ne_true (no.symm.trans fallback)) fun n => absurd above (Nat.not_le.2 n)
    · exact absurd owned (Nat.not_le.2 none)
    · exact Bool.false_ne_true (short.symm.trans covered)
  case completes =>
    rw [high, if_pos (by rw [ready, show s.dev.line.released = true from released, (onLine_iff _).2 below]; exact beq_iff_eq.2 reads)]
    obtain ⟨D, shape, n, free, fallback, a, b, ends⟩ := completeLine_facts s.cfg s.dev
    exact ⟨D, by rw [shape], n, free, fallback, a, b, ends⟩
  case ignores =>
    rw [high, if_neg]
    rw [ready, Bool.true_and, Bool.and_eq_true, Bool.and_eq_true, onLine_iff, beq_iff_eq]
    rintro ⟨⟨released, below⟩, reads⟩
    rcases waits with held | ⟨fallback, above⟩ | other
    · exact Bool.false_ne_true (held.symm.trans released)
    · exact below.elim (fun no => Bool.false_ne_true (no.symm.trans fallback)) fun n => absurd above (Nat.not_le.2 n)
    · exact other reads
  case watchdog =>
    obtain ⟨E, counts⟩ : ∃ E, E = bumpHealth s.dev 5 := ⟨_, rfl⟩
    obtain ⟨-, health, -, st, v, counted⟩ := bumpHealth_facts s.dev 5
    rw [← counts] at health counted
    have line : E.line = l := by rw [counted]
    obtain ⟨fallback, f, lines, health', n⟩ := enterFallback_line s.cfg E l.n
    rw [line] at f lines n
    rw [if_neg (by rw [no]; exact Bool.false_ne_true)] at f
    refine ⟨enterFallback s.cfg E l.n, ?_, fallback, f, fun pegs => n fun a among on => ?_, (lines no).1, (lines no).2, ?_⟩
    · change execLineWatchdogExpiry s = _
      have due : (s.dev.line.ready && s.dev.line.released && !s.dev.line.fallback) = true := by
        rw [ready, show s.dev.line.released = true from released, show s.dev.line.fallback = false from no]
        rfl
      rw [execLineWatchdogExpiry, onDev_alive running, lineTimeout, if_pos due]
      dsimp only
      rw [← counts, show s.dev.line.n = l.n from rfl]
      refine congrArg (fun e => Host.Outcome.next { s with dev := epilogue s.cfg e }) ?_
      refine each_congr _ (fun e => e.line.f = l.n) (fun e u same => ?_) (fun e u same => by rw [same]) _ f
      exact (congrArg Line.f (sendPeg_only ..).keep.1.line).trans same
    · rw [counted] at among
      exact pegs a among (Option.isSome_iff_ne_none.1 on)
    · rw [health']
      exact health

end Sys2Proof.Machine
end

section
/-! Peg messages at their home, and the release of a full barrier phase (R548, R551, R555, R558, R560, R566, R583). -/
namespace Sys2Proof.Machine
open Sys2Proof

/-- The rows of the six messages. -/
def pegRows (i : TPort) (f : TrlFrame) : List (Nat × Instr) := [(1, .pegOpReceive i f), (2, .watch i f), (3, .unwatch i f), (4, .arrive i f), (5, .withdraw i f), (6, .fallback i f)]

theorem pegRow_frame {s : State} {i : TPort} {f : TrlFrame} {n : Nat} {c : Instr} (among : (n, c) ∈ pegRows i f) (running : alive s = true) (takes : trlFrameIn s.dev i f 3 = true)
    (code : byteAt f.payload 0 = n) : exec c s = .next { s with dev := epilogue s.cfg (pegFrame s.cfg s.dev i f) } := by
  have row : exec c s = onDev s fun d => pegMsg s.cfg d i f n := by
    simp only [pegRows, List.mem_cons, Prod.mk.injEq, List.not_mem_nil, or_false] at among
    rcases among with ⟨rfl, rfl⟩ | ⟨rfl, rfl⟩ | ⟨rfl, rfl⟩ | ⟨rfl, rfl⟩ | ⟨rfl, rfl⟩ | ⟨rfl, rfl⟩ <;> rfl
  rw [row, onDev_alive running, pegMsg, takes, code, beq_self_eq_true, Bool.and_self, if_pos rfl]

/-! An equation for each message, in what its home makes of it. -/

section
variable {c : Cfg} {d : Dev} {f : TrlFrame}

theorem pegHere_op (code : byteAt f.payload 0 = 1) :
    pegHere c d f = if pegFails d (leNat f.payload 2 2) (byteAt f.payload 1) then d
      else
        let e := poolOp c d (leNat f.payload 2 2) (byteAt f.payload 1) (BitVec.ofNat 16 (leNat f.payload 4 2))
        sendReply e.1 f.tenant f.src.toNat 1 e.2.2 (leNat f.payload 2 2) e.2.1.toNat (BitVec.ofNat 16 (leNat f.payload 6 2)).toNat [] := by
  unfold pegHere
  simp only [code]

theorem pegHere_watch (code : byteAt f.payload 0 = 2) :
    pegHere c d f = if 256 * ((sliceOf c f.tenant).2 / 4096) ≤ (d.pegs.watches.filter fun w => w.tenant == f.tenant).length then
        sendReply d f.tenant f.src.toNat 3 0 (leNat f.payload 2 2) 0 (BitVec.ofNat 16 (leNat f.payload 6 2)).toNat []
      else if pegMeets d (leNat f.payload 2 2) (byteAt f.payload 1) (BitVec.ofNat 16 (leNat f.payload 4 2)) then
        sendReply d f.tenant f.src.toNat 2 0 (leNat f.payload 2 2) 0 (BitVec.ofNat 16 (leNat f.payload 6 2)).toNat []
      else { d with pegs := { d.pegs with watches := d.pegs.watches ++ [{ peg := leNat f.payload 2 2, cond := byteAt f.payload 1, operand := BitVec.ofNat 16 (leNat f.payload 4 2), tenant := f.tenant, unit := f.src.toNat, reqId := BitVec.ofNat 16 (leNat f.payload 6 2), pgen := homePgen d f.tenant }] } } := by
  unfold pegHere
  simp only [code]

theorem pegHere_unwatch (code : byteAt f.payload 0 = 3) :
    pegHere c d f = { d with pegs := { d.pegs with watches := d.pegs.watches.filter fun w =>
      !(decide (w.unit = f.src.toNat) && decide (w.reqId = BitVec.ofNat 16 (leNat f.payload 6 2)) && decide (w.tenant = f.tenant)) } } := by
  unfold pegHere
  simp only [code]

theorem pegHere_arrive (code : byteAt f.payload 0 = 4) :
    pegHere c d f = engineArrive c d f.tenant f.src.toNat (leNat f.payload 2 2) (byteAt f.payload 8) (slice f.payload 10 26) := by
  unfold pegHere
  simp only [code]

theorem pegHere_withdraw {ph : Phase} (code : byteAt f.payload 0 = 5)
    (found : d.pegs.phases.find? (fun x => decide (x.peg = leNat f.payload 2 2) && decide (x.tenant = f.tenant) && x.reported.any (fun e => e.1 == f.src.toNat)) = some ph) :
    let left := ph.reported.filter fun e => e.1 != f.src.toNat
    pegHere c d f = sendReply (poolWrite c (setPhase d (leNat f.payload 2 2) f.tenant (some { ph with reported := left })) (leNat f.payload 2 2) (BitVec.ofNat 16 left.length))
      f.tenant f.src.toNat 6 0 (leNat f.payload 2 2) 0 (BitVec.ofNat 16 (leNat f.payload 6 2)).toNat [] := by
  unfold pegHere
  simp only [code, found]

theorem pegHere_withdraw_unknown (code : byteAt f.payload 0 = 5)
    (found : d.pegs.phases.find? (fun x => decide (x.peg = leNat f.payload 2 2) && decide (x.tenant = f.tenant) && x.reported.any (fun e => e.1 == f.src.toNat)) = none) :
    pegHere c d f = d := by
  unfold pegHere
  simp only [code, found]

theorem pegHere_fallback (code : byteAt f.payload 0 = 6) : pegHere c d f = enterFallback c d (leNat f.payload 0x20 4) := by
  unfold pegHere
  simp only [code]

end

/-! ## The barrier engine -/

/-- A phase is set, and its count peg written (R558). -/
theorem setPhase_written (c : Cfg) (d : Dev) (peg : Nat) (t : Tenant) (ph : Phase) (v : W16) :
    let D := poolWrite c (setPhase d peg t (some ph)) peg v
    D.pegs.pool = spWrite d.pegs.pool peg v ∧ D.pegs.phases = (d.pegs.phases.filter fun x => !(decide (x.peg = peg) && decide (x.tenant = t))) ++ [ph] := by
  obtain ⟨pool, phases⟩ := setPhase_only d peg t (some ph)
  obtain ⟨only, written⟩ := poolWrite_only c (setPhase d peg t (some ph)) peg v
  exact ⟨written.trans (by rw [pool]), only.phases.trans phases⟩

/-- The first ARRIVE opens a phase, whose other units are told BEGIN (R558). -/
theorem engineArrive_opens {c : Cfg} {d : Dev} {t : Tenant} {u peg members : Nat} {body : List Byte}
    (free : d.pegs.phases.find? (fun x => decide (x.peg = peg) && decide (x.tenant = t)) = none) (inMap : (mapUnits (BitVec.ofNat 64 (leNat body 0x0E 8))).contains u = true) (ph : Phase)
    (opens : ph = { peg := peg, sense := nextPeg c t peg, tenant := t, body := body, map := BitVec.ofNat 64 (leNat body 0x0E 8), reported := [(u, members)] }) :
    ∃ D, engineArrive c d t u peg members body = engineRelease c D ph ∧ D.pegs.pool = spWrite d.pegs.pool peg 1 ∧
      D.pegs.phases = (d.pegs.phases.filter fun x => !(decide (x.peg = peg) && decide (x.tenant = t))) ++ [ph] := by
  obtain ⟨pool, phases⟩ := setPhase_written c d peg t ph 1
  obtain ⟨only, pool', -⟩ := (each_msgs ((mapUnits (BitVec.ofNat 64 (leNat body 0x0E 8))).filter fun v => v != u && !((poolWrite c (setPhase d peg t (some ph)) peg 1).recov.view.lost.contains v))
    (fun e v => sendReply e t v 4 0 peg 0 0 ([0, homePgen e t] ++ body)) (fun e v => sendReply_only ..) (poolWrite c (setPhase d peg t (some ph)) peg 1)).keep
  refine ⟨_, ?_, pool'.trans pool, only.phases.trans phases⟩
  unfold engineArrive
  dsimp only
  rw [free, ← opens]
  dsimp only
  rw [if_pos inMap]

/-- A further ARRIVE with the phase's bytes is added to it (R558). -/
theorem engineArrive_adds {c : Cfg} {d : Dev} {t : Tenant} {u peg members : Nat} {body : List Byte} {ph : Phase}
    (found : d.pegs.phases.find? (fun x => decide (x.peg = peg) && decide (x.tenant = t)) = some ph) (same : ph.body = body)
    (inMap : (mapUnits (BitVec.ofNat 64 (leNat body 0x0E 8))).contains u = true) (first : (ph.reported.any fun e => e.1 == u) = false) :
    let ph' : Phase := { ph with reported := ph.reported ++ [(u, members)] }
    engineArrive c d t u peg members body = engineRelease c (poolWrite c (setPhase d peg t (some ph')) peg (BitVec.ofNat 16 (ph.reported.length + 1))) ph' := by
  intro ph'
  unfold engineArrive
  dsimp only
  rw [found]
  dsimp only
  rw [if_pos ⟨same, inMap, by rw [first]; rfl⟩, List.length_append]
  rfl

/-- Any other ARRIVE ends the phase with MISMATCH (R558). -/
theorem engineArrive_mismatches {c : Cfg} {d : Dev} {t : Tenant} {u peg members : Nat} {body : List Byte}
    (wrong : (mapUnits (BitVec.ofNat 64 (leNat body 0x0E 8))).contains u = false ∨
      ∃ ph, d.pegs.phases.find? (fun x => decide (x.peg = peg) && decide (x.tenant = t)) = some ph ∧ (ph.body ≠ body ∨ (ph.reported.any fun e => e.1 == u) = true)) :
    ∃ us, engineArrive c d t u peg members body = engineMismatch c d t peg us := by
  unfold engineArrive
  dsimp only
  cases at_ : d.pegs.phases.find? fun x => decide (x.peg = peg) && decide (x.tenant = t) with
  | none =>
    dsimp only
    have out : (mapUnits (BitVec.ofNat 64 (leNat body 0x0E 8))).contains u = false := wrong.resolve_right fun ⟨ph, found, _⟩ => by
      rw [at_] at found
      cases found
    exact ⟨_, if_neg (by rw [out]; exact Bool.false_ne_true)⟩
  | some ph =>
    dsimp only
    refine ⟨_, if_neg ?_⟩
    rintro ⟨same, inMap, first⟩
    rcases wrong with out | ⟨ph', found, other⟩
    · exact Bool.false_ne_true (out.symm.trans inMap)
    · rw [at_] at found
      cases found
      rcases other with differs | again
      · exact differs same
      · rw [again] at first
        cases first

/-- Whether a phase is full: every unit of its map that is not lost has reported. -/
theorem phaseFull_iff (d : Dev) (ph : Phase) :
    (((mapUnits ph.map).filter fun u => !(d.recov.view.lost.contains u)).all fun u => ph.reported.any fun e => e.1 == u) = true ↔
      ∀ u ∈ mapUnits ph.map, u ∉ d.recov.view.lost → ∃ m, (u, m) ∈ ph.reported := by
  simp only [List.all_eq_true, List.mem_filter, List.any_eq_true, beq_iff_eq, Bool.not_eq_true', and_imp, List.contains_eq_mem, decide_eq_false_iff_not]
  refine forall_congr' fun u => imp_congr_right fun _ => imp_congr_right fun _ => ⟨fun ⟨e, among, is⟩ => ⟨e.2, by rw [← is]; exact among⟩, fun ⟨m, among⟩ => ⟨(u, m), among, rfl⟩⟩

/-- A peg that is written can be read again; the other bad words stay (R583). -/
theorem poolWrite_bad (c : Cfg) (d : Dev) (peg : Nat) (v : W16) : (poolWrite c d peg v).pegs.bad = d.pegs.bad.filter (· != peg) := by
  rw [poolWrite, judgeAll_pegs, answerWatches]
  obtain ⟨w, q, shape⟩ := each_msgs ((setPool d peg v).pegs.watches.filter fun w => w.peg == peg && pegMeets (setPool d peg v) peg w.cond w.operand)
    (fun d (w : Watch) => sendReply d w.tenant w.unit 2 0 peg 0 w.reqId.toNat []) (fun d w => sendReply_only ..)
    { setPool d peg v with pegs := { (setPool d peg v).pegs with watches := (setPool d peg v).pegs.watches.filter fun w => !(w.peg == peg && pegMeets (setPool d peg v) peg w.cond w.operand) } }
  exact congrArg (fun e : Dev => e.pegs.bad) shape

/-- The release of a full phase: the count peg 0, the sense peg changed where its word can be read, the phase over (R558, R564, R583). -/
theorem engineRelease_full {c : Cfg} {d : Dev} {ph : Phase} (full : ∀ u ∈ mapUnits ph.map, u ∉ d.recov.view.lost → ∃ m, (u, m) ∈ ph.reported) :
    (engineRelease c d ph).pegs.pool = (if ph.sense ∈ d.pegs.bad ∧ ph.sense ≠ ph.peg then spWrite d.pegs.pool ph.peg 0
      else spWrite (spWrite d.pegs.pool ph.peg 0) ph.sense (if poolPeg d ph.sense = 0 then 1 else 0)) ∧
    (engineRelease c d ph).pegs.phases = d.pegs.phases.filter fun x => !(decide (x.peg = ph.peg) && decide (x.tenant = ph.tenant)) := by
  obtain ⟨v, value⟩ : ∃ v : W16, v = if poolPeg d ph.sense = 0 then 1 else 0 := ⟨_, rfl⟩
  obtain ⟨e, writes⟩ : ∃ e, e = poolWrite c (setPhase d ph.peg ph.tenant none) ph.peg 0 := ⟨_, rfl⟩
  obtain ⟨g, senses⟩ : ∃ g, g = if pegGood e ph.sense = true then poolWrite c e ph.sense v else e := ⟨_, rfl⟩
  have shape : engineRelease c d ph = each (ph.reported.filter fun e => e.2 != 0) g fun d e => sendReply d ph.tenant e.1 5 0 ph.peg v.toNat 0 [] := by
    rw [senses, writes, value]
    exact if_pos ((phaseFull_iff d ph).2 full)
  obtain ⟨only, pool, -⟩ := (each_msgs (ph.reported.filter fun e => e.2 != 0) (fun d e => sendReply d ph.tenant e.1 5 0 ph.peg v.toNat 0 []) (fun d e => sendReply_only ..) g).keep
  obtain ⟨only', pool'⟩ := poolWrite_only c (setPhase d ph.peg ph.tenant none) ph.peg 0
  obtain ⟨pool'', phases''⟩ := setPhase_only d ph.peg ph.tenant none
  rw [List.append_nil] at phases''
  have bad : e.pegs.bad = d.pegs.bad.filter (· != ph.peg) := by
    rw [writes, poolWrite_bad]
    rfl
  have good : pegGood e ph.sense = true ↔ ¬(ph.sense ∈ d.pegs.bad ∧ ph.sense ≠ ph.peg) := by
    rw [pegGood, bad, Bool.not_eq_true', List.contains_eq_mem, decide_eq_false_iff_not, List.mem_filter, bne_iff_ne]
  rw [← writes, pool''] at pool'
  have phases' : e.pegs.phases = d.pegs.phases.filter fun x => !(decide (x.peg = ph.peg) && decide (x.tenant = ph.tenant)) := by
    rw [writes]
    exact only'.phases.trans phases''
  rw [shape, pool, only.phases]
  by_cases reads : pegGood e ph.sense = true
  · rw [if_pos reads] at senses
    obtain ⟨only3, pool3⟩ := poolWrite_only c e ph.sense v
    rw [senses, if_neg (good.1 reads), pool3, only3.phases, pool', value]
    exact ⟨rfl, phases'⟩
  · rw [if_neg reads] at senses
    rw [senses, if_pos (not_not.1 fun other => reads (good.2 other))]
    exact ⟨pool', phases'⟩

/-- Settles O45. -/
theorem pegMessagesAndPhases : Obligations.PegMessagesAndPhases := by
  unfold Obligations.PegMessagesAndPhases
  refine ⟨?messages, fun c d ph => ⟨fun short => ?short, engineRelease_full⟩⟩
  case short =>
    obtain ⟨u, among, live, unreported⟩ := short
    refine if_neg fun full => ?_
    obtain ⟨m, reported⟩ := (phaseFull_iff d ph).1 full u among live
    exact unreported m reported
  case messages =>
    intro s i f running up formed kind content codes pl t u peg amount id same goes answer
    have takes : trlFrameIn s.dev i f 3 = true := trlIn s.dev i f 3 up formed kind (by decide) content codes
    refine ⟨fun e among code => ⟨fun away => ?_, fun here refused => ?_⟩, fun here accepted => ?_⟩
    · rw [pegRow_frame (n := e.1) (c := e.2) among running takes code, pegFrame, ptFrame, if_neg away]
    · rw [pegRow_frame (n := e.1) (c := e.2) among running takes code, pegFrame, ptFrame, if_pos here, refused, if_neg Bool.false_ne_true]
    have acts : ∀ {n : Nat} {c : Instr}, (n, c) ∈ pegRows i f → byteAt pl 0 = n → ∀ {D : Dev}, pegHere s.cfg s.dev f = D → exec c s = goes D := fun among code D is => by
      rw [pegRow_frame among running takes code, pegFrame, ptFrame, if_pos here, accepted, if_pos rfl, is]
    have number : (BitVec.ofNat 16 (leNat f.payload 6 2)).toNat = id := Nat.mod_eq_of_lt (leNat_lt f.payload 6 2)
    refine ⟨fun code good => ?op, fun code bad noSet noClear => ?bad, fun code full => ?full, fun code room good holds => ?met, fun code room waits => ?keeps, fun code => ?unwatch,
      fun code => ?arrive, fun code => ⟨fun ph found => ?withdraw, fun none => ?stays⟩, fun code => ?fallback⟩
    case op =>
      have reads : ¬pegFails s.dev peg (byteAt pl 1) = true := by
        rw [pegFails, pegGood, Bool.and_eq_true, Bool.and_eq_true, bne_iff_ne, bne_iff_ne, Bool.not_not, List.contains_iff_mem]
        rintro ⟨⟨bad, noSet⟩, noClear⟩
        rcases good with sound | set | clear
        · exact sound bad
        · exact noSet set
        · exact noClear clear
      obtain ⟨-, written, value⟩ := poolOp_keep s.cfg s.dev peg (byteAt pl 1) amount
      refine ⟨(poolOp s.cfg s.dev peg (byteAt pl 1) amount).1, acts (by simp [pegRows]) code ((pegHere_op code).trans ((if_neg reads).trans ?_)), written⟩
      dsimp only
      rw [number, show (poolOp s.cfg s.dev (leNat f.payload 2 2) (byteAt f.payload 1) (BitVec.ofNat 16 (leNat f.payload 4 2))).2 = _ from value]
    case bad =>
      have fails : pegFails s.dev peg (byteAt pl 1) = true := by
        rw [pegFails, pegGood, List.contains_iff_mem.2 bad, bne_iff_ne.2 noSet, bne_iff_ne.2 noClear]
        rfl
      exact acts (by simp [pegRows]) code ((pegHere_op code).trans (if_pos fails))
    case full =>
      refine acts (by simp [pegRows]) code ((pegHere_watch code).trans ((if_pos full).trans ?_))
      rw [number]
    case met =>
      have meets : pegMeets s.dev peg (byteAt pl 1) amount = true := by
        rw [pegMeets, pegGood, holds, Bool.and_true, Bool.not_eq_true', List.contains_eq_mem, decide_eq_false good]
      refine acts (by simp [pegRows]) code ((pegHere_watch code).trans ((if_neg (Nat.not_le.2 room)).trans ((if_pos meets).trans ?_)))
      rw [number]
    case keeps =>
      have unmet : ¬pegMeets s.dev peg (byteAt pl 1) amount = true := by
        rw [pegMeets, pegGood, Bool.and_eq_true, Bool.not_eq_true', List.contains_eq_mem, decide_eq_false_iff_not]
        rintro ⟨good, holds⟩
        rcases waits with bad | not
        · exact good bad
        · exact Bool.false_ne_true (not.symm.trans holds)
      exact acts (by simp [pegRows]) code ((pegHere_watch code).trans ((if_neg (Nat.not_le.2 room)).trans (if_neg unmet)))
    case unwatch => exact acts (by simp [pegRows]) code (pegHere_unwatch code)
    case arrive =>
      intro body map
      refine ⟨fun ph free inMap opens => ?_, fun ph found bytes inMap first => ?_, fun wrong => ?_⟩
      · obtain ⟨D, shape, pool, phases⟩ := engineArrive_opens (c := s.cfg) (members := byteAt pl 8) free inMap ph opens
        exact ⟨D, acts (by simp [pegRows]) code ((pegHere_arrive code).trans shape), pool, phases⟩
      · have shape := engineArrive_adds (c := s.cfg) (members := byteAt pl 8) found bytes inMap first
        obtain ⟨pool, phases⟩ := setPhase_written s.cfg s.dev peg t { ph with reported := ph.reported ++ [(u, byteAt pl 8)] } (BitVec.ofNat 16 (ph.reported.length + 1))
        exact ⟨_, acts (by simp [pegRows]) code ((pegHere_arrive code).trans shape), pool, phases⟩
      · obtain ⟨us, shape⟩ := engineArrive_mismatches (c := s.cfg) (members := byteAt pl 8) wrong
        exact ⟨_, acts (by simp [pegRows]) code ((pegHere_arrive code).trans shape), engineMismatch_only s.cfg s.dev t peg us⟩
    case withdraw =>
      intro left
      obtain ⟨pool, phases⟩ := setPhase_written s.cfg s.dev peg t { ph with reported := left } (BitVec.ofNat 16 left.length)
      refine ⟨_, acts (by simp [pegRows]) code ((pegHere_withdraw code found).trans ?_), pool, phases⟩
      rw [number]
    case stays =>
      refine acts (by simp [pegRows]) code (pegHere_withdraw_unknown code (List.find?_eq_none.2 fun x among both => ?_))
      obtain ⟨at_, reported⟩ := Bool.and_eq_true_iff.1 both
      exact Bool.false_ne_true ((none x among at_).symm.trans reported)
    case fallback =>
      obtain ⟨fallback, start, lines, -, n⟩ := enterFallback_line s.cfg s.dev (leNat pl 0x20 4)
      exact ⟨_, acts (by simp [pegRows]) code (pegHere_fallback code), fallback, start, lines, fun pegs => n fun a among on => pegs a among (Option.isSome_iff_ne_none.1 on)⟩

end Sys2Proof.Machine
end

section
/-! RECOVERY messages: each is flooded once and acted on (R621). -/
namespace Sys2Proof.Machine
open Sys2Proof

/-- The rows of the six messages. -/
def recRows (i : TPort) (f : TrlFrame) : List (Nat × Instr) := [(1, .fault i f), (2, .state i f), (3, .verdict i f), (4, .abort i f), (5, .drained i f), (6, .clean i f)]

/-- What each of the six messages does, by its code, to the unit that has flooded it on. -/
def recAct (c : Cfg) (f : TrlFrame) (n : Nat) (d : Dev) : Dev :=
  if n = 1 then acceptFault c d (byteAt f.payload 8) (byteAt f.payload 9) (byteAt f.payload 10) (byteAt f.payload 11)
  else if n = 2 then takeState c d (recTenant f) (recColl f) (recNum f)
    { unit := f.src.toNat, round := byteAt f.payload 3, committed := bitOf (byteAt f.payload 8) 0, sent := (List.range 24).map fun k => leNat f.payload (0x10 + 4 * k) 4 }
  else if n = 3 then takeVerdict c d (recTenant f) (recColl f) (recNum f) (byteAt f.payload 3) (byteAt f.payload 8) (f.payload.getD 9 0)
  else if n = 4 then takeAbort c d (recTenant f) (recColl f) (recNum f) (f.payload.getD 8 0) fun x => (carriersOf (geoOf d x).shape).any fun q => addrOf d.sow.dims q == f.src.toNat
  else if n = 5 then tryChange c (modRec d fun x => { x with
    drained := x.drained ++ (bitTenants (byteAt f.payload 8)).map fun t => (t, f.src.toNat)
    windows := x.windows ++ (List.range (byteAt f.payload 9)).map fun j => leNat f.payload (0x10 + 2 * j) 2 }) false
  else tryEnd (modRec d fun x => { x with cleaned := x.cleaned ++ (bitTenants (byteAt f.payload 8)).map fun t => (t, f.src.toNat) }) false

theorem recRow_exec {s : State} {i : TPort} {f : TrlFrame} {n : Nat} {c : Instr} (among : (n, c) ∈ recRows i f) (running : alive s = true) :
    exec c s = .next { s with dev := recovRow s.cfg s.dev i f n (recAct s.cfg f n) } := by
  have row : exec c s = onDev s fun d => recovRow s.cfg d i f n (recAct s.cfg f n) := by
    simp only [recRows, List.mem_cons, Prod.mk.injEq, List.not_mem_nil, or_false] at among
    rcases among with ⟨rfl, rfl⟩ | ⟨rfl, rfl⟩ | ⟨rfl, rfl⟩ | ⟨rfl, rfl⟩ | ⟨rfl, rfl⟩ | ⟨rfl, rfl⟩ <;> rfl
  rw [row, onDev_alive running]

theorem recovRow_seen (c : Cfg) (d : Dev) (i : TPort) (f : TrlFrame) (n : Nat) (act : Dev → Dev) (old : recSeen d f = true) : recovRow c d i f n act = d := by
  rw [recovRow, old, Bool.not_true, Bool.and_false, if_neg Bool.false_ne_true]

theorem recovRow_first {d : Dev} {i : TPort} {f : TrlFrame} {n : Nat} (c : Cfg) (act : Dev → Dev) (takes : trlFrameIn d i f 7 = true) (code : byteAt f.payload 0 = n) (new : recSeen d f = false) :
    recovRow c d i f n act = epilogue c (act (floodOn (recNote d f) (some i) f.src.toNat f.payload)) := by
  rw [recovRow, takes, code, new, beq_self_eq_true, Bool.and_self, Bool.not_false, Bool.and_self, if_pos rfl]

/-- A noted message is known from then on. -/
theorem recSeen_recNote (d : Dev) (f : TrlFrame) : recSeen (recNote d f) f = true := by
  simp [recSeen, recNote, modRec]

/-- What flooding on after noting leaves, as the state it is. -/
theorem noted_shape {d e : Dev} {f : TrlFrame} (only : e = { recNote d f with trl := e.trl }) :
    recSeen e f = true ∧ e = { d with trl := e.trl, recov := { d.recov with seen := e.recov.seen } } := by
  have seen : e.recov.seen = (recNote d f).recov.seen := (congrArg (fun x : Dev => x.recov.seen) only :)
  refine ⟨?_, ?_⟩
  · rw [only]
    exact recSeen_recNote d f
  · rw [seen]
    exact only

/-- The ports on which a noted message goes on. -/
theorem noted_port (d : Dev) (i j : TPort) (f : TrlFrame) (a b : TrlPort) :
    (if trlUp (recNote d f) j = true ∧ some i ≠ some j then a else b) = if trlUp d j = true ∧ j ≠ i then a else b := by
  have ports : (trlUp (recNote d f) j = true ∧ some i ≠ some j) = (trlUp d j = true ∧ j ≠ i) := by
    simp only [ne_eq, Option.some.injEq, eq_comm]; rfl
  simp only [ports]

/-- Settles O49: each of the six rows floods a first copy on, acts on it, and discards a later one. -/
theorem recoveryMessagesAreFloodedOnce : Obligations.RecoveryMessagesAreFloodedOnce := by
  intro s i f c running up formed kind content codes among pl F t k n goes
  have takes : trlFrameIn s.dev i f 7 = true := trlIn s.dev i f 7 up formed kind (by decide) content codes
  have row := recRow_exec (f := f) (i := i) (c := c) among running
  refine ⟨fun old => row.trans (by rw [recovRow_seen _ _ _ _ _ _ old]), fun new => ?_⟩
  have acts : exec c s = goes (recAct s.cfg f (byteAt pl 0) F) := row.trans (by rw [recovRow_first _ _ takes rfl new])
  obtain ⟨sent, only⟩ := floodOn_trl (recNote s.dev f) (some i) f.src.toNat pl
  have flooded : floodOn (recNote s.dev f) (some i) f.src.toNat pl = F := rfl
  rw [flooded] at sent only
  clear_value F
  obtain ⟨known, shape⟩ := noted_shape only
  refine ⟨fun j => (sent j).trans (noted_port s.dev i j f _ _), known, shape, ?_⟩
  refine ⟨fun code => ?_, fun code => ?_, fun code => ?_, fun code => ?_, fun code => ?_, fun code => ?_⟩ <;> rw [acts, code] <;> rfl

end Sys2Proof.Machine
end

section
/-! The drain of a tenant (R629). -/
namespace Sys2Proof.Machine
open Sys2Proof

/-- No leaf that went down left a hold to an open instance of the tenant (R527). -/
def NoGhostHolds (d : Dev) (t : Tenant) : Prop := ∀ x ∈ d.coll.insts, x.tenant = t → ∀ e ∈ x.ghosts, e.2.holdOk = false

/-- What closing instances of a tenant leaves of what waits for space, and of the tenant's holds. -/
structure Released (t : Tenant) (d e : Dev) : Prop where
  wait : ∀ u : Tenant, u ≠ t → e.store.wait[u] = d.store.wait[u]
  held : NoGhostHolds d t → e.store.held[t] = d.store.held[t]
  insts : ∀ x ∈ e.coll.insts, x ∈ d.coll.insts

theorem Released.refl (t : Tenant) (d : Dev) : Released t d d := ⟨fun _ _ => rfl, fun _ => rfl, fun _ h => h⟩

theorem Released.trans {t : Tenant} {a b c : Dev} (h : Released t a b) (g : Released t b c) : Released t a c :=
  ⟨fun u hu => (g.wait u hu).trans (h.wait u hu), fun free => (g.held fun x hx => free x (h.insts x hx)).trans (h.held free), fun x hx => h.insts x (g.insts x hx)⟩

theorem releaseStaging_waits (d : Dev) (x : Inst) :
    (releaseStaging d x).store.held = d.store.held ∧ ∀ u : Tenant, u ≠ x.tenant → (releaseStaging d x).store.wait[u] = d.store.wait[u] := by
  unfold releaseStaging
  dsimp only
  split <;> exact ⟨rfl, fun u hu => vset_other _ hu _⟩

theorem endStore_waits (d : Dev) (x : Inst) :
    (∀ u : Tenant, u ≠ x.tenant → (endStore d x).store.wait[u] = d.store.wait[u]) ∧
    ((∀ e ∈ x.ghosts, e.2.holdOk = false) → (endStore d x).store.held[x.tenant] = d.store.held[x.tenant]) := by
  have kept : ∀ e : Dev, e.store.held = d.store.held → (∀ g ∈ x.ghosts, g.2.holdOk = false) →
      (e.store.held.set x.tenant (e.store.held[x.tenant] - ((x.ghosts.filter fun g => g.2.holdOk).map fun g => g.2.holdStripes).sum))[x.tenant] = d.store.held[x.tenant] := by
    intro e same free
    have nothing : (x.ghosts.filter fun g => g.2.holdOk) = [] := List.filter_eq_nil_iff.2 fun g hg => by rw [free g hg]; exact Bool.false_ne_true
    rw [vset, if_pos rfl, nothing, same]
    exact Nat.sub_zero _
  unfold endStore
  dsimp only
  split
  · obtain ⟨held, wait⟩ := releaseStaging_waits d x
    exact ⟨wait, kept _ held⟩
  · obtain ⟨held, wait⟩ := releaseStaging_waits d { x with stageStripes := 0 }
    exact ⟨wait, kept _ held⟩

theorem closeInst_released (d : Dev) (t : Tenant) (k : W16) : Released t d (closeInst d t k) := by
  unfold closeInst
  cases found : instAt d t k with
  | none => exact .refl t d
  | some x =>
    obtain ⟨tenant, -⟩ := instAt_key found
    have only := endStore_only d x
    obtain ⟨wait, held⟩ := endStore_waits d x
    subst tenant
    exact ⟨wait, fun free => held (free x (List.mem_of_find?_eq_some found) rfl), fun y hy => only.insts y (List.mem_of_mem_filter hy)⟩

theorem closeAll_released (t : Tenant) (l : List Inst) (d : Dev) : Released t d (each l d fun d x => closeInst (purgeFrames d t x.coll) t x.coll) :=
  each_rel (Released t) (.refl t) (fun _ _ _ => .trans) l _ (fun d x => by
    obtain ⟨v, purged⟩ := purge_only d t x.coll
    rw [purged]
    have closed := closeInst_released { d with trl := v } t x.coll
    exact ⟨closed.wait, closed.held, closed.insts⟩) d

/-- The books of a drained tenant: what a drain takes out of the instances' part, the queue for space and the arrivals. -/
def clearBooks (d : Dev) (t : Tenant) : Dev :=
  { d with
    coll := { d.coll with
      early := d.coll.early.filter fun e => e.2.tenant != t
      preAborts := d.coll.preAborts.filter fun e => e.1 != t
      states := d.coll.states.filter fun e => e.1 != t
      verdicts := d.coll.verdicts.filter fun e => e.1.1 != t
      numbers := d.coll.numbers.filter fun e => e.1.1 != t
      proCount := d.coll.proCount.filter fun e => e.1.1 != t
      relays := d.coll.relays.filter fun e => e.tenant != t
      closed := d.coll.closed.filter fun e => e.1.tenant != t }
    store := { d.store with wait := d.store.wait.set t [] }
    pegs := { d.pegs with arrivals := d.pegs.arrivals.filter fun a => a.tenant != t } }

/-- The drain, once it is under way and counted. -/
def drainStarted (c : Cfg) (d : Dev) (t : Tenant) : Dev :=
  bumpTenant c (addCauseTenant c (modRec d fun x => { x with restart := x.restart.set t .draining }) t 5) t 1

/-- The drain, once its rings have drained. -/
def ringsDrained (c : Cfg) (d : Dev) (t : Tenant) : Dev := each (portsOf c t) (drainStarted c d t) fun d p => each allRings d fun d r => drainRing d p r

/-- The drain, once its open instances have closed. -/
def instsClosed (c : Cfg) (d : Dev) (t : Tenant) : Dev :=
  each ((ringsDrained c d t).coll.insts.filter fun x => x.tenant == t) (ringsDrained c d t) fun d x => closeInst (purgeFrames d t x.coll) t x.coll

theorem drain_eq (c : Cfg) (d : Dev) (t : Tenant) : drain c d t = clearBooks (instsClosed c d t) t := by
  unfold drain clearBooks instsClosed ringsDrained drainStarted modStore
  rfl

theorem drainStarted_facts (c : Cfg) (d : Dev) (t : Tenant) :
    (∀ p r, ringAt (drainStarted c d t) p r = ringAt d p r) ∧
    ∃ st v, drainStarted c d t = { d with recov := { d.recov with restart := d.recov.restart.set t .draining }, stat := st, lem := v } := by
  have caused := addCauseTenant_only c (modRec d fun x => { x with restart := x.restart.set t .draining }) t 5
  obtain ⟨rings, -, -, st, v, counted⟩ := bumpTenant_facts c (addCauseTenant c (modRec d fun x => { x with restart := x.restart.set t .draining }) t 5) t 1
  refine ⟨fun p r => (rings p r).trans (caused.ring p r), st, v, counted.trans ?_⟩
  rw [caused.1]
  rfl

theorem ringsDrained_facts (c : Cfg) (d : Dev) (t : Tenant) :
    (∀ p r, ringAt (ringsDrained c d t) p r = if p ∈ portsOf c t then drainedRing (ringAt d p r) else ringAt d p r) ∧
    ∃ st v, ringsDrained c d t = { d with recov := { d.recov with restart := d.recov.restart.set t .draining }, stat := st, lem := v } := by
  obtain ⟨same, st, v, started⟩ := drainStarted_facts c d t
  obtain ⟨w, only⟩ := lemOnly_fold (portsOf c t) (drainStarted c d t)
  refine ⟨fun p r => ?_, st, w, only.trans (by rw [started])⟩
  rw [ringsDrained, ports_fold (portsOf c t) (List.Nodup.filter _ allLem_nodup), same]

/-- What is left once the tenant's open instances have closed. -/
structure DrainShape (c : Cfg) (d : Dev) (t : Tenant) (e : Dev) : Prop where
  rings : ∀ p r, ringAt e p r = if p ∈ portsOf c t then drainedRing (ringAt d p r) else ringAt d p r
  restart : e.recov.restart = d.recov.restart.set t .draining
  insts : ∀ x, x ∈ e.coll.insts ↔ x ∈ d.coll.insts ∧ x.tenant ≠ t
  pegs : e.pegs = d.pegs
  spool : e.store.spool = d.store.spool
  holds : NoGhostHolds d t → e.store.held[t] = d.store.held[t]
  others : ∀ u : Tenant, u ≠ t → e.store.held[u] = d.store.held[u] ∧ e.store.staged[u] = d.store.staged[u] ∧ e.store.wait[u] = d.store.wait[u]

theorem instsClosed_shape (c : Cfg) (d : Dev) (t : Tenant) : DrainShape c d t (instsClosed c d t) := by
  obtain ⟨rings, st, v, drained⟩ := ringsDrained_facts c d t
  obtain ⟨only, gone⟩ := closeAll t ((ringsDrained c d t).coll.insts.filter fun x => x.tenant == t) (ringsDrained c d t)
  have released := closeAll_released t ((ringsDrained c d t).coll.insts.filter fun x => x.tenant == t) (ringsDrained c d t)
  have insts : (ringsDrained c d t).coll.insts = d.coll.insts := by rw [drained]
  have store : (ringsDrained c d t).store = d.store := by rw [drained]
  refine { rings := fun p r => ?_, restart := ?_, insts := fun x => ⟨fun hx => ?_, fun hx => ?_⟩, pegs := ?_, spool := ?_, holds := fun free => ?_, others := fun u hu => ⟨?_, ?_, ?_⟩ }
  · exact (show ringAt (instsClosed c d t) p r = ringAt (ringsDrained c d t) p r from congrArg (fun l : Vector LemPort 8 => l[p].rings[r]) only.lem).trans (rings p r)
  · exact (congrArg Rec.restart only.recov).trans (by rw [drained])
  · refine ⟨insts ▸ only.insts x hx, fun tenant => ?_⟩
    exact gone x hx tenant x (List.mem_filter.2 ⟨only.insts x hx, by rw [tenant]; exact beq_self_eq_true t⟩) rfl
  · exact only.other x hx.2 (insts ▸ hx.1)
  · exact only.pegs.trans (by rw [drained])
  · exact only.spool.trans (congrArg Store.spool store)
  · exact (released.held (by unfold NoGhostHolds; rw [insts]; exact free)).trans (by rw [store])
  · exact (only.held u hu).trans (by rw [store])
  · exact (only.staged u hu).trans (by rw [store])
  · exact (released.wait u hu).trans (by rw [store])

/-- A key that a filter takes out of a list has no entry left. -/
theorem lookup_filter_gone {β : Type} (l : List ((Tenant × W16) × β)) (t : Tenant) (k : W16) : (l.filter fun e => e.1.1 != t).lookup (t, k) = none := by
  refine List.lookup_eq_none_iff.2 fun e he => ?_
  have other : e.1.1 ≠ t := by simpa using (List.mem_filter.1 he).2
  exact bne_iff_ne.2 fun same => other (congrArg Prod.fst same).symm

/-- Settles O50: the drain of a tenant, stage by stage. -/
theorem aDrainEndsATenantsWork : Obligations.ADrainEndsATenantsWork := by
  intro c d t D
  have hD : D = clearBooks (instsClosed c d t) t := drain_eq c d t
  have shape := instsClosed_shape c d t
  generalize instsClosed c d t = e at hD shape
  rw [hD]
  refine ⟨fun u => ?_, fun p r here => ?_, fun p r away => (shape.rings p r).trans (if_neg away), shape.insts, fun k => ?_, fun a ha => ?_, fun free => shape.holds free, ?_,
    (congrArg Pegs.pool shape.pegs :), (congrArg Pegs.phases shape.pegs :), shape.spool, fun u hu => ?_⟩
  · exact (congrArg (fun v : Vector RestartSt 4 => v[u]) shape.restart).trans (vset _ t u _)
  · have ring : ringAt (clearBooks e t) p r = drainedRing (ringAt d p r) := (shape.rings p r).trans (if_pos here)
    rw [ring]
    refine ⟨rfl, rfl, rfl, fun none => ?_, fun x cur => ?_⟩
    · exact Option.map_eq_none_iff.2 none
    · refine ⟨_, (congrArg (Option.map _) cur : (drainedRing (ringAt d p r)).cur = _), rfl, rfl, rfl, rfl, rfl, rfl⟩
  · exact congrArg (fun o : Option W16 => o.getD 0) (lookup_filter_gone e.coll.numbers t k)
  · simpa using (List.mem_filter.1 ha).2
  · exact (vset _ t t _).trans (if_pos rfl)
  · obtain ⟨held, staged, wait⟩ := shape.others u hu
    exact ⟨held, staged, (vset_other _ hu _).trans wait⟩

end Sys2Proof.Machine
end

section
/-! A fault restart goes on: drain, context change and CLEAN (R569, R570, R628). -/
namespace Sys2Proof.Machine
open Sys2Proof

/-! ## The drain is complete -/

/-- The tenants whose drain has ended here and is not yet told. -/
def drainsDone (c : Cfg) (d : Dev) : List Tenant := allTenants.filter fun t => d.recov.restart[t] == .draining && drainedHere c d t

theorem mem_drainsDone {c : Cfg} {d : Dev} {t : Tenant} : t ∈ drainsDone c d ↔ d.recov.restart[t] = .draining ∧ drainedHere c d t = true := by
  simp only [drainsDone, List.mem_filter, mem_allTenants, true_and, Bool.and_eq_true, beq_iff_eq]

/-- DRAINED is told: what the unit keeps of its own message. -/
def drainTold (c : Cfg) (d : Dev) : Dev :=
  let wins := (drainsDone c d).flatMap (keptWindows c d)
  modRec (flood d 5 0 0 0 0 ([BitVec.ofNat 8 (tenantBits (drainsDone c d).contains), BitVec.ofNat 8 wins.length] ++ zeros 6 ++ wins.flatMap fun w => toLe w 2)) fun x => { x with
    restart := (drainsDone c d).foldl (fun v (t : Tenant) => v.set t RestartSt.drained) x.restart
    drained := x.drained ++ (drainsDone c d).map fun t => (t, ownAddr (flood d 5 0 0 0 0 ([BitVec.ofNat 8 (tenantBits (drainsDone c d).contains), BitVec.ofNat 8 wins.length] ++ zeros 6 ++ wins.flatMap fun w => toLe w 2)))
    windows := x.windows ++ wins }

theorem drainComplete_eq (c : Cfg) (d : Dev) : drainComplete c d = if (drainsDone c d).isEmpty then d else tryChange c (drainTold c d) false := rfl

theorem drainTold_facts (c : Cfg) (d : Dev) (t : Tenant) :
    (drainTold c d).recov.restart[t] = (if t ∈ drainsDone c d then .drained else d.recov.restart[t]) ∧ (drainTold c d).recov.drained = d.recov.drained ++ (drainsDone c d).map (fun t => (t, ownAddr d)) ∧
    (drainTold c d).recov.windows = d.recov.windows ++ (drainsDone c d).flatMap (keptWindows c d) ∧ (drainTold c d).pegs = d.pegs ∧ (drainTold c d).lem = d.lem := by
  unfold drainTold
  dsimp only
  obtain ⟨v, told⟩ := flood_eq d 5 0 0 0 0 ([BitVec.ofNat 8 (tenantBits (drainsDone c d).contains), BitVec.ofNat 8 ((drainsDone c d).flatMap (keptWindows c d)).length] ++ zeros 6 ++ ((drainsDone c d).flatMap (keptWindows c d)).flatMap fun w => toLe w 2)
  rw [told]
  exact ⟨foldl_set .drained t _ _, rfl, rfl, rfl, rfl⟩

/-! ## The context change -/

/-- Context changes of several tenants: what each restart becomes, and its count of changes. -/
theorem finishChanges_facts (c : Cfg) (t : Tenant) (l : List Tenant) (distinct : l.Nodup) (d : Dev) :
    let D := each l d (finishChange c)
    D.sow = d.sow ∧ (∀ e ∈ d.recov.cleaned, e ∈ D.recov.cleaned) ∧
    (t ∈ l → D.recov.restart[t] = .cleaning ∧ D.recov.pgen[t] = d.recov.pgen[t] + 1 ∧ (t, ownAddr d) ∈ D.recov.cleaned) ∧
    (t ∉ l → D.recov.restart[t] = d.recov.restart[t] ∧ D.recov.pgen[t] = d.recov.pgen[t]) := by
  induction l generalizing d with
  | nil => exact ⟨rfl, fun _ h => h, fun h => absurd h List.not_mem_nil, fun _ => ⟨rfl, rfl⟩⟩
  | cons a l ih =>
    obtain ⟨away, distinct⟩ := List.nodup_cons.1 distinct
    obtain ⟨restart, pgen, cleaned, sow, -, -⟩ := finish_facts c d a
    obtain ⟨sow', cleaned', among, other⟩ := ih distinct (finishChange c d a)
    dsimp only
    rw [each_cons]
    have own : ownAddr (finishChange c d a) = ownAddr d := by unfold ownAddr; rw [sow]
    have grown : ∀ e ∈ d.recov.cleaned ++ [(a, ownAddr d)], e ∈ (each l (finishChange c d a) (finishChange c)).recov.cleaned := fun e he => cleaned' e (cleaned ▸ he)
    refine ⟨sow'.trans sow, fun e he => grown e (List.mem_append_left _ he), fun here => ?_, fun gone => ?_⟩
    · by_cases same : t = a
      · subst same
        obtain ⟨kept, count⟩ := other away
        refine ⟨kept.trans ?_, count.trans ?_, grown _ (List.mem_append_right _ List.mem_cons_self)⟩
        · rw [restart]; exact (vset _ t t _).trans (if_pos rfl)
        · rw [pgen]; exact (vset _ t t _).trans (if_pos rfl)
      · obtain ⟨cleaning, count, told⟩ := among ((List.mem_cons.1 here).resolve_left same)
        refine ⟨cleaning, count.trans ?_, own ▸ told⟩
        rw [pgen, vset_other _ same]
    · rw [List.mem_cons, not_or] at gone
      obtain ⟨kept, count⟩ := other gone.2
      refine ⟨kept.trans ?_, count.trans ?_⟩
      · rw [restart, vset_other _ gone.1]
      · rw [pgen, vset_other _ gone.1]

/-- The tenants whose context change is under way. -/
def changesOpen (d : Dev) : List Tenant := allTenants.filter fun t => d.recov.restart[t] == .changing

theorem mem_changesOpen {d : Dev} {t : Tenant} : t ∈ changesOpen d ↔ d.recov.restart[t] = .changing := by
  simp only [changesOpen, List.mem_filter, mem_allTenants, true_and, beq_iff_eq]

/-- Every open context change has ended, and CLEAN is told. -/
def changesTold (c : Cfg) (d : Dev) : Dev := flood (each (changesOpen d) d (finishChange c)) 6 0 0 0 0 [BitVec.ofNat 8 (tenantBits (changesOpen d).contains)]

theorem changeDone_eq (c : Cfg) (d : Dev) : changeDone c d = if (changesOpen d).isEmpty then d else tryEnd (changesTold c d) false := rfl

theorem changesTold_facts (c : Cfg) (d : Dev) (t : Tenant) :
    (d.recov.restart[t] = .changing → (changesTold c d).recov.restart[t] = .cleaning ∧ (changesTold c d).recov.pgen[t] = d.recov.pgen[t] + 1 ∧ (t, ownAddr d) ∈ (changesTold c d).recov.cleaned) ∧
    (d.recov.restart[t] ≠ .changing → (changesTold c d).recov.restart[t] = d.recov.restart[t] ∧ (changesTold c d).recov.pgen[t] = d.recov.pgen[t]) := by
  obtain ⟨-, -, among, other⟩ := finishChanges_facts c t (changesOpen d) (List.Nodup.filter _ allTenants_nodup) d
  obtain ⟨v, told⟩ := flood_eq (each (changesOpen d) d (finishChange c)) 6 0 0 0 0 [BitVec.ofNat 8 (tenantBits (changesOpen d).contains)]
  unfold changesTold
  rw [told]
  exact ⟨fun h => among (mem_changesOpen.2 h), fun h => other fun g => h (mem_changesOpen.1 g)⟩

theorem tryChange_restart (c : Cfg) (d : Dev) (late : Bool) (t : Tenant) :
    (tryChange c d late).recov.restart[t] = (if d.recov.restart[t] = .drained ∧ (late = true ∨ ∀ u ∈ surviving d, (t, u) ∈ d.recov.drained) then .changing else d.recov.restart[t]) := by
  unfold tryChange
  rw [change_fold c late t allTenants allTenants_nodup d]
  simp only [mem_allTenants, true_and]

theorem tryEnd_restart (d : Dev) (late : Bool) (t : Tenant) :
    (tryEnd d late).recov.restart[t] = (if d.recov.restart[t] = .cleaning ∧ (late = true ∨ ∀ u ∈ surviving d, (t, u) ∈ d.recov.cleaned) then .none else d.recov.restart[t]) := by
  unfold tryEnd
  rw [end_fold late t allTenants allTenants_nodup d]
  simp only [mem_allTenants, true_and]

/-- What a pool peg reads after a context change (R569, R570, R583). -/
theorem finishChange_peg (c : Cfg) (d : Dev) (t : Tenant) (k : Nat) :
    (k ∉ (keptPegs c d t).filter (pegGood d) → poolPeg (finishChange c d t) k = if inSlice c t k = true then 0 else poolPeg d k) ∧
    (k ∈ (keptPegs c d t).filter (pegGood d) → spWf d.pegs.pool = true → (∀ j ∈ keptPegs c d t, wordGood d (savedAt j) = true) → poolPeg (finishChange c d t) k = poolPeg d k) := by
  obtain ⟨-, -, -, -, ⟨P, pool, store, pegs⟩, -⟩ := finish_facts c d t
  obtain ⟨-, -, -, untouched, restored⟩ := restores d.pegs.pool ((keptPegs c d t).filter (pegGood d)) P
  rw [pegs k]
  refine ⟨fun gone => (untouched k gone).trans ?_, fun kept wf good => ?_⟩
  · unfold poolPeg inSlice
    rw [pool, spRead_clear]
    simp only [Bool.and_eq_true, decide_eq_true_eq]
  · refine restored ?_ (fun j hj => ?_) k kept
    · rw [pool]; exact spWf_clear _ _ wf
    · unfold wordGood poisoned at *
      rw [store]
      exact good j (List.mem_of_mem_filter hj)

/-- Settles O51: the drain told, the context changes, the restarts' ends, and the waits. -/
theorem restartsGoOnStepByStep : Obligations.RestartsGoOnStepByStep := by
  refine ⟨fun s t running => ?_, fun c d late t => ?_, fun c d t k => ?_⟩
  · intro ready
    refine ⟨fun noneReady => ?_, fun someReady => ⟨drainTold s.cfg s.dev, ?_, ?_⟩, fun noneOpen => ?_, fun someOpen => ⟨changesTold s.cfg s.dev, ?_, changesTold_facts s.cfg s.dev t⟩, fun waits => ?_, fun idle => ?_⟩
    · have empty : drainsDone s.cfg s.dev = [] := List.eq_nil_iff_forall_not_mem.2 fun u hu => noneReady ⟨u, mem_drainsDone.1 hu⟩
      change execDrainComplete s = _
      rw [execDrainComplete, onDev_alive running, drainComplete_eq, empty]
      rfl
    · obtain ⟨u, hu⟩ := someReady
      have some : (drainsDone s.cfg s.dev).isEmpty = false := List.isEmpty_eq_false_iff_exists_mem.2 ⟨u, mem_drainsDone.2 hu⟩
      change execDrainComplete s = _
      rw [execDrainComplete, onDev_alive running, drainComplete_eq, some, if_neg Bool.false_ne_true]
    · obtain ⟨restart, drained, windows, pegs, lem⟩ := drainTold_facts s.cfg s.dev t
      refine ⟨fun here => ?_, fun away => restart.trans (if_neg fun h => away (mem_drainsDone.1 h)), pegs, lem⟩
      have among : t ∈ drainsDone s.cfg s.dev := mem_drainsDone.2 here
      refine ⟨restart.trans (if_pos among), ?_, fun w hw => ?_⟩
      · rw [drained]
        exact List.mem_append_right _ (List.mem_map_of_mem (f := fun t => (t, ownAddr s.dev)) among)
      · rw [windows]
        exact List.mem_append_right _ (List.mem_flatMap_of_mem among hw)
    · have empty : changesOpen s.dev = [] := List.eq_nil_iff_forall_not_mem.2 fun u hu => noneOpen u (mem_changesOpen.1 hu)
      change execContextChangeDone s = _
      rw [execContextChangeDone, onDev_alive running, changeDone_eq, empty]
      rfl
    · obtain ⟨u, hu⟩ := someOpen
      have some : (changesOpen s.dev).isEmpty = false := List.isEmpty_eq_false_iff_exists_mem.2 ⟨u, mem_changesOpen.2 hu⟩
      change execContextChangeDone s = _
      rw [execContextChangeDone, onDev_alive running, changeDone_eq, some, if_neg Bool.false_ne_true]
    · obtain ⟨u, hu⟩ := waits
      change execRecoveryWaitExpiry s = _
      rw [execRecoveryWaitExpiry, onDev_alive running, if_pos]
      exact List.any_eq_true.2 ⟨u, mem_allTenants u, by simpa using hu⟩
    · change execRecoveryWaitExpiry s = _
      rw [execRecoveryWaitExpiry, onDev_alive running, if_neg]
      intro waits
      obtain ⟨u, -, hu⟩ := List.any_eq_true.1 waits
      obtain ⟨notDrained, notCleaning⟩ := idle u
      simp only [Bool.or_eq_true, beq_iff_eq] at hu
      exact hu.elim notDrained notCleaning
  · exact ⟨tryChange_restart c d late t, tryEnd_restart d late t⟩
  · obtain ⟨cleared, restored⟩ := finishChange_peg c d t k
    obtain ⟨-, -, -, -, -, pocket⟩ := finish_facts c d t
    refine ⟨fun inside gone => ?_, fun outside gone => ?_, fun kept good => restored ?_, fun _ bad inside => ?_, pocket⟩
    · exact (cleared fun h => gone (List.mem_of_mem_filter h)).trans (if_pos inside)
    · exact (cleared fun h => gone (List.mem_of_mem_filter h)).trans (if_neg (by rw [outside]; exact Bool.false_ne_true))
    · exact List.mem_filter.2 ⟨kept, by simpa [pegGood] using good⟩
    · refine (cleared fun h => ?_).trans (if_pos inside)
      have good := (List.mem_filter.1 h).2
      simp [pegGood, bad] at good

end Sys2Proof.Machine
end

section
/-! Verdicts and aborts (R623, R632 to R636). -/
namespace Sys2Proof.Machine
open Sys2Proof

/-- What a list holds of a key after an entry of it has been put there. -/
theorem lookup_upsert {α β : Type} [BEq α] [LawfulBEq α] (l : List (α × β)) (a : α) (b : β) : (upsert l (fun e => e.1 == a) (a, b)).lookup a = some b := by
  induction l with
  | nil => simp [upsert]
  | cons e l ih =>
    rw [upsert]
    by_cases same : e.1 = a
    · rw [if_pos (beq_iff_eq.2 same)]
      simp
    · rw [if_neg (by simpa using same), List.lookup]
      rw [beq_eq_false_iff_ne.2 (Ne.symm same)]
      exact ih

/-- What is open of a key is told by the instances' part alone. -/
theorem instAt_of_coll {d e : Dev} (same : e.coll = d.coll) (t : Tenant) (k : W16) : instAt e t k = instAt d t k := by unfold instAt; rw [same]

theorem verdictOf_of_coll {d e : Dev} (same : e.coll = d.coll) (t : Tenant) (k n : W16) : verdictOf e t k n = verdictOf d t k n := by unfold verdictOf; rw [same]

/-- A verdict that is accepted is kept by its number. -/
def verdictKept (d : Dev) (t : Tenant) (k n : W16) (round : Nat) : Dev :=
  { d with coll := { d.coll with verdicts := upsert d.coll.verdicts (fun e => e.1 == (t, k, n)) ((t, k, n), round) } }

theorem verdictOf_verdictKept (d : Dev) (t : Tenant) (k n : W16) (round : Nat) : verdictOf (verdictKept d t k n round) t k n = round := by
  unfold verdictOf verdictKept
  dsimp only
  rw [lookup_upsert]
  rfl

/-- A REFORM is counted for its tenant, and a cause of its ports' pages. -/
def reformCounted (c : Cfg) (d : Dev) (t : Tenant) : Dev := bumpTenant c (addCauseTenant c d t 6) t 2

theorem reformCounted_facts (c : Cfg) (d : Dev) (t : Tenant) :
    (reformCounted c d t).stat.tctr[t][2] = satInc64 d.stat.tctr[t][2] 1 ∧ (reformCounted c d t).coll = d.coll ∧ (reformCounted c d t).trl = d.trl := by
  have caused := addCauseTenant_only c d t 6
  obtain ⟨-, -, counts, st, v, counted⟩ := bumpTenant_facts c (addCauseTenant c d t 6) t 2
  refine ⟨counts.trans ?_, (congrArg Dev.coll counted).trans ?_, (congrArg Dev.trl counted).trans ?_⟩
  · rw [caused.stat]; rfl
  · exact (congrArg Dev.coll caused.1).trans rfl
  · exact (congrArg Dev.trl caused.1).trans rfl

theorem takeVerdict_old {c : Cfg} {d : Dev} {t : Tenant} {k n : W16} {round : Nat} (outcome : Nat) (st : Byte) (old : round ≤ verdictOf d t k n ∨ round < highestRound d t k n) :
    takeVerdict c d t k n round outcome st = d := if_pos old

section
variable {c : Cfg} {d : Dev} {t : Tenant} {k n : W16} {round : Nat} {x : Inst} {st : Byte}
  (newer : verdictOf d t k n < round) (highest : highestRound d t k n ≤ round) (found : instAt d t k = some x) (num : x.num = n) (frozen : x.frozen = true) (inRound : x.round = round)
include newer highest

/-- END: the frozen open one ends with the status. -/
theorem takeVerdict_ended : takeVerdict c d t k n round 3 st = takeAbort c (verdictKept d t k n round) t k n st fun x => x.frozen := by
  unfold takeVerdict
  rw [if_neg (by omega)]
  rfl

include found num frozen inRound

/-- COMMITTED: it goes on. -/
theorem takeVerdict_committed : takeVerdict c d t k n round 1 st =
    pumpInst c (modInst (modInst (verdictKept d t k n round) t k fun x => { x with verdictRound := round }) t k fun x => { x with frozen := false, goesOn := true, toRemove := [], kept := [] }) t k := by
  unfold takeVerdict
  rw [if_neg (by omega)]
  dsimp only
  rw [if_neg (by decide), if_neg (by decide), if_pos rfl]
  have at_ : instAt (verdictKept d t k n round) t k = some x := found
  unfold verdictKept at *
  rw [at_]
  dsimp only
  rw [if_neg (by simp [num, frozen, inRound])]

/-- REFORM: its rerun is due. -/
theorem takeVerdict_reform : takeVerdict c d t k n round 2 st =
    tryReform c (modInst (modInst (reformCounted c (verdictKept d t k n round) t) t k fun x => { x with verdictRound := round }) t k fun x => { x with reformDue := true }) t k := by
  have coll := (reformCounted_facts c (verdictKept d t k n round) t).2.1
  have at_ : instAt (reformCounted c (verdictKept d t k n round) t) t k = some x := (instAt_of_coll coll t k).trans found
  unfold takeVerdict
  rw [if_neg (by omega)]
  dsimp only
  rw [if_pos rfl, if_neg (by decide)]
  unfold reformCounted verdictKept at *
  rw [at_]
  dsimp only
  rw [if_neg (by simp [num, frozen, inRound]), if_neg (by decide)]

end

/-- An ABORT that ends the open one of its number: as any end of it. -/
theorem takeAbort_ends {c : Cfg} {d : Dev} {t : Tenant} {k n : W16} {st : Byte} {mine : Inst → Bool} {x : Inst} (found : instAt d t k = some x) (num : x.num = n) (isMine : mine x = true)
    (notAborted : x.aborted = none) : takeAbort c d t k n st mine = endInst d t k st := by
  unfold takeAbort
  rw [found]
  dsimp only
  rw [if_pos num, isMine, notAborted, Option.isNone_none, Bool.and_self, if_pos rfl]

theorem takeAbort_skips {c : Cfg} {d : Dev} {t : Tenant} {k n : W16} {st : Byte} {mine : Inst → Bool} {x : Inst} (found : instAt d t k = some x) (num : x.num = n)
    (not : mine x = false ∨ x.aborted ≠ none) : takeAbort c d t k n st mine = d := by
  unfold takeAbort
  rw [found]
  dsimp only
  rw [if_pos num, if_neg]
  rcases not with not | aborted
  · rw [not]; exact Bool.false_ne_true
  · intro h
    exact aborted (Option.isNone_iff_eq_none.1 (Bool.and_eq_true_iff.1 h).2)

/-! ## The rerun -/

/-- An open one as its rerun starts (R635): without what it has received, sent and decided, and without the members that are removed. -/
def rerun (d e : Dev) (x y : Inst) : Inst :=
  { y with
    rx := y.rx.filter fun r => r.wire == 0xFFFFFFFF
    tx := y.tx.filter fun r => r.wire == 0xFFFFFFFF
    committed := false, written := 0, decision := none, noYard := false, pressDone := false, pressOut := none,
    spoiled := false, parked := [],
    removed := addMasks y.removed y.toRemove, toRemove := [], mine := y.mine &&& ~~~(lookMask (addMasks y.removed y.toRemove) (ownAddr e))
    view := viewOf e, surv := surviving e, frozen := false, reformDue := false, grafted := true, kept := []
    skip := List.zipWith (fun o n => o - n) (oldFrames d x) y.taken }

/-- Loading recipe buffers leaves the instances' part. -/
theorem loadRecipe_coll (d : Dev) (e : LPort × RingNo) : (loadRecipe d e).coll = d.coll := by
  unfold loadRecipe
  split
  · split <;> rfl
  · rfl

/-- With no frames kept, the rerun is the open one as it starts, its recipe buffers loaded. -/
theorem reform_unkept {c : Cfg} {d : Dev} {t : Tenant} {k : W16} {x : Inst} (found : instAt d t k = some x) (unkept : x.kept = []) :
    reform c d t k = pumpInst c (each x.runs (modInst (purgeFrames d t k) t k (rerun d (purgeFrames d t k) x)) loadRecipe) t k := by
  unfold reform
  rw [found]
  dsimp only
  rw [unkept]
  rfl

theorem tryReform_waits {c : Cfg} {d : Dev} {t : Tenant} {k : W16} {x : Inst} (found : instAt d t k = some x) (lacks : neighbourStates d x = false) : tryReform c d t k = d := by
  unfold tryReform
  rw [found]
  dsimp only
  rw [lacks, Bool.and_false, if_neg Bool.false_ne_true]

theorem tryReform_goes {c : Cfg} {d : Dev} {t : Tenant} {k : W16} {x : Inst} (found : instAt d t k = some x) (due : x.reformDue = true) (come : neighbourStates d x = true) (unkept : x.kept = []) :
    ∃ D, tryReform c d t k = pumpInst c D t k ∧ instAt D t k = some (rerun d (purgeFrames d t k) x x) := by
  refine ⟨each x.runs (modInst (purgeFrames d t k) t k (rerun d (purgeFrames d t k) x)) loadRecipe, ?_, ?_⟩
  · unfold tryReform
    rw [found]
    dsimp only
    rw [due, come, Bool.and_self, if_pos rfl]
    exact reform_unkept found unkept
  · obtain ⟨v, purged⟩ := purge_only d t k
    have coll : (each x.runs (modInst (purgeFrames d t k) t k (rerun d (purgeFrames d t k) x)) loadRecipe).coll = _ := each_field x.runs loadRecipe Dev.coll loadRecipe_coll _
    rw [instAt_of_coll coll]
    refine (instAt_modInst (purgeFrames d t k) t k (rerun d (purgeFrames d t k) x) fun y => ⟨rfl, rfl⟩).trans ?_
    have same : instAt (purgeFrames d t k) t k = some x := by rw [purged]; exact found
    rw [same]
    rfl

/-- The root's wait for a STATE of the one that is held ends in its verdict (R633). -/
theorem stateWaitExpiry_exec {s : State} {t : Tenant} {k n : W16} (running : alive s = true) (held : stateKeys s.dev = [(t, k, n)]) :
    exec (.stateWaitExpiry t k) s = .next { s with dev := epilogue s.cfg (if decideVerdict s.cfg s.dev t k n true = s.dev then s.dev else bumpHealth (decideVerdict s.cfg s.dev t k n true) 5) } := by
  change execStateWaitExpiry t k s = _
  rw [execStateWaitExpiry, onDev_alive running, held]
  have key : ([(t, k, n)] : List (Tenant × W16 × W16)).filter (fun e => e.1 == t && e.2.1 == k) = [(t, k, n)] := by simp
  rw [key]
  rfl

/-- Settles O52: verdicts, aborts, the rerun and the root's wait. -/
theorem verdictsAndAborts : Obligations.VerdictsAndAborts := by
  intro c d t k n st
  refine ⟨fun round outcome old => takeVerdict_old outcome st old, fun round x newer highest found num frozen inRound => ⟨⟨_, takeVerdict_committed newer highest found num frozen inRound, rfl, rfl, ?_, ?_⟩,
    ?_, fun notAborted => ?_⟩, fun mine x found => ⟨fun num isMine notAborted => ?_, fun num not => takeAbort_skips found num not, fun other ahead => ?_,
    fun behind => ?_⟩, fun x found _ lacks => tryReform_waits found lacks, fun x found due come unkept => ?_, fun s running hc hd held => ?_⟩
  · exact verdictOf_verdictKept d t k n round
  · rw [instAt_modInst, instAt_modInst]
    · exact congrArg (Option.map _) (congrArg (Option.map _) found)
    · exact fun y => ⟨rfl, rfl⟩
    · exact fun y => ⟨rfl, rfl⟩
  · have reruns := takeVerdict_reform (c := c) (st := st) newer highest found num frozen inRound
    obtain ⟨count, coll, trl⟩ := reformCounted_facts c (verdictKept d t k n round) t
    generalize reformCounted c (verdictKept d t k n round) t = e at reruns count coll trl
    refine ⟨_, reruns, (verdictOf_of_coll coll t k n).trans (verdictOf_verdictKept d t k n round), trl, count, ?_⟩
    rw [instAt_modInst, instAt_modInst, instAt_of_coll coll]
    · exact congrArg (Option.map _) (congrArg (Option.map _) found)
    · exact fun y => ⟨rfl, rfl⟩
    · exact fun y => ⟨rfl, rfl⟩
  · rw [takeVerdict_ended newer highest, takeAbort_ends (d := verdictKept d t k n round) found num frozen notAborted]
    obtain ⟨closed, -, -, ends⟩ := endInst_facts (verdictKept d t k n round) t k st x found
    exact ⟨closed, ends⟩
  · rw [takeAbort_ends found num isMine notAborted]
    obtain ⟨closed, -, -, ends⟩ := endInst_facts d t k st x found
    exact ⟨closed, ends⟩
  · unfold takeAbort
    rw [found]
    dsimp only
    rw [if_neg other, if_pos ahead]
  · have other : x.num ≠ n := by
      rintro rfl
      simp at behind
    unfold takeAbort
    rw [found]
    dsimp only
    rw [if_neg other, if_neg (by omega)]
  · obtain ⟨D, reruns, at_⟩ := tryReform_goes (c := c) found due come unkept
    refine ⟨D, _, reruns, at_, rfl, rfl, rfl, rfl, rfl, rfl, rfl, rfl, rfl, fun r hr => ?_, fun r hr => ?_, rfl, rfl⟩
    · exact beq_iff_eq.1 (List.mem_filter.1 hr).2
    · exact beq_iff_eq.1 (List.mem_filter.1 hr).2
  · subst hc hd
    exact stateWaitExpiry_exec running held

end Sys2Proof.Machine
end

section
/-! The Press and the Sieve decide, and waits end open collectives (R387, R400, R421, R484 to R495, R623, R634). -/
namespace Sys2Proof.Machine
open Sys2Proof

theorem geoOf_desc (d : Dev) (x : Inst) : (geoOf d x).desc = instDesc x := rfl

section
variable {c : Cfg} {d : Dev} {t : Tenant} {k : W16} {x : Inst} {vals : List Val} (found : instAt d t k = some x) (whole : reducedVals d (geoOf d x) x = some vals)
include found whole

theorem pressStage_block {b : Block} (press : dPress (instDesc x) = true) (undone : x.pressDone = false) (there : findBlock d t (dYardAddr (instDesc x)) = some b) :
    pressStage c d t k = pumpInst c (modInst d t k fun y => { y with
      pressDone := true, pressOut := some (pressOutput c d (instDesc x) b vals), noYard := false
      decision := (if dSieve (instDesc x) = 0 then some (decisionStream (instDesc x) 2 false vals (roundedBytes (instDesc x) (((pressOutput c d (instDesc x) b vals).take (dCount (instDesc x))).map (decodeVal .binary32)))) else none) }) t k := by
  unfold pressStage
  rw [found]
  dsimp only
  rw [whole]
  dsimp only
  rw [geoOf_desc, press, undone, there, Bool.not_true, Bool.or_self, if_neg Bool.false_ne_true]
  by_cases sieve : dSieve (instDesc x) = 0
  · simp only [sieve, ne_eq, not_true_eq_false, if_false, if_true, Option.map_some, Option.isNone_some]
  · simp only [sieve, ne_eq, not_false_eq_true, if_false, if_true, Option.map_some, Option.isNone_some]

theorem pressStage_none (press : dPress (instDesc x) = true) (undone : x.pressDone = false) (gone : findBlock d t (dYardAddr (instDesc x)) = none) :
    pressStage c d t k = pumpInst c (modInst d t k fun y => { y with
      pressDone := true, pressOut := none, noYard := true
      decision := (if dSieve (instDesc x) = 0 then some (decisionStream (instDesc x) 3 true vals (roundedBytes (instDesc x) vals)) else none) }) t k := by
  unfold pressStage
  rw [found]
  dsimp only
  rw [whole]
  dsimp only
  rw [geoOf_desc, press, undone, gone, Bool.not_true, Bool.or_self, if_neg Bool.false_ne_true]
  by_cases sieve : dSieve (instDesc x) = 0
  · simp only [sieve, ne_eq, not_true_eq_false, if_false, if_true, Option.map_none, Option.isNone_none]
  · simp only [sieve, ne_eq, not_false_eq_true, if_false, if_true, Option.map_none, Option.isNone_none]

end

/-- What the Sieve selects from (R491): the Press output, or the values rounded to `out_fmt`. -/
def sieveInputs (x : Inst) (vals : List Val) : List Val :=
  match x.pressOut with
  | some out => out.map (decodeVal .binary32)
  | none => vals.map fun v => roundVal v (dOutFmt (instDesc x)) (dRound (instDesc x))

theorem sieveStage_selects {c : Cfg} {d : Dev} {t : Tenant} {k : W16} {x : Inst} {vals : List Val} (found : instAt d t k = some x) (whole : reducedVals d (geoOf d x) x = some vals)
    (sieve : dSieve (instDesc x) ≠ 0) (ready : dPress (instDesc x) = false ∨ x.pressDone = true) :
    sieveStage c d t k = pumpInst c (modInst d t k fun y => { y with decision := some (decisionStream (instDesc x) 1 x.noYard vals (sieveBytes (dOutFmt (instDesc x)) (dRound (instDesc x))
      (sieveSelect (dSieve (instDesc x)) (dK (instDesc x)) (decodeVal .binary32 (dThreshold (instDesc x))) (sieveInputs x vals)))) }) t k := by
  unfold sieveStage
  rw [found]
  dsimp only
  rw [whole]
  dsimp only
  rw [geoOf_desc, if_neg]
  · rfl
  · rintro (none | ⟨press, undone⟩)
    · exact sieve none
    · rcases ready with ready | ready
      · rw [ready] at press; cases press
      · rw [ready] at undone; cases undone

/-- Settles O43: the three ways in which the unit that decides goes on. -/
theorem thePressAndTheSieveDecide : Obligations.ThePressAndTheSieveDecide := by
  intro s t k x vals running found whole desc goes
  have changed : ∀ (row : Instr) (stage : Dev) (f : Inst → Inst) (y : Inst), exec row s = .next { s with dev := epilogue s.cfg stage } →
      stage = pumpInst s.cfg (modInst s.dev t k f) t k → (∀ y, (f y).tenant = y.tenant ∧ (f y).coll = y.coll) → f x = y → goes row y := by
    intro row stage f y run pumps keeps became
    refine ⟨modInst s.dev t k f, run.trans (by rw [pumps]), ?_, rfl⟩
    rw [instAt_modInst _ _ _ _ keeps, found, Option.map_some, became]
  have press : exec (.pressStage t k) s = .next { s with dev := epilogue s.cfg (pressStage s.cfg s.dev t k) } := by
    change execPressStage t k s = _
    rw [execPressStage, onDev_alive running]
  have sieve : exec (.sieveSelection t k) s = .next { s with dev := epilogue s.cfg (sieveStage s.cfg s.dev t k) } := by
    change execSieveSelection t k s = _
    rw [execSieveSelection, onDev_alive running]
  refine ⟨fun b wants undone there => ?_, fun wants undone gone => ?_, fun wants ready => ?_⟩
  · exact changed _ _ _ _ press (pressStage_block found whole wants undone there) (fun _ => ⟨rfl, rfl⟩) rfl
  · exact changed _ _ _ _ press (pressStage_none found whole wants undone gone) (fun _ => ⟨rfl, rfl⟩) rfl
  · exact changed _ _ _ _ sieve (sieveStage_selects found whole wants ready) (fun _ => ⟨rfl, rfl⟩) rfl

/-! ## Waits -/

/-- Settles O44: the contribution wait's end, and the watchdog of one that opened aborted. -/
theorem waitsEndInstances : Obligations.WaitsEndInstances := by
  intro s t k x running found
  have wait : exec (.contributionWaitExpiry t k) s = .next { s with dev := epilogue s.cfg (contribTimeout s.dev t k) } := by
    change execContributionWaitExpiry t k s = _
    rw [execContributionWaitExpiry, onDev_alive running]
  obtain ⟨rings, health, -, st, v, counted⟩ := bumpHealth_facts s.dev 5
  have found' : instAt (bumpHealth s.dev 5) t k = some x := by rw [counted]; exact found
  have serial : (bumpHealth s.dev 5).recov = s.dev.recov := by rw [counted]
  refine ⟨fun idle => ?_, fun notAborted waits => ?_, fun aborted => ?_⟩
  · have stays : contribTimeout s.dev t k = s.dev := by
      unfold contribTimeout
      rw [found]
      dsimp only
      refine if_pos ?_
      rcases idle with aborted | idle
      · rw [aborted, Bool.true_or]
      · rw [idle, Bool.not_false, Bool.or_true]
    rw [wait, stays]
  · have ends : contribTimeout s.dev t k = if x.goesOn then endInst (bumpHealth s.dev 5) t k 0x24 else abortInst (bumpHealth s.dev 5) t k 0x26 := by
      unfold contribTimeout
      rw [found]
      dsimp only
      rw [notAborted, waits, Option.isSome_none, Bool.not_true, Bool.or_self, if_neg Bool.false_ne_true]
    refine ⟨_, wait, ?_⟩
    rw [ends]
    generalize bumpHealth s.dev 5 = e at *
    cases goesOn : x.goesOn with
    | true =>
      obtain ⟨closed, stat, recov, finished⟩ := endInst_facts e t k 0x24 x found'
      refine ⟨closed, (congrArg (fun z : Stat => z.health[5]) stat).trans health, congrArg Rec.serial (recov.trans serial), fun p r y among cur open_ => finished p r y among ?_ open_⟩
      rw [rings]; exact cur
    | false =>
      have aborts : abortInst e t k 0x26 = endInst (flood e 4 t.val 0 k.toNat x.num.toNat [0x26]) t k 0x26 := by
        unfold abortInst
        rw [found']
      obtain ⟨lem, stat', coll, recov'⟩ := quiet_flood e 4 t.val 0 k.toNat x.num.toNat [0x26]
      rw [if_neg Bool.false_ne_true, aborts]
      generalize flood e 4 t.val 0 k.toNat x.num.toNat [0x26] = g at *
      obtain ⟨closed, stat, recov, finished⟩ := endInst_facts g t k 0x26 x ((instAt_of_coll coll t k).trans found')
      refine ⟨closed, (congrArg (fun z : Stat => z.health[5]) (stat.trans stat')).trans health, ?_, fun p r y among cur open_ => finished p r y among ?_ open_⟩
      · rw [if_neg Bool.false_ne_true, recov, recov', serial]
      · rw [show ringAt g p r = ringAt e p r from congrArg (fun l : Vector LemPort 8 => l[p].rings[r]) lem, rings]; exact cur
  · have closes : exec (.abortedInstanceWatchdogExpiry t k) s = .next { s with dev := epilogue s.cfg (closeInst (forcePrologue (bumpHealth s.dev 5) t k) t k) } := by
      change execAbortedInstanceWatchdogExpiry t k s = _
      rw [execAbortedInstanceWatchdogExpiry, onDev_alive running, found]
      dsimp only
      rw [if_pos aborted]
    refine ⟨_, closes, closeInst_none _ t k, ?_⟩
    have stat := (closeInst_keep (forcePrologue (bumpHealth s.dev 5) t k) t k).2.1.trans (quiet_force (bumpHealth s.dev 5) t k).2.1
    exact (congrArg (fun z : Stat => z.health[5]) stat).trans health

end Sys2Proof.Machine
end

section
/-! Frames of an open collective are taken (R398, R399, R402, R424, R528, R554). -/
namespace Sys2Proof.Machine
open Sys2Proof

/-! ## The transfer to which a frame belongs -/

/-- The schedule by which a frame is judged: that of the prologues, or that of the data. -/
def frameGeo (d : Dev) (x : Inst) (pro : Bool) : Geo := if pro then proGeo d x else geoOf d x

/-- Whether a frame that enters by a port is the next of a transfer. -/
def fitsNext (g : Geo) (x : Inst) (q : TPort) (f : TrlFrame) (tr : Transfer) : Bool := entryVc g q.val tr == f.vc.toNat && isNextOf x q f tr

/-- The transfer that a frame goes on. -/
def nextTransfer (g : Geo) (x : Inst) (q : TPort) (f : TrlFrame) : Option Transfer := (entering g f.chunk.toNat q.val f.src.toNat).find? (fitsNext g x q f)

/-- Whether a result frame waits for the staging reservation (R528). -/
def resultWaits (g : Geo) (x : Inst) (q : TPort) (f : TrlFrame) (pro : Bool) : Bool :=
  !pro && !x.stageOk && (nextTransfer g x q f).all isDist &&
    (entering g f.chunk.toNat q.val f.src.toNat).any fun tr => entryVc g q.val tr == f.vc.toNat && isDist tr && endsAt g.dims tr == some g.own

/-- What has come of a transfer once the open one has taken a frame of it: the rest that follows. -/
def taken (c : Cfg) (d : Dev) (x : Inst) (g : Geo) (q : TPort) (f : TrlFrame) (tr : Transfer) (pro : Bool) (r : RxStream) : Dev :=
  let D := if endsAt g.dims tr == some g.own then modInst d x.tenant x.coll fun y => { y with rx := upsert y.rx (fun e => sameRx e r.wire.toNat tr) r }
    else relayBy (modInst d x.tenant x.coll fun y => { y with rx := upsert y.rx (fun e => sameRx e r.wire.toNat tr) r }) g q tr f
  pumpInst c (if pro && r.done && endsAt g.dims tr == some g.own then takePrologue c D x.tenant x.coll r.src r.bytes else D) x.tenant x.coll

theorem find_fitting (g : Geo) (x : Inst) (q : TPort) (f : TrlFrame) :
    ((entering g f.chunk.toNat q.val f.src.toNat).filter fun tr => entryVc g q.val tr == f.vc.toNat).find? (isNextOf x q f) = nextTransfer g x q f := by
  rw [List.find?_filter, nextTransfer]
  congr 1
  funext tr
  rw [fitsNext, Bool.decide_and, Bool.decide_coe, Bool.decide_coe]

theorem any_fitting (g : Geo) (q : TPort) (f : TrlFrame) :
    (((entering g f.chunk.toNat q.val f.src.toNat).filter fun tr => entryVc g q.val tr == f.vc.toNat).any fun tr => isDist tr && endsAt g.dims tr == some g.own) =
      (entering g f.chunk.toNat q.val f.src.toNat).any fun tr => entryVc g q.val tr == f.vc.toNat && isDist tr && endsAt g.dims tr == some g.own := by
  rw [List.any_filter]
  simp only [Bool.and_assoc]

/-- A frame that an open one takes waits for space, is next of no transfer, or goes on with the transfer of which it is the next. -/
theorem deliver_eq (c : Cfg) (d : Dev) {x : Inst} (q : TPort) {f : TrlFrame} {pro : Bool} (isPro : (f.chunk.toNat == 0xFFFFFFFF) = pro) (notAborted : x.aborted = none) (unfrozen : x.frozen = false) :
    deliver c d x q f = if resultWaits (frameGeo d x pro) x q f pro = true then modInst d x.tenant x.coll fun y => { y with parked := y.parked ++ [(q.val, f)] }
      else (nextTransfer (frameGeo d x pro) x q f).elim (bumpTrl d q 2) fun tr =>
        (rxTake (rxStart x q f tr) f (endsAt (frameGeo d x pro).dims tr == some (frameGeo d x pro).own || dKind (frameGeo d x pro).desc == 2) pro).elim (bumpTrl d q 2) (taken c d x (frameGeo d x pro) q f tr pro) := by
  unfold deliver
  dsimp only
  rw [isPro, notAborted, Option.isSome_none, Bool.false_and, if_neg Bool.false_ne_true, unfrozen, if_neg Bool.false_ne_true, show (if pro = true then proGeo d x else geoOf d x) = frameGeo d x pro from rfl]
  generalize frameGeo d x pro = g
  rw [find_fitting, any_fitting]
  refine if_congr Iff.rfl rfl ?_
  cases nextTransfer g x q f with
  | none => rfl
  | some tr =>
    dsimp only [Option.elim]
    cases rxTake (rxStart x q f tr) f (endsAt g.dims tr == some g.own || dKind g.desc == 2) pro with
    | none => rfl
    | some r => rfl

/-! ## What has come of a transfer -/

/-- A DATA frame is always taken into what has come: its bytes, its count, its end (R277). -/
theorem rxTake_data {f : TrlFrame} (data : f.kind = 1) (r : RxStream) (keep pro : Bool) :
    rxTake r f keep pro = some { r with bytes := if keep then r.bytes ++ f.payload else r.bytes, frames := r.frames + 1, ended := f.endChunk, done := r.done || (pro && f.endChunk) } := by
  unfold rxTake
  rw [if_pos data]

/-- A SIGNAL is taken where its code and count fit, whatever is kept of DATA (R554). -/
theorem rxTake_signal {f : TrlFrame} (signal : f.kind = 2) (r : RxStream) (keep pro : Bool) (fits : (rxTake r f false false).isSome = true) :
    rxTake r f keep pro = some { r with
      done := true, notice := byteAt f.payload 0 == 2, noYard := bitOf (byteAt f.payload 1) 0, dropped := bitOf (byteAt f.payload 1) 1, home := byteAt f.payload 8 % 64 } := by
  have notData : ¬f.kind = 1 := by rw [signal]; decide
  unfold rxTake at fits ⊢
  rw [if_neg notData] at fits ⊢
  dsimp only at fits ⊢
  split at fits
  · rename_i counts
    rw [if_pos counts]
  · cases fits

/-- The next frame of a transfer, DATA or SIGNAL, is taken. -/
theorem rxTake_next {x : Inst} {q : TPort} {f : TrlFrame} {tr : Transfer} (kind : f.kind = 1 ∨ f.kind = 2) (next : isNextOf x q f tr = true) (keep pro : Bool) :
    ∃ r, rxTake (rxStart x q f tr) f keep pro = some r ∧
      (f.kind = 1 → r.frames = (rxStart x q f tr).frames + 1 ∧ r.ended = f.endChunk ∧ (r.done = true ↔ (rxStart x q f tr).done = true ∨ (pro = true ∧ f.endChunk = true)) ∧
        r.bytes = if keep then (rxStart x q f tr).bytes ++ f.payload else (rxStart x q f tr).bytes) ∧
      (f.kind = 2 → r = { rxStart x q f tr with done := true, notice := byteAt f.payload 0 == 2, noYard := bitOf (byteAt f.payload 1) 0, dropped := bitOf (byteAt f.payload 1) 1, home := byteAt f.payload 8 % 64 }) := by
  rcases kind with data | signal
  · refine ⟨_, rxTake_data data _ keep pro, fun _ => ⟨rfl, rfl, ?_, rfl⟩, fun signal => ?_⟩
    · simp only [Bool.or_eq_true, Bool.and_eq_true]
    · rw [data] at signal
      exact absurd signal (by decide)
  · have notData : ¬f.kind = 1 := by rw [signal]; decide
    have fits : (rxTake (rxStart x q f tr) f false false).isSome = true := by
      unfold isNextOf at next
      dsimp only at next
      rw [if_neg notData] at next
      exact (Bool.and_eq_true_iff.1 next).2
    exact ⟨_, rxTake_signal signal _ keep pro fits, fun data => absurd data notData, fun _ => rfl⟩

/-! ## The frame is counted -/

/-- The open ones of a key have counted a frame that they take (R635). -/
def frameCounted (d : Dev) (x : Inst) (q : TPort) (f : TrlFrame) : Dev :=
  modInst d x.tenant x.coll fun y => { y with taken := y.taken.modify (countIdx q f.vc.toNat) (· + 1), kept := if y.frozen then y.kept ++ [(q.val, f)] else y.kept }

/-- A frame of no old run is counted and goes on. -/
theorem takeFrame_eq (c : Cfg) (d : Dev) {x : Inst} {q : TPort} {f : TrlFrame} (current : x.skip.getD (countIdx q f.vc.toNat) 0 = 0) : takeFrame c d x q f = deliver c (frameCounted d x q f) x q f := by
  unfold takeFrame
  dsimp only
  rw [current]
  rfl

theorem frameCounted_at {d : Dev} {x : Inst} (q : TPort) (f : TrlFrame) (found : instAt d x.tenant x.coll = some x) (unfrozen : x.frozen = false) :
    instAt (frameCounted d x q f) x.tenant x.coll = some { x with taken := x.taken.modify (countIdx q f.vc.toNat) (· + 1) } := by
  unfold frameCounted
  rw [instAt_modInst, found, Option.map_some, unfrozen, if_neg Bool.false_ne_true]
  exact fun y => ⟨rfl, rfl⟩

/-- A frame that goes on to another unit changes the queue of one Trellis port. -/
theorem relayBy_only (d : Dev) (g : Geo) (q : TPort) (tr : Transfer) (f : TrlFrame) : ∃ v, relayBy d g q tr f = { d with trl := v } := by
  unfold relayBy
  split
  · exact ⟨_, rfl⟩
  · exact ⟨d.trl, rfl⟩

/-- What the open one of a frame does with it, once it is counted (R399, R402, R528, R554). -/
theorem taken_facts (c : Cfg) {d : Dev} {x y : Inst} {t : Tenant} {k : W16} (q : TPort) (f : TrlFrame) (tr : Transfer) (pro : Bool) (g : Geo) (r : RxStream) (tenant : x.tenant = t) (coll : x.coll = k)
    (found : instAt d t k = some y) :
    ∃ D, taken c d x g q f tr pro r = pumpInst c (if pro && r.done && endsAt g.dims tr == some g.own then takePrologue c D t k r.src r.bytes else D) t k ∧
      instAt D t k = some { y with rx := upsert y.rx (fun e => sameRx e r.wire.toNat tr) r } ∧ D.lem = d.lem ∧ ((endsAt g.dims tr == some g.own) = true → D.trl = d.trl) := by
  subst tenant coll
  have put : instAt (modInst d x.tenant x.coll fun y => { y with rx := upsert y.rx (fun e => sameRx e r.wire.toNat tr) r }) x.tenant x.coll = some { y with rx := upsert y.rx (fun e => sameRx e r.wire.toNat tr) r } := by
    rw [instAt_modInst, found]
    · rfl
    · exact fun y => ⟨rfl, rfl⟩
  refine ⟨_, rfl, ?_⟩
  cases ends : endsAt g.dims tr == some g.own with
  | true =>
    rw [if_pos rfl]
    exact ⟨put, rfl, fun _ => rfl⟩
  | false =>
    obtain ⟨v, relayed⟩ := relayBy_only (modInst d x.tenant x.coll fun y => { y with rx := upsert y.rx (fun e => sameRx e r.wire.toNat tr) r }) g q tr f
    rw [if_neg Bool.false_ne_true, relayed]
    exact ⟨put, rfl, fun h => by cases h⟩

/-! ## The rows -/

/-- Whether a frame is one of a prologue (R399). -/
def isPrologue (f : TrlFrame) : Bool := f.kind == 1 && f.chunk == 0xFFFFFFFF

/-- The row of a prologue frame, of a DATA frame of a chunk, or of a SIGNAL. -/
def frameRow (i : TPort) (f : TrlFrame) : Instr := if f.kind = 2 then .trellisSignalReceive i f else if f.chunk = 0xFFFFFFFF then .prologueReceive i f else .trellisDataReceive i f

/-- What each of them does with its frame. -/
def frameAct (c : Cfg) (d : Dev) (i : TPort) (f : TrlFrame) : Dev := if isPrologue f then prologueFrame c d i f else chunkFrame c d i f

theorem frameRow_exec {s : State} {i : TPort} {f : TrlFrame} (running : alive s = true) (takes : ∀ k, f.kind = BitVec.ofNat 8 k → k < 256 → trlFrameIn s.dev i f k = true) (kind : f.kind = 1 ∨ f.kind = 2) :
    exec (frameRow i f) s = .next { s with dev := epilogue s.cfg (frameAct s.cfg s.dev i f) } := by
  rcases kind with data | signal
  · have notSignal : ¬f.kind = 2 := by rw [data]; decide
    rw [frameRow, if_neg notSignal, frameAct]
    by_cases pro : f.chunk = 0xFFFFFFFF
    · have isPro : isPrologue f = true := by rw [isPrologue, data, pro, beq_self_eq_true, beq_self_eq_true, Bool.and_self]
      rw [if_pos pro, if_pos isPro]
      change execPrologueReceive i f s = _
      rw [execPrologueReceive, onDev_alive running, takes 1 data (by decide), pro, beq_self_eq_true, Bool.and_self, if_pos rfl]
    · have isPro : ¬isPrologue f = true := by rw [isPrologue, beq_eq_false_iff_ne.2 pro, Bool.and_false]; exact Bool.false_ne_true
      rw [if_neg pro, if_neg isPro]
      change execTrellisDataReceive i f s = _
      rw [execTrellisDataReceive, onDev_alive running, takes 1 data (by decide), bne_iff_ne.2 pro, Bool.and_self, if_pos rfl]
  · have isPro : ¬isPrologue f = true := by rw [isPrologue, beq_eq_false_iff_ne.2 (by rw [signal]; decide : f.kind ≠ 1), Bool.false_and]; exact Bool.false_ne_true
    rw [frameRow, if_pos signal, frameAct, if_neg isPro]
    change execTrellisSignalReceive i f s = _
    rw [execTrellisSignalReceive, onDev_alive running, takes 2 signal (by decide), if_pos rfl]

theorem frameAct_restart (c : Cfg) {d : Dev} (i : TPort) {f : TrlFrame} (restarts : d.recov.restart[f.tenant] ≠ .none) : frameAct c d i f = bumpTrl d i 2 := by
  unfold frameAct
  split
  · exact if_pos restarts
  · exact if_pos restarts

/-- A prologue frame for which nothing is open is kept, until its last (R399). -/
theorem frameAct_early (c : Cfg) {d : Dev} (i : TPort) {f : TrlFrame} (idle : d.recov.restart[f.tenant] = .none) (pro : isPrologue f = true) (more : f.endChunk = false) (closed : instAt d f.tenant f.coll = none) :
    frameAct c d i f = { d with coll := { d.coll with early := d.coll.early ++ [(i.val, f)] } } := by
  unfold frameAct
  rw [if_pos pro]
  unfold prologueFrame
  dsimp only
  rw [if_neg (not_not.2 idle), closed]
  dsimp only
  rw [more]
  rfl

/-- Counting a prologue leaves what is open. -/
theorem countPro_only (d : Dev) (t : Tenant) (k : W16) (u : Nat) : ∃ b, b.insts = d.coll.insts ∧ countPro d t k u = { d with coll := b } := ⟨(countPro d t k u).coll, rfl, rfl⟩

/-- A frame of the number of the open one, from a party of it, is taken; the last of a prologue is counted for its unit. -/
theorem frameAct_takes (c : Cfg) {d : Dev} (i : TPort) {f : TrlFrame} {x : Inst} (idle : d.recov.restart[f.tenant] = .none) (found : instAt d f.tenant f.coll = some x) (num : x.num = frameNum d f)
    (party : isParty d x f.src.toNat = true) : ∃ b, b.insts = d.coll.insts ∧ frameAct c d i f = takeFrame c { d with coll := b } x i f := by
  unfold frameAct
  split
  · unfold prologueFrame
    dsimp only
    rw [if_neg (not_not.2 idle), found]
    dsimp only
    rw [if_pos ⟨party, Or.inl num⟩]
    dsimp only
    split
    · obtain ⟨b, insts, only⟩ := countPro_only d f.tenant f.coll f.src.toNat
      rw [only]
      exact ⟨b, insts, rfl⟩
    · exact ⟨d.coll, rfl, rfl⟩
  · unfold chunkFrame
    dsimp only
    rw [if_neg (not_not.2 idle), found]
    dsimp only
    rw [party, if_neg, if_pos (Or.inl num)]
    · exact ⟨d.coll, rfl, rfl⟩
    · simp

/-- The schedule by which a frame is judged hangs on the torus and the view alone. -/
theorem frameGeo_kept {d e : Dev} (sow : e.sow = d.sow) (recov : e.recov = d.recov) (x : Inst) (pro : Bool) : frameGeo e x pro = frameGeo d x pro := by
  unfold frameGeo proGeo geoOf geoIn viewOf ownAddr
  rw [sow, recov]

/-- A frame of no old run, for the open one of its number and from a party of it, is counted and goes on to it. -/
theorem frameAct_delivers (c : Cfg) {d : Dev} (i : TPort) {f : TrlFrame} {x : Inst} (idle : d.recov.restart[f.tenant] = .none) (found : instAt d f.tenant f.coll = some x) (num : x.num = frameNum d f)
    (party : isParty d x f.src.toNat = true) (unfrozen : x.frozen = false) (current : x.skip.getD (countIdx i f.vc.toNat) 0 = 0) :
    ∃ e, frameAct c d i f = deliver c e x i f ∧ instAt e f.tenant f.coll = some { x with taken := x.taken.modify (countIdx i f.vc.toNat) (· + 1) } ∧
      e.lem = d.lem ∧ e.trl = d.trl ∧ e.sow = d.sow ∧ e.recov = d.recov := by
  obtain ⟨b, insts, takes⟩ := frameAct_takes c i idle found num party
  obtain ⟨tenant, coll⟩ := instAt_key found
  have found' : instAt { d with coll := b } x.tenant x.coll = some x := by
    unfold instAt
    rw [insts, tenant, coll]
    exact found
  have counts := frameCounted_at i f found' unfrozen
  rw [tenant, coll] at counts
  exact ⟨frameCounted { d with coll := b } x i f, takes.trans (takeFrame_eq c _ current), by rw [counts, ← tenant, ← coll], rfl, rfl, rfl, rfl⟩

/-- Whether a frame is of a prologue shows in its chunk alone, as no SIGNAL carries the prologue's. -/
theorem isPrologue_chunk {f : TrlFrame} (kind : f.kind = 1 ∨ f.kind = 2) (signals : f.kind = 2 → f.chunk ≠ 0xFFFFFFFF) : (f.chunk.toNat == 0xFFFFFFFF) = isPrologue f := by
  have same : (f.chunk.toNat == 0xFFFFFFFF) = (f.chunk == 0xFFFFFFFF) := by
    rw [Bool.eq_iff_iff, beq_iff_eq, beq_iff_eq, ← BitVec.toNat_inj]
    rfl
  rw [same, isPrologue]
  rcases kind with data | signal
  · rw [data, beq_self_eq_true, Bool.true_and]
  · rw [beq_eq_false_iff_ne.2 (signals signal), Bool.and_false]

/-- Settles O42: a frame under a restart, a prologue's for which nothing is open, and one that the open one takes. -/
theorem instancesTakeFrames : Obligations.InstancesTakeFrames := by
  intro s i f running up formed content codes kind t k pro row
  have run : exec row s = .next { s with dev := epilogue s.cfg (frameAct s.cfg s.dev i f) } := frameRow_exec running (fun n hn hlt => trlIn s.dev i f n up formed hn hlt content codes) kind
  refine ⟨fun restarts => run.trans (by rw [frameAct_restart _ _ restarts]), fun idle isPro more closed => run.trans (by rw [frameAct_early _ _ idle isPro more closed]), ?_⟩
  intro x idle found num notAborted unfrozen party current signals g fits counted waits
  obtain ⟨e, act, counts, lem, trl, sow, recov⟩ := frameAct_delivers s.cfg i idle found num party unfrozen current
  obtain ⟨tenant, coll⟩ := instAt_key found
  have geo : frameGeo e x pro = g := frameGeo_kept sow recov x pro
  have waiting : resultWaits g x i f pro = waits := rfl
  rw [deliver_eq s.cfg e i (isPrologue_chunk kind signals) notAborted unfrozen, show isPrologue f = pro from rfl, geo, waiting, tenant, coll] at act
  refine ⟨fun hw => ?_, fun goes none_ => ?_, fun tr goes next => ?_⟩
  · rw [hw, if_pos rfl] at act
    refine ⟨modInst e t k fun y => { y with parked := y.parked ++ [(i.val, f)] }, run.trans (by rw [act]), ?_, lem, trl⟩
    rw [instAt_modInst, counts]
    · rfl
    · exact fun y => ⟨rfl, rfl⟩
  · have none_' : nextTransfer g x i f = none := none_
    rw [goes, if_neg Bool.false_ne_true, none_'] at act
    exact ⟨e, run.trans (by rw [act]; rfl), counts, lem, trl⟩
  · intro ends old
    have next' : nextTransfer g x i f = some tr := next
    have fit : fitsNext g x i f tr = true := List.find?_some next'
    have isNext : isNextOf x i f tr = true := (Bool.and_eq_true_iff.1 fit).2
    obtain ⟨r, took, data, signal⟩ := rxTake_next kind isNext (endsAt g.dims tr == some g.own || dKind g.desc == 2) pro
    rw [goes, if_neg Bool.false_ne_true, next'] at act
    dsimp only [Option.elim] at act
    rw [took] at act
    obtain ⟨D, pumped, at_, lem', trl'⟩ := taken_facts s.cfg i f tr pro g r tenant coll counts
    refine ⟨D, r, run.trans (by rw [act]; exact congrArg (fun z => Host.Outcome.next { s with dev := epilogue s.cfg z }) pumped), at_, lem'.trans lem, fun h => (trl' h).trans trl, fun hk => ?_, signal⟩
    obtain ⟨frames, ended, done, bytes⟩ := data hk
    refine ⟨frames, ended, done, bytes.trans ?_⟩
    exact if_congr (by rw [Bool.or_eq_true, beq_iff_eq (a := dKind g.desc)]) rfl rfl

end Sys2Proof.Machine
end

section
/-! Status pages, patrol scrubs and temperature samples (R141, R378, R522, R523, R653 to R655, R687). -/
namespace Sys2Proof.Machine
open Sys2Proof

/-! ## The bytes of a page -/

/-- A field within the length to which bytes are padded reads as before. -/
theorem leNat_padTo {n off m : Nat} (within : off + m ≤ n) (bs : List Byte) : leNat (padTo n bs) off m = leNat bs off m := by
  refine leNat_congr fun k _ high => ?_
  by_cases fits : bs.length ≤ n
  · exact getD_padTo fits k
  · have cut : padTo n bs = bs.take n := by
      rw [padTo, Nat.sub_eq_zero_of_le (Nat.le_of_not_le fits)]
      exact congrArg (List.take n) (List.append_nil bs)
    rw [cut, List.getD_eq_getElem?_getD, List.getElem?_take_of_lt (by omega), List.getD_eq_getElem?_getD]

theorem pageIdentity_length (hk : Hk) (c : Cfg) (d : Dev) (p : LPort) (n : Nat) (up : W64) : (pageIdentity hk c d p n up).length = 256 := padTo_length 256 _

theorem pageBytes_length (hk : Hk) (c : Cfg) (d : Dev) (p : LPort) (n : Nat) (up : W64) : (pageBytes hk c d p n up).length = 4096 := by
  rw [pageBytes, List.length_append, padTo_length, toLe_length]

/-- The start of a page is its identity. -/
theorem pageBytes_low (hk : Hk) (c : Cfg) (d : Dev) (p : LPort) (n : Nat) (up : W64) {off m : Nat} (within : off + m ≤ 256) :
    leNat (pageBytes hk c d p n up) off m = leNat (pageIdentity hk c d p n up) off m := by
  rw [pageBytes, leNat_append_left _ _ _ _ (by rw [padTo_length]; omega), leNat_padTo (by omega)]
  simp only [List.append_assoc]
  exact leNat_append_left _ _ _ _ (by rw [pageIdentity_length]; exact within)

/-- A page carries its number at both ends, and the pending causes (R379, R381). -/
theorem pageBytes_fields (hk : Hk) (c : Cfg) (d : Dev) (p : LPort) (n up : W64) :
    leNat (pageBytes hk c d p n.toNat up) 0 8 = n.toNat ∧ leNat (pageBytes hk c d p n.toNat up) 8 2 = d.lem[p].causes.toNat ∧ leNat (pageBytes hk c d p n.toNat up) 0xFF8 8 = n.toNat := by
  have small : n.toNat % 256 ^ 8 = n.toNat := Nat.mod_eq_of_lt n.isLt
  refine ⟨?_, ?_, ?_⟩
  · rw [pageBytes_low _ _ _ _ _ _ (by decide), pageIdentity, leNat_padTo (by decide)]
    simp only [List.append_assoc]
    exact (leNat_toLe 8 n.toNat _).trans small
  · rw [pageBytes_low _ _ _ _ _ _ (by decide), pageIdentity, leNat_padTo (by decide)]
    simp only [List.append_assoc]
    rw [leNat_append_right _ _ _ _ (by rw [toLe_length]), toLe_length]
    exact (leNat_toLe 2 _ _).trans (Nat.mod_eq_of_lt d.lem[p].causes.isLt)
  · rw [pageBytes, leNat_append_right _ _ _ _ (by rw [padTo_length]), padTo_length]
    have last := leNat_toLe 8 n.toNat []
    rw [List.append_nil] at last
    exact last.trans small

/-- A range within one 4 KiB page goes in frames of 224 bytes (R244). -/
theorem splitWrite_length (vc stream : Nat) : ∀ (fuel addr : Nat) (data : List Byte), data.length ≤ fuel → addr % 4096 + data.length ≤ 4096 →
    (splitWrite fuel vc stream addr data).length = (data.length + 223) / 224
  | 0, _, data, short, _ => by
    have empty : data.length = 0 := Nat.le_zero.1 short
    rw [empty]
    rfl
  | n + 1, addr, data, short, within => by
    rw [splitWrite]
    by_cases empty : data.isEmpty
    · rw [if_pos empty, List.isEmpty_iff.1 empty]
      rfl
    · have some : 0 < data.length := List.length_pos_iff.2 (by simpa using empty)
      rw [if_neg empty]
      dsimp only
      rw [List.length_cons, splitWrite_length vc stream n _ _ (by rw [List.length_drop]; omega) (by rw [List.length_drop]; omega), List.length_drop]
      omega

/-! ## The page is written -/

/-- What sending a page makes of its port. -/
theorem written_port (d : Dev) (p : LPort) (items : List TxItem) (n : W64) :
    (modS (modP (pushTx (draw d).2 p items) p fun x => { x with causes := 0, pageNo := n }) fun x => { x with flagsPaged := true }).lem[p] = { d.lem[p] with causes := 0, pageNo := n, txq := d.lem[p].txq ++ items } := by
  have both : modP (pushTx (draw d).2 p items) p (fun x => { x with causes := 0, pageNo := n }) = modP (draw d).2 p fun x => { x with causes := 0, pageNo := n, txq := x.txq ++ items } := modP_modP _ p _ _
  rw [both]
  change (modP (draw d).2 p fun x => { x with causes := 0, pageNo := n, txq := x.txq ++ items }).lem[p] = _
  rw [modP_at]
  rfl

theorem written_other (d : Dev) {p q : LPort} (away : q ≠ p) (items : List TxItem) (n : W64) :
    (modS (modP (pushTx (draw d).2 p items) p fun x => { x with causes := 0, pageNo := n }) fun x => { x with flagsPaged := true }).lem[q] = d.lem[q] := by
  have both : modP (pushTx (draw d).2 p items) p (fun x => { x with causes := 0, pageNo := n }) = modP (draw d).2 p fun x => { x with causes := 0, pageNo := n, txq := x.txq ++ items } := modP_modP _ p _ _
  rw [both]
  change (modP (draw d).2 p fun x => { x with causes := 0, pageNo := n, txq := x.txq ++ items }).lem[q] = _
  rw [modP_other _ _ away]
  rfl

/-- A written page: what becomes of the housekeeping and the unit. -/
theorem writePage_facts (hk : Hk) (c : Cfg) (d : Dev) (p : LPort) :
    ∃ bs, bs.length = 4096 ∧ leNat bs 0 8 = (d.lem[p].pageNo + 1).toNat ∧ leNat bs 8 2 = d.lem[p].causes.toNat ∧ leNat bs 0xFF8 8 = (d.lem[p].pageNo + 1).toNat ∧
      (writePage hk c d p).2.lem[p] = { d.lem[p] with causes := 0, pageNo := d.lem[p].pageNo + 1, txq := d.lem[p].txq ++ writeItems 2 8 d.lem[p].hello.statusPage bs } ∧
      (∀ q : LPort, q ≠ p → (writePage hk c d p).2.lem[q] = d.lem[q]) ∧ (writePage hk c d p).2.stat = { d.stat with flagsPaged := true } ∧
      (writePage hk c d p).1 = if d.stat.flagsPaged = true then hk else { hk with brownOut := false, clockLoss := false } := by
  refine ⟨pageBytes (if !d.stat.flagsPaged then hk else { hk with brownOut := false, clockLoss := false }) c (draw d).2 p (d.lem[p].pageNo + 1).toNat (Config.freeUptime (draw d).1), pageBytes_length _ _ _ _ _ _, ?_, ?_, ?_, ?_, ?_, rfl, ?_⟩
  · exact (pageBytes_fields _ c _ p (d.lem[p].pageNo + 1) _).1
  · exact (pageBytes_fields _ c (draw d).2 p (d.lem[p].pageNo + 1) _).2.1
  · exact (pageBytes_fields _ c _ p (d.lem[p].pageNo + 1) _).2.2
  · exact written_port d p _ _
  · exact fun q away => written_other d away _ _
  · change (if (!d.stat.flagsPaged) = true then { hk with brownOut := false, clockLoss := false } else hk) = _
    cases d.stat.flagsPaged
    · rfl
    · rfl

/-! ## The scrub -/

/-- A word's poison flag, once every copy of it is set (R519, R521). -/
theorem poisoned_poisonWord (s : Store) (v w : Nat) : poisoned (poisonWord s v) w = true ↔ poisoned s w = true ∨ w = v := by
  have copy : ∀ l : List Nat, (addNew l v).contains w = (l.contains w || w == v) := by
    intro l
    unfold addNew
    split
    · rename_i held
      by_cases same : w = v
      · rw [same, held, Bool.true_or]
      · rw [beq_eq_false_iff_ne.2 same, Bool.or_false]
    · rw [Bool.eq_iff_iff]
      simp
  unfold poisoned poisonWord
  dsimp only
  rw [copy, copy, copy]
  by_cases same : w = v
  · simp [same, b2n]
  · simp only [beq_eq_false_iff_ne.2 same, Bool.or_false, same, or_false]

/-- What meeting bad words leaves, and what it poisons. -/
structure Met (ws : List Nat) (d e : Dev) : Prop where
  poison : ∀ w, poisoned e.store w = true ↔ poisoned d.store w = true ∨ w ∈ ws
  store : e.store.spool = d.store.spool ∧ e.store.yard = d.store.yard ∧ e.store.scrubRow = d.store.scrubRow
  parts : e.coll = d.coll ∧ e.pegs = d.pegs ∧ e.recov = d.recov
  health : ∀ n : Fin 7, n ≠ 1 → e.stat.health[n] = d.stat.health[n]
  rings : ∀ p r, ringAt e p r = ringAt d p r

/-- One count of a health counter leaves the others. -/
theorem bumpHealthN_other (d : Dev) {n m : Fin 7} (other : m ≠ n) (k : Nat) : (bumpHealthN d n k).stat.health[m] = d.stat.health[m] := by
  obtain ⟨v, only⟩ := bumpHealthN_eq d n k
  rw [only.stat]
  simp only [modS, Fin.getElem_fin, Vector.getElem_set]
  rw [if_neg fun same => other (Fin.ext same.symm)]

theorem meetBad_met (d : Dev) (ws : List Nat) : Met ws d (meetBad d ws) := by
  unfold meetBad
  induction ws generalizing d with
  | nil => exact ⟨fun w => by rw [each_nil]; simp, ⟨rfl, rfl, rfl⟩, ⟨rfl, rfl, rfl⟩, fun _ _ => rfl, fun _ _ => rfl⟩
  | cons v ws ih =>
    rw [each_cons]
    obtain ⟨rings, -, -, st, l, counted⟩ := bumpHealth_facts d 1
    have store : (bumpHealth d 1).store = d.store := by rw [counted]
    obtain ⟨poison, ⟨spool, yard, row⟩, ⟨coll, pegs, recov⟩, health, rings'⟩ := ih (modStore (bumpHealth d 1) fun s => poisonWord s v)
    refine ⟨fun w => ?_, ⟨spool.trans (congrArg Store.spool store :), yard.trans (congrArg Store.yard store :), row.trans (congrArg Store.scrubRow store :)⟩,
      ⟨coll.trans (by rw [counted]; rfl), pegs.trans (by rw [counted]; rfl), recov.trans (by rw [counted]; rfl)⟩, fun n other => (health n other).trans (bumpHealthN_other d other 1), fun p r => (rings' p r).trans (rings p r)⟩
    have first : poisoned (modStore (bumpHealth d 1) fun s => poisonWord s v).store w = poisoned (poisonWord d.store v) w := congrArg (fun s : Store => poisoned (poisonWord s v) w) store
    rw [poison, first, poisoned_poisonWord, List.mem_cons, or_assoc]

/-- The words that a scrub of the next row finds bad (R522, R523). -/
def scrubFinds (s : Store) (badWords : List Nat) : List Nat :=
  (((badWords.map fun a => a % 2 ^ 36 / 32 * 32) ++ badWordsOf s).filter fun w => wordRow w == s.scrubRow).eraseDups

/-- A bad word of the row is one whose flag is set, one with an error, or one that the row is found to hold. -/
theorem scrub_poisons (s : Store) (badWords : List Nat) (w : Nat) :
    (poisoned s w = true ∨ w ∈ scrubFinds s badWords) ↔ (poisoned s w = true ∨ (wordRow w = s.scrubRow ∧ (w ∈ s.spoolBad ∨ ∃ a ∈ badWords, w = a % 2 ^ 36 / 32 * 32))) := by
  simp only [scrubFinds, badWordsOf, List.mem_eraseDups, List.mem_filter, List.mem_append, List.mem_map, beq_iff_eq]
  constructor
  · rintro (flagged | ⟨⟨a, ha, rfl⟩ | ⟨-, flagged⟩ | held, row⟩)
    · exact Or.inl flagged
    · exact Or.inr ⟨row, Or.inr ⟨a, ha, rfl⟩⟩
    · exact Or.inl flagged
    · exact Or.inr ⟨row, Or.inl held⟩
  · rintro (flagged | ⟨row, held | ⟨a, ha, rfl⟩⟩)
    · exact Or.inl flagged
    · exact Or.inr ⟨Or.inr (Or.inr held), row⟩
    · exact Or.inr ⟨Or.inl ⟨a, ha, rfl⟩, row⟩

/-- Settles O53: due moments, the page that is written, the scrub of a row, and the temperature. -/
theorem pagesScrubsAndSamples : Obligations.PagesScrubsAndSamples := by
  intro s running
  refine ⟨fun p coded runs started => ?_, fun p idle => ?_, fun p nothing => ?_, fun p due => ?_, fun corrected badWords early => ?_, fun corrected badWords ready => ?_, fun tj => ?_⟩
  · change execStatusPeriodDue p s = _
    rw [execStatusPeriodDue, onDev_alive running, if_neg]
    · unfold addCause
      rw [if_pos started]
      rfl
    · rintro (none | halts)
      · exact coded none
      · rw [runs] at halts; cases halts
  · change execStatusPeriodDue p s = _
    rw [execStatusPeriodDue, onDev_alive running]
    by_cases quiet : code s.cfg 7 = 0 ∨ stopped s.dev = true
    · rw [if_pos quiet]
    · have unstarted : s.dev.lem[p].started = false := by
        rcases idle with coded | halts | unstarted
        · exact absurd (Or.inl coded) quiet
        · exact absurd (Or.inr halts) quiet
        · exact unstarted
      rw [if_neg quiet, addCause, unstarted, if_neg Bool.false_ne_true]
  · change execStatusPageWrite p s = _
    rw [execStatusPageWrite, nothing, Bool.and_false, if_neg Bool.false_ne_true]
  · obtain ⟨bs, length, number, causes, again, port, others, stat, flags⟩ := writePage_facts s.hk s.cfg s.dev p
    have writes : exec (.statusPageWrite p) s = .next { s with hk := (writePage s.hk s.cfg s.dev p).1, dev := (writePage s.hk s.cfg s.dev p).2 } := by
      change execStatusPageWrite p s = _
      rw [execStatusPageWrite, running, due, Bool.and_self, if_pos rfl]
    refine ⟨bs, _, writes, length, number, causes, again, port, fun aligned => ?_, others, rfl, stat, flags⟩
    unfold writeItems
    rw [splitWrite_length 2 8 _ _ _ (Nat.le_refl _) (by rw [length]; omega), length]
  · change execPatrolScrub corrected badWords s = _
    rw [execPatrolScrub, onDev_alive running, early, Bool.not_false, if_pos rfl]
  · have scrubs : exec (.patrolScrub corrected badWords) s = .next { s with dev := modStore (meetBad (bumpHealthN s.dev 0 corrected) (scrubFinds s.dev.store badWords)) fun x => { x with scrubRow := (x.scrubRow + 1) % 32768 } } := by
      change execPatrolScrub corrected badWords s = _
      rw [execPatrolScrub, onDev_alive running, ready, Bool.not_true, if_neg Bool.false_ne_true]
      rfl
    obtain ⟨m, only⟩ := bumpHealthN_eq s.dev 0 corrected
    have counted : (bumpHealthN s.dev 0 corrected).stat.health[0] = satInc64 s.dev.stat.health[0] corrected := by
      rw [only.stat]
      exact Vector.getElem_set_self ..
    have store : (bumpHealthN s.dev 0 corrected).store = s.dev.store := by rw [only.1]; rfl
    obtain ⟨poison, ⟨spool, yard, row⟩, ⟨coll, pegs, recov⟩, health, rings⟩ := meetBad_met (bumpHealthN s.dev 0 corrected) (scrubFinds s.dev.store badWords)
    refine ⟨_, scrubs, ?_, (health 0 (by decide)).trans counted, fun w => ?_, spool.trans (congrArg Store.spool store), yard.trans (congrArg Store.yard store), coll.trans ?_, pegs.trans ?_, recov.trans ?_,
      fun p r => (rings p r).trans (only.ring p r)⟩
    · exact congrArg (fun n => (n + 1) % 32768) (row.trans (congrArg Store.scrubRow store))
    · refine Iff.trans ?_ (scrub_poisons s.dev.store badWords w)
      refine (poison w).trans ?_
      rw [store]
    · rw [only.1]; rfl
    · rw [only.1]; rfl
    · rw [only.1]; rfl
  · change execTjSample tj s = _
    rw [execTjSample, onDev_alive running]
    rfl

end Sys2Proof.Machine
end

section
/-! Crossing-queue stalls and the errors that a unit finds (R86, R88, R504, R522, R583, R617, R708). -/
namespace Sys2Proof.Machine
open Sys2Proof

/-! ## Descriptors that meet an error -/

/-- A running descriptor that has met an uncorrectable error. -/
def metError (x : Run) : Run := { x with status := 0x22, finished := true, metFault := true }

/-- What ending descriptors with CHECK_ERROR leaves: everything but the leaf side and what is open; a ring's running descriptor stays as it is, or meets the error. -/
structure HitsOnly (d e : Dev) : Prop where
  recov : e.recov = d.recov
  stat : e.stat = d.stat
  store : e.store = d.store
  pegs : e.pegs = d.pegs
  cur : ∀ p r, (ringAt e p r).cur = (ringAt d p r).cur ∨ ∃ x, (ringAt d p r).cur = some x ∧ x.finished = false ∧ (ringAt e p r).cur = some (metError x)

theorem HitsOnly.refl (d : Dev) : HitsOnly d d := ⟨rfl, rfl, rfl, rfl, fun _ _ => Or.inl rfl⟩

theorem HitsOnly.trans {a b c : Dev} (h : HitsOnly a b) (g : HitsOnly b c) : HitsOnly a c := by
  refine ⟨g.recov.trans h.recov, g.stat.trans h.stat, g.store.trans h.store, g.pegs.trans h.pegs, fun p r => ?_⟩
  rcases h.cur p r with same | ⟨x, cur, open_, met⟩
  · rw [← same]
    exact g.cur p r
  · rcases g.cur p r with same' | ⟨y, cur', open', met'⟩
    · exact Or.inr ⟨x, cur, open_, same'.trans met⟩
    · rw [met, Option.some.injEq] at cur'
      rw [← cur'] at open'
      cases open'

theorem hitRun_cur (d : Dev) (e : LPort × RingNo) (p : LPort) (r : RingNo) :
    (ringAt (hitRun d e) p r).cur = if p = e.1 ∧ r = e.2 then (ringAt d p r).cur.map fun x => if x.finished then x else metError x else (ringAt d p r).cur :=
  cur_modRun_any d e.1 p e.2 r _

theorem hitRun_only (d : Dev) (e : LPort × RingNo) : HitsOnly d (hitRun d e) := by
  refine ⟨rfl, rfl, rfl, rfl, fun p r => ?_⟩
  rw [hitRun_cur]
  by_cases here : p = e.1 ∧ r = e.2
  · rw [if_pos here]
    cases cur : (ringAt d p r).cur with
    | none => exact Or.inl rfl
    | some x =>
      cases ended : x.finished with
      | true => exact Or.inl (by rw [Option.map_some, ended, if_pos rfl])
      | false => exact Or.inr ⟨x, rfl, ended, by rw [Option.map_some, ended, if_neg Bool.false_ne_true]⟩
  · rw [if_neg here]
    exact Or.inl rfl

theorem hitRuns_only (l : List (LPort × RingNo)) (d : Dev) : HitsOnly d (each l d hitRun) :=
  each_rel HitsOnly .refl (fun _ _ _ => .trans) l _ hitRun_only d

theorem hitInst_only (d : Dev) (x : Inst) : HitsOnly d (hitInst d x) :=
  have spoiled : HitsOnly d (modInst d x.tenant x.coll fun y => { y with spoiled := true }) := ⟨rfl, rfl, rfl, rfl, fun _ _ => Or.inl rfl⟩
  spoiled.trans (hitRuns_only x.runs _)

theorem hitInsts_only (l : List Inst) (d : Dev) : HitsOnly d (each l d hitInst) :=
  each_rel HitsOnly .refl (fun _ _ _ => .trans) l _ hitInst_only d

/-- Every descriptor of a list meets the error, unless it had ended: then it keeps how. -/
theorem hitRuns_meet (l : List (LPort × RingNo)) (d : Dev) {p : LPort} {r : RingNo} {x : Run} (among : (p, r) ∈ l) (cur : (ringAt d p r).cur = some x) (open_ : x.finished = false) :
    (ringAt (each l d hitRun) p r).cur = some (metError x) := by
  induction l generalizing d with
  | nil => cases among
  | cons e l ih =>
    rw [each_cons]
    have first := hitRun_cur d e p r
    by_cases here : p = e.1 ∧ r = e.2
    · rw [if_pos here, cur, Option.map_some, open_, if_neg Bool.false_ne_true] at first
      rcases (hitRuns_only l (hitRun d e)).cur p r with same | ⟨y, cur', open', -⟩
      · exact same.trans first
      · rw [first, Option.some.injEq] at cur'
        rw [← cur'] at open'
        cases open'
    · rw [if_neg here] at first
      refine ih _ ((List.mem_cons.1 among).resolve_left fun same => here ⟨congrArg Prod.fst same, congrArg Prod.snd same⟩) (first.trans cur)

/-! ## Who meets it -/

theorem victim_mem {α : Type} {d : Dev} {l : List α} {x : α} (chosen : (victim d l).1 = some x) : x ∈ l := List.mem_of_getElem? chosen

theorem mem_runningThat {d : Dev} {f : LPort → Run → Bool} {p : LPort} {r : RingNo} :
    (p, r) ∈ runningThat d f ↔ ∃ x, (ringAt d p r).cur = some x ∧ x.finished = false ∧ f p x = true := by
  unfold runningThat
  simp only [List.mem_flatMap, List.mem_filterMap, mem_allLem, mem_allRings, true_and]
  constructor
  · rintro ⟨q, z, h⟩
    split at h
    · rename_i x cur
      split at h
      · rename_i runs
        cases h
        exact ⟨x, cur, by simpa using (Bool.and_eq_true_iff.1 runs).1, (Bool.and_eq_true_iff.1 runs).2⟩
      · cases h
    · cases h
  · rintro ⟨x, cur, open_, holds⟩
    refine ⟨p, r, ?_⟩
    rw [cur]
    dsimp only
    rw [open_, holds]
    rfl

/-- What a health count leaves: it is one field of the status and page causes. -/
theorem bumpHealth_keeps (d : Dev) (n : Fin 7) : (bumpHealth d n).recov = d.recov ∧ (bumpHealth d n).store = d.store ∧ (bumpHealth d n).coll = d.coll ∧ (bumpHealth d n).pegs = d.pegs := by
  obtain ⟨-, -, -, st, v, counted⟩ := bumpHealth_facts d n
  rw [counted]
  exact ⟨rfl, rfl, rfl, rfl⟩

/-- What a list has with one more element. -/
theorem mem_addNew (l : List Nat) (v w : Nat) : w ∈ addNew l v ↔ w ∈ l ∨ w = v := by
  unfold addNew
  split
  · rename_i held
    have inside : v ∈ l := List.contains_iff_mem.1 held
    exact ⟨Or.inl, fun h => h.elim id fun same => same ▸ inside⟩
  · rw [List.mem_append, List.mem_singleton]

/-! ## Each site -/

/-- An error in a leaf port's island: what the unit is once a victim has met it. -/
def leafError (d : Dev) (p : LPort) : Dev :=
  let v := victim d (runningThat d fun q _ => q == p)
  faultDue (each v.1.toList (bumpHealth v.2 4) hitRun) 4 p.val

/-- The candidates of an error in another island: every running descriptor, and what is open without descriptors here (log 12). -/
def islandCandidates (d : Dev) : List ((LPort × RingNo) ⊕ Inst) := (runningThat d fun _ _ => true).map Sum.inl ++ (d.coll.insts.filter fun x => x.runs.isEmpty).map Sum.inr

def hitEither (d : Dev) (e : (LPort × RingNo) ⊕ Inst) : Dev := match e with
  | .inl e => hitRun d e
  | .inr x => hitInst d x

/-- An error in another island. -/
def islandError (d : Dev) : Dev :=
  let v := victim d (islandCandidates d)
  faultDue (each v.1.toList (bumpHealth v.2 4) hitEither) 5 0

theorem checkBitError_leaf {s : State} (running : alive s = true) (p : LPort) : exec (.checkBitError (.leafIsland p)) s = .next { s with dev := epilogue s.cfg (leafError s.dev p) } := by
  change execCheckBitError (.leafIsland p) s = _
  rw [execCheckBitError, onDev_alive running]
  rfl

theorem checkBitError_other {s : State} (running : alive s = true) : exec (.checkBitError .otherIsland) s = .next { s with dev := epilogue s.cfg (islandError s.dev) } := by
  change execCheckBitError .otherIsland s = _
  rw [execCheckBitError, onDev_alive running]
  rfl

/-- A descriptor that a victim of the counted error is, and no other, meets it. -/
theorem leafError_facts (d : Dev) (p : LPort) :
    (leafError d p).recov.due = d.recov.due ++ [(4, p.val)] ∧ (leafError d p).stat.health[4] = satInc64 d.stat.health[4] 1 ∧
    ∀ (q : LPort) (r : RingNo), (ringAt (leafError d p) q r).cur = (ringAt d q r).cur ∨
      ∃ x, (ringAt d q r).cur = some x ∧ x.finished = false ∧ (q == p) = true ∧ (ringAt (leafError d p) q r).cur = some (metError x) := by
  unfold leafError
  dsimp only
  obtain ⟨rings, health, -, -⟩ := bumpHealth_facts (victim d (runningThat d fun q _ => q == p)).2 4
  obtain ⟨recov, -⟩ := bumpHealth_keeps (victim d (runningThat d fun q _ => q == p)).2 4
  have rings' : ∀ q r, ringAt (bumpHealth (victim d (runningThat d fun q _ => q == p)).2 4) q r = ringAt d q r := rings
  have only := hitRuns_only (victim d (runningThat d fun q _ => q == p)).1.toList (bumpHealth (victim d (runningThat d fun q _ => q == p)).2 4)
  refine ⟨?_, ?_, fun q r => ?_⟩
  · exact congrArg (fun z : Rec => z.due ++ [(4, p.val)]) (only.recov.trans recov)
  · exact (congrArg (fun z : Stat => z.health[4]) only.stat).trans health
  · cases chosen : (victim d (runningThat d fun q _ => q == p)).1 with
    | none => exact Or.inl (congrArg Ring.cur (rings' q r))
    | some e =>
      obtain ⟨x, cur, open_, here⟩ := mem_runningThat.1 (victim_mem chosen)
      have met := hitRun_cur (bumpHealth (victim d (runningThat d fun q _ => q == p)).2 4) e q r
      rw [rings'] at met
      by_cases same : q = e.1 ∧ r = e.2
      · obtain ⟨rfl, rfl⟩ := same
        refine Or.inr ⟨x, cur, open_, here, met.trans ?_⟩
        rw [if_pos ⟨rfl, rfl⟩, cur, Option.map_some, open_, if_neg Bool.false_ne_true]
      · rw [if_neg same] at met
        exact Or.inl met

/-- What one of the candidates of another island's error becomes. -/
theorem islandError_facts (d : Dev) :
    (islandError d).recov.due = d.recov.due ++ [(5, 0)] ∧ (islandError d).stat.health[4] = satInc64 d.stat.health[4] 1 ∧
    (∀ p r, (ringAt (islandError d) p r).cur = (ringAt d p r).cur ∨ ∃ x, (ringAt d p r).cur = some x ∧ x.finished = false ∧ (ringAt (islandError d) p r).cur = some (metError x)) ∧
    ((islandError d).coll.insts = d.coll.insts ∨
      ∃ x ∈ d.coll.insts, x.runs = [] ∧ (islandError d).coll.insts = d.coll.insts.map fun y => if y.tenant = x.tenant ∧ y.coll = x.coll then { y with spoiled := true } else y) := by
  unfold islandError
  dsimp only
  obtain ⟨rings, health, -, -⟩ := bumpHealth_facts (victim d (islandCandidates d)).2 4
  obtain ⟨recov, -, coll, -⟩ := bumpHealth_keeps (victim d (islandCandidates d)).2 4
  have rings' : ∀ q r, ringAt (bumpHealth (victim d (islandCandidates d)).2 4) q r = ringAt d q r := rings
  have insts : (bumpHealth (victim d (islandCandidates d)).2 4).coll.insts = d.coll.insts := congrArg Coll.insts coll
  have met : HitsOnly (bumpHealth (victim d (islandCandidates d)).2 4) (each (victim d (islandCandidates d)).1.toList (bumpHealth (victim d (islandCandidates d)).2 4) hitEither) :=
    each_rel HitsOnly .refl (fun _ _ _ => .trans) _ _ (fun e z => match z with
      | .inl z => hitRun_only e z
      | .inr z => hitInst_only e z) _
  refine ⟨congrArg (fun z : Rec => z.due ++ [(5, 0)]) (met.recov.trans recov), (congrArg (fun z : Stat => z.health[4]) met.stat).trans health, fun p r => ?_, ?_⟩
  · have cur := met.cur p r
    rw [rings'] at cur
    exact cur
  · cases chosen : (victim d (islandCandidates d)).1 with
    | none => exact Or.inl insts
    | some e =>
      have among := victim_mem chosen
      cases e with
      | inl e => exact Or.inl insts
      | inr x =>
        have held : x ∈ d.coll.insts.filter fun x => x.runs.isEmpty := by
          simpa [islandCandidates] using among
        have empty : x.runs = [] := List.isEmpty_iff.1 (List.mem_filter.1 held).2
        refine Or.inr ⟨x, (List.mem_filter.1 held).1, empty, ?_⟩
        change (hitInst (bumpHealth (victim d (islandCandidates d)).2 4) x).coll.insts = _
        unfold hitInst
        rw [empty, each_nil, modInst]
        dsimp only
        rw [insts]

/-- Before a Spool word that is not to wait is met: who was using it may have met the error already (R522, R524). -/
theorem spoolError_eq (c : Cfg) (d : Dev) (a : Nat) (goes : (savedPegWord c d (a / 32 * 32) || (decide (8192 * 1048576 ≤ a / 32 * 32) && (regionRuns c d (a / 32 * 32)).isEmpty)) = false) :
    ∃ e, HitsOnly d e ∧ spoolError c d a = faultDue (each (regionRuns c d (a / 32 * 32)) (meetBad e [a / 32 * 32]) hitRun) 5 0 := by
  unfold spoolError
  dsimp only
  rw [goes, if_neg Bool.false_ne_true]
  have drawn : ∀ {α : Type} (l : List α), HitsOnly d (victim d l).2 := fun _ => ⟨rfl, rfl, rfl, rfl, fun _ _ => Or.inl rfl⟩
  split
  · exact ⟨_, (drawn _).trans (hitRuns_only _ _), rfl⟩
  · split
    · exact ⟨_, (drawn _).trans (hitInsts_only _ _), rfl⟩
    · exact ⟨d, .refl d, rfl⟩

theorem spoolError_waits (c : Cfg) (d : Dev) (a : Nat) (waits : (savedPegWord c d (a / 32 * 32) || (decide (8192 * 1048576 ≤ a / 32 * 32) && (regionRuns c d (a / 32 * 32)).isEmpty)) = true) :
    spoolError c d a = { d with store := { d.store with spoolBad := addNew d.store.spoolBad (a / 32 * 32) } } := by
  unfold spoolError
  dsimp only
  rw [waits, if_pos rfl]
  rfl

/-- Whether the error waits for a read that meets it, in the words of the spec: at a saved peg's word, or at a tenant's to which no descriptor adds (log 102). -/
theorem spool_waits (c : Cfg) (d : Dev) (a : Nat) :
    (savedPegWord c d (a / 32 * 32) || (decide (8192 * 1048576 ≤ a / 32 * 32) && (regionRuns c d (a / 32 * 32)).isEmpty)) = true ↔
      savedPegWord c d (a / 32 * 32) = true ∨ (8192 * 1048576 ≤ a ∧ regionRuns c d (a / 32 * 32) = []) := by
  have aligned : 8192 * 1048576 ≤ a / 32 * 32 ↔ 8192 * 1048576 ≤ a := by omega
  rw [Bool.or_eq_true, Bool.and_eq_true, decide_eq_true_iff, List.isEmpty_iff, aligned]

theorem spoolError_facts (c : Cfg) (d : Dev) (a : Nat) (goes : (savedPegWord c d (a / 32 * 32) || (decide (8192 * 1048576 ≤ a / 32 * 32) && (regionRuns c d (a / 32 * 32)).isEmpty)) = false) :
    (spoolError c d a).recov.due = d.recov.due ++ [(5, 0)] ∧ (spoolError c d a).stat.health[1] = satInc64 d.stat.health[1] 1 ∧ poisoned (spoolError c d a).store (a / 32 * 32) = true ∧
    ∀ p r x, (p, r) ∈ regionRuns c d (a / 32 * 32) → (ringAt d p r).cur = some x →
      ∃ y, (ringAt (spoolError c d a) p r).cur = some y ∧ y.finished = true ∧ y.status = 0x22 ∧ y.metFault = true ∧ y.index = x.index := by
  obtain ⟨e, before, shape⟩ := spoolError_eq c d a goes
  have met := meetBad_met e [a / 32 * 32]
  have only := hitRuns_only (regionRuns c d (a / 32 * 32)) (meetBad e [a / 32 * 32])
  have count : (meetBad e [a / 32 * 32]).stat.health[1] = satInc64 e.stat.health[1] 1 := (bumpHealth_facts e 1).2.1
  rw [shape]
  refine ⟨congrArg (fun z : Rec => z.due ++ [(5, 0)]) (only.recov.trans (met.parts.2.2.trans before.recov)), ?_, ?_, fun p r x among cur => ?_⟩
  · exact (congrArg (fun z : Stat => z.health[1]) only.stat).trans (count.trans (congrArg (fun z : Stat => satInc64 z.health[1] 1) before.stat))
  · exact (congrArg (fun z : Store => poisoned z (a / 32 * 32)) only.store).trans ((met.poison _).2 (Or.inr List.mem_cons_self))
  · obtain ⟨x', cur', open_, -⟩ := mem_runningThat.1 among
    rw [cur, Option.some.injEq] at cur'
    rw [← cur'] at open_
    rcases before.cur p r with same | ⟨x', cur', -, hit⟩
    · refine ⟨metError x, ?_, rfl, rfl, rfl, rfl⟩
      exact hitRuns_meet _ _ among (by rw [met.rings, same, cur]) open_
    · rw [cur, Option.some.injEq] at cur'
      refine ⟨metError x, ?_, rfl, rfl, rfl, rfl⟩
      have kept : (ringAt (meetBad e [a / 32 * 32]) p r).cur = some (metError x) := by rw [met.rings, hit, cur']
      rcases only.cur p r with same | ⟨y, found, open', -⟩
      · exact same.trans kept
      · rw [kept, Option.some.injEq] at found
        rw [← found] at open'
        cases open'

/-- Whether a block holds a yard word. -/
def blockHolds (c : Cfg) (w : Nat) (b : Block) : Bool := (List.range (blockBytes b / 32 + 2)).any fun k =>
  decide (32 * k < blockBytes b + 31) && yardPhys c b.tenant (b.addr + min (32 * k) (blockBytes b - 1)) / 32 * 32 == w

theorem yardError_eq (c : Cfg) (d : Dev) (a : Nat) :
    ∃ e l, HitsOnly d e ∧ yardError c d a = faultDue (each l (dropBadBlocks c (bumpHealth e 3) (a / 32 * 32)) hitInst) 5 0 := by
  have drawn : HitsOnly d (oneOf d (pressReads d (blockHolds c (a / 32 * 32)))).2 := ⟨rfl, rfl, rfl, rfl, fun _ _ => Or.inl rfl⟩
  have chosen : ∀ {α : Type} (e : Dev) (l : List α), HitsOnly e (victim e l).2 := fun _ _ => ⟨rfl, rfl, rfl, rfl, fun _ _ => Or.inl rfl⟩
  unfold yardError
  dsimp only
  split
  · exact ⟨_, _, (drawn.trans (chosen _ _)).trans (hitInsts_only _ _), rfl⟩
  · exact ⟨_, _, drawn, rfl⟩

theorem yardError_facts (c : Cfg) (d : Dev) (a : Nat) :
    (yardError c d a).recov.due = d.recov.due ++ [(5, 0)] ∧ (yardError c d a).stat.health[3] = satInc64 d.stat.health[3] 1 ∧
    (yardError c d a).store.dir = (dropBadBlocks c d (a / 32 * 32)).store.dir := by
  obtain ⟨e, l, before, shape⟩ := yardError_eq c d a
  obtain ⟨-, health, -, -⟩ := bumpHealth_facts e 3
  obtain ⟨recov, store, -, -⟩ := bumpHealth_keeps e 3
  have only := hitInsts_only l (dropBadBlocks c (bumpHealth e 3) (a / 32 * 32))
  rw [shape]
  refine ⟨congrArg (fun z : Rec => z.due ++ [(5, 0)]) (only.recov.trans (recov.trans before.recov)), ?_, ?_⟩
  · exact (congrArg (fun z : Stat => z.health[3]) only.stat).trans (health.trans (congrArg (fun z : Stat => satInc64 z.health[3] 1) before.stat))
  · refine (congrArg Store.dir only.store).trans ?_
    unfold dropBadBlocks modStore
    dsimp only
    rw [store, before.store]

/-- An error in a pool peg's word: it is marked, once. -/
def pegError (d : Dev) (k : Nat) : Dev := faultDue (modPegs (bumpHealth d 4) fun x => { x with bad := if x.bad.contains k then x.bad else x.bad ++ [k] }) 5 0

theorem pegError_facts (d : Dev) (k : Nat) :
    (pegError d k).recov.due = d.recov.due ++ [(5, 0)] ∧ (pegError d k).stat.health[4] = satInc64 d.stat.health[4] 1 ∧ (pegError d k).coll = d.coll ∧
    (pegError d k).pegs = { d.pegs with bad := (pegError d k).pegs.bad } ∧ (∀ n, n ∈ (pegError d k).pegs.bad ↔ n ∈ d.pegs.bad ∨ n = k) ∧ ∀ p r, ringAt (pegError d k) p r = ringAt d p r := by
  obtain ⟨rings, health, -, -⟩ := bumpHealth_facts d 4
  obtain ⟨recov, -, coll, pegs⟩ := bumpHealth_keeps d 4
  refine ⟨congrArg (fun z : Rec => z.due ++ [(5, 0)]) recov, health, coll, ?_, fun n => ?_, rings⟩
  · unfold pegError faultDue modPegs modRec
    dsimp only
    rw [pegs]
  · have bad : (pegError d k).pegs.bad = addNew d.pegs.bad k := congrArg (fun z : Pegs => addNew z.bad k) pegs
    rw [bad]
    exact mem_addNew _ k n

/-- Settles O54: stalls, and each site of an error. -/
theorem stallsAndErrorsThisUnitFinds : Obligations.StallsAndErrorsThisUnitFinds := by
  intro s running hit some_ waits
  have onSpool : ∀ {a : Nat}, a < 2 ^ 36 → exec (.checkBitError (.spool a)) s = .next { s with dev := epilogue s.cfg (spoolError s.cfg s.dev a) } := by
    intro a within
    change execCheckBitError (.spool a) s = _
    rw [execCheckBitError, onDev_alive running]
    dsimp only
    rw [if_pos within]
  refine ⟨fun p up => ?_, fun p down => ?_, fun island other => ⟨haltDev s.dev, ?_, ?_⟩, fun p => ⟨_, checkBitError_leaf running p, leafError_facts s.dev p⟩, ⟨_, checkBitError_other running, ?_⟩, fun k => ?_, fun site n among => ?_,
    fun a beyond => ?_, fun a within held => ?_, fun a within goes => ?_, fun a beyond => ?_, fun a within => ⟨_, ?_, yardError_facts s.cfg s.dev a⟩⟩
  · change execCrossingQueueStall (.leaf p) s = _
    rw [execCrossingQueueStall, onDev_alive running]
    dsimp only
    rw [if_pos up]
  · change execCrossingQueueStall (.leaf p) s = _
    rw [execCrossingQueueStall, onDev_alive running]
    dsimp only
    rw [if_neg down]
  · change execCrossingQueueStall island s = _
    rw [execCrossingQueueStall, onDev_alive running]
    cases island with
    | leaf p => exact absurd rfl (other p)
    | _ => rfl
  · obtain ⟨discarded, stat, -, ports⟩ := haltDev_facts s.dev
    exact ⟨discarded, stat, ports⟩
  · obtain ⟨due, health, cur, insts⟩ := islandError_facts s.dev
    refine ⟨due, health, fun p r => ?_, insts⟩
    rcases cur p r with same | ⟨x, cur, open_, met⟩
    · exact Or.inl same
    · exact Or.inr ⟨x, cur, open_, rfl, met⟩
  · refine ⟨pegError s.dev k.toNat, ?_, pegError_facts s.dev k.toNat⟩
    change execCheckBitError (.poolPeg k) s = _
    rw [execCheckBitError, onDev_alive running]
    rfl
  · obtain ⟨rings, health, -, -⟩ := bumpHealth_facts s.dev n
    obtain ⟨recov, store, coll, pegs⟩ := bumpHealth_keeps s.dev n
    refine ⟨bumpHealth s.dev n, ?_, health, fun m other => bumpHealthN_other s.dev other 1, store, coll, pegs, recov, rings⟩
    change execCheckBitError site s = _
    rw [execCheckBitError, onDev_alive running]
    simp only [List.mem_cons, Prod.mk.injEq, List.not_mem_nil, or_false] at among
    rcases among with ⟨rfl, rfl⟩ | ⟨rfl, rfl⟩ | ⟨rfl, rfl⟩ <;> rfl
  · change execCheckBitError (.spool a) s = _
    rw [execCheckBitError, onDev_alive running]
    dsimp only
    rw [if_neg (Nat.not_lt.2 beyond)]
  · refine ⟨_, onSpool within, ?_, ?_⟩
    · rw [spoolError_waits s.cfg s.dev a ((spool_waits s.cfg s.dev a).2 held)]
    · rw [spoolError_waits s.cfg s.dev a ((spool_waits s.cfg s.dev a).2 held)]
      exact mem_addNew _ _
  · exact ⟨_, onSpool within, spoolError_facts s.cfg s.dev a (Bool.eq_false_iff.2 fun h => goes ((spool_waits s.cfg s.dev a).1 h))⟩
  · change execCheckBitError (.yard a) s = _
    rw [execCheckBitError, onDev_alive running]
    dsimp only
    rw [if_neg (Nat.not_lt.2 beyond)]
  · change execCheckBitError (.yard a) s = _
    rw [execCheckBitError, onDev_alive running]
    dsimp only
    rw [if_pos within]

end Sys2Proof.Machine
end

section
/-! The instructions of the debug port (R150, R274, R542, R550, R558, R662, R664 to R670, R675). -/
namespace Sys2Proof.Machine
open Sys2Proof

/-! ## The rows -/

/-- The address of the read that an Update-DR of DBG_READ starts (R666). -/
def nextRead (x : Dbg) : W64 :=
  if x.busy then x.addr else BitVec.ofNat 64 (2 ^ 56 * dbgSpace x.addr + (dbgUnit x.addr + if dbgSpace x.addr = 1 ∨ dbgSpace x.addr = 2 then 32 else 1) % 2 ^ 56)

section
variable (h : BitVec 2) (k v : W16) (l : BitVec 3) (s : State)

theorem exec_dbgStatus : exec .dbgStatus s = privateTap s 0x40 (fun s => shiftBits (debugStatus s)) fun _ d => d := rfl
theorem exec_dbgAddr (a : W64) : exec (.dbgAddr a) s = privateTap s 0x41 (fun _ => []) fun _ d => { d with dbg := { d.dbg with addr := a, started := true, busy := true, result := 0 } } := rfl
theorem exec_handSet : exec (.handSet h k) s = privateTap s 0x43 (fun _ => []) fun c d => handPeg c d h k 1 fun y => (pegApply 1 y 0).1 := rfl
theorem exec_handClear : exec (.handClear h k) s = privateTap s 0x43 (fun _ => []) fun c d => handPeg c d h k 2 fun y => (pegApply 2 y 0).1 := rfl
theorem exec_handTallyAdd : exec (.handTallyAdd h k v) s = privateTap s 0x43 (fun _ => []) fun c d => handPeg c d h k 3 fun y => (pegApply 3 y v).1 := rfl
theorem exec_handTallyTake : exec (.handTallyTake h k v) s = privateTap s 0x43 (fun _ => []) fun c d => handPeg c d h k 4 fun y => (pegApply 4 y v).1 := rfl
theorem exec_handWriteValue : exec (.handWriteValue h k v) s = privateTap s 0x43 (fun _ => []) fun c d => handPeg c d h k 1 fun _ => v := rfl

/-- What DBG_READ does with an Update-DR, and without (R666). -/
def readOn (update : Bool) (d : Dev) : Dev := if update then { d with dbg := { d.dbg with addr := nextRead d.dbg, started := true, busy := true, result := 0 } } else d

theorem exec_dbgRead (update : Bool) : exec (.dbgRead update) s = privateTap s 0x42 (fun s => shiftBits (dbgCapture s.dev.dbg)) fun _ d => readOn update d := by
  cases update <;> rfl

/-- The open phase that a hand operation ends (R668). -/
def handPhase (d : Dev) (h : BitVec 2) (k : W16) : Option Phase := if h = 0 then d.pegs.phases.find? fun x => x.peg == k.toNat else none

/-- Ending it. -/
def endPhase (c : Cfg) (d : Dev) (h : BitVec 2) (k : W16) : Dev := (handPhase d h k).elim d fun x => epilogue c (countHand (engineMismatch c d x.tenant x.peg (x.reported.map (·.1))))

theorem exec_handEndBarrierPhase : exec (.handEndBarrierPhase h k) s = privateTap s 0x43 (fun _ => []) fun c d => endPhase c d h k := by
  change execHandEndBarrierPhase h k s = _
  unfold execHandEndBarrierPhase endPhase handPhase
  congr 1
  funext c d
  generalize (if h = 0 then d.pegs.phases.find? fun x => x.peg == k.toNat else none) = o
  cases o with
  | none => rfl
  | some x => dsimp only [Option.elim]

theorem exec_dbgLoopEnter : exec (.dbgLoopEnter l) s = privateTap s 0x44 (fun _ => []) fun _ d =>
    if l.toNat < 6 ∧ mayLoop d (fin6 l.toNat) = true then modT d (fin6 l.toNat) fun x => { x with loopLeader := true, looped := true, loopFollower := false, loopBits := List.replicate 16 0, loopErrors := List.replicate 16 0 } else d := rfl
theorem exec_dbgLoopLeave : exec (.dbgLoopLeave l) s = privateTap s 0x44 (fun _ => []) fun c d =>
    if l.toNat < 6 ∧ d.trl[fin6 l.toNat].loopLeader = true then tryStep10 c s.hk.dieSerial (modT d (fin6 l.toNat) fun x => { x with st := .silent, loopLeader := false }) else d := rfl

end

/-- Each row of the debug port loads its own code, and acts through the lock. -/
theorem exec_private_code (c : Instr) (s : State) (row : privateRow c = true) :
    ∃ (ir : Byte) (dr : State → List Bool) (act : Cfg → Dev → Dev), 0x40 ≤ ir ∧ ir ≤ 0x44 ∧ exec c s = privateTap s ir dr act := by
  cases c
  case dbgStatus => exact ⟨_, _, _, by decide, by decide, exec_dbgStatus s⟩
  case dbgAddr a => exact ⟨_, _, _, by decide, by decide, exec_dbgAddr s a⟩
  case dbgRead update => exact ⟨_, _, _, by decide, by decide, exec_dbgRead s update⟩
  case handSet h k => exact ⟨_, _, _, by decide, by decide, exec_handSet h k s⟩
  case handClear h k => exact ⟨_, _, _, by decide, by decide, exec_handClear h k s⟩
  case handTallyAdd h k v => exact ⟨_, _, _, by decide, by decide, exec_handTallyAdd h k v s⟩
  case handTallyTake h k v => exact ⟨_, _, _, by decide, by decide, exec_handTallyTake h k v s⟩
  case handWriteValue h k v => exact ⟨_, _, _, by decide, by decide, exec_handWriteValue h k v s⟩
  case handEndBarrierPhase h k => exact ⟨_, _, _, by decide, by decide, exec_handEndBarrierPhase h k s⟩
  case dbgLoopEnter l => exact ⟨_, _, _, by decide, by decide, exec_dbgLoopEnter l s⟩
  case dbgLoopLeave l => exact ⟨_, _, _, by decide, by decide, exec_dbgLoopLeave l s⟩
  all_goals exact absurd row Bool.false_ne_true

/-! ## The lock -/

theorem privateTap_closed {s : State} (closed : debugOpen s = false) (ir : Byte) (dr : State → List Bool) (act : Cfg → Dev → Dev) : privateTap s ir dr act = .next (asBypass s ir) := by
  rw [privateTap, closed, if_neg Bool.false_ne_true]

theorem debugOpen_alive {s : State} (opened : debugOpen s = true) : alive s = true ∧ s.hk.vddIo = true := by
  simp only [debugOpen, Bool.and_eq_true] at opened
  have running := opened.1.1
  refine ⟨running, ?_⟩
  simp only [alive, Bool.and_eq_true] at running
  exact running.1.1.1.1.1

/-- What the test access port holds of a debug instruction that is executed, and what it makes of the unit. -/
def heldTap (s : State) (ir : Byte) (dr : List Bool) (d : Dev) : Host.Outcome State Fault Refusal := .next { s with hk := { s.hk with tapIr := ir, tapDr := dr, pinDrive := .none }, dev := d }

theorem privateTap_open {s : State} (opened : debugOpen s = true) (ir : Byte) (dr : State → List Bool) (act : Cfg → Dev → Dev) : privateTap s ir dr act = heldTap s ir (dr s) (act s.cfg s.dev) := by
  rw [privateTap, opened, if_pos rfl, loadTap, (debugOpen_alive opened).2, if_pos rfl]
  rfl

/-! ## Status and reads -/

/-- What DBG_STATUS captures, as a number: the fields do not overlap (R664). -/
theorem debugStatus_toNat {s : State} (small : ownAddr s.dev < 64) :
    (debugStatus s).toNat = 1 + 2 * b2n s.dev.stat.ready + 4 * b2n s.dev.stat.faultN + 8 * b2n s.dev.stat.stop.isSome + 2 ^ 8 * (s.dev.stat.stop.map stopNat).getD 0 +
      2 ^ 16 * ownAddr s.dev + 2 ^ 22 * b2n s.dev.sow.formed + 2 ^ 32 * s.dev.dbg.handOps.toNat := by
  have bit : ∀ b : Bool, b2n b ≤ 1 := fun b => by cases b <;> decide
  have stops : ∀ x : Stop, stopNat x ≤ 12 := fun x => by cases x <;> decide
  have stop : (s.dev.stat.stop.map stopNat).getD 0 ≤ 12 := by
    cases s.dev.stat.stop with
    | none => exact Nat.zero_le _
    | some x => exact stops x
  have hands := s.dev.dbg.handOps.isLt
  have ready := bit s.dev.stat.ready
  have fault := bit s.dev.stat.faultN
  have isStop := bit s.dev.stat.stop.isSome
  have formed := bit s.dev.sow.formed
  have number : debugStatus s = BitVec.ofNat 64 (1 + 2 * b2n s.dev.stat.ready + 4 * b2n s.dev.stat.faultN + 8 * b2n s.dev.stat.stop.isSome + 2 ^ 8 * (s.dev.stat.stop.map stopNat).getD 0 +
      2 ^ 16 * ownAddr s.dev + 2 ^ 22 * b2n s.dev.sow.formed + 2 ^ 32 * s.dev.dbg.handOps.toNat) := by
    unfold debugStatus stopped
    dsimp only
    cases s.dev.stat.stop with
    | none => rfl
    | some x => rfl
  rw [number, BitVec.toNat_ofNat]
  exact Nat.mod_eq_of_lt (by omega)

theorem nextRead_toNat (x : Dbg) :
    (nextRead x).toNat = if x.busy = true then x.addr.toNat else
      2 ^ 56 * (x.addr.toNat / 2 ^ 56) + (x.addr.toNat % 2 ^ 56 + if x.addr.toNat / 2 ^ 56 = 1 ∨ x.addr.toNat / 2 ^ 56 = 2 then 32 else 1) % 2 ^ 56 := by
  unfold nextRead dbgSpace dbgUnit
  split
  · rfl
  · rw [BitVec.toNat_ofNat]
    refine Nat.mod_eq_of_lt ?_
    have small := x.addr.isLt
    have unit_ := Nat.mod_lt (x.addr.toNat % 2 ^ 56 + if x.addr.toNat / 2 ^ 56 = 1 ∨ x.addr.toNat / 2 ^ 56 = 2 then 32 else 1) (show 0 < 2 ^ 56 by decide)
    omega

/-- A space that is none reads nothing (R665). -/
theorem dbgData_outside {hk : Hk} {c : Cfg} {d : Dev} {k : Nat} (outside : 9 < dbgSpace d.dbg.addr ∨ dbgSpace d.dbg.addr = 0) : dbgData hk c d k = none := by
  unfold dbgData
  dsimp only
  split
  case h_10 => rfl
  all_goals omega

/-- The word of a pool peg in the debug spaces (R667). -/
def pegWord (c : Cfg) (d : Dev) (a : Nat) : Nat :=
  (poolPeg d a).toNat + 2 ^ 16 * b2n (d.pegs.watches.any fun w => w.peg == a) + 2 ^ 17 * b2n (d.pegs.phases.any fun x => x.peg == a) + 2 ^ 18 * sliceTenant c a

theorem dbgData_pegs (hk : Hk) (c : Cfg) (d : Dev) (k : Nat) (space : dbgSpace d.dbg.addr = 3) :
    dbgData hk c d k = if dbgUnit d.dbg.addr < 65536 then some (pegWord c d (dbgUnit d.dbg.addr), false) else none := by
  unfold dbgData pegWord
  simp only [space]

/-- The fields of a result that reads a word which is not poisoned (R666). -/
theorem dbgResult_fields (v : Nat) (cor unc : Bool) :
    (dbgResult (some (v, false)) cor unc).toNat / 2 ^ 256 % 8 = b2n cor + 2 * b2n unc ∧ (dbgResult (some (v, false)) cor unc).toNat % 65536 = if unc then 0 else v % 65536 := by
  have small : v % 2 ^ 256 < 2 ^ 256 := Nat.mod_lt _ (by decide)
  have within : v % 2 ^ 256 % 65536 = v % 65536 := Nat.mod_mod_of_dvd v ⟨2 ^ 240, by decide⟩
  unfold dbgResult
  rw [BitVec.toNat_ofNat]
  cases cor <;> cases unc <;> simp only [b2n, Bool.false_eq_true, if_true, if_false] <;> omega

/-- A read of pool pegs: the peg's value, and the flags of its word (R666, R667). -/
theorem read_peg (hk : Hk) (c : Cfg) (d : Dev) (k : Nat) (cor unc : Bool) (space : dbgSpace d.dbg.addr = 3) (within : dbgUnit d.dbg.addr < 65536) :
    (dbgResult (dbgData hk c d k) cor unc).toNat / 2 ^ 256 % 8 = b2n cor + 2 * b2n unc ∧
    (dbgResult (dbgData hk c d k) cor unc).toNat % 65536 = if unc then 0 else (poolPeg d (dbgUnit d.dbg.addr)).toNat := by
  rw [dbgData_pegs hk c d k space, if_pos within]
  obtain ⟨flags, value⟩ := dbgResult_fields (pegWord c d (dbgUnit d.dbg.addr)) cor unc
  have low : pegWord c d (dbgUnit d.dbg.addr) % 65536 = (poolPeg d (dbgUnit d.dbg.addr)).toNat := by
    have small := (poolPeg d (dbgUnit d.dbg.addr)).isLt
    unfold pegWord
    omega
  rw [low] at value
  exact ⟨flags, value⟩

/-! ## Hand operations -/

section
variable {c : Cfg} {d : Dev} {h : BitVec 2} {k : W16} {pop : Nat} {f : W16 → W16}

theorem handPeg_fails (pool : h = 0) (bad : pegFails d k.toNat pop = true) : handPeg c d h k pop f = countHand d := by
  unfold handPeg
  dsimp only
  rw [if_pos ⟨pool, bad⟩]

theorem handPeg_pool (pool : h = 0) (good : pegFails d k.toNat pop = false) : handPeg c d h k pop f = epilogue c (countHand (poolWrite c d k.toNat (f (poolPeg d k.toNat)))) := by
  unfold handPeg
  dsimp only
  rw [if_neg (by rw [good]; exact fun both => Bool.false_ne_true both.2), if_pos pool]

theorem handPeg_pocket (pocket : h = 1) (within : k.toNat < 6144) :
    handPeg c d h k pop f = countHand (modP d (fin8 (k.toNat / 768)) fun x => { x with pocket := spWrite x.pocket (k.toNat % 768) (f (spRead x.pocket (k.toNat % 768))) }) := by
  subst pocket
  unfold handPeg
  dsimp only
  rw [if_neg (fun both => absurd both.1 (by decide)), if_neg (by decide), if_pos ⟨rfl, within⟩]

theorem handPeg_none (none : h = 2 ∨ h = 3 ∨ (h = 1 ∧ 6144 ≤ k.toNat)) : handPeg c d h k pop f = d := by
  have notPool : h ≠ 0 := by
    rintro rfl
    rcases none with none | none | ⟨none, -⟩ <;> exact absurd none (by decide)
  have notPocket : ¬(h = 1 ∧ k.toNat < 6144) := by
    rintro ⟨rfl, within⟩
    rcases none with none | none | ⟨-, beyond⟩
    · exact absurd none (by decide)
    · exact absurd none (by decide)
    · omega
  unfold handPeg
  dsimp only
  rw [if_neg fun both => notPool both.1, if_neg notPool, if_neg notPocket]

end

/-- The rows of the hand operations on a peg, with the new value and whether they tally. -/
def handRows (h : BitVec 2) (k v : W16) : List (Instr × (W16 → W16) × Bool) :=
  [(.handSet h k, (fun _ => 1), false), (.handClear h k, (fun _ => 0), false), (.handTallyAdd h k v, (fun y => (pegApply 3 y v).1), true),
    (.handTallyTake h k v, (fun y => (pegApply 4 y v).1), true), (.handWriteValue h k v, (fun _ => v), false)]

/-- Each of them changes its peg by hand; a tally fails on a bad word, and no other does (R583, R668). -/
theorem handRow_exec {s : State} (opened : debugOpen s = true) {h : BitVec 2} {k v : W16} {c : Instr} {g : W16 → W16} {tally : Bool} (among : (c, g, tally) ∈ handRows h k v) :
    ∃ pop, exec c s = heldTap s 0x43 [] (handPeg s.cfg s.dev h k pop g) ∧ pegFails s.dev k.toNat pop = (!pegGood s.dev k.toNat && tally) := by
  simp only [handRows, List.mem_cons, Prod.mk.injEq, List.not_mem_nil, or_false] at among
  rcases among with ⟨rfl, rfl, rfl⟩ | ⟨rfl, rfl, rfl⟩ | ⟨rfl, rfl, rfl⟩ | ⟨rfl, rfl, rfl⟩ | ⟨rfl, rfl, rfl⟩
  · exact ⟨1, by rw [exec_handSet, privateTap_open opened]; rfl, by unfold pegFails; simp⟩
  · exact ⟨2, by rw [exec_handClear, privateTap_open opened]; rfl, by unfold pegFails; simp⟩
  · exact ⟨3, by rw [exec_handTallyAdd, privateTap_open opened], by unfold pegFails; simp⟩
  · exact ⟨4, by rw [exec_handTallyTake, privateTap_open opened], by unfold pegFails; simp⟩
  · exact ⟨1, by rw [exec_handWriteValue, privateTap_open opened], by unfold pegFails; simp⟩

/-- The count of hand operations, which saturates (R664). -/
def handCount (x : Dbg) : W16 := if x.handOps = 0xFFFF then 0xFFFF else x.handOps + 1

theorem countHand_facts (d : Dev) : (countHand d).dbg.handOps = handCount d.dbg ∧ (countHand d).pegs = d.pegs := ⟨rfl, rfl⟩

/-- A pool peg written by hand: it is counted, the pool has the value, and no phase changes. -/
theorem handWritten_facts (c : Cfg) (d : Dev) (k : Nat) (v : W16) :
    (countHand (poolWrite c d k v)).dbg.handOps = handCount d.dbg ∧ (countHand (poolWrite c d k v)).pegs.pool = spWrite d.pegs.pool k v ∧ (countHand (poolWrite c d k v)).pegs.phases = d.pegs.phases := by
  obtain ⟨only, pool⟩ := poolWrite_only c d k v
  have dbg : (poolWrite c d k v).dbg = d.dbg := (poolWrite_kept (Kept.refl d) c k v).side.dbg
  generalize poolWrite c d k v = e at *
  obtain ⟨count, pegs⟩ := countHand_facts e
  exact ⟨count.trans (congrArg handCount dbg), (congrArg Pegs.pool pegs).trans pool, (congrArg Pegs.phases pegs).trans only.phases⟩

/-- An open phase ended by hand: it is counted, its count peg reads 0, and it is gone (R558, R668). -/
theorem handEnded_facts (c : Cfg) (d : Dev) (t : Tenant) (k : Nat) (us : List Nat) :
    (countHand (engineMismatch c d t k us)).dbg.handOps = handCount d.dbg ∧ (countHand (engineMismatch c d t k us)).pegs.pool = spWrite d.pegs.pool k 0 ∧
    (countHand (engineMismatch c d t k us)).pegs.phases = d.pegs.phases.filter fun y => !(decide (y.peg = k) && decide (y.tenant = t)) := by
  obtain ⟨pool, phases⟩ := engineMismatch_only c d t k us
  have dbg : (engineMismatch c d t k us).dbg = d.dbg := (engineMismatch_kept (Kept.refl d) c t k us).side.dbg
  generalize engineMismatch c d t k us = e at *
  obtain ⟨count, pegs⟩ := countHand_facts e
  exact ⟨count.trans (congrArg handCount dbg), (congrArg Pegs.pool pegs).trans pool, (congrArg Pegs.phases pegs).trans phases⟩

/-- What DBG_READ captures, case by case (R666). -/
theorem dbgCapture_eq (x : Dbg) : dbgCapture x = if x.started = false then BitVec.ofNat 288 (2 ^ 260) else if x.busy = true then BitVec.ofNat 288 (2 ^ 259) else x.result := by
  unfold dbgCapture
  cases x.started with
  | false => rfl
  | true => rfl

/-- Settles O56: the lock, the status, the reads, the hand operations and the loopback. -/
theorem privateInstructions : Obligations.PrivateInstructions := by
  refine ⟨fun c s row closed => ?_, fun s opened => ?_⟩
  · obtain ⟨ir, dr, act, low, high, acts⟩ := exec_private_code c s row
    exact ⟨ir, low, high, acts.trans (privateTap_closed closed ir dr act)⟩
  intro held bits x more
  have opens : ∀ {c : Instr} {ir : Byte} {dr : State → List Bool} {act : Cfg → Dev → Dev} {d : Dev}, exec c s = privateTap s ir dr act → act s.cfg s.dev = d → exec c s = held ir (dr s) d :=
    fun acts result => acts.trans ((privateTap_open opened _ _ _).trans (by rw [result]; rfl))
  have running := (debugOpen_alive opened).1
  refine ⟨⟨debugStatus s, opens (exec_dbgStatus s) rfl, debugStatus_toNat⟩, fun a => opens (exec_dbgAddr s a) rfl, fun update => ⟨readOn update s.dev, ?_, fun still => ?_, fun goes => ⟨nextRead x, ?_, nextRead_toNat x⟩⟩,
    fun cor unc => ⟨fun idle => ?_, fun busy => ⟨dbgResult (dbgData s.hk s.cfg (draw s.dev).2 (draw s.dev).1) cor unc, ?_, fun outside => ?_, fun space within => ?_, fun space beyond => ?_⟩⟩,
    fun h k v c g tally among => ?_, fun h k => ⟨fun ph pool found => ?_, fun closed => ?_⟩, fun l => ⟨fun low may => ?_, fun no => ?_, fun low leads => ?_, fun no => ?_⟩⟩
  · have captures : bits (dbgCapture x) = bits (if x.started = false then BitVec.ofNat 288 (2 ^ 260) else if x.busy = true then BitVec.ofNat 288 (2 ^ 259) else x.result) := congrArg bits (dbgCapture_eq x)
    rw [← captures]
    exact opens (exec_dbgRead s update) rfl
  · rw [still]; rfl
  · rw [goes]; rfl
  · change execDbgReadDone cor unc s = _
    rw [execDbgReadDone, onDev_alive running, show s.dev.dbg.busy = false from idle, if_neg Bool.false_ne_true]
  · change execDbgReadDone cor unc s = _
    rw [execDbgReadDone, onDev_alive running, show s.dev.dbg.busy = true from busy, if_pos rfl]
    rfl
  · exact congrArg (fun r => dbgResult r cor unc) (dbgData_outside (d := (draw s.dev).2) outside)
  · exact read_peg s.hk s.cfg (draw s.dev).2 _ cor unc space within
  · exact congrArg (fun r => dbgResult r cor unc) ((dbgData_pegs s.hk s.cfg (draw s.dev).2 _ space).trans (if_neg (Nat.not_lt.2 beyond)))
  · obtain ⟨pop, run, fails⟩ := handRow_exec opened among
    have makes : ∀ {d : Dev}, handPeg s.cfg s.dev h k pop g = d → exec c s = held 0x43 [] d := fun result => run.trans (by rw [result]; rfl)
    refine ⟨fun pool isTally bad => makes (handPeg_fails pool ?_), fun pool fine => ⟨_, makes (handPeg_pool pool ?_), handWritten_facts s.cfg s.dev k.toNat _⟩, fun within pocket => makes (handPeg_pocket pocket within),
      fun outside => makes (handPeg_none outside)⟩
    · rw [fails, isTally]
      simp [pegGood, bad]
    · rw [fails]
      rcases fine with plain | good
      · rw [plain, Bool.and_false]
      · simp [pegGood, good]
  · have held' : handPhase s.dev h k = some ph := by rw [handPhase, if_pos pool, found]
    have peg : ph.peg = k.toNat := by simpa using List.find?_some found
    obtain ⟨count, written, gone⟩ := handEnded_facts s.cfg s.dev ph.tenant k.toNat (ph.reported.map (·.1))
    refine ⟨_, opens (exec_handEndBarrierPhase h k s) ?_, count, written, gone⟩
    rw [endPhase, held', Option.elim_some, peg]
  · have none_ : handPhase s.dev h k = none := by
      unfold handPhase
      split
      · rename_i pool
        exact closed.resolve_left (not_not.2 pool)
      · rfl
    refine opens (exec_handEndBarrierPhase h k s) ?_
    rw [endPhase, none_]
    rfl
  · exact opens (exec_dbgLoopEnter l s) (if_pos ⟨low, may⟩)
  · refine opens (exec_dbgLoopEnter l s) (if_neg ?_)
    rintro ⟨low, may⟩
    rcases no with beyond | may'
    · omega
    · rw [may'] at may; cases may
  · exact opens (exec_dbgLoopLeave l s) (if_pos ⟨low, leads⟩)
  · refine opens (exec_dbgLoopLeave l s) (if_neg ?_)
    rintro ⟨low, leads⟩
    rcases no with beyond | follows
    · omega
    · rw [follows] at leads; cases leads

end Sys2Proof.Machine
end
